-- ==== Sys2Proof/Word.lean ====
section
/-!
DEFINITION. The word types of Chesin-1 and the register names an instruction carries (03 R35, R39 to R46).
-/
namespace Sys2Proof

/-- One byte of memory. -/
abbrev Byte := BitVec 8
/-- A half word, the width of a flag, a plain BF16 value and an SCL16 scale. -/
abbrev W16 := BitVec 16
/-- A vector lane. -/
abbrev W32 := BitVec 32
/-- A scalar register. -/
abbrev W64 := BitVec 64
/-- An instruction word (R35). -/
abbrev W128 := BitVec 128
/-- A handle (R53, R55). -/
abbrev W256 := BitVec 256

/-- Scalar register number s0 to s31. -/
abbrev SReg := BitVec 5
/-- Handle number h0 to h15. -/
abbrev HReg := BitVec 4
/-- Address register number a0 to a15. -/
abbrev AReg := BitVec 4
/-- Counting flag number f0 to f63. -/
abbrev FlagNo := BitVec 6
/-- Operand queue number q0 to q7. -/
abbrev QNo := BitVec 3
/-- Accumulator bank number b0 to b3. -/
abbrev BankNo := BitVec 2
/-- Drawer number d0 to d31. -/
abbrev DrawerNo := BitVec 5
/-- Copy channel CH0 to CH3. -/
abbrev ChanNo := BitVec 2
/-- Engine mask of a MUL word: bit 6 is CTL, bit 0 is FAB (R45). -/
abbrev EMask := BitVec 7

/-- A tile: 1,024 lanes, row-major, 16 rows of 64 (R129). -/
abbrev Tile := List W32

end Sys2Proof
end

