-- ==== Sys2Proof/Syntax.lean ====
section
/-!
DEFINITION. The instructions and events of spec/opcode_table.json, one constructor per row, with typed operands.
-/
namespace Sys2Proof

/-- The seven sequencers of a core, in ENG order (R35, R56). -/
inductive Eng where
  | ctl | acc | vec | mat | cld | cst | fab
deriving DecidableEq, Repr

/-- Memory scopes (R39, R316). -/
inductive Scope where
  | core | cluster | die | device | domain
deriving DecidableEq, Repr

/-- Conditions of BR, BREAK and SETC (R64). -/
inductive Cond where
  | eq | ne | lt | ge | ltu | geu | any | none | al
deriving DecidableEq, Repr

/-- The second operand of a format-C word (R91). -/
inductive Op2 where
  | reg (b : SReg)
  | imm (v : W64)
deriving DecidableEq, Repr

/-- Signedness of a CTL integer word, FN 0 and 1 (R92). -/
inductive Sgn where
  | s | u
deriving DecidableEq, Repr

/-- The three products of MULH (R92). -/
inductive MulhKind where
  | ss | uu | su
deriving DecidableEq, Repr

/-- The widths and extensions of a load (R94). -/
inductive LdKind where
  | u8 | u16 | u32 | w64 | s8 | s16 | s32
deriving DecidableEq, Repr

/-- The widths of a store (R94). -/
inductive StKind where
  | b8 | b16 | b32 | b64
deriving DecidableEq, Repr

/-- The width of an atomic (R327). -/
inductive AtW where
  | w32 | w64
deriving DecidableEq, Repr

/-- The ordering clauses of an atomic (R327). -/
inductive AtOrd where
  | plain
  | acq (s : Scope)
  | rel (s : Scope)
  | acqrel (s : Scope)
deriving DecidableEq, Repr

/-- The four kinds of FENCE (R326). -/
inductive FenceKind where
  | acq | rel | acqrel | sc
deriving DecidableEq, Repr

/-- The spaces HSETB names (R97). -/
inductive HSpc where
  | va | sp | dr
deriving DecidableEq, Repr

/-- A VEC source operand code that an operation word accepts (R42, R149). -/
inductive VSrc where
  | t (k : Fin 48)
  | z (k : Fin 16)
  | pop (q : Fin 6)
  | peek (q : Fin 6)
  | immLo
  | immHi
deriving DecidableEq, Repr

/-- A VEC destination operand code (R42, R149). -/
inductive VDst where
  | t (k : Fin 48)
  | z (k : Fin 16)
  | q (q : QNo)
deriving DecidableEq, Repr

/-- Rounding modes (R41). -/
inductive RMode where
  | rne | rtz | rdn | rup
deriving DecidableEq, Repr

/-- TY of the floating groups: 0 or 3 (R148). -/
inductive FTy where
  | f32 | bf16
deriving DecidableEq, Repr

/-- TY of the integer group: 1 or 2 (R148). -/
inductive ITy where
  | i32 | u32
deriving DecidableEq, Repr

/-- TY of the groups that accept 0 to 2 (R148). -/
inductive NTy where
  | f32 | i32 | u32
deriving DecidableEq, Repr

/-- Every TY (R147). -/
inductive VTy where
  | f32 | i32 | u32 | bf16
deriving DecidableEq, Repr

/-- VCMP conditions (R154). -/
inductive VCond where
  | eq | ne | lt | le | gt | ge | un
deriving DecidableEq, Repr

/-- The axis of a row or column word (R156). -/
inductive Axis where
  | row | col
deriving DecidableEq, Repr

/-- The forms of VIOTA (R154). -/
inductive IotaKind where
  | lin | col | row
deriving DecidableEq, Repr

/-- The block formats VPACK writes (R166). -/
inductive BlkFmt where
  | mxi8 | mxi6 | mxi4 | f8e4 | f8e5 | bf16
deriving DecidableEq, Repr

/-- Declared cost of MMA, 4, 6 or 8 cycles per k-step (R225). -/
inductive Cost where
  | c4 | c6 | c8
deriving DecidableEq, Repr

/-- MOUT activations (R225). -/
inductive Epi where
  | id | relu | sigm | tanh | gelu
deriving DecidableEq, Repr

/-- MGATE activations (R225). -/
inductive GateAct where
  | id | sigm | tanh
deriving DecidableEq, Repr

/-- The await clause or the post clause of an async tail; `n` is the encoded count, where 0 means 256 (R46). -/
structure TailClause where
  f : FlagNo
  n : BitVec 8
deriving DecidableEq, Repr

/-- The async tail (R46). -/
structure Tail where
  await : Option TailClause
  post : Option TailClause
deriving DecidableEq, Repr

/-- The completion-counter clause of a copy command, present when CE = 1 (R175, R188). -/
structure CntClause where
  hc : HReg
  csc : Scope
  cinc : W32
deriving DecidableEq, Repr

/-- Which copy engine a word names: CLD or CST. -/
inductive CopyEng where
  | cld | cst
deriving DecidableEq, Repr

/-- Arguments of the host transactions' requester: HYP or a tenant (R389). -/
inductive Requester where
  | hyp
  | tenant (t : BitVec 5)
deriving DecidableEq, Repr

/-- The eight atomic operations (R327). -/
inductive AtOp where
  | add | and | or | xor | min | max | swp | cas
deriving DecidableEq, Repr

/-- What modules tell each other of a chart launch (02 R28, R30, R32; 25 R377): rejected, killed, escalated with its cause, a
gang admitted, a task's arrival at its n-th barrier of a level (8 is BAR.PART), a task ended. -/
inductive LaunchMsg where
  | abort
  | kill
  | escalate (cause : BitVec 8)
  | admitted (gang : Nat)
  | arrive (level n g : Nat)
  | ended (g : Nat)
deriving DecidableEq, Repr

/-- A party of the consistency model (20 R314, R316): a core of this module with the record of its launch where that has a chart (none is
[]), this module's host, a core of the module of a rank of that launch, or another module's host. -/
inductive Party where
  | core (n : Nat) (launch : List Byte)
  | host
  | far (rank n : Nat) (launch : List Byte)
  | farHost
deriving DecidableEq, Repr

/-- An end on its way in a handle item (18 R297): its handle with the new GEN and AUTH, the depth, the counters of a send end, the number of
a receive end's next item, the stream's state as the end knows it, its s*, and the ranks of the other end's module and of the waypoint it left. -/
structure Carried where
  v : BitVec 256
  depth : Nat
  free : Nat
  next : W32
  head : W32
  st : BitVec 2
  final : Option W32
  sstar : Option W32
  peer : Nat
  way : Nat
deriving DecidableEq, Repr

/-- What modules tell each other of a stream (18 R287 to R306, 19 R309 to R311): an item; freed slots, the last of them on a route, and the
receiver's census report (items held, highest number); to the home that the send end is closed or an end destroyed, with its number, that an
end has left or is registered, that the receiver knows where the send end is, the send end's reply, that a waypoint has forwarded
everything below s*, a grant not used, a repair; from the home where an end is now, that a waypoint is retired, that the stream is ORPHAN; and the
questions to a home or a waypoint: an end named, a grant, the stream's state, the items held. -/
inductive StreamMsg where
  | item (sq : W32) (bytes : List Byte) (carried : Option Carried) (rel : Option (Party × Scope))
  | slots (n : Nat)
  | last
  | report (held : Nat) (high : W32)
  | closed (next : W32)
  | lost (recv : Bool) (n : W32)
  | departed (recv : Bool) (gen : W16) (auth : W32)
  | registered (recv : Bool)
  | learned
  | reply (next : W32)
  | forwarded
  | unmove (recv : Bool)
  | repaired
  | located (recv : Bool) (rank : Nat)
  | retired (recv : Bool)
  | orphan (cut : Bool) (next : W32)
  | check (h : BitVec 256) (right room : Bool)
  | move (recv : Bool)
  | stat (recv : Bool)
  | held
deriving DecidableEq, Repr

/-- What a link message asks or answers (25 R380; 27 R395). `port` of a message says which engine waits for the answer; a write and an atomic
carry the scopes at which they release, and an answer the releases that its bytes were read from (20 R319). A contribution is one tile step
of a reducing copy, `last` where the group's expected number then advances; with no step left it is only that advance (09 R182, R193). -/
inductive LinkKind where
  | read (pieces : List (Nat × Nat))
  | write (pieces : List (Nat × List Byte)) (rels : List Scope)
  | atomic (op : AtOp) (w : AtW) (g : Sgn) (offset : Nat) (v c : W64) (rels : List Scope)
  | contribute (int : Bool) (grp : Nat) (sq : W16) (step : Nat) (last : Bool) (pieces : List (Nat × W32))
  | data (bytes : List Byte) (chain : List (Party × Scope))
  | refused
  | stream (sid : W32) (home : Nat) (m : StreamMsg)
  | launch (raw : List Byte) (m : LaunchMsg)
deriving DecidableEq, Repr

/-- A message between modules: the other module's rank, the tenant, the record of the launch it is sent for where that has a chart, the core
and engine it serves, and whether it serves that engine's text fetch. -/
structure LinkMsg where
  rank : Nat
  launch : List Byte
  tenant : BitVec 5
  core : Nat
  port : Eng
  text : Bool
  kind : LinkKind
deriving DecidableEq, Repr

/-- Every row of the opcode table: 197 words, then 76 events. -/
inductive Instr where
  -- CTL: integer group (05 R92)
  | add (d a : SReg) (o : Op2)
  | sub (d a : SReg) (o : Op2)
  | mul (d a : SReg) (o : Op2)
  | mulh (k : MulhKind) (d a : SReg) (o : Op2)
  | div (g : Sgn) (d a : SReg) (o : Op2)
  | rem (g : Sgn) (d a : SReg) (o : Op2)
  | and (d a : SReg) (o : Op2)
  | or (d a : SReg) (o : Op2)
  | xor (d a : SReg) (o : Op2)
  | andn (d a : SReg) (o : Op2)
  | shl (d a : SReg) (o : Op2)
  | shr (d a : SReg) (o : Op2)
  | sra (d a : SReg) (o : Op2)
  | rotl (d a : SReg) (o : Op2)
  | min (g : Sgn) (d a : SReg) (o : Op2)
  | max (g : Sgn) (d a : SReg) (o : Op2)
  | clz (d a : SReg)
  | popc (d a : SReg)
  | setc (c : Cond) (d a : SReg) (o : Op2)
  | sel (d c a : SReg) (o : Op2)
  | movi (d : SReg) (v : W64)
  | mov (d a : SReg)
  | lea (d a : SReg) (o : Op2) (sh : BitVec 6)
  | extr (g : Sgn) (d a : SReg) (pos : BitVec 6) (w : BitVec 7)
  | insr (d a : SReg) (pos : BitVec 6) (w : BitVec 7)
  -- CTL: scalar memory (05 R94, R95; 09 R191)
  | ld (k : LdKind) (d a : SReg) (off : W64) (acq : Option Scope)
  | st (k : StKind) (a b : SReg) (off : W64) (rel : Option Scope)
  | ldsp (k : LdKind) (d a : SReg) (off : W64) (acq : Option Scope)
  | stsp (k : StKind) (a b : SReg) (off : W64) (rel : Option Scope)
  | waitge (d a : SReg) (o : Op2) (sc : Scope)
  -- CTL: atomics and order (20 R318, R325 to R327; 02 R30)
  | atadd (w : AtW) (d a : SReg) (o : Op2) (ord : AtOrd)
  | atand (w : AtW) (d a : SReg) (o : Op2) (ord : AtOrd)
  | ator (w : AtW) (d a : SReg) (o : Op2) (ord : AtOrd)
  | atxor (w : AtW) (d a : SReg) (o : Op2) (ord : AtOrd)
  | atmin (w : AtW) (g : Sgn) (d a : SReg) (o : Op2) (ord : AtOrd)
  | atmax (w : AtW) (g : Sgn) (d a : SReg) (o : Op2) (ord : AtOrd)
  | atswp (w : AtW) (d a : SReg) (o : Op2) (ord : AtOrd)
  | atcas (w : AtW) (d a c : SReg) (o : Op2) (ord : AtOrd)
  | mark
  | fence (k : FenceKind) (sc : Scope)
  | fencex (x y : BitVec 5)
  | bar (k : BitVec 3)
  | barPart (n : W32)
  -- CTL: handles (05 R97)
  | hmov (ha hb : HReg)
  | hld (h : HReg) (a : SReg) (off : W64)
  | hst (h : HReg) (a : SReg) (off : W64)
  | hsetb (spc : HSpc) (h : HReg) (o : Op2)
  | hsetx (h : HReg) (k : BitVec 6) (o : Op2)
  | hsets (h : HReg) (o : Op2)
  | hsetf (h : HReg) (o : Op2)
  | hget (d : SReg) (h : HReg) (sel : BitVec 12)
  | hoff (h : HReg) (k : BitVec 6) (o : Op2)
  | hclr (h : HReg)
  -- CTL: tags (07 R135)
  | tlook (d a : SReg)
  | tset (a : SReg) (o : Op2)
  | tclr (o : Op2)
  | tclrAll
  | tinfo (d : SReg) (o : Op2)
  -- CTL: open axes and the almanac (16 R271)
  | ropen (h : HReg)
  | rslice (h : HReg) (o : Op2)
  | rclose (h : HReg)
  | inst (d : SReg) (ha hb : HReg) (o : Op2) (quiet : Bool) (post : Option FlagNo) (out : Bool) (carry : Option (BitVec 6))
  | rvk (o : Op2)
  | rvkat (a : SReg) (o : Op2)
  | rqryRule (d : SReg) (o : Op2)
  | rqryRec (d : SReg) (o : Op2)
  | rqryCur (d : SReg) (o : Op2)
  | rres (o : Op2)
  -- CTL: streams (18 R292)
  | snew (ha hb : HReg) (o : Op2)
  | ssend (nb : Bool) (d : SReg) (h : HReg) (a : SReg) (o : Op2) (rel : Option Scope)
  | srecv (nb : Bool) (d : SReg) (h : HReg) (a : SReg) (o : Op2) (acq : Option Scope)
  | ssendh (nb : Bool) (d : SReg) (ha hb : HReg) (rel : Option Scope)
  | srecvh (nb : Bool) (d : SReg) (ha hb : HReg) (acq : Option Scope)
  | sbind (ha hb : HReg) (o : Op2)
  | sbindOff (h : HReg)
  | sclose (h : HReg)
  | sdrop (h : HReg)
  | sstat (d : SReg) (h : HReg)
  -- CTL: system (05 R100, R104)
  | srd (d : SReg) (n : BitVec 12)
  | swr (n : BitVec 12) (o : Op2)
  | mbxrd (d : SReg) (n : BitVec 4) (acq : Option Scope)
  | trap (v : W64)
  | eret
  | eretSkip
  | yield
  | exit
  -- POST and AWAIT (03 R48)
  | post (e : Eng) (f : FlagNo) (n : W64)
  | await (e : Eng) (f : FlagNo) (n : W64)
  | postTail (e : Eng) (c : TailClause)
  | awaitTail (e : Eng) (c : TailClause)
  -- ACC (07 R139)
  | aset (d : AReg) (v : W64)
  | aadd (d a : AReg) (v : W64)
  | aaddReg (d a b : AReg)
  | ashl (d a : AReg) (n : BitVec 6)
  | ard (q : QNo) (a : AReg) (nrow : BitVec 5) (rstr : BitVec 24) (off : W64)
  | ardb (q : QNo) (a : AReg) (nrow : BitVec 5) (rstr : BitVec 24) (off : W64)
  | waitwp (ch : ChanNo) (w : W32)
  | aldi (d a : AReg) (l : Fin 6) (v : W64)
  -- VEC (08 R151 to R168)
  | vadd (ty : FTy) (rm : RMode) (d : VDst) (a b : VSrc) (i : W64)
  | vsub (ty : FTy) (rm : RMode) (d : VDst) (a b : VSrc) (i : W64)
  | vmul (ty : FTy) (rm : RMode) (d : VDst) (a b : VSrc) (i : W64)
  | vfma (ty : FTy) (rm : RMode) (d : VDst) (a b c : VSrc) (i : W64)
  | vfms (ty : FTy) (rm : RMode) (d : VDst) (a b c : VSrc) (i : W64)
  | vfnma (ty : FTy) (rm : RMode) (d : VDst) (a b c : VSrc) (i : W64)
  | vmin (ty : FTy) (rm : RMode) (d : VDst) (a b : VSrc) (i : W64)
  | vmax (ty : FTy) (rm : RMode) (d : VDst) (a b : VSrc) (i : W64)
  | vabs (ty : FTy) (rm : RMode) (d : VDst) (a : VSrc) (i : W64)
  | vneg (ty : FTy) (rm : RMode) (d : VDst) (a : VSrc) (i : W64)
  | vdiv (ty : VTy) (rm : RMode) (d : VDst) (a b : VSrc) (i : W64)
  | vdivRem (ty : ITy) (d : VDst) (a b : VSrc) (i : W64)
  | vfma16 (rm : RMode) (d : VDst) (a b c : VSrc) (i : W64)
  | viadd (ty : ITy) (sat : Bool) (d : VDst) (a b : VSrc) (i : W64)
  | visub (ty : ITy) (sat : Bool) (d : VDst) (a b : VSrc) (i : W64)
  | vimul (ty : ITy) (sat : Bool) (d : VDst) (a b : VSrc) (i : W64)
  | vimulh (ty : ITy) (d : VDst) (a b : VSrc) (i : W64)
  | vimin (ty : ITy) (d : VDst) (a b : VSrc) (i : W64)
  | vimax (ty : ITy) (d : VDst) (a b : VSrc) (i : W64)
  | vand (ty : ITy) (d : VDst) (a b : VSrc) (i : W64)
  | vor (ty : ITy) (d : VDst) (a b : VSrc) (i : W64)
  | vxor (ty : ITy) (d : VDst) (a b : VSrc) (i : W64)
  | vshl (ty : ITy) (d : VDst) (a b : VSrc) (i : W64)
  | vshr (ty : ITy) (d : VDst) (a b : VSrc) (i : W64)
  | vsra (ty : ITy) (d : VDst) (a b : VSrc) (i : W64)
  | vcmp (cc : VCond) (ty : NTy) (d : VDst) (a b : VSrc) (i : W64)
  | vsel (d : VDst) (a b c : VSrc) (i : W64)
  | vcvt (dt st : VTy) (rm : RMode) (d : VDst) (a : VSrc) (i : W64)
  | vmov (d : VDst) (a : VSrc) (i : W64)
  | vseti (d : VDst) (a : VSrc) (row : BitVec 4) (col : BitVec 6) (v : W32)
  | viota (k : IotaKind) (d : VDst) (base : W32)
  | vrngRaw (d : VDst) (a : VSrc) (key : W64)
  | vrngUni (d : VDst) (a : VSrc) (key : W64)
  | vclamp (ty : NTy) (d : VDst) (a b c : VSrc) (i : W64)
  | vrot (ax : Axis) (amt : BitVec 6) (d : VDst) (a : VSrc) (i : W64)
  | vbcast (ax : Axis) (amt : BitVec 6) (d : VDst) (a : VSrc) (i : W64)
  | vshiftDn (ax : Axis) (amt : BitVec 6) (d : VDst) (a : VSrc) (i : W64)
  | vshiftUp (ax : Axis) (amt : BitVec 6) (d : VDst) (a : VSrc) (i : W64)
  | vrsum (ty : NTy) (rm : RMode) (sat : Bool) (ax : Axis) (d : VDst) (a : VSrc) (i : W64)
  | vscanIncl (ty : NTy) (rm : RMode) (sat : Bool) (ax : Axis) (d : VDst) (a : VSrc) (i : W64)
  | vscanExcl (ty : NTy) (rm : RMode) (sat : Bool) (ax : Axis) (d : VDst) (a : VSrc) (i : W64)
  | vrmax (ty : NTy) (ax : Axis) (d : VDst) (a : VSrc) (i : W64)
  | vrmin (ty : NTy) (ax : Axis) (d : VDst) (a : VSrc) (i : W64)
  | vrmaxi (ty : NTy) (ax : Axis) (d : VDst) (a : VSrc) (i : W64)
  | vrmini (ty : NTy) (ax : Axis) (d : VDst) (a : VSrc) (i : W64)
  | vexp (ty : FTy) (rm : RMode) (d : VDst) (a : VSrc) (i : W64)
  | vexp2 (ty : FTy) (rm : RMode) (d : VDst) (a : VSrc) (i : W64)
  | vln (ty : FTy) (rm : RMode) (d : VDst) (a : VSrc) (i : W64)
  | vlog2 (ty : FTy) (rm : RMode) (d : VDst) (a : VSrc) (i : W64)
  | vrcp (ty : FTy) (rm : RMode) (d : VDst) (a : VSrc) (i : W64)
  | vrsqrt (ty : FTy) (rm : RMode) (d : VDst) (a : VSrc) (i : W64)
  | vsqrt (ty : FTy) (rm : RMode) (d : VDst) (a : VSrc) (i : W64)
  | vtanh (ty : FTy) (rm : RMode) (d : VDst) (a : VSrc) (i : W64)
  | vsigm (ty : FTy) (rm : RMode) (d : VDst) (a : VSrc) (i : W64)
  | vgelu (ty : FTy) (rm : RMode) (d : VDst) (a : VSrc) (i : W64)
  | verf (ty : FTy) (rm : RMode) (d : VDst) (a : VSrc) (i : W64)
  | vunpk (hi : Bool) (ty : FTy) (rm : RMode) (amt : BitVec 6) (d : VDst) (a : VSrc) (i : W64)
  | vpack (fmt : BlkFmt) (s : Bool) (amt : BitVec 6) (n : BitVec 7) (d : VDst) (a b c : VSrc)
  | vpkbf (rm : RMode) (d : VDst) (a b : VSrc) (i : W64)
  | vupbf (hi : Bool) (d : VDst) (a : VSrc) (i : W64)
  -- MAT (13 R225)
  | mma (c : Cost) (bk : BankNo) (da db : DrawerNo) (ks : BitVec 12) (ecl : BitVec 2) (clr rls : Bool) (tl : Tail)
  | mclr (bk : BankNo) (tl : Tail)
  | moutTile (bk : BankNo) (t4 : Fin 12) (epi : Epi) (clr bias scale bf : Bool) (tl : Tail)
  | moutHandle (bk : BankNo) (ho : HReg) (epi : Epi) (clr bias scale : Bool) (tl : Tail)
  | mgate (bs bd : BankNo) (aa ab : GateAct) (cmp bias : Bool) (tl : Tail)
  | mscan (bk : BankNo) (n : BitVec 6) (bc : BankNo) (kc reset : Bool) (tl : Tail)
  | mcarryZ (bk : BankNo) (tl : Tail)
  | mcarryLd (bk bx : BankNo) (row : BitVec 6) (tl : Tail)
  | mcarrySt (bk bx : BankNo) (row : BitVec 6) (tl : Tail)
  | dclaim (da : DrawerNo) (n : BitVec 5) (tl : Tail)
  | drel (da : DrawerNo) (n : BitVec 5) (tl : Tail)
  | dqry (ho : HReg) (tl : Tail)
  | mmah (c : Cost) (bk : BankNo) (da db : DrawerNo) (ks : BitVec 12) (ecl : BitVec 2) (clr rls : Bool) (tl : Tail)
  -- CLD and CST (09 R175)
  | cpy (e : CopyEng) (slice : Bool) (hs hd : HReg) (cnt : Option CntClause) (ch : ChanNo) (tl : Tail)
  | cpyf (slice : Bool) (hs hd : HReg) (cnt : Option CntClause) (ch : ChanNo) (tl : Tail)
  | cred (int : Bool) (hs hd : HReg) (cnt : Option CntClause) (sq : W16) (grp : BitVec 8) (ch : ChanNo) (tl : Tail)
  | cfil (e : CopyEng) (sx : Bool) (hd : HReg) (cnt : Option CntClause) (v : W16) (ch : ChanNo) (tl : Tail)
  | ctier (e : CopyEng) (up : Bool) (hs hd : HReg) (cnt : Option CntClause) (ch : ChanNo) (tl : Tail)
  | ccnt (e : CopyEng) (cnt : Option CntClause) (tl : Tail)
  -- FAB (15 R253)
  | fcfg (h : HReg) (tl : Tail)
  | fbind (h : HReg) (port : Fin 12) (cnt : W32) (tl : Tail)
  | fbindC (h : HReg) (out : BitVec 2) (cnt : W32) (tl : Tail)
  | fgo (n : BitVec 8) (tl : Tail)
  | fbar (n : BitVec 8) (tl : Tail)
  | fbarRec (h : HReg) (n : BitVec 8) (tl : Tail)
  | fstop (tl : Tail)
  | fstopRec (h : HReg) (tl : Tail)
  -- MUL (04 R63)
  | nop (m : EMask)
  | br (m : EMask) (c : Cond) (sa sb : SReg) (tgt : W32)
  | jmp (m : EMask) (tgt : W32)
  | jmpIndirect (m : EMask) (sa : SReg)
  | call (m : EMask) (tgt : W32)
  | ret (m : EMask)
  | loop (m : EMask) (l : Fin 6) (sa : SReg) (rot : Bool) (tgt imm : W32)
  | brk (m : EMask) (c : Cond) (l : Fin 6) (sa sb : SReg) (tgt : W32)
  | mode (exposed : Bool)
  | rotset (m : EMask) (n : W32)
  | sync (m : EMask)
  | syncRetire (m : EMask)
  -- Events (spec/95): no word encodes them; a turn of the agenda names them
  | evLoadResultArrive (d : SReg)
  | evWaitgeSatisfy
  | evBarDepart
  | evDeferredPostEffect (i : Nat)
  | evAwaitSuccess (e : Eng)
  | evWaitwpComplete
  | evResultLand (i : Nat)
  | evMatKstep
  | evEpilogueTileStep
  | evCopyStart (e : CopyEng)
  | evCopyTileStep (e : CopyEng)
  | evCopyRetire (e : CopyEng)
  | evCredApply (e : CopyEng)
  | evFollowOnIssue
  | evFeederToken (p : Fin 8)
  | evStripFire (i : Fin 12)
  | evOutputPortToken (p : Fin 4)
  | evPhaseDrain
  | evLoopClose (e : Eng)
  | evModeDrainDone
  | evSeqReattach (e : Eng)
  | evTextFetch (e : Eng)
  | evRuleInstanceIssue (id : Fin 32)
  | evRuleInstanceRetire (id : Fin 32)
  | evStreamItemArrive (k : Nat) (j : Nat)
  | evStreamSlotReturn (k : Nat)
  | evStreamMoveGrant (k : Nat) (recv : Bool)
  | evSendEndReply (k : Nat)
  | evWaypointForward (k : Nat)
  | evWaypointRetire (k : Nat) (recv : Bool)
  | evStreamLoss (k : Nat) (recv : Bool)
  | evSbindSliceWrite (k : Nat)
  | evStreamCensus (k : Nat)
  | evLinkslotRepair (k : Nat)
  | evLaunchRecordRead (q : BitVec 9)
  | evGangAdmit (q : BitVec 9) (slot : BitVec 6) (cores : List Nat)
  | evTaskEnd
  | evChartAbort (q : BitVec 9)
  | evLaunchKillAbort (ctx : W16)
  | evEscalationStop (ctx : W16) (cause : Byte)
  | evQueueEnable (q : BitVec 9)
  | evSliceExpiry (q : BitVec 9)
  | evWaitGuardExpiry (q : BitVec 9)
  | evQueuePreempt (w : BitVec 9) (ctx : W16)
  | evQueueGrant (q : BitVec 9)
  | evPreemptRequest (ctx : W16)
  | evHandlerPreemptTimeout
  | evContextSave (ctx : W16)
  | evContextRestore (ctx : W16) (slot : BitVec 6) (cores : List Nat)
  | evTrapEntry
  | evEscalate (ctx : W16)
  | evDeadlock
  | evDroop
  | evEnergyRefill
  | evTenantBudgetRefill
  | evThermalStep1
  | evThermalStep2
  | evThermalStep3
  | evModuleReset (bootst : W64)
  | evLinkFlitReceive (m : Option LinkMsg)
  | evRemoteWindowAccess
  | evHostMemAccess (r : Requester) (addr : W64) (write : Option (List Byte)) (n : Nat) (rel : Bool)
  | evTailWrite (r : Requester) (q : BitVec 9) (v : W64)
  | evMailboxWrite (r : Requester) (t : BitVec 5) (n : BitVec 4) (v : W64) (rel : Bool)
  | evCtxcmdPreempt (ctx : W16)
  | evCtxcmdKill (ctx : W16)
  | evInvalidate (t : BitVec 5) (base : W64) (pages : W32)
  | evKeyLoad (k : BitVec 10)
  | evKeyClear (k : BitVec 10)
  | evKeycmdNop (op : BitVec 2)
  | evEventRead (r : Requester) (off : W64)
  | evIpendClear (r : Requester) (t : BitVec 5) (bits : W16)
  | evAttestRequest (r : Requester) (t : BitVec 5) (addr : W64)
  | evHostRegWrite (r : Requester) (off : W64) (v : W64)
  | evThermalStepEnd
  | evStorePerformed
deriving DecidableEq, Repr

end Sys2Proof
end

