-- ==== Sys2Proof/WellFormed.lean ====
section
/-!
DEFINITION. The operand checks of an instruction that its types do not already make; a word that fails one raises ILLOP (R50).
-/
namespace Sys2Proof

/-- The immediate of a second operand satisfies `p`; a register is judged when the word runs. -/
def Op2.immOk (o : Op2) (p : Nat → Bool) : Bool :=
  match o with
  | .imm v => p v.toNat
  | .reg _ => true

/-- A VEC source that reads IMM (codes 80 and 81 of R42). -/
def VSrc.usesImm : VSrc → Bool
  | .immLo | .immHi => true
  | _ => false

/-- IMM is zero unless some source field holds 80 or 81 (R148). -/
def immOk (srcs : List VSrc) (i : W64) : Bool := srcs.any VSrc.usesImm || i == 0

/-- Positions along an axis group: 64 for the row axis, 16 for the column axis (R156). -/
def Axis.len : Axis → Nat
  | .row => 64
  | .col => 16

/-- The full element count N of a block format (R116). -/
def BlkFmt.count : BlkFmt → Nat
  | .mxi8 => 60 | .mxi6 => 80 | .mxi4 => 120 | .f8e4 => 60 | .f8e5 => 60 | .bf16 => 30

/-- The element count a VPACK word packs: 0 means N (R166). -/
def packCount (f : BlkFmt) (n : BitVec 7) : Nat := if n = 0 then f.count else n.toNat

/-- System registers that SRD reads (R101). -/
def srdOk (n : Nat) : Bool :=
  n ≤ 0x005 || (0x008 ≤ n && n ≤ 0x00A) || (0x010 ≤ n && n ≤ 0x018) || (0x020 ≤ n && n ≤ 0x035) ||
    (0x040 ≤ n && n ≤ 0x043)

/-- System registers that SWR writes (R101). -/
def swrOk (n : Nat) : Bool := n == 0x000 || n == 0x001 || n == 0x00A || n == 0x010 || n == 0x035

/-- A condition of `al` names no registers (R64). -/
def condOk (c : Cond) (sa sb : SReg) : Bool := c != .al || (sa == 0 && sb == 0)

/-- VD of VRMAXI and VRMINI: 0 to 46 or 48 to 62 (R160). -/
def VDst.pairOk : VDst → Bool
  | .t k => k.val ≤ 46
  | .z k => k.val ≤ 14
  | .q _ => false

/-- RM and SAT of VRSUM and VSCAN: RM with TY 0 only, SAT with TY 1 and 2 only (R148). -/
def sumOk (ty : NTy) (rm : RMode) (sat : Bool) : Bool :=
  if ty = .f32 then !sat else rm == .rne

/-- The whole check, one line per instruction that has one. -/
def Instr.wf : Instr → Bool
  | .setc c _ _ _ => c != .al
  | .extr _ _ _ pos w | .insr _ _ pos w => 1 ≤ w.toNat && w.toNat ≤ 64 && pos.toNat + w.toNat ≤ 64
  | .fencex x y => x != 0 && y != 0
  | .hget _ _ s => s.toNat ≤ 22
  | .hsetx _ k _ | .hoff _ k _ => k.toNat ≤ 5
  | .tset _ o | .tclr o | .tinfo _ o => o.immOk (· < 1024)
  | .rslice _ o => o.immOk (fun v => 1 ≤ v && v ≤ 65535)
  | .rvk o | .rqryRule _ o | .rqryRec _ o | .rqryCur _ o | .rres o => o.immOk (· < 32)
  | .inst _ _ _ _ _ _ _ carry => carry.all (fun k => decide (k.toNat < 48))
  | .snew ha hb o => ha != hb && o.immOk (fun v => 1 ≤ v && v ≤ 4096)
  | .ssend _ _ _ _ o _ | .srecv _ _ _ _ o _ | .sbind _ _ o => o.immOk (fun v => 1 ≤ v && v ≤ 64)
  | .ssendh _ _ ha hb _ => ha != hb
  | .srd _ n => srdOk n.toNat
  | .swr n _ => swrOk n.toNat
  | .post e _ n | .await e _ n => (e == .ctl || e == .acc) && 1 ≤ n.toNat && n.toNat ≤ 65535
  | .postTail e _ | .awaitTail e _ => e != .ctl && e != .acc
  | .vadd _ _ _ a b i | .vsub _ _ _ a b i | .vmul _ _ _ a b i | .vmin _ _ _ a b i | .vmax _ _ _ a b i =>
    immOk [a, b] i
  | .vfma _ _ _ a b c i | .vfms _ _ _ a b c i | .vfnma _ _ _ a b c i | .vfma16 _ _ a b c i => immOk [a, b, c] i
  | .vabs _ _ _ a i | .vneg _ _ _ a i => immOk [a] i
  | .vdiv ty rm _ a b i => immOk [a, b] i && (ty == .f32 || ty == .bf16 || rm == .rne)
  | .vdivRem _ _ a b i => immOk [a, b] i
  | .viadd _ _ _ a b i | .visub _ _ _ a b i | .vimul _ _ _ a b i => immOk [a, b] i
  | .vimulh _ _ a b i | .vimin _ _ a b i | .vimax _ _ a b i | .vand _ _ a b i | .vor _ _ a b i | .vxor _ _ a b i
  | .vshl _ _ a b i | .vshr _ _ a b i | .vsra _ _ a b i => immOk [a, b] i
  | .vcmp cc ty _ a b i => immOk [a, b] i && (cc != .un || ty == .f32)
  | .vsel _ a b c i | .vclamp _ _ a b c i => immOk [a, b, c] i
  | .vcvt _ _ _ _ a i | .vmov _ a i => immOk [a] i
  | .vrot ax amt _ a i | .vbcast ax amt _ a i | .vshiftDn ax amt _ a i | .vshiftUp ax amt _ a i =>
    immOk [a] i && amt.toNat < ax.len
  | .vrsum ty rm sat _ _ a i | .vscanIncl ty rm sat _ _ a i | .vscanExcl ty rm sat _ _ a i =>
    immOk [a] i && sumOk ty rm sat
  | .vrmax _ _ _ a i | .vrmin _ _ _ a i => immOk [a] i
  | .vrmaxi _ _ d a i | .vrmini _ _ d a i => immOk [a] i && d.pairOk
  | .vexp _ _ _ a i | .vexp2 _ _ _ a i | .vln _ _ _ a i | .vlog2 _ _ _ a i | .vrcp _ _ _ a i | .vrsqrt _ _ _ a i
  | .vsqrt _ _ _ a i | .vtanh _ _ _ a i | .vsigm _ _ _ a i | .vgelu _ _ _ a i | .verf _ _ _ a i => immOk [a] i
  | .vunpk _ _ _ _ _ a i | .vupbf _ _ a i => immOk [a] i
  | .vpkbf _ _ a b i => immOk [a, b] i
  | .vpack f s _ n d _ b c =>
    packCount f n ≤ f.count && (64 < packCount f n || b == .t 0) && (s || c == .t 0) &&
      (match d with | .q _ => false | _ => true)
  | .br m c sa sb _ => m != 0 && condOk c sa sb
  | .jmp m _ | .call m _ | .ret m | .sync m | .syncRetire m => m != 0
  | .jmpIndirect m sa => m != 0 && sa != 0
  | .loop m _ sa _ _ imm => m != 0 && (sa == 0 || imm == 0)
  | .brk m c _ sa sb _ => m != 0 && condOk c sa sb
  | .rotset m n => m != 0 && 2 ≤ n.toNat && n.toNat ≤ 16
  | _ => true

/-- The instruction obeys every check (R50). -/
abbrev Instr.WF (i : Instr) : Prop := i.wf = true

/-- The row is an event: no word encodes it, and it comes from a turn of the agenda. -/
def Instr.isEvent (i : Instr) : Bool :=
  match i with
  | .evLoadResultArrive _ | .evWaitgeSatisfy | .evBarDepart | .evDeferredPostEffect _ | .evAwaitSuccess _
  | .evWaitwpComplete | .evResultLand _ | .evMatKstep | .evEpilogueTileStep | .evCopyStart _ | .evCopyTileStep _
  | .evCopyRetire _ | .evCredApply _ | .evFollowOnIssue | .evFeederToken _ | .evStripFire _ | .evOutputPortToken _
  | .evPhaseDrain | .evLoopClose _ | .evModeDrainDone | .evSeqReattach _ | .evTextFetch _ | .evRuleInstanceIssue _
  | .evRuleInstanceRetire _ | .evStreamItemArrive _ _ | .evStreamSlotReturn _ | .evStreamMoveGrant _ _
  | .evSendEndReply _ | .evWaypointForward _ | .evWaypointRetire _ _ | .evStreamLoss _ _ | .evSbindSliceWrite _
  | .evStreamCensus _ | .evLinkslotRepair _ | .evLaunchRecordRead _ | .evGangAdmit _ _ _ | .evTaskEnd
  | .evChartAbort _ | .evLaunchKillAbort _ | .evEscalationStop _ _ | .evQueueEnable _ | .evSliceExpiry _
  | .evWaitGuardExpiry _ | .evQueuePreempt _ _ | .evQueueGrant _ | .evPreemptRequest _ | .evHandlerPreemptTimeout
  | .evContextSave _ | .evContextRestore _ _ _ | .evTrapEntry | .evEscalate _ | .evDeadlock | .evDroop
  | .evEnergyRefill | .evTenantBudgetRefill | .evThermalStep1 | .evThermalStep2 | .evThermalStep3 | .evModuleReset _
  | .evLinkFlitReceive _ | .evRemoteWindowAccess | .evHostMemAccess _ _ _ _ _ | .evTailWrite _ _ _
  | .evMailboxWrite _ _ _ _ _ | .evCtxcmdPreempt _ | .evCtxcmdKill _ | .evInvalidate _ _ _ | .evKeyLoad _
  | .evKeyClear _ | .evKeycmdNop _ | .evEventRead _ _ | .evIpendClear _ _ _ | .evAttestRequest _ _ _
  | .evHostRegWrite _ _ _ | .evThermalStepEnd | .evStorePerformed => true
  | _ => false

end Sys2Proof
end

