-- ==== Sys2Proof/Decode.lean ====
section
/-!
DEFINITION. The seven formats (03 R39 to R46), the encoding table of every word, the decoder, and the encoder.
A word is accepted when it is exactly the encoding of the instruction its used fields name, so a nonzero unused field is refused (R50).
-/
namespace Sys2Proof

/-- Why a word is no instruction; each is ILLOP to the sequencer that executes it (R50). -/
inductive DecErr where
  /-- The OP is unassigned for its ENG (R47), or LDQ, which is removed (R49). -/
  | unassignedOp
  /-- The FN is not listed for the OP. -/
  | unlistedFn
  /-- A field holds a reserved or out-of-range value. -/
  | badOperand
  /-- A field the instruction does not use is nonzero. -/
  | reservedField
deriving DecidableEq, Repr

/-! ### Raw formats -/

/-- Format C (R39). -/
structure CRaw where
  op : BitVec 7
  fn : BitVec 6
  d : BitVec 5
  a : BitVec 5
  b : BitVec 5
  ib : BitVec 1
  ha : BitVec 4
  hb : BitVec 4
  sh : BitVec 6
  sc : BitVec 3
  acq : BitVec 1
  rel : BitVec 1
  scf : BitVec 1
  x12 : BitVec 12
  imm : BitVec 64
deriving DecidableEq, Repr

/-- Format A (R40). -/
structure ARaw where
  op : BitVec 7
  fn : BitVec 6
  ad : BitVec 4
  aa : BitVec 4
  ab : BitVec 4
  q : BitVec 3
  nrow : BitVec 5
  ch : BitVec 4
  rstr : BitVec 24
  imm : BitVec 64
deriving DecidableEq, Repr

/-- Format V (R41). -/
structure VRaw where
  op : BitVec 7
  fn : BitVec 6
  vd : BitVec 7
  va : BitVec 7
  vb : BitVec 7
  vc : BitVec 7
  ty : BitVec 4
  rm : BitVec 2
  sat : BitVec 1
  ax : BitVec 1
  amt : BitVec 6
  rsv : BitVec 6
  imm : BitVec 64
deriving DecidableEq, Repr

/-- Format M (R43). -/
structure MRaw where
  op : BitVec 7
  fn : BitVec 6
  bk : BitVec 2
  da : BitVec 5
  db : BitVec 5
  ks : BitVec 12
  epi : BitVec 4
  ecl : BitVec 2
  clr : BitVec 1
  rls : BitVec 1
  ho : BitVec 4
  qs : BitVec 4
  xm : BitVec 8
  rsv : BitVec 32
  tail : BitVec 32
deriving DecidableEq, Repr

/-- Format K (R44). -/
structure KRaw where
  op : BitVec 7
  fn : BitVec 6
  hs : BitVec 4
  hd : BitVec 4
  hc : BitVec 4
  ce : BitVec 1
  csc : BitVec 3
  cinc : BitVec 32
  sq : BitVec 16
  grp : BitVec 8
  rsv : BitVec 6
  ch : BitVec 2
  tail : BitVec 32
deriving DecidableEq, Repr

/-- Format F (R45). -/
structure FRaw where
  op : BitVec 7
  fn : BitVec 6
  ha : BitVec 4
  port : BitVec 4
  phase : BitVec 8
  cnt : BitVec 32
  rsv : BitVec 32
  tail : BitVec 32
deriving DecidableEq, Repr

/-- Format X (R45). -/
structure XRaw where
  op : BitVec 7
  fn : BitVec 6
  em : BitVec 7
  sa : BitVec 5
  sb : BitVec 5
  cond : BitVec 4
  lvl : BitVec 3
  rot : BitVec 1
  rsv : BitVec 23
  tgt : BitVec 32
  imm : BitVec 32
deriving DecidableEq, Repr

/-- POST and AWAIT of the async engines: the tail alone (R48). -/
structure TRaw where
  op : BitVec 7
  fn : BitVec 6
  mid : BitVec 80
  tail : BitVec 32
deriving DecidableEq, Repr

/-- A word split into its format's fields (R35). -/
inductive Raw where
  | c (acc : Bool) (r : CRaw)
  | a (r : ARaw)
  | v (r : VRaw)
  | m (r : MRaw)
  | k (e : CopyEng) (r : KRaw)
  | f (r : FRaw)
  | x (r : XRaw)
  | t (e : Eng) (r : TRaw)
deriving DecidableEq, Repr

/-- ENG codes (R35). -/
def Eng.code : Eng → BitVec 3
  | .ctl => 0 | .acc => 1 | .vec => 2 | .mat => 3 | .cld => 4 | .cst => 5 | .fab => 6

/-- The copy engine as a sequencer. -/
def CopyEng.eng : CopyEng → Eng
  | .cld => .cld | .cst => .cst

/-- The word of a raw record, fields from most to least significant (R39 to R46). -/
def Raw.pack : Raw → W128
  | .c acc r =>
    (if acc then 1#3 else 0#3) ++ (r.op ++ (r.fn ++ (r.d ++ (r.a ++ (r.b ++ (r.ib ++ (r.ha ++ (r.hb ++ (r.sh ++ (r.sc ++
      (r.acq ++ (r.rel ++ (r.scf ++ (r.x12 ++ r.imm))))))))))))))
  | .a r =>
    1#3 ++ (r.op ++ (r.fn ++ (r.ad ++ (r.aa ++ (r.ab ++ (r.q ++ (r.nrow ++ (r.ch ++ (r.rstr ++ r.imm)))))))))
  | .v r =>
    2#3 ++ (r.op ++ (r.fn ++ (r.vd ++ (r.va ++ (r.vb ++ (r.vc ++ (r.ty ++ (r.rm ++ (r.sat ++ (r.ax ++ (r.amt ++
      (r.rsv ++ r.imm))))))))))))
  | .m r =>
    3#3 ++ (r.op ++ (r.fn ++ (r.bk ++ (r.da ++ (r.db ++ (r.ks ++ (r.epi ++ (r.ecl ++ (r.clr ++ (r.rls ++ (r.ho ++
      (r.qs ++ (r.xm ++ (r.rsv ++ r.tail))))))))))))))
  | .k e r =>
    e.eng.code ++ (r.op ++ (r.fn ++ (r.hs ++ (r.hd ++ (r.hc ++ (r.ce ++ (r.csc ++ (r.cinc ++ (r.sq ++ (r.grp ++
      (r.rsv ++ (r.ch ++ r.tail))))))))))))
  | .f r =>
    6#3 ++ (r.op ++ (r.fn ++ (r.ha ++ (r.port ++ (r.phase ++ (r.cnt ++ (r.rsv ++ r.tail)))))))
  | .x r =>
    7#3 ++ (r.op ++ (r.fn ++ (r.em ++ (r.sa ++ (r.sb ++ (r.cond ++ (r.lvl ++ (r.rot ++ (r.rsv ++ (r.tgt ++ r.imm))))))))))
  | .t e r => e.code ++ (r.op ++ (r.fn ++ (r.mid ++ r.tail)))

/-- The fields of a word, by the format its ENG and OP give it (R35). -/
def Raw.unpack (w : W128) : Raw :=
  let op := w.extractLsb' 118 7
  let fn := w.extractLsb' 112 6
  let c (acc : Bool) : Raw := .c acc
    { op := op, fn := fn, d := w.extractLsb' 107 5, a := w.extractLsb' 102 5, b := w.extractLsb' 97 5,
      ib := w.extractLsb' 96 1, ha := w.extractLsb' 92 4, hb := w.extractLsb' 88 4, sh := w.extractLsb' 82 6,
      sc := w.extractLsb' 79 3, acq := w.extractLsb' 78 1, rel := w.extractLsb' 77 1, scf := w.extractLsb' 76 1,
      x12 := w.extractLsb' 64 12, imm := w.extractLsb' 0 64 }
  let t (e : Eng) : Raw := .t e { op := op, fn := fn, mid := w.extractLsb' 32 80, tail := w.extractLsb' 0 32 }
  let k (e : CopyEng) : Raw := .k e
    { op := op, fn := fn, hs := w.extractLsb' 108 4, hd := w.extractLsb' 104 4, hc := w.extractLsb' 100 4,
      ce := w.extractLsb' 99 1, csc := w.extractLsb' 96 3, cinc := w.extractLsb' 64 32, sq := w.extractLsb' 48 16,
      grp := w.extractLsb' 40 8, rsv := w.extractLsb' 34 6, ch := w.extractLsb' 32 2, tail := w.extractLsb' 0 32 }
  let tailOp : Bool := op == 0x7E#7 || op == 0x7F#7
  match (w.extractLsb' 125 3).toNat with
  | 0 => c false
  | 1 => if tailOp then c true else .a
    { op := op, fn := fn, ad := w.extractLsb' 108 4, aa := w.extractLsb' 104 4, ab := w.extractLsb' 100 4,
      q := w.extractLsb' 97 3, nrow := w.extractLsb' 92 5, ch := w.extractLsb' 88 4, rstr := w.extractLsb' 64 24,
      imm := w.extractLsb' 0 64 }
  | 2 => if tailOp then t .vec else .v
    { op := op, fn := fn, vd := w.extractLsb' 105 7, va := w.extractLsb' 98 7, vb := w.extractLsb' 91 7,
      vc := w.extractLsb' 84 7, ty := w.extractLsb' 80 4, rm := w.extractLsb' 78 2, sat := w.extractLsb' 77 1,
      ax := w.extractLsb' 76 1, amt := w.extractLsb' 70 6, rsv := w.extractLsb' 64 6, imm := w.extractLsb' 0 64 }
  | 3 => if tailOp then t .mat else .m
    { op := op, fn := fn, bk := w.extractLsb' 110 2, da := w.extractLsb' 105 5, db := w.extractLsb' 100 5,
      ks := w.extractLsb' 88 12, epi := w.extractLsb' 84 4, ecl := w.extractLsb' 82 2, clr := w.extractLsb' 81 1,
      rls := w.extractLsb' 80 1, ho := w.extractLsb' 76 4, qs := w.extractLsb' 72 4, xm := w.extractLsb' 64 8,
      rsv := w.extractLsb' 32 32, tail := w.extractLsb' 0 32 }
  | 4 => if tailOp then t .cld else k .cld
  | 5 => if tailOp then t .cst else k .cst
  | 6 => if tailOp then t .fab else .f
    { op := op, fn := fn, ha := w.extractLsb' 108 4, port := w.extractLsb' 104 4, phase := w.extractLsb' 96 8,
      cnt := w.extractLsb' 64 32, rsv := w.extractLsb' 32 32, tail := w.extractLsb' 0 32 }
  | _ => .x
    { op := op, fn := fn, em := w.extractLsb' 105 7, sa := w.extractLsb' 100 5, sb := w.extractLsb' 95 5,
      cond := w.extractLsb' 91 4, lvl := w.extractLsb' 88 3, rot := w.extractLsb' 87 1, rsv := w.extractLsb' 64 23,
      tgt := w.extractLsb' 32 32, imm := w.extractLsb' 0 32 }

/-! ### Codes of the operand types -/

/-- The one-bit field of a flag. -/
def bit1 (b : Bool) : BitVec 1 := if b then 1 else 0
/-- The flag of a one-bit field. -/
def isOne (b : BitVec 1) : Bool := b == 1

/-- Scope codes (R39). -/
def Scope.code : Scope → BitVec 3
  | .core => 0 | .cluster => 1 | .die => 2 | .device => 3 | .domain => 4
/-- Scope of a code; 5 to 7 are none (R39). -/
def Scope.ofCode (c : BitVec 3) : Option Scope :=
  match c.toNat with
  | 0 => some .core | 1 => some .cluster | 2 => some .die | 3 => some .device | 4 => some .domain | _ => none

/-- Condition codes (R64). -/
def Cond.code : Cond → BitVec 4
  | .eq => 0 | .ne => 1 | .lt => 2 | .ge => 3 | .ltu => 4 | .geu => 5 | .any => 6 | .none => 7 | .al => 8
/-- Condition of a code (R64). -/
def Cond.ofCode (n : Nat) : Option Cond :=
  match n with
  | 0 => some .eq | 1 => some .ne | 2 => some .lt | 3 => some .ge | 4 => some .ltu | 5 => some .geu | 6 => some .any
  | 7 => some Cond.none | 8 => some .al | _ => none

/-- FN of a signed or unsigned word (R92). -/
def Sgn.fn : Sgn → BitVec 6
  | .s => 0 | .u => 1
/-- Signedness of FN. -/
def Sgn.ofFn (n : Nat) : Option Sgn :=
  match n with
  | 0 => some .s | 1 => some .u | _ => none

/-- FN of MULH (R92). -/
def MulhKind.fn : MulhKind → BitVec 6
  | .ss => 0 | .uu => 1 | .su => 2
/-- MULH kind of FN. -/
def MulhKind.ofFn (n : Nat) : Option MulhKind :=
  match n with
  | 0 => some .ss | 1 => some .uu | 2 => some .su | _ => none

/-- FN of a load (R94). -/
def LdKind.fn : LdKind → BitVec 6
  | .u8 => 0 | .u16 => 1 | .u32 => 2 | .w64 => 3 | .s8 => 4 | .s16 => 5 | .s32 => 6
/-- Load kind of FN. -/
def LdKind.ofFn (n : Nat) : Option LdKind :=
  match n with
  | 0 => some .u8 | 1 => some .u16 | 2 => some .u32 | 3 => some .w64 | 4 => some .s8 | 5 => some .s16
  | 6 => some .s32 | _ => none

/-- FN of a store (R94). -/
def StKind.fn : StKind → BitVec 6
  | .b8 => 0 | .b16 => 1 | .b32 => 2 | .b64 => 3
/-- Store kind of FN. -/
def StKind.ofFn (n : Nat) : Option StKind :=
  match n with
  | 0 => some .b8 | 1 => some .b16 | 2 => some .b32 | 3 => some .b64 | _ => none

/-- FN[1:0] of an atomic (R327). -/
def AtW.fn : AtW → BitVec 6
  | .w32 => 2 | .w64 => 3
/-- Width of an atomic's FN. -/
def AtW.ofFn (n : Nat) : Option AtW :=
  match n with
  | 2 => some .w32 | 3 => some .w64 | _ => none
/-- FN of ATMIN and ATMAX (R327). -/
def AtW.fnS (w : AtW) (g : Sgn) : BitVec 6 :=
  match w, g with
  | .w32, .s => 2 | .w64, .s => 3 | .w32, .u => 6 | .w64, .u => 7
/-- Width and signedness of ATMIN's and ATMAX's FN. -/
def AtW.ofFnS (n : Nat) : Option (AtW × Sgn) :=
  match n with
  | 2 => some (.w32, .s) | 3 => some (.w64, .s) | 6 => some (.w32, .u) | 7 => some (.w64, .u) | _ => none

/-- FN of HSETB (R97). -/
def HSpc.fn : HSpc → BitVec 6
  | .va => 0 | .sp => 1 | .dr => 2
/-- Space of HSETB's FN. -/
def HSpc.ofFn (n : Nat) : Option HSpc :=
  match n with
  | 0 => some .va | 1 => some .sp | 2 => some .dr | _ => none

/-- VEC source codes (R42). -/
def VSrc.code : VSrc → BitVec 7
  | .t k => BitVec.ofNat 7 k.val
  | .z k => BitVec.ofNat 7 (48 + k.val)
  | .pop q => BitVec.ofNat 7 (64 + q.val)
  | .peek q => BitVec.ofNat 7 (72 + q.val)
  | .immLo => 80
  | .immHi => 81
/-- The source of a code; q6, q7 and 82 to 127 are none (R42, R149). -/
def VSrc.ofCode (c : BitVec 7) : Option VSrc :=
  if h : c.toNat < 48 then some (.t ⟨c.toNat, h⟩)
  else if h : c.toNat - 48 < 16 then some (.z ⟨c.toNat - 48, h⟩)
  else if h : c.toNat - 64 < 6 then some (.pop ⟨c.toNat - 64, h⟩)
  else if h : 72 ≤ c.toNat ∧ c.toNat - 72 < 6 then some (.peek ⟨c.toNat - 72, h.2⟩)
  else if c = 80 then some .immLo
  else if c = 81 then some .immHi
  else none

/-- VEC destination codes (R42). -/
def VDst.code : VDst → BitVec 7
  | .t k => BitVec.ofNat 7 k.val
  | .z k => BitVec.ofNat 7 (48 + k.val)
  | .q n => BitVec.ofNat 7 (64 + n.toNat)
/-- The destination of a code (R42). -/
def VDst.ofCode (c : BitVec 7) : Option VDst :=
  if h : c.toNat < 48 then some (.t ⟨c.toNat, h⟩)
  else if h : c.toNat - 48 < 16 then some (.z ⟨c.toNat - 48, h⟩)
  else if c.toNat - 64 < 8 then some (.q (BitVec.ofNat 3 (c.toNat - 64)))
  else none

/-- RM codes (R41). -/
def RMode.code : RMode → BitVec 2
  | .rne => 0 | .rtz => 1 | .rdn => 2 | .rup => 3
/-- Rounding mode of a code. -/
def RMode.ofCode (c : BitVec 2) : RMode :=
  match c.toNat with
  | 0 => .rne | 1 => .rtz | 2 => .rdn | _ => .rup

/-- TY codes of the floating groups (R148). -/
def FTy.code : FTy → BitVec 4
  | .f32 => 0 | .bf16 => 3
/-- Floating type of a TY. -/
def FTy.ofCode (n : Nat) : Option FTy :=
  match n with
  | 0 => some .f32 | 3 => some .bf16 | _ => none
/-- TY codes of the integer group (R148). -/
def ITy.code : ITy → BitVec 4
  | .i32 => 1 | .u32 => 2
/-- Integer type of a TY. -/
def ITy.ofCode (n : Nat) : Option ITy :=
  match n with
  | 1 => some .i32 | 2 => some .u32 | _ => none
/-- TY codes 0 to 2 (R148). -/
def NTy.code : NTy → BitVec 4
  | .f32 => 0 | .i32 => 1 | .u32 => 2
/-- Type of a TY 0 to 2. -/
def NTy.ofCode (n : Nat) : Option NTy :=
  match n with
  | 0 => some .f32 | 1 => some .i32 | 2 => some .u32 | _ => none
/-- TY codes (R147). -/
def VTy.code : VTy → BitVec 4
  | .f32 => 0 | .i32 => 1 | .u32 => 2 | .bf16 => 3
/-- Type of a TY. -/
def VTy.ofCode (n : Nat) : Option VTy :=
  match n with
  | 0 => some .f32 | 1 => some .i32 | 2 => some .u32 | 3 => some .bf16 | _ => none
/-- FN of VCVT: the destination type (R155). -/
def VTy.fn : VTy → BitVec 6
  | .f32 => 0 | .i32 => 1 | .u32 => 2 | .bf16 => 3

/-- FN of VCMP (R154). -/
def VCond.fn : VCond → BitVec 6
  | .eq => 0 | .ne => 1 | .lt => 2 | .le => 3 | .gt => 4 | .ge => 5 | .un => 6
/-- VCMP condition of FN. -/
def VCond.ofFn (n : Nat) : Option VCond :=
  match n with
  | 0 => some .eq | 1 => some .ne | 2 => some .lt | 3 => some .le | 4 => some .gt | 5 => some .ge | 6 => some .un
  | _ => none

/-- AX codes (R41). -/
def Axis.code : Axis → BitVec 1
  | .row => 0 | .col => 1
/-- Axis of AX. -/
def Axis.ofCode (b : BitVec 1) : Axis := if b = 0 then .row else .col

/-- FN of VIOTA (R154). -/
def IotaKind.fn : IotaKind → BitVec 6
  | .lin => 0 | .col => 1 | .row => 2
/-- VIOTA kind of FN. -/
def IotaKind.ofFn (n : Nat) : Option IotaKind :=
  match n with
  | 0 => some .lin | 1 => some .col | 2 => some .row | _ => none

/-- FN[2:0] of VPACK (R166). -/
def BlkFmt.code : BlkFmt → BitVec 3
  | .mxi8 => 0 | .mxi6 => 1 | .mxi4 => 2 | .f8e4 => 3 | .f8e5 => 4 | .bf16 => 5
/-- FN of VPACK: the format, then the scale flag in bit 3 (R166). -/
def packFn (f : BlkFmt) (s : Bool) : BitVec 6 := 0#2 ++ (bit1 s ++ f.code)
/-- Format and scale flag of VPACK's FN. -/
def packOfFn (n : Nat) : Option (BlkFmt × Bool) :=
  match n with
  | 0 => some (.mxi8, false) | 1 => some (.mxi6, false) | 2 => some (.mxi4, false) | 3 => some (.f8e4, false)
  | 4 => some (.f8e5, false) | 5 => some (.bf16, false) | 8 => some (.mxi8, true) | 9 => some (.mxi6, true)
  | 10 => some (.mxi4, true) | 11 => some (.f8e4, true) | 12 => some (.f8e5, true) | 13 => some (.bf16, true)
  | _ => none

/-- FN of MMA and MMAH (R225). -/
def Cost.fn : Cost → BitVec 6
  | .c4 => 0 | .c6 => 1 | .c8 => 2
/-- Cost of FN. -/
def Cost.ofFn (n : Nat) : Option Cost :=
  match n with
  | 0 => some .c4 | 1 => some .c6 | 2 => some .c8 | _ => none

/-- EPI codes (R225). -/
def Epi.code : Epi → BitVec 4
  | .id => 0 | .relu => 1 | .sigm => 2 | .tanh => 3 | .gelu => 4
/-- Activation of an EPI. -/
def Epi.ofCode (n : Nat) : Option Epi :=
  match n with
  | 0 => some .id | 1 => some .relu | 2 => some .sigm | 3 => some .tanh | 4 => some .gelu | _ => none

/-- MGATE activation codes (R225). -/
def GateAct.code : GateAct → BitVec 2
  | .id => 0 | .sigm => 1 | .tanh => 2
/-- Activation of a code. -/
def GateAct.ofCode (n : Nat) : Option GateAct :=
  match n with
  | 0 => some .id | 1 => some .sigm | 2 => some .tanh | _ => none

/-- A loop level of a three-bit field; 6 and 7 are none (R40, R45). -/
def lvlOf (b : BitVec 3) : Option (Fin 6) := if h : b.toNat < 6 then some ⟨b.toNat, h⟩ else none

/-- The tail of a word (R46). -/
def Tail.code (t : Tail) : BitVec 32 :=
  (match t.await with
    | some c => 1#1 ++ (c.f ++ c.n)
    | none => 0#15) ++
  ((match t.post with
    | some c => 1#1 ++ (c.f ++ c.n)
    | none => 0#15) ++ 0#2)
/-- The clauses a tail field names; its unused bits are checked against `Tail.code` (R46). -/
def Tail.ofCode (x : BitVec 32) : Tail :=
  { await := if x.extractLsb' 31 1 = 1 then some ⟨x.extractLsb' 25 6, x.extractLsb' 17 8⟩ else none
    post := if x.extractLsb' 16 1 = 1 then some ⟨x.extractLsb' 10 6, x.extractLsb' 2 8⟩ else none }

/-! ### The encoding table -/

/-- A format-C record with every field but OP and FN zero. -/
def c0 (op : BitVec 7) (fn : BitVec 6) : CRaw :=
  { op := op, fn := fn, d := 0, a := 0, b := 0, ib := 0, ha := 0, hb := 0, sh := 0, sc := 0, acq := 0, rel := 0, scf := 0,
    x12 := 0, imm := 0 }
/-- The fields of a second operand (R91). -/
def CRaw.op2 (r : CRaw) (o : Op2) : CRaw :=
  match o with
  | .reg b => { r with b := b }
  | .imm v => { r with ib := 1, imm := v }
/-- The fields of an acquire clause. -/
def CRaw.acqs (r : CRaw) (s : Option Scope) : CRaw :=
  match s with
  | some s => { r with acq := 1, sc := s.code }
  | none => r
/-- The fields of a release clause. -/
def CRaw.rels (r : CRaw) (s : Option Scope) : CRaw :=
  match s with
  | some s => { r with rel := 1, sc := s.code }
  | none => r
/-- The fields of an atomic's ordering (R327). -/
def CRaw.ords (r : CRaw) (o : AtOrd) : CRaw :=
  match o with
  | .plain => r
  | .acq s => { r with acq := 1, sc := s.code }
  | .rel s => { r with rel := 1, sc := s.code }
  | .acqrel s => { r with acq := 1, rel := 1, sc := s.code }
/-- A word with D, A and op2 (R92). -/
def cDao (op : BitVec 7) (fn : BitVec 6) (d a : SReg) (o : Op2) : Option Raw :=
  some (.c false (CRaw.op2 { c0 op fn with d := d, a := a } o))
/-- An atomic (R327). -/
def cAt (op : BitVec 7) (fn : BitVec 6) (d a c : SReg) (o : Op2) (ord : AtOrd) : Option Raw :=
  some (.c false (CRaw.ords (CRaw.op2 { c0 op fn with d := d, a := a, x12 := 0#7 ++ c } o) ord))
/-- Any other CTL word. -/
def cW (r : CRaw) : Option Raw := some (.c false r)
/-- A format-A word with every field but OP and FN zero. -/
def a0 (op : BitVec 7) (fn : BitVec 6) : ARaw :=
  { op := op, fn := fn, ad := 0, aa := 0, ab := 0, q := 0, nrow := 0, ch := 0, rstr := 0, imm := 0 }
/-- A format-V record from its main fields. -/
def vW (op : BitVec 7) (fn : BitVec 6) (ty : BitVec 4) (rm : RMode) (sat : Bool) (ax : Axis) (amt : BitVec 6) (d : VDst)
    (a b c : VSrc) (i : W64) : Option Raw :=
  some (.v { op := op, fn := fn, vd := d.code, va := a.code, vb := b.code, vc := c.code, ty := ty, rm := rm.code,
             sat := bit1 sat, ax := ax.code, amt := amt, rsv := 0, imm := i })
/-- A floating element-wise word (R151). -/
def vF (op : BitVec 7) (ty : FTy) (rm : RMode) (d : VDst) (a b c : VSrc) (i : W64) : Option Raw :=
  vW op 0 ty.code rm false .row 0 d a b c i
/-- A word of the integer group (R153). -/
def vI (op : BitVec 7) (fn : BitVec 6) (ty : ITy) (sat : Bool) (d : VDst) (a b : VSrc) (i : W64) : Option Raw :=
  vW op fn ty.code .rne sat .row 0 d a b (.t 0) i
/-- A format-M record with every field but OP, FN, BK and the tail zero. -/
def m0 (op : BitVec 7) (fn : BitVec 6) (bk : BankNo) (tl : Tail) : MRaw :=
  { op := op, fn := fn, bk := bk, da := 0, db := 0, ks := 0, epi := 0, ecl := 0, clr := 0, rls := 0, ho := 0, qs := 0, xm := 0,
    rsv := 0, tail := tl.code }
/-- A format-K record with the counter clause and the tail (R175). -/
def k0 (op : BitVec 7) (fn : BitVec 6) (cnt : Option CntClause) (ch : ChanNo) (tl : Tail) : KRaw :=
  match cnt with
  | some c => { op := op, fn := fn, hs := 0, hd := 0, hc := c.hc, ce := 1, csc := c.csc.code, cinc := c.cinc, sq := 0, grp := 0,
                rsv := 0, ch := ch, tail := tl.code }
  | none => { op := op, fn := fn, hs := 0, hd := 0, hc := 0, ce := 0, csc := 0, cinc := 0, sq := 0, grp := 0, rsv := 0, ch := ch,
              tail := tl.code }
/-- A format-F record with every field but OP, FN and the tail zero. -/
def f0 (op : BitVec 7) (fn : BitVec 6) (tl : Tail) : FRaw :=
  { op := op, fn := fn, ha := 0, port := 0, phase := 0, cnt := 0, rsv := 0, tail := tl.code }
/-- A format-X record with every field but OP, FN and EMASK zero. -/
def x0 (op : BitVec 7) (fn : BitVec 6) (m : EMask) : XRaw :=
  { op := op, fn := fn, em := m, sa := 0, sb := 0, cond := 0, lvl := 0, rot := 0, rsv := 0, tgt := 0, imm := 0 }

/-- The fields of every word: the encoding tables of 02 R30, 03 R48, 04 R63, 05 R92 to R104, 07 R135 R139, 08 R148 to R168,
09 R175 R191, 13 R225, 15 R253, 16 R271, 18 R292, 20 R318 to R327. An event has none. -/
def Instr.raw : Instr → Option Raw
  | .add d a o => cDao 0x00 0 d a o
  | .sub d a o => cDao 0x01 0 d a o
  | .mul d a o => cDao 0x02 0 d a o
  | .mulh k d a o => cDao 0x03 k.fn d a o
  | .div g d a o => cDao 0x04 g.fn d a o
  | .rem g d a o => cDao 0x05 g.fn d a o
  | .and d a o => cDao 0x06 0 d a o
  | .or d a o => cDao 0x07 0 d a o
  | .xor d a o => cDao 0x08 0 d a o
  | .andn d a o => cDao 0x09 0 d a o
  | .shl d a o => cDao 0x0A 0 d a o
  | .shr d a o => cDao 0x0B 0 d a o
  | .sra d a o => cDao 0x0C 0 d a o
  | .rotl d a o => cDao 0x0D 0 d a o
  | .min g d a o => cDao 0x0E g.fn d a o
  | .max g d a o => cDao 0x0F g.fn d a o
  | .clz d a => cW { c0 0x10 0 with d := d, a := a }
  | .popc d a => cW { c0 0x11 0 with d := d, a := a }
  | .setc c d a o => cDao 0x12 (0#2 ++ c.code) d a o
  | .sel d c a o => cW (CRaw.op2 { c0 0x13 0 with d := d, a := a, x12 := 0#7 ++ c } o)
  | .movi d v => cW { c0 0x14 0 with d := d, imm := v }
  | .mov d a => cW { c0 0x15 0 with d := d, a := a }
  | .lea d a o sh => cW (CRaw.op2 { c0 0x16 0 with d := d, a := a, sh := sh } o)
  | .extr g d a pos w => cW { c0 0x17 (match g with | .u => 0 | .s => 1) with d := d, a := a, sh := pos, x12 := 0#5 ++ w }
  | .insr d a pos w => cW { c0 0x18 0 with d := d, a := a, sh := pos, x12 := 0#5 ++ w }
  | .ld k d a off acq => cW (CRaw.acqs { c0 0x20 k.fn with d := d, a := a, imm := off } acq)
  | .st k a b off rel => cW (CRaw.rels { c0 0x21 k.fn with a := a, b := b, imm := off } rel)
  | .ldsp k d a off acq => cW (CRaw.acqs { c0 0x22 k.fn with d := d, a := a, imm := off } acq)
  | .stsp k a b off rel => cW (CRaw.rels { c0 0x23 k.fn with a := a, b := b, imm := off } rel)
  | .waitge d a o s => cW (CRaw.op2 { c0 0x24 0 with d := d, a := a, acq := 1, sc := s.code } o)
  | .atadd w d a o ord => cAt 0x30 w.fn d a 0 o ord
  | .atand w d a o ord => cAt 0x31 w.fn d a 0 o ord
  | .ator w d a o ord => cAt 0x32 w.fn d a 0 o ord
  | .atxor w d a o ord => cAt 0x33 w.fn d a 0 o ord
  | .atmin w g d a o ord => cAt 0x34 (w.fnS g) d a 0 o ord
  | .atmax w g d a o ord => cAt 0x35 (w.fnS g) d a 0 o ord
  | .atswp w d a o ord => cAt 0x36 w.fn d a 0 o ord
  | .atcas w d a c o ord => cAt 0x37 w.fn d a c o ord
  | .mark => cW (c0 0x38 0)
  | .fence k s => cW (match k with
    | .acq => { c0 0x39 0 with sc := s.code, acq := 1 }
    | .rel => { c0 0x39 0 with sc := s.code, rel := 1 }
    | .acqrel => { c0 0x39 0 with sc := s.code, acq := 1, rel := 1 }
    | .sc => { c0 0x39 0 with sc := s.code, acq := 1, rel := 1, scf := 1 })
  | .fencex x y => cW { c0 0x3A 0 with x12 := 0#2 ++ (y ++ x) }
  | .bar k => cW (c0 0x3B (0#3 ++ k))
  | .barPart n => cW { c0 0x3B 0x10 with imm := 0#32 ++ n }
  | .hmov ha hb => cW { c0 0x40 0 with ha := ha, hb := hb }
  | .hld h a off => cW { c0 0x41 0 with ha := h, a := a, imm := off }
  | .hst h a off => cW { c0 0x42 0 with ha := h, a := a, imm := off }
  | .hsetb s h o => cW (CRaw.op2 { c0 0x43 s.fn with ha := h } o)
  | .hsetx h k o => cW (CRaw.op2 { c0 0x44 0 with ha := h, sh := k } o)
  | .hsets h o => cW (CRaw.op2 { c0 0x45 0 with ha := h } o)
  | .hsetf h o => cW (CRaw.op2 { c0 0x46 0 with ha := h } o)
  | .hget d h s => cW { c0 0x47 0 with d := d, ha := h, x12 := s }
  | .hoff h k o => cW (CRaw.op2 { c0 0x48 0 with ha := h, sh := k } o)
  | .hclr h => cW { c0 0x49 0 with ha := h }
  | .tlook d a => cW { c0 0x50 0 with d := d, a := a }
  | .tset a o => cW (CRaw.op2 { c0 0x51 0 with a := a } o)
  | .tclr o => cW (CRaw.op2 (c0 0x52 0) o)
  | .tclrAll => cW (c0 0x52 1)
  | .tinfo d o => cW (CRaw.op2 { c0 0x53 0 with d := d } o)
  | .ropen h => cW { c0 0x58 0 with ha := h }
  | .rslice h o => cW (CRaw.op2 { c0 0x59 0 with ha := h } o)
  | .rclose h => cW { c0 0x5A 0 with ha := h }
  | .inst d ha hb o quiet p out carry =>
    cW (CRaw.op2 { c0 0x5B (0#4 ++ (bit1 p.isSome ++ bit1 quiet)) with
      d := d, ha := ha, hb := hb, sh := p.getD 0, x12 := bit1 out ++ (0#4 ++ (bit1 carry.isSome ++ carry.getD 0)) } o)
  | .rvk o => cW (CRaw.op2 (c0 0x5C 0) o)
  | .rvkat a o => cW (CRaw.op2 { c0 0x5D 0 with a := a } o)
  | .rqryRule d o => cW (CRaw.op2 { c0 0x5E 0 with d := d } o)
  | .rqryRec d o => cW (CRaw.op2 { c0 0x5E 1 with d := d } o)
  | .rqryCur d o => cW (CRaw.op2 { c0 0x5E 2 with d := d } o)
  | .rres o => cW (CRaw.op2 (c0 0x5F 0) o)
  | .snew ha hb o => cW (CRaw.op2 { c0 0x60 0 with ha := ha, hb := hb } o)
  | .ssend nb d h a o rel => cW (CRaw.rels (CRaw.op2 { c0 0x61 (0#5 ++ bit1 nb) with d := d, ha := h, a := a } o) rel)
  | .srecv nb d h a o acq => cW (CRaw.acqs (CRaw.op2 { c0 0x62 (0#5 ++ bit1 nb) with d := d, ha := h, a := a } o) acq)
  | .ssendh nb d ha hb rel => cW (CRaw.rels { c0 0x63 (0#5 ++ bit1 nb) with d := d, ha := ha, hb := hb } rel)
  | .srecvh nb d ha hb acq => cW (CRaw.acqs { c0 0x64 (0#5 ++ bit1 nb) with d := d, ha := ha, hb := hb } acq)
  | .sbind ha hb o => cW (CRaw.op2 { c0 0x65 0 with ha := ha, hb := hb } o)
  | .sbindOff h => cW { c0 0x65 1 with ha := h }
  | .sclose h => cW { c0 0x66 0 with ha := h }
  | .sdrop h => cW { c0 0x67 0 with ha := h }
  | .sstat d h => cW { c0 0x68 0 with d := d, ha := h }
  | .srd d n => cW { c0 0x70 0 with d := d, x12 := n }
  | .swr n o => cW (CRaw.op2 { c0 0x71 0 with x12 := n } o)
  | .mbxrd d n acq => cW (CRaw.acqs { c0 0x72 0 with d := d, x12 := 0#8 ++ n } acq)
  | .trap v => cW { c0 0x73 0 with imm := v }
  | .eret => cW (c0 0x74 0)
  | .eretSkip => cW (c0 0x74 1)
  | .yield => cW (c0 0x75 0)
  | .exit => cW (c0 0x76 0)
  | .post e f n => some (.c (e == .acc) { c0 0x7E 0 with ib := 1, x12 := 0#6 ++ f, imm := n })
  | .await e f n => some (.c (e == .acc) { c0 0x7F 0 with ib := 1, x12 := 0#6 ++ f, imm := n })
  | .postTail e c => some (.t e { op := 0x7E, fn := 0, mid := 0, tail := Tail.code ⟨none, some c⟩ })
  | .awaitTail e c => some (.t e { op := 0x7F, fn := 0, mid := 0, tail := Tail.code ⟨some c, none⟩ })
  | .aset d v => some (.a { a0 0x00 0 with ad := d, imm := v })
  | .aadd d a v => some (.a { a0 0x01 0 with ad := d, aa := a, imm := v })
  | .aaddReg d a b => some (.a { a0 0x01 1 with ad := d, aa := a, ab := b })
  | .ashl d a n => some (.a { a0 0x02 0 with ad := d, aa := a, imm := 0#58 ++ n })
  | .ard q a r s off => some (.a { a0 0x03 0 with aa := a, q := q, nrow := r, rstr := s, imm := off })
  | .ardb q a r s off => some (.a { a0 0x04 0 with aa := a, q := q, nrow := r, rstr := s, imm := off })
  | .waitwp ch w => some (.a { a0 0x05 0 with ch := 0#2 ++ ch, imm := 0#32 ++ w })
  | .aldi d a l v => some (.a { a0 0x06 0 with ad := d, aa := a, q := BitVec.ofNat 3 l.val, imm := v })
  | .vadd ty rm d a b i => vF 0x00 ty rm d a b (.t 0) i
  | .vsub ty rm d a b i => vF 0x01 ty rm d a b (.t 0) i
  | .vmul ty rm d a b i => vF 0x02 ty rm d a b (.t 0) i
  | .vfma ty rm d a b c i => vF 0x03 ty rm d a b c i
  | .vfms ty rm d a b c i => vF 0x04 ty rm d a b c i
  | .vfnma ty rm d a b c i => vF 0x05 ty rm d a b c i
  | .vmin ty rm d a b i => vF 0x06 ty rm d a b (.t 0) i
  | .vmax ty rm d a b i => vF 0x07 ty rm d a b (.t 0) i
  | .vabs ty rm d a i => vF 0x08 ty rm d a (.t 0) (.t 0) i
  | .vneg ty rm d a i => vF 0x09 ty rm d a (.t 0) (.t 0) i
  | .vdiv ty rm d a b i => vW 0x0A 0 ty.code rm false .row 0 d a b (.t 0) i
  | .vdivRem ty d a b i => vI 0x0A 1 ty false d a b i
  | .vfma16 rm d a b c i => vF 0x0B .f32 rm d a b c i
  | .viadd ty s d a b i => vI 0x10 0 ty s d a b i
  | .visub ty s d a b i => vI 0x11 0 ty s d a b i
  | .vimul ty s d a b i => vI 0x12 0 ty s d a b i
  | .vimulh ty d a b i => vI 0x13 0 ty false d a b i
  | .vimin ty d a b i => vI 0x14 0 ty false d a b i
  | .vimax ty d a b i => vI 0x15 0 ty false d a b i
  | .vand ty d a b i => vI 0x16 0 ty false d a b i
  | .vor ty d a b i => vI 0x17 0 ty false d a b i
  | .vxor ty d a b i => vI 0x18 0 ty false d a b i
  | .vshl ty d a b i => vI 0x19 0 ty false d a b i
  | .vshr ty d a b i => vI 0x1A 0 ty false d a b i
  | .vsra ty d a b i => vI 0x1B 0 ty false d a b i
  | .vcmp cc ty d a b i => vW 0x20 cc.fn ty.code .rne false .row 0 d a b (.t 0) i
  | .vsel d a b c i => vW 0x21 0 0 .rne false .row 0 d a b c i
  | .vcvt dt sy rm d a i => vW 0x22 dt.fn sy.code rm false .row 0 d a (.t 0) (.t 0) i
  | .vmov d a i => vW 0x23 0 0 .rne false .row 0 d a (.t 0) (.t 0) i
  | .vseti d a row col v => vW 0x24 0 0 .rne false .row col d a (.t 0) (.t 0) (0#28 ++ (row ++ v))
  | .viota k d base => vW 0x25 k.fn 1 .rne false .row 0 d (.t 0) (.t 0) (.t 0) (0#32 ++ base)
  | .vrngRaw d a key => vW 0x26 0 0 .rne false .row 0 d a (.t 0) (.t 0) key
  | .vrngUni d a key => vW 0x26 1 0 .rne false .row 0 d a (.t 0) (.t 0) key
  | .vclamp ty d a b c i => vW 0x27 0 ty.code .rne false .row 0 d a b c i
  | .vrot ax amt d a i => vW 0x30 0 0 .rne false ax amt d a (.t 0) (.t 0) i
  | .vbcast ax amt d a i => vW 0x31 0 0 .rne false ax amt d a (.t 0) (.t 0) i
  | .vshiftDn ax amt d a i => vW 0x38 0 0 .rne false ax amt d a (.t 0) (.t 0) i
  | .vshiftUp ax amt d a i => vW 0x38 1 0 .rne false ax amt d a (.t 0) (.t 0) i
  | .vrsum ty rm s ax d a i => vW 0x32 0 ty.code rm s ax 0 d a (.t 0) (.t 0) i
  | .vscanIncl ty rm s ax d a i => vW 0x37 0 ty.code rm s ax 0 d a (.t 0) (.t 0) i
  | .vscanExcl ty rm s ax d a i => vW 0x37 1 ty.code rm s ax 0 d a (.t 0) (.t 0) i
  | .vrmax ty ax d a i => vW 0x33 0 ty.code .rne false ax 0 d a (.t 0) (.t 0) i
  | .vrmin ty ax d a i => vW 0x34 0 ty.code .rne false ax 0 d a (.t 0) (.t 0) i
  | .vrmaxi ty ax d a i => vW 0x35 0 ty.code .rne false ax 0 d a (.t 0) (.t 0) i
  | .vrmini ty ax d a i => vW 0x36 0 ty.code .rne false ax 0 d a (.t 0) (.t 0) i
  | .vexp ty rm d a i => vF 0x40 ty rm d a (.t 0) (.t 0) i
  | .vexp2 ty rm d a i => vF 0x41 ty rm d a (.t 0) (.t 0) i
  | .vln ty rm d a i => vF 0x42 ty rm d a (.t 0) (.t 0) i
  | .vlog2 ty rm d a i => vF 0x43 ty rm d a (.t 0) (.t 0) i
  | .vrcp ty rm d a i => vF 0x44 ty rm d a (.t 0) (.t 0) i
  | .vrsqrt ty rm d a i => vF 0x45 ty rm d a (.t 0) (.t 0) i
  | .vsqrt ty rm d a i => vF 0x46 ty rm d a (.t 0) (.t 0) i
  | .vtanh ty rm d a i => vF 0x47 ty rm d a (.t 0) (.t 0) i
  | .vsigm ty rm d a i => vF 0x48 ty rm d a (.t 0) (.t 0) i
  | .vgelu ty rm d a i => vF 0x49 ty rm d a (.t 0) (.t 0) i
  | .verf ty rm d a i => vF 0x4A ty rm d a (.t 0) (.t 0) i
  | .vunpk hi ty rm amt d a i => vW 0x50 (0#5 ++ bit1 hi) ty.code rm false .row amt d a (.t 0) (.t 0) i
  | .vpack f s amt n d a b c => vW 0x51 (packFn f s) 0 .rne false .row amt d a b c (0#57 ++ n)
  | .vpkbf rm d a b i => vW 0x52 0 0 rm false .row 0 d a b (.t 0) i
  | .vupbf hi d a i => vW 0x53 (0#5 ++ bit1 hi) 0 .rne false .row 0 d a (.t 0) (.t 0) i
  | .mma c bk da db ks ecl clr rls tl =>
    some (.m { m0 0x00 c.fn bk tl with da := da, db := db, ks := ks, ecl := ecl, clr := bit1 clr, rls := bit1 rls })
  | .mclr bk tl => some (.m (m0 0x01 0 bk tl))
  | .moutTile bk t4 epi clr bias scale bf tl =>
    some (.m { m0 0x02 0 bk tl with
      da := BitVec.ofNat 5 t4.val, epi := epi.code, clr := bit1 clr, qs := 0#2 ++ (bit1 scale ++ bit1 bias),
      xm := 0#7 ++ bit1 bf })
  | .moutHandle bk ho epi clr bias scale tl =>
    some (.m { m0 0x02 1 bk tl with
      ho := ho, epi := epi.code, clr := bit1 clr, qs := 0#2 ++ (bit1 scale ++ bit1 bias) })
  | .mgate bs bd aa ab cmp bias tl =>
    some (.m { m0 0x03 0 bs tl with
      qs := 0#3 ++ bit1 bias, xm := 0#1 ++ (bit1 cmp ++ (ab.code ++ (aa.code ++ bd))) })
  | .mscan bk n bc kc reset tl =>
    some (.m { m0 0x04 0 bk tl with
      ks := 0#6 ++ n, qs := 0#1 ++ (bit1 reset ++ 0#2), xm := 0#5 ++ (bit1 kc ++ bc) })
  | .mcarryZ bk tl => some (.m (m0 0x05 0 bk tl))
  | .mcarryLd bk bx row tl => some (.m { m0 0x05 1 bk tl with xm := 0#6 ++ bx, ks := 0#6 ++ row })
  | .mcarrySt bk bx row tl => some (.m { m0 0x05 2 bk tl with xm := 0#6 ++ bx, ks := 0#6 ++ row })
  | .dclaim da n tl => some (.m { m0 0x06 0 0 tl with da := da, ks := 0#7 ++ n })
  | .drel da n tl => some (.m { m0 0x07 0 0 tl with da := da, ks := 0#7 ++ n })
  | .dqry ho tl => some (.m { m0 0x08 0 0 tl with ho := ho })
  | .mmah c bk da db ks ecl clr rls tl =>
    some (.m { m0 0x0A c.fn bk tl with da := da, db := db, ks := ks, ecl := ecl, clr := bit1 clr, rls := bit1 rls })
  | .cpy e s hs hd cnt ch tl => some (.k e { k0 0x00 (0#5 ++ bit1 s) cnt ch tl with hs := hs, hd := hd })
  | .cpyf s hs hd cnt ch tl => some (.k .cld { k0 0x01 (0#5 ++ bit1 s) cnt ch tl with hs := hs, hd := hd })
  | .cred int hs hd cnt sq grp ch tl =>
    some (.k .cst { k0 0x02 (0#4 ++ (bit1 int ++ 0#1)) cnt ch tl with hs := hs, hd := hd, sq := sq, grp := grp })
  | .cfil e sx hd cnt v ch tl => some (.k e { k0 0x03 (0#4 ++ (bit1 sx ++ 0#1)) cnt ch tl with hd := hd, sq := v })
  | .ctier e up hs hd cnt ch tl => some (.k e { k0 0x04 (0#4 ++ (bit1 up ++ 0#1)) cnt ch tl with hs := hs, hd := hd })
  | .ccnt e cnt tl => some (.k e (k0 0x05 0 cnt 0 tl))
  | .fcfg h tl => some (.f { f0 0x00 0 tl with ha := h })
  | .fbind h p cnt tl => some (.f { f0 0x01 0 tl with ha := h, port := BitVec.ofNat 4 p.val, cnt := cnt })
  | .fbindC h p cnt tl => some (.f { f0 0x01 1 tl with ha := h, port := 2#2 ++ p, cnt := cnt })
  | .fgo n tl => some (.f { f0 0x02 0 tl with phase := n })
  | .fbar n tl => some (.f { f0 0x03 0 tl with phase := n })
  | .fbarRec h n tl => some (.f { f0 0x03 1 tl with ha := h, phase := n })
  | .fstop tl => some (.f (f0 0x04 0 tl))
  | .fstopRec h tl => some (.f { f0 0x04 1 tl with ha := h })
  | .nop m => some (.x (x0 0x00 0 m))
  | .br m c sa sb tgt => some (.x { x0 0x01 0 m with cond := c.code, sa := sa, sb := sb, tgt := tgt })
  | .jmp m tgt => some (.x { x0 0x02 0 m with tgt := tgt })
  | .jmpIndirect m sa => some (.x { x0 0x02 1 m with sa := sa })
  | .call m tgt => some (.x { x0 0x03 0 m with tgt := tgt })
  | .ret m => some (.x (x0 0x04 0 m))
  | .loop m l sa rot tgt imm =>
    some (.x { x0 0x05 0 m with lvl := BitVec.ofNat 3 l.val, sa := sa, rot := bit1 rot, tgt := tgt, imm := imm })
  | .brk m c l sa sb tgt =>
    some (.x { x0 0x06 0 m with cond := c.code, lvl := BitVec.ofNat 3 l.val, sa := sa, sb := sb, tgt := tgt })
  | .mode ex => some (.x (x0 0x07 (0#5 ++ bit1 ex) 0x7F))
  | .rotset m n => some (.x { x0 0x08 0 m with imm := n })
  | .sync m => some (.x (x0 0x09 0 m))
  | .syncRetire m => some (.x (x0 0x09 1 m))
  | _ => none

/-! ### The decoder -/

/-- A value the decoder needs, or the refusal. -/
def req {α : Type} (o : Option α) (e : DecErr) (k : α → Except DecErr Instr) : Except DecErr Instr :=
  match o with
  | some a => k a
  | none => .error e

@[simp] theorem req_some {α : Type} (a : α) (e : DecErr) (k : α → Except DecErr Instr) : req (some a) e k = k a := rfl
@[simp] theorem req_none {α : Type} (e : DecErr) (k : α → Except DecErr Instr) : req none e k = .error e := rfl

/-- The row takes FN 0 only. -/
def fn0 (fn : BitVec 6) (i : Instr) : Except DecErr Instr := if fn = 0 then .ok i else .error .unlistedFn

/-- The second operand of a record (R91). -/
def CRaw.getOp2 (r : CRaw) : Op2 := if isOne r.ib then .imm r.imm else .reg r.b
/-- The acquire clause of a record. -/
def CRaw.getAcq (r : CRaw) : Option (Option Scope) :=
  if isOne r.acq then (Scope.ofCode r.sc).map some else some none
/-- The release clause of a record. -/
def CRaw.getRel (r : CRaw) : Option (Option Scope) :=
  if isOne r.rel then (Scope.ofCode r.sc).map some else some none
/-- The ordering clause of an atomic. -/
def CRaw.getOrd (r : CRaw) : Option AtOrd :=
  match isOne r.acq, isOne r.rel with
  | false, false => some .plain
  | true, false => (Scope.ofCode r.sc).map .acq
  | false, true => (Scope.ofCode r.sc).map .rel
  | true, true => (Scope.ofCode r.sc).map .acqrel

/-- The CTL word whose used fields these are (R47, R92 to R104 and the other CTL tables). -/
def candC (r : CRaw) : Except DecErr Instr :=
  let o := r.getOp2
  let f := r.fn.toNat
  match r.op.toNat with
  | 0x00 => fn0 r.fn (.add r.d r.a o)
  | 0x01 => fn0 r.fn (.sub r.d r.a o)
  | 0x02 => fn0 r.fn (.mul r.d r.a o)
  | 0x03 => req (MulhKind.ofFn f) .unlistedFn fun k => .ok (.mulh k r.d r.a o)
  | 0x04 => req (Sgn.ofFn f) .unlistedFn fun g => .ok (.div g r.d r.a o)
  | 0x05 => req (Sgn.ofFn f) .unlistedFn fun g => .ok (.rem g r.d r.a o)
  | 0x06 => fn0 r.fn (.and r.d r.a o)
  | 0x07 => fn0 r.fn (.or r.d r.a o)
  | 0x08 => fn0 r.fn (.xor r.d r.a o)
  | 0x09 => fn0 r.fn (.andn r.d r.a o)
  | 0x0A => fn0 r.fn (.shl r.d r.a o)
  | 0x0B => fn0 r.fn (.shr r.d r.a o)
  | 0x0C => fn0 r.fn (.sra r.d r.a o)
  | 0x0D => fn0 r.fn (.rotl r.d r.a o)
  | 0x0E => req (Sgn.ofFn f) .unlistedFn fun g => .ok (.min g r.d r.a o)
  | 0x0F => req (Sgn.ofFn f) .unlistedFn fun g => .ok (.max g r.d r.a o)
  | 0x10 => fn0 r.fn (.clz r.d r.a)
  | 0x11 => fn0 r.fn (.popc r.d r.a)
  | 0x12 => req (Cond.ofCode f) .unlistedFn fun c => .ok (.setc c r.d r.a o)
  | 0x13 => fn0 r.fn (.sel r.d (r.x12.extractLsb' 0 5) r.a o)
  | 0x14 => fn0 r.fn (.movi r.d r.imm)
  | 0x15 => fn0 r.fn (.mov r.d r.a)
  | 0x16 => fn0 r.fn (.lea r.d r.a o r.sh)
  | 0x17 =>
    if r.fn = 0 then .ok (.extr .u r.d r.a r.sh (r.x12.extractLsb' 0 7))
    else if r.fn = 1 then .ok (.extr .s r.d r.a r.sh (r.x12.extractLsb' 0 7)) else .error .unlistedFn
  | 0x18 => fn0 r.fn (.insr r.d r.a r.sh (r.x12.extractLsb' 0 7))
  | 0x20 => req (LdKind.ofFn f) .unlistedFn fun k => req r.getAcq .badOperand fun s => .ok (.ld k r.d r.a r.imm s)
  | 0x21 => req (StKind.ofFn f) .unlistedFn fun k => req r.getRel .badOperand fun s => .ok (.st k r.a r.b r.imm s)
  | 0x22 => req (LdKind.ofFn f) .unlistedFn fun k => req r.getAcq .badOperand fun s => .ok (.ldsp k r.d r.a r.imm s)
  | 0x23 => req (StKind.ofFn f) .unlistedFn fun k => req r.getRel .badOperand fun s => .ok (.stsp k r.a r.b r.imm s)
  | 0x24 => req (Scope.ofCode r.sc) .badOperand fun s => fn0 r.fn (.waitge r.d r.a o s)
  | 0x30 => req (AtW.ofFn f) .unlistedFn fun w => req r.getOrd .badOperand fun q => .ok (.atadd w r.d r.a o q)
  | 0x31 => req (AtW.ofFn f) .unlistedFn fun w => req r.getOrd .badOperand fun q => .ok (.atand w r.d r.a o q)
  | 0x32 => req (AtW.ofFn f) .unlistedFn fun w => req r.getOrd .badOperand fun q => .ok (.ator w r.d r.a o q)
  | 0x33 => req (AtW.ofFn f) .unlistedFn fun w => req r.getOrd .badOperand fun q => .ok (.atxor w r.d r.a o q)
  | 0x34 => req (AtW.ofFnS f) .unlistedFn fun w => req r.getOrd .badOperand fun q => .ok (.atmin w.1 w.2 r.d r.a o q)
  | 0x35 => req (AtW.ofFnS f) .unlistedFn fun w => req r.getOrd .badOperand fun q => .ok (.atmax w.1 w.2 r.d r.a o q)
  | 0x36 => req (AtW.ofFn f) .unlistedFn fun w => req r.getOrd .badOperand fun q => .ok (.atswp w r.d r.a o q)
  | 0x37 => req (AtW.ofFn f) .unlistedFn fun w => req r.getOrd .badOperand fun q =>
    .ok (.atcas w r.d r.a (r.x12.extractLsb' 0 5) o q)
  | 0x38 => fn0 r.fn .mark
  | 0x39 => req (Scope.ofCode r.sc) .badOperand fun s =>
    if isOne r.scf then fn0 r.fn (.fence .sc s)
    else match isOne r.acq, isOne r.rel with
      | true, true => fn0 r.fn (.fence .acqrel s)
      | true, false => fn0 r.fn (.fence .acq s)
      | false, true => fn0 r.fn (.fence .rel s)
      | false, false => .error .badOperand
  | 0x3A => fn0 r.fn (.fencex (r.x12.extractLsb' 0 5) (r.x12.extractLsb' 5 5))
  | 0x3B =>
    if r.fn = 0x10 then .ok (.barPart (r.imm.extractLsb' 0 32))
    else if f < 8 then .ok (.bar (r.fn.extractLsb' 0 3)) else .error .unlistedFn
  | 0x40 => fn0 r.fn (.hmov r.ha r.hb)
  | 0x41 => fn0 r.fn (.hld r.ha r.a r.imm)
  | 0x42 => fn0 r.fn (.hst r.ha r.a r.imm)
  | 0x43 => req (HSpc.ofFn f) .unlistedFn fun s => .ok (.hsetb s r.ha o)
  | 0x44 => fn0 r.fn (.hsetx r.ha r.sh o)
  | 0x45 => fn0 r.fn (.hsets r.ha o)
  | 0x46 => fn0 r.fn (.hsetf r.ha o)
  | 0x47 => fn0 r.fn (.hget r.d r.ha r.x12)
  | 0x48 => fn0 r.fn (.hoff r.ha r.sh o)
  | 0x49 => fn0 r.fn (.hclr r.ha)
  | 0x50 => fn0 r.fn (.tlook r.d r.a)
  | 0x51 => fn0 r.fn (.tset r.a o)
  | 0x52 => if r.fn = 0 then .ok (.tclr o) else if r.fn = 1 then .ok .tclrAll else .error .unlistedFn
  | 0x53 => fn0 r.fn (.tinfo r.d o)
  | 0x58 => fn0 r.fn (.ropen r.ha)
  | 0x59 => fn0 r.fn (.rslice r.ha o)
  | 0x5A => fn0 r.fn (.rclose r.ha)
  | 0x5B =>
    if f < 4 then
      .ok (.inst r.d r.ha r.hb o (isOne (r.fn.extractLsb' 0 1)) (if isOne (r.fn.extractLsb' 1 1) then some r.sh else none)
        (isOne (r.x12.extractLsb' 11 1)) (if isOne (r.x12.extractLsb' 6 1) then some (r.x12.extractLsb' 0 6) else none))
    else .error .unlistedFn
  | 0x5C => fn0 r.fn (.rvk o)
  | 0x5D => fn0 r.fn (.rvkat r.a o)
  | 0x5E =>
    if r.fn = 0 then .ok (.rqryRule r.d o) else if r.fn = 1 then .ok (.rqryRec r.d o)
    else if r.fn = 2 then .ok (.rqryCur r.d o) else .error .unlistedFn
  | 0x5F => fn0 r.fn (.rres o)
  | 0x60 => fn0 r.fn (.snew r.ha r.hb o)
  | 0x61 => if f < 2 then req r.getRel .badOperand fun s => .ok (.ssend (r.fn == 1) r.d r.ha r.a o s) else .error .unlistedFn
  | 0x62 => if f < 2 then req r.getAcq .badOperand fun s => .ok (.srecv (r.fn == 1) r.d r.ha r.a o s) else .error .unlistedFn
  | 0x63 => if f < 2 then req r.getRel .badOperand fun s => .ok (.ssendh (r.fn == 1) r.d r.ha r.hb s) else .error .unlistedFn
  | 0x64 => if f < 2 then req r.getAcq .badOperand fun s => .ok (.srecvh (r.fn == 1) r.d r.ha r.hb s) else .error .unlistedFn
  | 0x65 => if r.fn = 0 then .ok (.sbind r.ha r.hb o) else if r.fn = 1 then .ok (.sbindOff r.ha) else .error .unlistedFn
  | 0x66 => fn0 r.fn (.sclose r.ha)
  | 0x67 => fn0 r.fn (.sdrop r.ha)
  | 0x68 => fn0 r.fn (.sstat r.d r.ha)
  | 0x70 => fn0 r.fn (.srd r.d r.x12)
  | 0x71 => fn0 r.fn (.swr r.x12 o)
  | 0x72 => req r.getAcq .badOperand fun s => fn0 r.fn (.mbxrd r.d (r.x12.extractLsb' 0 4) s)
  | 0x73 => fn0 r.fn (.trap r.imm)
  | 0x74 => if r.fn = 0 then .ok .eret else if r.fn = 1 then .ok .eretSkip else .error .unlistedFn
  | 0x75 => fn0 r.fn .yield
  | 0x76 => fn0 r.fn .exit
  | 0x7E => fn0 r.fn (.post .ctl (r.x12.extractLsb' 0 6) r.imm)
  | 0x7F => fn0 r.fn (.await .ctl (r.x12.extractLsb' 0 6) r.imm)
  | _ => .error .unassignedOp

/-- ACC's POST and AWAIT, in format C (R48). -/
def candAccC (r : CRaw) : Except DecErr Instr :=
  match r.op.toNat with
  | 0x7E => fn0 r.fn (.post .acc (r.x12.extractLsb' 0 6) r.imm)
  | 0x7F => fn0 r.fn (.await .acc (r.x12.extractLsb' 0 6) r.imm)
  | _ => .error .unassignedOp

/-- The ACC word whose used fields these are (R139). -/
def candA (r : ARaw) : Except DecErr Instr :=
  match r.op.toNat with
  | 0x00 => fn0 r.fn (.aset r.ad r.imm)
  | 0x01 => if r.fn = 0 then .ok (.aadd r.ad r.aa r.imm) else if r.fn = 1 then .ok (.aaddReg r.ad r.aa r.ab) else .error .unlistedFn
  | 0x02 => fn0 r.fn (.ashl r.ad r.aa (r.imm.extractLsb' 0 6))
  | 0x03 => fn0 r.fn (.ard r.q r.aa r.nrow r.rstr r.imm)
  | 0x04 => fn0 r.fn (.ardb r.q r.aa r.nrow r.rstr r.imm)
  | 0x05 => fn0 r.fn (.waitwp (r.ch.extractLsb' 0 2) (r.imm.extractLsb' 0 32))
  | 0x06 => req (lvlOf r.q) .badOperand fun l => fn0 r.fn (.aldi r.ad r.aa l r.imm)
  | _ => .error .unassignedOp

/-- The VEC word whose used fields these are (R148). -/
def candV (r : VRaw) : Except DecErr Instr :=
  let f := r.fn.toNat
  let i := r.imm
  let rm := RMode.ofCode r.rm
  let sat := isOne r.sat
  let ax := Axis.ofCode r.ax
  req (VDst.ofCode r.vd) .badOperand fun d =>
  req (VSrc.ofCode r.va) .badOperand fun a =>
  req (VSrc.ofCode r.vb) .badOperand fun b =>
  req (VSrc.ofCode r.vc) .badOperand fun c =>
  let ft (k : FTy → Instr) : Except DecErr Instr := req (FTy.ofCode r.ty.toNat) .badOperand fun t => fn0 r.fn (k t)
  let it (k : ITy → Instr) : Except DecErr Instr := req (ITy.ofCode r.ty.toNat) .badOperand fun t => fn0 r.fn (k t)
  let nt (k : NTy → Instr) : Except DecErr Instr := req (NTy.ofCode r.ty.toNat) .badOperand fun t => fn0 r.fn (k t)
  match r.op.toNat with
  | 0x00 => ft fun t => .vadd t rm d a b i
  | 0x01 => ft fun t => .vsub t rm d a b i
  | 0x02 => ft fun t => .vmul t rm d a b i
  | 0x03 => ft fun t => .vfma t rm d a b c i
  | 0x04 => ft fun t => .vfms t rm d a b c i
  | 0x05 => ft fun t => .vfnma t rm d a b c i
  | 0x06 => ft fun t => .vmin t rm d a b i
  | 0x07 => ft fun t => .vmax t rm d a b i
  | 0x08 => ft fun t => .vabs t rm d a i
  | 0x09 => ft fun t => .vneg t rm d a i
  | 0x0A =>
    if r.fn = 1 then req (ITy.ofCode r.ty.toNat) .badOperand fun t => .ok (.vdivRem t d a b i)
    else req (VTy.ofCode r.ty.toNat) .badOperand fun t => fn0 r.fn (.vdiv t rm d a b i)
  | 0x0B => fn0 r.fn (.vfma16 rm d a b c i)
  | 0x10 => it fun t => .viadd t sat d a b i
  | 0x11 => it fun t => .visub t sat d a b i
  | 0x12 => it fun t => .vimul t sat d a b i
  | 0x13 => it fun t => .vimulh t d a b i
  | 0x14 => it fun t => .vimin t d a b i
  | 0x15 => it fun t => .vimax t d a b i
  | 0x16 => it fun t => .vand t d a b i
  | 0x17 => it fun t => .vor t d a b i
  | 0x18 => it fun t => .vxor t d a b i
  | 0x19 => it fun t => .vshl t d a b i
  | 0x1A => it fun t => .vshr t d a b i
  | 0x1B => it fun t => .vsra t d a b i
  | 0x20 => req (VCond.ofFn f) .unlistedFn fun cc => req (NTy.ofCode r.ty.toNat) .badOperand fun t => .ok (.vcmp cc t d a b i)
  | 0x21 => fn0 r.fn (.vsel d a b c i)
  | 0x22 => req (VTy.ofCode f) .unlistedFn fun dt => req (VTy.ofCode r.ty.toNat) .badOperand fun st => .ok (.vcvt dt st rm d a i)
  | 0x23 => fn0 r.fn (.vmov d a i)
  | 0x24 => fn0 r.fn (.vseti d a (i.extractLsb' 32 4) r.amt (i.extractLsb' 0 32))
  | 0x25 => req (IotaKind.ofFn f) .unlistedFn fun k => .ok (.viota k d (i.extractLsb' 0 32))
  | 0x26 => if r.fn = 0 then .ok (.vrngRaw d a i) else if r.fn = 1 then .ok (.vrngUni d a i) else .error .unlistedFn
  | 0x27 => nt fun t => .vclamp t d a b c i
  | 0x30 => fn0 r.fn (.vrot ax r.amt d a i)
  | 0x31 => fn0 r.fn (.vbcast ax r.amt d a i)
  | 0x38 =>
    if r.fn = 0 then .ok (.vshiftDn ax r.amt d a i) else if r.fn = 1 then .ok (.vshiftUp ax r.amt d a i) else .error .unlistedFn
  | 0x32 => nt fun t => .vrsum t rm sat ax d a i
  | 0x37 =>
    req (NTy.ofCode r.ty.toNat) .badOperand fun t =>
      if r.fn = 0 then .ok (.vscanIncl t rm sat ax d a i)
      else if r.fn = 1 then .ok (.vscanExcl t rm sat ax d a i) else .error .unlistedFn
  | 0x33 => nt fun t => .vrmax t ax d a i
  | 0x34 => nt fun t => .vrmin t ax d a i
  | 0x35 => nt fun t => .vrmaxi t ax d a i
  | 0x36 => nt fun t => .vrmini t ax d a i
  | 0x40 => ft fun t => .vexp t rm d a i
  | 0x41 => ft fun t => .vexp2 t rm d a i
  | 0x42 => ft fun t => .vln t rm d a i
  | 0x43 => ft fun t => .vlog2 t rm d a i
  | 0x44 => ft fun t => .vrcp t rm d a i
  | 0x45 => ft fun t => .vrsqrt t rm d a i
  | 0x46 => ft fun t => .vsqrt t rm d a i
  | 0x47 => ft fun t => .vtanh t rm d a i
  | 0x48 => ft fun t => .vsigm t rm d a i
  | 0x49 => ft fun t => .vgelu t rm d a i
  | 0x4A => ft fun t => .verf t rm d a i
  | 0x50 =>
    if f < 2 then req (FTy.ofCode r.ty.toNat) .badOperand fun t => .ok (.vunpk (r.fn == 1) t rm r.amt d a i)
    else .error .unlistedFn
  | 0x51 => req (packOfFn f) .unlistedFn fun p => .ok (.vpack p.1 p.2 r.amt (i.extractLsb' 0 7) d a b c)
  | 0x52 => fn0 r.fn (.vpkbf rm d a b i)
  | 0x53 => if f < 2 then .ok (.vupbf (r.fn == 1) d a i) else .error .unlistedFn
  | _ => .error .unassignedOp

/-- The MAT word whose used fields these are (R225). -/
def candM (r : MRaw) : Except DecErr Instr :=
  let f := r.fn.toNat
  let tl := Tail.ofCode r.tail
  let q (k : Nat) : Bool := isOne (r.qs.extractLsb' k 1)
  let x (k : Nat) : Bool := isOne (r.xm.extractLsb' k 1)
  let x2 := r.xm.extractLsb' 0 2
  let k6 := r.ks.extractLsb' 0 6
  let k5 := r.ks.extractLsb' 0 5
  match r.op.toNat with
  | 0x00 => req (Cost.ofFn f) .unlistedFn fun c => .ok (.mma c r.bk r.da r.db r.ks r.ecl (isOne r.clr) (isOne r.rls) tl)
  | 0x01 => fn0 r.fn (.mclr r.bk tl)
  | 0x02 =>
    req (Epi.ofCode r.epi.toNat) .badOperand fun e =>
      if r.fn = 1 then .ok (.moutHandle r.bk r.ho e (isOne r.clr) (q 0) (q 1) tl)
      else if h : r.da.toNat < 12 then fn0 r.fn (.moutTile r.bk ⟨r.da.toNat, h⟩ e (isOne r.clr) (q 0) (q 1) (x 0) tl)
      else .error .badOperand
  | 0x03 =>
    req (GateAct.ofCode (r.xm.extractLsb' 2 2).toNat) .badOperand fun aa =>
    req (GateAct.ofCode (r.xm.extractLsb' 4 2).toNat) .badOperand fun ab =>
    fn0 r.fn (.mgate r.bk x2 aa ab (x 6) (q 0) tl)
  | 0x04 => fn0 r.fn (.mscan r.bk k6 x2 (x 2) (q 2) tl)
  | 0x05 =>
    if r.fn = 0 then .ok (.mcarryZ r.bk tl) else if r.fn = 1 then .ok (.mcarryLd r.bk x2 k6 tl)
    else if r.fn = 2 then .ok (.mcarrySt r.bk x2 k6 tl) else .error .unlistedFn
  | 0x06 => fn0 r.fn (.dclaim r.da k5 tl)
  | 0x07 => fn0 r.fn (.drel r.da k5 tl)
  | 0x08 => fn0 r.fn (.dqry r.ho tl)
  | 0x0A => req (Cost.ofFn f) .unlistedFn fun c => .ok (.mmah c r.bk r.da r.db r.ks r.ecl (isOne r.clr) (isOne r.rls) tl)
  | _ => .error .unassignedOp

/-- The counter clause of a record (R175). -/
def KRaw.getCnt (r : KRaw) : Option (Option CntClause) :=
  if isOne r.ce then (Scope.ofCode r.csc).map fun s => some ⟨r.hc, s, r.cinc⟩ else some none

/-- The copy word whose used fields these are (R175). -/
def candK (e : CopyEng) (r : KRaw) : Except DecErr Instr :=
  let tl := Tail.ofCode r.tail
  let f := r.fn.toNat
  req r.getCnt .badOperand fun cnt =>
  match r.op.toNat with
  | 0x00 => if f < 2 then .ok (.cpy e (r.fn == 1) r.hs r.hd cnt r.ch tl) else .error .unlistedFn
  | 0x01 =>
    match e with
    | .cst => .error .unassignedOp
    | .cld => if f < 2 then .ok (.cpyf (r.fn == 1) r.hs r.hd cnt r.ch tl) else .error .unlistedFn
  | 0x02 =>
    match e with
    | .cld => .error .unassignedOp
    | .cst =>
      if r.fn = 0 then .ok (.cred false r.hs r.hd cnt r.sq r.grp r.ch tl)
      else if r.fn = 2 then .ok (.cred true r.hs r.hd cnt r.sq r.grp r.ch tl) else .error .unlistedFn
  | 0x03 =>
    if r.fn = 0 then .ok (.cfil e false r.hd cnt r.sq r.ch tl)
    else if r.fn = 2 then .ok (.cfil e true r.hd cnt r.sq r.ch tl) else .error .unlistedFn
  | 0x04 =>
    if r.fn = 0 then .ok (.ctier e false r.hs r.hd cnt r.ch tl)
    else if r.fn = 2 then .ok (.ctier e true r.hs r.hd cnt r.ch tl) else .error .unlistedFn
  | 0x05 => fn0 r.fn (.ccnt e cnt tl)
  | _ => .error .unassignedOp

/-- The FAB word whose used fields these are (R253). -/
def candF (r : FRaw) : Except DecErr Instr :=
  let tl := Tail.ofCode r.tail
  match r.op.toNat with
  | 0x00 => fn0 r.fn (.fcfg r.ha tl)
  | 0x01 =>
    if r.fn = 1 then .ok (.fbindC r.ha (r.port.extractLsb' 0 2) r.cnt tl)
    else if h : r.port.toNat < 12 then fn0 r.fn (.fbind r.ha ⟨r.port.toNat, h⟩ r.cnt tl) else .error .badOperand
  | 0x02 => fn0 r.fn (.fgo r.phase tl)
  | 0x03 =>
    if r.fn = 0 then .ok (.fbar r.phase tl) else if r.fn = 1 then .ok (.fbarRec r.ha r.phase tl) else .error .unlistedFn
  | 0x04 => if r.fn = 0 then .ok (.fstop tl) else if r.fn = 1 then .ok (.fstopRec r.ha tl) else .error .unlistedFn
  | _ => .error .unassignedOp

/-- The MUL word whose used fields these are (R63). -/
def candX (r : XRaw) : Except DecErr Instr :=
  match r.op.toNat with
  | 0x00 => fn0 r.fn (.nop r.em)
  | 0x01 => req (Cond.ofCode r.cond.toNat) .badOperand fun c => fn0 r.fn (.br r.em c r.sa r.sb r.tgt)
  | 0x02 =>
    if r.fn = 0 then .ok (.jmp r.em r.tgt) else if r.fn = 1 then .ok (.jmpIndirect r.em r.sa) else .error .unlistedFn
  | 0x03 => fn0 r.fn (.call r.em r.tgt)
  | 0x04 => fn0 r.fn (.ret r.em)
  | 0x05 => req (lvlOf r.lvl) .badOperand fun l => fn0 r.fn (.loop r.em l r.sa (isOne r.rot) r.tgt r.imm)
  | 0x06 =>
    req (Cond.ofCode r.cond.toNat) .badOperand fun c => req (lvlOf r.lvl) .badOperand fun l =>
    fn0 r.fn (.brk r.em c l r.sa r.sb r.tgt)
  | 0x07 => if r.fn = 0 then .ok (.mode false) else if r.fn = 1 then .ok (.mode true) else .error .unlistedFn
  | 0x08 => fn0 r.fn (.rotset r.em r.imm)
  | 0x09 => if r.fn = 0 then .ok (.sync r.em) else if r.fn = 1 then .ok (.syncRetire r.em) else .error .unlistedFn
  | _ => .error .unassignedOp

/-- POST and AWAIT of an async engine (R48). -/
def candT (e : Eng) (r : TRaw) : Except DecErr Instr :=
  if r.op = 0x7E#7 then req (Tail.ofCode r.tail).post .badOperand fun c => fn0 r.fn (.postTail e c)
  else req (Tail.ofCode r.tail).await .badOperand fun c => fn0 r.fn (.awaitTail e c)

/-- The instruction whose used fields a record holds. -/
def Raw.cand : Raw → Except DecErr Instr
  | .c false r => candC r
  | .c true r => candAccC r
  | .a r => candA r
  | .v r => candV r
  | .m r => candM r
  | .k e r => candK e r
  | .f r => candF r
  | .x r => candX r
  | .t e r => candT e r

/-- The record's used fields name an instruction, its unused fields are zero, and its operands are in range (R50). -/
def Raw.decode (r : Raw) : Except DecErr Instr :=
  match r.cand with
  | .error e => .error e
  | .ok i => if i.raw = some r then (if i.wf then .ok i else .error .badOperand) else .error .reservedField

/-- The instruction a 128-bit word stands for, or why it is none. -/
def decode (w : W128) : Except DecErr Instr := (Raw.unpack w).decode

/-- The 16 bytes of a word, byte 0 first (R35). -/
def wordBytes (w : W128) : List Byte := (List.range 16).map fun k => w.extractLsb' (8 * k) 8

/-- The value of a byte string, byte 0 least significant (R2). -/
def leVal : List Byte → Nat
  | [] => 0
  | b :: bs => b.toNat + 256 * leVal bs

/-- Decoding a byte string: a word is 16 bytes, little-endian (R35); a shorter string is no word. -/
def decodeBytes (bs : List Byte) : Except DecErr Instr :=
  if bs.length < 16 then .error .badOperand else decode (BitVec.ofNat 128 (leVal (bs.take 16)))

/-- The words of a well-formed instruction, from the same tables; an event or an ill-formed term has none. -/
def encode (i : Instr) : Option W128 := if i.wf then i.raw.map Raw.pack else none

/-- The host's question: the instruction the decoder reads from an instruction whose bits are `w`, the bits above `nbits` zero. -/
def decodeTableWord (nbits w : Nat) : Option Instr :=
  match decodeBytes (wordBytes (BitVec.ofNat 128 (w % 2 ^ nbits))) with
  | .ok i => some i
  | .error _ => none

end Sys2Proof
end

