-- ==== Sys2Proof/Config.lean ====
section
/-!
DEFINITION. What the spec leaves open: turns, draws, latencies and ciphers without a body, so that no proof can see a value.
-/
namespace Sys2Proof

/-- Who acts next (log 2): a sequencer, a core's clock edge, an event of the opcode table on a core, or a soft error that makes
a granule of core storage unreadable (25 R385). -/
inductive Turn where
  | seq (core : Nat) (e : Eng)
  | clock (core : Nat)
  | event (core : Nat) (i : Instr)
  | softError (core : Nat) (code : BitVec 4) (addr : Nat)
deriving DecidableEq, Repr, Inhabited

namespace Config

/-- The turn taken when the agenda is empty, by the count of steps (log 2). -/
opaque freeTurn : Nat → Turn
/-- The authenticator drawn at SNEW and at a move (18 R289; log 4). -/
opaque freeAuth : Nat → W32
/-- Where the search for an unused SID begins at SNEW (18 R287; log 4). -/
opaque freeSid : Nat → W32
/-- The step at which a write becomes visible to readers of a path of a core that nothing orders after it: the number of the write, the
core, the atomic unit, the path (20 R323; log 78). -/
opaque visibleAt : Nat → Nat → Nat → Nat → Nat
/-- Which of the modules that hold a side of a stream a STREAM_LOSS is of, by the step; only its place among them counts (18 R301; log 88). -/
opaque lostRank : Nat → Nat
/-- The send end's next number at a loss, by the step (18 R301; log 88). -/
opaque lostNext : Nat → W32
/-- Extra virtual cycles of an interlocked special function beyond 10, used modulo 31 (08 R162; log 5). -/
opaque specExtra : Nat → Nat
/-- What a 64-byte unit written under one key reads as under another: the keys, the unit's number, the bytes (25 R383; log 11). -/
opaque cipher : Option (BitVec 512) → Option (BitVec 512) → Nat → BitVec 512 → BitVec 512
/-- Firmware digest of an attestation report (27 R399; log 12). -/
opaque attFirmware : Nat → BitVec 512
/-- Tenant digest of an attestation report (27 R399; log 12). -/
opaque attTenant : Nat → BitVec 512
/-- Signature of an attestation report (27 R399; log 12). -/
opaque attSignature : Nat → BitVec 1056
/-- The detail of an event of kinds 2, 3 and 4 beyond what the spec lays out: the kind, and what happened as two numbers (27 R394; log 20). -/
opaque eventDetail : Nat → Nat → Nat → BitVec 56
/-- A byte that a device access outside any context reads from damaged memory, by the step and the address (25 R385; log 17). -/
opaque badByte : Nat → Nat → Byte
/-- A byte of the regions of a save area whose layout the spec does not give, by the step of the save and the address (24 R361; log 13). -/
opaque savedByte : Nat → Nat → Byte

end Config
end Sys2Proof
end

