-- ==== Sys2Proof/Machine/State.lean ====
section
/-!
DEFINITION. The machine's state as plain data, its reasons to stop, and the state after reset.
-/
namespace Sys2Proof.Machine

/-- One value per sequencer (01 R10, 04 R56). -/
structure PerEng (α : Type) where
  ctl : α
  acc : α
  vec : α
  mat : α
  cld : α
  cst : α
  fab : α
deriving DecidableEq, Repr

/-- Every sequencer has the same value. -/
def PerEng.all {α : Type} (a : α) : PerEng α :=
  { ctl := a, acc := a, vec := a, mat := a, cld := a, cst := a, fab := a }

/-- A loop record (04 R69). -/
structure LoopRec where
  lvl : Fin 6
  n : W32
  start : Nat
  exit : Nat
  depth : Nat
  rot : Bool
deriving DecidableEq, Repr

/-- An entry of a control queue (04 R62). -/
inductive CtlEntry where
  | outcome (taken : Bool)
  | target (blk : Nat)
  | trips (n : W32)
deriving DecidableEq, Repr

/-- Why a sequencer waits: external waits freeze the lockstep set, internal ones do not (04 R77); a wait for a tenant's next period; a stream wait says whether the
stream's other end is off the core, which counts as in flight (18 R302). -/
inductive Wait where
  | external
  | internal
  | budget
  | stream (away : Bool)
deriving DecidableEq, Repr

/-- A translated page held by a command: virtual 64 KiB page, physical base, key, or the remote module's rank and offset; of a page that is
only pinned, its first 64 KiB page and its size exponent (09 R185). -/
structure PageTr where
  vpage : Nat
  sh : Nat
  phys : Nat
  key : Option (BitVec 512)
  remote : Option Nat
deriving DecidableEq, Repr

/-- A resolved tensor operand of a command: its handle, its held pages, its tag lines (tag line, scratch line). With `ring` its
elements are taken slice by slice from `slice` on, each at its ring position (16 R270, R273). -/
structure Operand where
  h : W256
  pages : List PageTr
  tags : List (Nat × Nat)
  ring : Bool
  slice : Nat
  /-- Elements used (a binding's CNT, a rule's one slice). -/
  count : Nat
deriving DecidableEq, Repr

/-- What a waiting word has resolved at its decode: the rows of an ARDB with their tag lines, or the operand of a MOUT or DQRY by handle; its
lines stay pinned (07 R134, R140). Or the items that a waypoint elsewhere has told SSTAT (18 R300). Or, in deterministic mode, the cycle for which an
HLD, a WAITGE or an SC fence waits, with the bytes it has sampled (22 R337, 23 R343). -/
inductive Decoded where
  | none
  | rows (keys : List (List Nat)) (pins : List Nat)
  | operand (o : Operand)
  | count (n : Nat)
  | timed (cycle : Nat) (got : Option (List Byte))
deriving DecidableEq, Repr

/-- One sequencer's walk (04 R56 to R74). -/
structure Seq where
  /-- Byte offset of the next word from the text base. -/
  pc : Nat
  /-- Block position where the sequencer stands (R59). -/
  pos : Nat
  /-- It has entered the block at `pos`; before that it stands there but has not entered (R59). -/
  entered : Bool
  /-- It has advanced sequentially into the block of `pc` and the loop closes there are still to be performed (R70). -/
  closing : Bool
  detached : Bool
  /-- Position of the transfer whose skipping detached it (R58). -/
  skip : Nat
  ended : Bool
  rbase : BitVec 4
  rotsz : BitVec 5
  lidx : List W32
  /-- Active loops, innermost first. -/
  loops : List LoopRec
  rstack : List Nat
  ctlq : List CtlEntry
  /-- The block held in the fetch buffer and its four words (03 R38). -/
  fetch : Option (Nat × List W128)
  /-- The cycle, virtual in the lockstep set, at which the next own word is due (R80). -/
  due : Nat
  wait : Option Wait
  tried : Bool
  /-- The current word's tail await has succeeded (03 R46). -/
  awd : Bool
  /-- SYNC arrivals counted: the sequencer stands at a SYNC word and has reached it (04 R75). -/
  atSync : Bool
  /-- The slice that a MOUT has claimed and waits to write (16 R267, R269). -/
  claim : Option Nat
  /-- What the current word has resolved at its decode. -/
  dec : Decoded
deriving DecidableEq, Repr

/-- A write of a handle in CTL's history (04 R61). -/
structure HWrite where
  pos : Nat
  slot : Nat
  h : HReg
  val : W256
deriving DecidableEq, Repr

/-- A write of STATUS.NANT in CTL's history (05 R102). -/
structure NWrite where
  pos : Nat
  slot : Nat
  val : Bool
deriving DecidableEq, Repr

/-- The record of a trap before it is packed into TRAPREC0 to 7 (25 R371). -/
structure TrapInfo where
  eng : Eng
  cause : Byte
  reason : Byte
  awd : Bool
  async : Bool
  rulei : Bool
  pc : Nat
  addr : W64
  ruleid : Nat
  tsdone : Nat
  col : Nat
  row : Nat
  kstep : Nat
  slice : Nat
  aux : W64
  word : W128
deriving DecidableEq, Repr

/-- What an asynchronous trap holds, for ERET and ERET.SKIP (25 R375). -/
inductive Held where
  | word
  | command (e : Eng)
  | phase
  | deferredPost
  | binding
  | rule
  | deadlock
  | droop
deriving DecidableEq, Repr

/-- An asynchronous trap not yet taken (25 R369, R372). -/
structure Pending where
  info : TrapInfo
  held : Held
  /-- It arose from what the handler itself issued (25 R376). -/
  inside : Bool
deriving DecidableEq, Repr

/-- One piece of a result in flight. -/
inductive Eff where
  /-- Bytes at a scratchpad key (core x 2^23 + offset). -/
  | run (key : Nat) (bytes : List Byte)
  | queue (q : QNo) (t : Tile)
  /-- Lanes of a bank, in pieces: the first lane of each and its values. -/
  | bank (b : BankNo) (pieces : List (Nat × List W32))
  | carry (b : BankNo) (c : List (W32 × W32))
deriving DecidableEq, Repr

/-- Who issued a command to an engine: the sequencer's own word, a CPYF's follow-on, or a rule's instance. -/
inductive Owner where
  | own
  | follow
  | rule (id : Fin 32)
deriving DecidableEq, Repr

/-- Where a word stands: its text, its byte offset, its block position and its slot. -/
structure At where
  word : W128
  pc : Nat
  pos : Nat
  slot : Nat
deriving DecidableEq, Repr

/-- A MAT command in the array (13 R228 to R236). -/
structure MatCmd where
  i : Instr
  place : At
  owner : Owner
  /-- k-steps done, or tile steps done of an epilogue word. -/
  k : Nat
  /-- The running bank of the current tile step, and the bank as last committed. -/
  acc : List W32
  comm : List W32
  /-- Bank or banks read at issue, the popped tile, the running carry. -/
  src : List W32
  tile : Option Tile
  carry : List (W32 × W32)
  /-- What the finished tile steps will land. -/
  outs : List Eff
  /-- The scratchpad destination of a MOUT by handle. -/
  opnd : Option Operand
  nant : Bool
  /-- Tile steps commit into the bank as they finish; otherwise at the landing (13 R228, 16 R278). -/
  live : Bool
  /-- Stopped by a fault until ERET or ERET.SKIP (13 R236). -/
  stopped : Bool
deriving DecidableEq, Repr

/-- A result in flight of the lockstep set (04 R78 to R82). -/
structure Flight where
  id : Nat
  eng : Eng
  rem : Nat
  effs : List Eff
  work : Option MatCmd
  /-- Post-on-completion, drawers to release, rule instance served. -/
  post : Option TailClause
  rls : List DrawerNo
  /-- Tag lines pinned by an ARDB until it lands. -/
  pins : List Nat
  place : At
  owner : Owner
deriving DecidableEq, Repr

/-- A post of VEC or MAT waiting for the sequencer's earlier results (04 R85). -/
structure DefPost where
  eng : Eng
  f : FlagNo
  n : Nat
  /-- Results with a lower id must have landed. -/
  before : Nat
  place : At
deriving DecidableEq, Repr

/-- A store of CTL not yet performed in memory (20 R317). -/
structure StoreEnt where
  /-- Physical address, or scratchpad key when `sp`. -/
  addr : Nat
  sp : Bool
  bytes : List Byte
  key : Option (BitVec 512)
  /-- Scopes at which the store releases: its own REL, and release fences before it (20 R319). -/
  rels : List Scope
  pos : Nat
  slot : Nat
  /-- In deterministic mode, the cycles at which it was issued and is performed (22 R337, 23 R343); else 0. -/
  issued : Nat
  due : Nat
deriving DecidableEq, Repr

/-- What an outstanding load is still to read: nothing more, or memory, scratchpad, or the location of an atomic (20 R317, R328; 22 R337). -/
inductive LdSrc where
  | done
  | mem (k : LdKind) (pa : Nat) (key : Option (BitVec 512)) (acq : Option Scope)
  | spad (k : LdKind) (key : Nat) (acq : Option Scope)
  | atomic (op : AtOp) (w : AtW) (g : Sgn) (pa : Nat) (key : Option (BitVec 512)) (v c : W64) (rels : List Scope) (acq : Option Scope)
deriving DecidableEq, Repr

/-- A load not yet arrived (05 R90): its value once it has been read; in deterministic mode it is read `lat` cycles after its issue and arrives
after as many more (22 R337, 23 R343). -/
structure LoadEnt where
  d : SReg
  src : LdSrc
  val : W64
  issued : Nat
  lat : Nat
deriving DecidableEq, Repr

/-- A command of CLD or CST (09 R171, R192); a POST word is queued as a command that moves nothing (R173). -/
structure CopyCmd where
  i : Instr
  place : At
  owner : Owner
  src : Option Operand
  dst : Option Operand
  /-- The completion counter's page and address (R188). -/
  cnt : Option (PageTr × Nat)
  drawers : List DrawerNo
  started : Bool
  step : Nat
  /-- Bytes read and not yet written, by first element: the step of CRED that is held for its turn, or what another module has answered for
  the step's reads. -/
  buf : List (Nat × List Byte)
  /-- A step read and on its way to other modules: first element, bytes, ranks that have it. -/
  sending : Option (Nat × List Byte × List Nat)
  /-- Destination bytes delivered, and slices of an open destination completed. -/
  delivered : Nat
  sdone : Nat
  /-- The whole contribution of CRED has been applied in its turn. -/
  applied : Bool
  /-- Not 0 where a handler entered it and left it: it stands before every command of a lower number (25 R374). -/
  early : Nat
  /-- In deterministic mode, the cycle at which its first tile step may begin, at which the tile step under way is complete, or after the last that of
  its counter or its retirement (23 R343). -/
  due : Nat
  busy : Bool
  /-- Writes of a lower number are visible to it through its tail (20 R324). -/
  sees : Nat
  /-- The follow-on of a CPYF: its word, handles are read at its own position. -/
  follow : Option (Instr × At)
  followDone : Bool
  /-- Order of entry in the command queues, for the channel rule (09 R187). -/
  order : Nat
  stopped : Bool
  post : Option TailClause
deriving DecidableEq, Repr

/-- A strip's program and connections (15 R251). -/
structure StripCfg where
  srcx : Nat
  srcy : Nat
  k : W32
  prog : List W32
deriving DecidableEq, Repr

/-- An installed fabric configuration (15 R251, R256). -/
structure FabCfg where
  outs : List Nat
  strips : List StripCfg
  table : List W32
deriving DecidableEq, Repr

/-- A lane of a strip: a value and its valid bit (15 R242). -/
structure Lane where
  v : W32
  ok : Bool
deriving DecidableEq, Repr

/-- A token: 192 lanes and LAST (15 R243). -/
structure Token where
  lanes : List Lane
  last : Bool
deriving DecidableEq, Repr

/-- The running state of a strip in a phase. -/
structure Strip where
  a : List Lane
  buckets : List W32
  /-- Skid buffer of its output, with the consumers that have taken the head (15 R244). -/
  out : List Token
  taken : List Nat
  lastX : Bool
  lastY : Bool
deriving DecidableEq, Repr

/-- A binding of a port (15 R255). -/
structure Bind where
  port : Nat
  compact : Bool
  opnd : Operand
  /-- Writes of a lower number are visible to its feeder through its tail (20 R324). -/
  sees : Nat
deriving DecidableEq, Repr

/-- What an output port has done in a phase: tokens taken, elements written, overrun, done; and while it writes in other modules, the
ranks that have the token in hand (15 R258). -/
structure OutPort where
  tokens : Nat
  written : Nat
  overrun : Bool
  done : Bool
  sent : List Nat
  /-- In deterministic mode, the cycle at which the tile step under way is complete (23 R343). -/
  due : Option Nat
deriving DecidableEq, Repr

/-- An input port in a phase: tokens issued, LAST issued, the skid buffer, the consumers that have its head, and what other modules
have answered for the next token (15 R243, R244). -/
structure InPort where
  fed : Nat
  last : Bool
  skid : List Token
  taken : List Nat
  far : List (Nat × List Byte)
  /-- In deterministic mode, the cycle at which the tile step under way is complete (23 R343). -/
  due : Option Nat
deriving DecidableEq, Repr

/-- A fabric phase (15 R257 to R264). -/
structure Phase where
  binds : List Bind
  strips : List Strip
  ins : List InPort
  outs : List OutPort
  /-- Its number among checked accesses (07 R144). -/
  order : Nat
  /-- Writes of a lower number are visible to it through FGO's tail (20 R324). -/
  sees : Nat
  place : At
  owner : Owner
  stopped : Bool
deriving DecidableEq, Repr

/-- A word in the fabric unit's queue (15 R254): the operand of FCFG or of a record, the bindings of FGO, whether FSTOP ends a phase. -/
structure FabCmd where
  i : Instr
  place : At
  opnd : Option Operand
  binds : List Bind
  live : Bool
  /-- Writes of a lower number are visible through its tail (20 R324). -/
  sees : Nat
  /-- FSTOP has stopped the phase and has its record to write (R260). -/
  ending : Bool
  stopped : Bool
  post : Option TailClause
deriving DecidableEq, Repr

/-- The fabric of a core (15 R242 to R264). -/
structure Fabric where
  cfg : Option FabCfg
  /-- The phase number of the open FGO at decode, if a phase is open (R254). -/
  openPh : Option (BitVec 8)
  pendBinds : List Bind
  /-- Bindings pending where FAB has passed the word that an INST installs, for that INST: its position (16 R273). -/
  instBinds : List (Nat × Nat × List Bind)
  queue : List FabCmd
  phase : Option Phase
  /-- Phases set aside by traps, while one that a handler started still runs (25 R374). -/
  parked : List Phase
  /-- The ports of a phase abandoned by ERET.SKIP, for the record of its FBAR or FSTOP (R264). -/
  endRec : Option (List OutPort)
  /-- What other modules have answered to the word in hand, by element. -/
  far : List (Nat × List Byte)
  /-- Whose access of another module is under way: an input port, an output port from 8 on, or 12 for the unit's word. -/
  asker : Nat
deriving DecidableEq, Repr

/-- State of an almanac entry (16 R281); a freed entry is no entry. -/
inductive RState where
  | active | faulted
deriving DecidableEq, Repr

/-- An instance in flight (16 R276 to R279). -/
structure Inst where
  slice : Nat
  /-- A VEC instance: its trigger slice and output slice, whether the slice has been staged and the word run, and the lanes of VD. -/
  trig : Option Operand
  out : Option Operand
  staged : Bool
  result : Option Tile
  /-- It has asked another module; what other modules have answered of the trigger slice, by element; ranks that have the output. -/
  asking : Bool
  far : List (Nat × List Byte)
  sent : List Nat
  /-- The engine has finished its work. -/
  finished : Bool
deriving DecidableEq, Repr

/-- An installed rule (16 R273, R274). -/
structure Rule where
  st : RState
  seqNo : Nat
  next : Nat
  n0 : Nat
  last : Option Nat
  i : Instr
  word : W128
  follow : Option (Instr × At)
  place : At
  /-- Every handle as CTL held it at INST. -/
  hs : List W256
  trig : W256
  outH : Option W256
  binds : List Bind
  nant : Bool
  quiet : Bool
  post : Option FlagNo
  carry : Option Nat
  cause : Byte
  tsdone : Nat
  inst : Option Inst
  /-- Trigger slices of this rule are presented by this record, when it has one. -/
  trigRec : Option (Fin 32)
  outRec : Option (Fin 32)
  /-- Slices whose instance has been issued at least once, and has retired: all below these. -/
  reached : Nat
  retired : Nat
deriving DecidableEq, Repr

/-- A bound receive end (18 R305): its stream, the tensor resolved, k, the slice claimed and not yet written, a refused claim; its access
of another module under way, and ranks that have the slice. -/
structure SBinding where
  sid : W32
  hrank : Nat
  opnd : Operand
  k : Nat
  slice : Option Nat
  stopped : Bool
  asking : Bool
  sent : List Nat
  place : At
deriving DecidableEq, Repr

/-- State of an open-tensor record (16 R266). -/
inductive OSt where
  | free | opened | closed
deriving DecidableEq, Repr

/-- Producer kinds (16 R266). -/
inductive Prod where
  | none | program | rule
deriving DecidableEq, Repr

/-- An open-tensor record (16 R266 to R270). -/
structure OpenRec where
  st : OSt
  cap : Nat
  w : Nat
  p : Nat
  rc : Nat
  prod : Prod
  /-- Slices completed and not yet present. -/
  complete : List Nat
  /-- Program readers that have claimed slices: first slice and count. -/
  readers : List (Nat × Nat)
deriving DecidableEq, Repr

/-- A copy command as WAITWP knows it: its position, its delivered bytes once it has started, whether it has retired (07 R141). -/
structure ChanCopy where
  pos : Nat
  slot : Nat
  delivered : Option Nat
  retired : Bool
deriving DecidableEq, Repr

/-- An open interval of the overlap checker (07 R144): who (a copy by its order, a result by its number), and the granules read and
written, each of these with the pattern offset at which the last of its bytes has been written; for a copy also its channel and
position. -/
structure Footprint where
  eng : Eng
  order : Nat
  copy : Option (ChanNo × Nat × Nat)
  reads : List Nat
  writes : List (Nat × Nat)
deriving DecidableEq, Repr

/-- Paths (20 R314), in the order of FENCEX's masks (R325). -/
inductive Path where
  | sc | cp | mx | fb | st
deriving DecidableEq, Repr

/-- A run of bytes whose value was written by a release, or by an atomic of a chain that begins at one (20 R319): where it lies, its length,
and the releasing parties with their scopes. -/
structure Mark where
  addr : Nat
  len : Nat
  rels : List (Party × Scope)
deriving DecidableEq, Repr

/-- A write that readers of a core may not see yet (20 R323): its number, the core, the path where that core made it itself, the bytes before
it with their key and the releases they carry, its atomic unit, and the readers to which nothing has made it visible: paths SC, CP, MX,
FB, ST, then the tile accesses of VEC and ACC. -/
structure Stale where
  id : Nat
  core : Nat
  path : Option Path
  sp : Bool
  addr : Nat
  old : List Byte
  key : Option (BitVec 512)
  marks : List Mark
  unit : Nat
  hide : BitVec 7
deriving DecidableEq, Repr

/-- A FENCEX word (20 R325): its position and sets. -/
structure XFence where
  pos : Nat
  slot : Nat
  x : BitVec 5
  y : BitVec 5
deriving DecidableEq, Repr

/-- CTL's view of a sequencer's loops and return-stack depth (04 R68, R69). -/
structure View where
  loops : List LoopRec
  depth : Nat
deriving DecidableEq, Repr

/-- The answer to an engine's access of another module (25 R380): none asked, asked, asked by what no longer wants the answer, the bytes with
the releases they were read from, or refused. -/
inductive Reply where
  | none | asked | unwanted | data (bytes : List Byte) (chain : List (Party × Scope)) | refused
deriving DecidableEq, Repr

/-- The walk and the commands set aside while the handler runs (25 R373). -/
structure Aside where
  seqs : PerEng Seq
  view : PerEng View
  trail : List (Nat × Nat)
  exits : List (Nat × Nat)
  hist : List HWrite
  hbase : List W256
  nhist : List NWrite
  nbase : Bool
  flights : List Flight
  defPosts : List DefPost
  cld : List CopyCmd
  cst : List CopyCmd
  fabQueue : List FabCmd
  fabPhase : Option Phase
  fabParked : List Phase
  fabOpen : Option (BitVec 8)
  fabBinds : List Bind
  fabInst : List (Nat × Nat × List Bind)
  insts : List (Option Inst)
  held : Held
  eng : Eng
  mulWord : Bool
  fences : List XFence
  chans : List (List ChanCopy)
  wpDone : List (ChanNo × Nat × Nat × Nat)
  arrived : Option Nat
  /-- Accesses of other modules under way, ACC's port apart: it serves streams, which the handler does not stop. -/
  replies : PerEng Reply
  fabFar : List (Nat × List Byte)
  asker : Nat
  /-- VCYC and CYCLE at the entry: what is left of issue intervals is kept (04 R82). -/
  vcyc : W64
  cycle : W64
deriving DecidableEq, Repr

/-- The resident task (24 R352): its context, its global index, its launch's constants as the core needs them. -/
structure Task where
  ctx : W16
  g : Nat
  tenant : BitVec 5
  text : Nat
  tlen : Nat
  rank : Nat
  nranks : Nat
  lvlidx : List Nat
  lvlcnt : List Nat
  chrt : Bool
  sstep : Bool
  nlvl : Nat
  gang : Nat
  /-- The launch is a single gang (02 R30). -/
  single : Bool
  scopes : List Scope
deriving DecidableEq, Repr

/-- How a core is stopped: not at all, or by a stop of its context (24 R357). -/
inductive Halt where
  | run
  | stopping
  | stopped
deriving DecidableEq, Repr

/-- An entry of the tag table (07 R133). -/
structure TagEnt where
  valid : Bool
  key : BitVec 14
deriving DecidableEq, Repr

/-- One core. -/
structure Core where
  task : Option Task
  seqs : PerEng Seq
  /-- CTL's view of every sequencer. -/
  view : PerEng View
  /-- Blocks of the path that some attached sequencer has entered: position and block (04 R57, R58). -/
  trail : List (Nat × Nat)
  /-- Positions that the path has left by a taken transfer, and the slot after it (04 R57); blocks of a text in another module's window, as they
  have been fetched (03 R38). -/
  exits : List (Nat × Nat)
  farText : List (Nat × List W128)
  s : List W64
  a : List W64
  h : List W256
  hist : List HWrite
  hbase : List W256
  f : List W16
  /-- STATUS: LASTC, SCOPEMISS, NANT, DET, FIXT, MODEX (05 R102). -/
  lastc : Byte
  scopemiss : Bool
  nant : Bool
  det : Bool
  fixt : Bool
  modex : Bool
  nhist : List NWrite
  nbase : Bool
  slipwin : BitVec 9
  vcyc : W64
  cycle : W64
  ebudget : W32
  erefill : W32
  legacycnt : W64
  trapEn : Bool
  trapBlk : BitVec 24
  traprec : List W64
  savemap : W64
  wptr : List W32
  loads : List LoadEnt
  stores : List StoreEnt
  replies : PerEng Reply
  /-- Answers to text fetches of another module. -/
  freplies : PerEng Reply
  fences : List XFence
  /-- Scopes of the release fences executed, and releases that plain loads have read, for acquire fences (20 R319, R322). -/
  fenceRel : List Scope
  seen : List (Party × Scope)
  /-- Own writes of a lower number have been awaited by CTL (02 R30, 20 R324). -/
  acqNo : Nat
  /-- The cycle in which an access of the SC path was last performed (22 R337). -/
  scDone : Nat
  /-- The tenant whose bytes its scratchpad holds: that of the task placed last (01 R17). -/
  spOwner : Option (BitVec 5)
  /-- Tag table, one entry per line (07 R133). -/
  tags : List TagEnt
  queues : List (List Tile)
  flights : List Flight
  nextId : Nat
  defPosts : List DefPost
  pend : List Pending
  /-- Flags from which an await has succeeded in this cycle (04 R87); in deterministic mode, what has been posted in it (23 R343). -/
  took : List FlagNo
  posted : List (FlagNo × Nat)
  banks : List (List W32)
  carries : List (List (W32 × W32))
  /-- 32 drawers of 128 half-rows of 64 bytes (13 R220, R221). -/
  drawers : List (List (BitVec 512))
  claimed : BitVec 32
  cld : List CopyCmd
  cst : List CopyCmd
  /-- Commands ever queued on CLD and CST (09 R187). -/
  order : Nat
  /-- The copy commands of each channel, in order (07 R141). -/
  chans : List (List ChanCopy)
  /-- WAITWPs completed by ACC: channel, position of the copy, threshold (07 R144). -/
  wpDone : List (ChanNo × Nat × Nat × Nat)
  fabric : Fabric
  rules : List (Option Rule)
  recs : List OpenRec
  ruleSeq : Nat
  bindings : List SBinding
  aside : Option Aside
  /-- BAR occurrences passed by level 0 to 7, then BAR.PART, and the level arrived at and not yet departed (02 R30). -/
  bars : List Nat
  arrived : Option Nat
  /-- The cycle of its last arrival at each (23 R343). -/
  arrAt : List Nat
  halt : Halt
  /-- Checked accesses whose interval is open (07 R144). -/
  feet : List Footprint
  /-- Bad granules: structure code and address (25 R385). -/
  bad : List (BitVec 4 × Nat)
  /-- Escalation asked for by this core: cause and HND (25 R377). -/
  escal : Option (Byte × Bool)
  /-- MODE drain under way (04 R76). -/
  draining : Bool
  /-- Counted cycles of the energy period (23 R346). -/
  eperiod : Nat
  /-- Superstep phase: exchange or compute, cycles declared, cycle at which it opened (02 R31). -/
  exch : Bool
  declared : Nat
  opened : Nat
deriving DecidableEq, Repr

/-- Cells of a memory, addresses strictly rising and no zero byte (what an unlisted address reads as, log 3). -/
abbrev Cells := List Host.Cell

/-- State of a context (24 R352, R360). -/
inductive CtxSt where
  | resident | stopping | stopped | saved | ended
deriving DecidableEq, Repr

/-- Why a context stops (24 R357, R367; 25 R377). -/
inductive StopWhy where
  | preempt
  | kill
  | escalate (cause : Byte) (hnd : Bool)
deriving DecidableEq, Repr

/-- A launch record as read, with its image table and chart (02 R18 to R32). -/
structure Launch where
  raw : List Byte
  images : List (Option (List Byte))
  chart : List (Option (List Byte))
  /-- The reason it is to be rejected with (R29), or that it could not be read (24 R352). -/
  reject : Option Nat
deriving DecidableEq, Repr

/-- A task of a saved context (24 R361): what the save area does not lay out byte by byte (log 13). -/
structure Saved where
  g : Nat
  core : Nat
  snap : Core
deriving DecidableEq, Repr

/-- A context (24 R352). -/
structure Ctx where
  id : W16
  tenant : BitVec 5
  queue : BitVec 9
  slot : Option (BitVec 6)
  launch : Launch
  st : CtxSt
  stop : Option StopWhy
  gangs : Nat
  ended : Nat
  endedG : List Nat
  /-- The cycle at which each of those ended (23 R343). -/
  endAt : List (Nat × Nat)
  erefill : Nat
  epool : W32
  eperiod : Nat
  saves : Nat
  saved : List Saved
  /-- The rank this module has in the chart, and the chart's length. -/
  rank : Nat
  nranks : Nat
  /-- Admission order, for victims (24 R355). -/
  born : Nat
  /-- Gangs whose tasks wait for the other modules' shares (02 R23, R32); what those modules have told: ranks and gangs admitted, barriers
  passed by their tasks, tasks ended. -/
  held : List Nat
  farReady : List (Nat × Nat)
  farBars : List (Nat × List Nat)
  farEnded : List Nat
  /-- Counted cycles reached, for a task of a later gang (23 R342). -/
  cycles : W64
deriving DecidableEq, Repr

/-- What this module's controllers keep of a group of reducing copies for a launch (09 R182): the launch by its tenant and its record where it
has a chart, else its context; E(g); the tile steps applied of the contribution due; the numbers of those abandoned before their turn
(R193). -/
structure Red where
  tenant : BitVec 5
  raw : List Byte
  ctx : W16
  grp : Nat
  e : W16
  done : Nat
  skips : List W16
deriving DecidableEq, Repr

/-- What the dispatcher knows of a launch queue (24 R351 to R354). -/
structure LQueue where
  en : Bool
  base : Nat
  log2n : Nat
  cls : Nat
  weight : Nat
  tenant : BitVec 5
  head : W32
  tail : W32
  /-- Records read and not yet wholly admitted, in ring order: the record and the gangs admitted, context once created. -/
  cache : List (Launch × Option W16)
  /-- Records of this queue read so far, mod 2^32. -/
  taken : W32
  /-- Its slice has ended; it has waited 10 ms; order in which slices ended. -/
  sliceEnd : Bool
  guarded : Bool
  ended : Nat
  /-- The context of the record before the next to be admitted (02 R19). -/
  prev : Option W16
  /-- A record it held was lost to an error: it reads as empty until it is enabled again (25 R385). -/
  broken : Bool
deriving DecidableEq, Repr

/-- A tenant's block and page (27 R390, R391). -/
structure Tenant where
  troot : BitVec 37
  /-- The level-0 table that translations use: a change of TROOT reaches it through an invalidation (27 R391). -/
  root : BitVec 37
  en : Bool
  ebud : W32
  mbud : W64
  lbud : W64
  dshare : BitVec 11
  /-- What remains this period; none is unlimited (23 R349). -/
  eleft : Option Nat
  mleft : Option Nat
  lleft : Option Nat
  mbx : List W64
  ipend : W16
  attaddr : W64
deriving DecidableEq, Repr

/-- Where an end is (18 R287, R309): not yet placed, made by a task; held by a task; on another module; in transit; destroyed or
closed. -/
inductive EndLoc where
  | unplaced (ctx : W16) (core : Nat)
  | here (ctx : W16) (core : Nat)
  | away (rank : Nat)
  | transit
  | gone
deriving DecidableEq, Repr

/-- A stream item (18 R288): data bytes, or the end it carries, and its release; in deterministic mode, the cycle at which it is delivered on
this module (23 R343). -/
structure Item where
  bytes : List Byte
  carried : Option Carried
  rel : Option (Party × Scope)
  due : Nat
deriving DecidableEq, Repr

/-- A waypoint of a receive end: the items it holds, its core, the sequence number it forwards next (18 R304). -/
structure Waypoint where
  items : List (W32 × Item)
  core : Nat
  next : W32
deriving DecidableEq, Repr

/-- What this module holds of a stream (18 R287 to R306, 19 R309 to R311): the home entry of a stream whose home is here, and of any stream the
ends, items and waypoints that are here, with what those know of the rest. -/
structure Home where
  sid : W32
  /-- Its home is a core of this module: then state, GEN, AUTH, places and moves are the home entry's (R287). -/
  mine : Bool
  /-- This module's rank in the stream's launch, and that launch's record where it has a chart. -/
  own : Nat
  launch : List Byte
  tenant : BitVec 5
  /-- The context of this module that has had to do with it. -/
  ctx : W16
  depth : Nat
  /-- 0 OPEN, 1 CLOSED, 2 ORPHAN (R300). -/
  st : BitVec 2
  hcore : Nat
  hrank : Nat
  genS : W16
  genR : W16
  authS : W32
  authR : W32
  locS : EndLoc
  locR : EndLoc
  /-- The send end's free slots and next sequence number. -/
  free : Nat
  next : W32
  /-- Items on their way on this module. -/
  flight : List (W32 × Item)
  /-- The receive end's buffer in sequence order, the number of its first item, and the reorder window (R304). -/
  buf : List Item
  head : W32
  early : List (W32 × Item)
  /-- Freed slots and census messages on their way to a send end that is not here (R303, R306). -/
  returns : List StreamMsg
  /-- Waypoints on this module, of the receive end and of the send end (its core); ranks of those on others. -/
  wayR : Option Waypoint
  wayS : Option Nat
  farR : Option Nat
  farS : Option Nat
  /-- s*, while a waypoint forwards (R304). -/
  sstar : Option W32
  /-- The send end here has been told that the receive end is registered at a rank, and has not replied (R304); at the home: no reply yet. -/
  notice : Option Nat
  pending : Bool
  /-- The receive end here has been told that the send end is registered at a rank (R303). -/
  told : Option Nat
  /-- No freed slot sent to an earlier place of the send end is still on its way. -/
  calm : Bool
  /-- Ends whose SSENDH on a core waits for its grant; the grant given; the move in progress (true is the receive end). -/
  asks : List (Bool × Nat)
  grant : Option Bool
  moving : Option Bool
  bound : Bool
  repair : Nat
  /-- The final next sequence number, recorded at the close or loss of the send end (R311). -/
  final : Option W32
  /-- The items that had reached the receive end or were discarded, once it is destroyed (R289). -/
  got : Option W32
  /-- The receiver's last census report, slots returned since it, and the stream paused for its repair (R306). -/
  report : Option (Nat × W32)
  back : Nat
  paused : Bool
  /-- In deterministic mode, slots freed on this module: how many, and the cycle at which they are returned (23 R343). -/
  freed : List (Nat × Nat)
  /-- Cores of the context that have had no clock edge since the send end was placed (19 R309). -/
  fresh : List Nat
deriving DecidableEq, Repr

/-- The module beside its cores (24, 25, 27). -/
structure Device where
  tenants : List Tenant
  queues : List LQueue
  grant : List (BitVec 9)
  /-- The queue that has been granted and has not yet been placed (24 R356). -/
  granted : Option (BitVec 9)
  ctxs : List Ctx
  nextCtx : W16
  /-- Groups of reducing copies that have counted (09 R182); a group not listed expects 0. -/
  reds : List Red
  born : Nat
  homes : List Home
  keys : List (BitVec 10 × BitVec 512)
  modid : W64
  qtab : W64
  stab : W64
  ctxcmd : W64
  inval0 : W64
  inval1 : W64
  keycmd : W64
  keydata : BitVec 512
  bootst : W64
  attaddr : W64
  route : List (BitVec 24)
  events : List W64
  dropped : Nat
  thermal : List Bool
  inbox : List LinkMsg
  outbox : List LinkMsg
  /-- Interrupt messages sent to the host: tenant and vector (27 R392). -/
  irqs : List (BitVec 5 × BitVec 4)
  /-- The value the host's last read returned. -/
  hostRead : List Byte
  /-- Key under which each 64-byte unit was last written, where it was not plain (25 R383; log 11). -/
  unitKey : List (Nat × BitVec 512)
  /-- Release writes still readable (20 R319, R322). -/
  marks : List Mark
  /-- Writes not yet visible to every reader, and the number of the next write (20 R323). -/
  stale : List Stale
  writeNo : Nat
  /-- Every SC fence taken: its party, its scope, and the number of the write that comes next (20 R321). -/
  scFences : List (Party × Scope × Nat)
deriving DecidableEq, Repr

/-- The whole machine. `core` is the core in front, of number `cnum`; `others` lists the cores that differ from a core at reset. -/
structure State where
  core : Core
  cnum : Nat
  others : List (Nat × Core)
  /-- The sequencer the running word belongs to, and that word (the model's own fields). -/
  who : Eng
  cur : At
  mem : Cells
  spad : Cells
  dev : Device
  agenda : List Turn
  tick : Nat
deriving DecidableEq, Repr

/-- Reasons for which the model itself stops. -/
inductive Fault where
  /-- Raised by `step` when a turn names a core the module does not have (01 R9); safe: no hardware step is lost. -/
  | noSuchCore
deriving DecidableEq, Repr

/-- Reasons for which the model refuses. -/
inductive Refusal where
  /-- Raised by an arm of `exec` that has no meaning yet; safe: nothing is claimed of that instruction. -/
  | notModelled (mnemonic : String)
deriving DecidableEq, Repr

/-! ### Reset -/

/-- A sequencer with no task (log 14); RBASE 0 and ROTSZ 16 by 04 R73. -/
def Seq.reset : Seq :=
  { pc := 0, pos := 0, entered := false, closing := false, detached := false, skip := 0, ended := false, rbase := 0, rotsz := 16,
    lidx := List.replicate 6 0, loops := [], rstack := [], ctlq := [], fetch := none, due := 0, wait := none, tried := false,
    awd := false, atSync := false, claim := none, dec := .none }

/-- No loop active, empty return stack. -/
def View.reset : View := { loops := [], depth := 0 }

/-- A FREE record (16 R266). -/
def OpenRec.reset : OpenRec :=
  { st := .free, cap := 0, w := 0, p := 0, rc := 0, prod := .none, complete := [], readers := [] }

/-- No configuration installed (15 R256). -/
def Fabric.reset : Fabric :=
  { cfg := none, openPh := none, pendBinds := [], instBinds := [], queue := [], phase := none, parked := [], endRec := none, far := [], asker := 0 }

/-- An invalid entry (07 R133; its key in log 14). -/
def TagEnt.reset : TagEnt := { valid := false, key := 0 }

/-- A core at reset (24 R366; values the spec does not give are in log 14). -/
def Core.reset : Core :=
  { task := none, seqs := PerEng.all Seq.reset, view := PerEng.all View.reset, trail := [], exits := [], farText := [], s := List.replicate 32 0,
    a := List.replicate 16 0, h := List.replicate 16 0, hist := [], hbase := List.replicate 16 0, f := List.replicate 64 0,
    lastc := 0, scopemiss := false, nant := false, det := false, fixt := false, modex := false, nhist := [], nbase := false,
    slipwin := 64, vcyc := 0, cycle := 0, ebudget := 0, erefill := 0, legacycnt := 0, trapEn := false, trapBlk := 0,
    traprec := List.replicate 8 0, savemap := BitVec.allOnes 64, wptr := List.replicate 4 0, loads := [], stores := [],
    replies := PerEng.all .none, freplies := PerEng.all .none, fences := [], fenceRel := [], seen := [], acqNo := 0, scDone := 0, spOwner := none, tags := List.replicate 1024 TagEnt.reset,
    queues := List.replicate 8 [], flights := [], nextId := 0, defPosts := [],
    pend := [], took := [], posted := [], banks := List.replicate 4 (List.replicate 4096 0), carries := List.replicate 4 (List.replicate 32 (0, 0)),
    drawers := List.replicate 32 (List.replicate 128 0), claimed := 0, cld := [], cst := [], order := 0,
    chans := List.replicate 4 [], wpDone := [], fabric := Fabric.reset, rules := List.replicate 32 none,
    recs := List.replicate 32 OpenRec.reset, ruleSeq := 0, bindings := [], aside := none, bars := List.replicate 9 0, arrived := none, arrAt := List.replicate 9 0,
    halt := .run, feet := [], bad := [], escal := none, draining := false, eperiod := 0, exch := false, declared := 0, opened := 0 }

/-- A tenant at reset (27 R391; mailboxes, IPEND and ATTADDR in log 14). -/
def Tenant.reset : Tenant :=
  { troot := 0, root := 0, en := false, ebud := 0, mbud := 0, lbud := 0, dshare := 64, eleft := none, mleft := none, lleft := none,
    mbx := List.replicate 16 0, ipend := 0, attaddr := 0 }

/-- A disabled launch queue (24 R351; log 14). -/
def LQueue.reset : LQueue :=
  { en := false, base := 0, log2n := 4, cls := 0, weight := 1, tenant := 0, head := 0, tail := 0, cache := [], taken := 0,
    sliceEnd := false, guarded := false, ended := 0, prev := none, broken := false }

/-- The module beside its cores at reset (01 R16; grant pointers 511 by 24 R356; log 14). -/
def Device.reset : Device :=
  { tenants := List.replicate 32 Tenant.reset, queues := List.replicate 512 LQueue.reset, grant := List.replicate 4 511, granted := none,
    ctxs := [], nextCtx := 0, reds := [], born := 0, homes := [], keys := [], modid := 0, qtab := 0, stab := 0, ctxcmd := 0,
    inval0 := 0, inval1 := 0, keycmd := 0, keydata := 0, bootst := 0, attaddr := 0, route := List.replicate 256 0, events := [],
    dropped := 0, thermal := [false, false, false], inbox := [], outbox := [], irqs := [], hostRead := [], unitKey := [],
    marks := [], stale := [], writeNo := 0, scFences := [] }

/-- A place before any word. -/
def At.none : At := { word := 0, pc := 0, pos := 0, slot := 0 }

/-- The machine right after module reset (01 R16, 24 R366): nothing resident, memory with nothing listed. -/
def State.reset : State :=
  { core := Core.reset, cnum := 0, others := [], who := .ctl, cur := At.none, mem := [], spad := [], dev := Device.reset,
    agenda := [], tick := 0 }

end Sys2Proof.Machine
end

