-- ==== Sys2Proof/Machine/Memory.lean ====
section
/-!
DEFINITION. Byte memories in canonical form: reading, writing runs of bytes, little-endian values (00 R2, 20 R315).
-/
namespace Sys2Proof.Machine

/-- What an unlisted address reads as: 0 for scratchpad by 02 R25, 0 for device memory by log 3. -/
def unlistedByte : Byte := 0

/-- The canonical form: addresses strictly rising, and no byte equal to what an unlisted address reads as. -/
def Memory.wf (m : Cells) : Bool :=
  decide (m.Pairwise fun x y => x.1 < y.1) && m.all fun c => c.2 != unlistedByte

/-- The byte at an address. -/
def readByte (m : Cells) (a : Nat) : Byte :=
  match m.find? fun c => c.1 == a with
  | some c => c.2
  | none => unlistedByte

/-- The bytes at a, a + 1, … -/
def readRun (m : Cells) (a n : Nat) : List Byte := (List.range n).map fun k => readByte m (a + k)

/-- The cells of a run of bytes, zero bytes left out. -/
def cellsOf : Nat → List Byte → Cells
  | _, [] => []
  | a, b :: bs => if b = unlistedByte then cellsOf (a + 1) bs else (a, b) :: cellsOf (a + 1) bs

/-- Memory with a run of bytes written at `a`; the canonical form is kept. -/
def writeRun (m : Cells) (a : Nat) (bs : List Byte) : Cells :=
  let e := a + bs.length
  (m.filter fun c => decide (c.1 < a)) ++ (cellsOf a bs ++ m.filter fun c => decide (e ≤ c.1))

/-- Memory with every byte from `a` up to but not including `b` cleared. -/
def clearRange (m : Cells) (a b : Nat) : Cells := m.filter fun c => decide (c.1 < a) || decide (b ≤ c.1)

/-- The value of a byte string, byte 0 least significant (R2). -/
def leNat : List Byte → Nat
  | [] => 0
  | b :: bs => b.toNat + 256 * leNat bs

/-- The n bytes of a value, byte 0 least significant (R2). -/
def leBytes : Nat → Nat → List Byte
  | 0, _ => []
  | n + 1, v => BitVec.ofNat 8 v :: leBytes n (v / 256)

/-- The lanes of a run of bytes, four bytes each (R129). -/
def lanesOf : List Byte → List W32
  | a :: b :: c :: d :: r => BitVec.ofNat 32 (leNat [a, b, c, d]) :: lanesOf r
  | _ => []

/-- The bytes of lanes (R129). -/
def bytesOf (ls : List W32) : List Byte := ls.flatMap fun l => leBytes 4 l.toNat

/-- A 64-byte unit as a block (R115). -/
def blockOf (bs : List Byte) : BitVec 512 := BitVec.ofNat 512 (leNat bs)

/-- The bytes of a block. -/
def blockBytes (b : BitVec 512) : List Byte := leBytes 64 b.toNat

end Sys2Proof.Machine
end

