-- ==== Sys2Proof/Machine/Ops.lean ====
section
/-!
DEFINITION. The named operations over cores, sequencers, registers, handles and memory, and taking a trap and returning from one.
-/
namespace Sys2Proof.Machine

/-- The outcome of a step or a meaning. -/
abbrev Out := Host.Outcome State Fault Refusal

/-! ### Per-sequencer values and the cores -/

/-- The value of one sequencer. -/
def PerEng.get {α : Type} (p : PerEng α) (e : Eng) : α :=
  match e with
  | .ctl => p.ctl | .acc => p.acc | .vec => p.vec | .mat => p.mat | .cld => p.cld | .cst => p.cst | .fab => p.fab
/-- The value of one sequencer replaced. -/
def PerEng.set {α : Type} (p : PerEng α) (e : Eng) (v : α) : PerEng α :=
  match e with
  | .ctl => { p with ctl := v } | .acc => { p with acc := v } | .vec => { p with vec := v } | .mat => { p with mat := v }
  | .cld => { p with cld := v } | .cst => { p with cst := v } | .fab => { p with fab := v }
/-- Every value mapped, each with its sequencer. -/
def PerEng.mapE {α β : Type} (p : PerEng α) (f : Eng → α → β) : PerEng β :=
  { ctl := f .ctl p.ctl, acc := f .acc p.acc, vec := f .vec p.vec, mat := f .mat p.mat, cld := f .cld p.cld,
    cst := f .cst p.cst, fab := f .fab p.fab }
/-- The seven sequencers in ENG order (R35). -/
def engs : List Eng := [.ctl, .acc, .vec, .mat, .cld, .cst, .fab]
/-- The ENG tag as a number. -/
def engNo (e : Eng) : Nat := e.code.toNat
/-- A sequencer of the lockstep set (04 R77). -/
def lockstep (e : Eng) : Bool := e == .acc || e == .vec || e == .mat
/-- The sequencer is in a mask: bit 6 is CTL, bit 0 is FAB (03 R45). -/
def inMask (m : EMask) (e : Eng) : Bool := m.getLsbD (6 - engNo e)

/-- The core of a number: the one in front, one of the listed others, or a core at reset. -/
def State.coreAt (s : State) (n : Nat) : Core :=
  if n = s.cnum then s.core
  else match s.others.find? fun c => c.1 == n with
    | some c => c.2
    | none => Core.reset
/-- The core of a number replaced; a core back at reset is not listed. -/
def State.setCoreAt (s : State) (n : Nat) (c : Core) : State :=
  if n = s.cnum then { s with core := c }
  else
    let r := s.others.filter fun x => x.1 != n
    { s with others := if c = Core.reset then r
                       else (r.filter fun x => decide (x.1 < n)) ++ (n, c) :: (r.filter fun x => decide (n < x.1)) }
/-- The state with core `n` in front. -/
def State.focus (s : State) (n : Nat) : State :=
  if n = s.cnum then s
  else
    let c := s.coreAt n
    let s1 := s.setCoreAt n Core.reset
    let back := if s.core = Core.reset then s1.others
      else (s1.others.filter fun x => decide (x.1 < s.cnum)) ++ (s.cnum, s.core) ::
           (s1.others.filter fun x => decide (s.cnum < x.1))
    { s1 with core := c, cnum := n, others := back }
/-- The core in front changed. -/
def State.mapCore (s : State) (f : Core → Core) : State := { s with core := f s.core }
/-- Every core that holds a task, by number. -/
def State.tasked (s : State) : List (Nat × Core) :=
  ((s.cnum, s.core) :: s.others).filter fun c => c.2.task.isSome
/-- A function over every listed core. -/
def State.mapCores (s : State) (f : Nat → Core → Core) : State :=
  { s with core := f s.cnum s.core, others := s.others.map fun c => (c.1, f c.1 c.2) }

/-- The running sequencer. -/
def State.seq (s : State) : Seq := s.core.seqs.get s.who
/-- A sequencer of the core in front changed. -/
def State.mapSeq (s : State) (e : Eng) (f : Seq → Seq) : State :=
  { s with core := { s.core with seqs := s.core.seqs.set e (f (s.core.seqs.get e)) } }
/-- The device part changed. -/
def State.mapDev (s : State) (f : Device → Device) : State := { s with dev := f s.dev }

/-- The i-th element of a list changed. -/
def modAt {α : Type} (l : List α) (i : Nat) (f : α → α) : List α :=
  match l, i with
  | [], _ => []
  | x :: r, 0 => f x :: r
  | x :: r, i + 1 => x :: modAt r i f

/-! ### Walking the text (04 R56 to R59) -/

/-- Slot of a byte offset in its block (R57). -/
def slotOf (pc : Nat) : Nat := pc / 16 % 4
/-- Block index of a byte offset. -/
def blkOf (pc : Nat) : Nat := pc / 64

/-- A sequencer past its word: the next word, or past the block's last word, standing at the next position with the loop closes
still to come (R59, R70). -/
def Seq.advance (q : Seq) : Seq :=
  if slotOf q.pc = 3 then
    { q with pc := q.pc + 16, pos := q.pos + 1, entered := false, closing := true, awd := false, wait := none, tried := false,
             atSync := false, claim := none, dec := .none }
  else { q with pc := q.pc + 16, awd := false, wait := none, tried := false,
                  atSync := false, claim := none, dec := .none }
/-- A sequencer after a transfer to a block (R37, R59). -/
def Seq.jump (q : Seq) (blk : Nat) : Seq :=
  { q with pc := blk * 64, pos := q.pos + 1, entered := false, closing := false, awd := false, wait := none, tried := false,
           atSync := false, claim := none, dec := .none }

/-- The cycle count that a sequencer's intervals are measured in: virtual cycles in the lockstep set (R80), clock cycles elsewhere. -/
def Core.clockOf (c : Core) (e : Eng) : Nat := if lockstep e then c.vcyc.toNat else c.cycle.toNat

/-- A cycle of deterministic mode has come; without it nothing is timed (23 R342, R343). -/
def Core.reached (c : Core) (n : Nat) : Bool := !c.det || decide (n ≤ c.cycle.toNat)
/-- The cycle some cycles from now in deterministic mode, else 0. -/
def Core.later (c : Core) (n : Nat) : Nat := if c.det then c.cycle.toNat + n else 0

/-- The running sequencer has completed its word with an issue interval (R56, R80). -/
def State.complete (s : State) (interval : Nat) : State :=
  s.mapSeq s.who fun q => { q.advance with due := s.core.clockOf s.who + interval }
/-- The running sequencer has passed its word at no issue cost (R56). -/
def State.passOver (s : State) : State := s.mapSeq s.who Seq.advance
/-- The running sequencer waits at its word (R77). -/
def State.waiting (s : State) (w : Wait) : State :=
  s.mapSeq s.who fun q => { q with wait := some w, tried := true }

/-- The least position at which an attached sequencer that has not ended stands (R59). -/
def Core.pmin (c : Core) : Nat :=
  let ps := engs.filterMap fun e => let q := c.seqs.get e; if q.ended || q.detached then none else some q.pos
  match ps with
  | [] => c.seqs.ctl.pos
  | p :: r => r.foldl min p
/-- The tether lets a sequencer enter the block at a position (R59). -/
def Core.tetherOk (c : Core) (p : Nat) : Bool := decide (p < c.pmin + c.slipwin.toNat)
/-- The tether's Pmin belongs to a sequencer of the lockstep set. Where one of the lockstep set and one of CTL, CLD, CST and FAB stand at it
together, R77 lists the wait both as internal and as external: the model takes it as internal (log 73). -/
def Core.pminLockstep (c : Core) : Bool :=
  engs.any fun e => let q := c.seqs.get e; lockstep e && !q.ended && !q.detached && q.pos == c.pmin

/-! ### Scalar registers (05 R89 to R91) -/

/-- sK; s0 reads zero. -/
def State.getS (s : State) (r : SReg) : W64 := if r = 0 then 0 else s.core.s.getD r.toNat 0
/-- sK written; a write to s0 is discarded. -/
def State.setS (s : State) (r : SReg) (v : W64) : State :=
  if r = 0 then s else { s with core := { s.core with s := s.core.s.set r.toNat v } }
/-- op2 (R91). -/
def State.op2 (s : State) (o : Op2) : W64 :=
  match o with
  | .reg b => s.getS b
  | .imm v => v
/-- The registers op2 reads. -/
def op2Regs (o : Op2) : List SReg :=
  match o with
  | .reg b => [b]
  | .imm _ => []
/-- A register has a load outstanding (R90). -/
def State.busy (s : State) (r : SReg) : Bool := r != 0 && s.core.loads.any fun l => l.d == r

/-! ### Address registers and flags -/

/-- aK (07 R138). -/
def State.getA (s : State) (r : AReg) : W64 := s.core.a.getD r.toNat 0
/-- aK written. -/
def State.setA (s : State) (r : AReg) (v : W64) : State := { s with core := { s.core with a := s.core.a.set r.toNat v } }
/-- Count of a flag (04 R84). -/
def Core.flag (c : Core) (f : FlagNo) : Nat := (c.f.getD f.toNat 0).toNat
/-- Count of a flag written. -/
def Core.setFlag (c : Core) (f : FlagNo) (n : Nat) : Core := { c with f := c.f.set f.toNat (BitVec.ofNat 16 n) }

/-- A post to a flag: in deterministic mode no await sees it in its own cycle (04 R85, 23 R343). -/
def Core.addFlag (c : Core) (f : FlagNo) (n : Nat) : Core :=
  { c.setFlag f (c.flag f + n) with posted := if c.det then (f, n) :: c.posted else c.posted }
/-- What an await sees of a flag (04 R86, 23 R343). -/
def Core.flagSeen (c : Core) (f : FlagNo) : Nat := c.flag f - ((c.posted.filter fun x => x.1 == f).map Prod.snd).sum

/-! ### Handles (04 R61, 05 R96) -/

/-- CTL's own value of a handle (R90). -/
def Core.getH (c : Core) (h : HReg) : W256 := c.h.getD h.toNat 0
/-- Position order (R57). -/
def posLt (p1 s1 p2 s2 : Nat) : Bool := decide (p1 < p2 ∨ (p1 = p2 ∧ s1 < s2))
/-- The history without the writes below Pmin, which go into the values as of Pmin (R61). -/
def Core.pruneHist (c : Core) : Core :=
  let pm := c.pmin
  let old := c.hist.filter fun w => decide (w.pos < pm)
  { c with hist := c.hist.filter fun w => decide (pm ≤ w.pos),
           hbase := old.foldl (fun b w => b.set w.h.toNat w.val) c.hbase }
/-- A handle written by CTL at its position: the register and the history, oldest first (R61). -/
def Core.setH (c : Core) (h : HReg) (v : W256) : Core :=
  let c1 := c.pruneHist
  { c1 with h := c1.h.set h.toNat v,
            hist := c1.hist ++ [{ pos := c.seqs.ctl.pos, slot := slotOf c.seqs.ctl.pc, h := h, val := v }] }
/-- A handle as of a position: the last write below it (R61). -/
def Core.handleAt (c : Core) (h : HReg) (pos slot : Nat) : W256 :=
  match (c.hist.filter fun w => w.h == h && posLt w.pos w.slot pos slot).getLast? with
  | some w => w.val
  | none => c.hbase.getD h.toNat 0
/-- CTL's walk has passed a position (R61). -/
def Core.ctlPassed (c : Core) (pos slot : Nat) : Bool :=
  let q := c.seqs.ctl
  q.ended || !posLt q.pos (if q.entered then slotOf q.pc else 0) pos slot
/-- STATUS.NANT as of a position (05 R102). -/
def Core.nantAt (c : Core) (pos slot : Nat) : Bool :=
  match (c.nhist.filter fun w => posLt w.pos w.slot pos slot).getLast? with
  | some w => w.val
  | none => c.nbase
/-- STATUS.NANT written by CTL at its position. -/
def Core.setNant (c : Core) (v : Bool) : Core :=
  let pm := c.pmin
  let old := c.nhist.filter fun w => decide (w.pos < pm)
  { c with nant := v, nbase := (old.getLast?.map NWrite.val).getD c.nbase,
           nhist := (c.nhist.filter fun w => decide (pm ≤ w.pos)) ++
             [{ pos := c.seqs.ctl.pos, slot := slotOf c.seqs.ctl.pc, val := v }] }

/-! ### Scratchpad (07 R128 to R132) -/

/-- Bytes of one core's scratchpad (R128). -/
def spadSize : Nat := 2 ^ 23
/-- Scratchpad key of a byte offset of a core. -/
def spadKey (core off : Nat) : Nat := core * spadSize + off
/-- The core that a window field names (R130). -/
def windowCore (cnum w : Nat) : Nat := cnum / 8 * 8 + (cnum % 8 + w) % 8
/-- The key of a 26-bit scratchpad offset as seen from a core (R130). -/
def spadOff (cnum off : Nat) : Nat := spadKey (windowCore cnum (off / spadSize)) (off % spadSize)
/-- Scratchpad key of a tile slot: 0 to 47 static, 48 to 63 physical rotating (R129). -/
def slotKey (cnum p : Nat) : Nat := spadKey cnum (0x7C0000 + p * 0x1000)
/-- The tile in a slot. -/
def State.slotTile (s : State) (p : Nat) : Tile := lanesOf (readRun s.spad (slotKey s.cnum p) 4096)
/-- Physical slot of a rotating operand (R42, R73). -/
def Seq.rot (q : Seq) (k : Nat) : Nat := 48 + (q.rbase.toNat + k) % q.rotsz.toNat

/-! ### Device memory under keys (25 R383) -/

/-- Key under which a 64-byte unit was last written; none is plain. -/
def Device.keyOf (d : Device) (unit : Nat) : Option (BitVec 512) := (d.unitKey.find? fun u => u.1 == unit).map Prod.snd
/-- A 64-byte unit as read under a key: its bytes when the keys agree, else what the cipher makes of them (log 11). -/
def State.readUnit (s : State) (key : Option (BitVec 512)) (unit : Nat) : List Byte :=
  let bs := readRun s.mem (unit * 64) 64
  let k := s.dev.keyOf unit
  if k = key then bs else blockBytes (Config.cipher k key unit (blockOf bs))
/-- A byte of device memory as read under a key. -/
def State.physByte (s : State) (key : Option (BitVec 512)) (a : Nat) : Byte :=
  if s.dev.keyOf (a / 64) = key then readByte s.mem a else (s.readUnit key (a / 64)).getD (a % 64) 0
/-- Bytes of device memory as read under a key. -/
def State.readPhys (s : State) (key : Option (BitVec 512)) (a n : Nat) : List Byte :=
  (List.range n).map fun k => s.physByte key (a + k)
/-- A unit set to be held under a key. -/
def State.rekey (s : State) (key : Option (BitVec 512)) (unit : Nat) : State :=
  if s.dev.keyOf unit = key then s
  else
    let bs := s.readUnit key unit
    let r := s.dev.unitKey.filter fun u => u.1 != unit
    { s with mem := writeRun s.mem (unit * 64) bs,
             dev := { s.dev with unitKey := match key with
               | some k => (r.filter fun u => decide (u.1 < unit)) ++ (unit, k) :: (r.filter fun u => decide (unit < u.1))
               | none => r } }
/-- What a run of `n` bytes at `a` leaves of a run of `m` bytes at `b`: starts and lengths. -/
def cutRun (b m a n : Nat) : List (Nat × Nat) :=
  [(b, min (b + m) a - b), (max b (a + n), b + m - max b (a + n))].filter fun x => decide (0 < x.2)
/-- A mark without the bytes of a run. -/
def Mark.cut (m : Mark) (a n : Nat) : List Mark := (cutRun m.addr m.len a n).map fun x => { m with addr := x.1, len := x.2 }
/-- A hidden write without the bytes of a run of its space. -/
def Stale.cut (r : Stale) (sp : Bool) (a n : Nat) : List Stale :=
  if r.sp == sp then
    (cutRun r.addr r.old.length a n).map fun x => { r with addr := x.1, old := (r.old.drop (x.1 - r.addr)).take x.2 }
  else [r]
/-- Where the marks of a location are kept: physical addresses, and scratchpad keys above them. -/
def markKey (sp : Bool) (a : Nat) : Nat := if sp then 2 ^ 60 + a else a
/-- A run of bytes replaced: no mark and no earlier hidden write stands there any more (20 R319, R323). -/
def Device.overwrite (d : Device) (sp : Bool) (a n : Nat) : Device :=
  { d with marks := d.marks.flatMap fun m => m.cut (markKey sp a) n, stale := d.stale.flatMap fun r => r.cut sp a n }
/-- Bytes written to device memory under a key. -/
def State.writePhys (s : State) (key : Option (BitVec 512)) (a : Nat) (bs : List Byte) : State :=
  let units := (List.range ((a + bs.length + 63) / 64 - a / 64)).map fun k => a / 64 + k
  let s1 := units.foldl (fun t u => t.rekey key u) s
  { s1 with mem := writeRun s1.mem a bs, dev := s1.dev.overwrite false a bs.length }
/-- Bytes written to scratchpad. -/
def State.writeSpad (s : State) (a : Nat) (bs : List Byte) : State :=
  { s with spad := writeRun s.spad a bs, dev := s.dev.overwrite true a bs.length }

/-! ### Taking a trap (25 R369 to R377) -/

/-- An answer of another module that is no longer wanted: one still to come will be dropped. -/
def Reply.drop (r : Reply) : Reply :=
  match r with
  | .asked | .unwanted => .unwanted
  | _ => .none

/-- A field placed at a bit position. -/
def fld (v pos : Nat) : Nat := v * 2 ^ pos
/-- The eight words of a trap record (R371). -/
def TrapInfo.words (t : TrapInfo) (hnd : Bool) : List W64 :=
  [ BitVec.ofNat 64 (fld t.reason.toNat 40 + fld t.cause.toNat 32 + fld t.awd.toNat 17 + fld hnd.toNat 16 +
      fld t.async.toNat 15 + fld t.rulei.toNat 14 + fld (engNo t.eng) 8),
    BitVec.ofNat 64 (t.pc % 2 ^ 30),
    t.addr,
    BitVec.ofNat 64 (fld (t.ruleid % 32) 32 + t.tsdone % 2 ^ 32),
    BitVec.ofNat 64 (fld (t.col % 64) 56 + fld (t.row % 64) 48 + fld (t.kstep % 4096) 32 + t.slice % 2 ^ 32),
    t.aux,
    t.word.extractLsb' 0 64,
    t.word.extractLsb' 64 64 ]

/-- What an interrupted walk is set aside as (R373). -/
def Core.setAside (c : Core) (held : Held) (eng : Eng) (mulWord : Bool) : Aside :=
  { seqs := c.seqs, view := c.view, trail := c.trail, exits := c.exits, hist := c.hist, hbase := c.hbase, nhist := c.nhist, nbase := c.nbase,
    flights := c.flights, defPosts := c.defPosts, cld := c.cld, cst := c.cst, fabQueue := c.fabric.queue,
    fabPhase := c.fabric.phase, fabParked := c.fabric.parked, fabOpen := c.fabric.openPh, fabBinds := c.fabric.pendBinds, fabInst := c.fabric.instBinds,
    insts := c.rules.map fun r => r.bind Rule.inst, held := held, eng := eng, mulWord := mulWord, fences := c.fences,
    chans := c.chans, wpDone := c.wpDone, arrived := c.arrived, replies := { c.replies with acc := .none }, fabFar := c.fabric.far, asker := c.fabric.asker, vcyc := c.vcyc, cycle := c.cycle }

/-- All seven sequencers at the handler's block, attached, queues and stacks empty, RBASE, ROTSZ and the indices as they were (R373). -/
def Core.enterHandler (c : Core) (held : Held) (eng : Eng) (mulWord : Bool) : Core :=
  { c with
    aside := some (c.setAside held eng mulWord)
    seqs := c.seqs.mapE fun _ q =>
      { Seq.reset with pc := c.trapBlk.toNat * 64, rbase := q.rbase, rotsz := q.rotsz, lidx := q.lidx }
    view := PerEng.all View.reset, trail := [], exits := [], hist := [], hbase := c.h, nhist := [], nbase := c.nant, flights := [],
    defPosts := [], cld := [], cst := [],
    fabric := { c.fabric with queue := [], phase := none, parked := [], openPh := none, pendBinds := [], instBinds := [], far := [] }
    replies := { PerEng.all .none with acc := c.replies.acc }, freplies := c.freplies.mapE fun _ r => r.drop
    rules := c.rules.map fun r => r.map fun x => { x with inst := none }
    fences := [], chans := List.replicate 4 [], wpDone := [], arrived := none }

/-- Taking a trap: the record and LASTC are written; with a handler the core enters it, otherwise, or inside the handler, the trap
escalates (R371, R373, R376, R377). -/
def Core.takeTrap (c : Core) (t : TrapInfo) (held : Held) (mulWord : Bool) : Core :=
  let hnd := c.aside.isSome
  let c1 := { c with traprec := t.words hnd, lastc := t.cause }
  if c.trapEn && !hnd then c1.enterHandler held t.eng mulWord
  else { c1 with escal := some (t.cause, hnd), halt := .stopping }

/-- A trap record of the running word with every optional field zero (R370, R371). -/
def State.info (s : State) (cause : Byte) : TrapInfo :=
  { eng := s.who, cause := cause, reason := 0, awd := s.seq.awd, async := false, rulei := false, pc := s.cur.pc, addr := 0,
    ruleid := 0, tsdone := 0, col := 0, row := 0, kstep := 0, slice := 0, aux := 0, word := s.cur.word }
/-- The running word is a MUL word (R35). -/
def State.isMul (s : State) : Bool := s.cur.word.extractLsb' 125 3 == 7#3
/-- A precise trap of the running word (R369). -/
def State.trapWith (s : State) (t : TrapInfo) : State :=
  s.mapCore fun c => c.takeTrap t .word s.isMul

/-- Cause codes (R370). -/
def Cause.illop : Byte := 0x01
/-- ALIGN (R370). -/
def Cause.align : Byte := 0x02
/-- PAGEF (R370). -/
def Cause.pagef : Byte := 0x03
/-- PERM (R370). -/
def Cause.perm : Byte := 0x04
/-- SPAN (R370). -/
def Cause.span : Byte := 0x05
/-- TAGMISS (R370). -/
def Cause.tagmiss : Byte := 0x06
/-- TAGDUP (R370). -/
def Cause.tagdup : Byte := 0x07
/-- FLAGOVF (R370). -/
def Cause.flagovf : Byte := 0x08
/-- OVERLAP (R370). -/
def Cause.overlap : Byte := 0x09
/-- NANTRAP (R370). -/
def Cause.nantrap : Byte := 0x0A
/-- FMTBAD (R370). -/
def Cause.fmtbad : Byte := 0x0B
/-- DRAWER (R370). -/
def Cause.drawer : Byte := 0x0C
/-- RULE (R370). -/
def Cause.rule : Byte := 0x0D
/-- STREAM (R370). -/
def Cause.stream : Byte := 0x0E
/-- TRIP (R370). -/
def Cause.trip : Byte := 0x0F
/-- DEADLOCK (R370). -/
def Cause.deadlock : Byte := 0x10
/-- LEGACY (R370). -/
def Cause.legacy : Byte := 0x11
/-- SWTRAP (R370). -/
def Cause.swtrap : Byte := 0x12
/-- DROOP (R370). -/
def Cause.droop : Byte := 0x13
/-- ECCU (R370). -/
def Cause.eccu : Byte := 0x14

/-- A fault found while a word or command is judged: cause, reason, TRAPREC2, TRAPREC5 (R370). -/
structure Flt where
  cause : Byte
  reason : Byte := 0
  addr : Nat := 0
  aux : Nat := 0
deriving DecidableEq, Repr

/-- A precise trap of the running word with the fields a fault names. -/
def State.trap (s : State) (f : Flt) : State :=
  s.trapWith { s.info f.cause with reason := f.reason, addr := BitVec.ofNat 64 f.addr, aux := BitVec.ofNat 64 f.aux }
/-- A RULE trap names the almanac entry's number 0 and its reason (R271). -/
def fRule (reason : Byte) (v : Nat := 0) : Flt := { cause := Cause.rule, reason := reason, addr := v }
/-- A STREAM trap names the SID and the out-of-range value (R291). -/
def fStream (reason : Byte) (sid : Nat) (v : Nat := 0) : Flt := { cause := Cause.stream, reason := reason, addr := sid, aux := v }
/-- ILLOP with no fields. -/
def fIllop : Flt := { cause := Cause.illop }

/-- The result of judging an operand: a value or a fault. -/
abbrev Judged (α : Type) := Except Flt α

/-! ### Returning from the handler (05 R104, 25 R374, R375) -/

/-- The trapped command marked to go on, or taken out of its queue, by ERET and ERET.SKIP. -/
def dropHead {α : Type} : List α → List α
  | [] => []
  | _ :: r => r

/-- The set-aside walk restored: positions, loops, stacks and queues as they were; handle and NANT writes of the handler at the
position of CTL's stopped word; the handler's commands ahead of those set aside (R374). -/
def Core.restoreWalk (c : Core) (w : Aside) : Core :=
  let cq := w.seqs.ctl
  let moved : List HWrite := c.hist.map fun x => { x with pos := cq.pos, slot := slotOf cq.pc }
  let before (k : Nat) (h : HReg) : W256 := ((w.hist.filter fun x => x.h == h).getLast?.map HWrite.val).getD (w.hbase.getD k 0)
  let changed : List HWrite := ((List.range 16).filterMap fun k =>
    let h : HReg := BitVec.ofNat 4 k
    if (c.hist.any fun x => x.h == h) || before k h == c.getH h then none
    else some { pos := cq.pos, slot := slotOf cq.pc, h := h, val := c.getH h })
  let left (l : List CopyCmd) : List CopyCmd := l.map fun q => if q.early = 0 then { q with early := c.order } else q
  let nmoved : List NWrite := c.nhist.map fun x => { x with pos := cq.pos, slot := slotOf cq.pc }
  { c with
    seqs := w.seqs.mapE fun e q =>
      { q with wait := none, tried := false, dec := .none, due := q.due + (c.clockOf e - (if lockstep e then w.vcyc else w.cycle).toNat) }
    view := w.view, trail := w.trail, exits := w.exits, hist := w.hist ++ changed ++ moved, hbase := w.hbase, nhist := w.nhist ++ nmoved,
    nbase := w.nbase, flights := w.flights ++ c.flights, defPosts := w.defPosts ++ c.defPosts, cld := left c.cld ++ w.cld,
    cst := left c.cst ++ w.cst,
    fabric := { c.fabric with
      queue := c.fabric.queue ++ w.fabQueue, phase := if c.fabric.phase.isSome then c.fabric.phase else w.fabPhase,
      parked := (if c.fabric.phase.isSome then w.fabPhase.toList else []) ++ w.fabParked, openPh := w.fabOpen, pendBinds := w.fabBinds, instBinds := w.fabInst,
      far := if w.fabFar = [] then c.fabric.far else w.fabFar, asker := if w.replies.fab = .none then c.fabric.asker else w.asker }
    replies := w.replies.mapE (fun e r => if r = .none then c.replies.get e else r), freplies := c.freplies.mapE fun _ r => r.drop
    rules := (c.rules.zip w.insts).map fun p => p.1.map fun r => if r.inst.isSome then r else { r with inst := p.2 }
    fences := w.fences, chans := w.chans, wpDone := w.wpDone, arrived := w.arrived, aside := none }

end Sys2Proof.Machine
end

