-- ==== Sys2Proof/Machine/Translate.lean ====
section
/-!
DEFINITION. Address translation (25 R380 to R384), budgets of memory and link bytes (23 R349), and the SC path's accesses.
-/
namespace Sys2Proof.Machine

/-- What an access wants of a leaf (R383). -/
inductive Want where
  | rd | wr | rdwr | fetch
deriving DecidableEq, Repr

/-- The access writes. -/
def Want.writes : Want → Bool
  | .wr | .rdwr => true
  | _ => false

/-- Where a virtual address lies: a physical address of this module under a key, or an offset of another module (R380). -/
structure Target where
  phys : Nat
  key : Option (BitVec 512)
  remote : Option Nat
deriving DecidableEq, Repr

/-- Start of the module windows (R380). -/
def windowBase : Nat := 0x100000000000
/-- The physical address is GDDR7 (R380). -/
def isGddr (a : Nat) : Bool := a < 0x3000000000
/-- The physical address is LPDDR6 (R380). -/
def isLpddr (a : Nat) : Bool := 0x10000000000 ≤ a && a < 0x1C000000000
/-- The physical address lies in a module window (R380). -/
def isWindow (a : Nat) : Bool := windowBase ≤ a && a < windowBase + 256 * 2 ^ 40

/-- The key loaded at an index (R383). -/
def Device.key (d : Device) (k : Nat) : Option (BitVec 512) := (d.keys.find? fun x => x.1.toNat == k).map Prod.snd
/-- A tenant's registers. -/
def Device.tenant (d : Device) (t : BitVec 5) : Tenant := d.tenants.getD t.toNat Tenant.reset
/-- A tenant's registers changed. -/
def Device.mapTenant (d : Device) (t : BitVec 5) (f : Tenant → Tenant) : Device :=
  { d with tenants := modAt d.tenants t.toNat f }

/-- TRAPREC5 of PAGEF and PERM (R370). -/
def walkAux (w : Want) (level : Nat) : Nat := w.writes.toNat + 2 * (w == .fetch).toNat + 4 * level

/-- The walk from a table at a level; the levels' index widths and page sizes are R381's. -/
def State.walkFrom (s : State) (va : Nat) (w : Want) : List (Nat × Nat × Nat) → Nat → Judged (Nat × Nat × Nat)
  | [], _ => .error { cause := Cause.pagef, addr := va, aux := walkAux w 4 }
  | (lvl, sh, wid) :: rest, table =>
    let e := leNat (s.readPhys (s.dev.key 0) (table + 8 * (va / 2 ^ sh % 2 ^ wid)) 8)
    let bad : Judged (Nat × Nat × Nat) := .error { cause := Cause.pagef, addr := va, aux := walkAux w lvl }
    let leaf := e / 2 % 2 = 1
    let hi := e / 2 ^ 16 % 2 ^ 33
    if e % 2 = 0 ∨ e / 2 ^ 49 ≠ 0 ∨ e / 2 ^ 5 % 2 = 1 then bad
    else if leaf then
      let base := hi * 2 ^ 16
      if lvl < 2 ∨ base % 2 ^ sh ≠ 0 then bad
      else if !(isGddr base || isLpddr base || isWindow base) then
        .error { cause := Cause.pagef, addr := va, aux := walkAux w 4 }
      else .ok (base + va % 2 ^ sh, e / 2 ^ 12 % 16 * 64 + e / 2 ^ 6 % 64, e)
    else if e / 2 ^ 6 % 64 ≠ 0 then bad
    else s.walkFrom va w rest (e / 2 ^ 12 % 2 ^ 37 * 2 ^ 12)

/-- The five levels: number, shift, index width (R381). -/
def walkLevels : List (Nat × Nat × Nat) := [(0, 48, 4), (1, 39, 9), (2, 30, 9), (3, 21, 9), (4, 16, 5)]

/-- A virtual address of a tenant translated with its permissions (R381 to R383); windows are not yet followed. -/
def State.leaf (s : State) (t : BitVec 5) (va : Nat) (w : Want) : Judged (Nat × Option (BitVec 512)) :=
  match s.walkFrom va w walkLevels ((s.dev.tenant t).root.toNat * 2 ^ 12) with
  | .error f => .error f
  | .ok (pa, k, e) =>
    let rd := e / 4 % 2 = 1
    let wr := e / 8 % 2 = 1
    let fe := e / 16 % 2 = 1
    let ok : Bool := match w with
      | .rd => rd | .wr => wr | .rdwr => rd && wr | .fetch => fe && rd
    if !ok || (k != 0 && (s.dev.key k).isNone) then
      .error { cause := Cause.perm, addr := va, aux := walkAux w 0 }
    else .ok (pa, s.dev.key k)

/-- ROUTE of the module of a rank in a context's chart is not 0 (27 R395). -/
def State.reachable (s : State) (ctx : W16) (rank : Nat) : Bool :=
  match s.dev.ctxs.find? fun c => c.id == ctx with
  | none => false
  | some c =>
    let dn := (((c.launch.chart.getD rank none).getD []).getD 0 0).toNat
    s.dev.route.getD dn 0 != 0

/-- An address lies in a text's pages (03 R38). -/
def inText (text tlen va : Nat) : Bool := decide (text / 2 ^ 16 ≤ va / 2 ^ 16 ∧ va / 2 ^ 16 ≤ (text + 64 * tlen - 1) / 2 ^ 16)
/-- Translation of an access of the core in front: its tenant's tables, the superstep rule, the module windows and the launch's own
text pages (02 R31, 03 R38, 25 R380). -/
def State.target (s : State) (va : Nat) (w : Want) : Judged Target :=
  match s.core.task with
  | none => .error { cause := Cause.pagef, addr := va, aux := walkAux w 0 }
  | some t =>
    match s.leaf t.tenant va w with
    | .error f => .error f
    | .ok (pa, k) =>
      let permAt (aux : Nat) : Judged Target := .error { cause := Cause.perm, addr := va, aux := walkAux w 0 + aux }
      if isWindow pa then
        let r := (pa - windowBase) / 2 ^ 40
        let off := (pa - windowBase) % 2 ^ 40
        if t.nranks ≤ r then permAt 0
        else if r = t.rank then
          match s.leaf t.tenant off w with
          | .error _ => permAt 4
          | .ok (pa2, k2) =>
            if isWindow pa2 || (w.writes && inText t.text t.tlen off) then permAt 4 else .ok { phys := pa2, key := k2, remote := none }
        else if t.sstep && !s.core.exch then permAt 0
        else if !s.reachable t.ctx r then permAt 4
        else .ok { phys := off, key := none, remote := some r }
      else if w.writes && inText t.text t.tlen va then permAt 0
      else .ok { phys := pa, key := k, remote := none }

/-! ### Budgets (23 R349) -/

/-- The tenant of the core in front. -/
def State.tenantNo (s : State) : BitVec 5 :=
  match s.core.task with
  | some t => t.tenant
  | none => 0
/-- A nonzero byte budget below 64 KiB counts as 64 KiB (R349). -/
def budgetOf (v : W64) : Option Nat := if v = 0 then none else some (max v.toNat 65536)
/-- The tenant's memory bytes allow an access now (R349). -/
def State.memOk (s : State) (n : Nat) : Bool :=
  (s.dev.tenant s.tenantNo).mleft.all fun x => decide (n ≤ x)
/-- Memory bytes debited. -/
def State.memDebit (s : State) (n : Nat) : State :=
  s.mapDev fun d => d.mapTenant s.tenantNo fun t => { t with mleft := t.mleft.map (· - n) }
/-- A tenant's link bytes allow an access now (R349). -/
def State.linkOkOf (s : State) (t : BitVec 5) (n : Nat) : Bool := (s.dev.tenant t).lleft.all fun x => decide (n ≤ x)
/-- A tenant's link bytes debited. -/
def State.linkDebitOf (s : State) (t : BitVec 5) (n : Nat) : State :=
  s.mapDev fun d => d.mapTenant t fun x => { x with lleft := x.lleft.map (· - n) }
/-- The link bytes of the tenant of the core in front allow an access now. -/
def State.linkOk (s : State) (n : Nat) : Bool := s.linkOkOf s.tenantNo n
/-- Its link bytes debited. -/
def State.linkDebit (s : State) (n : Nat) : State := s.linkDebitOf s.tenantNo n

/-- The scratchpad of a core may be reached from the core in front: its own, or a sibling's that holds no other tenant's bytes (01 R17, 07
R130; log 75). -/
def State.siblingOk (s : State) (n : Nat) : Bool := n == s.cnum || (s.coreAt n).spOwner.all (· == s.tenantNo)

/-! ### Another module's memory -/

/-- The record of the launch that the core in front runs a task of, where that launch has a chart. -/
def State.chartRaw (s : State) : List Byte :=
  match s.core.task with
  | some t => if t.chrt then ((s.dev.ctxs.find? fun c => c.id == t.ctx).map fun c => c.launch.raw).getD [] else []
  | none => []
/-- The core in front as a party (20 R314). -/
def State.party (s : State) : Party := .core s.cnum s.chartRaw
/-- A message to another module, from the engine `e` of the core in front (R380). -/
def State.send (s : State) (rank : Nat) (e : Eng) (text : Bool) (k : LinkKind) : State :=
  s.mapDev fun d => { d with outbox := d.outbox ++
    [{ rank := rank, launch := s.chartRaw, tenant := s.tenantNo, core := s.cnum, port := e, text := text, kind := k }] }
/-- The engine's answer slot set. -/
def State.setReply (s : State) (e : Eng) (r : Reply) : State :=
  s.mapCore fun c => { c with replies := c.replies.set e r }
/-- Whatever another module answers to an engine is dropped. -/
def Core.dropReply (c : Core) (e : Eng) : Core := { c with replies := c.replies.set e (c.replies.get e).drop }
/-- What the engine had asked before the handler began is still to be answered. -/
def Core.asideAsks (c : Core) (e : Eng) : Bool := c.aside.any fun a => a.replies.get e == .asked || a.replies.get e == .unwanted
/-- An engine's access of another module: asked once, when the tenant's link bytes allow it; then answered or refused (23 R349). -/
def State.askEngine (s : State) (e : Eng) (rank n : Nat) (k : LinkKind) (done : List Byte → List (Party × Scope) → State → α) (refused : State → α)
    (wait : State → α) : α :=
  match s.core.replies.get e with
  | .none => if s.linkOk n && !s.core.asideAsks e then wait (((s.linkDebit n).send rank e false k).setReply e .asked) else wait s
  | .asked | .unwanted => wait s
  | .data bs ch => done bs ch (s.setReply e .none)
  | .refused => refused (s.setReply e .none)

/-! ### Writes that a reader may not see yet (20 R314, R323 to R325; 07 R142) -/

/-- Bit of a path in a FENCEX mask (R325), and of its readers. -/
def Path.bit : Path → Nat
  | .sc => 0 | .cp => 1 | .mx => 2 | .fb => 3 | .st => 4
/-- Readers of the SC path, and the tile accesses of VEC and ACC. -/
def scEye : BitVec 7 := 1#7
/-- The tile accesses of a sequencer's words. -/
def tileEye (e : Eng) : BitVec 7 := if e = .vec then 32#7 else 64#7
/-- Readers that may not see a write made on a path by their own core: those of the other paths; tile accesses see the MX path's in the
order of the lockstep set (R142). -/
def ownHide (p : Path) : BitVec 7 := (if p = .mx then 0b0011011#7 else 0x7F#7) &&& ~~~ (1#7 <<< p.bit)

/-- Who reads: the bit of its path, its position, and the write number below which its tail has made every write visible. -/
structure Look where
  bit : Nat
  pos : Nat
  slot : Nat
  sees : Nat
deriving DecidableEq, Repr

/-- A FENCEX covers the writes of a path: those of the paths in X, and what the core has acquired. -/
def XFence.covers (x : XFence) (p : Option Path) : Bool := p.all fun q => x.x.getLsbD q.bit
/-- A hidden write is hidden from a reader of the core in front: nothing has ordered the reader after it, and it has not become visible by
itself (R323; log 78). -/
def State.hides (s : State) (l : Look) (r : Stale) : Bool :=
  r.core == s.cnum && decide (l.sees ≤ r.id) && r.hide.getLsbD l.bit &&
    !(s.core.fences.any fun x => posLt x.pos x.slot l.pos l.slot && x.y.getLsbD l.bit && x.covers r.path) &&
    decide (s.tick < Config.visibleAt r.id r.core r.unit l.bit)
/-- The write over a byte that a reader does not see. -/
def State.staleAt (s : State) (l : Option Look) (sp : Bool) (key : Option (BitVec 512)) (a : Nat) : Option Stale :=
  match l with
  | none => none
  | some l => s.dev.stale.find? fun r =>
      r.sp == sp && decide (r.addr ≤ a ∧ a < r.addr + r.old.length) && r.key == key && s.hides l r
/-- A byte of device memory as a reader sees it; no reader sees the newest. -/
def State.seeByte (s : State) (l : Option Look) (key : Option (BitVec 512)) (a : Nat) : Byte :=
  match s.staleAt l false key a with
  | some r => r.old.getD (a - r.addr) 0
  | none => s.physByte key a
/-- A byte of scratchpad as a reader sees it. -/
def State.seeSpad (s : State) (l : Option Look) (k : Nat) : Byte :=
  match s.staleAt l true none k with
  | some r => r.old.getD (k - r.addr) 0
  | none => readByte s.spad k
/-- Bytes of device memory as a reader sees them. -/
def State.seePhys (s : State) (l : Option Look) (key : Option (BitVec 512)) (a n : Nat) : List Byte :=
  (List.range n).map fun k => s.seeByte l key (a + k)
/-- Bytes of scratchpad as a reader sees them. -/
def State.seeRun (s : State) (l : Option Look) (k n : Nat) : List Byte := (List.range n).map fun j => s.seeSpad l (k + j)

/-- The atomic unit of a byte written on a path: 8 bytes on the SC path, 64 on the others (R315). -/
def atomOf (p : Path) (a : Nat) : Nat := if p = .sc then a / 8 else a / 64
/-- What a write of a run by the core in front hides: per core with a task outside deterministic mode (of its cluster, in scratchpad), and per
atomic unit, the bytes before it. -/
def State.hidden (s : State) (p : Path) (sp : Bool) (key : Option (BitVec 512)) (a n : Nat) : List Stale :=
  let u := if p = .sc then 8 else 64
  let units := (List.range ((a + n + u - 1) / u - a / u)).map fun k => (max a ((a / u + k) * u), min (a + n) ((a / u + k + 1) * u))
  (s.tasked.filter fun c => !c.2.det && (!sp || c.1 / 8 == a / spadSize / 8)).flatMap fun c =>
    units.map fun x =>
      { id := s.dev.writeNo, core := c.1, path := if c.1 = s.cnum then some p else none, sp := sp, addr := x.1,
        old := if sp then readRun s.spad x.1 (x.2 - x.1) else s.readPhys key x.1 (x.2 - x.1), key := key,
        marks := s.dev.marks.filter fun m => decide (m.addr < markKey sp x.2 ∧ markKey sp x.1 < m.addr + m.len), unit := atomOf p x.1,
        hide := if c.1 = s.cnum then ownHide p else 0x7F#7 }
/-- Bytes written to device memory on a path by the core in front. -/
def State.putPhys (s : State) (p : Path) (key : Option (BitVec 512)) (a : Nat) (bs : List Byte) : State :=
  (s.writePhys key a bs).mapDev fun d => { d with stale := d.stale ++ s.hidden p false key a bs.length }
/-- Bytes written to scratchpad on a path by the core in front. -/
def State.putSpad (s : State) (p : Path) (k : Nat) (bs : List Byte) : State :=
  (s.writeSpad k bs).mapDev fun d => { d with stale := d.stale ++ s.hidden p true none k bs.length }
/-- The writes of one action are done: the next action's have the next number. -/
def State.wrote (s : State) : State := s.mapDev fun d => { d with writeNo := d.writeNo + 1 }
/-- Hidden writes that a condition names become visible to readers of the core in front. -/
def State.showTo (s : State) (m : BitVec 7) (p : Stale → Bool) : State :=
  s.mapDev fun d => { d with stale :=
    (d.stale.map fun r => if r.core == s.cnum && p r then { r with hide := r.hide &&& ~~~ m } else r).filter fun r => r.hide != 0 }

/-! ### Store queue of CTL (20 R317) -/

/-- A reader of the SC path at the running word. -/
def State.scLook (s : State) : Option Look := some { bit := Path.sc.bit, pos := s.cur.pos, slot := s.cur.slot, sees := 0 }
/-- A tile access of VEC or ACC by the running word (07 R142). -/
def State.tileLook (s : State) (e : Eng) : Option Look :=
  some { bit := if e = .vec then 5 else 6, pos := s.cur.pos, slot := s.cur.slot, sees := 0 }
/-- A queued store of CTL holds a byte. -/
def StoreEnt.holds (e : StoreEnt) (sp : Bool) (a : Nat) : Bool := e.sp == sp && decide (e.addr ≤ a ∧ a < e.addr + e.bytes.length)
/-- The store that a queued store overlays at a byte, youngest last. -/
def overlayByte (st : List StoreEnt) (sp : Bool) (a : Nat) (old : Byte) : Byte :=
  st.foldl (fun b e => if e.holds sp a then e.bytes.getD (a - e.addr) b else b) old
/-- Bytes that a load of CTL reads at a physical address: memory as its path sees it, overlaid by its own queued stores (R317). -/
def State.loadPhys (s : State) (key : Option (BitVec 512)) (a n : Nat) : List Byte :=
  (List.range n).map fun k => overlayByte s.core.stores false (a + k) (s.seeByte s.scLook key (a + k))
/-- Bytes that a load of CTL reads at a scratchpad key, its own queued stores included. -/
def State.loadSpad (s : State) (key n : Nat) : List Byte :=
  (List.range n).map fun k => overlayByte s.core.stores true (key + k) (s.seeSpad s.scLook (key + k))

/-- A release write leaves who released at which scopes (R319). -/
def Device.setMark (d : Device) (a n : Nat) (m : List (Party × Scope)) : Device :=
  { d with marks := (if m = [] then [] else [{ addr := a, len := n, rels := m }]) ++ d.marks.flatMap fun x => x.cut a n }
/-- The releases that a byte's value comes from (R319). -/
def markAt (ms : List Mark) (a : Nat) : List (Party × Scope) :=
  (ms.filter fun m => decide (m.addr ≤ a ∧ a < m.addr + m.len)).flatMap Mark.rels
/-- The releases that a load of CTL reads: of each byte, those of the write whose value it returns, none for a byte of its own queue
(R317, R322). -/
def State.chainOf (s : State) (sp : Bool) (key : Option (BitVec 512)) (a n : Nat) : List (Party × Scope) :=
  ((List.range n).flatMap fun k =>
    if s.core.stores.any fun e => e.holds sp (a + k) then []
    else match s.staleAt s.scLook sp key (a + k) with
      | some r => markAt r.marks (markKey sp (a + k))
      | none => markAt s.dev.marks (markKey sp (a + k))).dedup

/-- A queued store performed in memory (R317). -/
def State.performStore (s : State) (e : StoreEnt) : State :=
  let s1 := if e.sp then s.putSpad .sc e.addr e.bytes else s.putPhys .sc e.key e.addr e.bytes
  let s2 := if e.rels = [] then s1 else
    s1.mapDev fun d => d.setMark (markKey e.sp e.addr) e.bytes.length (e.rels.map fun sc => (s.party, sc))
  s2.wrote
/-- Every store of CTL performed, oldest first. -/
def State.drainStores (s : State) : State :=
  let s1 := s.core.stores.foldl (fun t e => t.performStore e) s
  s1.mapCore fun c => { c with stores := [] }

/-! ### Scopes (20 R316, R322) -/

/-- Scope S of core p includes core q of its module (R316). -/
def scopeIncludes (sc : Scope) (p q : Nat) : Bool :=
  match sc with
  | .core => p == q
  | .cluster => p / 8 == q / 8
  | .die => p / 64 == q / 64
  | .device | .domain => true
/-- A scope reaches the whole module. -/
def wide (sc : Scope) : Bool := sc == .device || sc == .domain
/-- An operation of a party and one of a core of this module, in a launch, match (R316): a core of another module at DOMAIN in one chart
(R330), another module's host never. -/
def scopesMatch (sc1 : Scope) (p : Party) (sc2 : Scope) (q : Nat) (launch : List Byte) : Bool :=
  match p with
  | .core n _ => scopeIncludes sc1 n q && scopeIncludes sc2 q n
  | .host => wide sc1 && wide sc2
  | .far _ _ l => sc1 == .domain && sc2 == .domain && l == launch && launch != []
  | .farHost => false
/-- The operation of a party matches one of the core in front at a scope. -/
def State.matchesMe (s : State) (m : Party × Scope) (sc : Scope) : Bool := scopesMatch m.2 m.1 sc s.cnum s.chartRaw
/-- An acquire at a scope that has read values released by a chain: a mismatch sets SCOPEMISS (R322); a match with another party bridges to
CTL's later accesses, from where tails and FENCEX go on (R324, 21 R332; log 79). -/
def State.acquireFrom (s : State) (sc : Scope) (chain : List (Party × Scope)) : State :=
  let s1 := if chain.any fun m => !s.matchesMe m sc then s.mapCore fun c => { c with scopemiss := true } else s
  if chain.any fun m => s.matchesMe m sc && (match m.1 with | .core n _ => n != s.cnum | _ => true) then s1.showTo scEye fun _ => true else s1
/-- What a load does with the releases it has read: an acquire judges them; every load keeps them for later acquire fences (R319). -/
def State.noteRead (s : State) (acq : Option Scope) (chain : List (Party × Scope)) : State :=
  let s1 := match acq with
    | some sc => s.acquireFrom sc chain
    | none => s
  if chain = [] then s1 else s1.mapCore fun c => { c with seen := (c.seen ++ chain).dedup }

/-! ### FENCEX (20 R325) -/

/-- A sequencer has passed a position: it stands beyond it, has ended or is detached (R325). -/
def Core.passed (c : Core) (pos slot : Nat) (e : Eng) : Bool :=
  let q := c.seqs.get e
  q.ended || q.detached || posLt pos slot q.pos (if q.entered then slotOf q.pc else 0)
/-- Every sequencer of the core has passed a position (R325). -/
def Core.allPassed (c : Core) (pos slot : Nat) : Bool := engs.all (c.passed pos slot)
/-- An access on a path by a word at a position may be performed: every FENCEX below it whose Y names the path has been passed by
every sequencer, and its covered writes are visible (R325). -/
def Core.pathOpen (c : Core) (p : Path) (pos slot : Nat) : Bool :=
  c.fences.all fun x =>
    !(posLt x.pos x.slot pos slot && x.y.getLsbD p.bit) ||
      (c.allPassed x.pos x.slot && (!x.x.getLsbD 0 || !c.stores.any fun e => posLt e.pos e.slot x.pos x.slot))
/-- Accesses of the running word on some paths: they wait for the FENCEX words below it. The wait is external while a sequencer outside
the lockstep set or a store of CTL holds it, as for the tether (04 R77; log 18). -/
def State.withPaths (s : State) (ps : List Path) (k : State → Out) : Out :=
  let c := s.core
  if ps.all fun p => c.pathOpen p s.cur.pos s.cur.slot then k s
  else
    let away := !c.stores.isEmpty ||
      c.fences.any fun x => posLt x.pos x.slot s.cur.pos s.cur.slot && [.ctl, .cld, .cst, .fab].any fun e => !c.passed x.pos x.slot e
    .next (s.waiting (if away then .external else .internal))
/-- A FENCEX joins those of the core, once, when the first sequencer passes it (R325). -/
def Core.addFence (c : Core) (x : XFence) : Core :=
  if c.fences.any fun y => y.pos == x.pos && y.slot == x.slot then c else { c with fences := c.fences ++ [x] }
/-- FENCEX words that every sequencer has passed, with the covered stores performed, are closed: what they cover is visible to the readers
in Y, and they are forgotten. -/
def State.closeFences (s : State) : State :=
  let done (x : XFence) : Bool :=
    s.core.allPassed x.pos x.slot && (!x.x.getLsbD 0 || !s.core.stores.any fun e => posLt e.pos e.slot x.pos x.slot)
  ((s.core.fences.filter done).foldl (fun t x => t.showTo (x.y.setWidth 7) fun r => x.covers r.path) s).mapCore fun c =>
    { c with fences := c.fences.filter fun x => !done x }
/-- Every path: tile accesses of VEC and ACC count as being on all of them (R314). -/
def allPaths : List Path := [.sc, .cp, .mx, .fb, .st]
/-- CTL's queued stores may all be performed. -/
def Core.storesOpen (c : Core) : Bool := c.stores.all fun e => c.pathOpen .sc e.pos e.slot
/-- A word that performs every older store first: CTL waits while a FENCEX holds one back (R317, R325), and in deterministic mode until they
are performed in their time (22 R337). -/
def State.withDrained (s : State) (k : State → Out) : Out :=
  if s.core.det then (if s.core.stores.isEmpty then k s else .next (s.waiting .internal))
  else if s.core.storesOpen then k s.drainStores else .next (s.waiting .internal)

/-! ### Declared latencies of the SC path (22 R337, 23 R343) -/

/-- A load still reads something. -/
def LoadEnt.open (l : LoadEnt) : Bool := l.src != .done
/-- Cycles from the issue of a load to the reading of its location, as many more to its register. -/
def State.loadLat (s : State) (sp : Bool) (a : Nat) : Nat :=
  if sp then (if a / spadSize = s.cnum then 8 else 32) else if isLpddr a then 800 else 400
/-- Cycles from the issue of a store to its performing. -/
def State.storeLat (s : State) (sp : Bool) (a : Nat) : Nat :=
  if sp then (if a / spadSize = s.cnum then 8 else 32) else if isLpddr a then 1600 else 800
/-- A word whose access is performed some cycles after its issue: CTL issues it when no older access that must come before is performed later
(20 R317; log 85). A load waits so for older loads and atomics, a store for every older access. -/
def State.inOrder (s : State) (lat : Nat) (store : Bool) (k : State → Out) : Out :=
  let t := s.core.later lat
  if s.core.det && (s.core.loads.any (fun l => l.open && decide (t < l.issued + l.lat)) || (store && s.core.stores.any fun e => decide (t < e.due)))
  then .next (s.waiting .internal) else k s

end Sys2Proof.Machine
end

