-- ==== Sys2Proof/Machine/Flags.lean ====
section
/-!
DEFINITION. Counting flags: posts, deferred posts, awaits and async tails (03 R46, R48; 04 R84 to R87).
-/
namespace Sys2Proof.Machine

/-- The count an encoded tail count stands for: 0 means 256 (R46). -/
def tailCount (n : BitVec 8) : Nat := if n = 0 then 256 else n.toNat

/-- TRAPREC5 of FLAGOVF (R370). -/
def flagAux (f : FlagNo) (count n : Nat) : Nat := f.toNat + fld (count % 65536) 16 + fld (n % 65536) 32

/-- A post of `n` fits the flag (R85). -/
def Core.postFits (c : Core) (f : FlagNo) (n : Nat) : Bool := decide (c.flag f + n ≤ 65535)

/-- The record of a deferred post that would overflow: the PC of the POST word or of the command, that word complete (R85). -/
def overflowInfo (c : Core) (e : Eng) (f : FlagNo) (n : Nat) (p : At) : TrapInfo :=
  { eng := e, cause := Cause.flagovf, reason := 0, awd := false, async := true, rulei := false, pc := p.pc, addr := 0,
    ruleid := 0, tsdone := 0, col := 0, row := 0, kstep := 0, slice := 0, aux := BitVec.ofNat 64 (flagAux f (c.flag f) n),
    word := p.word }

/-- A post that does not hold its sequencer takes effect: a POST word of VEC, MAT, CLD, CST or FAB, or a post on completion. One that
would overflow is not applied, and its sequencer takes FLAGOVF asynchronously (R85). -/
def Core.postDeferred (c : Core) (e : Eng) (f : FlagNo) (n : Nat) (p : At) : Core :=
  if c.postFits f n then c.addFlag f n
  else { c with pend := c.pend ++ [{ info := overflowInfo c e f n p, held := .deferredPost, inside := c.aside.isSome }] }

/-- The post clause of a command takes effect (R46, R85). -/
def Core.postClause (c : Core) (e : Eng) (t : Option TailClause) (p : At) : Core :=
  match t with
  | some x => c.postDeferred e x.f (tailCount x.n) p
  | none => c

/-- The flag and count that a word awaits before it may go on (R46, R48). -/
def awaitOf (i : Instr) : Option (FlagNo × Nat) :=
  let tail (t : Tail) : Option (FlagNo × Nat) := t.await.map fun c => (c.f, tailCount c.n)
  match i with
  | .await _ f n => some (f, n.toNat)
  | .awaitTail _ c => some (c.f, tailCount c.n)
  | .mma _ _ _ _ _ _ _ _ t | .mclr _ t | .moutTile _ _ _ _ _ _ _ t | .moutHandle _ _ _ _ _ _ t | .mgate _ _ _ _ _ _ t
  | .mscan _ _ _ _ _ t | .mcarryZ _ t | .mcarryLd _ _ _ t | .mcarrySt _ _ _ t | .dclaim _ _ t | .drel _ _ t | .dqry _ t
  | .mmah _ _ _ _ _ _ _ _ t | .cpy _ _ _ _ _ _ t | .cpyf _ _ _ _ _ t | .cred _ _ _ _ _ _ _ t | .cfil _ _ _ _ _ _ t
  | .ctier _ _ _ _ _ _ t | .ccnt _ _ t | .fcfg _ t | .fbind _ _ _ t | .fbindC _ _ _ t | .fgo _ t | .fbar _ t | .fbarRec _ _ t
  | .fstop t | .fstopRec _ t => tail t
  | _ => none

/-- The word in a sequencer's fetch buffer at its PC (03 R38). -/
def Seq.word? (q : Seq) : Option W128 :=
  match q.fetch with
  | some (b, ws) => if b = blkOf q.pc then ws[slotOf q.pc]? else none
  | none => none

/-- The flag on which a sequencer that has tried its word is waiting. -/
def Seq.awaiting (q : Seq) : Option (FlagNo × Nat) :=
  if q.ended || !q.entered || !q.tried || q.wait.isNone || q.awd then none
  else match q.word? with
    | some w => match decode w with
      | .ok i => awaitOf i
      | .error _ => none
    | none => none

/-- The await of `e` may succeed now: the count suffices, no await on the flag has succeeded in this cycle, and no sequencer of a lower tag
waits on it with its own condition holding (R86, R87). -/
def Core.awaitReady (c : Core) (e : Eng) (f : FlagNo) (n : Nat) : Bool :=
  decide (n ≤ c.flagSeen f) && !c.took.contains f &&
    engs.all fun g => decide (engNo e ≤ engNo g) ||
      match (c.seqs.get g).awaiting with
      | some (f', n') => f' != f || decide (c.flagSeen f < n')
      | none => true

/-- The count an await takes; no other await on the flag succeeds in this cycle (R86, R87). -/
def Core.takeFlag (c : Core) (f : FlagNo) (n : Nat) : Core := { c.setFlag f (c.flag f - n) with took := c.took ++ [f] }

/-- A word with an async tail: its await is performed once, before the word issues (R46). -/
def State.withAwait (s : State) (t : Tail) (k : State → Out) : Out :=
  match t.await with
  | none => k s
  | some a =>
    if s.seq.awd then k s
    else if s.core.awaitReady s.who a.f (tailCount a.n) then
      k ((s.mapCore fun c => c.takeFlag a.f (tailCount a.n)).mapSeq s.who fun q => { q with awd := true })
    else .next (s.waiting .external)

/-- The write number below which a command sees every write through its tail's await (20 R324). -/
def State.tailSees (s : State) (t : Tail) : Nat := if t.await.isSome then s.dev.writeNo else 0

/-- POST of CTL or ACC, precise, a release of CTL's earlier stores (R85). -/
def execPost (_e : Eng) (f : FlagNo) (n : W64) (s : State) : Out :=
  let post (t : State) : Out := .next ((t.mapCore fun c => c.addFlag f n.toNat).complete 1)
  if s.core.postFits f n.toNat then (if s.who = .ctl then s.withDrained post else post s)
  else .next (s.trap { cause := Cause.flagovf, aux := flagAux f (s.core.flag f) n.toNat })

/-- The tile accesses of VEC and ACC after an await of theirs see every write made so far (07 R142); what CTL has awaited its next barrier
releases (02 R30). -/
def State.awaitShows (s : State) (e : Eng) : State :=
  if e = .vec ∨ e = .acc then s.showTo (tileEye e) fun _ => true
  else if e = .ctl then s.mapCore fun c => { c with acqNo := s.dev.writeNo }
  else s
/-- AWAIT of CTL or ACC (R86). -/
def execAwait (_e : Eng) (f : FlagNo) (n : W64) (s : State) : Out :=
  if s.core.awaitReady s.who f n.toNat then .next (((s.mapCore fun c => c.takeFlag f n.toNat).awaitShows s.who).complete 1)
  else .next (s.waiting .external)

/-- The interval of a POST or AWAIT word of a sequencer (R80). -/
def plainInterval (e : Eng) : Nat := if e = .mat then 4 else 1

end Sys2Proof.Machine
end

