-- ==== Sys2Proof/Machine/CtlInt.lean ====
section
/-!
DEFINITION. The integer, compare, select and address words of CTL (05 R89 to R93).
-/
namespace Sys2Proof.Machine

/-- CTL stalls while a register it names has a load outstanding (R90); otherwise it goes on. -/
def State.withRegs (s : State) (rs : List SReg) (k : State → Out) : Out :=
  if rs.any s.busy then .next (s.waiting .internal) else k s

/-- A register written and the word completed. -/
def State.putS (s : State) (d : SReg) (v : W64) : State := (s.setS d v).complete 1

/-- A word of the form s[d] := f(s[a], op2) (R91, R92). -/
def State.alu (s : State) (d a : SReg) (o : Op2) (f : W64 → W64 → W64) : Out :=
  s.withRegs (d :: a :: op2Regs o) fun s => .next (s.putS d (f (s.getS a) (s.op2 o)))

/-- The condition of R64 between two values. -/
def condHolds (c : Cond) (x y : W64) : Bool :=
  match c with
  | .eq => x == y
  | .ne => x != y
  | .lt => x.slt y
  | .ge => y.sle x
  | .ltu => x.ult y
  | .geu => y.ule x
  | .any => (x &&& y) != 0
  | .none => (x &&& y) == 0
  | .al => true

/-- The quotient of R93. -/
def divWord (g : Sgn) (n m : W64) : W64 :=
  if m = 0 then BitVec.allOnes 64
  else match g with
    | .s => BitVec.ofInt 64 (n.toInt.tdiv m.toInt)
    | .u => BitVec.ofNat 64 (n.toNat / m.toNat)

/-- The remainder of R93. -/
def remWord (g : Sgn) (n m : W64) : W64 :=
  if m = 0 then n
  else match g with
    | .s => BitVec.ofInt 64 (n.toInt.tmod m.toInt)
    | .u => BitVec.ofNat 64 (n.toNat % m.toNat)

/-- The high half of the 128-bit product (R92). -/
def mulhWord (k : MulhKind) (x y : W64) : W64 :=
  let p : Int := match k with
    | .ss => x.toInt * y.toInt
    | .uu => (x.toNat * y.toNat : Nat)
    | .su => x.toInt * (y.toNat : Int)
  BitVec.ofInt 64 (p / 2 ^ 64)

/-- x is below y under a signedness. -/
def ltWord (g : Sgn) {w : Nat} (x y : BitVec w) : Bool :=
  match g with
  | .s => x.slt y
  | .u => x.ult y

/-- Leading zero bits (R92). -/
def clzNat (x : W64) : Nat := if x = 0 then 64 else 63 - Nat.log2 x.toNat
/-- Bits set (R92). -/
def popNat (x : W64) : Nat := ((List.range 64).filter x.getLsbD).length

/-- Ones in the low w bits. -/
def lowOnes (w : Nat) : W64 := BitVec.ofNat 64 (2 ^ w - 1)
/-- Bits [pos + w - 1 : pos] extended to 64 bits (R92). -/
def extrWord (g : Sgn) (x : W64) (pos w : Nat) : W64 :=
  let v := (x >>> pos) &&& lowOnes w
  match g with
  | .u => v
  | .s => if v.getLsbD (w - 1) then v ||| ~~~ lowOnes w else v
/-- Bits [pos + w - 1 : pos] replaced (R92). -/
def insrWord (old x : W64) (pos w : Nat) : W64 :=
  (old &&& ~~~ (lowOnes w <<< pos)) ||| ((x &&& lowOnes w) <<< pos)

/-- The shift amount of R92: op2[5:0]. -/
def shAmt (y : W64) : Nat := y.toNat % 64

/-- ADD (R92). -/
def execAdd (d a : SReg) (o : Op2) (s : State) : Out := s.alu d a o fun x y => x + y
/-- SUB (R92). -/
def execSub (d a : SReg) (o : Op2) (s : State) : Out := s.alu d a o fun x y => x - y
/-- MUL (R92). -/
def execMul (d a : SReg) (o : Op2) (s : State) : Out := s.alu d a o fun x y => x * y
/-- MULH (R92). -/
def execMulh (k : MulhKind) (d a : SReg) (o : Op2) (s : State) : Out := s.alu d a o (mulhWord k)
/-- DIV (R93). -/
def execDiv (g : Sgn) (d a : SReg) (o : Op2) (s : State) : Out := s.alu d a o (divWord g)
/-- REM (R93). -/
def execRem (g : Sgn) (d a : SReg) (o : Op2) (s : State) : Out := s.alu d a o (remWord g)
/-- AND (R92). -/
def execAnd (d a : SReg) (o : Op2) (s : State) : Out := s.alu d a o fun x y => x &&& y
/-- OR (R92). -/
def execOr (d a : SReg) (o : Op2) (s : State) : Out := s.alu d a o fun x y => x ||| y
/-- XOR (R92). -/
def execXor (d a : SReg) (o : Op2) (s : State) : Out := s.alu d a o fun x y => x ^^^ y
/-- ANDN (R92). -/
def execAndn (d a : SReg) (o : Op2) (s : State) : Out := s.alu d a o fun x y => x &&& ~~~ y
/-- SHL (R92). -/
def execShl (d a : SReg) (o : Op2) (s : State) : Out := s.alu d a o fun x y => x <<< shAmt y
/-- SHR (R92). -/
def execShr (d a : SReg) (o : Op2) (s : State) : Out := s.alu d a o fun x y => x >>> shAmt y
/-- SRA (R92). -/
def execSra (d a : SReg) (o : Op2) (s : State) : Out := s.alu d a o fun x y => x.sshiftRight (shAmt y)
/-- ROTL (R92). -/
def execRotl (d a : SReg) (o : Op2) (s : State) : Out := s.alu d a o fun x y => x.rotateLeft (shAmt y)
/-- MIN (R92). -/
def execMin (g : Sgn) (d a : SReg) (o : Op2) (s : State) : Out := s.alu d a o fun x y => if ltWord g y x then y else x
/-- MAX (R92). -/
def execMax (g : Sgn) (d a : SReg) (o : Op2) (s : State) : Out := s.alu d a o fun x y => if ltWord g x y then y else x
/-- CLZ (R92). -/
def execClz (d a : SReg) (s : State) : Out :=
  s.withRegs [d, a] fun s => .next (s.putS d (BitVec.ofNat 64 (clzNat (s.getS a))))
/-- POPC (R92). -/
def execPopc (d a : SReg) (s : State) : Out :=
  s.withRegs [d, a] fun s => .next (s.putS d (BitVec.ofNat 64 (popNat (s.getS a))))
/-- SETC (R92, R64). -/
def execSetc (c : Cond) (d a : SReg) (o : Op2) (s : State) : Out := s.alu d a o fun x y => if condHolds c x y then 1 else 0
/-- SEL (R92). -/
def execSel (d c a : SReg) (o : Op2) (s : State) : Out :=
  s.withRegs (d :: c :: a :: op2Regs o) fun s => .next (s.putS d (if s.getS c ≠ 0 then s.getS a else s.op2 o))
/-- MOVI (R92). -/
def execMovi (d : SReg) (v : W64) (s : State) : Out := s.withRegs [d] fun s => .next (s.putS d v)
/-- MOV (R92). -/
def execMov (d a : SReg) (s : State) : Out := s.withRegs [d, a] fun s => .next (s.putS d (s.getS a))
/-- LEA (R92). -/
def execLea (d a : SReg) (o : Op2) (sh : BitVec 6) (s : State) : Out := s.alu d a o fun x y => x + y <<< sh.toNat
/-- EXTR (R92). -/
def execExtr (g : Sgn) (d a : SReg) (pos : BitVec 6) (w : BitVec 7) (s : State) : Out :=
  s.withRegs [d, a] fun s => .next (s.putS d (extrWord g (s.getS a) pos.toNat w.toNat))
/-- INSR, which reads s[d] (R92). -/
def execInsr (d a : SReg) (pos : BitVec 6) (w : BitVec 7) (s : State) : Out :=
  s.withRegs [d, a] fun s => .next (s.putS d (insrWord (s.getS d) (s.getS a) pos.toNat w.toNat))

end Sys2Proof.Machine
end

