-- ==== Sys2Proof/Machine/CtlMem.lean ====
section
/-!
DEFINITION. CTL's memory words: loads, stores, WAITGE, atomics, MARK, FENCE and FENCEX (05 R94, R95; 09 R191; 20 R317 to R328).
-/
namespace Sys2Proof.Machine

/-! ### Bad granules (07 R132, 25 R385) -/

/-- A run of device memory overlaps a bad granule of 64 bytes. -/
def State.badMem (s : State) (a n : Nat) : Bool :=
  ((s.cnum, s.core) :: s.others).any fun c =>
    c.2.bad.any fun b => b.1 == 7 && decide (a / 64 ≤ b.2 / 64 ∧ b.2 / 64 ≤ (a + n - 1) / 64)
/-- A run of scratchpad keys overlaps a bad granule. -/
def State.badSpad (s : State) (k n : Nat) : Bool :=
  (s.coreAt (k / spadSize)).bad.any fun b =>
    b.1 == 0 && decide (k % spadSize / 64 ≤ b.2 / 64 ∧ b.2 / 64 ≤ (k % spadSize + n - 1) / 64)
/-- ECCU at an address, with its structure code (25 R370). -/
def fEccu (a code : Nat) : Flt := { cause := Cause.eccu, addr := a, aux := code }
/-- ECCU where a bad granule of a structure of the core is among those that a predicate names. -/
def Core.badIn (c : Core) (code : BitVec 4) (p : Nat → Bool) : Option Flt :=
  (c.bad.find? fun b => b.1 == code && p b.2).map fun b => fEccu b.2 code.toNat
/-- A word that reads a structure of the core traps where it meets a bad granule (07 R132). -/
def State.withGood (s : State) (code : BitVec 4) (p : Nat → Bool) (k : State → Out) : Out :=
  match s.core.badIn code p with
  | some f => .next (s.trap f)
  | none => k s

/-! ### One access of the SC path -/

/-- Where an access of the SC path lands, judged in the order of 05 R94: range, alignment, translation. -/
def State.scTarget (s : State) (ea n : Nat) (w : Want) : Judged Target :=
  if 2 ^ 52 ≤ ea then .error { cause := Cause.pagef, addr := ea, aux := walkAux w 0 }
  else if ea % n ≠ 0 then .error { cause := Cause.align, addr := ea }
  else s.target ea w
/-- The scratchpad key of an access by offset; a sibling that holds another tenant's bytes is out of reach (05 R95, 07 R130, 01 R17). -/
def State.spTarget (s : State) (off n : Nat) (write : Bool) : Judged Nat :=
  if 2 ^ 26 ≤ off then .error { cause := Cause.perm, addr := off, aux := write.toNat }
  else if off % n ≠ 0 then .error { cause := Cause.align, addr := off }
  else if !s.siblingOk (windowCore s.cnum (off / spadSize)) then .error { cause := Cause.perm, addr := off, aux := write.toNat }
  else .ok (spadOff s.cnum off)
/-- The running word's access on the SC path may be performed (20 R325). -/
def State.withSc (s : State) (k : State → Out) : Out :=
  if s.core.pathOpen .sc s.cur.pos s.cur.slot then k s else .next (s.waiting .internal)
/-- Memory bytes taken from the tenant's budget, or a wait for the next period (23 R349, R350). -/
def State.withBytes (s : State) (n : Nat) (k : State → Out) : Out :=
  if s.memOk n then k (s.memDebit n) else .next (s.waiting .budget)
/-- An access of another module by the running word; a refusal is PERM with bit 2 of TRAPREC5 (25 R380). -/
def State.askRemote (s : State) (rank ea n : Nat) (w : Want) (k : LinkKind) (done : List Byte → List (Party × Scope) → State → Out) : Out :=
  s.askEngine s.who rank n k done (fun s => .next (s.trap { cause := Cause.perm, addr := ea, aux := walkAux w 0 + 4 }))
    fun s => .next (s.waiting (if s.core.replies.get s.who = .none then .budget else .external))

/-- A load outstanding: its value is held until it arrives (05 R90). -/
def State.pushLoad (s : State) (d : SReg) (v : W64) : State :=
  s.mapCore fun c => { c with loads := c.loads ++ [{ d := d, src := .done, val := v, issued := 0, lat := 0 }] }
/-- A store queued at the running word's position; release fences before it make it a release too (20 R317, R319; 22 R337). -/
def State.pushStore (s : State) (sp : Bool) (a : Nat) (key : Option (BitVec 512)) (bs : List Byte) (rel : Option Scope) : State :=
  s.mapCore fun c => { c with stores := c.stores ++
    [{ addr := a, sp := sp, bytes := bs, key := key, rels := rel.toList ++ c.fenceRel, pos := s.cur.pos, slot := s.cur.slot,
       issued := c.later 0, due := c.later (s.storeLat sp a) }] }

/-! ### Loads and stores -/

/-- Bytes of a load (R94). -/
def ldSize (k : LdKind) : Nat :=
  match k with
  | .u8 | .s8 => 1 | .u16 | .s16 => 2 | .u32 | .s32 => 4 | .w64 => 8
/-- The register value of loaded bytes (R94). -/
def ldExt (k : LdKind) (bs : List Byte) : W64 :=
  let v := leNat bs
  match k with
  | .u8 | .u16 | .u32 | .w64 => BitVec.ofNat 64 v
  | .s8 => (BitVec.ofNat 8 v).signExtend 64
  | .s16 => (BitVec.ofNat 16 v).signExtend 64
  | .s32 => (BitVec.ofNat 32 v).signExtend 64
/-- Bytes of a store (R94). -/
def stSize (k : StKind) : Nat :=
  match k with
  | .b8 => 1 | .b16 => 2 | .b32 => 4 | .b64 => 8
/-- The address of a word [s[a] + off] (R94). -/
def State.ea (s : State) (a : SReg) (off : W64) : Nat := (s.getS a + off).toNat

/-! ### Atomics (20 R327, R328) -/

/-- Bytes of an atomic. -/
def atSize (w : AtW) : Nat :=
  match w with
  | .w32 => 4 | .w64 => 8
/-- The acquire scope of an ordering clause. -/
def ordAcq (o : AtOrd) : Option Scope :=
  match o with
  | .acq s | .acqrel s => some s
  | _ => none
/-- The release scope of an ordering clause. -/
def ordRel (o : AtOrd) : Option Scope :=
  match o with
  | .rel s | .acqrel s => some s
  | _ => none

/-- The value an atomic writes, if it writes, from the old value, op2 and s[c], all of its width (R327). -/
def atNew {w : Nat} (op : AtOp) (g : Sgn) (old v c : BitVec w) : Option (BitVec w) :=
  match op with
  | .add => some (old + v)
  | .and => some (old &&& v)
  | .or => some (old ||| v)
  | .xor => some (old ^^^ v)
  | .min => some (if ltWord g v old then v else old)
  | .max => some (if ltWord g old v then v else old)
  | .swp => some v
  | .cas => if old = v then some c else none
/-- The new bytes of an atomic at a width (R327). -/
def atBytes (op : AtOp) (w : AtW) (g : Sgn) (old : List Byte) (v c : W64) : Option (List Byte) :=
  match w with
  | .w32 => (atNew op g (BitVec.ofNat 32 (leNat old)) (v.setWidth 32) (c.setWidth 32)).map fun x => leBytes 4 x.toNat
  | .w64 => (atNew op g (BitVec.ofNat 64 (leNat old)) v c).map fun x => leBytes 8 x.toNat

/-- The releases that the newest bytes of a run come from (R319). -/
def State.marksOf (s : State) (a n : Nat) : List (Party × Scope) :=
  ((List.range n).flatMap fun k => markAt s.dev.marks (a + k)).dedup
/-- An atomic performed at memory, on a path of the core in front or for another module: the old value, and the state with the new one; the
releases it carries join the chain it extends (R319, R328). -/
def State.atomicAt (s : State) (p : Option Path) (key : Option (BitVec 512)) (pa : Nat) (op : AtOp) (w : AtW) (g : Sgn) (v c : W64)
    (rels : List (Party × Scope)) : List Byte × State :=
  let old := s.readPhys key pa (atSize w)
  let chain := s.marksOf pa (atSize w)
  match atBytes op w g old v c with
  | none => (old, s)
  | some bs =>
    let s1 := match p with
      | some p => (s.putPhys p key pa bs).wrote
      | none => s.writePhys key pa bs
    (old, s1.mapDev fun d => d.setMark pa bs.length (chain ++ rels).dedup)
/-- What a load reads now, and the state after it has judged the releases it has read and an atomic has been performed (R94, R328; 20 R319). -/
def State.readLoad (s : State) (x : LdSrc) : W64 × State :=
  match x with
  | .done => (0, s)
  | .mem k pa key acq => (ldExt k (s.loadPhys key pa (ldSize k)), s.noteRead acq (s.chainOf false key pa (ldSize k)))
  | .spad k key acq => (ldExt k (s.loadSpad key (ldSize k)), s.noteRead acq (s.chainOf true none key (ldSize k)))
  | .atomic op w g pa key v c rels acq =>
    let chain := s.marksOf pa (atSize w)
    let p := s.atomicAt (some .sc) key pa op w g v c (rels.map fun sc => (s.party, sc))
    (BitVec.ofNat 64 (leNat p.1), p.2.noteRead acq chain)
/-- A load issued: it is read at once, or in deterministic mode in its time (R317, 22 R337; log 15). -/
def State.startLoad (s : State) (d : SReg) (x : LdSrc) (lat : Nat) : State :=
  if s.core.det then
    s.mapCore fun c => { c with loads := c.loads ++ [{ d := d, src := x, val := 0, issued := c.cycle.toNat, lat := lat }] }
  else let p := s.readLoad x; p.2.pushLoad d p.1

/-- LD (R90, R94, R317). -/
def execLd (k : LdKind) (d a : SReg) (off : W64) (acq : Option Scope) (s : State) : Out :=
  s.withRegs [d, a] fun s => s.withSc fun s =>
  let n := ldSize k
  let ea := s.ea a off
  match s.scTarget ea n .rd with
  | .error f => .next (s.trap f)
  | .ok t =>
    match t.remote with
    | some r => s.askRemote r ea n .rd (.read [(t.phys, n)]) fun bs ch s =>
        .next (((s.noteRead acq ch).pushLoad d (ldExt k bs)).complete 1)
    | none =>
      if s.badMem t.phys n then .next (s.trap (fEccu ea 7))
      else
        let l := s.loadLat false t.phys
        s.inOrder l false fun s => s.withBytes n fun s => .next ((s.startLoad d (.mem k t.phys t.key acq) l).complete 1)

/-- ST: judged now, performed later in store order (R94, R317). -/
def execSt (k : StKind) (a b : SReg) (off : W64) (rel : Option Scope) (s : State) : Out :=
  s.withRegs [a, b] fun s =>
  let n := stSize k
  let ea := s.ea a off
  let bs := leBytes n (s.getS b).toNat
  match s.scTarget ea n .wr with
  | .error f => .next (s.trap f)
  | .ok t =>
    match t.remote with
    | some r =>
      s.withSc fun s => s.withDrained fun s =>
        s.askRemote r ea n .wr (.write [(t.phys, bs)] (rel.toList ++ s.core.fenceRel)) fun _ _ s => .next (s.complete 1)
    | none => s.inOrder (s.storeLat false t.phys) true fun s => s.withBytes n fun s =>
        .next ((s.pushStore false t.phys t.key bs rel).complete 1)

/-- LDSP (R95). -/
def execLdsp (k : LdKind) (d a : SReg) (off : W64) (acq : Option Scope) (s : State) : Out :=
  s.withRegs [d, a] fun s => s.withSc fun s =>
  let n := ldSize k
  let off := s.ea a off
  match s.spTarget off n false with
  | .error f => .next (s.trap f)
  | .ok key =>
    if s.badSpad key n then .next (s.trap (fEccu off 0))
    else
      let l := s.loadLat true key
      s.inOrder l false fun s => .next ((s.startLoad d (.spad k key acq) l).complete 1)

/-- STSP (R95). -/
def execStsp (k : StKind) (a b : SReg) (off : W64) (rel : Option Scope) (s : State) : Out :=
  s.withRegs [a, b] fun s =>
  let n := stSize k
  match s.spTarget (s.ea a off) n true with
  | .error f => .next (s.trap f)
  | .ok key => s.inOrder (s.storeLat true key) true fun s =>
      .next ((s.pushStore true key none (leBytes n (s.getS b).toNat) rel).complete 1)

/-- Older accesses that a load must follow have been performed: every older load, and for an atomic every older store (R317). -/
def Core.loadTurn (c : Core) (l : LoadEnt) (older : List LoadEnt) : Bool :=
  older.all (fun x => !x.open) && match l.src with
    | .atomic .. => c.stores.all fun e => decide (l.issued ≤ e.issued)
    | _ => true
/-- A load reads its location in its time: of CTL's own queued stores it sees those older than itself (R317, 22 R337). -/
def State.sampleLoad (s : State) (l : LoadEnt) : W64 × State :=
  let p := (s.mapCore fun c => { c with stores := c.stores.filter fun e => decide (e.issued < l.issued) }).readLoad l.src
  (p.1, p.2.mapCore fun c => { c with stores := s.core.stores, scDone := s.core.cycle.toNat })
/-- The oldest outstanding load of a register arrives there (R90); in deterministic mode it is read and arrives in its time (22 R337, 23
R343). -/
def execEvLoadResultArrive (d : SReg) (s : State) : Out :=
  let older := s.core.loads.takeWhile fun l => l.d != d
  match s.core.loads.drop older.length with
  | [] => .next s
  | l :: rest =>
    if l.open then
      if s.core.reached (l.issued + l.lat) && s.core.loadTurn l older then
        let p := s.sampleLoad l
        .next (p.2.mapCore fun c => { c with loads := older ++ { l with src := .done, val := p.1 } :: rest })
      else .next s
    else if s.core.reached (l.issued + 2 * l.lat) then .next ((s.setS d l.val).mapCore fun c => { c with loads := older ++ rest })
    else .next s

/-- The oldest queued store of CTL is performed (R317), unless a FENCEX holds it back (R325); in deterministic mode in its time (22 R337). -/
def execEvStorePerformed (s : State) : Out :=
  match s.core.stores with
  | [] => .next s
  | e :: r =>
    if s.core.pathOpen .sc e.pos e.slot && s.core.reached e.due && !(s.core.loads.any fun l => l.open && decide (l.issued < e.issued)) then
      .next ((s.performStore e).mapCore fun c => { c with stores := r, scDone := if c.det then c.cycle.toNat else c.scDone })
    else .next s

/-! ### WAITGE (09 R191) -/

/-- The running word keeps the cycle for which it waits, and what it has sampled (22 R337, 23 R343). -/
def State.timed (s : State) (n : Nat) (got : Option (List Byte)) (w : Wait) : Out :=
  .next ((s.mapSeq s.who fun q => { q with dec := .timed n got }).waiting w)
/-- WAITGE in deterministic mode: the first sample 400 cycles after its issue, then one every 64, and its completion 400 cycles after the one
that satisfies it (23 R343). -/
def State.sampleTimed (s : State) (d : SReg) (key : Option (BitVec 512)) (pa : Nat) (v : W64) (sc : Scope) : Out :=
  let now := s.core.cycle.toNat
  match s.seq.dec with
  | .timed n (some bs) => if now < n then .next (s.waiting .external) else .next (s.putS d (BitVec.ofNat 64 (leNat bs)))
  | .timed n none =>
    if now < n then .next (s.waiting .external)
    else s.withBytes 8 fun s =>
      let bs := s.loadPhys key pa 8
      if v.toNat ≤ leNat bs then (s.noteRead (some sc) (s.chainOf false key pa 8)).timed (now + 400) (some bs) .external
      else s.timed (now + 64) none .external
  | _ => s.inOrder 400 false fun s => s.timed (now + 400) none .external
/-- One sample of WAITGE: it completes as an acquire when the value is at least op2, unsigned. Every sample takes its bytes from the tenant's
budget (23 R349). -/
def State.sampleGe (s : State) (d a : SReg) (o : Op2) (sc : Scope) : Out :=
  s.withRegs (d :: a :: op2Regs o) fun s => s.withSc fun s =>
  let ea := (s.getS a).toNat
  match s.scTarget ea 8 .rd with
  | .error f => .next (s.trap f)
  | .ok t =>
    match t.remote with
    | some r => s.askRemote r ea 8 .rd (.read [(t.phys, 8)]) fun bs ch s =>
        let v : W64 := BitVec.ofNat 64 (leNat bs)
        if (s.op2 o).ule v then .next ((s.noteRead (some sc) ch).putS d v) else .next (s.waiting .external)
    | none =>
      if s.badMem t.phys 8 then .next (s.trap (fEccu ea 7))
      else if s.core.det then s.sampleTimed d t.key t.phys (s.op2 o) sc
      else s.withBytes 8 fun s =>
        let v : W64 := BitVec.ofNat 64 (leNat (s.loadPhys t.key t.phys 8))
        if (s.op2 o).ule v then .next ((s.noteRead (some sc) (s.chainOf false t.key t.phys 8)).putS d v)
        else .next (s.waiting .external)

/-- WAITGE (R191). -/
def execWaitge (d a : SReg) (o : Op2) (sc : Scope) (s : State) : Out := s.sampleGe d a o sc

/-- The word at which a sequencer stands in an entered block, run as that sequencer's (R57). -/
def State.standAt (s : State) (e : Eng) : Option (Instr × State) :=
  let q := s.core.seqs.get e
  if q.ended || !q.entered || q.closing then none
  else match q.word? with
    | none => none
    | some w =>
      match decode w with
      | .error _ => none
      | .ok i => some (i, { s with who := e, cur := { word := w, pc := q.pc, pos := q.pos, slot := slotOf q.pc } })

/-- A waiting WAITGE of CTL samples again (R191). -/
def execEvWaitgeSatisfy (s : State) : Out :=
  match s.standAt .ctl with
  | some (.waitge d a o sc, t) => if t.seq.wait.isSome then t.sampleGe d a o sc else .next s
  | _ => .next s

/-- An atomic of CTL (R328): older accesses are performed first; the old value goes to s[d]. -/
def State.atomic (s : State) (op : AtOp) (w : AtW) (g : Sgn) (d a : SReg) (cr : Option SReg) (o : Op2) (ord : AtOrd) : Out :=
  s.withRegs ((d :: a :: cr.toList) ++ op2Regs o) fun s => s.withSc fun s =>
  let ea := (s.getS a).toNat
  let c := (cr.map s.getS).getD 0
  match s.scTarget ea (atSize w) .rdwr with
  | .error f => .next (s.trap f)
  | .ok t =>
    match t.remote with
    | some r => s.withDrained fun s =>
      s.askRemote r ea (atSize w) .rdwr (.atomic op w g t.phys (s.op2 o) c ((ordRel ord).toList ++ s.core.fenceRel)) fun bs ch s =>
        .next (((s.noteRead (ordAcq ord) ch).pushLoad d (BitVec.ofNat 64 (leNat bs))).complete 1)
    | none =>
      (if s.core.det then s.inOrder 800 true else s.withDrained) fun s =>
      if s.badMem t.phys (atSize w) then .next (s.trap (fEccu ea 7))
      else s.withBytes (atSize w) fun s =>
        .next ((s.startLoad d (.atomic op w g t.phys t.key (s.op2 o) c ((ordRel ord).toList ++ s.core.fenceRel) (ordAcq ord)) 800).complete 1)

/-- ATADD (R327). -/
def execAtadd (w : AtW) (d a : SReg) (o : Op2) (ord : AtOrd) (s : State) : Out := s.atomic .add w .u d a none o ord
/-- ATAND (R327). -/
def execAtand (w : AtW) (d a : SReg) (o : Op2) (ord : AtOrd) (s : State) : Out := s.atomic .and w .u d a none o ord
/-- ATOR (R327). -/
def execAtor (w : AtW) (d a : SReg) (o : Op2) (ord : AtOrd) (s : State) : Out := s.atomic .or w .u d a none o ord
/-- ATXOR (R327). -/
def execAtxor (w : AtW) (d a : SReg) (o : Op2) (ord : AtOrd) (s : State) : Out := s.atomic .xor w .u d a none o ord
/-- ATMIN (R327). -/
def execAtmin (w : AtW) (g : Sgn) (d a : SReg) (o : Op2) (ord : AtOrd) (s : State) : Out := s.atomic .min w g d a none o ord
/-- ATMAX (R327). -/
def execAtmax (w : AtW) (g : Sgn) (d a : SReg) (o : Op2) (ord : AtOrd) (s : State) : Out := s.atomic .max w g d a none o ord
/-- ATSWP (R327). -/
def execAtswp (w : AtW) (d a : SReg) (o : Op2) (ord : AtOrd) (s : State) : Out := s.atomic .swp w .u d a none o ord
/-- ATCAS (R327): s[c] is written where the old value equals op2. -/
def execAtcas (w : AtW) (d a c : SReg) (o : Op2) (ord : AtOrd) (s : State) : Out := s.atomic .cas w .u d a (some c) o ord

/-! ### MARK, FENCE and FENCEX (20 R318, R325, R326) -/

/-- MARK: every older access is performed before every younger one (R318). -/
def execMark (s : State) : Out := s.withDrained fun s => .next (s.complete 1)

/-- An SC fence takes its place in the total order: the writes before every earlier fence that it matches are visible from then on to CTL's
loads (R321). A mismatch sets nothing (R322). -/
def State.takeScFence (s : State) (sc : Scope) : State :=
  let before := s.dev.scFences.filter fun f => s.matchesMe (f.1, f.2.1) sc
  let s1 := if before = [] then s else s.showTo scEye fun r => before.any fun f => decide (r.id < f.2.2)
  s1.mapDev fun d => { d with scFences := (s.party, sc, d.writeNo) :: d.scFences.filter fun f => f.1 != s.party || f.2.1 != sc }
/-- Every load has been read. -/
def Core.loadsRead (c : Core) : Bool := c.loads.all fun l => !l.open
/-- An SC fence that has waited since a cycle completes now in deterministic mode: 32 cycles after the later of its issue and the performing
of every older access (22 R337). -/
def Core.fenceDone (c : Core) (since : Nat) : Bool :=
  c.stores.isEmpty && c.loadsRead && decide (max since c.scDone + 32 ≤ c.cycle.toNat)
/-- CTL stands at an SC fence that completes in this cycle. -/
def Core.fenceDue (c : Core) : Bool :=
  match c.seqs.ctl.word?.map decode, c.seqs.ctl.dec with
  | some (.ok (.fence .sc _)), .timed n _ => c.fenceDone n
  | _, _ => false
/-- An SC fence in deterministic mode: of those that complete in one cycle the lowest core's comes first (22 R337). -/
def State.fenceTimed (s : State) (k : State → Out) : Out :=
  let now := s.core.cycle.toNat
  let since := match s.seq.dec with | .timed n _ => n | _ => now
  let first := s.tasked.all fun c => decide (s.cnum ≤ c.1) || c.2.task.map Task.ctx != s.core.task.map Task.ctx || !c.2.fenceDue
  if s.core.fenceDone since && first then k s else s.timed since none .internal
/-- FENCE (R326): a release fence makes later stores releases; an acquire fence judges what every earlier load has read (R319, R322); an SC
fence performs every older access first, and is both. -/
def execFence (k : FenceKind) (sc : Scope) (s : State) : Out :=
  let acq (t : State) : State := t.acquireFrom sc t.core.seen
  let rel (t : State) : State := t.mapCore fun c => { c with fenceRel := (sc :: c.fenceRel).dedup }
  let read (k : State → Out) : Out := if s.core.loadsRead then k s else .next (s.waiting .internal)
  match k with
  | .acq => read fun s => .next ((acq s).complete 1)
  | .rel => .next ((rel s).complete 1)
  | .acqrel => read fun s => .next ((rel (acq s)).complete 1)
  | .sc => (if s.core.det then s.fenceTimed else s.withDrained) fun s => .next ((rel ((acq s).takeScFence sc)).complete 1)

/-- FENCEX: CTL does not wait; later accesses of the paths in Y do (R325). -/
def execFencex (x y : BitVec 5) (s : State) : Out :=
  .next ((s.mapCore fun c => c.addFence { pos := s.cur.pos, slot := s.cur.slot, x := x, y := y }).complete 1)

end Sys2Proof.Machine
end

