-- ==== Sys2Proof/Machine/Open.lean ====
section
/-!
DEFINITION. Tensor handles (03 R53, R54) and open-tensor records: claims, presence and holds (16 R266 to R272).
-/
namespace Sys2Proof.Machine

/-! ### Handle fields (R53) -/

/-- Bits of a handle as a number. -/
def hBits (h : W256) (lo len : Nat) : Nat := (h.extractLsb' lo len).toNat
/-- Bits of a handle replaced. -/
def setHBits (h : W256) (lo len v : Nat) : W256 :=
  let m : W256 := BitVec.ofNat 256 ((2 ^ len - 1) * 2 ^ lo)
  (h &&& ~~~ m) ||| BitVec.ofNat 256 (v % 2 ^ len * 2 ^ lo)
/-- A two's complement field. -/
def sextNat (x n : Nat) : Int := if 2 ^ (n - 1) ≤ x then (x : Int) - 2 ^ n else x

/-- BASE. -/
def hBase (h : W256) : Nat := hBits h 0 52
/-- SPC: 0 virtual, 1 scratchpad, 2 drawer, 3 stream end. -/
def hSpc (h : W256) : Nat := hBits h 52 2
/-- FMT. -/
def hFmt (h : W256) : Nat := hBits h 54 6
/-- RANK. -/
def hRank (h : W256) : Nat := hBits h 60 3
/-- OPEN. -/
def hOpen (h : W256) : Bool := hBits h 63 1 == 1
/-- EXTk. -/
def hExt (h : W256) (k : Nat) : Nat := hBits h (64 + 16 * k) 16
/-- OTID. -/
def hOtid (h : W256) : Nat := hBits h 160 7
/-- TAG. -/
def hTag (h : W256) : Bool := hBits h 167 1 == 1
/-- SSH. -/
def hSsh (h : W256) : Nat := hBits h 168 3
/-- STRk of axes 0 to 4, in its own unit. -/
def hStr (h : W256) (k : Nat) : Int := sextNat (hBits h (171 + 17 * k) 17) 17

/-- Element size of a FMT (R54); a reserved FMT has none. -/
def fmtSize (f : Nat) : Option Nat :=
  match f with
  | 0 | 1 => some 4
  | 2 => some 2
  | 3 => some 1
  | 8 => some 64
  | _ => none
/-- Element size of a handle. -/
def hEsize (h : W256) : Nat := (fmtSize (hFmt h)).getD 1
/-- The used axes, outermost first (R54). -/
def hAxes (h : W256) : List Nat := (List.range 6).filter fun k => decide (6 - hRank h ≤ k)
/-- The product of some extents. -/
def extProd (h : W256) (ks : List Nat) : Nat := ks.foldl (fun n k => n * hExt h k) 1
/-- Element count (09 R176). -/
def hCount (h : W256) : Nat := extProd h (hAxes h)
/-- Outermost used axis. -/
def hOuter (h : W256) : Nat := 6 - hRank h
/-- Element count of a slice, one index of the outermost used axis (16 R266). -/
def hSlice (h : W256) : Nat := extProd h ((hAxes h).drop 1)
/-- Step of an axis in bytes (R54). -/
def hStep (h : W256) (k : Nat) : Int := if k = 5 then (hEsize h : Int) else hStr h k * (64 * 2 ^ hSsh h : Nat)

/-- The offset from BASE of the element of an index within some axes, innermost varying fastest (R54, 09 R176). -/
def axesOff (h : W256) : List Nat → Nat → Int
  | [], _ => 0
  | k :: ks, n =>
    let inner := extProd h ks
    ((n / inner : Nat) : Int) * hStep h k + axesOff h ks (n % inner)
/-- Offset from BASE of element k of the pattern. -/
def elemOff (h : W256) (k : Nat) : Int := axesOff h (hAxes h) k
/-- Offset from BASE of element j of slice n, stored at its ring position (R54, 16 R273). -/
def sliceOff (h : W256) (n j : Nat) : Int :=
  ((n % hExt h (hOuter h) : Nat) : Int) * hStep h (hOuter h) + axesOff h ((hAxes h).drop 1) j

/-- What a tensor handle must be at use, but for its space and alignment: rank, format, record number, tag, base bits (R54). -/
def handleForm (h : W256) : Bool :=
  let r := hRank h
  decide (1 ≤ r ∧ r ≤ 6) && (fmtSize (hFmt h)).isSome && !(hOpen h && decide (32 ≤ hOtid h)) &&
    !(hTag h && hSpc h != 1) && !(hSpc h == 1 && decide (2 ^ 26 ≤ hBase h)) && !(hSpc h == 2 && decide (32 ≤ hBase h)) &&
    !(hSpc h == 2 && hFmt h != 8)
/-- A tensor handle of an accepted space passes the checks that raise ILLOP (R54). -/
def handleOk (h : W256) (spcs : List Nat) : Bool := spcs.contains (hSpc h) && handleForm h
/-- A handle of memory or scratchpad with a misaligned BASE (R54). -/
def handleAligned (h : W256) : Bool := hSpc h == 2 || hBase h % hEsize h == 0
/-- A list of handles judged at use: every ILLOP before any ALIGN (R50, R54). -/
def judgeHandles (hs : List (W256 × List Nat)) : Judged Unit :=
  if !(hs.all fun x => handleOk x.1 x.2) then .error fIllop
  else match hs.find? fun x => !handleAligned x.1 with
    | some x => .error { cause := Cause.align, addr := hBase x.1 }
    | none => .ok ()

/-! ### Open-tensor records (16 R266 to R272) -/

/-- A record. -/
def Core.orec (c : Core) (n : Nat) : OpenRec := c.recs.getD n OpenRec.reset
/-- A record changed. -/
def Core.mapRec (c : Core) (n : Nat) (f : OpenRec → OpenRec) : Core := { c with recs := modAt c.recs n f }

/-- Port numbers below 8 are inputs (15 R253). -/
def Bind.isInput (b : Bind) : Bool := decide (b.port < 8)
/-- The records a rule reads (R273). -/
def Rule.reads (r : Rule) : List Nat :=
  (r.trigRec.map Fin.val).toList ++ (r.binds.filter fun b => b.isInput && hOpen b.opnd.h).map fun b => hOtid b.opnd.h
/-- The records a rule writes (R273). -/
def Rule.writes (r : Rule) : List Nat :=
  (r.outRec.map Fin.val).toList ++ (r.binds.filter fun b => !b.isInput && hOpen b.opnd.h).map fun b => hOtid b.opnd.h
/-- The almanac's rules with their numbers. -/
def Core.ruleList (c : Core) : List (Nat × Rule) :=
  (List.range 32).filterMap fun k => ((c.rules.getD k none).map fun r => (k, r))
/-- A rule's range includes a slice. -/
def Rule.covers (r : Rule) (n : Nat) : Bool := decide (r.n0 ≤ n) && r.last.all fun l => decide (n ≤ l)

/-- The ring position of a slice is held (R269). -/
def Core.sliceHeld (c : Core) (o n : Nat) : Bool :=
  (c.ruleList.any fun r => r.2.reads.contains o && r.2.covers n && decide (r.2.retired ≤ n)) ||
    (c.orec o).readers.any fun x => decide (x.1 ≤ n ∧ n < x.1 + x.2)
/-- A producer may write slice n (R269). -/
def Core.mayWrite (c : Core) (o n : Nat) : Bool :=
  let r := c.orec o
  decide (n < r.cap) || (decide (n - r.cap < r.p) && !c.sliceHeld o (n - r.cap))

/-- Presence advances over completed slices (R267). -/
def OpenRec.advance (r : OpenRec) : Nat → OpenRec
  | 0 => r
  | k + 1 => if r.complete.contains r.p then { r with p := r.p + 1, complete := r.complete.filter (· != r.p) }.advance k else r

/-- A CLOSED record becomes FREE (R272). -/
def Core.freeRecs (c : Core) : Core :=
  { c with recs := (List.range c.recs.length).map fun o =>
      let r := c.orec o
      if r.st = .closed ∧ r.p = r.w ∧ r.readers = [] ∧
          !(c.ruleList.any fun x => x.2.reads.contains o || x.2.writes.contains o) then OpenRec.reset
      else r }

/-- A rule leaves the almanac: its output's producer kind returns to none, and with `close` its output closes at W (R268, R272). -/
def Core.freeRule (c : Core) (id : Nat) (close : Bool) : Core :=
  match c.rules.getD id none with
  | none => c
  | some r =>
    let c1 := r.writes.foldl (fun d o => d.mapRec o fun x =>
      { x with prod := if x.prod = .rule then .none else x.prod, st := if close && x.st == .opened then .closed else x.st }) c
    { c1 with rules := c1.rules.set id none }

/-- The final count that ends a rule: the least of the CLOSED records it reads. -/
def Core.finalOf (c : Core) (r : Rule) : Option Nat :=
  (r.reads.filterMap fun o => let x := c.orec o; if x.st = .closed then some x.w else none).min?
/-- A rule has an instance in flight, or one set aside while the handler runs. -/
def Core.instOut (c : Core) (id : Nat) : Bool :=
  ((c.rules.getD id none).any fun r => r.inst.isSome) || c.aside.any fun a => (a.insts.getD id none).isSome
/-- A rule with no instance in flight has done all it ever will: beyond `last`, or beyond its trigger's final count (R272). -/
def Core.ruleDone (c : Core) (id : Nat) (r : Rule) : Bool :=
  !c.instOut id && r.st == .active &&
    ((match r.last with | some l => decide (l < r.next) | none => false) ||
      (match c.finalOf r with | some n => decide (n ≤ r.next) | none => false))
/-- Rules that are done are freed, and records with them, over and over: closing goes down a chain of rules (R272). -/
def Core.sweepRules (c : Core) : Nat → Core
  | 0 => c.freeRecs
  | k + 1 =>
    match c.ruleList.find? fun x => c.ruleDone x.1 x.2 with
    | none => c.freeRecs
    | some x =>
      let byClose := match c.finalOf x.2 with | some n => decide (n ≤ x.2.next) | none => false
      (c.freeRule x.1 byClose).sweepRules k
/-- The almanac and the records brought to rest. -/
def Core.sweep (c : Core) : Core := c.sweepRules 32

/-- A slice completed by its producer (R267). -/
def Core.completeSlice (c : Core) (o n : Nat) : Core :=
  (c.mapRec o fun r => { r with complete := n :: r.complete }.advance (r.complete.length + 1)).sweep

/-- A handle with OPEN = 1 is checked against its record (R266). -/
def Core.checkOpen (c : Core) (h : W256) (reader : Bool) : Judged Unit :=
  let r := c.orec (hOtid h)
  if !(r.st == .opened || (reader && r.st == .closed)) then .error (fRule 0x03)
  else if hExt h (hOuter h) ≠ r.cap then .error (fRule 0x08)
  else .ok ()

/-- A program reader claims m slices (R266, R270): the first of them. -/
def Core.claimRead (c : Core) (o m : Nat) : Judged (Nat × Core) :=
  let r := c.orec o
  if r.rc + r.cap < r.w then .error (fRule 0x05)
  else if 2 ^ 32 - 1 < r.rc + m ∨ (r.st = .closed ∧ r.w < r.rc + m) then .error (fRule 0x07 (r.rc + m))
  else .ok (r.rc, c.mapRec o fun x => { x with rc := x.rc + m, readers := x.readers ++ [(r.rc, m)] })
/-- A program producer claims m slices (R266 to R268): the first of them. -/
def Core.claimWrite (c : Core) (o m : Nat) : Judged (Nat × Core) :=
  let r := c.orec o
  if r.prod = .rule then .error (fRule 0x04)
  else if 2 ^ 32 - 1 < r.w + m then .error (fRule 0x07 (r.w + m))
  else .ok (r.w, c.mapRec o fun x => { x with w := x.w + m, prod := .program })
/-- A program reader has retired: its slices are no longer held by it (R269). -/
def Core.dropReader (c : Core) (o first m : Nat) : Core :=
  (c.mapRec o fun x => { x with readers := x.readers.erase (first, m) }).sweep

end Sys2Proof.Machine
end

