-- ==== Sys2Proof/Machine/Operands.lean ====
section
/-!
DEFINITION. Tensor operands of commands: patterns, resolution, pins, reading and writing elements (09 R176 to R190); the tag table
(07 R133, R134); drawers (13 R220 to R223).
-/
namespace Sys2Proof.Machine

/-! ### Tags (07 R133, R134) -/

/-- Bytes of a tag line. -/
def lineSize : Nat := 4096
/-- The line of the tagged region that holds a key. -/
def Core.tagLine (c : Core) (key : Nat) : Option Nat :=
  (List.range 1024).find? fun i => let t := c.tags.getD i TagEnt.reset; t.valid && t.key.toNat == key

/-! ### Elements of a pattern -/

/-- Offset from BASE of element k of an operand. -/
def Operand.off (o : Operand) (k : Nat) : Int :=
  if o.ring then sliceOff o.h (o.slice + k / hSlice o.h) (k % hSlice o.h) else elemOff o.h k
/-- Address of element k of an operand (R54). -/
def Operand.addr (o : Operand) (k : Nat) : Int := (hBase o.h : Int) + o.off k

/-- The runs of an operand: first element, address and bytes of each stretch along axis 5. -/
def Operand.runs (o : Operand) : List (Nat × Int × Nat) :=
  let w := max 1 (if 2 ≤ hRank o.h || !o.ring then hExt o.h 5 else 1)
  (List.range ((o.count + w - 1) / w)).map fun r => (r * w, o.addr (r * w), min w (o.count - r * w) * hEsize o.h)

/-- The addresses at which a run first meets each chunk of 2^sh bytes. -/
def chunkStarts (sh a n : Nat) : List Nat :=
  if n = 0 then [] else a :: (List.range ((a + n - 1) / 2 ^ sh - a / 2 ^ sh)).map fun k => (a / 2 ^ sh + k + 1) * 2 ^ sh

/-- Least address met in each chunk by the elements of an operand at addresses from 0 on. -/
def Operand.touch (o : Operand) (sh : Nat) : List Nat :=
  let all := (o.runs.filter fun r => 0 ≤ r.2.1).flatMap fun r => chunkStarts sh r.2.1.toNat r.2.2
  all.foldl (fun acc a =>
    match acc.find? fun b => b / 2 ^ sh == a / 2 ^ sh with
    | some b => if a < b then a :: acc.filter (· != b) else acc
    | none => a :: acc) []

/-- Some element lies below 0 or reaches past a bound: the least such address. -/
def Operand.outside (o : Operand) (bound : Nat) : Option Int :=
  (o.runs.filterMap fun r =>
    if r.2.1 < 0 then some r.2.1
    else if (bound : Int) < r.2.1 + r.2.2 then some (max r.2.1 ((bound : Int) - (bound - r.2.1) % hEsize o.h)) else none).min?

/-- An address in a trap record, modulo 2^64. -/
def recAddr (a : Int) : Nat := (a % 2 ^ 64).toNat

/-! ### Translation at resolution (09 R185) -/

/-- One page translated for a command, or a fault. -/
def State.page (s : State) (a : Nat) (w : Want) : Judged PageTr :=
  if 2 ^ 52 ≤ a then .error { cause := Cause.pagef, addr := a, aux := walkAux w 0 }
  else match s.target a w with
    | .error f => .error f
    | .ok t => .ok { vpage := a / 65536, sh := 16, phys := t.phys - a % 65536, key := t.key, remote := t.remote }

/-- The operand's addresses and how each is used, one for each 64 KiB page it touches. -/
def Operand.wants (o : Operand) (w : Want) : List (Nat × Want) :=
  ((o.runs.filter fun r => r.2.1 < 0).map fun r => (recAddr r.2.1, w)) ++ (o.touch 16).map fun a => (a, w)

/-- The lowest faulting address, PAGEF before PERM (R185). -/
def firstFault (fs : List Flt) : Option Flt :=
  let least (l : List Flt) : Option Flt := l.foldl (fun acc f => match acc with
    | none => some f
    | some g => if f.addr < g.addr then some f else some g) none
  match least (fs.filter fun f => f.cause == Cause.pagef) with
  | some f => some f
  | none => least fs

/-- Size exponent of the mapping's page at an address, or of the hole there; the index of its key where a page is mapped. -/
def State.pageAt (s : State) (va : Nat) : List (Nat × Nat × Nat) → Nat → Nat × Option Nat
  | [], _ => (16, none)
  | (_, sh, wid) :: rest, table =>
    let e := leNat (s.readPhys (s.dev.key 0) (table + 8 * (va / 2 ^ sh % 2 ^ wid)) 8)
    if e % 2 = 0 then (sh, none)
    else if e / 2 % 2 = 1 then (sh, some (e / 2 ^ 12 % 16 * 64 + e / 2 ^ 6 % 64))
    else s.pageAt va rest (e / 2 ^ 12 % 2 ^ 37 * 2 ^ 12)
/-- The page of the running tenant's mapping at an address. -/
def State.mapPage (s : State) (va : Nat) : Nat × Option Nat := s.pageAt va walkLevels ((s.dev.tenant s.tenantNo).root.toNat * 2 ^ 12)

/-- A counter's page, with the whole page of the mapping that it pins (R185, R188). -/
def State.counterPage (s : State) (a : Nat) (p : PageTr) : PageTr :=
  let y := s.mapPage a
  { p with vpage := a / 2 ^ y.1 * 2 ^ y.1 / 65536, sh := y.1 }

/-- Pages of the mapping that meet the addresses from p to hi, and where the walk stands. -/
def State.walkPages (s : State) (hi : Nat) : Nat → Nat → List PageTr → List PageTr × Nat
  | 0, p, l => (l, p)
  | fuel + 1, p, l =>
    if hi < p then (l, p)
    else
      let x := s.mapPage p
      let base := p / 2 ^ x.1 * 2 ^ x.1
      s.walkPages hi fuel (base + 2 ^ x.1) (match x.2 with
        | some k => { vpage := base / 65536, sh := x.1, phys := 0, key := s.dev.key k, remote := none } :: l
        | none => l)

/-- The lowest and highest byte addresses of an operand, by its extents and signed strides (R185). -/
def Operand.range (o : Operand) : Option (Nat × Nat) :=
  match o.runs with
  | [] => none
  | r :: rs => some (rs.foldl (fun m x => (min m.1 x.2.1.toNat, max m.2 (x.2.1.toNat + x.2.2 - 1)))
      (r.2.1.toNat, r.2.1.toNat + r.2.2 - 1))

/-- Pages in the union of spans, lowest range first (R185). -/
def State.spanOf (s : State) (ranges : List (Nat × Nat)) : List PageTr :=
  ((ranges.mergeSort fun a b => decide (a.1 ≤ b.1)).foldl (fun (acc : List PageTr × Nat) r =>
    let c := s.walkPages r.2 ((r.2 - r.1) / 65536 + 2) (max r.1 acc.2) acc.1
    (c.1, max acc.2 c.2)) ([], 0)).1

/-- Every page of a command's patterns in virtual space and of its counter: PAGEF, then PERM, then SPAN (R185). The pages that elements
touch come with each pattern, those of the whole span with the first. -/
def State.translate (s : State) (os : List (Operand × Want)) (cnt : Option Nat) (more : List Flt) :
    Judged (List (List PageTr) × Option PageTr) :=
  let va := os.filter fun x => hSpc x.1.h == 0
  let pages := os.map fun x => if hSpc x.1.h = 0 then (x.1.wants x.2).map fun w => s.page w.1 w.2 else []
  let cp := cnt.map fun a => s.page a .rdwr
  let faults := (pages.flatten ++ cp.toList).filterMap fun p => match p with
    | .error f => some f
    | .ok _ => none
  match firstFault (faults ++ more) with
  | some f => .error f
  | none =>
    let ranges := (va.filterMap fun x => x.1.range) ++ (cnt.map fun a => (a, a + 7)).toList
    let span := s.spanOf ranges
    let n := span.length
    let lo := (ranges.map Prod.fst).min?.getD 0
    let base := let x := s.mapPage lo; lo / 2 ^ x.1 * 2 ^ x.1
    if 1024 < n then .error { cause := Cause.span, addr := base, aux := min n (2 ^ 32 - 1) }
    else
      let good (l : List (Judged PageTr)) : List PageTr := l.filterMap fun p => match p with
        | .ok x => some x
        | .error _ => none
      .ok (modAt (pages.map good) 0 (· ++ span), cnt.bind fun a => cp.bind fun p => match p with
        | .ok x => some (s.counterPage a x)
        | .error _ => none)

/-- The tag lines of a tagged operand, or PERM beyond tag space, or TAGMISS at the lowest missing address (07 R134); a lookup reads the whole
table, so that a damaged entry raises ECCU (R132; log 74). -/
def Core.tagLines (c : Core) (o : Operand) : Judged (List (Nat × Nat)) :=
  match o.outside (2 ^ 26), c.badIn 4 (fun _ => true) with
  | some a, _ => .error { cause := Cause.perm, addr := recAddr a }
  | none, some f => .error f
  | none, none =>
    let ts := o.touch 12
    let miss := ts.filter fun a => (c.tagLine (a / lineSize)).isNone
    match miss.min? with
    | some a => .error { cause := Cause.tagmiss, addr := a }
    | none => .ok (ts.filterMap fun a => (c.tagLine (a / lineSize)).map fun l => (a / lineSize, l))

/-- A scratchpad operand judged: tagged lines looked up, or offsets within the 26 bits (07 R130, R134). -/
def Core.spadOperand (c : Core) (o : Operand) (w : Want) : Judged Operand :=
  if hTag o.h then
    match c.tagLines o with
    | .error f => .error (if f.cause = Cause.perm then { f with aux := w.writes.toNat } else f)
    | .ok ts => .ok { o with tags := ts }
  else match o.outside (2 ^ 26) with
    | some a => .error { cause := Cause.perm, addr := recAddr a, aux := w.writes.toNat }
    | none => .ok o

/-! ### Drawers (13 R220 to R223) -/

/-- The drawer, row-major half-row index of a drawer offset (R221). -/
def drawerOf (h : W256) (off : Nat) : Nat := (hBase h + off / 64 / 128) % 32
/-- Index of the half-row in its drawer (R221). -/
def halfRowOf (off : Nat) : Nat := off / 64 % 128
/-- A drawer is claimed. -/
def Core.isClaimed (c : Core) (d : Nat) : Bool := c.claimed.getLsbD d
/-- The drawers that an operand in drawer space touches. -/
def Operand.drawers (o : Operand) : List Nat :=
  ((o.runs.flatMap fun r => (chunkStarts 13 (r.2.1 - (hBase o.h : Int)).toNat r.2.2).map fun x => drawerOf o.h x)).dedup
/-- A drawer destination judged: offsets below 0x40000, every drawer claimed (R178, R221). -/
def Core.drawerOperand (c : Core) (o : Operand) : Judged (List Nat) :=
  let out := (o.runs.filterMap fun r =>
    let a := r.2.1 - (hBase o.h : Int)
    if a < 0 then some a else if 0x40000 < a + r.2.2 then some (max a 0x40000) else none).min?
  match out with
  | some a => .error { cause := Cause.perm, addr := recAddr a, aux := 1 }
  | none =>
    match (o.drawers.filter fun d => !c.isClaimed d).min? with
    | some d => .error { cause := Cause.drawer, aux := d }
    | none => .ok o.drawers
/-- A half-row of a drawer. -/
def Core.halfRow (c : Core) (d i : Nat) : BitVec 512 := (c.drawers.getD d []).getD i 0
/-- A half-row of a drawer written. -/
def Core.setHalfRow (c : Core) (d i : Nat) (b : BitVec 512) : Core :=
  { c with drawers := modAt c.drawers d fun x => x.set i b }

/-! ### Reading and writing elements -/

/-- Where a byte of an operand lies: a physical address under a key, another module's offset, or a scratchpad key. -/
inductive Spot where
  | phys (a : Nat) (key : Option (BitVec 512))
  | far (rank off : Nat)
  | sp (key : Nat)
  | half (d i : Nat)
deriving DecidableEq, Repr

/-- The first byte of element k of a resolved operand, as seen from a core. -/
def Operand.spot (o : Operand) (cnum k : Nat) : Spot :=
  let a := (o.addr k).toNat
  match hSpc o.h with
  | 0 =>
    match o.pages.find? fun p => p.vpage == a / 65536 with
    | some p => match p.remote with
      | some r => .far r (p.phys + a % 65536)
      | none => .phys (p.phys + a % 65536) p.key
    | none => .phys 0 none
  | 1 =>
    if hTag o.h then
      match o.tags.find? fun t => t.1 == a / lineSize with
      | some t => .sp (spadKey cnum (t.2 * lineSize + a % lineSize))
      | none => .sp 0
    else .sp (spadOff cnum a)
  | _ => let off := (o.off k).toNat; .half (drawerOf o.h off) (halfRowOf off)

/-- The bytes of an element of this module as a reader sees them. -/
def State.readSpot (s : State) (l : Option Look) (p : Spot) (n : Nat) : List Byte :=
  match p with
  | .phys a key => s.seePhys l key a n
  | .sp k => s.seeRun l k n
  | .half d i => blockBytes (s.core.halfRow d i)
  | .far _ _ => []
/-- The bytes of an element of this module written on a path. -/
def State.writeSpot (s : State) (h : Path) (p : Spot) (bs : List Byte) : State :=
  match p with
  | .phys a key => s.putPhys h key a bs
  | .sp k => s.putSpad h k bs
  | .half d i => s.mapCore fun c => c.setHalfRow d i (blockOf bs)
  | .far _ _ => s
/-- An element's bytes meet a bad granule: its structure code and its address, for a tagged element its scratchpad offset (25 R370,
R385). -/
def State.badSpot (s : State) (o : Operand) (k : Nat) : Option Flt :=
  let n := hEsize o.h
  match o.spot s.cnum k with
  | .phys a _ => if s.badMem a n then some (fEccu (o.addr k).toNat 7) else none
  | .sp key => if s.badSpad key n then some (fEccu (if hTag o.h then key % spadSize else (o.addr k).toNat) 0) else none
  | _ => none

/-! ### Pins (07 R133, 13 R223) -/

/-- The operands that commands, phases and rule instances hold, those set aside included. -/
def Core.heldOperands (c : Core) : List Operand :=
  let copies := c.cld ++ c.cst ++ (match c.aside with | some a => a.cld ++ a.cst | none => [])
  let phases := c.fabric.phase.toList ++ c.fabric.parked ++ (match c.aside with | some a => a.fabPhase.toList ++ a.fabParked | none => [])
  let binds := c.fabric.pendBinds ++ (c.fabric.queue.flatMap fun q => q.binds) ++ (phases.flatMap fun p => p.binds) ++
    (match c.aside with | some a => a.fabBinds ++ a.fabQueue.flatMap fun q => q.binds | none => [])
  let insts := (c.rules.filterMap fun r => r.bind Rule.inst) ++
    (match c.aside with | some a => a.insts.filterMap id | none => [])
  let queued := c.fabric.queue ++ (match c.aside with | some a => a.fabQueue | none => [])
  (copies.flatMap fun q => q.src.toList ++ q.dst.toList) ++ binds.map Bind.opnd ++ (queued.flatMap fun q => q.opnd.toList) ++
    ((c.fabric.instBinds ++ (match c.aside with | some a => a.fabInst | none => [])).flatMap fun x => x.2.2.map Bind.opnd) ++
    (insts.flatMap fun i => i.trig.toList ++ i.out.toList) ++ c.bindings.map SBinding.opnd ++
    (engs.filterMap fun e => match (c.seqs.get e).dec with | .operand o => some o | _ => none)
/-- Every result in flight, those set aside included. -/
def Core.allFlights (c : Core) : List Flight := c.flights ++ (match c.aside with | some a => a.flights | none => [])
/-- Pin count of a line (R133, R134). -/
def Core.pins (c : Core) (line : Nat) : Nat :=
  (c.heldOperands.foldl (fun n o => n + (o.tags.filter fun t => t.2 == line).length) 0) +
    c.allFlights.foldl (fun n f => n + (f.pins.filter (· == line)).length) 0 +
    (engs.filter fun e => match (c.seqs.get e).dec with | .rows _ ps => ps.contains line | _ => false).length

/-- The drawers of a range (R222). -/
def drawerRange (d : DrawerNo) (n : Nat) : List Nat := ((List.range (min n 32)).map fun k => (d.toNat + k) % 32).dedup
/-- The drawers of both ranges of an MMA (R223). -/
def mmaDrawers (i : Instr) : List Nat :=
  match i with
  | .mma _ _ da db ks _ _ _ _ => (drawerRange da (ks.toNat + 1) ++ drawerRange db (ks.toNat + 1)).dedup
  | _ => []
/-- Drawers pinned by copies and MMAs, those set aside included (R223). -/
def Core.pinnedDrawers (c : Core) : List Nat :=
  let copies := c.cld ++ c.cst ++ (match c.aside with | some a => a.cld ++ a.cst | none => [])
  (copies.flatMap fun q => q.drawers.map BitVec.toNat) ++
    c.allFlights.flatMap fun f => match f.work with | some m => mmaDrawers m.i | none => []

end Sys2Proof.Machine
end

