-- ==== Sys2Proof/Machine/CtlHandle.lean ====
section
/-!
DEFINITION. CTL's handle words (05 R96 to R99) and tag words (07 R133 to R137).
-/
namespace Sys2Proof.Machine

/-- A handle written by CTL and the word completed (R61, R97). -/
def State.putH (s : State) (h : HReg) (v : W256) : State := (s.mapCore fun c => c.setH h v).complete 1

/-- HMOV (R97). -/
def execHmov (ha hb : HReg) (s : State) : Out := .next (s.putH ha (s.core.getH hb))

/-- HLD in deterministic mode: CTL stands at the word until the handle arrives (R90, 23 R343; log 85). -/
def State.hldTimed (s : State) (h : HReg) (key : Option (BitVec 512)) (pa : Nat) : Out :=
  let now := s.core.cycle.toNat
  let lat := s.loadLat false pa
  match s.seq.dec with
  | .timed n (some bs) => if now < n then .next (s.waiting .internal) else .next (s.putH h (BitVec.ofNat 256 (leNat bs)))
  | .timed n none =>
    if now < n || !s.core.loadsRead then .next (s.waiting .internal)
    else ((s.noteRead none (s.chainOf false key pa 32)).mapCore fun c => { c with scDone := now }).timed (now + lat) (some (s.loadPhys key pa 32)) .internal
  | _ => s.inOrder lat false fun s => s.withBytes 32 fun s => s.timed (now + lat) none .internal
/-- HLD: 32 bytes on the SC path (R94, R97). -/
def execHld (h : HReg) (a : SReg) (off : W64) (s : State) : Out :=
  s.withRegs [a] fun s => s.withSc fun s =>
  let ea := s.ea a off
  match s.scTarget ea 32 .rd with
  | .error f => .next (s.trap f)
  | .ok t =>
    match t.remote with
    | some r => s.askRemote r ea 32 .rd (.read [(t.phys, 32)]) fun bs ch s =>
        .next ((s.noteRead none ch).putH h (BitVec.ofNat 256 (leNat bs)))
    | none =>
      if s.badMem t.phys 32 then .next (s.trap (fEccu ea 7))
      else if s.core.det then s.hldTimed h t.key t.phys
      else s.withBytes 32 fun s => .next ((s.noteRead none (s.chainOf false t.key t.phys 32)).putH h (BitVec.ofNat 256 (leNat (s.loadPhys t.key t.phys 32))))

/-- HST: four stores of 8 bytes, each single-copy atomic (R97). -/
def execHst (h : HReg) (a : SReg) (off : W64) (s : State) : Out :=
  s.withRegs [a] fun s =>
  let ea := s.ea a off
  let bs := leBytes 32 (s.core.getH h).toNat
  match s.scTarget ea 32 .wr with
  | .error f => .next (s.trap f)
  | .ok t =>
    match t.remote with
    | some r =>
      s.withSc fun s => s.withDrained fun s =>
        s.askRemote r ea 32 .wr (.write [(t.phys, bs)] s.core.fenceRel) fun _ _ s => .next (s.complete 1)
    | none => s.inOrder (s.storeLat false t.phys) true fun s => s.withBytes 32 fun s =>
      let put (s : State) (k : Nat) : State := s.pushStore false (t.phys + 8 * k) t.key ((bs.drop (8 * k)).take 8) none
      .next ((put (put (put (put s 0) 1) 2) 3).complete 1)

/-- A word that changes a tensor handle's fields: ILLOP on a stream end (R55, R97). -/
def State.editH (s : State) (h : HReg) (o : Op2) (f : W256 → Nat → W256) : Out :=
  s.withRegs (op2Regs o) fun s =>
  if hSpc (s.core.getH h) = 3 then .next (s.trap fIllop)
  else .next (s.putH h (f (s.core.getH h) (s.op2 o).toNat))

/-- The SPC that HSETB writes, its FN (R97). -/
def spcNo (p : HSpc) : Nat :=
  match p with
  | .va => 0 | .sp => 1 | .dr => 2

/-- HSETB (R97). -/
def execHsetb (spc : HSpc) (h : HReg) (o : Op2) (s : State) : Out :=
  s.editH h o fun v x => setHBits (setHBits v 0 52 x) 52 2 (spcNo spc)
/-- HSETX (R97). -/
def execHsetx (h : HReg) (k : BitVec 6) (o : Op2) (s : State) : Out :=
  s.editH h o fun v x =>
    let v1 := setHBits v (64 + 16 * k.toNat) 16 x
    if k.toNat ≤ 4 then setHBits v1 (171 + 17 * k.toNat) 17 (x / 2 ^ 16) else v1
/-- HSETS (R97). -/
def execHsets (h : HReg) (o : Op2) (s : State) : Out :=
  s.editH h o fun v x => setHBits (setHBits v 60 3 x) 168 3 (x / 8)
/-- HSETF (R97). -/
def execHsetf (h : HReg) (o : Op2) (s : State) : Out :=
  s.editH h o fun v x =>
    setHBits (setHBits (setHBits (setHBits v 54 6 x) 63 1 (x / 2 ^ 6)) 160 7 (x / 2 ^ 7)) 167 1 (x / 2 ^ 14)

/-- The field that HGET selects (R98). -/
def hgetField (h : W256) (n : Nat) : W64 :=
  match n with
  | 0 => BitVec.ofNat 64 (hBase h)
  | 1 => BitVec.ofNat 64 (hSpc h)
  | 2 => BitVec.ofNat 64 (hFmt h)
  | 3 => BitVec.ofNat 64 (hRank h)
  | 4 => BitVec.ofNat 64 (hOpen h).toNat
  | 16 => BitVec.ofNat 64 (hSsh h)
  | 17 => BitVec.ofNat 64 (hOtid h)
  | 18 => BitVec.ofNat 64 (hTag h).toNat
  | n => if n ≤ 10 then BitVec.ofNat 64 (hExt h (n - 5)) else if n ≤ 15 then BitVec.ofInt 64 (hStr h (n - 11))
         else BitVec.ofNat 64 (hBits h (64 * (n - 19)) 64)

/-- HGET (R98). -/
def execHget (d : SReg) (h : HReg) (sel : BitVec 12) (s : State) : Out :=
  s.withRegs [d] fun s => .next (s.putS d (hgetField (s.core.getH h) sel.toNat))

/-- HOFF (R99). -/
def execHoff (h : HReg) (k : BitVec 6) (o : Op2) (s : State) : Out :=
  s.withRegs (op2Regs o) fun s =>
  let v := s.core.getH h
  if 2 ≤ hSpc v ∨ (k = 5 ∧ (fmtSize (hFmt v)).isNone) then .next (s.trap fIllop)
  else
    let b : Int := ((hBase v : Int) + (s.op2 o).toInt * hStep v k.toNat) % 2 ^ 52
    .next (s.putH h (setHBits v 0 52 b.toNat))

/-- HCLR (R97). -/
def execHclr (h : HReg) (s : State) : Out := .next (s.putH h 0)

/-! ### Tags -/

/-- The key of a tag-space address (R133). -/
def tagKey (a : W64) : BitVec 14 := a.extractLsb' 12 14

/-- TLOOK (R136). The lookup reads the whole table: a damaged entry raises ECCU whichever line matches, which the spec leaves open (R132;
log 74). -/
def execTlook (d a : SReg) (s : State) : Out :=
  s.withRegs [d, a] fun s => s.withGood 4 (fun _ => true) fun s =>
  .next (s.putS d (match s.core.tagLine (tagKey (s.getS a)).toNat with
    | some l => BitVec.ofNat 64 l
    | none => BitVec.allOnes 64))

/-- A line number taken from a register that is out of range raises PERM with the value (R135). -/
def State.withLine (s : State) (o : Op2) (k : Nat → State → Out) : Out :=
  let v := (s.op2 o).toNat
  if 1024 ≤ v then .next (s.trap { cause := Cause.perm, addr := v }) else k v s
/-- A change of an entry waits until its line has no pin (R136). -/
def State.withUnpinned (s : State) (l : Nat) (k : State → Out) : Out :=
  if s.core.pins l = 0 then k s else .next (s.waiting .internal)

/-- TSET (R136). -/
def execTset (a : SReg) (o : Op2) (s : State) : Out :=
  s.withRegs (a :: op2Regs o) fun s => s.withLine o fun l s => s.withGood 4 (fun _ => true) fun s =>
  let k := tagKey (s.getS a)
  match s.core.tagLine k.toNat with
  | some m => .next (s.trap { cause := Cause.tagdup, addr := (s.getS a).toNat, aux := m })
  | none => s.withUnpinned l fun s => .next ((s.mapCore fun c => { c with tags := c.tags.set l { valid := true, key := k } }).complete 1)
/-- An entry of the tag table no longer valid; its key stays (R136). -/
def TagEnt.clear (t : TagEnt) : TagEnt := { t with valid := false }
/-- TCLR (R136). -/
def execTclr (o : Op2) (s : State) : Out :=
  s.withRegs (op2Regs o) fun s => s.withLine o fun l s => s.withUnpinned l fun s =>
  .next ((s.mapCore fun c => { c with tags := modAt c.tags l TagEnt.clear }).complete 1)
/-- TCLR.ALL: every line in turn; it waits at the first pinned one (R136). -/
def execTclrAll (s : State) : Out :=
  match (List.range 1024).find? fun l => s.core.pins l != 0 with
  | none => .next ((s.mapCore fun c => { c with tags := c.tags.map TagEnt.clear }).complete 1)
  | some m => .next ((s.mapCore fun c => { c with tags := (c.tags.take m).map TagEnt.clear ++ c.tags.drop m }).waiting .internal)
/-- TINFO (R136). -/
def execTinfo (d : SReg) (o : Op2) (s : State) : Out :=
  s.withRegs (d :: op2Regs o) fun s => s.withLine o fun l s => s.withGood 4 (· == l) fun s =>
  let t := s.core.tags.getD l TagEnt.reset
  .next (s.putS d (BitVec.ofNat 64 (fld t.valid.toNat 63 + fld t.key.toNat 12 + min 4095 (s.core.pins l))))

end Sys2Proof.Machine
end

