-- ==== Sys2Proof/Machine/Mul.lean ====
section
/-!
DEFINITION. Shared control flow: the MUL words, loop closes, detached sequencers and rendezvous (04 R56 to R76).
-/
namespace Sys2Proof.Machine

/-! ### Who takes part -/

/-- Text length of the resident task in blocks. -/
def State.tlen (s : State) : Nat := (s.core.task.map Task.tlen).getD 0
/-- The sequencers that follow a MUL word: those of the mask, and CTL always (R57). -/
def followers (m : EMask) : List Eng := engs.filter fun e => e == .ctl || inMask m e
/-- A sequencer that a MUL word passes by: it falls through, and a skipped transfer detaches it (R58). -/
def State.skipMul (s : State) (transfer : Bool) : State :=
  s.mapSeq s.who fun q =>
    if transfer && !q.detached then { q.advance with detached := true, skip := q.pos } else q.advance
/-- A MUL word run by CTL, by a sequencer of its mask, or by one that skips it. -/
def State.mulWord (s : State) (m : EMask) (transfer : Bool) (ctl other : State → Out) : Out :=
  if s.who = .ctl then ctl s else if inMask m s.who then other s else .next (s.skipMul transfer)

/-- Every control queue that the word must push to has room (R62). -/
def State.queuesRoom (s : State) (m : EMask) : Bool :=
  engs.all fun e => e == .ctl || !inMask m e || decide ((s.core.seqs.get e).ctlq.length < 16)
/-- CTL pushes an entry to every masked sequencer other than itself (R62). -/
def State.pushCtl (s : State) (m : EMask) (x : CtlEntry) : State :=
  let push (e : Eng) (q : Seq) : Seq := if e != .ctl && inMask m e then { q with ctlq := q.ctlq ++ [x] } else q
  s.mapCore fun c => { c with seqs := c.seqs.mapE push }
/-- CTL pushes and goes on, or stalls while a queue is full (R62). -/
def State.pushing (s : State) (m : EMask) (x : CtlEntry) (k : State → Out) : Out :=
  if s.queuesRoom m then k (s.pushCtl m x) else .next (s.waiting .internal)
/-- A masked sequencer pops its entry, or waits on an empty queue (R62). -/
def State.popping (s : State) (k : CtlEntry → State → Out) : Out :=
  match s.seq.ctlq with
  | [] => .next (s.waiting .external)
  | x :: r => k x (s.mapSeq s.who fun q => { q with ctlq := r })
/-- CTL's view of the word's followers changed. -/
def State.mapView (s : State) (m : EMask) (f : View → View) : State :=
  s.mapCore fun c => { c with view := c.view.mapE fun e v => if (followers m).contains e then f v else v }

/-- The path leaves a position after a slot (R57). -/
def Core.noteExit (c : Core) (pos slot : Nat) : Core :=
  if c.exits.any fun x => x.1 == pos then c else { c with exits := c.exits ++ [(pos, slot + 1)] }
/-- The running sequencer goes elsewhere than to the next word, its next word due one cycle on (R80). -/
def State.follow (s : State) (f : Seq → Seq) : State :=
  (s.mapSeq s.who fun q => { f q with due := s.core.clockOf s.who + 1 }).mapCore fun c => c.noteExit s.seq.pos (slotOf s.seq.pc)
/-- A target beyond the text, ALIGN with its byte offset (R37). -/
def fTarget (blk : Nat) : Flt := { cause := Cause.align, addr := blk * 64 }

/-! ### Loops (R69 to R72) -/

/-- The loop's body contains a block. -/
def LoopRec.has (l : LoopRec) (blk : Nat) : Bool := decide (l.start ≤ blk ∧ blk < l.exit)
/-- Loops left active by BR, JMP or BREAK to a block (R72). -/
def keepLoops (ls : List LoopRec) (blk : Nat) : List LoopRec := ls.filter fun l => l.has blk
/-- Loops left active by a taken BREAK of `l` (R71). -/
def breakLoops (ls : List LoopRec) (l : LoopRec) : List LoopRec :=
  ls.filter fun x => x.lvl != l.lvl && !decide (l.depth < x.depth) && !decide (l.start ≤ x.start ∧ x.exit ≤ l.exit)
/-- The active loop of a level. -/
def loopAt (ls : List LoopRec) (l : Fin 6) : Option LoopRec := ls.find? fun x => x.lvl == l

/-- A rotated RBASE (R70). -/
def rotated (q : Seq) : BitVec 4 := BitVec.ofNat 4 ((q.rbase.toNat + q.rotsz.toNat - 1) % q.rotsz.toNat)
/-- A loop close with its cascade at the block of the PC, of the active loops `ls` outward, those inward of them being `pre`: the walk, and
the loops that ended. The cascade stops at a loop that goes back to its start, or at one of another exit or depth (R70). -/
def Seq.closeFrom (q : Seq) (pre : List LoopRec) : List LoopRec → Seq × List LoopRec
  | [] => (q, [])
  | l :: ls =>
    if l.exit != blkOf q.pc || l.depth != q.rstack.length then (q, [])
    else
      let i := q.lidx.getD l.lvl.val 0 + 1
      let q1 := { q with lidx := q.lidx.set l.lvl.val i, rbase := if l.rot then rotated q else q.rbase }
      if i.toNat < l.n.toNat then ({ q1 with pc := l.start * 64 }, [])
      else
        let r := ({ q1 with loops := pre ++ ls }).closeFrom pre ls
        (r.1, l :: r.2)
/-- The loop close of a sequencer that has advanced into the block of its PC: it begins at the innermost active loop of that exit (R70). -/
def Seq.close (q : Seq) : Seq × List LoopRec :=
  let inner (l : LoopRec) : Bool := l.exit != blkOf q.pc
  q.closeFrom (q.loops.takeWhile inner) (q.loops.dropWhile inner)
/-- The loop closes of a sequencer that has advanced into a block; CTL's also end the loops of its view (R70). -/
def State.closeLoops (s : State) (e : Eng) : State :=
  let q := s.core.seqs.get e
  let r := q.close
  let s1 := s.mapSeq e fun _ => { r.1 with closing := false }
  if e = .ctl then
    s1.mapCore fun c => { c with view := c.view.mapE fun _ v =>
      { v with loops := v.loops.filter fun l => !(r.2.any fun x => x.lvl == l.lvl && x.start == l.start && x.exit == l.exit) } }
  else s1

/-- LOOP_CLOSE: the pending closes of a sequencer, one indivisible step (R70). -/
def execEvLoopClose (e : Eng) (s : State) : Out :=
  if (s.core.seqs.get e).closing then .next (s.closeLoops e) else .next s

/-! ### The words -/

/-- NOP: a cycle for each sequencer of its mask, nothing for the others (R65). -/
def execNop (m : EMask) (s : State) : Out := if inMask m s.who then .next (s.complete 1) else .next s.passOver

/-- BR (R66). -/
def execBr (m : EMask) (c : Cond) (sa sb : SReg) (tgt : W32) (s : State) : Out :=
  let go (taken : Bool) (s : State) : State :=
    if taken then s.follow fun q => { q.jump tgt.toNat with loops := keepLoops q.loops tgt.toNat } else s.complete 1
  s.mulWord m true
    (fun s => s.withRegs [sa, sb] fun s =>
      if s.tlen ≤ tgt.toNat then .next (s.trap (fTarget tgt.toNat))
      else
        let taken := condHolds c (s.getS sa) (s.getS sb)
        s.pushing m (.outcome taken) fun s =>
          .next (go taken (if taken then s.mapView m fun v => { v with loops := keepLoops v.loops tgt.toNat } else s)))
    (fun s => s.popping fun x s => match x with
      | .outcome taken => .next (go taken s)
      | _ => .next (s.waiting .external))

/-- A transfer that deactivates the loops it leaves (R67, R72). -/
def State.jumpTo (s : State) (blk : Nat) : State := s.follow fun q => { q.jump blk with loops := keepLoops q.loops blk }

/-- JMP (R67). -/
def execJmp (m : EMask) (tgt : W32) (s : State) : Out :=
  s.mulWord m true
    (fun s =>
      if s.tlen ≤ tgt.toNat then .next (s.trap (fTarget tgt.toNat))
      else .next ((s.mapView m fun v => { v with loops := keepLoops v.loops tgt.toNat }).jumpTo tgt.toNat))
    (fun s => if s.tlen ≤ tgt.toNat then .next (s.waiting .external) else .next (s.jumpTo tgt.toNat))

/-- JMP, indirect (R67, R37). -/
def execJmpIndirect (m : EMask) (sa : SReg) (s : State) : Out :=
  s.mulWord m true
    (fun s => s.withRegs [sa] fun s =>
      let a := (s.getS sa).toNat
      if a % 64 ≠ 0 ∨ s.tlen ≤ a / 64 then .next (s.trap { cause := Cause.align, addr := a })
      else s.pushing m (.target (a / 64)) fun s =>
        .next ((s.mapView m fun v => { v with loops := keepLoops v.loops (a / 64) }).jumpTo (a / 64)))
    (fun s => s.popping fun x s => match x with
      | .target b => .next (s.jumpTo b)
      | _ => .next (s.waiting .external))

/-- CALL: the next block goes on the return stack (R68). -/
def execCall (m : EMask) (tgt : W32) (s : State) : Out :=
  let go (s : State) : State :=
    s.follow fun q => { q.jump tgt.toNat with rstack := (blkOf q.pc + 1) :: q.rstack }
  s.mulWord m true
    (fun s =>
      if s.cur.slot ≠ 3 ∨ (followers m).any (fun e => decide (16 ≤ (s.core.view.get e).depth)) then .next (s.trap fIllop)
      else if s.tlen ≤ tgt.toNat then .next (s.trap (fTarget tgt.toNat))
      else .next (go (s.mapView m fun v => { v with depth := v.depth + 1 })))
    (fun s =>
      if s.cur.slot ≠ 3 ∨ s.tlen ≤ tgt.toNat ∨ 16 ≤ s.seq.rstack.length then .next (s.waiting .external) else .next (go s))

/-- RET pops and transfers; loops of a greater depth end. Each sequencer's popped entry is checked as it pops it, CTL's first (R37, R68,
R72). -/
def execRet (m : EMask) (s : State) : Out :=
  let deep (ls : List LoopRec) (d : Nat) : List LoopRec := ls.filter fun l => decide (l.depth ≤ d)
  let go (b : Nat) (r : List Nat) (s : State) : State :=
    s.follow fun q => { q.jump b with rstack := r, loops := deep q.loops r.length }
  s.mulWord m true
    (fun s =>
      if (followers m).any fun e => (s.core.view.get e).depth == 0 then .next (s.trap fIllop)
      else match s.seq.rstack with
        | [] => .next (s.trap fIllop)
        | b :: r =>
          if s.tlen ≤ b then .next (s.trap (fTarget b))
          else .next (go b r (s.mapView m fun v => { loops := deep v.loops (v.depth - 1), depth := v.depth - 1 })))
    (fun s => match s.seq.rstack with
      | [] => .next (s.waiting .external)
      | b :: r =>
        if b < s.tlen then .next (go b r s)
        else if s.core.ctlPassed s.cur.pos s.cur.slot then .next (s.trap (fTarget b))
        else .next (s.waiting .external))

/-- LOOP (R69). Of several faults of one word the model takes a misplaced word's ILLOP first, then TRIP, then the other ILLOPs, then ALIGN:
the spec orders TRIP and ALIGN nowhere (R37, R69; log 72). -/
def execLoop (m : EMask) (l : Fin 6) (sa : SReg) (rot : Bool) (tgt imm : W32) (s : State) : Out :=
  let newRec (q : Seq) (depth : Nat) (n : W32) : LoopRec :=
    { lvl := l, n := n, start := blkOf q.pc + 1, exit := tgt.toNat, depth := depth, rot := rot }
  let go (n : W32) (s : State) : State :=
    s.follow fun q =>
      let q1 := { q with lidx := q.lidx.set l.val 0 }
      if n = 0 then q1.jump tgt.toNat
      else { q1.jump (blkOf q.pc + 1) with loops := newRec q q.rstack.length n :: q.loops }
  s.mulWord m true
    (fun s => s.withRegs [sa] fun s =>
      let v := s.getS sa
      if s.cur.slot ≠ 3 then .next (s.trap fIllop)
      else if sa ≠ 0 ∧ v.toNat / 2 ^ 32 ≠ 0 then .next (s.trap { cause := Cause.trip, aux := v.toNat })
      else if tgt.toNat ≤ blkOf s.cur.pc + 1 then .next (s.trap fIllop)
      else if (followers m).any fun e => (loopAt (s.core.view.get e).loops l).isSome then .next (s.trap fIllop)
      else if s.tlen ≤ tgt.toNat then .next (s.trap (fTarget tgt.toNat))
      else
        let n : W32 := if sa ≠ 0 then v.setWidth 32 else imm
        s.pushing m (.trips n) fun s =>
          .next (go n (if n = 0 then s else s.mapView m fun w => { w with loops := newRec s.seq w.depth n :: w.loops })))
    (fun s => s.popping fun x s => match x with
      | .trips n => .next (go n s)
      | _ => .next (s.waiting .external))

/-- BREAK: a target beyond the text is ALIGN, taken or not, and is asked before the loop's exit, or ALIGN could never arise (R37, R71, R72;
log 72). -/
def execBrk (m : EMask) (c : Cond) (l : Fin 6) (sa sb : SReg) (tgt : W32) (s : State) : Out :=
  let left (ls : List LoopRec) : List LoopRec :=
    match loopAt ls l with
    | some r => keepLoops (breakLoops ls r) tgt.toNat
    | none => keepLoops ls tgt.toNat
  let go (taken : Bool) (s : State) : State :=
    if taken then s.follow fun q => { q.jump tgt.toNat with loops := left q.loops } else s.complete 1
  s.mulWord m true
    (fun s => s.withRegs [sa, sb] fun s =>
      if s.tlen ≤ tgt.toNat then .next (s.trap (fTarget tgt.toNat))
      else if (followers m).any fun e => match loopAt (s.core.view.get e).loops l with
          | some r => r.exit != tgt.toNat
          | none => true
      then .next (s.trap fIllop)
      else
        let taken := condHolds c (s.getS sa) (s.getS sb)
        s.pushing m (.outcome taken) fun s =>
          .next (go taken (if taken then s.mapView m fun v => { v with loops := left v.loops } else s)))
    (fun s => s.popping fun x s => match x with
      | .outcome taken => .next (go taken s)
      | _ => .next (s.waiting .external))

/-- ROTSET (R73). -/
def execRotset (m : EMask) (n : W32) (s : State) : Out :=
  let go (s : State) : Out := .next ((s.mapSeq s.who fun q => { q with rotsz := n.setWidth 5, rbase := 0 }).complete 1)
  s.mulWord m false go go

/-! ### Rendezvous (R75, R76) -/

/-- The running sequencer stands at its rendezvous word and has reached it. -/
def State.arrive (s : State) : State := s.mapSeq s.who fun q => { q with atSync := true, wait := some .internal, tried := true }
/-- Every sequencer of a list has reached the word at which the running one stands. -/
def State.allArrived (s : State) (es : List Eng) : Bool :=
  es.all fun e => let q := s.core.seqs.get e; q.atSync && q.pc == s.cur.pc && q.pos == s.cur.pos
/-- All of a list go on past the word (R75). -/
def State.departAll (s : State) (es : List Eng) : State :=
  let go (c : Core) (e : Eng) (q : Seq) : Seq := if es.contains e then { q.advance with due := c.clockOf e + 1 } else q
  s.mapCore fun c => { c with seqs := c.seqs.mapE (go c) }

/-- What an engine's sequencer has issued and is not yet retired or landed, rule instances aside (R75). -/
def Core.outstanding (c : Core) (e : Eng) : Bool :=
  let own (o : Owner) : Bool := match o with | .rule _ => false | _ => true
  match e with
  | .ctl => false
  | .acc | .vec => c.flights.any fun f => f.eng == e && own f.owner
  | .mat => (c.flights.any fun f => f.eng == .mat && f.owner == .own) || c.defPosts.any fun p => p.eng == .mat
  | .cld => (c.cld.any fun q => own q.owner) || c.flights.any fun f => f.eng == .mat && f.owner == .follow
  | .cst => c.cst.any fun q => own q.owner
  | .fab => !c.fabric.queue.isEmpty || match c.fabric.phase with | some p => own p.owner | none => false

/-- SYNC (R75). -/
def execSync (m : EMask) (s : State) : Out :=
  let go (s : State) : Out :=
    let s1 := s.arrive
    if s1.allArrived (followers m) then .next (s1.departAll (followers m)) else .next s1
  s.mulWord m false go go

/-- SYNC.RETIRE: what the masked sequencers issued has retired or landed (R75). -/
def execSyncRetire (m : EMask) (s : State) : Out :=
  let go (s : State) : Out :=
    let s1 := s.arrive
    if s1.allArrived (followers m) && (followers m).all (fun e => !inMask m e || !s1.core.outstanding e) then
      .next (s1.departAll (followers m))
    else .next s1
  s.mulWord m false go go

/-- Nothing of the task is in flight: no command, result, follow-on, phase, rule instance, load or store (R76). -/
def Core.quiet (c : Core) : Bool :=
  c.flights.isEmpty && c.cld.isEmpty && c.cst.isEmpty && c.fabric.queue.isEmpty && c.fabric.phase.isNone &&
    c.loads.isEmpty && c.stores.isEmpty && c.defPosts.isEmpty && (c.ruleList.all fun r => r.2.inst.isNone)

/-- The MODE drain is over: MODEX is set and all seven go on (R76). -/
def State.modeDone (s : State) (exposed : Bool) : State :=
  (s.mapCore fun c => { c with modex := exposed, draining := false }).departAll engs

/-- MODE: a rendezvous of all seven, a drain, then the new mode; ILLOP in the handler (R76, R374). -/
def execMode (exposed : Bool) (s : State) : Out :=
  if s.core.aside.isSome then (if s.who = .ctl then .next (s.trap fIllop) else .next (s.waiting .external))
  else
    let s1 := s.arrive
    if s1.allArrived engs then
      if s1.core.quiet then .next (s1.modeDone exposed) else .next (s1.mapCore fun c => { c with draining := true })
    else .next s1

/-- MODE_DRAIN_DONE (R76). -/
def execEvModeDrainDone (s : State) : Out :=
  match s.standAt .ctl with
  | some (.mode x, t) => if t.core.draining && t.allArrived engs && t.core.quiet then .next (t.modeDone x) else .next s
  | _ => .next s

/-- A detached sequencer at its own word takes the position of CTL's first entry of that block after the transfer it skipped (R58). -/
def Core.rejoin (c : Core) (q : Seq) : Option Nat :=
  let ctl := c.seqs.ctl
  ((c.trail.filter fun x => decide (q.skip < x.1) && x.2 == blkOf q.pc &&
    (decide (x.1 < ctl.pos) || (x.1 == ctl.pos && ctl.entered))).map Prod.fst).min?

/-- SEQ_REATTACH (R58). -/
def execEvSeqReattach (e : Eng) (s : State) : Out :=
  let q := s.core.seqs.get e
  match s.core.rejoin q with
  | some p =>
    if q.detached && !q.ended && q.wait.isSome then
      .next (s.mapSeq e fun q => { q with detached := false, pos := p, entered := true, wait := none, tried := false })
    else .next s
  | none => .next s

end Sys2Proof.Machine
end

