-- ==== Sys2Proof/Machine/Float.lean ====
section
/-!
DEFINITION. Number formats, rounding, NaN rules, blocks and k-step arithmetic (06 R108 to R126), on exact integers.
-/
namespace Sys2Proof

/-- A floating format: precision with the hidden bit, exponent of the least code unit, largest finite code, whether it has
infinities, and its total width (R109, R117). -/
structure FFmt where
  p : Nat
  qmin : Int
  maxCode : Nat
  inf : Bool
  width : Nat
deriving DecidableEq, Repr

/-- FP32 (R108). -/
def fp32 : FFmt := { p := 24, qmin := -149, maxCode := 0x7F7FFFFF, inf := true, width := 32 }
/-- BF16 (R108). -/
def bf16 : FFmt := { p := 8, qmin := -133, maxCode := 0x7F7F, inf := true, width := 16 }
/-- F8E4, which has no infinity (R117). -/
def f8e4 : FFmt := { p := 4, qmin := -9, maxCode := 0x7E, inf := false, width := 8 }
/-- F8E5 (R117). -/
def f8e5 : FFmt := { p := 3, qmin := -16, maxCode := 0x7B, inf := true, width := 8 }

/-- A floating value: a NaN with its FP32 bits, an infinity, or plus or minus m x 2^e, with a signed zero at m = 0 (R110). -/
inductive FVal where
  | nan (bits : W32)
  | inf (neg : Bool)
  | fin (neg : Bool) (m : Nat) (e : Int)
deriving DecidableEq, Repr

/-- The canonical NaN (R109). -/
def canonNaN : W32 := 0x7FC00000

/-- The value is a NaN. -/
def FVal.isNaN : FVal → Bool
  | .nan _ => true
  | _ => false

/-- The value is a zero of either sign. -/
def FVal.isZero : FVal → Bool
  | .fin _ m _ => m == 0
  | _ => false

/-- The sign of a value; a NaN counts as positive. -/
def FVal.neg : FVal → Bool
  | .nan _ => false
  | .inf n => n
  | .fin n _ _ => n

/-- The FP32 bits of a NaN whose format has `w` fraction bits `f` (R114, widening). -/
def widenNaN (neg : Bool) (w f : Nat) : W32 :=
  BitVec.ofNat 32 ((if neg then 2 ^ 31 else 0) + 255 * 2 ^ 23 + f * 2 ^ (23 - w))

/-- The value of a code of a format (R109, R117). -/
def FFmt.val (f : FFmt) (code : Nat) : FVal :=
  let half := 2 ^ (f.width - 1)
  let neg := half ≤ code
  let mag := code % half
  let w := f.p - 1
  if f.maxCode < mag then
    if f.inf && mag == f.maxCode + 1 then .inf neg else .nan (widenNaN neg w (mag % 2 ^ w))
  else if mag < 2 ^ w then .fin neg mag f.qmin
  else .fin neg (mag % 2 ^ w + 2 ^ w) (f.qmin + (mag / 2 ^ w - 1 : Nat))

/-- The value of an FP32 lane (R108). -/
def fpVal (x : W32) : FVal :=
  match fp32.val x.toNat with
  | .nan _ => .nan x
  | v => v

/-- Rounding of a magnitude: to nearest with ties to even, down, or up. -/
inductive MagMode where
  | near | down | up
deriving DecidableEq, Repr

/-- The magnitude mode of a rounding mode at a sign (R110). -/
def RMode.mag (rm : RMode) (neg : Bool) : MagMode :=
  match rm with
  | .rne => .near
  | .rtz => .down
  | .rdn => if neg then .up else .down
  | .rup => if neg then .down else .up

/-- floor(log2(n / d)) of positive n and d. -/
def ilog2 (n d : Nat) : Int :=
  let g : Int := (Nat.log2 n : Int) - (Nat.log2 d : Int)
  let ge : Bool := if 0 ≤ g then d * 2 ^ g.toNat ≤ n else d ≤ n * 2 ^ (-g).toNat
  if ge then g else g - 1

/-- The integer that n / d x 2^(-q) rounds to. -/
def roundAt (mode : MagMode) (n d : Nat) (q : Int) : Nat :=
  let nn := if 0 ≤ q then n else n * 2 ^ (-q).toNat
  let dd := if 0 ≤ q then d * 2 ^ q.toNat else d
  let i := nn / dd
  let r := nn % dd
  match mode with
  | .near => if dd < 2 * r ∨ (2 * r = dd ∧ i % 2 = 1) then i + 1 else i
  | .down => i
  | .up => if r = 0 then i else i + 1

/-- The code of a positive rational n / d, exponent unbounded above (R110). -/
def FFmt.roundMag (f : FFmt) (mode : MagMode) (n d : Nat) : Nat :=
  if n = 0 then 0 else
  let q := max (ilog2 n d - (f.p - 1 : Nat)) f.qmin
  (q - f.qmin).toNat * 2 ^ (f.p - 1) + roundAt mode n d q

/-- The code with its sign. -/
def FFmt.signed (f : FFmt) (neg : Bool) (mag : Nat) : Nat := if neg then 2 ^ (f.width - 1) + mag else mag

/-- The code of an infinity; F8E4 gives 448 (R110). -/
def FFmt.infCode (f : FFmt) (neg : Bool) : Nat := f.signed neg (if f.inf then f.maxCode + 1 else f.maxCode)

/-- rnd of a nonzero rational with sign (R110), overflow table included. -/
def FFmt.rndRat (f : FFmt) (rm : RMode) (neg : Bool) (n d : Nat) : Nat :=
  let mode := rm.mag neg
  let c := f.roundMag mode n d
  if c ≤ f.maxCode then f.signed neg c
  else if mode = .down then f.signed neg f.maxCode
  else f.infCode neg

/-- A NaN narrowed to a format: sign and top fraction bits kept, the top bit set when they are all zero (R114). -/
def FFmt.narrowNaN (f : FFmt) (bits : W32) : Nat :=
  let neg := bits.getLsbD 31
  if f.inf then
    let w := f.p - 1
    let fr := (bits.toNat % 2 ^ 23) / 2 ^ (23 - w)
    f.signed neg (f.maxCode + 1 + (if fr = 0 then 2 ^ (w - 1) else fr))
  else f.signed neg (f.maxCode + 1)

/-- rnd(x, fmt, rm) (R110, R114). -/
def FFmt.rnd (f : FFmt) (rm : RMode) (x : FVal) : Nat :=
  match x with
  | .nan b => f.narrowNaN b
  | .inf n => f.infCode n
  | .fin n m e =>
    if m = 0 then f.signed n 0
    else if 0 ≤ e then f.rndRat rm n (m * 2 ^ e.toNat) 1 else f.rndRat rm n m (2 ^ (-e).toNat)

/-- rne_fp32 and its other modes, as a lane. -/
def rndFp32 (rm : RMode) (x : FVal) : W32 :=
  match x with
  | .nan b => b
  | x => BitVec.ofNat 32 (fp32.rnd rm x)

/-- rne_fp32 (R110). -/
def rneFp32 (x : FVal) : W32 := rndFp32 .rne x

/-- rnd to BF16 in the layout of TY 3: the BF16 in [31:16], zeros below (R147). -/
def rndBf16 (rm : RMode) (x : FVal) : W32 := BitVec.ofNat 32 (bf16.rnd rm x * 2 ^ 16)

/-- Stored by R147 under a floating type. -/
def FTy.store (ty : FTy) (rm : RMode) (x : FVal) : W32 :=
  match ty with
  | .f32 => rndFp32 rm x
  | .bf16 => rndBf16 rm x

/-! ### Exact arithmetic on values -/

/-- The signed integer of a finite value at exponent `e0`, not above its own. -/
def scaled (n : Bool) (m : Nat) (e e0 : Int) : Int :=
  let v : Int := (m * 2 ^ (e - e0).toNat : Nat)
  if n then -v else v

/-- The value of an integer at an exponent; an exact zero takes the sign `zneg`. -/
def ofScaled (v : Int) (e0 : Int) (zneg : Bool) : FVal := .fin (if v = 0 then zneg else v < 0) v.natAbs e0

/-- The exact sum; the sign of an exact zero follows R110. NaN operands are the caller's (R114). -/
def fadd (rm : RMode) (x y : FVal) : FVal :=
  match x, y with
  | .nan b, _ => .nan b
  | _, .nan b => .nan b
  | .inf a, .inf b => if a = b then .inf a else .nan canonNaN
  | .inf a, _ => .inf a
  | _, .inf b => .inf b
  | .fin a m e, .fin b n f =>
    if m = 0 ∧ n = 0 then .fin (if a = b then a else rm = .rdn) 0 0
    else let e0 := min e f; ofScaled (scaled a m e e0 + scaled b n f e0) e0 (rm = .rdn)

/-- The exact product. -/
def fmul (x y : FVal) : FVal :=
  match x, y with
  | .nan b, _ => .nan b
  | _, .nan b => .nan b
  | .inf a, y => if y.isZero then .nan canonNaN else .inf (a != y.neg)
  | x, .inf b => if x.isZero then .nan canonNaN else .inf (x.neg != b)
  | .fin a m e, .fin b n f => .fin (a != b) (m * n) (e + f)

/-- The value with its sign changed; a NaN keeps its bits (R151). -/
def fneg (x : FVal) : FVal :=
  match x with
  | .nan b => .nan b
  | .inf n => .inf (!n)
  | .fin n m e => .fin (!n) m e

/-- The absolute value; a NaN keeps its bits (R151). -/
def fabs (x : FVal) : FVal :=
  match x with
  | .nan b => .nan b
  | .inf _ => .inf false
  | .fin _ m e => .fin false m e

/-- x < y of two values that are no NaN, with -0 = +0. -/
def flt (x y : FVal) : Bool :=
  match x, y with
  | .nan _, _ => false
  | _, .nan _ => false
  | .inf a, .inf b => a && !b
  | .inf a, _ => a
  | _, .inf b => !b
  | .fin a m e, .fin b n f => let e0 := min e f; decide (scaled a m e e0 < scaled b n f e0)

/-- x = y of two values that are no NaN, with -0 = +0 (R154). -/
def feq (x y : FVal) : Bool := !x.isNaN && !y.isNaN && !flt x y && !flt y x

/-- x < y with -0 below +0 (R151, R160). -/
def fltz (x y : FVal) : Bool := flt x y || (x.isZero && y.isZero && x.neg && !y.neg)

/-- The first NaN of a list of values, else the given value (R114). -/
def firstNaN : List FVal → FVal → FVal
  | [], y => y
  | .nan b :: _, _ => .nan b
  | _ :: r, y => firstNaN r y

/-! ### Integers -/

/-- n / d rounded to an integer under rm (R111). -/
def rndInt (rm : RMode) (neg : Bool) (m : Nat) (e : Int) : Int :=
  let k : Int :=
    if 0 ≤ e then roundAt (rm.mag neg) (m * 2 ^ e.toNat) 1 0 else roundAt (rm.mag neg) m (2 ^ (-e).toNat) 0
  if neg then -k else k

/-- sat(x, lo, hi) (R112). -/
def satI (x lo hi : Int) : Int := if x < lo then lo else if hi < x then hi else x

/-- rnd to an integer range: NaN gives 0, infinities the bound of their sign (R111). -/
def rndToInt (rm : RMode) (x : FVal) (lo hi : Int) : Int :=
  match x with
  | .nan _ => 0
  | .inf n => if n then lo else hi
  | .fin n m e => satI (rndInt rm n m e) lo hi

/-- The exact value of an integer. -/
def ofInt (x : Int) : FVal := .fin (x < 0) x.natAbs 0

/-- The lane of an integer modulo 2^32. -/
def laneOfInt (x : Int) : W32 := BitVec.ofInt 32 x

/-! ### Blocks (R115 to R122) -/

/-- Element formats of a block, with ZERO and POISON (R116). -/
inductive BCode where
  | zero
  | poison
  | fmt (f : BlkFmt)
deriving DecidableEq, Repr

/-- Format codes (R116); every other value is none. -/
def BCode.ofNat (c : Nat) : Option BCode :=
  match c with
  | 0x00 => some .zero
  | 0x10 => some (.fmt .mxi8)
  | 0x11 => some (.fmt .mxi6)
  | 0x12 => some (.fmt .mxi4)
  | 0x20 => some (.fmt .f8e4)
  | 0x21 => some (.fmt .f8e5)
  | 0x30 => some (.fmt .bf16)
  | 0xFF => some .poison
  | _ => none

/-- The CODE of a format (R116). -/
def BlkFmt.blkCode : BlkFmt → Nat
  | .mxi8 => 0x10 | .mxi6 => 0x11 | .mxi4 => 0x12 | .f8e4 => 0x20 | .f8e5 => 0x21 | .bf16 => 0x30

/-- The full element count N (R116). -/
def BlkFmt.full : BlkFmt → Nat
  | .mxi8 => 60 | .mxi6 => 80 | .mxi4 => 120 | .f8e4 => 60 | .f8e5 => 60 | .bf16 => 30

/-- Bits of an element code. -/
def BlkFmt.bits : BlkFmt → Nat
  | .mxi8 => 8 | .mxi6 => 6 | .mxi4 => 4 | .f8e4 => 8 | .f8e5 => 8 | .bf16 => 16

/-- An integer family format (R227). -/
def BlkFmt.isInt : BlkFmt → Bool
  | .mxi8 | .mxi6 | .mxi4 => true
  | _ => false

/-- Fraction bits of an MXINT element (R116). -/
def BlkFmt.frac : BlkFmt → Nat
  | .mxi8 => 6 | .mxi6 => 4 | .mxi4 => 2 | _ => 0

/-- The floating format of a floating block element. -/
def BlkFmt.ffmt : BlkFmt → FFmt
  | .f8e4 => Sys2Proof.f8e4 | .f8e5 => Sys2Proof.f8e5 | _ => Sys2Proof.bf16

/-- A block is 64 bytes, byte 0 least significant (R115). -/
abbrev Block := BitVec 512

/-- CODE, CNT and SCL of a block (R115). -/
def blkCode (b : Block) : Option BCode := BCode.ofNat (b.extractLsb' 0 8).toNat
/-- CNT (R115). -/
def blkCnt (b : Block) : Nat := (b.extractLsb' 8 8).toNat
/-- SCL (R115). -/
def blkScl (b : Block) : Nat := (b.extractLsb' 16 16).toNat

/-- Element code i of the payload (R117): elements are packed from byte 4 upward. -/
def blkElem (b : Block) (f : BlkFmt) (i : Nat) : Nat := (b.toNat / 2 ^ (32 + f.bits * i)) % 2 ^ f.bits

/-- sext of an n-bit field (R112). -/
def sextN (x n : Nat) : Int := if 2 ^ (n - 1) ≤ x then (x : Int) - 2 ^ n else x

/-- elem_val (R119). -/
def elemVal (f : BlkFmt) (c : Nat) : FVal :=
  if f.isInt then let v := sextN c f.bits; .fin (v < 0) v.natAbs (-(f.frac : Int))
  else f.ffmt.val c

/-- scl16_val of a scale whose E is 1 to 254: the significand and its exponent (R118). -/
def sclVal (s : Nat) : Nat × Int := (256 + s % 256, (s / 256 : Nat) - 135)

/-- The block passes the consuming check of R116. -/
def blkOk (b : Block) : Bool :=
  match blkCode b with
  | none => false
  | some (.fmt f) => blkCnt b ≤ f.full
  | some _ => true

/-- A POISON block or one with a NaN scale (R124). -/
def blkNaN (b : Block) : Bool :=
  match blkCode b with
  | some .poison => true
  | some (.fmt _) => blkScl b / 256 == 255
  | _ => false

/-- blk_val (R119). -/
def blkVal (b : Block) (i : Nat) : FVal :=
  match blkCode b with
  | some .poison => .nan canonNaN
  | some (.fmt f) =>
    let cnt := if blkCnt b = 0 then f.full else blkCnt b
    let e := blkScl b / 256
    if cnt ≤ i ∨ e = 0 then .fin false 0 0
    else if e = 255 then .nan canonNaN
    else
      let s := sclVal (blkScl b)
      fmul (.fin false s.1 s.2) (elemVal f (blkElem b f i))
  | _ => .fin false 0 0

/-- fmax of a block format as a numerator over 2^k (R121). -/
def BlkFmt.fmax : BlkFmt → Nat × Nat
  | .mxi8 => (127, 6) | .mxi6 => (31, 4) | .mxi4 => (7, 2) | .f8e4 => (448, 0) | .f8e5 => (57344, 0)
  | .bf16 => (0xFF * 2 ^ 120, 0)

/-- The exact magnitude of a finite value as a fraction. -/
def magFrac (m : Nat) (e : Int) : Nat × Nat := if 0 ≤ e then (m * 2 ^ e.toNat, 1) else (m, 2 ^ (-e).toNat)

/-- The element code of an integer. -/
def intCode (bits : Nat) (v : Int) : Nat := (v % (2 ^ bits : Nat)).toNat

/-- pack_elem(x, fmt, s) (R121). -/
def packElem (f : BlkFmt) (s : Nat) (x : FVal) : Nat :=
  match x with
  | .nan b => if f.isInt then 0 else f.ffmt.narrowNaN b
  | .inf n =>
    if f.isInt then intCode f.bits (if n then -(2 ^ (f.bits - 1) : Nat) else (f.fmax.1 : Int))
    else f.ffmt.infCode n
  | .fin n m e =>
    let sc := sclVal s
    let a := magFrac m (e - sc.2)
    let num := a.1
    let den := a.2 * sc.1
    if f.isInt then
      let k := roundAt .near (num * 2 ^ f.frac) den 0
      intCode f.bits (if n then -((min k (2 ^ (f.bits - 1)) : Nat) : Int) else ((min k f.fmax.1 : Nat) : Int))
    else
      let fm := f.fmax
      if fm.1 * den < num * 2 ^ fm.2 then f.ffmt.signed n f.ffmt.maxCode
      else if num = 0 then f.ffmt.signed n 0
      else f.ffmt.rndRat .rne n num den

/-- The payload of element codes, element 0 lowest (R117). -/
def payload (bits : Nat) : List Nat → Nat
  | [] => 0
  | c :: cs => c + 2 ^ bits * payload bits cs

/-- pack_block with a scale (R120). -/
def packBlock (f : BlkFmt) (s : Nat) (xs : List FVal) : Block :=
  let cnt := if xs.length = f.full then 0 else xs.length
  if f.isInt && xs.any FVal.isNaN then BitVec.ofNat 512 (f.blkCode + 2 ^ 8 * cnt + 2 ^ 16 * 0xFF00)
  else BitVec.ofNat 512 (f.blkCode + 2 ^ 8 * cnt + 2 ^ 16 * s + 2 ^ 32 * payload f.bits (xs.map (packElem f s)))

/-- A block with a zero or NaN scale supplied by the program: header only (R166). -/
def emptyBlock (f : BlkFmt) (s n : Nat) : Block :=
  BitVec.ofNat 512 (f.blkCode + 2 ^ 8 * (if n = f.full then 0 else n) + 2 ^ 16 * s)

/-- The greater of two magnitudes given as (m, e). -/
def maxMag (x y : Nat × Int) : Nat × Int :=
  let e0 := min x.2 y.2
  if x.1 * 2 ^ (x.2 - e0).toNat < y.1 * 2 ^ (y.2 - e0).toNat then y else x

/-- The scale format: nine significant bits, least code unit 2^-134, so that a scale is its own code (R118). -/
def sclFmt : FFmt := { p := 9, qmin := -134, maxCode := 0xFEFF, inf := false, width := 17 }

/-- choose_scale (R122): the least scale whose value times fmax reaches the largest finite magnitude. -/
def chooseScale (f : BlkFmt) (xs : List FVal) : Nat :=
  if f.isInt && xs.any FVal.isNaN then 0xFF00
  else
    let m := xs.foldl (fun acc x => match x with | .fin _ m e => maxMag acc (m, e) | _ => acc) ((0, 0) : Nat × Int)
    if m.1 = 0 then 0x7F00
    else
      let a := magFrac m.1 m.2
      min 0xFEFF (max 0x0100 (sclFmt.roundMag .up (a.1 * 2 ^ f.fmax.2) (a.2 * f.fmax.1)))

/-! ### The k-step (R124 to R126, R226, R227) -/

/-- Format of a block that is neither ZERO nor POISON. -/
def blkFmt? (b : Block) : Option BlkFmt :=
  match blkCode b with
  | some (.fmt f) => some f
  | _ => none

/-- The number of element pairs of a half pair (R226). -/
def pairCount (a b : Block) : Nat :=
  match blkFmt? a, blkFmt? b with
  | some f, some g => min f.full g.full
  | some f, none => f.full
  | none, some g => g.full
  | none, none => 0

/-- Significand width for the cost (R227). -/
def BlkFmt.sig : BlkFmt → Nat
  | .mxi8 => 8 | .bf16 => 8 | .mxi6 => 6 | .mxi4 => 4 | .f8e4 => 4 | .f8e5 => 3

/-- The cost of a half pair; pairs with a ZERO or POISON block cost 0 (R227). -/
def halfCost (a b : Block) : Nat :=
  match blkFmt? a, blkFmt? b with
  | some f, some g => min f.full g.full * ((f.sig + 1) / 2) * ((g.sig + 1) / 2)
  | _, _ => 0

/-- Cycles of a declared cost. -/
def Cost.cycles : Cost → Nat
  | .c4 => 4 | .c6 => 6 | .c8 => 8

/-- The four blocks of one output: A half 0, A half 1, B half 0, B half 1. -/
structure Quad where
  a0 : Block
  a1 : Block
  b0 : Block
  b1 : Block

/-- The blocks of a quad. -/
def Quad.blocks (q : Quad) : List Block := [q.a0, q.a1, q.b0, q.b1]

/-- The element pairs of a quad, half 0 first. -/
def Quad.pairs (q : Quad) : List (FVal × FVal) :=
  (List.range (pairCount q.a0 q.b0)).map (fun i => (blkVal q.a0 i, blkVal q.b0 i)) ++
    (List.range (pairCount q.a1 q.b1)).map (fun i => (blkVal q.a1 i, blkVal q.b1 i))

/-- The exact sum of finite values (a zero sum is +0). -/
def sumExact (xs : List FVal) : FVal :=
  let e0 := xs.foldl (fun acc x => match x with | .fin _ _ e => min acc e | _ => acc) (0 : Int)
  ofScaled (xs.foldl (fun acc x => match x with | .fin n m e => acc + scaled n m e e0 | _ => acc) 0) e0 false

/-- trunc_mag(x, n) (R112). -/
def truncMag (n : Int) (x : FVal) : FVal :=
  match x with
  | .fin s m e => if n ≤ e then .fin s m e else .fin s (m / 2 ^ (n - e).toNat) n
  | x => x

/-- The value v of one k-step for one output of the integer family (R124). -/
def kstepInt (q : Quad) : FVal :=
  if q.blocks.any blkNaN then .nan canonNaN
  else fpVal (rneFp32 (sumExact (q.pairs.map fun p => fmul p.1 p.2)))

/-- The value v of one k-step for one output of the floating family (R125). -/
def kstepFloat (q : Quad) : FVal :=
  let prods := q.pairs.map fun p => fmul p.1 p.2
  if q.blocks.any blkNaN || prods.any FVal.isNaN then .nan canonNaN
  else
    let infs := prods.filterMap fun x => match x with | .inf n => some n | _ => none
    match infs with
    | n :: r => if r.all (· == n) then .inf n else .nan canonNaN
    | [] =>
      let nz := prods.filterMap fun x => match x with
        | .fin _ m e => if m = 0 then none else some ((Nat.log2 m : Int) + e)
        | _ => none
      match nz with
      | [] => .fin false 0 0
      | t :: r =>
        let emax := r.foldl max t
        fpVal (rneFp32 (sumExact (prods.map (truncMag (emax - 33)))))

/-- bank + v, rounded once; MAT returns the canonical NaN (R124, R125, R114). -/
def bankAdd (x : W32) (v : FVal) : W32 :=
  match fadd .rne (fpVal x) v with
  | .nan _ => canonNaN
  | y => rneFp32 y

/-- A lane is a NaN. -/
def laneNaN (x : W32) : Bool := (fpVal x).isNaN

end Sys2Proof
end

