-- ==== Sys2Proof/Machine/SpecFn.lean ====
section
/-!
DEFINITION. Division, roots and the special functions, each rounded once from the exact value (08 R151, R161).
A transcendental value is enclosed between two fixed-point bounds; the precision grows until both bounds round alike (log 10).
-/
namespace Sys2Proof

/-- The eleven special functions (R161). -/
inductive SFn where
  | exp | exp2 | ln | log2 | rcp | rsqrt | sqrt | tanh | sigm | gelu | erf
deriving DecidableEq, Repr

/-- A result before rounding: a value known as it stands, a signed fraction, or a signed root floor with its remainder bit. -/
inductive SRes where
  | exact (v : FVal)
  | rat (neg : Bool) (n d : Nat)
deriving DecidableEq, Repr

/-- The result rounded to a format. -/
def SRes.rnd (f : FFmt) (rm : RMode) : SRes → Nat
  | .exact v => f.rnd rm v
  | .rat neg n d => if n = 0 then f.signed neg 0 else f.rndRat rm neg n d

/-- The exact quotient of two values, special cases by IEEE 754 (R151). -/
def fdiv (x y : FVal) : SRes :=
  match x, y with
  | .nan b, _ => .exact (.nan b)
  | _, .nan b => .exact (.nan b)
  | .inf _, .inf _ => .exact (.nan canonNaN)
  | .inf a, y => .exact (.inf (a != y.neg))
  | x, .inf b => .exact (.fin (x.neg != b) 0 0)
  | .fin a m e, .fin b n f =>
    if n = 0 then (if m = 0 then .exact (.nan canonNaN) else .exact (.inf (a != b)))
    else if m = 0 then .exact (.fin (a != b) 0 0)
    else let g := magFrac m (e - f); .rat (a != b) g.1 (g.2 * n)

/-- A root's floor at 2^-t with a half unit added when it is inexact: it rounds as the root does while t exceeds every code's
precision by two bits. -/
def rootRat (n d t : Nat) : SRes :=
  let v := n * 2 ^ (2 * t) / d
  let r := Nat.sqrt v
  if r * r * d = n * 2 ^ (2 * t) then .rat false r (2 ^ t) else .rat false (2 * r + 1) (2 ^ (t + 1))

/-! ### Interval arithmetic on integers scaled by 2^P -/

/-- Bounds of a real number, scaled by 2^P. -/
structure Iv where
  lo : Int
  hi : Int
deriving DecidableEq, Repr

/-- The bounds of a fraction. -/
def Iv.ofRat (P : Nat) (n : Int) (d : Nat) : Iv :=
  let v := n * 2 ^ P
  { lo := v / d, hi := -((-v) / d) }
/-- Sum of bounds. -/
def Iv.add (x y : Iv) : Iv := { lo := x.lo + y.lo, hi := x.hi + y.hi }
/-- Difference of bounds. -/
def Iv.sub (x y : Iv) : Iv := { lo := x.lo - y.hi, hi := x.hi - y.lo }
/-- Product of bounds. -/
def Iv.mul (P : Nat) (x y : Iv) : Iv :=
  let a := x.lo * y.lo
  let b := x.lo * y.hi
  let c := x.hi * y.lo
  let d := x.hi * y.hi
  { lo := min (min a b) (min c d) / 2 ^ P, hi := -(-(max (max a b) (max c d)) / 2 ^ P) }
/-- Quotient of bounds by positive bounds. -/
def Iv.div (P : Nat) (x y : Iv) : Iv :=
  let q (u v : Int) : Int := u * 2 ^ P / v
  let q' (u v : Int) : Int := -(-(u * 2 ^ P) / v)
  { lo := min (q x.lo y.lo) (q x.lo y.hi), hi := max (q' x.hi y.lo) (q' x.hi y.hi) }
/-- Bounds divided by a positive integer. -/
def Iv.divN (x : Iv) (n : Nat) : Iv := { lo := x.lo / n, hi := -(-x.hi / n) }
/-- Bounds times an integer. -/
def Iv.mulI (x : Iv) (k : Int) : Iv := if 0 ≤ k then { lo := x.lo * k, hi := x.hi * k } else { lo := x.hi * k, hi := x.lo * k }
/-- Bounds widened by a nonnegative amount on both sides. -/
def Iv.widen (x : Iv) (e : Int) : Iv := { lo := x.lo - e, hi := x.hi + e }
/-- The bounds of 1. -/
def Iv.one (P : Nat) : Iv := { lo := 2 ^ P, hi := 2 ^ P }

/-- Sum of a series whose next term is `step k term`, `n` terms, the last term's size added as the remainder's bound. -/
def seriesSum (step : Nat → Iv → Iv) : Nat → Nat → Iv → Iv → Iv
  | 0, _, t, acc => acc.widen (max t.lo.natAbs t.hi.natAbs + 1 : Nat)
  | n + 1, k, t, acc => let t' := step k t; seriesSum step n (k + 1) t' (acc.add t')

/-- 2 atanh(y) for bounds y of size at most 1/3: y + y^3/3 + ... doubled. -/
def twoAtanh (P : Nat) (y : Iv) : Iv :=
  let y2 := y.mul P y
  let rec go : Nat → Nat → Iv → Iv → Iv
    | 0, _, pw, acc => acc.widen (max pw.lo.natAbs pw.hi.natAbs + 1 : Nat)
    | n + 1, k, pw, acc => let pw' := pw.mul P y2; go n (k + 1) pw' (acc.add (pw'.divN (2 * k + 3)))
  (go (P / 3 + 4) 0 y y).mulI 2

/-- ln 2. -/
def ln2Iv (P : Nat) : Iv := twoAtanh P (Iv.ofRat P 1 3)

/-- atan(1/n). -/
def atanInv (P n : Nat) : Iv :=
  let rec go : Nat → Nat → Iv → Iv → Iv
    | 0, _, pw, acc => acc.widen (max pw.lo.natAbs pw.hi.natAbs + 1 : Nat)
    | f + 1, k, pw, acc =>
      let pw' := pw.divN (n * n)
      let t := pw'.divN (2 * k + 3)
      go f (k + 1) pw' (if k % 2 = 0 then acc.sub t else acc.add t)
  go (P / 4 + 4) 0 (Iv.ofRat P 1 n) (Iv.ofRat P 1 n)

/-- pi, by Machin's formula. -/
def piIv (P : Nat) : Iv := ((atanInv P 5).mulI 16).sub ((atanInv P 239).mulI 4)

/-- Square root of nonnegative bounds. -/
def Iv.sqrt (P : Nat) (x : Iv) : Iv :=
  { lo := Nat.sqrt (x.lo.toNat * 2 ^ P), hi := Nat.sqrt (x.hi.toNat * 2 ^ P) + 1 }

/-- e^r for bounds r between -1 and 1. -/
def expSmall (P : Nat) (r : Iv) : Iv :=
  seriesSum (fun k t => (t.mul P r).divN (k + 1)) (P / 2 + 8) 0 (Iv.one P) (Iv.one P)

/-- Bounds times 2^k. -/
def Iv.shift (x : Iv) (k : Int) : Iv :=
  if 0 ≤ k then { lo := x.lo * 2 ^ k.toNat, hi := x.hi * 2 ^ k.toNat }
  else { lo := x.lo / 2 ^ (-k).toNat, hi := -(-x.hi / 2 ^ (-k).toNat) }

/-- e^x for a fraction n / d. -/
def expIv (P : Nat) (n : Int) (d : Nat) : Iv :=
  let x := Iv.ofRat P n d
  let l := ln2Iv P
  let k := x.lo / l.hi
  (expSmall P (x.sub (l.mulI k))).shift k

/-- ln of a positive fraction n / d. -/
def lnIv (P n d : Nat) : Iv :=
  let e := ilog2 n d
  let nn := if 0 ≤ e then n else n * 2 ^ (-e).toNat
  let dd := if 0 ≤ e then d * 2 ^ e.toNat else d
  (twoAtanh P (Iv.ofRat P ((nn : Int) - dd) (nn + dd))).add ((ln2Iv P).mulI e)

/-- Sum of x^(2n+1) / (2n+1)!! for a fraction of size at most 24. -/
def erfSum (P : Nat) (x : Iv) : Iv :=
  let x2 := x.mul P x
  seriesSum (fun k t => (t.mul P x2).divN (2 * k + 3)) (P + 700) 0 x x

/-- erf(x / sqrt 2) for a positive fraction n / d of size at most 24: sqrt(2/pi) e^(-x^2/2) times the sum above. -/
def erfHalf (P n d : Nat) : Iv :=
  let c := Iv.sqrt P (((Iv.one P).mulI 2).div P (piIv P))
  (c.mul P (expIv P (-(n * n : Nat)) (2 * d * d))).mul P (erfSum P (Iv.ofRat P n d))

/-- Bounds of |f(x)| for a finite nonzero x = plus or minus n / d, and the result's sign. -/
def sfBounds (fn : SFn) (P : Nat) (neg : Bool) (n d : Nat) : Bool × Iv :=
  let sx : Int := if neg then -n else n
  let one := Iv.one P
  match fn with
  | .exp => (false, expIv P sx d)
  | .exp2 =>
    let k := sx / d
    (false, (expSmall P ((ln2Iv P).mul P (Iv.ofRat P (sx - k * d) d))).shift k)
  | .ln => let v := lnIv P n d; if v.hi < 0 then (true, v.mulI (-1)) else (false, v)
  | .log2 => let v := (lnIv P n d).div P (ln2Iv P); if v.hi < 0 then (true, v.mulI (-1)) else (false, v)
  | .tanh => let e := expIv P (-(2 * n : Nat)) d; (neg, (one.sub e).div P (one.add e))
  | .sigm =>
    let e := expIv P (-(n : Nat)) d
    (false, if neg then e.div P (one.add e) else one.div P (one.add e))
  | .gelu =>
    let e := erfHalf P n d
    let x := Iv.ofRat P n d
    (neg, ((if neg then one.sub e else one.add e).mul P x).divN 2)
  | .erf =>
    -- erf(x) = erf(x sqrt 2 / sqrt 2): the sum at x sqrt 2
    let y := (Iv.sqrt P ((Iv.one P).mulI 2)).mul P (Iv.ofRat P n d)
    let c := Iv.sqrt P (((Iv.one P).mulI 2).div P (piIv P))
    (neg, (c.mul P (expIv P (-(n * n : Nat)) (d * d))).mul P (erfSum P y))
  | _ => (neg, one)

/-- Rounding of a value known by bounds, at growing precision; at the last one the lower bound decides (log 10). -/
def roundBounds {α : Type} [DecidableEq α] (r : Bool → Nat → Nat → α) (fn : SFn) (neg : Bool) (n d : Nat) : Nat → Nat → α
  | 0, P =>
    let b := sfBounds fn P neg n d
    r b.1 (max 1 b.2.lo.toNat) (2 ^ P)
  | k + 1, P =>
    let b := sfBounds fn P neg n d
    if 0 < b.2.lo then
      let lo := r b.1 b.2.lo.toNat (2 ^ P)
      let hi := r b.1 b.2.hi.toNat (2 ^ P)
      if lo = hi then lo else roundBounds r fn neg n d k (2 * P)
    else roundBounds r fn neg n d k (2 * P)

/-- n / d is at least k. -/
def atLeast (n d k : Nat) : Bool := k * d ≤ n

/-- A value whose size makes its rounding plain: just below 1 or below x, far beyond fmax, or far below every subnormal. GELU from 24 up is
less than 2^-415 below x, which as a sum of a product of FP32 values and an FP32 value is a multiple of 2^-298, and so is every tie. -/
def plainCase (fn : SFn) (neg : Bool) (n d : Nat) : Option SRes :=
  let tiny : SRes := .rat neg 1 (2 ^ 300)
  let posTiny : SRes := .rat false 1 (2 ^ 300)
  let huge : SRes := .rat false (2 ^ 300) 1
  let belowOne (s : Bool) : SRes := .rat s (2 ^ 250 - 1) (2 ^ 250)
  match fn with
  | .exp => if atLeast n d 128 then some (if neg then posTiny else huge) else none
  | .exp2 =>
    if n % d = 0 ∧ n / d ≤ 400 then some (if neg then .rat false 1 (2 ^ (n / d)) else .rat false (2 ^ (n / d)) 1)
    else if atLeast n d 160 then some (if neg then posTiny else huge) else none
  | .ln => if n = d then some (.exact (.fin false 0 0)) else none
  | .log2 =>
    let e := ilog2 n d
    if (if 0 ≤ e then n = d * 2 ^ e.toNat else n * 2 ^ (-e).toNat = d) then some (.exact (ofInt e)) else none
  | .rcp => some (.rat neg d n)
  | .rsqrt => some (rootRat d n 200)
  | .sqrt => some (rootRat n d 200)
  | .tanh => if atLeast n d 20 then some (belowOne neg) else none
  | .sigm => if neg then (if atLeast n d 128 then some posTiny else none) else if atLeast n d 32 then some (belowOne false) else none
  | .gelu =>
    if neg then (if atLeast n d 16 then some tiny else none)
    else if atLeast n d 24 then some (.rat false (n * (2 ^ 2000 - 1)) (d * 2 ^ 2000)) else none
  | .erf => if atLeast n d 6 then some (belowOne neg) else none

/-- The special inputs of R161. -/
def sfSpecial (fn : SFn) (x : FVal) : Option FVal :=
  let zero (n : Bool) : FVal := .fin n 0 0
  let one (n : Bool) : FVal := .fin n 1 0
  let bad : FVal := .nan canonNaN
  match x with
  | .nan b => some (.nan b)
  | .inf n =>
    some <| match fn with
    | .exp | .exp2 => if n then zero false else .inf false
    | .ln | .log2 | .sqrt => if n then bad else .inf false
    | .rcp => zero n
    | .rsqrt => if n then bad else zero false
    | .tanh | .erf => one n
    | .sigm => if n then zero false else one false
    | .gelu => if n then zero true else .inf false
  | .fin n m _ =>
    if m = 0 then
      some <| match fn with
      | .exp | .exp2 => one false
      | .ln | .log2 => .inf true
      | .rcp | .rsqrt => .inf n
      | .sqrt | .tanh | .gelu | .erf => zero n
      | .sigm => .fin false 1 (-1)
    else if n then
      match fn with
      | .ln | .log2 | .rsqrt | .sqrt => some bad
      | _ => none
    else none

/-- A value rounded by `r`, from a finite nonzero argument of no special or plain case. GELU from 8 up lies between x and
x (1 - 2^-50), which as a rule round alike. -/
def sfBy {α : Type} [DecidableEq α] (r : Bool → Nat → Nat → α) (fn : SFn) (neg : Bool) (n d : Nat) : α :=
  let a := r false (n * (2 ^ 2000 - 1)) (d * 2 ^ 2000)
  if fn = .gelu ∧ neg = false ∧ atLeast n d 8 ∧ a = r false (n * (2 ^ 50 - 1)) (d * 2 ^ 50) then a
  else roundBounds r fn neg n d 6 96

/-- rnd(f(x), fmt, rm) (R161). -/
def sfRound (fn : SFn) (f : FFmt) (rm : RMode) (x : FVal) : Nat :=
  match sfSpecial fn x with
  | some v => f.rnd rm v
  | none =>
    match x with
    | .fin neg m e =>
      let g := magFrac m e
      match plainCase fn neg g.1 g.2 with
      | some r => r.rnd f rm
      | none => sfBy (f.rndRat rm) fn neg g.1 g.2
    | _ => 0

/-- rnd(f(x), an integer range, RNE) (R111, 13 R230). -/
def sfInt (fn : SFn) (x : FVal) (lo hi : Int) : Int :=
  let r (neg : Bool) (n d : Nat) : Int :=
    let k : Int := roundAt .near n d 0
    satI (if neg then -k else k) lo hi
  match sfSpecial fn x with
  | some v => rndToInt .rne v lo hi
  | none =>
    match x with
    | .fin neg m e =>
      let g := magFrac m e
      match plainCase fn neg g.1 g.2 with
      | some (.exact v) => rndToInt .rne v lo hi
      | some (.rat s n d) => r s n d
      | none => sfBy r fn neg g.1 g.2
    | _ => 0

/-- A special function's lane under a floating TY (R147, R161). -/
def sfLane (fn : SFn) (ty : FTy) (rm : RMode) (x : W32) : W32 :=
  match ty, fpVal x with
  | .f32, .nan b => b
  | .f32, v => BitVec.ofNat 32 (sfRound fn fp32 rm v)
  | .bf16, v => BitVec.ofNat 32 (sfRound fn bf16 rm v * 2 ^ 16)

/-- An activation applied to an exact value and rounded once (13 R230, R231): identity, relu, or a special function. -/
def actRound (fn : Option SFn) (f : FFmt) (rm : RMode) (x : FVal) : Nat :=
  match fn with
  | none => f.rnd rm x
  | some s => sfRound s f rm x
/-- The same into an integer range. -/
def actInt (fn : Option SFn) (x : FVal) (lo hi : Int) : Int :=
  match fn with
  | none => rndToInt .rne x lo hi
  | some s => sfInt s x lo hi

end Sys2Proof
end

