-- ==== Sys2Proof/Machine/VecFn.lean ====
section
/-!
DEFINITION. What a VEC operation word computes from its source tiles (08 R146 to R168).
-/
namespace Sys2Proof.Machine

/-- Latency classes of VEC (R79, R162). -/
inductive VClass where
  | simple | multiply | rows | cols | rng | pack | special
deriving DecidableEq, Repr

/-- What a word writes and what it finds: whole tiles for VD and for VD + 1, or byte runs within VD; the first lane that produces a
NaN; the lowest failing block. -/
structure VOut where
  tile : Tile := []
  index : Option Tile := none
  part : Option (List (Nat × List Byte)) := none
  nan : Option Nat := none
  bad : Option Nat := none
deriving DecidableEq, Repr

/-- The meaning of an operation word: operands, class, LEGACYCNT use, and the function of the source tiles. -/
structure VSem where
  dst : VDst
  srcs : List VSrc
  imm : W64
  cls : VClass
  legacy : Bool := false
  /-- VD + 1 is written too (R160). -/
  pair : Bool := false
  run : List Tile → VOut

/-- Lanes of a tile. -/
def laneCount : Nat := 1024
/-- Lane k of a tile. -/
def laneAt (t : Tile) (k : Nat) : W32 := t.getD k 0
/-- The lanes of k-th position of some tiles, one list a lane. -/
def lanesWise (ts : List Tile) (f : List W32 → W32) : Tile :=
  match ts with
  | [] => []
  | [a] => a.map fun x => f [x]
  | [a, b] => List.zipWith (fun x y => f [x, y]) a b
  | a :: b :: c :: _ => List.zipWith (fun x yz => f [x, yz.1, yz.2]) a (b.zip c)

/-- The first lane of a tile that is a NaN where no source lane is one (R150). -/
def firstNew (ts : List Tile) (out : Tile) : Option Nat :=
  (List.zipWith (fun (x y : W32) => laneNaN y && x == 0) (lanesWise ts fun ls => if ls.any laneNaN then 1 else 0) out).findIdx? id

/-- A floating element-wise word: the first NaN operand, else the value stored by R147. -/
def floatSem (ty : FTy) (rm : RMode) (d : VDst) (srcs : List VSrc) (i : W64) (cls : VClass) (g : List FVal → FVal) : VSem :=
  { dst := d, srcs := srcs, imm := i, cls := cls
    run := fun ts =>
      let out := lanesWise ts fun ls => let vs := ls.map fpVal; ty.store rm (firstNaN vs (g vs))
      { tile := out, nan := firstNew ts out } }

/-- A lane as an integer of a type (R147). -/
def ITy.read (ty : ITy) (x : W32) : Int :=
  match ty with
  | .i32 => x.toInt
  | .u32 => (x.toNat : Int)
/-- An integer stored by R147. -/
def ITy.store (ty : ITy) (sat : Bool) (y : Int) : W32 :=
  if sat then
    match ty with
    | .i32 => laneOfInt (satI y (-2 ^ 31) (2 ^ 31 - 1))
    | .u32 => laneOfInt (satI y 0 (2 ^ 32 - 1))
  else laneOfInt y

/-- A word whose lanes are computed alone and produce no NaN. -/
def rawSem (d : VDst) (srcs : List VSrc) (i : W64) (cls : VClass) (g : List W32 → W32) : VSem :=
  { dst := d, srcs := srcs, imm := i, cls := cls, run := fun ts => { tile := lanesWise ts g } }
/-- An integer element-wise word of two sources (R153). -/
def intSem (ty : ITy) (sat : Bool) (d : VDst) (a b : VSrc) (i : W64) (cls : VClass) (g : Int → Int → Int) : VSem :=
  rawSem d [a, b] i cls fun ls => ITy.store ty sat (g (ITy.read ty (ls.getD 0 0)) (ITy.read ty (ls.getD 1 0)))
/-- A logic or shift word (R153). -/
def bitSem (d : VDst) (a b : VSrc) (i : W64) (g : W32 → W32 → W32) : VSem :=
  rawSem d [a, b] i .simple fun ls => g (ls.getD 0 0) (ls.getD 1 0)

/-- The arguments of a function of values. -/
def fv (vs : List FVal) (k : Nat) : FVal := vs.getD k (.fin false 0 0)

/-! ### Floating group (R151, R152, R168) -/

/-- VADD. -/
def semVadd (ty : FTy) (rm : RMode) (d : VDst) (a b : VSrc) (i : W64) : VSem :=
  floatSem ty rm d [a, b] i .simple fun v => fadd rm (fv v 0) (fv v 1)
/-- VSUB. -/
def semVsub (ty : FTy) (rm : RMode) (d : VDst) (a b : VSrc) (i : W64) : VSem :=
  floatSem ty rm d [a, b] i .simple fun v => fadd rm (fv v 0) (fneg (fv v 1))
/-- VMUL. -/
def semVmul (ty : FTy) (rm : RMode) (d : VDst) (a b : VSrc) (i : W64) : VSem :=
  floatSem ty rm d [a, b] i .multiply fun v => fmul (fv v 0) (fv v 1)
/-- VFMA. -/
def semVfma (ty : FTy) (rm : RMode) (d : VDst) (a b c : VSrc) (i : W64) : VSem :=
  floatSem ty rm d [a, b, c] i .multiply fun v => fadd rm (fmul (fv v 0) (fv v 1)) (fv v 2)
/-- VFMS. -/
def semVfms (ty : FTy) (rm : RMode) (d : VDst) (a b c : VSrc) (i : W64) : VSem :=
  floatSem ty rm d [a, b, c] i .multiply fun v => fadd rm (fmul (fv v 0) (fv v 1)) (fneg (fv v 2))
/-- VFNMA. -/
def semVfnma (ty : FTy) (rm : RMode) (d : VDst) (a b c : VSrc) (i : W64) : VSem :=
  floatSem ty rm d [a, b, c] i .multiply fun v => fadd rm (fv v 2) (fneg (fmul (fv v 0) (fv v 1)))
/-- VMIN, with -0 below +0. -/
def semVmin (ty : FTy) (rm : RMode) (d : VDst) (a b : VSrc) (i : W64) : VSem :=
  floatSem ty rm d [a, b] i .simple fun v => if fltz (fv v 1) (fv v 0) then fv v 1 else fv v 0
/-- VMAX, with -0 below +0. -/
def semVmax (ty : FTy) (rm : RMode) (d : VDst) (a b : VSrc) (i : W64) : VSem :=
  floatSem ty rm d [a, b] i .simple fun v => if fltz (fv v 0) (fv v 1) then fv v 1 else fv v 0
/-- VABS. -/
def semVabs (ty : FTy) (rm : RMode) (d : VDst) (a : VSrc) (i : W64) : VSem :=
  floatSem ty rm d [a] i .simple fun v => fabs (fv v 0)
/-- VNEG. -/
def semVneg (ty : FTy) (rm : RMode) (d : VDst) (a : VSrc) (i : W64) : VSem :=
  floatSem ty rm d [a] i .simple fun v => fneg (fv v 0)

/-- The quotient or remainder of two lanes (R152). -/
def laneDiv (ty : ITy) (rem : Bool) (x y : W32) : W32 :=
  let n := ITy.read ty x
  let m := ITy.read ty y
  if m = 0 then (if rem then x else BitVec.allOnes 32) else laneOfInt (if rem then n.tmod m else n.tdiv m)
/-- A floating quotient stored by R147. -/
def fdivLane (ty : FTy) (rm : RMode) (x y : W32) : W32 :=
  let v := firstNaN [fpVal x, fpVal y] (.fin false 0 0)
  if v.isNaN then ty.store rm v
  else match ty, fdiv (fpVal x) (fpVal y) with
    | .f32, .exact (.nan b) => b
    | .f32, r => BitVec.ofNat 32 (r.rnd fp32 rm)
    | .bf16, r => BitVec.ofNat 32 (r.rnd bf16 rm * 2 ^ 16)
/-- VDIV, floating and integer. -/
def semVdiv (ty : VTy) (rm : RMode) (d : VDst) (a b : VSrc) (i : W64) : VSem :=
  let float (f : FTy) : VSem :=
    { dst := d, srcs := [a, b], imm := i, cls := .special
      run := fun ts =>
        let out := lanesWise ts fun ls => fdivLane f rm (ls.getD 0 0) (ls.getD 1 0)
        { tile := out, nan := firstNew ts out } }
  match ty with
  | .f32 => float .f32
  | .bf16 => float .bf16
  | .i32 => rawSem d [a, b] i .special fun ls => laneDiv .i32 false (ls.getD 0 0) (ls.getD 1 0)
  | .u32 => rawSem d [a, b] i .special fun ls => laneDiv .u32 false (ls.getD 0 0) (ls.getD 1 0)
/-- VDIV with the remainder function. -/
def semVdivRem (ty : ITy) (d : VDst) (a b : VSrc) (i : W64) : VSem :=
  rawSem d [a, b] i .special fun ls => laneDiv ty true (ls.getD 0 0) (ls.getD 1 0)
/-- VFMA16 reads the BF16 in [31:16] of each lane (R168). -/
def semVfma16 (rm : RMode) (d : VDst) (a b c : VSrc) (i : W64) : VSem :=
  let g := fun (v : List FVal) => fadd rm (fmul (fv v 0) (fv v 1)) (fv v 2)
  { dst := d, srcs := [a, b, c], imm := i, cls := .multiply, legacy := true
    run := fun ts =>
      let ms := ts.map fun t => t.map fun x => x &&& 0xFFFF0000
      let out := lanesWise ms fun ls => let vs := ls.map fpVal; rndBf16 rm (firstNaN vs (g vs))
      { tile := out, nan := firstNew ms out } }

/-! ### Integer group (R153) -/

/-- VIADD. -/
def semViadd (ty : ITy) (sat : Bool) (d : VDst) (a b : VSrc) (i : W64) : VSem := intSem ty sat d a b i .simple fun x y => x + y
/-- VISUB. -/
def semVisub (ty : ITy) (sat : Bool) (d : VDst) (a b : VSrc) (i : W64) : VSem := intSem ty sat d a b i .simple fun x y => x - y
/-- VIMUL. -/
def semVimul (ty : ITy) (sat : Bool) (d : VDst) (a b : VSrc) (i : W64) : VSem := intSem ty sat d a b i .multiply fun x y => x * y
/-- VIMULH. -/
def semVimulh (ty : ITy) (d : VDst) (a b : VSrc) (i : W64) : VSem := intSem ty false d a b i .multiply fun x y => x * y / 2 ^ 32
/-- VIMIN. -/
def semVimin (ty : ITy) (d : VDst) (a b : VSrc) (i : W64) : VSem := intSem ty false d a b i .simple fun x y => if y < x then y else x
/-- VIMAX. -/
def semVimax (ty : ITy) (d : VDst) (a b : VSrc) (i : W64) : VSem := intSem ty false d a b i .simple fun x y => if x < y then y else x
/-- VAND. -/
def semVand (_ty : ITy) (d : VDst) (a b : VSrc) (i : W64) : VSem := bitSem d a b i fun x y => x &&& y
/-- VOR. -/
def semVor (_ty : ITy) (d : VDst) (a b : VSrc) (i : W64) : VSem := bitSem d a b i fun x y => x ||| y
/-- VXOR. -/
def semVxor (_ty : ITy) (d : VDst) (a b : VSrc) (i : W64) : VSem := bitSem d a b i fun x y => x ^^^ y
/-- VSHL. -/
def semVshl (_ty : ITy) (d : VDst) (a b : VSrc) (i : W64) : VSem := bitSem d a b i fun x y => x <<< (y.toNat % 32)
/-- VSHR. -/
def semVshr (_ty : ITy) (d : VDst) (a b : VSrc) (i : W64) : VSem := bitSem d a b i fun x y => x >>> (y.toNat % 32)
/-- VSRA. -/
def semVsra (_ty : ITy) (d : VDst) (a b : VSrc) (i : W64) : VSem := bitSem d a b i fun x y => x.sshiftRight (y.toNat % 32)

/-! ### Compare, select, convert and set (R154, R155, R163) -/

/-- The order of a type on lanes; floating -0 is below +0 (R151, R160). -/
def NTy.below (ty : NTy) (x y : W32) : Bool :=
  match ty with
  | .f32 => fltz (fpVal x) (fpVal y)
  | .i32 => x.slt y
  | .u32 => x.ult y
/-- A comparison of R154; -0 equals +0. -/
def vcmpHolds (cc : VCond) (ty : NTy) (x y : W32) : Bool :=
  let lt (p q : W32) : Bool := match ty with
    | .f32 => flt (fpVal p) (fpVal q)
    | .i32 => p.slt q
    | .u32 => p.ult q
  let nan := ty == .f32 && (laneNaN x || laneNaN y)
  let eq := match ty with
    | .f32 => feq (fpVal x) (fpVal y)
    | _ => x == y
  match cc with
  | .eq => eq
  | .ne => !eq
  | .lt => lt x y
  | .le => !nan && !lt y x
  | .gt => lt y x
  | .ge => !nan && !lt x y
  | .un => nan
/-- VCMP. -/
def semVcmp (cc : VCond) (ty : NTy) (d : VDst) (a b : VSrc) (i : W64) : VSem :=
  bitSem d a b i fun x y => if vcmpHolds cc ty x y then BitVec.allOnes 32 else 0
/-- VSEL. -/
def semVsel (d : VDst) (a b c : VSrc) (i : W64) : VSem :=
  rawSem d [a, b, c] i .simple fun ls => if ls.getD 0 0 = 0 then ls.getD 2 0 else ls.getD 1 0
/-- A lane converted (R155). -/
def cvtLane (dt st : VTy) (rm : RMode) (x : W32) : W32 :=
  let v : FVal := match st with
    | .f32 | .bf16 => fpVal x
    | .i32 => ofInt x.toInt
    | .u32 => ofInt x.toNat
  match dt with
  | .f32 => rndFp32 rm v
  | .bf16 => rndBf16 rm v
  | .i32 => laneOfInt (rndToInt rm v (-2 ^ 31) (2 ^ 31 - 1))
  | .u32 => laneOfInt (rndToInt rm v 0 (2 ^ 32 - 1))
/-- VCVT. -/
def semVcvt (dt st : VTy) (rm : RMode) (d : VDst) (a : VSrc) (i : W64) : VSem :=
  rawSem d [a] i .multiply fun ls => cvtLane dt st rm (ls.getD 0 0)
/-- VMOV. -/
def semVmov (d : VDst) (a : VSrc) (i : W64) : VSem := rawSem d [a] i .simple fun ls => ls.getD 0 0
/-- VSETI: a whole tile, one lane of it replaced. -/
def semVseti (d : VDst) (a : VSrc) (row : BitVec 4) (col : BitVec 6) (v : W32) : VSem :=
  { dst := d, srcs := [a], imm := v.setWidth 64 ||| (row.setWidth 64 <<< 32), cls := .simple
    run := fun ts => { tile := (ts.getD 0 []).set (64 * row.toNat + col.toNat) v } }
/-- VIOTA. -/
def semViota (k : IotaKind) (d : VDst) (base : W32) : VSem :=
  { dst := d, srcs := [], imm := 0, cls := .simple
    run := fun _ => { tile := (List.range laneCount).map fun n =>
      base + BitVec.ofNat 32 (match k with | .lin => n | .col => n % 64 | .row => n / 64) } }
/-- The generator of R163 on one counter. -/
def rngLane (key : W64) (counter : W32) : W32 :=
  let x := (counter ^^^ key.setWidth 32) * 0x9E3779B1
  let x := x ^^^ (x >>> 16)
  let x := (x ^^^ (key >>> 32).setWidth 32) * 0x85EBCA77
  let x := x ^^^ (x >>> 13)
  let x := x * 0xC2B2AE3D
  x ^^^ (x >>> 16)
/-- VRNG, raw form. -/
def semVrngRaw (d : VDst) (a : VSrc) (key : W64) : VSem := rawSem d [a] key .rng fun ls => rngLane key (ls.getD 0 0)
/-- VRNG, uniform form. -/
def semVrngUni (d : VDst) (a : VSrc) (key : W64) : VSem :=
  rawSem d [a] key .rng fun ls =>
    rndFp32 .rtz (.fin false (2 * ((rngLane key (ls.getD 0 0)).toNat / 256) + 1) (-25))
/-- VCLAMP: min(max(a, b), c). -/
def semVclamp (ty : NTy) (d : VDst) (a b c : VSrc) (i : W64) : VSem :=
  rawSem d [a, b, c] i .simple fun ls =>
    let x := ls.getD 0 0
    let y := ls.getD 1 0
    let z := ls.getD 2 0
    match ty, ls.find? laneNaN with
    | .f32, some n => n
    | _, _ =>
      let m := if NTy.below ty x y then y else x
      if NTy.below ty z m then z else m

/-! ### Row axis and column axis (R156 to R160) -/

/-- A function of each group of an axis, laid back into a tile (R156). -/
def axisMap (ax : Axis) (f : List W32 → List W32) (t : Tile) : Tile :=
  match ax with
  | .row => (List.range 16).flatMap fun i => f ((t.drop (64 * i)).take 64)
  | .col =>
    let gs := (List.range 64).map fun c => f ((List.range 16).map fun i => laneAt t (64 * i + c))
    (List.range 16).flatMap fun i => gs.map fun g => g.getD i 0
/-- Class of an axis word (R156). -/
def axisClass (ax : Axis) : VClass :=
  match ax with
  | .row => .rows
  | .col => .cols
/-- An axis word that produces no NaN. -/
def axisSem (ax : Axis) (d : VDst) (a : VSrc) (i : W64) (f : List W32 → List W32) : VSem :=
  { dst := d, srcs := [a], imm := i, cls := axisClass ax, run := fun ts => { tile := axisMap ax f (ts.getD 0 []) } }
/-- An axis word of TY 0 that may: `seen` tells which lanes an output lane reads hold a NaN. -/
def axisSemNaN (ax : Axis) (d : VDst) (a : VSrc) (i : W64) (f : List W32 → List W32) (seen : List W32 → List W32) : VSem :=
  { dst := d, srcs := [a], imm := i, cls := axisClass ax
    run := fun ts =>
      let t := ts.getD 0 []
      let out := axisMap ax f t
      { tile := out
        nan := (List.zipWith (fun (x y : W32) => laneNaN y && x == 0) (axisMap ax seen t) out).findIdx? id } }

/-- VROT. -/
def semVrot (ax : Axis) (amt : BitVec 6) (d : VDst) (a : VSrc) (i : W64) : VSem :=
  axisSem ax d a i fun g => g.drop amt.toNat ++ g.take amt.toNat
/-- VBCAST. -/
def semVbcast (ax : Axis) (amt : BitVec 6) (d : VDst) (a : VSrc) (i : W64) : VSem :=
  axisSem ax d a i fun g => List.replicate g.length (g.getD amt.toNat 0)
/-- VSHIFT down. -/
def semVshiftDn (ax : Axis) (amt : BitVec 6) (d : VDst) (a : VSrc) (i : W64) : VSem :=
  axisSem ax d a i fun g => g.drop amt.toNat ++ List.replicate amt.toNat 0
/-- VSHIFT up. -/
def semVshiftUp (ax : Axis) (amt : BitVec 6) (d : VDst) (a : VSrc) (i : W64) : VSem :=
  axisSem ax d a i fun g => List.replicate amt.toNat 0 ++ g.take (g.length - amt.toNat)

/-- One rounded FP32 addition, the first NaN passed on. -/
def addLane (rm : RMode) (x y : W32) : W32 :=
  rndFp32 rm (firstNaN [fpVal x, fpVal y] (fadd rm (fpVal x) (fpVal y)))
/-- The tree of R158: halves added pairwise until one lane is left. -/
def treeSum (rm : RMode) : Nat → List W32 → List W32
  | 0, s => s
  | k + 1, s => treeSum rm k (List.zipWith (addLane rm) (s.take (s.length / 2)) (s.drop (s.length / 2)))
/-- Levels of R158's tree: 64 lanes of a row, 16 of a column. -/
def treeDepth (ax : Axis) : Nat :=
  match ax with
  | .row => 6
  | .col => 4
/-- 1 in every lane of a group that holds a NaN. -/
def groupNaN (g : List W32) : List W32 := List.replicate g.length (if g.any laneNaN then 1 else 0)
/-- The integer type of TY 1 and 2. -/
def NTy.int (ty : NTy) : ITy :=
  match ty with
  | .u32 => .u32
  | _ => .i32
/-- VRSUM. -/
def semVrsum (ty : NTy) (rm : RMode) (sat : Bool) (ax : Axis) (d : VDst) (a : VSrc) (i : W64) : VSem :=
  match ty with
  | .f32 => axisSemNaN ax d a i (fun g => List.replicate g.length ((treeSum rm (treeDepth ax) g).getD 0 0)) groupNaN
  | _ => axisSem ax d a i fun g =>
      List.replicate g.length (ITy.store (NTy.int ty) sat (g.foldl (fun t x => t + ITy.read (NTy.int ty) x) 0))

/-- FP32 prefix sums of R159 from a running sum. -/
def scanF (rm : RMode) (excl : Bool) : W32 → List W32 → List W32
  | _, [] => []
  | t, x :: g => let u := addLane rm t x; (if excl then t else u) :: scanF rm excl u g
/-- Exact integer prefix sums of R159, each stored by R147. -/
def scanI (ty : ITy) (sat excl : Bool) : Int → List W32 → List W32
  | _, [] => []
  | t, x :: g => let u := t + ITy.read ty x; ITy.store ty sat (if excl then t else u) :: scanI ty sat excl u g
/-- 1 in every lane whose prefix holds a NaN. -/
def prefixNaN (excl : Bool) : Bool → List W32 → List W32
  | _, [] => []
  | b, x :: g => let c := b || laneNaN x; (if (if excl then b else c) then 1 else 0) :: prefixNaN excl c g
/-- VSCAN. -/
def scanSem (excl : Bool) (ty : NTy) (rm : RMode) (sat : Bool) (ax : Axis) (d : VDst) (a : VSrc) (i : W64) : VSem :=
  match ty with
  | .f32 => axisSemNaN ax d a i (scanF rm excl 0) (prefixNaN excl false)
  | _ => axisSem ax d a i (scanI (NTy.int ty) sat excl 0)
/-- VSCAN, inclusive form. -/
def semVscanIncl (ty : NTy) (rm : RMode) (sat : Bool) (ax : Axis) (d : VDst) (a : VSrc) (i : W64) : VSem :=
  scanSem false ty rm sat ax d a i
/-- VSCAN, exclusive form. -/
def semVscanExcl (ty : NTy) (rm : RMode) (sat : Bool) (ax : Axis) (d : VDst) (a : VSrc) (i : W64) : VSem :=
  scanSem true ty rm sat ax d a i

/-- x displaces y as the best of a group (R160). -/
def beats (max : Bool) (ty : NTy) (x y : W32) : Bool :=
  match ty with
  | .f32 => !laneNaN x && (laneNaN y || if max then NTy.below ty y x else NTy.below ty x y)
  | _ => if max then NTy.below ty y x else NTy.below ty x y
/-- The best position of a group and its lane: the walk of R160 from a position on. -/
def bestFrom (max : Bool) (ty : NTy) : Nat → Nat × W32 → List W32 → Nat × W32
  | _, b, [] => b
  | p, b, x :: g => bestFrom max ty (p + 1) (if beats max ty x b.2 then (p, x) else b) g
/-- The best of a whole group. -/
def bestOf (max : Bool) (ty : NTy) (g : List W32) : Nat × W32 :=
  match g with
  | [] => (0, 0)
  | x :: r => bestFrom max ty 1 (0, x) r
/-- VRMAX and VRMIN. -/
def bestSem (max : Bool) (ty : NTy) (ax : Axis) (d : VDst) (a : VSrc) (i : W64) : VSem :=
  axisSem ax d a i fun g => List.replicate g.length (bestOf max ty g).2
/-- VRMAXI and VRMINI: the index goes to VD + 1. -/
def bestIdxSem (max : Bool) (ty : NTy) (ax : Axis) (d : VDst) (a : VSrc) (i : W64) : VSem :=
  { dst := d, srcs := [a], imm := i, cls := axisClass ax, pair := true
    run := fun ts =>
      let t := ts.getD 0 []
      { tile := axisMap ax (fun g => List.replicate g.length (bestOf max ty g).2) t
        index := some (axisMap ax (fun g => List.replicate g.length (BitVec.ofNat 32 (bestOf max ty g).1)) t) } }
/-- VRMAX. -/
def semVrmax (ty : NTy) (ax : Axis) (d : VDst) (a : VSrc) (i : W64) : VSem := bestSem true ty ax d a i
/-- VRMIN. -/
def semVrmin (ty : NTy) (ax : Axis) (d : VDst) (a : VSrc) (i : W64) : VSem := bestSem false ty ax d a i
/-- VRMAXI. -/
def semVrmaxi (ty : NTy) (ax : Axis) (d : VDst) (a : VSrc) (i : W64) : VSem := bestIdxSem true ty ax d a i
/-- VRMINI. -/
def semVrmini (ty : NTy) (ax : Axis) (d : VDst) (a : VSrc) (i : W64) : VSem := bestIdxSem false ty ax d a i

/-! ### Special functions (R161) -/

/-- A special function word. -/
def sfSem (fn : SFn) (ty : FTy) (rm : RMode) (d : VDst) (a : VSrc) (i : W64) : VSem :=
  { dst := d, srcs := [a], imm := i, cls := .special
    run := fun ts =>
      let out := lanesWise ts fun ls => sfLane fn ty rm (ls.getD 0 0)
      { tile := out, nan := firstNew ts out } }
/-- VEXP. -/
def semVexp (ty : FTy) (rm : RMode) (d : VDst) (a : VSrc) (i : W64) : VSem := sfSem .exp ty rm d a i
/-- VEXP2. -/
def semVexp2 (ty : FTy) (rm : RMode) (d : VDst) (a : VSrc) (i : W64) : VSem := sfSem .exp2 ty rm d a i
/-- VLN. -/
def semVln (ty : FTy) (rm : RMode) (d : VDst) (a : VSrc) (i : W64) : VSem := sfSem .ln ty rm d a i
/-- VLOG2. -/
def semVlog2 (ty : FTy) (rm : RMode) (d : VDst) (a : VSrc) (i : W64) : VSem := sfSem .log2 ty rm d a i
/-- VRCP. -/
def semVrcp (ty : FTy) (rm : RMode) (d : VDst) (a : VSrc) (i : W64) : VSem := sfSem .rcp ty rm d a i
/-- VRSQRT. -/
def semVrsqrt (ty : FTy) (rm : RMode) (d : VDst) (a : VSrc) (i : W64) : VSem := sfSem .rsqrt ty rm d a i
/-- VSQRT. -/
def semVsqrt (ty : FTy) (rm : RMode) (d : VDst) (a : VSrc) (i : W64) : VSem := sfSem .sqrt ty rm d a i
/-- VTANH. -/
def semVtanh (ty : FTy) (rm : RMode) (d : VDst) (a : VSrc) (i : W64) : VSem := sfSem .tanh ty rm d a i
/-- VSIGM. -/
def semVsigm (ty : FTy) (rm : RMode) (d : VDst) (a : VSrc) (i : W64) : VSem := sfSem .sigm ty rm d a i
/-- VGELU. -/
def semVgelu (ty : FTy) (rm : RMode) (d : VDst) (a : VSrc) (i : W64) : VSem := sfSem .gelu ty rm d a i
/-- VERF. -/
def semVerf (ty : FTy) (rm : RMode) (d : VDst) (a : VSrc) (i : W64) : VSem := sfSem .erf ty rm d a i

/-! ### Blocks in tiles (R164 to R167) -/

/-- Block j of a tile (R164). -/
def tileBlock (t : Tile) (j : Nat) : Block := blockOf (bytesOf ((t.drop (16 * j)).take 16))
/-- VUNPK. -/
def semVunpk (hi : Bool) (ty : FTy) (rm : RMode) (amt : BitVec 6) (d : VDst) (a : VSrc) (i : W64) : VSem :=
  { dst := d, srcs := [a], imm := i, cls := .pack
    run := fun ts =>
      let t := ts.getD 0 []
      let js := (List.range 16).map fun r => (amt.toNat + r) % 64
      let ys : List FVal := js.flatMap fun j =>
        let b := tileBlock t j
        (List.range 64).map fun c => blkVal b (c + if hi then 64 else 0)
      { tile := ys.map fun y => ty.store rm y
        nan := ys.findIdx? FVal.isNaN
        bad := (js.filter fun j => !blkOk (tileBlock t j)).min? } }
/-- The block that VPACK makes of a row (R166). -/
def packRow (f : BlkFmt) (sc : Option Nat) (xs : List FVal) : Block :=
  match sc with
  | some k => if k / 256 = 0 ∨ k / 256 = 255 then emptyBlock f k xs.length else packBlock f k xs
  | none => packBlock f (chooseScale f xs) xs
/-- VPACK writes 16 blocks of VD. -/
def semVpack (fmt : BlkFmt) (sg : Bool) (amt : BitVec 6) (n : BitVec 7) (d : VDst) (a b c : VSrc) : VSem :=
  let cnt := if n = 0 then fmt.full else n.toNat
  { dst := d, srcs := [a] ++ (if 64 < cnt then [b] else []) ++ (if sg then [c] else []), imm := n.setWidth 64, cls := .pack
    run := fun ts =>
      let ta := ts.getD 0 []
      let tb := if 64 < cnt then ts.getD 1 [] else []
      let tc := if sg then (ts.getLast?.getD []) else []
      let row (r : Nat) : Nat × List Byte :=
        let xs := (((ta.drop (64 * r)).take 64) ++ ((tb.drop (64 * r)).take 64)).take cnt
        let sc := if sg then some ((laneAt tc (64 * r)).toNat % 2 ^ 16) else none
        (64 * ((amt.toNat + r) % 64), blockBytes (packRow fmt sc (xs.map fpVal)))
      { part := some ((List.range 16).map row) } }
/-- Pairs of lanes packed as BF16 (R167). -/
def packPairs (rm : RMode) : List W32 → List W32
  | x :: y :: r =>
    BitVec.ofNat 32 (bf16.rnd rm (fpVal x) + 2 ^ 16 * bf16.rnd rm (fpVal y)) :: packPairs rm r
  | _ => []
/-- VPKBF. -/
def semVpkbf (rm : RMode) (d : VDst) (a b : VSrc) (i : W64) : VSem :=
  { dst := d, srcs := [a, b], imm := i, cls := .pack
    run := fun ts =>
      let row (t : Tile) (r : Nat) : Tile := packPairs rm ((t.drop (64 * r)).take 64)
      { tile := (List.range 16).flatMap fun r => row (ts.getD 0 []) r ++ row (ts.getD 1 []) r } }
/-- VUPBF. -/
def semVupbf (hi : Bool) (d : VDst) (a : VSrc) (i : W64) : VSem :=
  { dst := d, srcs := [a], imm := i, cls := .pack
    run := fun ts =>
      let half (r : Nat) : Tile := ((ts.getD 0 []).drop (64 * r + if hi then 32 else 0)).take 32
      { tile := (List.range 16).flatMap fun r => (half r).flatMap fun (x : W32) => [x <<< 16, x &&& 0xFFFF0000] } }

/-- The meaning of an operation word; none of every other instruction. -/
def vecSem (i : Instr) : Option VSem :=
  match i with
  | .vadd ty rm d a b i => some (semVadd ty rm d a b i)
  | .vsub ty rm d a b i => some (semVsub ty rm d a b i)
  | .vmul ty rm d a b i => some (semVmul ty rm d a b i)
  | .vfma ty rm d a b c i => some (semVfma ty rm d a b c i)
  | .vfms ty rm d a b c i => some (semVfms ty rm d a b c i)
  | .vfnma ty rm d a b c i => some (semVfnma ty rm d a b c i)
  | .vmin ty rm d a b i => some (semVmin ty rm d a b i)
  | .vmax ty rm d a b i => some (semVmax ty rm d a b i)
  | .vabs ty rm d a i => some (semVabs ty rm d a i)
  | .vneg ty rm d a i => some (semVneg ty rm d a i)
  | .vdiv ty rm d a b i => some (semVdiv ty rm d a b i)
  | .vdivRem ty d a b i => some (semVdivRem ty d a b i)
  | .vfma16 rm d a b c i => some (semVfma16 rm d a b c i)
  | .viadd ty sat d a b i => some (semViadd ty sat d a b i)
  | .visub ty sat d a b i => some (semVisub ty sat d a b i)
  | .vimul ty sat d a b i => some (semVimul ty sat d a b i)
  | .vimulh ty d a b i => some (semVimulh ty d a b i)
  | .vimin ty d a b i => some (semVimin ty d a b i)
  | .vimax ty d a b i => some (semVimax ty d a b i)
  | .vand ty d a b i => some (semVand ty d a b i)
  | .vor ty d a b i => some (semVor ty d a b i)
  | .vxor ty d a b i => some (semVxor ty d a b i)
  | .vshl ty d a b i => some (semVshl ty d a b i)
  | .vshr ty d a b i => some (semVshr ty d a b i)
  | .vsra ty d a b i => some (semVsra ty d a b i)
  | .vcmp cc ty d a b i => some (semVcmp cc ty d a b i)
  | .vsel d a b c i => some (semVsel d a b c i)
  | .vcvt dt st rm d a i => some (semVcvt dt st rm d a i)
  | .vmov d a i => some (semVmov d a i)
  | .vseti d a row col v => some (semVseti d a row col v)
  | .viota k d base => some (semViota k d base)
  | .vrngRaw d a key => some (semVrngRaw d a key)
  | .vrngUni d a key => some (semVrngUni d a key)
  | .vclamp ty d a b c i => some (semVclamp ty d a b c i)
  | .vrot ax amt d a i => some (semVrot ax amt d a i)
  | .vbcast ax amt d a i => some (semVbcast ax amt d a i)
  | .vshiftDn ax amt d a i => some (semVshiftDn ax amt d a i)
  | .vshiftUp ax amt d a i => some (semVshiftUp ax amt d a i)
  | .vrsum ty rm sat ax d a i => some (semVrsum ty rm sat ax d a i)
  | .vscanIncl ty rm sat ax d a i => some (semVscanIncl ty rm sat ax d a i)
  | .vscanExcl ty rm sat ax d a i => some (semVscanExcl ty rm sat ax d a i)
  | .vrmax ty ax d a i => some (semVrmax ty ax d a i)
  | .vrmin ty ax d a i => some (semVrmin ty ax d a i)
  | .vrmaxi ty ax d a i => some (semVrmaxi ty ax d a i)
  | .vrmini ty ax d a i => some (semVrmini ty ax d a i)
  | .vexp ty rm d a i => some (semVexp ty rm d a i)
  | .vexp2 ty rm d a i => some (semVexp2 ty rm d a i)
  | .vln ty rm d a i => some (semVln ty rm d a i)
  | .vlog2 ty rm d a i => some (semVlog2 ty rm d a i)
  | .vrcp ty rm d a i => some (semVrcp ty rm d a i)
  | .vrsqrt ty rm d a i => some (semVrsqrt ty rm d a i)
  | .vsqrt ty rm d a i => some (semVsqrt ty rm d a i)
  | .vtanh ty rm d a i => some (semVtanh ty rm d a i)
  | .vsigm ty rm d a i => some (semVsigm ty rm d a i)
  | .vgelu ty rm d a i => some (semVgelu ty rm d a i)
  | .verf ty rm d a i => some (semVerf ty rm d a i)
  | .vunpk hi ty rm amt d a i => some (semVunpk hi ty rm amt d a i)
  | .vpack fmt sg amt n d a b c => some (semVpack fmt sg amt n d a b c)
  | .vpkbf rm d a b i => some (semVpkbf rm d a b i)
  | .vupbf hi d a i => some (semVupbf hi d a i)
  | _ => none

end Sys2Proof.Machine
end

