-- ==== Sys2Proof/Machine/Pipe.lean ====
section
/-!
DEFINITION. Results in flight of the lockstep set: hazards, issue, landing, deferred posts and the clock (04 R77 to R83, R85).
-/
namespace Sys2Proof.Machine

/-- Words issue interlocked: MODEX is 0, or the handler runs (R81, 25 R374). -/
def Core.interlocked (c : Core) : Bool := !c.modex || c.aside.isSome

/-- Two runs of bytes share one. -/
def meets (a n b m : Nat) : Bool := decide (a < b + m ∧ b < a + n)

/-- Tile steps of an epilogue word, k-steps of an MMA (13 R226, R230 to R232). -/
def MatCmd.steps (m : MatCmd) : Nat :=
  match m.i with
  | .mma _ _ _ _ ks _ _ _ _ => ks.toNat + 1
  | .mscan _ n _ _ _ _ => (n.toNat + 16) / 16
  | .mcarrySt .. => 1
  | _ => 4
/-- Every step has been done. -/
def MatCmd.done (m : MatCmd) : Bool := decide (m.steps ≤ m.k)
/-- Nothing of a result in flight remains to be computed. -/
def Flight.finished (f : Flight) : Bool := f.work.all MatCmd.done
/-- A k-step of an MMA may start: k of them take k times the declared cost (13 R227, R229). -/
def Flight.kdue (f : Flight) : Bool :=
  match f.work with
  | some m => match m.i with
    | .mma c _ _ _ ks _ _ _ _ =>
      !m.stopped && !m.done && decide (m.k * c.cycles + f.rem ≤ (ks.toNat + 1) * c.cycles)
    | _ => false
  | none => false

/-- A command is an MMA. -/
def MatCmd.isMma (m : MatCmd) : Bool :=
  match m.i with
  | .mma .. => true
  | _ => false
/-- An MMA stands between the first and the last k-step of a tile step: the array does nothing else until that step is finished (02 R33, 13
R236, R237). -/
def Flight.midStep (f : Flight) : Bool := f.work.any fun m => m.isMma && !m.stopped && !m.done && m.k % 64 != 0

/-- The runs of scratchpad that an unfinished MAT command will write. -/
def MatCmd.spans (cnum : Nat) (m : MatCmd) : List (Nat × Nat) :=
  match m.i with
  | .moutTile _ t4 _ _ _ _ _ _ => [(slotKey cnum (4 * t4.val), 4 * 4096)]
  | .moutHandle .. => match m.opnd with
    | some o => (List.range o.count).filterMap fun k => match o.spot cnum k with
      | .sp key => some (key, hEsize o.h)
      | _ => none
    | none => []
  | _ => []
/-- The banks that an unfinished MAT command will write. -/
def MatCmd.banks (m : MatCmd) : List BankNo :=
  match m.i with
  | .mma _ bk _ _ _ _ _ _ _ => [bk]
  | .moutTile bk _ _ clr _ _ _ _ | .moutHandle bk _ _ clr _ _ _ => if clr then [bk] else []
  | .mgate _ bd _ _ _ _ _ => [bd]
  | .mscan bk _ _ _ _ _ => [bk]
  | .mcarrySt _ bx _ _ => [bx]
  | _ => []
/-- The runs of scratchpad that a result in flight will write. -/
def Flight.spans (cnum : Nat) (f : Flight) : List (Nat × Nat) :=
  (f.effs.filterMap fun e => match e with | .run k bs => some (k, bs.length) | _ => none) ++
    (match f.work with | some m => m.spans cnum | none => [])
/-- The banks that a result in flight will write. -/
def Flight.banks (f : Flight) : List BankNo :=
  (f.effs.filterMap fun e => match e with | .bank b _ => some b | _ => none) ++
    (match f.work with | some m => m.banks | none => [])
/-- The carries that a result in flight will write. -/
def Flight.carryBanks (f : Flight) : List BankNo :=
  (f.effs.filterMap fun e => match e with | .carry b _ => some b | _ => none) ++
    (match f.work with | some m => (match m.i with | .mscan _ _ bc _ _ _ => [bc] | _ => []) | none => [])
/-- Tiles that a result in flight appends to a queue. -/
def Flight.appends (f : Flight) (q : QNo) : Nat :=
  (f.effs.filter fun e => match e with | .queue r _ => r == q | _ => false).length

/-- Some result in flight will write into one of these runs of scratchpad. -/
def State.runsBusy (s : State) (ks : List (Nat × Nat)) : Bool :=
  let busy := s.core.flights.flatMap fun f => f.spans s.cnum
  ks.any fun k => busy.any fun r => meets r.1 r.2 k.1 k.2
/-- Some result in flight will write into a run of scratchpad. -/
def State.runBusy (s : State) (key n : Nat) : Bool := s.runsBusy [(key, n)]
/-- Some result in flight will write a bank. -/
def Core.bankBusy (c : Core) (b : BankNo) : Bool := c.flights.any fun f => f.banks.contains b
/-- Some result in flight will write a carry. -/
def Core.carryBusy (c : Core) (b : BankNo) : Bool := c.flights.any fun f => f.carryBanks.contains b
/-- Results set aside while the handler runs (25 R373). -/
def Core.asideFlights (c : Core) : List Flight := (c.aside.map Aside.flights).getD []
/-- Tiles on their way to a queue, those set aside for the handler included (07 R143). -/
def Core.pendingAppends (c : Core) (q : QNo) : Nat := ((c.flights ++ c.asideFlights).map fun f => f.appends q).sum
/-- Landed tiles of a queue. -/
def Core.queue (c : Core) (q : QNo) : List Tile := c.queues.getD q.toNat []
/-- A queue changed. -/
def Core.setQueue (c : Core) (q : QNo) (l : List Tile) : Core := { c with queues := c.queues.set q.toNat l }
/-- Tile results that a result in flight lands: VRMAXI and VRMINI land two, an MMA or an epilogue word one (R82). -/
def Flight.tiles (f : Flight) : Nat :=
  match f.eng with
  | .vec => (f.effs.filter fun e => match e with | .run .. | .queue .. => true | _ => false).length
  | _ => 1
/-- Results of an engine in flight, those set aside for the handler included (R82). -/
def Core.inFlight (c : Core) (e : Eng) : Nat :=
  (((c.flights ++ c.asideFlights).filter fun f => f.eng == e).map Flight.tiles).sum

/-- In interlocked mode a word waits while a hazard holds (R81). -/
def State.withoutHazard (s : State) (hazard : Bool) (k : State → Out) : Out :=
  if s.core.interlocked && hazard then .next (s.waiting .internal) else k s

/-- The latency of an append of an engine: in interlocked mode it lands after every earlier append to the queue, so a cycle later than one
of a higher tag, which would enter after it in the same cycle (R81, 07 R143). -/
def Core.appendRem (c : Core) (e : Eng) (q : QNo) (l : Nat) : Nat :=
  if c.interlocked then
    c.flights.foldl (fun n f => if f.appends q = 0 then n else max n (f.rem + if engNo e < engNo f.eng then 1 else 0)) l
  else l

/-- A result issued: it lands after `l` virtual cycles (R78, R79). -/
def Core.issue (c : Core) (f : Flight) : Core :=
  { c with flights := c.flights ++ [{ f with id := c.nextId }], nextId := c.nextId + 1 }
/-- A result of the running word with its effects alone. -/
def State.flight (s : State) (l : Nat) (effs : List Eff) (owner : Owner) : Flight :=
  { id := 0, eng := s.who, rem := l, effs := effs, work := none, post := none, rls := [], pins := [], place := s.cur, owner := owner }

/-! ### Landing -/

/-- Lanes from one on replaced by a piece. -/
def putLanes (x : List W32) (p : Nat × List W32) : List W32 := x.take p.1 ++ p.2 ++ x.drop (p.1 + p.2.length)
/-- One piece of a result takes effect; scratchpad bytes of MAT travel on the MX path, those of VEC on none (20 R314). -/
def State.applyEff (p : Option Path) (s : State) (e : Eff) : State :=
  match e with
  | .run k bs => match p with
    | some p => s.putSpad p k bs
    | none => s.writeSpad k bs
  | .queue q t => s.mapCore fun c => c.setQueue q (c.queue q ++ [t])
  | .bank b ps => s.mapCore fun c => { c with banks := modAt c.banks b.toNat fun x => ps.foldl putLanes x }
  | .carry b cs => s.mapCore fun c => { c with carries := c.carries.set b.toNat cs }

/-- Drawers of an RLS range released, but for those that another command pins (13 R228). -/
def Core.releaseDrawers (c : Core) (ds : List DrawerNo) : Core :=
  let pinned := c.pinnedDrawers
  { c with claimed := ds.foldl (fun m d => if pinned.contains d.toNat then m else m &&& ~~~ (1#32 <<< d.toNat)) c.claimed }

/-- A checked access has retired or landed: its interval closes. -/
def Core.closeFoot (c : Core) (e : Eng) (order : Nat) : Core :=
  { c with feet := c.feet.filter fun f => !(f.eng == e && f.order == order) }

/-- A result or command works for a rule. -/
def Owner.isRule (o : Owner) (id : Nat) : Bool :=
  match o with
  | .rule k => k.val == id
  | _ => false
/-- Everything that works for a rule's instance is dropped, set aside or not, with its open intervals (16 R279). -/
def Core.dropInst (c : Core) (id : Nat) : Core :=
  let fl := c.flights.filter fun f => f.owner.isRule id
  let cs := (c.cld.filter fun q => q.owner.isRule id).map fun q => (Eng.cld, q.order)
  let ct := (c.cst.filter fun q => q.owner.isRule id).map fun q => (Eng.cst, q.order)
  let ph := (c.fabric.phase.toList.filter fun p => p.owner.isRule id).map fun p => (Eng.fab, p.order)
  let c1 := ((fl.map fun f => (f.eng, f.id)) ++ cs ++ ct ++ ph).foldl (fun d x => d.closeFoot x.1 x.2) c
  let asks : Bool := (c.rules.getD id none).any fun r => r.inst.any Inst.asking
  let d := if asks then c1.dropReply .vec else c1
  { d with
    flights := c.flights.filter fun f => !f.owner.isRule id
    cld := c.cld.filter fun q => !q.owner.isRule id, cst := c.cst.filter fun q => !q.owner.isRule id
    fabric := { c.fabric with phase := c.fabric.phase.filter (fun p => !p.owner.isRule id), parked := c.fabric.parked.filter fun p => !p.owner.isRule id }
    rules := modAt c.rules id fun r => r.map fun x => { x with inst := none }
    aside := c.aside.map fun a =>
      { a with flights := a.flights.filter fun f => !f.owner.isRule id, cld := a.cld.filter fun q => !q.owner.isRule id,
               cst := a.cst.filter fun q => !q.owner.isRule id, fabPhase := a.fabPhase.filter (fun p => !p.owner.isRule id), fabParked := a.fabParked.filter (fun p => !p.owner.isRule id),
               insts := modAt a.insts id fun _ => none } }
/-- A fault of a rule's instance: the rule is FAULTED at its slice, the later slices wait, and without QUIET the engine's sequencer
takes a trap with the INST word's PC (16 R279, 25 R371). -/
def Core.ruleFault (c : Core) (id : Nat) (e : Eng) (f : Flt) (tsdone row col kstep : Nat) : Core :=
  match c.rules.getD id none with
  | none => c.dropInst id
  | some r =>
    let n := (r.inst.map Inst.slice).getD r.next
    let r1 := { r with st := .faulted, next := n, cause := f.cause, tsdone := tsdone, inst := none }
    let info : TrapInfo :=
      { eng := e, cause := f.cause, reason := f.reason, awd := false, async := true, rulei := true, pc := r.place.pc,
        addr := BitVec.ofNat 64 f.addr, ruleid := id, tsdone := tsdone, col := col, row := row, kstep := kstep, slice := n,
        aux := BitVec.ofNat 64 f.aux, word := r.word }
    let c1 := c.dropInst id
    { c1 with rules := c1.rules.set id (some r1),
              pend := if r.quiet then c1.pend else c1.pend ++ [{ info := info, held := .rule, inside := false }] }

/-- A rule's instance whose engine has done its work, to be retired (16 R277). -/
def Core.finishInst (c : Core) (id : Nat) : Core :=
  { c with rules := modAt c.rules id fun r => r.map fun x => { x with inst := x.inst.map fun i => { i with finished := true } } }

/-- A MOUT into an open tensor completes its slice (16 R267). -/
def Core.completeOut (c : Core) (f : Flight) : Core :=
  match f.work.bind MatCmd.opnd with
  | some o => if hOpen o.h then c.completeSlice (hOtid o.h) o.slice else c
  | none => c
/-- A result lands: its pieces, its RLS and its post (R78, 13 R228, R230). -/
def State.land (s : State) (f : Flight) : State :=
  let s1 := s.mapCore fun c => { c with flights := c.flights.filter fun g => g.id != f.id }.closeFoot f.eng f.id
  let s2 := (f.effs.foldl (State.applyEff (if f.eng = .mat then some .mx else none)) s1).wrote
  match f.owner with
  | .rule id => s2.mapCore fun c => c.finishInst id.val
  | _ => s2.mapCore fun c => ((c.releaseDrawers f.rls).completeOut f).postClause f.eng f.post f.place

/-- A result of MAT that a rule's instance has staged: it is the retirement that commits it (16 R278). -/
def Flight.staged (f : Flight) : Bool :=
  f.eng == .mat && match f.owner with | .rule _ => true | _ => false
/-- A result is due, nothing of it remains to be computed, and it is not staged. -/
def Flight.ready (f : Flight) : Bool := f.rem == 0 && f.finished && !f.staged

/-- RESULT_LAND: the i-th result in flight, if it is due (R78). -/
def execEvResultLand (i : Nat) (s : State) : Out :=
  match s.core.flights[i]? with
  | some f => if f.ready then .next (s.land f) else .next s
  | none => .next s

/-- Every due result lands: queue appends of one cycle in ascending engine tag order, otherwise in issue order (R78, 07 R143). -/
def State.landDue (s : State) : State :=
  let due := s.core.flights.filter Flight.ready
  let app := due.filter fun f => f.effs.any fun e => match e with | .queue _ _ => true | _ => false
  let rest := due.filter fun f => !f.effs.any fun e => match e with | .queue _ _ => true | _ => false
  ([.acc, .vec, .mat].flatMap fun e => app.filter fun f => f.eng == e).foldl State.land (rest.foldl State.land s)

/-! ### Posts of VEC and MAT (R85) -/

/-- The results of a sequencer issued before a post have landed. -/
def Core.postDue (c : Core) (p : DefPost) : Bool :=
  c.flights.all fun f => f.eng != p.eng || f.owner != .own || decide (p.before ≤ f.id)
/-- An asynchronous trap of a sequencer waits to be taken: the sequencer issues nothing more (R85, 25 R369). -/
def Core.trapDue (c : Core) (e : Eng) : Bool := c.pend.any fun p => (c.aside.isNone || p.inside) && p.info.eng == e
/-- DEFERRED_POST_EFFECT: the i-th waiting post, if it is due; of two due to one flag the lower tag's is first (R85, R87). -/
def execEvDeferredPostEffect (i : Nat) (s : State) : Out :=
  match s.core.defPosts[i]? with
  | none => .next s
  | some p =>
    if s.core.postDue p && !((s.core.defPosts.take i).any fun r => r.eng == p.eng) &&
        !(s.core.defPosts.any fun r => r.f == p.f && decide (engNo r.eng < engNo p.eng) && s.core.postDue r) then
      .next (s.mapCore fun c =>
        ({ c with defPosts := c.defPosts.take i ++ c.defPosts.drop (i + 1) }).postDeferred p.eng p.f p.n p.place)
    else .next s

/-! ### The clock (R77, R78) -/

/-- A lockstep sequencer that has not ended. -/
def Core.locked (c : Core) : List Seq := ([.acc, .vec, .mat].map c.seqs.get).filter fun q => !q.ended
/-- Its next word is due. -/
def Core.isDue (c : Core) (q : Seq) : Bool := decide (q.due ≤ c.vcyc.toNat)
/-- A wait of a kind that freezes the lockstep set (R77). -/
def Wait.freezes (w : Wait) : Bool :=
  match w with
  | .external => true
  | _ => false
/-- The context of the task in front. -/
def State.ctx? (s : State) : Option Ctx := s.core.task.bind fun t => s.dev.ctxs.find? fun c => c.id == t.ctx
/-- EBUDGET: the task's own share in deterministic mode, else its context's pool (23 R347). -/
def State.ebudget (s : State) : Nat :=
  match s.core.det, s.ctx? with
  | false, some c => c.epool.toNat
  | _, _ => s.core.ebudget.toNat
/-- The tenant's energy budget is used up (23 R349). -/
def State.tenantSpent (s : State) : Bool :=
  (s.dev.tenant s.tenantNo).eleft == some 0
/-- Units debited, saturating at 0, from EBUDGET and from the tenant's energy budget (13 R229, 23 R349). -/
def State.debit (s : State) (n : Nat) : State :=
  let s1 := s.mapDev fun d => d.mapTenant s.tenantNo fun t => { t with eleft := t.eleft.map (· - n) }
  match s.core.det, s.ctx? with
  | false, some c => s1.mapDev fun d => { d with ctxs := d.ctxs.map fun x =>
      if x.id == c.id then { x with epool := BitVec.ofNat 32 (x.epool.toNat - n) } else x }
  | _, _ => s1.mapCore fun c => { c with ebudget := BitVec.ofNat 32 (c.ebudget.toNat - n) }
/-- A k-step is due and may be taken: a follow-on or a rule's instance takes up no tile step while another result is on its way into its
bank (13 R237). -/
def Core.kReady (c : Core) (f : Flight) : Bool :=
  f.kdue && (f.owner == .own || f.midStep || !(c.flights.any fun g => g.id != f.id && g.banks.any f.banks.contains))
/-- The MMA whose k-step is the next: one inside a tile step first, ahead of its time where another is due or the core stops; else the
oldest that may take one (02 R33, 13 R237). -/
def Core.nextK (c : Core) : Option Flight :=
  match c.flights.find? Flight.midStep with
  | some f => if f.kdue || c.halt == .stopping || c.flights.any (fun g => g.id != f.id && c.kReady g) then some f else none
  | none => if c.halt == .run then c.flights.find? c.kReady else none
/-- EBUDGET or the tenant's energy budget is at 0 (13 R229, 23 R350). -/
def State.energyOut (s : State) : Bool := s.ebudget == 0 || s.tenantSpent
/-- The next k-step finds EBUDGET or the tenant's budget at 0: it holds the array (R77, 13 R229, 23 R350). -/
def State.energyHeld (s : State) : Bool := s.core.nextK.isSome && s.energyOut
/-- Counted cycles of a deterministic context's energy period (23 R346). -/
def detPeriod : Nat := 11500
/-- Thermal step 2 holds every context (27 R397). -/
def State.heldHot (s : State) : Bool := s.dev.thermal.getD 1 false
/-- The cycle is frozen (R77). -/
def State.frozen (s : State) : Bool :=
  s.core.halt != .run || s.heldHot || s.core.draining || s.energyHeld ||
    s.core.locked.any fun q => s.core.isDue q && (q.wait.any Wait.freezes)
/-- In exposed mode a lockstep sequencer does not issue in a cycle that another freezes (R78). -/
def Core.heldByOthers (c : Core) (e : Eng) : Bool :=
  lockstep e && !c.interlocked && [Eng.acc, .vec, .mat].any fun g =>
    let q := c.seqs.get g
    g != e && !q.ended && c.isDue q && q.tried && q.wait.any Wait.freezes
/-- The cycle may end: in exposed mode every due lockstep sequencer has tried its word, or one of them freezes it; there and in deterministic mode every k-step
and tile step due has run, and a period's end has brought its refill (R78, 23 R344, R346). -/
def State.cycleDone (s : State) : Bool :=
  let c := s.core
  (c.interlocked || s.frozen || c.locked.all fun q => q.tried || !c.isDue q) &&
    ((c.interlocked && !c.det) || s.frozen ||
      (c.nextK.isNone && c.flights.all fun f => f.finished || f.rem != 0 || f.work.any MatCmd.stopped)) &&
    !(c.det && decide (detPeriod ≤ c.eperiod))

/-- A clock cycle of the core in front, while a task is resident: CYCLE, VCYC, latencies, and the results that fall due (R77, R78, 05
R103). A stop freezes what is in flight (R82). In interlocked mode a frozen cycle holds back neither results nor intervals, only VCYC (log 6), in deterministic mode it does (23 R344); and the results that a MODE drains
land although its cycles are frozen (04 R76; log 6). -/
def State.clock (s : State) : State :=
  if s.core.task.isNone || s.core.halt == .stopped || !s.cycleDone then s
  else
    let fr := s.frozen
    let held := s.energyHeld
    let still (f : Flight) : Bool := s.core.halt != .run || (fr && (!s.core.interlocked || s.core.det) && !s.core.draining) || (held && f.kdue)
    let tick (f : Flight) : Flight := if still f then f else { f with rem := f.rem - 1 }
    let again (e : Eng) (q : Seq) : Seq :=
      if lockstep e then { q with tried := false, due := if fr && s.core.interlocked && !s.core.det then q.due - 1 else q.due } else q
    let s1 := s.mapCore fun c =>
      { c with cycle := c.cycle + 1, vcyc := if fr then c.vcyc else c.vcyc + 1,
               eperiod := if c.det then c.eperiod + 1 else c.eperiod, took := [], posted := [], flights := c.flights.map tick,
               seqs := c.seqs.mapE again }
    let s2 := if s.dev.homes.any fun h => h.fresh.contains s.cnum then
        s1.mapDev fun d => { d with homes := d.homes.map fun h => { h with fresh := h.fresh.filter (· != s.cnum) } }
      else s1
    s2.landDue.closeFences

end Sys2Proof.Machine
end

