-- ==== Sys2Proof/Machine/Access.lean ====
section
/-!
DEFINITION. Fetching text (03 R36 to R38, 25 R383) and the overlap checker of deterministic mode (07 R144).
-/
namespace Sys2Proof.Machine

/-! ### Text -/

/-- The four words of a block's bytes (R35, R36). -/
def blockWords (bs : List Byte) : List W128 :=
  (List.range 4).map fun k => BitVec.ofNat 128 (leNat ((bs.drop (16 * k)).take 16))
/-- Where a block of the text lies, or the fetch fault (R36, R383). -/
def State.textTarget (s : State) (blk : Nat) : Judged Target :=
  match s.core.task with
  | none => .error { cause := Cause.pagef }
  | some t => s.target (t.text + 64 * blk) .fetch
/-- The words of a block as memory holds them, where it lies on this module. -/
def State.textBlock (s : State) (blk : Nat) : Option (List W128) :=
  match s.textTarget blk with
  | .ok t => if t.remote.isSome then none else some (blockWords (s.readPhys t.key t.phys 64))
  | .error _ => none
/-- The words of a block, where it lies in another module's window as they were fetched: no word of a text changes (R38). -/
def State.knownBlock (s : State) (blk : Nat) : Option (List W128) :=
  s.textBlock blk <|> ((s.core.farText.find? fun x => x.1 == blk).map Prod.snd)
/-- A block of a text in another module's window has been fetched. -/
def Core.noteText (c : Core) (blk : Nat) (bs : List Byte) : Core :=
  if c.farText.any fun x => x.1 == blk then c else { c with farText := c.farText ++ [(blk, blockWords bs)] }
/-- The sequencer's fetch buffer filled. -/
def State.fillFetch (s : State) (e : Eng) (blk : Nat) (bs : List Byte) : State :=
  s.mapSeq e fun q => { q with fetch := some (blk, blockWords bs), wait := none, tried := false }

/-- TEXT_FETCH: the block a sequencer has entered comes from memory whole; a fetch fault is taken by it, precise at the block's first
word, and so is damage in the text's memory (R38, R383, R385). -/
def execEvTextFetch (e : Eng) (s : State) : Out :=
  let q := s.core.seqs.get e
  if q.ended || !q.entered || q.fetch.isSome then .next s
  else
    let blk := blkOf q.pc
    let s1 := { s with who := e, cur := { word := 0, pc := 64 * blk, pos := q.pos, slot := 0 } }
    match s.textTarget blk with
    | .error f => .next (s1.trap f)
    | .ok t =>
      match t.remote with
      | none =>
        if s.badMem t.phys 64 then .next (s1.trap (fEccu ((s.core.task.map Task.text).getD 0 + 64 * blk) 7))
        else .next (s.fillFetch e blk (s.readPhys t.key t.phys 64))
      | some r =>
        let put (r : Reply) (s : State) : State := s.mapCore fun c => { c with freplies := c.freplies.set e r }
        match s.core.freplies.get e with
        | .none => if s.linkOk 64 then .next (put .asked ((s.linkDebit 64).send r e true (.read [(t.phys, 64)]))) else .next s
        | .asked | .unwanted => .next s
        | .data bs _ => .next (((put .none s).mapCore fun c => c.noteText blk bs).fillFetch e blk bs)
        | .refused =>
          let va := (s.core.task.map Task.text).getD 0 + 64 * blk
          .next ((put .none s1).trap { cause := Cause.perm, addr := va, aux := walkAux .fetch 0 + 4 })

/-- The word is a copy command on a channel (09 R171, R175). -/
def isCopyOn (w : W128) (ch : ChanNo) : Bool :=
  match decode w with
  | .ok (.cpy _ _ _ _ _ c _) | .ok (.cpyf _ _ _ _ c _) | .ok (.cred _ _ _ _ _ _ c _) | .ok (.cfil _ _ _ _ _ c _)
  | .ok (.ctier _ _ _ _ _ c _) => c == ch
  | _ => false
/-- The word is INST, by its header (16 R273). -/
def isInst (w : W128) : Bool := w.extractLsb' 118 10 == 0x5B#10
/-- The word is CPYF, by its header (09 R181). -/
def isCpyf (w : W128) : Bool := w.extractLsb' 118 10 == 0x201#10

/-- Copy commands of a channel in the words of a block from a slot on, up to a slot, installed words left out (07 R141). -/
def copiesIn (ws : List W128) (ch : ChanNo) (fr til : Nat) : Bool :=
  (List.range 4).any fun k =>
    decide (fr ≤ k ∧ k < til) && isCopyOn (ws.getD k 0) ch && !(decide (0 < k) && isInst (ws.getD (k - 1) 0))

/-- A copy engine's sequencer has yet to decode a copy command of a channel below a position: known from the path up to there (R141). -/
def State.copyAhead (s : State) (e : Eng) (ch : ChanNo) (pos slot : Nat) : Bool :=
  let q := s.core.seqs.get e
  if q.ended then false
  else
    let start : Option (Nat × Nat) :=
      if q.detached then (if q.wait.isSome then (match s.core.rejoin q with
        | some p => some (p, slotOf q.pc)
        | none => none) else none)
      else some (q.pos, if q.entered then slotOf q.pc else 0)
    match start with
    | none => q.detached && !q.wait.isSome
    | some (p0, sl0) =>
      s.core.trail.any fun x =>
        decide (p0 ≤ x.1 ∧ x.1 ≤ pos) &&
          (match s.knownBlock x.2 with
            | some ws => copiesIn ws ch (if x.1 = p0 then sl0 else 0)
                (if x.1 = pos then slot else ((s.core.exits.find? fun y => y.1 == x.1).map Prod.snd).getD 4)
            | none => false)

/-! ### The overlap checker -/

/-- Granules that a run of scratchpad keys meets. -/
def granules (key n : Nat) : List Nat := (List.range ((key + n + 63) / 64 - key / 64)).map fun k => key / 64 + k
/-- The granule of a drawer's half-row (13 R223). -/
def drawerGranule (cnum d i : Nat) : Nat := 2 ^ 40 + cnum * 4096 + d * 128 + i
/-- The granules of an MMA's drawers (13 R223). -/
def mmaGranules (cnum : Nat) (i : Instr) : List Nat :=
  (mmaDrawers i).flatMap fun d => (List.range 128).map fun k => drawerGranule cnum d k
/-- Granules of a resolved operand with the pattern offset past the last of their bytes. -/
def Operand.granules (o : Operand) (cnum : Nat) : List (Nat × Nat) :=
  (List.range o.count).flatMap fun k =>
    let e := (k + 1) * hEsize o.h
    match o.spot cnum k with
    | .sp key => (Machine.granules key (hEsize o.h)).map fun g => (g, e)
    | .half d i => [(drawerGranule cnum d i, e)]
    | _ => []
/-- Cores of a core's cluster on which the same context is resident. -/
def State.clusterCores (s : State) : List (Nat × Core) :=
  let ctx := s.core.task.map Task.ctx
  s.tasked.filter fun c => c.1 / 8 == s.cnum / 8 && c.2.task.map Task.ctx == ctx
/-- The first w bytes that a copy has delivered are no longer its footprint toward a reader that WAITWP orders (R144). -/
def Core.effWrites (c : Core) (f : Footprint) (reader : Eng) : List Nat :=
  let w : Nat := match f.copy with
    | some (ch, p, sl) => if reader = .acc then
        ((c.wpDone.filter fun x => x.1 == ch && x.2.1 == p && x.2.2.1 == sl).map fun x => x.2.2.2).foldl max 0 else 0
    | none => 0
  let done : Nat := match f.copy with
    | some (ch, p, sl) => (((c.chans.getD ch.toNat []).find? fun x => x.pos == p && x.slot == sl).bind ChanCopy.delivered).getD 0
    | none => 0
  (f.writes.filter fun g => decide (min w done < g.2)).map Prod.fst
/-- A granule as a core addresses it: its byte offset, or past every offset that of a half-row among the drawers. -/
def granuleOff (cnum g : Nat) : Nat :=
  if 2 ^ 40 ≤ g then 2 ^ 40 + (g - 2 ^ 40) % 4096 * 64
  else ((g * 64 / spadSize % 8 + 8 - cnum % 8) % 8) * spadSize + g * 64 % spadSize
/-- A checked access starts: OVERLAP with the lowest granule it shares and, of the parties that share it, the first in the core in front,
then in the others (log 87); or its interval opens. Outside deterministic mode nothing is checked (R144). -/
def State.openFoot (s : State) (f : Footprint) : Judged State :=
  if !s.core.det then .ok s
  else
    let clash := s.clusterCores.flatMap fun c => c.2.feet.flatMap fun g =>
      if c.1 = s.cnum ∧ g.eng = f.eng ∧ g.order = f.order then []
      else
        let ws := if c.1 = s.cnum then s.core.effWrites g f.eng else g.writes.map Prod.fst
        let mine := f.reads ++ f.writes.map Prod.fst
        let shared := mine.filter fun x => ws.contains x || ((f.writes.any fun y => y.1 == x) && g.reads.contains x)
        shared.map fun x => (x, g.eng, c.1)
    match (clash.map fun x => granuleOff s.cnum x.1).min? with
    | none => .ok (s.mapCore fun c => { c with feet := c.feet ++ [f] })
    | some off =>
      let other := (clash.find? fun x => granuleOff s.cnum x.1 == off).getD (0, .ctl, s.cnum)
      .error { cause := Cause.overlap, addr := off % 2 ^ 40, aux := engNo other.2.1 + fld other.2.2 8 }
end Sys2Proof.Machine
end

