-- ==== Sys2Proof/Machine/Vec.lean ====
section
/-!
DEFINITION. The VEC words: operands, waits, traps and issue (08 R146 to R169), and one definition for each word.
-/
namespace Sys2Proof.Machine

/-! ### Operands (03 R42, R73) -/

/-- A rotating operand beyond ROTSZ, which raises ILLOP (R42). -/
def badRot (q : Seq) (k : Nat) : Bool := decide (q.rotsz.toNat ≤ k)
/-- A source is legal for the sequencer's ROTSZ. -/
def srcOk (q : Seq) (v : VSrc) : Bool :=
  match v with
  | .z k => !badRot q k.val
  | _ => true
/-- The slot of a destination, none for a queue. -/
def dstSlot (q : Seq) (d : VDst) : Option Nat :=
  match d with
  | .t k => some k.val
  | .z k => some (q.rot k.val)
  | .q _ => none
/-- The slot after a destination by operand code (R160). -/
def dstNext (q : Seq) (d : VDst) : Option Nat :=
  match d with
  | .t k => some (k.val + 1)
  | .z k => some (q.rot (k.val + 1))
  | .q _ => none
/-- A destination is legal; with an index tile the next code is too (R160). -/
def dstOk (q : Seq) (d : VDst) (index : Bool) : Bool :=
  match d with
  | .z k => !badRot q k.val && !(index && badRot q (k.val + 1))
  | _ => true
/-- The slot a source reads, if it reads one. -/
def srcSlot (q : Seq) (v : VSrc) : Option Nat :=
  match v with
  | .t k => some k.val
  | .z k => some (q.rot k.val)
  | _ => none

/-- The tile in a slot as VEC's running word sees it (07 R142). -/
def State.slotSeen (s : State) (p : Nat) : Tile := lanesOf (s.seeRun (s.tileLook .vec) (slotKey s.cnum p) 4096)
/-- Every source read in the order VA, VB, VC, with the queues as the pops leave them; none when a queue runs out (R42, R149). -/
def State.readSrcs (s : State) (imm : W64) : List VSrc → List (List Tile) → Option (List Tile × List (List Tile))
  | [], qs => some ([], qs)
  | v :: r, qs =>
    let one (t : Tile) (qs : List (List Tile)) : Option (List Tile × List (List Tile)) :=
      (s.readSrcs imm r qs).map fun x => (t :: x.1, x.2)
    match v with
    | .t k => one (s.slotSeen k.val) qs
    | .z k => one (s.slotSeen (s.seq.rot k.val)) qs
    | .immLo => one (List.replicate laneCount (imm.setWidth 32)) qs
    | .immHi => one (List.replicate laneCount ((imm >>> 32).setWidth 32)) qs
    | .peek q => match qs.getD q.val [] with
      | [] => none
      | t :: _ => one t qs
    | .pop q => match qs.getD q.val [] with
      | [] => none
      | t :: rest => one t (qs.set q.val rest)

/-- A destination queue has room, this word's own pops counted (R149). -/
def Core.roomFor (c : Core) (d : VDst) (qs : List (List Tile)) : Bool :=
  match d with
  | .q q => decide ((qs.getD q.toNat []).length + c.pendingAppends q < 8)
  | _ => true

/-- The pieces that a word lands (R146, R160, R164). -/
def VOut.effs (o : VOut) (cnum : Nat) (q : Seq) (d : VDst) : List Eff :=
  let slot (n : Option Nat) (t : Tile) : List Eff := n.toList.map fun p => .run (slotKey cnum p) (bytesOf t)
  match o.part, d with
  | some ps, _ => (dstSlot q d).toList.flatMap fun p => ps.map fun x => .run (slotKey cnum p + x.1) x.2
  | none, .q r => [.queue r o.tile]
  | none, d => slot (dstSlot q d) o.tile ++ (match o.index with | some t => slot (dstNext q d) t | none => [])

/-- Virtual cycles from issue to landing (R79, R162, 23 R344). -/
def Core.latency (c : Core) (v : VClass) (tick : Nat) : Nat :=
  match v with
  | .simple => 4
  | .multiply => 6
  | .rows | .rng => 8
  | .cols => 12
  | .pack => 10
  | .special => if c.interlocked && !c.det then 10 + Config.specExtra tick % 31 else 24

/-- STATUS.NANT at the running word's position, once CTL has passed it (05 R102). -/
def State.withNant (s : State) (k : Bool → State → Out) : Out :=
  if s.core.ctlPassed s.cur.pos s.cur.slot then k (s.core.nantAt s.cur.pos s.cur.slot) s else .next (s.waiting .external)

/-- NANTRAP at a lane of VD (R150). -/
def State.nanTrap (s : State) (d : VDst) (lane : Nat) : State :=
  s.trapWith { s.info Cause.nantrap with row := lane / 64, col := lane % 64, aux := BitVec.ofNat 64 d.code.toNat }

/-- Slots that a word reads or writes must hold no result still on its way, in interlocked mode (R81). -/
def State.slotHazard (s : State) (v : VSem) : Bool :=
  ((v.srcs.filterMap (srcSlot s.seq)) ++ (dstSlot s.seq v.dst).toList ++
      (if v.pair then (dstNext s.seq v.dst).toList else [])).any fun p =>
    s.runBusy (slotKey s.cnum p) 4096
/-- A bad granule that the word's sources meet (07 R132). -/
def State.badSrc (s : State) (v : VSem) : Option Flt :=
  let slots := (v.srcs.filterMap (srcSlot s.seq)).find? fun p => s.badSpad (slotKey s.cnum p) 4096
  match slots with
  | some p => some (fEccu (0x7C0000 + p * 0x1000) 0)
  | none =>
    let qs := v.srcs.filterMap fun x => match x with | .pop q | .peek q => some q.val | _ => none
    if qs = [] then none else s.core.badIn 1 qs.contains

/-- An operation word of VEC (R146 to R150): it reads every source at issue and lands after its latency. -/
def State.vecWord (s : State) (v : VSem) : Out :=
  let q := s.seq
  if !(v.srcs.all (srcOk q) && dstOk q v.dst v.pair) then .next (s.trap fIllop)
  else if 24 < s.core.inFlight .vec + (if v.pair then 2 else 1) then .next (s.waiting .internal)
  else s.withPaths allPaths fun s => s.withoutHazard (s.slotHazard v) fun s => s.withNant fun nant s =>
    match s.readSrcs v.imm v.srcs s.core.queues with
    | none => .next (s.waiting .internal)
    | some (ts, qs) =>
      if !s.core.roomFor v.dst qs then .next (s.waiting .internal)
      else match s.badSrc v with
        | some f => .next (s.trap f)
        | none =>
          let o := v.run ts
          match o.bad, (if nant then o.nan else none) with
          | some j, _ => .next (s.trap { cause := Cause.fmtbad, addr := j })
          | none, some l => .next (s.nanTrap v.dst l)
          | none, none =>
            let c0 : Core := { s.core with queues := qs, legacycnt := if v.legacy then s.core.legacycnt + 1 else s.core.legacycnt }
            let l := s.core.latency v.cls s.tick
            let l := match v.dst with | .q r => c0.appendRem .vec r l | _ => l
            let s1 := { s with core := c0 }
            .next ((s1.mapCore fun c => c.issue (s1.flight l (o.effs s1.cnum q v.dst) .own)).complete 2)

/-! ### The words -/

/-- VADD (R151). -/
def execVadd (ty : FTy) (rm : RMode) (d : VDst) (a b : VSrc) (i : W64) (s : State) : Out := s.vecWord (semVadd ty rm d a b i)
/-- VSUB (R151). -/
def execVsub (ty : FTy) (rm : RMode) (d : VDst) (a b : VSrc) (i : W64) (s : State) : Out := s.vecWord (semVsub ty rm d a b i)
/-- VMUL (R151). -/
def execVmul (ty : FTy) (rm : RMode) (d : VDst) (a b : VSrc) (i : W64) (s : State) : Out := s.vecWord (semVmul ty rm d a b i)
/-- VFMA (R151). -/
def execVfma (ty : FTy) (rm : RMode) (d : VDst) (a b c : VSrc) (i : W64) (s : State) : Out := s.vecWord (semVfma ty rm d a b c i)
/-- VFMS (R151). -/
def execVfms (ty : FTy) (rm : RMode) (d : VDst) (a b c : VSrc) (i : W64) (s : State) : Out := s.vecWord (semVfms ty rm d a b c i)
/-- VFNMA (R151). -/
def execVfnma (ty : FTy) (rm : RMode) (d : VDst) (a b c : VSrc) (i : W64) (s : State) : Out := s.vecWord (semVfnma ty rm d a b c i)
/-- VMIN (R151). -/
def execVmin (ty : FTy) (rm : RMode) (d : VDst) (a b : VSrc) (i : W64) (s : State) : Out := s.vecWord (semVmin ty rm d a b i)
/-- VMAX (R151). -/
def execVmax (ty : FTy) (rm : RMode) (d : VDst) (a b : VSrc) (i : W64) (s : State) : Out := s.vecWord (semVmax ty rm d a b i)
/-- VABS (R151). -/
def execVabs (ty : FTy) (rm : RMode) (d : VDst) (a : VSrc) (i : W64) (s : State) : Out := s.vecWord (semVabs ty rm d a i)
/-- VNEG (R151). -/
def execVneg (ty : FTy) (rm : RMode) (d : VDst) (a : VSrc) (i : W64) (s : State) : Out := s.vecWord (semVneg ty rm d a i)
/-- VDIV (R151, R152). -/
def execVdiv (ty : VTy) (rm : RMode) (d : VDst) (a b : VSrc) (i : W64) (s : State) : Out := s.vecWord (semVdiv ty rm d a b i)
/-- VDIVREM (R152). -/
def execVdivRem (ty : ITy) (d : VDst) (a b : VSrc) (i : W64) (s : State) : Out := s.vecWord (semVdivRem ty d a b i)
/-- VFMA16 (R168). -/
def execVfma16 (rm : RMode) (d : VDst) (a b c : VSrc) (i : W64) (s : State) : Out := s.vecWord (semVfma16 rm d a b c i)
/-- VIADD (R153). -/
def execViadd (ty : ITy) (sat : Bool) (d : VDst) (a b : VSrc) (i : W64) (s : State) : Out := s.vecWord (semViadd ty sat d a b i)
/-- VISUB (R153). -/
def execVisub (ty : ITy) (sat : Bool) (d : VDst) (a b : VSrc) (i : W64) (s : State) : Out := s.vecWord (semVisub ty sat d a b i)
/-- VIMUL (R153). -/
def execVimul (ty : ITy) (sat : Bool) (d : VDst) (a b : VSrc) (i : W64) (s : State) : Out := s.vecWord (semVimul ty sat d a b i)
/-- VIMULH (R153). -/
def execVimulh (ty : ITy) (d : VDst) (a b : VSrc) (i : W64) (s : State) : Out := s.vecWord (semVimulh ty d a b i)
/-- VIMIN (R153). -/
def execVimin (ty : ITy) (d : VDst) (a b : VSrc) (i : W64) (s : State) : Out := s.vecWord (semVimin ty d a b i)
/-- VIMAX (R153). -/
def execVimax (ty : ITy) (d : VDst) (a b : VSrc) (i : W64) (s : State) : Out := s.vecWord (semVimax ty d a b i)
/-- VAND (R153). -/
def execVand (ty : ITy) (d : VDst) (a b : VSrc) (i : W64) (s : State) : Out := s.vecWord (semVand ty d a b i)
/-- VOR (R153). -/
def execVor (ty : ITy) (d : VDst) (a b : VSrc) (i : W64) (s : State) : Out := s.vecWord (semVor ty d a b i)
/-- VXOR (R153). -/
def execVxor (ty : ITy) (d : VDst) (a b : VSrc) (i : W64) (s : State) : Out := s.vecWord (semVxor ty d a b i)
/-- VSHL (R153). -/
def execVshl (ty : ITy) (d : VDst) (a b : VSrc) (i : W64) (s : State) : Out := s.vecWord (semVshl ty d a b i)
/-- VSHR (R153). -/
def execVshr (ty : ITy) (d : VDst) (a b : VSrc) (i : W64) (s : State) : Out := s.vecWord (semVshr ty d a b i)
/-- VSRA (R153). -/
def execVsra (ty : ITy) (d : VDst) (a b : VSrc) (i : W64) (s : State) : Out := s.vecWord (semVsra ty d a b i)
/-- VCMP (R154). -/
def execVcmp (cc : VCond) (ty : NTy) (d : VDst) (a b : VSrc) (i : W64) (s : State) : Out := s.vecWord (semVcmp cc ty d a b i)
/-- VSEL (R154). -/
def execVsel (d : VDst) (a b c : VSrc) (i : W64) (s : State) : Out := s.vecWord (semVsel d a b c i)
/-- VCVT (R155). -/
def execVcvt (dt st : VTy) (rm : RMode) (d : VDst) (a : VSrc) (i : W64) (s : State) : Out := s.vecWord (semVcvt dt st rm d a i)
/-- VMOV (R154). -/
def execVmov (d : VDst) (a : VSrc) (i : W64) (s : State) : Out := s.vecWord (semVmov d a i)
/-- VSETI (R154). -/
def execVseti (d : VDst) (a : VSrc) (row : BitVec 4) (col : BitVec 6) (v : W32) (s : State) : Out := s.vecWord (semVseti d a row col v)
/-- VIOTA (R154). -/
def execViota (k : IotaKind) (d : VDst) (base : W32) (s : State) : Out := s.vecWord (semViota k d base)
/-- VRNGRAW (R163). -/
def execVrngRaw (d : VDst) (a : VSrc) (key : W64) (s : State) : Out := s.vecWord (semVrngRaw d a key)
/-- VRNGUNI (R163). -/
def execVrngUni (d : VDst) (a : VSrc) (key : W64) (s : State) : Out := s.vecWord (semVrngUni d a key)
/-- VCLAMP (R154). -/
def execVclamp (ty : NTy) (d : VDst) (a b c : VSrc) (i : W64) (s : State) : Out := s.vecWord (semVclamp ty d a b c i)
/-- VROT (R157). -/
def execVrot (ax : Axis) (amt : BitVec 6) (d : VDst) (a : VSrc) (i : W64) (s : State) : Out := s.vecWord (semVrot ax amt d a i)
/-- VBCAST (R157). -/
def execVbcast (ax : Axis) (amt : BitVec 6) (d : VDst) (a : VSrc) (i : W64) (s : State) : Out := s.vecWord (semVbcast ax amt d a i)
/-- VSHIFTDN (R157). -/
def execVshiftDn (ax : Axis) (amt : BitVec 6) (d : VDst) (a : VSrc) (i : W64) (s : State) : Out := s.vecWord (semVshiftDn ax amt d a i)
/-- VSHIFTUP (R157). -/
def execVshiftUp (ax : Axis) (amt : BitVec 6) (d : VDst) (a : VSrc) (i : W64) (s : State) : Out := s.vecWord (semVshiftUp ax amt d a i)
/-- VRSUM (R158). -/
def execVrsum (ty : NTy) (rm : RMode) (sat : Bool) (ax : Axis) (d : VDst) (a : VSrc) (i : W64) (s : State) : Out := s.vecWord (semVrsum ty rm sat ax d a i)
/-- VSCANINCL (R159). -/
def execVscanIncl (ty : NTy) (rm : RMode) (sat : Bool) (ax : Axis) (d : VDst) (a : VSrc) (i : W64) (s : State) : Out := s.vecWord (semVscanIncl ty rm sat ax d a i)
/-- VSCANEXCL (R159). -/
def execVscanExcl (ty : NTy) (rm : RMode) (sat : Bool) (ax : Axis) (d : VDst) (a : VSrc) (i : W64) (s : State) : Out := s.vecWord (semVscanExcl ty rm sat ax d a i)
/-- VRMAX (R160). -/
def execVrmax (ty : NTy) (ax : Axis) (d : VDst) (a : VSrc) (i : W64) (s : State) : Out := s.vecWord (semVrmax ty ax d a i)
/-- VRMIN (R160). -/
def execVrmin (ty : NTy) (ax : Axis) (d : VDst) (a : VSrc) (i : W64) (s : State) : Out := s.vecWord (semVrmin ty ax d a i)
/-- VRMAXI (R160). -/
def execVrmaxi (ty : NTy) (ax : Axis) (d : VDst) (a : VSrc) (i : W64) (s : State) : Out := s.vecWord (semVrmaxi ty ax d a i)
/-- VRMINI (R160). -/
def execVrmini (ty : NTy) (ax : Axis) (d : VDst) (a : VSrc) (i : W64) (s : State) : Out := s.vecWord (semVrmini ty ax d a i)
/-- VEXP (R161). -/
def execVexp (ty : FTy) (rm : RMode) (d : VDst) (a : VSrc) (i : W64) (s : State) : Out := s.vecWord (semVexp ty rm d a i)
/-- VEXP2 (R161). -/
def execVexp2 (ty : FTy) (rm : RMode) (d : VDst) (a : VSrc) (i : W64) (s : State) : Out := s.vecWord (semVexp2 ty rm d a i)
/-- VLN (R161). -/
def execVln (ty : FTy) (rm : RMode) (d : VDst) (a : VSrc) (i : W64) (s : State) : Out := s.vecWord (semVln ty rm d a i)
/-- VLOG2 (R161). -/
def execVlog2 (ty : FTy) (rm : RMode) (d : VDst) (a : VSrc) (i : W64) (s : State) : Out := s.vecWord (semVlog2 ty rm d a i)
/-- VRCP (R161). -/
def execVrcp (ty : FTy) (rm : RMode) (d : VDst) (a : VSrc) (i : W64) (s : State) : Out := s.vecWord (semVrcp ty rm d a i)
/-- VRSQRT (R161). -/
def execVrsqrt (ty : FTy) (rm : RMode) (d : VDst) (a : VSrc) (i : W64) (s : State) : Out := s.vecWord (semVrsqrt ty rm d a i)
/-- VSQRT (R161). -/
def execVsqrt (ty : FTy) (rm : RMode) (d : VDst) (a : VSrc) (i : W64) (s : State) : Out := s.vecWord (semVsqrt ty rm d a i)
/-- VTANH (R161). -/
def execVtanh (ty : FTy) (rm : RMode) (d : VDst) (a : VSrc) (i : W64) (s : State) : Out := s.vecWord (semVtanh ty rm d a i)
/-- VSIGM (R161). -/
def execVsigm (ty : FTy) (rm : RMode) (d : VDst) (a : VSrc) (i : W64) (s : State) : Out := s.vecWord (semVsigm ty rm d a i)
/-- VGELU (R161). -/
def execVgelu (ty : FTy) (rm : RMode) (d : VDst) (a : VSrc) (i : W64) (s : State) : Out := s.vecWord (semVgelu ty rm d a i)
/-- VERF (R161). -/
def execVerf (ty : FTy) (rm : RMode) (d : VDst) (a : VSrc) (i : W64) (s : State) : Out := s.vecWord (semVerf ty rm d a i)
/-- VUNPK (R165). -/
def execVunpk (hi : Bool) (ty : FTy) (rm : RMode) (amt : BitVec 6) (d : VDst) (a : VSrc) (i : W64) (s : State) : Out := s.vecWord (semVunpk hi ty rm amt d a i)
/-- VPACK (R166). -/
def execVpack (fmt : BlkFmt) (sg : Bool) (amt : BitVec 6) (n : BitVec 7) (d : VDst) (a b c : VSrc) (s : State) : Out := s.vecWord (semVpack fmt sg amt n d a b c)
/-- VPKBF (R167). -/
def execVpkbf (rm : RMode) (d : VDst) (a b : VSrc) (i : W64) (s : State) : Out := s.vecWord (semVpkbf rm d a b i)
/-- VUPBF (R167). -/
def execVupbf (hi : Bool) (d : VDst) (a : VSrc) (i : W64) (s : State) : Out := s.vecWord (semVupbf hi d a i)

end Sys2Proof.Machine
end

