-- ==== Sys2Proof/Machine/Acc.lean ====
section
/-!
DEFINITION. The ACC words (07 R138 to R141), and POST and AWAIT of the other engines that wait on results (03 R48).
-/
namespace Sys2Proof.Machine

/-- ASET (R139). -/
def execAset (d : AReg) (v : W64) (s : State) : Out := .next ((s.setA d v).complete 1)
/-- AADD with an immediate (R139). -/
def execAadd (d a : AReg) (v : W64) (s : State) : Out := .next ((s.setA d (s.getA a + v)).complete 1)
/-- AADD with a register (R139). -/
def execAaddReg (d a b : AReg) (s : State) : Out := .next ((s.setA d (s.getA a + s.getA b)).complete 1)
/-- ASHL (R139). -/
def execAshl (d a : AReg) (n : BitVec 6) (s : State) : Out := .next ((s.setA d (s.getA a <<< n.toNat)).complete 1)
/-- ALDI, with ACC's own loop index (R139). -/
def execAldi (d a : AReg) (l : Fin 6) (v : W64) (s : State) : Out :=
  .next ((s.setA d (s.getA a + (s.seq.lidx.getD l.val 0).setWidth 64 * v)).complete 1)

/-! ### ARD and ARDB (R140) -/

/-- Offsets of the rows of an ARD. -/
def State.rowOffsets (s : State) (a : AReg) (nrow : BitVec 5) (rstr : BitVec 24) (off : W64) : List Nat :=
  (List.range (nrow.toNat + 1)).map fun (k : Nat) =>
    (s.getA a + off + BitVec.ofInt 64 ((k : Int) * rstr.toInt * 64)).toNat
/-- A row by offset: its key, or the fault of the first check it fails (R140). -/
def State.ardRow (s : State) (o : Nat) : Judged Nat :=
  if 2 ^ 26 ≤ o then .error { cause := Cause.perm, addr := o }
  else if o % 64 ≠ 0 then .error { cause := Cause.align, addr := o }
  else if spadSize < o % spadSize + 256 ∨ !s.siblingOk (windowCore s.cnum (o / spadSize)) then .error { cause := Cause.perm, addr := o }
  else .ok (spadOff s.cnum o)
/-- A row by tag-space address: the keys of its four granules, and its lines (R140). -/
def ardbRow (c : Core) (cnum o : Nat) : Judged (List Nat × List Nat) :=
  if 2 ^ 26 < o + 256 then .error { cause := Cause.perm, addr := o }
  else if o % 64 ≠ 0 then .error { cause := Cause.align, addr := o }
  else
    let gs := (List.range 4).map fun k => o + 64 * k
    match gs.find? fun g => (c.tagLine (g / lineSize)).isNone with
    | some g => .error { cause := Cause.tagmiss, addr := g }
    | none =>
      let line (g : Nat) : Nat := (c.tagLine (g / lineSize)).getD 0
      .ok (gs.map fun g => spadKey cnum (line g * lineSize + g % lineSize), (gs.map line).dedup)
/-- Every row in order; the first fault found stops it. -/
def judgeAll {α : Type} : List (Judged α) → Judged (List α)
  | [] => .ok []
  | .error f :: _ => .error f
  | .ok x :: r => match judgeAll r with
    | .error f => .error f
    | .ok xs => .ok (x :: xs)

/-- Rows gathered into tiles, missing rows zero (R140). -/
def tilesOf (rows : List (List Byte)) : List Tile :=
  let pad := rows ++ List.replicate ((16 - rows.length % 16) % 16) (List.replicate 256 0)
  (List.range (pad.length / 16)).map fun j => lanesOf ((pad.drop (16 * j)).take 16).flatten

/-- ARD or ARDB once its rows are judged: it waits for room, reads, and its tiles land after 12 cycles (R79, R140, R144). -/
def State.gather (s : State) (q : QNo) (rows : List (List Nat)) (pins : List Nat) : Out :=
  let tiles := (rows.length + 15) / 16
  let keys := rows.flatten
  if 8 < (s.core.queue q).length + s.core.pendingAppends q + tiles then .next (s.waiting .internal)
  else s.withPaths allPaths fun s => s.withoutHazard (s.runsBusy (keys.map fun k => (k, 64))) fun s =>
    match keys.find? fun k => s.badSpad k 64 with
    | some k => .next (s.trap (fEccu (((k / spadSize % 8 + 8 - s.cnum % 8) % 8) * spadSize + k % spadSize) 0))
    | none =>
      match s.openFoot { eng := .acc, order := s.core.nextId, copy := none, reads := keys.map (· / 64), writes := [] } with
      | .error f => .next (s.trap f)
      | .ok s =>
        let ts := tilesOf (rows.map fun r => r.flatMap fun k => s.seeRun (s.tileLook .acc) k 64)
        let f := { s.flight (s.core.appendRem .acc q 12) (ts.map fun t => .queue q t) .own with pins := pins }
        .next ((s.mapCore fun c => c.issue f).complete 1)

/-- ARD (R140). -/
def execArd (q : QNo) (a : AReg) (nrow : BitVec 5) (rstr : BitVec 24) (off : W64) (s : State) : Out :=
  match judgeAll ((s.rowOffsets a nrow rstr off).map s.ardRow) with
  | .error f => .next (s.trap f)
  | .ok ks => s.gather q (ks.map fun k => [k, k + 64, k + 128, k + 192]) []
/-- ARDB: its rows are resolved once, at decode, and its lines are pinned from then on (R134, R140). -/
def execArdb (q : QNo) (a : AReg) (nrow : BitVec 5) (rstr : BitVec 24) (off : W64) (s : State) : Out :=
  match s.seq.dec with
  | .rows ks ps => s.gather q ks ps
  | _ =>
    s.withGood 4 (fun _ => true) fun s =>
    match judgeAll ((s.rowOffsets a nrow rstr off).map (ardbRow s.core s.cnum)) with
    | .error f => .next (s.trap f)
    | .ok rs =>
      let ps := (rs.flatMap Prod.snd).dedup
      (s.mapSeq s.who fun x => { x with dec := .rows (rs.map Prod.fst) ps }).gather q (rs.map Prod.fst) ps

/-! ### WAITWP (R141) -/

/-- The copy that a WAITWP at a position refers to: the last of its channel below it. -/
def Core.refCopy (c : Core) (ch : ChanNo) (pos slot : Nat) : Option ChanCopy :=
  ((c.chans.getD ch.toNat []).filter fun x => posLt x.pos x.slot pos slot).foldl (fun acc x => match acc with
    | none => some x
    | some y => if posLt y.pos y.slot x.pos x.slot then some x else some y) none
/-- WAITWP tried once: it completes at the threshold, at retirement, or where there is no such copy. -/
def State.tryWaitwp (s : State) (ch : ChanNo) (w : W32) : Out :=
  if s.copyAhead .cld ch s.cur.pos s.cur.slot || s.copyAhead .cst ch s.cur.pos s.cur.slot then .next (s.waiting .external)
  else match s.core.refCopy ch s.cur.pos s.cur.slot with
    | none => .next (s.complete 1)
    | some x =>
      if x.retired || (x.delivered.any fun n => decide (w.toNat ≤ n)) then
        .next (((s.mapCore fun c => { c with wpDone := c.wpDone ++ [(ch, x.pos, x.slot, w.toNat)] }).showTo (tileEye .acc)
          fun r => r.path == some .cp).complete 1)
      else .next (s.waiting .external)
/-- WAITWP (R141). -/
def execWaitwp (ch : ChanNo) (w : W32) (s : State) : Out := s.tryWaitwp ch w
/-- WAITWP_COMPLETE: a waiting WAITWP whose condition has come to hold (R141). -/
def execEvWaitwpComplete (s : State) : Out :=
  match s.standAt .acc with
  | some (.waitwp ch w, t) => if t.seq.wait.isSome && !t.core.heldByOthers .acc then t.tryWaitwp ch w else .next s
  | _ => .next s

end Sys2Proof.Machine
end

