-- ==== Sys2Proof/Machine/Mat.lean ====
section
/-!
DEFINITION. The matrix engine: MMA and its k-steps, the epilogue words and their tile steps, drawers, NaN trapping and faults (13 R220
to R239; 06 R124 to R126).
-/
namespace Sys2Proof.Machine

/-! ### Banks and the k-step (R224, R226 to R228) -/

/-- Lanes of a bank. -/
def bankLanes : Nat := 4096
/-- A bank of +0 lanes. -/
def zeroBank : List W32 := List.replicate bankLanes 0
/-- A bank. -/
def Core.bank (c : Core) (b : BankNo) : List W32 := c.banks.getD b.toNat []
/-- A carry row. -/
def Core.carry (c : Core) (b : BankNo) : List (W32 × W32) := c.carries.getD b.toNat []
/-- The lane of a row and column. -/
def laneOf (x : List W32) (i j : Nat) : W32 := x.getD (64 * i + j) 0

/-- A fault inside a MAT command with the place it names (25 R371). -/
structure MatBad where
  flt : Flt
  row : Nat := 0
  col : Nat := 0
deriving DecidableEq, Repr

/-- The rows of a drawer: their two blocks. -/
def Core.drawerRows (c : Core) (d : Nat) : List (Block × Block) :=
  (List.range 64).map fun i => (c.halfRow d (2 * i), c.halfRow d (2 * i + 1))
/-- TRAPREC5 of FMTBAD (25 R370): drawer, index of the half-row, kind. -/
def fmtbadAux (d i kind : Nat) : Nat := d + fld (i % 2) 5 + fld (i / 2) 6 + fld kind 12
/-- The blocks of a k-step in checking order, with their drawers and half-row indices (R227). -/
def kBlocks (da db : Nat) (a b : List (Block × Block)) : List (Nat × Nat × Block) :=
  let flat (l : List (Block × Block)) : List Block := l.flatMap fun p => [p.1, p.2]
  ((flat a).zipIdx.map fun x => (da, x.2, x.1)) ++ (flat b).zipIdx.map fun x => (db, x.2, x.1)
/-- The need of one output (R227). -/
def outNeed (a b : Block × Block) : Nat := (halfCost a.1 b.1 + halfCost a.2 b.2 + 239) / 240
/-- The check of both drawers at the start of a k-step; the family of its blocks, integer where none is floating (R227). -/
def kCheck (da db : Nat) (a b : List (Block × Block)) (cost : Nat) : Judged Bool :=
  let bs := kBlocks da db a b
  let bad (d i kind : Nat) : Judged Bool := .error { cause := Cause.fmtbad, aux := fmtbadAux d i kind }
  match bs.find? fun x => !blkOk x.2.2 with
  | some x => bad x.1 x.2.1 0
  | none =>
    let fam := bs.filterMap fun x => (blkFmt? x.2.2).map fun f => (x.1, x.2.1, f)
    let int : Bool := match fam with
      | [] => true
      | x :: _ => x.2.2.isInt
    match fam.find? fun x => x.2.2.isInt != int with
    | some x => bad x.1 x.2.1 1
    | none =>
      let floor := if int then 0 else if fam.any fun x => x.2.2 == .bf16 then 8 else 4
      match a.findIdx? fun x => b.any fun y => decide (cost < max floor (outNeed x y)) with
      | some i => bad da (2 * i) 2
      | none => .ok int
/-- One k-step into a bank (R124 to R126, R226). -/
def kstepBank (int : Bool) (a b : List (Block × Block)) (acc : List W32) : List W32 :=
  a.zipIdx.flatMap fun x =>
    List.zipWith (fun y old =>
        let q : Quad := { a0 := x.1.1, a1 := x.1.2, b0 := y.1, b1 := y.2 }
        bankAdd old (if int then kstepInt q else kstepFloat q))
      b ((acc.drop (64 * x.2)).take 64)
/-- The first lane that turns from a number to a NaN (R235). -/
def firstTurned (old new : List W32) : Option Nat :=
  (List.zipWith (fun x y => laneNaN y && !laneNaN x) old new).findIdx? id

/-- Energy units of a k-step (R228, R229). -/
def kUnits (c : Cost) (ecl : BitVec 2) : Nat :=
  max (2 ^ ecl.toNat) (match c with | .c4 => 4 | .c6 => 2 | .c8 => 1)

/-- A bad granule that a k-step meets: structure 2 for a drawer, 3 for a bank (25 R385). -/
def Core.badK (c : Core) (da db : Nat) (bk : BankNo) : Option Flt :=
  match c.badIn 2 fun x => x / 128 == da || x / 128 == db with
  | some f => some f
  | none => c.badIn 3 fun x => x / bankLanes == bk.toNat

/-- DRAWER with the lowest drawer of a range that is not claimed (R222, R228). -/
def Core.unclaimed (c : Core) (ds : List Nat) : Option Flt :=
  ((ds.filter fun d => !c.isClaimed d).min?).map fun d => { cause := Cause.drawer, aux := d }

/-- One k-step of an MMA, judged; drawer claims are judged at its first one, where a follow-on is decoded (R228, 09 R181). -/
def Core.kstep (c : Core) (m : MatCmd) (cost : Cost) (bk : BankNo) (da db : DrawerNo) (clr : Bool) : Except MatBad MatCmd :=
  let base : List W32 :=
    if m.k % 64 ≠ 0 then m.acc
    else if m.k = 0 ∧ clr then zeroBank
    else if m.live ∨ m.k = 0 then c.bank bk
    else m.comm
  let d1 := (da.toNat + m.k) % 32
  let d2 := (db.toNat + m.k) % 32
  match (if m.k = 0 then c.unclaimed (mmaDrawers m.i) else none), c.badK d1 d2 bk with
  | some f, _ | none, some f => .error { flt := f }
  | none, none =>
    let a := c.drawerRows d1
    let b := c.drawerRows d2
    match kCheck d1 d2 a b cost.cycles with
    | .error f => .error { flt := f }
    | .ok int =>
      let acc := kstepBank int a b base
      match if m.nant then firstTurned base acc else none with
      | some l => .error { flt := { cause := Cause.nantrap, aux := bk.toNat }, row := l / 64, col := l % 64 }
      | none =>
        let k := m.k + 1
        .ok { m with k := k, acc := acc, comm := if k % 64 = 0 ∨ k = m.steps then acc else m.comm }

/-- A result in flight replaced, one set aside for the handler too. -/
def State.setFlight (s : State) (f : Flight) : State :=
  let put (l : List Flight) : List Flight := l.map fun g => if g.id == f.id then f else g
  s.mapCore fun c => { c with flights := put c.flights, aside := c.aside.map fun a => { a with flights := put a.flights } }

/-- Tile steps that a MAT command has finished (R33). -/
def MatCmd.tiles (m : MatCmd) : Nat :=
  match m.i with
  | .mma .. => m.k / 64
  | _ => m.k

/-- A fault after decode: the tile step is discarded, those before it have committed, and the command stops until ERET or ERET.SKIP; a
rule's instance is dropped whole (R236, 16 R279). -/
def State.matFault (s : State) (f : Flight) (m : MatCmd) (b : MatBad) : State :=
  let kstep := match m.i with | .mma .. => m.k | _ => 0
  match f.owner with
  | .rule id => s.mapCore fun c => c.ruleFault id.val .mat b.flt m.tiles b.row b.col kstep
  | _ =>
    let s1 : State := match m.i with
      | .mma _ bk .. => if m.tiles = 0 || m.live then s else s.applyEff none (.bank bk [(0, m.comm)])
      | _ => (m.outs.foldl (State.applyEff (some .mx)) s).wrote
    let m1 : MatCmd := { m with stopped := true, k := match m.i with | .mma .. => 64 * m.tiles | _ => m.k, outs := [] }
    let rem := match m.i with
      | .mma c _ _ _ ks _ _ _ _ => (ks.toNat + 1 - m1.k) * c.cycles
      | _ => f.rem
    let info : TrapInfo :=
      { eng := .mat, cause := b.flt.cause, reason := 0, awd := false, async := true, rulei := false, pc := f.place.pc,
        addr := BitVec.ofNat 64 b.flt.addr, ruleid := 0, tsdone := m.tiles, col := b.col, row := b.row, kstep := kstep, slice := 0,
        aux := BitVec.ofNat 64 b.flt.aux, word := f.place.word }
    (s1.setFlight { f with work := some m1, rem := rem }).mapCore fun c =>
      { c with pend := c.pend ++
          [{ info := info, held := .command .mat, inside := c.aside.isSome && c.flights.any fun g => g.id == f.id }] }

/-- A tile step of an MMA that is held for energy while its core stops, or its walk is set aside, is abandoned: it will run again whole (02
R33, 24 R357, 25 R369). -/
def MatCmd.abandon (m : MatCmd) : MatCmd :=
  if m.isMma then { m with k := m.k / 64 * 64, acc := m.comm } else m
/-- MAT_KSTEP: the next k-step, when both budgets are above 0; first one of a tile step that the entry of the handler has interrupted
(R228, R229, 23 R349, 25 R369). -/
def execEvMatKstep (s : State) : Out :=
  let old := s.core.asideFlights.find? Flight.midStep
  match (match old with | some f => some f | none => s.core.nextK) with
  | none => .next s
  | some f =>
    match f.work with
    | none => .next s
    | some m =>
      match m.i with
      | .mma cost bk da db _ ecl clr _ _ =>
        if s.energyOut && old.isSome then .next (s.setFlight { f with work := some m.abandon })
        else if s.energyOut || s.core.halt == .stopped || s.core.det && decide (detPeriod ≤ s.core.eperiod) then .next s
        else
          let s1 := s.debit (kUnits cost ecl)
          match s1.core.kstep m cost bk da db clr with
          | .error b => .next (s1.matFault f m b)
          | .ok m1 =>
            let commit : Eff := .bank bk [(0, m1.acc)]
            let s2 := if m1.live && (m1.k % 64 == 0 || m1.done) then s1.applyEff none commit else s1
            .next (s2.setFlight { f with work := some m1, effs := if m1.done && !m1.live then [commit] else f.effs })
      | _ => .next s

/-! ### The epilogue (R230 to R234) -/

/-- One lane of the epilogue: what it writes, and whether it is a NaN that none of the lanes it reads is (R235). -/
structure EpLane where
  v : W32
  nan : Bool
deriving DecidableEq, Repr

/-- The special function of a MOUT activation (R230). -/
def epiFn (e : Epi) : Option SFn :=
  match e with
  | .sigm => some .sigm
  | .tanh => some .tanh
  | .gelu => some .gelu
  | _ => none
/-- The output formats of MOUT (R230). -/
inductive OutFmt where
  | f32 | bf16 | i32 | i8
deriving DecidableEq, Repr
/-- The bytes of one output element. -/
def OutFmt.size (f : OutFmt) : Nat :=
  match f with
  | .f32 | .i32 => 4
  | .bf16 => 2
  | .i8 => 1
/-- The output format of a handle's FMT, none for BLK and reserved values. -/
def OutFmt.of (fmt : Nat) : Option OutFmt :=
  match fmt with
  | 0 => some .i32
  | 1 => some .f32
  | 2 => some .bf16
  | 3 => some .i8
  | _ => none
/-- MAT's own rounding to a floating format: every NaN is canonical (R114). -/
def matRound (fn : Option SFn) (f : FFmt) (x : FVal) : Nat :=
  match x with
  | .nan _ => f.narrowNaN canonNaN
  | x => actRound fn f .rne x
/-- MOUT's value of a lane (R230). -/
def moutVal (x : W32) (scale bias : Option W32) (e : Epi) : FVal :=
  let v := match scale with
    | some p => fmul (fpVal x) (fpVal p)
    | none => fpVal x
  let v := match bias with
    | some p => fadd .rne v (fpVal p)
    | none => v
  match e with
  | .relu => if v.isNaN || flt (.fin false 0 0) v then v else .fin false 0 0
  | _ => v
/-- The code that MOUT writes: one rounding of the exact activation (R230). -/
def moutCode (f : OutFmt) (e : Epi) (v : FVal) : Nat :=
  match f with
  | .f32 => matRound (epiFn e) fp32 v
  | .bf16 => matRound (epiFn e) bf16 v
  | .i32 => (actInt (epiFn e) v (-(2 ^ 31)) (2 ^ 31 - 1) % 2 ^ 32).toNat
  | .i8 => (actInt (epiFn e) v (-128) 127 % 256).toNat
/-- A code of an output format is a NaN. -/
def OutFmt.isNaN (f : OutFmt) (code : Nat) : Bool :=
  match f with
  | .f32 => laneNaN (BitVec.ofNat 32 code)
  | .bf16 => decide (0x7F80 < code % 2 ^ 15)
  | _ => false
/-- Lane (i, j) of MOUT: its code, and whether it is a new NaN. -/
def moutLane (m : MatCmd) (f : OutFmt) (e : Epi) (bias scale : Bool) (i j : Nat) : Nat × Bool :=
  let x := laneOf m.src i j
  let row (r : Nat) (on : Bool) : Option W32 := if on then m.tile.map fun t => laneAt t (64 * r + j) else none
  let p := row 1 scale
  let b := row 0 bias
  let code := moutCode f e (moutVal x p b e)
  (code, f.isNaN code && !(laneNaN x || p.any laneNaN || b.any laneNaN))

/-- The lanes of a 16-row slice, by row and column. -/
def sliceIdx (k : Nat) : List (Nat × Nat) := (List.range 1024).map fun x => (16 * k + x / 64, x % 64)
/-- The first new NaN of a slice's lanes, as the fault it raises (R235). -/
def sliceNaN (k : Nat) (aux : Nat) (news : List Bool) : Option MatBad :=
  (news.findIdx? id).map fun x => { flt := { cause := Cause.nantrap, aux := aux }, row := 16 * k + x / 64, col := x % 64 }
/-- A tile step done: what it will land, or its NANTRAP. -/
def MatCmd.stepTo (m : MatCmd) (bad : Option MatBad) (outs : List Eff) : Except MatBad MatCmd :=
  match if m.nant then bad else none with
  | some b => .error b
  | none => .ok { m with k := m.k + 1, outs := m.outs ++ outs }

/-- A gate's activation rounded to FP32 (R231). -/
def gateVal (g : GateAct) (x : FVal) : W32 :=
  let fn : Option SFn := match g with | .id => none | .sigm => some .sigm | .tanh => some .tanh
  BitVec.ofNat 32 (matRound fn fp32 x)
/-- MGATE at row i, column j: a, b, and whether each is a new NaN (R231, R235). -/
def mgatePair (m : MatCmd) (ga gb : GateAct) (cmp bias : Bool) (i j : Nat) : (W32 × Bool) × (W32 × Bool) :=
  let rd (c : Nat) : W32 := laneOf m.src i c
  let bs (c : Nat) : Option W32 := if bias then m.tile.map fun t => laneAt t c else none
  let val (c : Nat) : FVal := match bs c with
    | some p => fadd .rne (fpVal (rd c)) (fpVal p)
    | none => fpVal (rd c)
  let na := laneNaN (rd j) || (bs j).any laneNaN
  let nb := laneNaN (rd (j + 32)) || (bs (j + 32)).any laneNaN
  let a := gateVal ga (val j)
  let u := gateVal gb (val (j + 32))
  let b := if cmp then BitVec.ofNat 32 (matRound none fp32 (fmul (fadd .rne (ofInt 1) (fneg (fpVal a))) (fpVal u))) else u
  ((a, laneNaN a && !na), (b, laneNaN b && !(nb || (cmp && na))))

/-- One row of MSCAN for one state column: the new (hi, lo), and whether hi is a new NaN (R232, R235). -/
def scanStep (kc : Bool) (a b : W32) (c : W32 × W32) : (W32 × W32) × Bool :=
  let r (x : FVal) : W32 := BitVec.ofNat 32 (matRound none fp32 x)
  let seen := laneNaN a || laneNaN b || laneNaN c.1 || (kc && laneNaN c.2)
  let e := fadd .rne (fmul (fpVal a) (if kc then fadd .rne (fpVal c.1) (fpVal c.2) else fpVal c.1)) (fpVal b)
  let hi := r e
  let finite := match fpVal hi with | .fin .. => true | _ => false
  let lo := if !kc then c.2 else if finite then r (fadd .rne e (fneg (fpVal hi))) else 0
  ((hi, lo), laneNaN hi && !seen)
/-- Row t of MSCAN: the carry restarts from zero where the mask says so (R232). -/
def scanRow (m : MatCmd) (kc : Bool) (t : Nat) (cs : List (W32 × W32)) : List ((W32 × W32) × Bool) :=
  let reset := m.tile.any fun x => laneAt x t != 0
  (List.range 32).map fun j =>
    scanStep kc (laneOf m.src t j) (laneOf m.src t (j + 32)) (if reset then (0, 0) else cs.getD j (0, 0))
/-- Rows of MSCAN in order: pieces of the bank, new NaNs over whole rows of 64, and the carry after them. -/
def scanRows (m : MatCmd) (kc : Bool) : List Nat → List (W32 × W32) → List (Nat × List W32) × List Bool × List (W32 × W32)
  | [], cs => ([], [], cs)
  | t :: ts, cs =>
    let r := scanRow m kc t cs
    let x := scanRows m kc ts (r.map Prod.fst)
    ((64 * t, r.map fun y => y.1.1) :: x.1, (r.map Prod.snd) ++ List.replicate 32 false ++ x.2.1, x.2.2)

/-- Bytes of an output element at its place in the tile file or at a handle's element (R230). -/
def State.moutOuts (s : State) (m : MatCmd) (f : OutFmt) (k : Nat) (codes : List Nat) : List Eff :=
  match m.i, m.opnd with
  | .moutTile _ t4 _ _ _ _ _ _, _ =>
    let lane (c : Nat) : W32 := BitVec.ofNat 32 (if f = .bf16 then c * 2 ^ 16 else c)
    [.run (slotKey s.cnum (4 * t4.val + k)) (bytesOf (codes.map lane))]
  | _, some o => codes.zipIdx.filterMap fun x => match o.spot s.cnum (1024 * k + x.2) with
    | .sp key => some (.run key (leBytes f.size x.1))
    | _ => none
  | _, none => []

/-- NANTRAP at a lane of a bank. -/
def laneBad (b : BankNo) (l : Nat) : MatBad :=
  { flt := { cause := Cause.nantrap, aux := b.toNat }, row := l / 64, col := l % 64 }
/-- The first of two NaN lanes, in order of row and column (R235). -/
def firstBad (x y : Option MatBad) : Option MatBad :=
  match x, y with
  | some a, some b => if 64 * b.row + b.col < 64 * a.row + a.col then some b else some a
  | some a, none => some a
  | none, y => y
/-- One tile step of an epilogue word; a lane of a bank that it turns from a number to a NaN traps as a new NaN does (R230 to R232, R234 to
R236). -/
def State.epStep (s : State) (m : MatCmd) : Except MatBad MatCmd :=
  let k := m.k
  let turned (b : BankNo) (ls : List (Nat × W32)) : Option Nat :=
    let old := s.core.bank b
    ((ls.filter fun x => laneNaN x.2 && !laneNaN (old.getD x.1 0)).map Prod.fst).min?
  let mout (f : OutFmt) (e : Epi) (bias scale : Bool) (aux : Nat) : Except MatBad MatCmd :=
    let ls := (sliceIdx k).map fun x => moutLane m f e bias scale x.1 x.2
    m.stepTo (sliceNaN k aux (ls.map Prod.snd)) (s.moutOuts m f k (ls.map Prod.fst))
  match m.i with
  | .moutTile _ t4 e _ bias scale bf _ => mout (if bf then .bf16 else .f32) e bias scale (4 * t4.val + k)
  | .moutHandle bk _ e _ bias scale _ =>
    mout ((m.opnd.bind fun o => OutFmt.of (hFmt o.h)).getD .f32) e bias scale bk.toNat
  | .mgate _ bd ga gb cmp bias _ =>
    let rows := (List.range 16).map fun i => (List.range 32).map fun j => mgatePair m ga gb cmp bias (16 * k + i) j
    let lanes := rows.flatMap fun r => (r.map Prod.fst) ++ r.map Prod.snd
    let new := turned bd (lanes.zipIdx.map fun x => (1024 * k + x.2, x.1.1))
    m.stepTo (firstBad (sliceNaN k bd.toNat (lanes.map Prod.snd)) (new.map fun l => laneBad bd l))
      [.bank bd [(1024 * k, lanes.map Prod.fst)]]
  | .mscan bk n _ kc _ _ =>
    let ts := (List.range 16).filterMap fun i => if 16 * k + i ≤ n.toNat then some (16 * k + i) else none
    let r := scanRows m kc ts m.carry
    let new := turned bk ((r.1.flatMap fun p => p.2.zipIdx.map fun x => (p.1 + x.2, x.1)))
    (m.stepTo (firstBad (sliceNaN k bk.toNat r.2.1) (new.map fun l => laneBad bk l)) [.bank bk r.1]).map fun x => { x with carry := r.2.2 }
  | .mcarrySt _ bx row _ =>
    let ls := (m.carry.map Prod.fst) ++ m.carry.map Prod.snd
    let new := turned bx (ls.zipIdx.map fun x => (64 * row.toNat + x.2, x.1))
    m.stepTo (new.map fun l => laneBad bx l) [.bank bx [(64 * row.toNat, ls)]]
  | _ => .ok m
/-- What lands beside the tile steps: CLR of MOUT, the carry of MSCAN (R230, R232). -/
def MatCmd.lastEffs (m : MatCmd) : List Eff :=
  match m.i with
  | .moutTile bk _ _ clr _ _ _ _ | .moutHandle bk _ _ clr _ _ _ => if clr then [.bank bk [(0, zeroBank)]] else []
  | .mscan _ _ bc _ _ _ => [.carry bc m.carry]
  | _ => []
/-- An epilogue word with a tile step to do. -/
def Flight.epDue (f : Flight) : Bool :=
  match f.work with
  | some m => !m.stopped && !m.done && (match m.i with | .mma .. => false | _ => true)
  | none => false
/-- EPILOGUE_TILE_STEP: the next tile step of the oldest epilogue word in flight (R230 to R232). -/
def execEvEpilogueTileStep (s : State) : Out :=
  match s.core.flights.find? Flight.epDue with
  | none => .next s
  | some f =>
    match f.work with
    | none => .next s
    | some m =>
      if s.core.halt == .stopped then .next s
      else match s.epStep m with
        | .error b => .next (s.matFault f m b)
        | .ok m1 =>
          .next (s.setFlight { f with work := some m1, effs := if m1.done then m1.outs ++ m1.lastEffs else f.effs })

/-! ### Issue -/

/-- A MAT command before its first step. -/
def MatCmd.start (i : Instr) (place : At) (owner : Owner) (nant live : Bool) : MatCmd :=
  { i := i, place := place, owner := owner, k := 0, acc := [], comm := [], src := [], tile := none, carry := [], outs := [],
    opnd := none, nant := nant, live := live, stopped := false }
/-- Latency of a MAT word (R79). -/
def matLatency (i : Instr) : Nat :=
  match i with
  | .mma c _ _ _ ks _ _ _ _ => (ks.toNat + 1) * c.cycles
  | .moutTile .. | .moutHandle .. => 16
  | .mgate .. => 20
  | .mscan .. => 28
  | _ => 4
/-- The result in flight of a MAT command. -/
def matFlight (m : MatCmd) (post : Option TailClause) (rls : List DrawerNo) (pins : List Nat) : Flight :=
  { id := 0, eng := .mat, rem := matLatency m.i, effs := [], work := some m, post := post, rls := rls, pins := pins, place := m.place,
    owner := m.owner }
/-- The drawers that a word's RLS releases (R228). -/
def rlsDrawers (i : Instr) : List DrawerNo :=
  match i with
  | .mma _ _ _ _ _ _ _ rls _ => if rls then (mmaDrawers i).map fun d => BitVec.ofNat 5 d else []
  | _ => []
/-- An MMA as a result in flight. -/
def mmaFlight (i : Instr) (place : At) (owner : Owner) (nant live : Bool) (post : Option TailClause) : Flight :=
  matFlight (MatCmd.start i place owner nant live) post (rlsDrawers i) []

/-- A follow-on or a rule's instance is in the array and not done with it. -/
def Core.arrayLent (c : Core) : Bool := c.flights.any fun f => f.eng == .mat && f.owner != .own && !f.finished
/-- The array is inside a tile step, works on an MMA of its own, or holds a command that has faulted (02 R33; R236, R237). -/
def Core.arrayBusy (c : Core) : Bool :=
  (c.flights ++ c.asideFlights).any Flight.midStep ||
    c.flights.any fun f => f.work.any fun m => !m.done && (m.stopped || (m.isMma && f.owner == .own))
/-- A MAT word at its issue: the tail's await, the count of results in flight, the array, and in interlocked mode the scoreboard of the
banks and carries it reads or writes (R81, R82, R237). -/
def State.matWord (s : State) (tl : Tail) (banks carries : List BankNo) (k : State → Out) : Out :=
  s.withAwait tl fun s =>
    let c := s.core
    if decide (7 ≤ c.inFlight .mat) || c.arrayBusy then .next (s.waiting .internal)
    else s.withoutHazard (banks.any c.bankBusy || carries.any c.carryBusy) k
/-- A bad granule of a bank or a carry that a word reads (25 R385): carries are numbered after the banks' lanes. -/
def State.withBanks (s : State) (banks carries : List BankNo) (k : State → Out) : Out :=
  s.withGood 3 (fun x => banks.any (fun b => x / bankLanes == b.toNat) ||
    carries.any fun b => x / 32 == 4 * bankLanes / 32 + b.toNat) k
/-- The overlap check of a result about to issue: what it reads and writes (07 R144, R223). -/
def State.withFoot (s : State) (reads writes : List Nat) (k : State → Out) : Out :=
  match s.openFoot { eng := s.who, order := s.core.nextId, copy := none, reads := reads, writes := writes.map fun g => (g, 0) } with
  | .error f => .next (s.trap f)
  | .ok s => k s
/-- A pop of q6 or q7: an internal wait until a tile has landed; then the overlap check, and the pop (07 R143, R144; R229). -/
def State.withPop (s : State) (on : Bool) (q : QNo) (writes : List Nat) (k : Option Tile → State → Out) : Out :=
  if !on then s.withFoot [] writes (k none)
  else match s.core.queue q with
    | [] => .next (s.waiting .internal)
    | t :: r => s.withGood 1 (· == q.toNat) fun s => s.withFoot [] writes fun s => k (some t) (s.mapCore fun c => c.setQueue q r)
/-- A MAT result issued, the sequencer's next word due after the interval (R80). -/
def State.matIssue (s : State) (f : Flight) (interval : Nat) : Out := .next ((s.mapCore fun c => c.issue f).complete interval)
/-- A short MAT word: its pieces land after 4 cycles (R79). -/
def State.matShort (s : State) (tl : Tail) (effs : List Eff) (pins : List Nat) : Out :=
  s.matIssue { s.flight 4 effs .own with post := tl.post, pins := pins } 4
/-- HO of the running word, once CTL has passed the word (R61). -/
def State.withHO (s : State) (h : HReg) (k : W256 → State → Out) : Out :=
  if s.core.ctlPassed s.cur.pos s.cur.slot then k (s.core.handleAt h s.cur.pos s.cur.slot) s else .next (s.waiting .external)

/-- MMA (R226 to R228). -/
def execMma (c : Cost) (bk : BankNo) (da db : DrawerNo) (ks : BitVec 12) (ecl : BitVec 2) (clr rls : Bool) (tl : Tail) (s : State) :
    Out :=
  let i : Instr := .mma c bk da db ks ecl clr rls tl
  s.matWord tl [bk] [] fun s => s.withNant fun nant s =>
    match s.core.unclaimed (mmaDrawers i) with
    | some f => .next (s.trap f)
    | none => s.withFoot (mmaGranules s.cnum i) [] fun s =>
        s.matIssue (mmaFlight i s.cur .own nant s.core.interlocked tl.post) (matLatency i)
/-- MCLR (R224). -/
def execMclr (bk : BankNo) (tl : Tail) (s : State) : Out :=
  s.matWord tl [bk] [] fun s => s.matShort tl [.bank bk [(0, zeroBank)]] []

/-- An epilogue word: banks and carries read at issue, the tile popped, the command in flight (R229 to R232). -/
def State.epIssue (s : State) (i : Instr) (tl : Tail) (nant : Bool) (bk : BankNo) (carry : List (W32 × W32)) (tile : Option Tile)
    (opnd : Option Operand) : Out :=
  let m : MatCmd := { MatCmd.start i s.cur .own nant s.core.interlocked with
    src := s.core.bank bk, carry := carry, tile := tile, opnd := opnd }
  s.matIssue (matFlight m tl.post [] (match opnd with | some o => o.tags.map Prod.snd | none => [])) 4

/-- MOUT to static slots (R230). -/
def execMoutTile (bk : BankNo) (t4 : Fin 12) (epi : Epi) (clr bias scale bf : Bool) (tl : Tail) (s : State) : Out :=
  let i : Instr := .moutTile bk t4 epi clr bias scale bf tl
  s.matWord tl [bk] [] fun s => s.withPaths [.mx] fun s => s.withoutHazard (s.runBusy (slotKey s.cnum (4 * t4.val)) (4 * 4096)) fun s =>
    s.withNant fun nant s => s.withBanks [bk] [] fun s =>
      s.withPop (bias || scale) 6 (granules (slotKey s.cnum (4 * t4.val)) (4 * 4096)) fun tile s =>
        s.epIssue i tl nant bk [] tile none

/-- The destination of a MOUT by handle is one that it accepts, but for alignment, window and tags (R230). -/
def moutHandleOk (h : W256) : Bool :=
  handleOk h [1] && (OutFmt.of (hFmt h)).isSome && (if hOpen h then hSlice h == bankLanes else hCount h == bankLanes)
/-- A scratchpad destination of MAT: no window, tags looked up (07 R130, R134; R230). -/
def Core.matDest (c : Core) (o : Operand) : Judged Operand :=
  match if hTag o.h then none else o.outside spadSize with
  | some a => .error { cause := Cause.perm, addr := recAddr a, aux := 1 }
  | none => c.spadOperand o .wr
/-- What a word by handle has resolved at its decode stays resolved, its lines pinned, while the word waits (07 R134, R140). -/
def State.resolved (s : State) (o : Operand) : State := s.mapSeq s.who fun q => { q with dec := .operand o }
/-- The destination of a word by handle: resolved once, at its decode; an open one is checked against its record and, for MOUT, claims a
slice (16 R266, R267). -/
def State.withDest (s : State) (h : W256) (o : Operand) (claim : Bool) (k : Operand → State → Out) : Out :=
  let tags (o : Operand) (s : State) : Out := match s.core.matDest o with
    | .error f => .next (s.trap f)
    | .ok o => k o (s.resolved o)
  match s.seq.dec, s.seq.claim with
  | .operand o, _ => k o s
  | _, some n => tags { o with ring := true, slice := n } s
  | _, none =>
    match if hOpen h then s.core.checkOpen h false else .ok () with
    | .error f => .next (s.trap f)
    | .ok _ =>
      if !(claim && hOpen h) then tags o s
      else match s.core.claimWrite (hOtid h) 1 with
        | .error f => .next (s.trap f)
        | .ok (n, c) => tags { o with ring := true, slice := n } ({ s with core := c }.mapSeq s.who fun q => { q with claim := some n })
/-- A MOUT into an open tensor waits until its slice may be written, an external wait (16 R269). -/
def State.withTurn (s : State) (o : Operand) (k : State → Out) : Out :=
  if o.ring && !s.core.mayWrite (hOtid o.h) o.slice then .next (s.waiting .external) else k s
/-- The scratchpad keys of an operand's elements. -/
def Operand.keys (o : Operand) (cnum : Nat) : List Nat :=
  (List.range o.count).filterMap fun k => match o.spot cnum k with | .sp key => some key | _ => none
/-- MOUT to a handle (R230). -/
def execMoutHandle (bk : BankNo) (ho : HReg) (epi : Epi) (clr bias scale : Bool) (tl : Tail) (s : State) : Out :=
  let i : Instr := .moutHandle bk ho epi clr bias scale tl
  s.withHO ho fun h s =>
    if !moutHandleOk h then .next (s.trap fIllop)
    else if !handleAligned h then .next (s.trap { cause := Cause.align, addr := hBase h })
    else s.withAwait tl fun s =>
      s.withDest h { h := h, pages := [], tags := [], ring := false, slice := 0, count := bankLanes } true fun o s =>
        s.matWord tl [bk] [] fun s => s.withPaths [.mx] fun s => s.withTurn o fun s =>
          s.withoutHazard (s.runsBusy ((o.keys s.cnum).map fun key => (key, hEsize h))) fun s => s.withNant fun nant s =>
            s.withBanks [bk] [] fun s =>
              s.withPop (bias || scale) 6 ((o.granules s.cnum).map Prod.fst).dedup fun tile s =>
                s.epIssue i tl nant bk [] tile (some o)
/-- MGATE (R231). -/
def execMgate (bs bd : BankNo) (aa ab : GateAct) (cmp bias : Bool) (tl : Tail) (s : State) : Out :=
  let i : Instr := .mgate bs bd aa ab cmp bias tl
  s.matWord tl [bs, bd] [] fun s => s.withNant fun nant s => s.withBanks [bs] [] fun s => s.withPop bias 6 [] fun tile s =>
    s.epIssue i tl nant bs [] tile none
/-- MSCAN (R232). -/
def execMscan (bk : BankNo) (n : BitVec 6) (bc : BankNo) (kc reset : Bool) (tl : Tail) (s : State) : Out :=
  let i : Instr := .mscan bk n bc kc reset tl
  s.matWord tl [bk] [bc] fun s => s.withNant fun nant s => s.withBanks [bk] [bc] fun s => s.withPop reset 7 [] fun tile s =>
    s.epIssue i tl nant bk (s.core.carry bc) tile none

/-- MCARRY.Z (R234). -/
def execMcarryZ (bk : BankNo) (tl : Tail) (s : State) : Out :=
  s.matWord tl [] [bk] fun s => s.matShort tl [.carry bk (List.replicate 32 (0, 0))] []
/-- MCARRY.LD (R234). -/
def execMcarryLd (bk bx : BankNo) (row : BitVec 6) (tl : Tail) (s : State) : Out :=
  s.matWord tl [bx] [bk] fun s => s.withBanks [bx] [] fun s =>
    let b := s.core.bank bx
    s.matShort tl [.carry bk ((List.range 32).map fun j => (laneOf b row.toNat j, laneOf b row.toNat (j + 32)))] []
/-- MCARRY.ST: one tile step, so that a lane of the bank that turns to a NaN traps before anything is written (R234, R235). -/
def execMcarrySt (bk bx : BankNo) (row : BitVec 6) (tl : Tail) (s : State) : Out :=
  s.matWord tl [bx] [bk] fun s => s.withNant fun nant s => s.withBanks [] [bk] fun s =>
    s.epIssue (.mcarrySt bk bx row tl) tl nant bx (s.core.carry bk) none none

/-- Drawers claimed, every half-row a ZERO block (R222). -/
def Core.claimDrawers (c : Core) (ds : List Nat) : Core :=
  { c with claimed := ds.foldl (fun m d => m ||| 1#32 <<< d) c.claimed,
           drawers := c.drawers.zipIdx.map fun x => if ds.contains x.2 then List.replicate 128 0 else x.1 }
/-- DCLAIM (R222). -/
def execDclaim (da : DrawerNo) (n : BitVec 5) (tl : Tail) (s : State) : Out :=
  let ds := drawerRange da (n.toNat + 1)
  s.matWord tl [] [] fun s =>
    match (ds.filter s.core.isClaimed).min? with
    | some d => .next (s.trap { cause := Cause.drawer, aux := d })
    | none => (s.mapCore fun c => c.claimDrawers ds).matShort tl [] []
/-- DREL (R222, R223). -/
def execDrel (da : DrawerNo) (n : BitVec 5) (tl : Tail) (s : State) : Out :=
  let ds := drawerRange da (n.toNat + 1)
  s.matWord tl [] [] fun s =>
    let pinned := s.core.pinnedDrawers
    match (ds.filter fun d => !s.core.isClaimed d || pinned.contains d).min? with
    | some d => .next (s.trap { cause := Cause.drawer, aux := d })
    | none => (s.mapCore fun c =>
        { c with claimed := ds.foldl (fun m d => m &&& ~~~ (1#32 <<< d)) c.claimed }).matShort tl [] []
/-- DQRY; through an open handle it is checked as a writer's and element 0 is that of ring position 0 (R222; log 76), and a tensor with no
element takes nothing (log 77). -/
def execDqry (ho : HReg) (tl : Tail) (s : State) : Out :=
  s.withHO ho fun h s =>
    if !(handleOk h [1] && hFmt h == 0) then .next (s.trap fIllop)
    else if !handleAligned h then .next (s.trap { cause := Cause.align, addr := hBase h })
    else s.withAwait tl fun s =>
      s.withDest h { h := h, pages := [], tags := [], ring := false, slice := 0, count := min 1 (hCount h) } false fun o s =>
        s.matWord tl [] [] fun s => s.withPaths [.mx] fun s =>
          let effs := (o.keys s.cnum).map fun key => Eff.run key (leBytes 4 s.core.claimed.toNat)
          s.withoutHazard (s.runsBusy ((o.keys s.cnum).map fun key => (key, 4))) fun s =>
            s.withFoot [] ((o.granules s.cnum).map Prod.fst) fun s => s.matShort tl effs (o.tags.map Prod.snd)
/-- MMAH is trapped: LEGACY, LEGACYCNT one up, no effect of its own (R238, 25 R386). -/
def execMmah (_c : Cost) (_bk : BankNo) (_da _db : DrawerNo) (_ks : BitVec 12) (_ecl : BitVec 2) (_clr _rls : Bool) (_tl : Tail)
    (s : State) : Out :=
  .next ((s.mapCore fun c => { c with legacycnt := c.legacycnt + 1 }).trap { cause := Cause.legacy })

end Sys2Proof.Machine
end

