-- ==== Sys2Proof/Machine/Copy.lean ====
section
/-!
DEFINITION. The copy engines: resolution, the command queues, tile steps, channels, reductions, completion counters and follow-ons (09
R171 to R194).
-/
namespace Sys2Proof.Machine

/-! ### Queues -/

/-- The sequencer of a copy engine. -/
def ofCopy (e : CopyEng) : Eng :=
  match e with
  | .cld => .cld
  | .cst => .cst
/-- The command queue of a copy engine, the command in execution first (R171, R172). -/
def Core.copies (c : Core) (e : CopyEng) : List CopyCmd :=
  match e with
  | .cld => c.cld
  | .cst => c.cst
/-- The command queue replaced. -/
def Core.setCopies (c : Core) (e : CopyEng) (l : List CopyCmd) : Core :=
  match e with
  | .cld => { c with cld := l }
  | .cst => { c with cst := l }
/-- The command in execution changed. -/
def Core.mapHead (c : Core) (e : CopyEng) (f : CopyCmd → CopyCmd) : Core := c.setCopies e (modAt (c.copies e) 0 f)
/-- The channel of a copy word (R175, R187). -/
def copyChan (i : Instr) : Option ChanNo :=
  match i with
  | .cpy _ _ _ _ _ c _ | .cpyf _ _ _ _ c _ | .cred _ _ _ _ _ _ c _ | .cfil _ _ _ _ _ c _ | .ctier _ _ _ _ _ c _ => some c
  | _ => none
/-- The counter clause of a copy word. -/
def copyCnt (i : Instr) : Option CntClause :=
  match i with
  | .cpy _ _ _ _ n _ _ | .cpyf _ _ _ n _ _ | .cred _ _ _ n _ _ _ _ | .cfil _ _ _ n _ _ _ | .ctier _ _ _ _ n _ _ | .ccnt _ n _ => n
  | _ => none
/-- A command is CRED (R182). -/
def CopyCmd.isCred (q : CopyCmd) : Bool :=
  match q.i with
  | .cred .. => true
  | _ => false
/-- Element count of a command (R176): one of its patterns may be empty. -/
def CopyCmd.count (q : CopyCmd) : Nat :=
  match q.dst, q.src with
  | some d, some s => min d.count s.count
  | some d, none => d.count
  | none, _ => 0
/-- Element size of a command. -/
def CopyCmd.esize (q : CopyCmd) : Nat := (q.dst.map fun d => hEsize d.h).getD 1
/-- Number of tile steps (R177). -/
def CopyCmd.steps (q : CopyCmd) : Nat := (q.count * q.esize + 4095) / 4096
/-- The next tile step to be read: those of CRED that are read and held for their turn count. -/
def CopyCmd.next (q : CopyCmd) : Nat := q.step + if q.isCred then q.buf.length else 0
/-- Cycles between the last tile step, or the start of a command without one, and what follows it, in deterministic mode (23 R343). -/
def CopyCmd.tailLat (q : CopyCmd) : Nat := if q.cnt.isSome || q.isCred then 800 else 64
/-- The elements of a tile step (R177). -/
def CopyCmd.stepRange (q : CopyCmd) (j : Nat) : Nat × Nat :=
  let w := 4096 / q.esize
  (j * w, min w (q.count - j * w))

/-- A new command, of no effect yet. -/
def CopyCmd.start (i : Instr) (place : At) (owner : Owner) (post : Option TailClause) : CopyCmd :=
  { i := i, place := place, owner := owner, src := none, dst := none, cnt := none, drawers := [], started := false, step := 0, buf := [],
    sending := none, delivered := 0, sdone := 0, applied := false, early := 0, due := 0, busy := false, sees := 0, follow := none, followDone := false, order := 0,
    stopped := false, post := post }

/-- A command enters its queue; a word's command is known to WAITWP by its position (R171, R187, 07 R141). Commands retired below Pmin
are forgotten there: a WAITWP that finds none completes as one whose copy has retired. -/
def Core.enqueue (c : Core) (e : CopyEng) (q : CopyCmd) : Core :=
  let c1 := c.setCopies e (c.copies e ++ [{ q with order := c.order }])
  let keep (x : ChanCopy) : Bool := !(x.retired && decide (x.pos < c.pmin))
  let chans : List (List ChanCopy) := match q.owner, copyChan q.i with
    | .own, some ch => modAt c.chans ch.toNat fun l =>
        (l.filter keep) ++ [{ pos := q.place.pos, slot := q.place.slot, delivered := none, retired := false }]
    | _, _ => c.chans
  { c1 with order := c.order + 1, chans := chans }
/-- The channel and the position by which WAITWP knows a command: one of the walk that is under way (R141). -/
def CopyCmd.named (q : CopyCmd) : Option ChanNo := if q.owner = .own ∧ q.early = 0 then copyChan q.i else none
/-- What WAITWP knows of a command changed (R141). -/
def Core.mapChan (c : Core) (q : CopyCmd) (f : ChanCopy → ChanCopy) : Core :=
  match q.named with
  | some ch => { c with chans := modAt c.chans ch.toNat fun l => l.map fun x =>
      if x.pos == q.place.pos && x.slot == q.place.slot then f x else x }
  | none => c

/-! ### Resolution (R171 step 4, R185) -/

/-- Accepted spaces of HS and HD (R178). -/
def copySpaces (e : CopyEng) (i : Instr) : List Nat × List Nat :=
  match i, e with
  | .cpy .., .cld => ([0, 1], [1, 2])
  | .cpy .., .cst => ([1], [0, 1])
  | .cpyf .., _ => ([0, 1], [2])
  | .cred .., _ => ([1], [0])
  | .cfil .., .cld => ([], [1])
  | .cfil .., .cst => ([], [0, 1])
  | .ctier .., _ => ([0], [0])
  | _, _ => ([], [])
/-- The slice flag of a copy word (R179). -/
def copySlice (i : Instr) : Bool :=
  match i with
  | .cpy _ sl _ _ _ _ _ | .cpyf sl _ _ _ _ _ => sl
  | _ => false
/-- The bytes that CFIL writes to each element, where the value is legal for the element size (R180). -/
def fillBytes (sx : Bool) (v : W16) (esize : Nat) : Option (List Byte) :=
  let x := v.toNat
  if esize = 4 then some (leBytes 4 (if sx then (v.signExtend 32).toNat else x * 2 ^ 16))
  else if sx then none
  else if esize = 2 then some (leBytes 2 x)
  else if esize = 1 then (if x < 256 then some (leBytes 1 x) else none)
  else if x = 0 ∨ x = 0xFF then some (leBytes 64 x) else none
/-- A CRED handle's format (R182). -/
def credFmt (i : Instr) (h : W256) : Bool :=
  match i with
  | .cred int .. => hFmt h == (if int then 0 else 1)
  | _ => true

/-- The handles of a copy command as read: source, destination, counter. -/
structure CopyHs where
  hs : Option W256
  hd : Option W256
  hc : Option W256
deriving DecidableEq, Repr

/-- What a program moves through an open handle: a nonzero multiple of its slice, the source's elements (16 R267, R270). -/
def wholeSlices (h : W256) (n : Nat) : Bool := !hOpen h || (hSlice h != 0 && n != 0 && n % hSlice h == 0)
/-- The checks that raise ILLOP (R54, R176, R178 to R182). -/
def copyLegal (e : CopyEng) (i : Instr) (rule : Bool) (x : CopyHs) : Bool :=
  let sp := copySpaces e i
  let ok (h : Option W256) (spc : List Nat) : Bool := h.all fun v => handleOk v spc
  let pair : Bool := match x.hs, x.hd with
    | some a, some b =>
      let na := if rule then hSlice a else hCount a
      let nb := if rule then hSlice b else hCount b
      (hSpc b != 2 || hFmt a == 8) && credFmt i a && credFmt i b &&
        (if hOpen b && !rule then hEsize a == hEsize b else na == 0 || nb == 0 || (na == nb && hEsize a == hEsize b))
    | _, _ => true
  let fill : Bool := match i, x.hd with
    | .cfil _ sx _ _ v _ _, some b => (fillBytes sx v (hEsize b)).isSome
    | _, _ => true
  ok x.hs sp.1 && ok x.hd sp.2 && ok x.hc [0] && x.hd.all (fun b => hOpen b == copySlice i) && pair && fill &&
    (rule || x.hs.all fun a => wholeSlices a (hCount a) && x.hd.all fun b => wholeSlices b (hCount a))

/-- A pattern of a command: a program's whole pattern, or slice n of a rule's. -/
def patternOf (h : W256) (n : Option Nat) : Operand :=
  match n with
  | some k => { h := h, pages := [], tags := [], ring := true, slice := k, count := hSlice h }
  | none => { h := h, pages := [], tags := [], ring := false, slice := 0, count := hCount h }

/-- Pages of a pattern in the wrong tier for CTIER (R183): with `gddr`, those that are not in GDDR7; a page in another module's window counts as
of neither tier (log 90). -/
def State.tierFaults (s : State) (o : Operand) (w : Want) (gddr : Bool) : List Flt :=
  (o.wants w).filterMap fun a =>
    match s.page a.1 w with
    | .error _ => none
    | .ok p =>
      if p.remote.isNone && (if gddr then isGddr p.phys else isLpddr p.phys) then none
      else some { cause := Cause.perm, addr := a.1, aux := walkAux w 0 }
/-- Pages of a CRED destination beyond the module of its first (R182). -/
def State.moduleFaults (s : State) (o : Operand) : List Flt :=
  let ps := (o.wants .wr).filterMap fun a => match s.page a.1 .wr with
    | .ok p => some (a.1, p.remote)
    | .error _ => none
  match ps.foldl (fun acc x => match acc with
      | none => some x
      | some y => if x.1 < y.1 then some x else some y) none with
  | none => []
  | some y => ps.filterMap fun x => if x.2 = y.2 then none else some { cause := Cause.perm, addr := x.1, aux := walkAux .wr 0 }

/-- Claims of a program's open handles at resolution: source slices from RC, and destination slices from W for the n elements of the source
(16 R267, R270). -/
def Core.claimSlices (c : Core) (src dst : Option Operand) (n : Nat) : Judged (Core × Option Operand × Option Operand) :=
  let m (o : Operand) : Nat := o.count / hSlice o.h
  let ring (o : Operand) (n : Nat) : Operand := { o with ring := true, slice := n }
  let r : Judged (Core × Option Operand) := match src with
    | some o => if hOpen o.h then (match c.claimRead (hOtid o.h) (m o) with
        | .error f => .error f
        | .ok x => .ok (x.2, some (ring o x.1))) else .ok (c, src)
    | none => .ok (c, src)
  match r with
  | .error f => .error f
  | .ok (c1, src1) =>
    match dst with
    | some o => if hOpen o.h then (match c1.claimWrite (hOtid o.h) (n / hSlice o.h) with
        | .error f => .error f
        | .ok x => .ok (x.2, src1, some { ring o x.1 with count := n })) else .ok (c1, src1, dst)
    | none => .ok (c1, src1, dst)

/-- Every open handle against its record (16 R266). -/
def Core.checkOpens (c : Core) (x : CopyHs) : Judged Unit :=
  match (match x.hs with | some h => if hOpen h then c.checkOpen h true else .ok () | none => .ok ()) with
  | .error f => .error f
  | .ok _ => match x.hd with
    | some h => if hOpen h then c.checkOpen h false else .ok ()
    | none => .ok ()

/-- The pages and tags of an operand put in place, and its drawers; a virtual operand carries its pages (R185, 07 R134, 13 R221). -/
def State.settle (s : State) (o : Operand) (w : Want) : Judged (Operand × List Nat) :=
  match hSpc o.h with
  | 0 => .ok (o, [])
  | 1 => match s.core.spadOperand o w with
    | .error f => .error f
    | .ok p =>
      match (if hTag o.h then [] else (o.touch 23).filter fun a => !s.siblingOk (windowCore s.cnum (a / spadSize))).min? with
      | some a => .error { cause := Cause.perm, addr := a, aux := w.writes.toNat }
      | none => .ok (p, [])
  | _ => match s.core.drawerOperand o with
    | .error f => .error f
    | .ok ds => .ok (o, ds)

/-- Resolution of a command: every fault of R54, R266, R185, R134 and R178 in turn, then the claims; a program reader claims its slices also
where the destination is empty (16 R270). -/
def State.resolveCopy (s : State) (e : CopyEng) (q : CopyCmd) (x : CopyHs) (slice : Option Nat) : Judged (Core × CopyCmd) :=
  if !copyLegal e q.i slice.isSome x then .error fIllop
  else
    let handles := x.hs.toList ++ x.hd.toList ++ x.hc.toList
    match handles.find? fun h => !handleAligned h, x.hc.bind fun h => if hBase h % 8 = 0 then none else some h with
    | some h, _ | none, some h => .error { cause := Cause.align, addr := hBase h }
    | none, none =>
    match s.core.checkOpens x with
    | .error f => .error f
    | .ok _ =>
    let src0 := x.hs.map fun h => patternOf h slice
    let dst0 := x.hd.map fun h => patternOf h slice
    let empty := src0.any (fun o => o.count == 0) || dst0.any fun o => o.count == 0
    let src := if empty then none else src0
    let dst := if empty then none else dst0
    let more : List Flt := match q.i, src, dst with
      | .ctier _ up _ _ _ _ _, some a, some b => s.tierFaults a .rd (!up) ++ s.tierFaults b .wr up
      | .cred .., _, some b => s.moduleFaults b
      | _, _, _ => []
    let os := (src.map fun o => (o, Want.rd)).toList ++ (dst.map fun o => (o, Want.wr)).toList
    match s.translate os (x.hc.map hBase) more with
    | .error f => .error f
    | .ok (pages, cp) =>
    let src := src.map fun o => { o with pages := pages.getD 0 [] }
    let dst := dst.map fun o => { o with pages := pages.getD (if src.isSome then 1 else 0) [] }
    let settle (o : Option Operand) (w : Want) : Judged (Option Operand × List Nat) := match o with
      | none => .ok (none, [])
      | some o => match s.settle o w with
        | .error f => .error f
        | .ok p => .ok (some p.1, p.2)
    match settle src .rd, settle dst .wr with
    | .error f, _ | .ok _, .error f => .error f
    | .ok (src, _), .ok (dst, ds) =>
      let reader := if empty && slice.isNone then src0.filter fun o => hOpen o.h else none
      match if slice.isSome then .ok (s.core, src, dst) else s.core.claimSlices (src.or reader) dst ((x.hs.map hCount).getD 0) with
      | .error f => .error f
      | .ok (c, src, dst) =>
        .ok (c, { q with src := src, dst := dst, cnt := cp.bind fun p => x.hc.map fun h => (p, hBase h),
                         drawers := ds.map fun d => BitVec.ofNat 5 d })

/-! ### The words -/

/-- A copy command at its sequencer: handles at its position, the await, resolution, and the queue; a resolved command waits at the
queue's end while it is full (R171). -/
def State.copyWord (s : State) (e : CopyEng) (i : Instr) (tl : Tail) (hs hd : Option HReg) (follow : Option (Instr × At)) : Out :=
  let full (c : Core) : Bool := decide (8 < (c.copies e).length)
  if s.seq.claim.isSome then (if full s.core then .next (s.waiting .internal) else .next (s.complete 1))
  else if !s.core.ctlPassed s.cur.pos s.cur.slot then .next (s.waiting .external)
  else
    let h (r : HReg) : W256 := s.core.handleAt r s.cur.pos s.cur.slot
    let x : CopyHs := { hs := hs.map h, hd := hd.map h, hc := (copyCnt i).map fun n => h n.hc }
    s.withAwait tl fun s =>
      match s.resolveCopy e { CopyCmd.start i s.cur .own tl.post with follow := follow, sees := s.tailSees tl } x none with
      | .error f => .next (s.trap f)
      | .ok (c, q) =>
        let s1 := { s with core := c.enqueue e q }
        if full s1.core then .next ((s1.mapSeq s.who fun q => { q with claim := some 0 }).waiting .internal)
        else .next (s1.complete 1)

/-- CPY (R179). -/
def execCpy (e : CopyEng) (slice : Bool) (hs hd : HReg) (cnt : Option CntClause) (ch : ChanNo) (tl : Tail) (s : State) : Out :=
  s.copyWord e (.cpy e slice hs hd cnt ch tl) tl (some hs) (some hd) none
/-- The word after a CPYF: an MMA without an await, in the same block (R181). -/
def State.followOn (s : State) : Option (Instr × At) :=
  if s.cur.slot = 3 then none
  else match s.seq.fetch with
    | none => none
    | some (_, ws) =>
      let w := ws.getD (s.cur.slot + 1) 0
      match decode w with
      | .ok (.mma c bk da db ks ecl clr rls tl) =>
        if tl.await.isSome then none
        else some (.mma c bk da db ks ecl clr rls tl,
          { word := w, pc := s.cur.pc + 16, pos := s.cur.pos, slot := s.cur.slot + 1 })
      | _ => none
/-- CPYF (R181). -/
def execCpyf (slice : Bool) (hs hd : HReg) (cnt : Option CntClause) (ch : ChanNo) (tl : Tail) (s : State) : Out :=
  match s.followOn with
  | none => .next (s.trap fIllop)
  | some f => s.copyWord .cld (.cpyf slice hs hd cnt ch tl) tl (some hs) (some hd) (some f)
/-- CRED (R182). -/
def execCred (int : Bool) (hs hd : HReg) (cnt : Option CntClause) (sq : W16) (grp : BitVec 8) (ch : ChanNo) (tl : Tail) (s : State) :
    Out := s.copyWord .cst (.cred int hs hd cnt sq grp ch tl) tl (some hs) (some hd) none
/-- CFIL (R180). -/
def execCfil (e : CopyEng) (sx : Bool) (hd : HReg) (cnt : Option CntClause) (v : W16) (ch : ChanNo) (tl : Tail) (s : State) : Out :=
  s.copyWord e (.cfil e sx hd cnt v ch tl) tl none (some hd) none
/-- CTIER (R183). -/
def execCtier (e : CopyEng) (up : Bool) (hs hd : HReg) (cnt : Option CntClause) (ch : ChanNo) (tl : Tail) (s : State) : Out :=
  s.copyWord e (.ctier e up hs hd cnt ch tl) tl (some hs) (some hd) none
/-- CCNT (R184). -/
def execCcnt (e : CopyEng) (cnt : Option CntClause) (tl : Tail) (s : State) : Out :=
  s.copyWord e (.ccnt e cnt tl) tl none none none

/-! ### Running (R172, R177, R186, R187) -/

/-- A fault that strikes a command after resolution: it stops with its tile step, until ERET or ERET.SKIP; a rule's instance is dropped
(R193, 16 R279). -/
def State.copyFault (s : State) (e : CopyEng) (q : CopyCmd) (f : Flt) : State :=
  match q.owner with
  | .rule id => s.mapCore fun c => c.ruleFault id.val (ofCopy e) f q.step 0 0 0
  | _ =>
    let info : TrapInfo :=
      { eng := ofCopy e, cause := f.cause, reason := f.reason, awd := false, async := true, rulei := false, pc := q.place.pc,
        addr := BitVec.ofNat 64 f.addr, ruleid := 0, tsdone := q.step, col := 0, row := 0, kstep := 0, slice := 0,
        aux := BitVec.ofNat 64 f.aux, word := q.place.word }
    s.mapCore fun c =>
      let c1 := c.mapHead e fun x => { x with stopped := true, sending := none, buf := if x.isCred then [] else x.buf }
      { c1 with pend := c1.pend ++ [{ info := info, held := .command (ofCopy e), inside := c1.aside.isSome }] }

/-- Another engine's sequencer that shares the channels. -/
def otherCopy (e : CopyEng) : CopyEng :=
  match e with
  | .cld => .cst
  | .cst => .cld
/-- Two commands on one channel: the first stands before the second by position, or by entry where one is a rule's (R187); what a handler
left stands before what was set aside (25 R374). -/
def chanBefore (p q : CopyCmd) : Bool :=
  if p.early ≠ q.early then decide (q.early < p.early)
  else match p.owner, q.owner with
    | .own, .own => posLt p.place.pos p.place.slot q.place.pos q.place.slot
    | _, _ => decide (p.order < q.order)
/-- The channel rule lets a command start (R187). -/
def State.chanFree (s : State) (e : CopyEng) (q : CopyCmd) : Bool :=
  match copyChan q.i with
  | none => true
  | some ch =>
    !((s.core.cld ++ s.core.cst).any fun p => copyChan p.i == some ch && chanBefore p q) &&
      !(q.named.isSome && s.copyAhead (ofCopy (otherCopy e)) ch q.place.pos q.place.slot)
/-- WPTR of the command's channel set (R186, R187). -/
def Core.setWptr (c : Core) (q : CopyCmd) (n : Nat) : Core :=
  match copyChan q.i with
  | some ch => { c with wptr := c.wptr.set ch.toNat (BitVec.ofNat 32 n) }
  | none => c

/-- COPY_START: the command at the queue's head starts; WPTR is 0; the overlap check (R172, R187, 07 R144). -/
def execEvCopyStart (e : CopyEng) (s : State) : Out :=
  match s.core.copies e with
  | [] => .next s
  | q :: _ =>
    if q.started || q.stopped || s.core.halt != .run || !s.chanFree e q then .next s
    else
      let gs (o : Option Operand) : List (Nat × Nat) := (o.map fun x => x.granules s.cnum).getD []
      let foot : Footprint :=
        { eng := ofCopy e, order := q.order,
          copy := q.named.map fun ch => (ch, q.place.pos, q.place.slot),
          reads := (gs q.src).map Prod.fst, writes := gs q.dst }
      match if q.count = 0 then .ok s else s.openFoot foot with
      | .error f => .next (s.copyFault e q f)
      | .ok s1 => .next (s1.mapCore fun c =>
          ((c.mapHead e fun x => { x with started := true, due := c.later (if q.steps = 0 then q.tailLat else 64) }).setWptr q 0).mapChan q fun x => { x with delivered := some 0 })

/-- The slices that a tile step reads are present, and those it writes may be written (R179, 16 R269, R270). -/
def Core.slicesReady (c : Core) (q : CopyCmd) (k n : Nat) : Bool :=
  let each (o : Option Operand) (p : Nat → Nat → Bool) : Bool := match o with
    | some o =>
      if !(o.ring && hOpen o.h) then true
      else
        let sl := max 1 (hSlice o.h)
        (List.range ((k + n - 1) / sl + 1 - k / sl)).all fun j => p (hOtid o.h) (o.slice + k / sl + j)
    | none => true
  each q.src (fun o m => decide (m < (c.orec o).p)) && each q.dst c.mayWrite
/-- Elements of a step that lie in other modules: rank, offset, and place in the step. -/
def farPieces (o : Operand) (cnum k n : Nat) : List (Nat × Nat × Nat) :=
  (List.range n).filterMap fun j => match o.spot cnum (k + j) with
    | .far r off => some (r, off, j)
    | _ => none
/-- Bytes of device memory that a step moves at an operand. -/
def devBytes (o : Operand) (cnum k n : Nat) : Nat :=
  ((List.range n).filter fun j => match o.spot cnum (k + j) with | .phys _ _ => true | _ => false).length * hEsize o.h

/-- Cycles that some elements of an operand take in deterministic mode (23 R343): none where another module has them. -/
def Operand.stepLat (o : Operand) (cnum k n : Nat) : Option Nat :=
  (List.range n).foldl (fun m j => match m, o.spot cnum (k + j) with
    | none, _ | _, .far _ _ => none
    | some x, .phys a _ => some (max x (if isLpddr a then 1024 else 512))
    | some x, _ => some x) (some 128)
/-- Cycles that a command's tile step takes in deterministic mode (23 R343). -/
def CopyCmd.stepLat (q : CopyCmd) (cnum k n : Nat) : Nat :=
  let lat (o : Option Operand) : Option Nat := match o with
    | some x => x.stepLat cnum k n
    | none => some 128
  match lat q.src, lat q.dst with
  | some a, some b => max a b
  | _, _ => 0
/-- A tile step is complete: what follows it in deterministic mode (23 R343). -/
def Core.afterStep (c : Core) (q : CopyCmd) : CopyCmd := { q with busy := false, due := c.later (if q.steps ≤ q.next then q.tailLat else 0) }
/-- What a command's reads see: a rule's instance and a reader of an open tensor have waited on presence (20 R324). -/
def CopyCmd.look (q : CopyCmd) : Option Look :=
  if q.owner != .own || q.src.any (fun o => o.ring && hOpen o.h) then none
  else some { bit := Path.cp.bit, pos := q.place.pos, slot := q.place.slot, sees := q.sees }
/-- The bytes of a step's elements, those of other modules as they have answered (R177). -/
def State.gatherStep (s : State) (l : Option Look) (o : Operand) (k n : Nat) (far : List (Nat × List Byte)) : List Byte :=
  (List.range n).flatMap fun j =>
    match far.find? fun x => x.1 == k + j with
    | some x => x.2
    | none => s.readSpot l (o.spot s.cnum (k + j)) (hEsize o.h)
/-- The bytes of a step written to this module on a path, the higher element last (R177). -/
def State.scatterStep (s : State) (h : Path) (o : Operand) (k : Nat) (bs : List Byte) : State :=
  let es := hEsize o.h
  ((List.range (bs.length / es)).foldl (fun t j => t.writeSpot h (o.spot s.cnum (k + j)) ((bs.drop (j * es)).take es)) s).wrote

/-- Slices of an open destination that the delivered bytes have passed are completed (R179, 16 R267). -/
def Core.passSlices (c : Core) (q : CopyCmd) (n : Nat) : Core × Nat :=
  match q.owner, q.dst with
  | .own, some o =>
    if !(o.ring && hOpen o.h) then (c, q.sdone)
    else
      let total := n / max 1 (hSlice o.h * hEsize o.h)
      ((List.range (total - q.sdone)).foldl (fun d j => d.completeSlice (hOtid o.h) (o.slice + q.sdone + j)) c, total)
  | _, _ => (c, q.sdone)
/-- Destination bytes delivered (R186). -/
def State.deliver (s : State) (e : CopyEng) (q : CopyCmd) (n : Nat) : State :=
  let d := q.delivered + n
  s.mapCore fun c =>
    let p := c.passSlices q d
    ((p.1.setWptr q d).mapChan q fun x => { x with delivered := some d }).mapHead e fun x => { x with delivered := d, sdone := p.2 }
/-- The command in execution changed. -/
def State.mapCopy (s : State) (e : CopyEng) (f : CopyCmd → CopyCmd) : State := s.mapCore fun c => c.mapHead e f

/-- The value that CFIL writes over some elements. -/
def fillStep (i : Instr) (es n : Nat) : List Byte :=
  match i with
  | .cfil _ sx _ _ v _ _ => (List.replicate n ((fillBytes sx v es).getD [])).flatten
  | _ => []
/-- A refusal by another module's mapping (R193, 25 R380). -/
def fRefused (o : Operand) (k : Nat) (w : Want) : Flt := { cause := Cause.perm, addr := (o.addr k).toNat, aux := walkAux w 0 + 4 }

/-- A step's bytes on their way: other modules are asked one after another, then this module's bytes are written and all count as
delivered (R177, R186). -/
def State.sendStep (s : State) (e : CopyEng) (q : CopyCmd) (k : Nat) (bs : List Byte) (done : List Nat) : State :=
  match q.dst with
  | none => s
  | some o =>
    let es := hEsize o.h
    let fs := farPieces o s.cnum k (bs.length / es)
    match fs.find? fun x => !done.contains x.1 with
    | none => ((s.scatterStep .cp o k bs).deliver e q bs.length).mapCopy e fun x =>
        s.core.afterStep { x with step := x.step + 1, buf := [], sending := none }
    | some f =>
      let ps := (fs.filter fun x => x.1 == f.1).map fun x => (x.2.1, (bs.drop (x.2.2 * es)).take es)
      s.askEngine (ofCopy e) f.1 (ps.length * es) (.write ps [])
        (fun _ _ s => s.mapCopy e fun x => { x with sending := some (k, bs, f.1 :: done) })
        (fun s => s.copyFault e q (fRefused o (k + f.2.2) .wr))
        fun s => s.mapCopy e fun x => { x with sending := some (k, bs, done) }
/-- A step's bytes have been read: CRED's are held for their turn, others go on their way (R177, R182). -/
def State.putStep (s : State) (e : CopyEng) (q : CopyCmd) (k : Nat) (bs : List Byte) : State :=
  if q.isCred then s.mapCopy e fun x => s.core.afterStep { x with buf := x.buf ++ [(k, bs)] } else s.sendStep e q k bs []

/-- A tile step's reads: it waits for its slices, for a FENCEX before it and for its tenant's memory bytes; elements of other modules
are asked for, module by module (R177, R179; 16 R269, R270; 20 R325; 23 R349). In deterministic mode a step that is to begin takes its time
first (23 R343). -/
def State.readStep (s : State) (e : CopyEng) (q : CopyCmd) : State :=
  let k := (q.stepRange q.next).1
  let n := (q.stepRange q.next).2
  let open' : Bool := q.owner != .own || s.core.pathOpen .cp q.place.pos q.place.slot
  let tier := match q.i with | .ctier .. => true | _ => false
  let dev (o : Option Operand) : Nat := (o.map fun x => devBytes x s.cnum k n).getD 0
  let m := dev q.src + (if tier then 0 else dev q.dst)
  if !s.core.slicesReady q k n || !open' || !s.core.reached q.due then s
  else if !q.busy && !s.memOk m then s
  else if s.core.det && !q.busy then (s.memDebit m).mapCopy e fun x => { x with busy := true, due := s.core.later (q.stepLat s.cnum k n) }
  else match q.src with
    | none => (s.memDebit (if q.busy then 0 else m)).putStep e q k (fillStep q.i q.esize n)
    | some o =>
      match (List.range n).findSome? fun j => s.badSpot o (k + j) with
      | some f => s.copyFault e q f
      | none =>
        match (farPieces o s.cnum k n).filter fun x => !q.buf.any fun y => y.1 == k + x.2.2 with
        | [] => (s.memDebit (if q.busy then 0 else m)).putStep e q k (s.gatherStep q.look o k n (if q.isCred then [] else q.buf))
        | f :: fs =>
          let mine := (f :: fs).filter fun x => x.1 == f.1
          let es := hEsize o.h
          s.askEngine (ofCopy e) f.1 (mine.length * es) (.read (mine.map fun x => (x.2.1, es)))
            (fun bs _ s => s.mapCopy e fun x =>
              { x with buf := x.buf ++ mine.zipIdx.map fun y => (k + y.1.2.2, (bs.drop (y.2 * es)).take es) })
            (fun s => s.copyFault e q (fRefused o (k + f.2.2) .rd))
            id

/-- COPY_TILE_STEP: the engine reads and then writes up to 4 KiB (R177); while the core stops, a step begun is finished (R192). -/
def execEvCopyTileStep (e : CopyEng) (s : State) : Out :=
  match s.core.copies e with
  | [] => .next s
  | q :: _ =>
    if !q.started || q.stopped || decide (q.steps ≤ q.next) || s.core.halt == .stopped || q.isCred && !q.buf.isEmpty && !s.core.det then .next s
    else match q.sending with
      | some x => .next (s.sendStep e q x.1 x.2.1 x.2.2)
      | none =>
        if s.core.halt != .run && (q.isCred || q.buf.isEmpty) && s.core.replies.get (ofCopy e) == .none then .next s
        else .next (s.readStep e q)

/-! ### Reductions (R182) -/

/-- A group that has not counted. -/
def Red.start (t : BitVec 5) (raw : List Byte) (ctx : W16) (g : Nat) : Red :=
  { tenant := t, raw := raw, ctx := ctx, grp := g, e := 0, done := 0, skips := [] }
/-- Two entries are of one group of one launch. -/
def Red.same (r k : Red) : Bool := r.tenant == k.tenant && r.raw == k.raw && r.ctx == k.ctx && r.grp == k.grp
/-- Group g of the launch that the core in front runs a task of. -/
def State.redKey (s : State) (g : Nat) : Red :=
  let raw := s.chartRaw
  Red.start s.tenantNo raw (if raw.isEmpty then (s.core.task.map Task.ctx).getD 0 else 0) g
/-- What this module keeps of a group (R182). -/
def Device.red (d : Device) (k : Red) : Red := (d.reds.find? k.same).getD k
/-- What this module keeps of a group changed. -/
def Device.mapRed (d : Device) (k : Red) (f : Red → Red) : Device := { d with reds := f (d.red k) :: d.reds.filter fun r => !k.same r }
/-- E(g) set, past contributions that were abandoned (R193). -/
def Red.expect (r : Red) (v : W16) : Nat → Red
  | 0 => { r with e := v, done := 0 }
  | n + 1 => if r.skips.contains v then { r with skips := r.skips.erase v }.expect (v + 1) n else { r with e := v, done := 0 }
/-- A contribution has had its turn, or is abandoned: E(g) passes it, when it comes to it (R182, R193). -/
def Red.pass (r : Red) (sq : W16) : Red :=
  if r.e = sq then r.expect (sq + 1) r.skips.length else { r with skips := r.skips ++ [sq] }
/-- One element of a contribution: one rounding, the first NaN of memory and source (R182). -/
def credAdd (int : Bool) (old new : W32) : W32 := if int then old + new else rneFp32 (fadd .rne (fpVal old) (fpVal new))
/-- A contribution's elements, from the first of a piece on, added in pattern order. -/
def State.credPiece (s : State) (int : Bool) (o : Operand) (k : Nat) (bs : List Byte) : State :=
  ((lanesOf bs).zipIdx.foldl (fun t x =>
    let p := o.spot t.cnum (k + x.2)
    let old := BitVec.ofNat 32 (leNat (t.readSpot none p 4))
    t.writeSpot .cp p (leBytes 4 (credAdd int old x.1).toNat)) s).wrote
/-- The module whose controllers apply a contribution: none for this one, where an empty contribution counts too (log 83). -/
def CopyCmd.credRank (q : CopyCmd) (cnum : Nat) : Option Nat :=
  q.dst.bind fun o => match o.spot cnum 0 with
    | .far r _ => some r
    | _ => none
/-- A contribution of the command has had its turn, or is abandoned. -/
def State.passGroup (s : State) (q : CopyCmd) (int : Bool) (g : Nat) (sq : W16) : State :=
  match q.credRank s.cnum with
  | some r => s.send r .cst false (.contribute int g sq q.steps true [])
  | none => s.mapDev fun d => d.mapRed (s.redKey g) fun x => x.pass sq
/-- A step of a contribution has been applied; with the last a program's contribution has had its turn, a rule's at its retirement (16
R277). -/
def State.credStep (s : State) (e : CopyEng) (q : CopyCmd) (n : Nat) : State :=
  (s.deliver e q n).mapCopy e fun x =>
    { x with step := x.step + 1, buf := x.buf.drop 1, sending := none, applied := decide (q.steps ≤ q.step + 1) }

/-- CRED_APPLY: the step that the controller holds is applied while E(g) equals the command's SEQ, and E(g) advances after the last; a step
that a rule's instance had applied before a fault is not applied again. Another module's controller is asked again until it is its turn
(R182; 16 R279). -/
def execEvCredApply (e : CopyEng) (s : State) : Out :=
  match s.core.copies e with
  | [] => .next s
  | q :: _ =>
    match q.i with
    | .cred int _ _ _ sq grp _ _ =>
      if !q.started || q.stopped || q.applied || s.core.halt == .stopped || s.core.det && (q.next < q.steps || !s.core.reached q.due) then .next s
      else
        let g := grp.toNat
        let own := q.owner == .own
        let last := own && decide (q.steps ≤ q.step + 1)
        let r := s.dev.red (s.redKey g)
        match q.buf, q.dst, q.credRank s.cnum with
        | (k, bs) :: _, some o, some rank =>
          if s.core.halt != .run && s.core.replies.get (ofCopy e) == .none then .next s
          else
          let ps : List (Nat × W32) := (lanesOf bs).zipIdx.filterMap fun y => match o.spot s.cnum (k + y.2) with
            | .far _ off => some (off, y.1)
            | _ => none
          .next (s.askEngine (ofCopy e) rank (if q.sending.isSome then 0 else bs.length) (.contribute int g sq q.step last ps)
            (fun a _ s => if a = [1] then s.credStep e q bs.length else s)
            (fun s => s.copyFault e q (fRefused o k .wr))
            fun s => if s.core.replies.get (ofCopy e) = .asked then s.mapCopy e fun x => { x with sending := some (k, bs, []) } else s)
        | (k, bs) :: _, some o, none =>
          if r.e ≠ sq then .next s
          else if q.step < r.done then .next (s.credStep e q bs.length)
          else match (List.range (bs.length / 4)).findSome? fun j => s.badSpot o (k + j) with
            | some f => .next (s.copyFault e q f)
            | none => .next (((s.credPiece int o k bs).credStep e q bs.length).mapDev fun d => d.mapRed (s.redKey g) fun x =>
                if last then x.pass sq else { x with done := q.step + 1 })
        | _, _, _ =>
          if q.step < q.steps || r.e ≠ sq then .next s
          else
            let s1 := s.mapCopy e fun x => { x with applied := true }
            .next (if own then s1.passGroup q int g sq else s1)
    | _ => .next s

/-! ### Follow-ons and retirement (R172, R181, R190) -/

/-- A follow-on may go to the array: its CPYF has landed its last byte, CTL has passed the follow-on's position, and the array is between
commands (R181, 13 R237). -/
def State.followReady (s : State) : Bool :=
  let c := s.core
  match c.cld with
  | [] => false
  | q :: _ => match q.follow with
    | none => false
    | some (_, p) =>
      q.started && !q.stopped && !q.followDone && decide (q.steps ≤ q.step) && c.halt == .run && !c.arrayLent && !c.arrayBusy &&
        decide (c.inFlight .mat < 7) && (match q.owner with | .rule _ => true | _ => c.ctlPassed p.pos p.slot)
/-- FOLLOW_ON_ISSUE: after the last byte of a CPYF has landed its MMA goes to the array, when the array is between commands and CTL has
passed the follow-on's position; its own decode faults are the MMA's (R181, 13 R237). -/
def execEvFollowOnIssue (s : State) : Out :=
  match s.core.cld with
  | [] => .next s
  | q :: _ =>
    match q.follow with
    | none => .next s
    | some (i, p) =>
      let c := s.core
      let isRule := match q.owner with | .rule _ => true | _ => false
      if !s.followReady then .next s
      else
        let nant : Bool := match q.owner with
          | .rule id => ((c.rules.getD id.val none).map Rule.nant).getD false
          | _ => c.nantAt p.pos p.slot
        let post := match i with | .mma _ _ _ _ _ _ _ _ tl => tl.post | _ => none
        let f0 := mmaFlight i p (if isRule then q.owner else .follow) nant (!isRule) post
        let f := { f0 with id := c.nextId }
        let s1 := s.mapCore fun c => (c.issue f0).mapHead .cld fun x => { x with followDone := true }
        let foot : Footprint := { eng := .mat, order := f.id, copy := none, reads := mmaGranules s.cnum i, writes := [] }
        match c.unclaimed (mmaDrawers i), s1.openFoot foot, f.work with
        | some x, _, some m | none, .error x, some m => .next (s1.matFault f m { flt := x })
        | none, .ok s2, _ => .next s2
        | some _, _, none | none, .error _, none => .next s1

/-- A command has done all that precedes its counter increment (R172). -/
def CopyCmd.moved (q : CopyCmd) : Bool :=
  match q.i with
  | .postTail .. => true
  | _ => q.started && !q.stopped && decide (q.steps ≤ q.step) && (!q.isCred || q.applied) && (q.follow.isNone || q.followDone)
/-- The counter increment: an atomic add that releases at CSC (R189, R190). -/
def State.bumpCounter (s : State) (e : CopyEng) (q : CopyCmd) (k : State → State) : State :=
  match q.cnt, copyCnt q.i with
  | some (p, va), some n =>
    let pa := p.phys + va % 65536
    match p.remote with
    | some r => s.askEngine (ofCopy e) r 8 (.atomic .add .w64 .u pa (n.cinc.setWidth 64) 0 [n.csc]) (fun _ _ s => k s)
        (fun s => s.copyFault e q { cause := Cause.perm, addr := va, aux := walkAux .wr 0 + 4 }) id
    | none =>
      if s.badMem pa 8 then s.copyFault e q (fEccu va 7)
      else if !s.memOk 8 then s
      else k ((s.memDebit 8).atomicAt (some .cp) p.key pa .add .w64 .u (n.cinc.setWidth 64) 0 [(s.party, n.csc)]).2
  | _, _ => k s
/-- A command leaves its queue: its pins and its reader's claim are dropped, its interval closes (R172, 16 R269). -/
def Core.leaveCopies (c : Core) (e : CopyEng) (q : CopyCmd) : Core :=
  let c1 := ((c.setCopies e (dropHead (c.copies e))).closeFoot (ofCopy e) q.order).mapChan q fun x => { x with retired := true }
  match q.owner, q.src with
  | .own, some o => if o.ring && hOpen o.h then c1.dropReader (hOtid o.h) o.slice (o.count / max 1 (hSlice o.h)) else c1
  | _, _ => c1
/-- COPY_RETIRE: a program's command at the queue's head retires: the counter, on the CP path, then the post (R172, R173, R190, 20 R314, R325). A rule's command
retires with its instance (16 R277). -/
def execEvCopyRetire (e : CopyEng) (s : State) : Out :=
  match s.core.copies e with
  | [] => .next s
  | q :: _ =>
    if !q.moved || !s.core.reached q.due || s.core.halt == .stopped || q.owner != .own || q.cnt.isSome && !s.core.pathOpen .cp q.place.pos q.place.slot then .next s
    else .next (s.bumpCounter e q fun s => s.mapCore fun c => (c.leaveCopies e q).postClause (ofCopy e) q.post q.place)

end Sys2Proof.Machine
end

