-- ==== Sys2Proof/Machine/Strip.lean ====
section
/-!
DEFINITION. Fabric strips: strip words, the configuration bitstream and its checks (15 R242, R246 to R252).
-/
namespace Sys2Proof.Machine

/-- Lanes of a strip (R242). -/
def stripLanes : Nat := 192
/-- Classes of the twelve strips (R242). -/
inductive StripClass where
  | arith | cmpsel | perm | sort | route | reduce | lookup
deriving DecidableEq, Repr
/-- The class of a strip (R242). -/
def stripClass (i : Nat) : StripClass :=
  match i with
  | 0 | 1 | 2 | 3 => .arith
  | 4 | 5 => .cmpsel
  | 6 | 7 => .perm
  | 8 => .sort
  | 9 => .route
  | 10 => .reduce
  | _ => .lookup

/-! ### Fields of a strip word (R246) -/

/-- Bits of a strip word as a number. -/
def sBits (w : W32) (lo len : Nat) : Nat := (w.extractLsb' lo len).toNat
/-- The strip opcode. -/
def sOp (w : W32) : Nat := sBits w 27 5
/-- First source: 0 X, 1 Y, 2 A, 3 K. -/
def sSa (w : W32) : Nat := sBits w 25 2
/-- Second source. -/
def sSb (w : W32) : Nat := sBits w 23 2
/-- FP: lanes are FP32. -/
def sFp (w : W32) : Bool := w.getLsbD 22
/-- ARG. -/
def sArg (w : W32) : Nat := sBits w 0 21

/-- The word uses SA, SB, FP (R247 to R250). -/
def sUses (w : W32) : Bool × Bool × Bool :=
  match sOp w with
  | 0x00 | 0x1F => (false, false, false)
  | 0x01 => (true, false, false)
  | 0x02 | 0x03 | 0x04 | 0x05 | 0x06 | 0x07 | 0x10 => (true, true, true)
  | 0x08 | 0x09 | 0x0A | 0x0B | 0x0C | 0x11 | 0x12 => (true, true, false)
  | 0x0D => (true, false, true)
  | 0x13 | 0x16 | 0x18 => (true, false, false)
  | 0x14 => (false, false, true)
  | 0x15 | 0x17 => (true, false, true)
  | _ => (false, false, false)
/-- The opcode belongs to the strip's class (R242, R247). -/
def sClassOk (c : StripClass) (op : Nat) : Bool :=
  match op with
  | 0x00 | 0x01 | 0x1F => true
  | 0x02 | 0x03 | 0x04 | 0x05 | 0x06 | 0x07 | 0x08 | 0x09 | 0x0A | 0x0B | 0x0C | 0x0D => c == .arith
  | 0x10 | 0x11 => c == .cmpsel
  | 0x12 | 0x13 => c == .perm
  | 0x14 => c == .sort
  | 0x15 | 0x16 => c == .route
  | 0x17 => c == .reduce
  | 0x18 => c == .lookup
  | _ => false
/-- The ARG field is in range (R247 to R250). -/
def sArgOk (w : W32) : Bool :=
  let a := sArg w
  match sOp w with
  | 0x00 => 1 ≤ a && a < 2 ^ 16
  | 0x10 => a % 2 ^ 18 == 0 && a / 2 ^ 18 < 6
  | 0x13 => a < stripLanes
  | 0x14 => a % 2 ^ 14 == 0 && a / 2 ^ 14 % 16 ≤ 8
  | 0x15 => a % 2 ^ 6 == 0 && (let g := a / 2 ^ 14; let k := a / 2 ^ 6 % 2 ^ 8; g != 0 && stripLanes % g == 0 && 1 ≤ k && k ≤ g)
  | 0x17 => a % 2 ^ 19 == 0 && a / 2 ^ 19 < 3
  | _ => a == 0
/-- A strip word is legal on a strip: opcode, unused fields, sources, argument (R246, R252). -/
def stripWordOk (strip : Nat) (hasY : Bool) (w : W32) : Bool :=
  let u := sUses w
  sClassOk (stripClass strip) (sOp w) && !w.getLsbD 21 && (u.1 || sSa w == 0) && (u.2.1 || sSb w == 0) && (u.2.2 || !sFp w) &&
    sArgOk w && (hasY || !((u.1 && sSa w == 1) || (u.2.1 && sSb w == 1)))

/-! ### What a word does -/

/-- An invalid lane holding 0. -/
def noLane : Lane := { v := 0, ok := false }
/-- A lane of a row. -/
def laneN (x : List Lane) (l : Nat) : Lane := x.getD l noLane
/-- The number type of a word. -/
def sTy (fp : Bool) : NTy := if fp then .f32 else .i32
/-- A word's arithmetic rounded to FP32, or modulo 2^32 (R246). -/
def sArith (fp : Bool) (f : List FVal → FVal) (g : Nat) (xs : List W32) : W32 :=
  if fp then rneFp32 (firstNaN (xs.map fpVal) (f (xs.map fpVal))) else BitVec.ofNat 32 g
/-- The lesser or greater of two lanes: -0 below +0, the first NaN (R247). -/
def sBest (max fp : Bool) (a b : W32) : W32 :=
  if fp && (laneNaN a || laneNaN b) then (if laneNaN a then a else b)
  else if NTy.below (sTy fp) a b then (if max then b else a) else if NTy.below (sTy fp) b a then (if max then a else b) else a
/-- VCMP's condition of a code (R247). -/
def sCond (cc : Nat) : VCond :=
  match cc with
  | 0 => .eq | 1 => .ne | 2 => .lt | 3 => .le | 4 => .gt | _ => .ge

/-- The order of CXS: invalid lanes greatest, then NaNs (R248). -/
def cxsLess (fp : Bool) (x y : Lane) : Bool :=
  if !x.ok then false
  else if !y.ok then true
  else if fp && laneNaN x.v then false
  else if fp && laneNaN y.v then true
  else NTy.below (sTy fp) x.v y.v
/-- CXS on lane l (R248). -/
def cxsLane (fp : Bool) (j k : Nat) (a : List Lane) (l : Nat) : Lane :=
  let p := if l / 2 ^ j % 2 = 0 then l + 2 ^ j else l - 2 ^ j
  let lo := min l p
  let asc := k == 8 || lo / 2 ^ k % 2 == 0
  if stripLanes ≤ p then laneN a l
  else
    let x := laneN a lo
    let y := laneN a (max l p)
    let swap := if asc then cxsLess fp y x else cxsLess fp x y
    if swap then laneN a p else laneN a l

/-- Ranks of a group by repeated selection: the lanes chosen, in order (R249). -/
def topkPick (fp : Bool) : Nat → List (Nat × W32) → List Nat
  | 0, _ => []
  | _ + 1, [] => []
  | k + 1, x :: r =>
    let b := r.foldl (fun b y => if beats true (sTy fp) y.2 b.2 then y else b) x
    b.1 :: topkPick fp k ((x :: r).filter fun y => y.1 != b.1)
/-- TOPK (R249). -/
def topk (fp : Bool) (g k : Nat) (a : List Lane) : List Lane :=
  let picks := (List.range (stripLanes / max 1 g)).map fun n =>
    topkPick fp k (((List.range g).map fun j => (n * g + j, laneN a (n * g + j))).filterMap fun x => if x.2.ok then some (x.1, x.2.v) else none)
  (List.range stripLanes).map fun l =>
    match (picks.getD (l / max 1 g) []).findIdx? (· == l) with
    | some r => { v := BitVec.ofNat 32 r, ok := true }
    | none => { v := BitVec.allOnes 32, ok := false }
/-- BUCK: lanes and bucket counters (R249). -/
def buck : List Lane → List W32 → List Lane × List W32
  | [], bs => ([], bs)
  | x :: r, bs =>
    if x.ok && x.v.toNat < 256 then
      let c := bs.getD x.v.toNat 0
      let p := buck r (bs.set x.v.toNat (c + 1))
      ({ v := c, ok := true } :: p.1, p.2)
    else
      let p := buck r bs
      (noLane :: p.1, p.2)
/-- RED (R250). -/
def redLanes (fp : Bool) (op : Nat) (a : List Lane) : List Lane :=
  let f (x y : W32) : W32 := match op with
    | 0 => sArith fp (fun v => fadd .rne (fv v 0) (fv v 1)) (x.toNat + y.toNat) [x, y]
    | 1 => sBest false fp x y
    | _ => sBest true fp x y
  let s := (a.filterMap fun x => if x.ok then some x.v else none).foldl (fun acc x => match acc with
    | none => some x
    | some y => some (f y x)) (none : Option W32)
  (match s with | some v => { v := v, ok := true } | none => noLane) :: List.replicate (stripLanes - 1) noLane

/-- The registers a strip word works on: A, the bucket counters, and the tokens' lanes, the constant and the table (R242). -/
structure StripEnv where
  x : List Lane
  y : List Lane
  k : W32
  table : List W32

/-- A source of a word (R246). -/
def StripEnv.src (e : StripEnv) (a : List Lane) (code : Nat) : List Lane :=
  match code with
  | 0 => e.x
  | 1 => e.y
  | 2 => a
  | _ => List.replicate stripLanes { v := e.k, ok := true }

/-- One strip word: A and the bucket counters after it (R247 to R250). -/
def stripWord (e : StripEnv) (w : W32) (a : List Lane) (bs : List W32) : List Lane × List W32 :=
  let fp := sFp w
  let sa := e.src a (sSa w)
  let sb := e.src a (sSb w)
  let arg := sArg w
  let each (f : Nat → Lane) : List Lane × List W32 := ((List.range stripLanes).map f, bs)
  let two (f : W32 → W32 → W32) : List Lane × List W32 :=
    each fun l => { v := f (laneN sa l).v (laneN sb l).v, ok := (laneN sa l).ok && (laneN sb l).ok }
  match sOp w with
  | 0x01 => (sa, bs)
  | 0x02 => two fun p q => sArith fp (fun v => fadd .rne (fv v 0) (fv v 1)) (p.toNat + q.toNat) [p, q]
  | 0x03 => two fun p q => sArith fp (fun v => fadd .rne (fv v 0) (fneg (fv v 1))) (p.toNat + 2 ^ 32 - q.toNat) [p, q]
  | 0x04 => two fun p q => sArith fp (fun v => fmul (fv v 0) (fv v 1)) (p.toNat * q.toNat) [p, q]
  | 0x05 => each fun l =>
      let p := (laneN sa l).v
      let q := (laneN sb l).v
      let c := (laneN a l).v
      { v := sArith fp (fun v => fadd .rne (fmul (fv v 0) (fv v 1)) (fv v 2)) (p.toNat * q.toNat + c.toNat) [p, q, c],
        ok := (laneN sa l).ok && (laneN sb l).ok && (laneN a l).ok }
  | 0x06 => two (sBest false fp)
  | 0x07 => two (sBest true fp)
  | 0x08 => two fun p q => p &&& q
  | 0x09 => two fun p q => p ||| q
  | 0x0A => two fun p q => p ^^^ q
  | 0x0B => two fun p q => p <<< (q.toNat % 32)
  | 0x0C => two fun p q => p >>> (q.toNat % 32)
  | 0x0D => each fun l =>
      let x := laneN sa l
      { v := if fp then rneFp32 (ofInt x.v.toInt) else laneOfInt (rndToInt .rne (fpVal x.v) (-(2 ^ 31)) (2 ^ 31 - 1)), ok := x.ok }
  | 0x10 => two fun p q => if vcmpHolds (sCond (arg / 2 ^ 18)) (sTy fp) p q then BitVec.allOnes 32 else 0
  | 0x11 => each fun l =>
      let c := if (laneN a l).v ≠ 0 then laneN sa l else laneN sb l
      { c with ok := (laneN a l).ok && c.ok }
  | 0x12 => each fun l =>
      let b := laneN sb l
      if b.v.toNat < stripLanes then let c := laneN sa b.v.toNat; { c with ok := b.ok && c.ok } else noLane
  | 0x13 => each fun l => laneN sa ((l + arg) % stripLanes)
  | 0x14 => each (cxsLane fp (arg / 2 ^ 18 % 8) (arg / 2 ^ 14 % 16) a)
  | 0x15 => (topk fp (arg / 2 ^ 14) (arg / 2 ^ 6 % 2 ^ 8) sa, bs)
  | 0x16 => buck sa bs
  | 0x17 => (redLanes fp (arg / 2 ^ 19) sa, bs)
  | 0x18 => each fun l =>
      let b := laneN sa l
      if b.ok && b.v.toNat < 1024 then { v := e.table.getD b.v.toNat 0, ok := true } else noLane
  | _ => (a, bs)
/-- A firing's words in order (R244). -/
def stripRun (e : StripEnv) : List W32 → List Lane → List W32 → List Lane × List W32
  | [], a, bs => (a, bs)
  | w :: ws, a, bs => let r := stripWord e w a bs; stripRun e ws r.1 r.2
/-- A program contains HOLD (R245). -/
def hasHold (prog : List W32) : Bool := prog.any fun w => sOp w == 0x1F

/-! ### The bitstream (R251, R252) -/

/-- Source code of an unconnected input. -/
def noSrc : Nat := 31
/-- A source code is in range. -/
def srcCodeOk (c : Nat) : Bool := c < 8 || (8 ≤ c && c < 20) || c == noSrc
/-- Fields of a descriptor: SRCX, SRCY, NW. -/
def descX (w : W32) : Nat := sBits w 0 5
/-- SRCY. -/
def descY (w : W32) : Nat := sBits w 5 5
/-- NW. -/
def descN (w : W32) : Nat := sBits w 10 6

/-- A bitstream's words read as a configuration. -/
def parseCfg (ws : List W32) : FabCfg :=
  let d (i : Nat) : W32 := ws.getD (4 + i) 0
  let start (i : Nat) : Nat := 28 + ((List.range i).map fun j => descN (d j)).sum
  let table := if (ws.getD 3 0).getLsbD 0 then (ws.drop (start 12)).take 1024 else List.replicate 1024 0
  { outs := (List.range 4).map fun p => sBits (ws.getD 2 0) (4 * p) 4
    strips := (List.range 12).map fun i =>
      { srcx := descX (d i), srcy := descY (d i), k := ws.getD (16 + i) 0, prog := (ws.drop (start i)).take (descN (d i)) }
    table := table }
/-- Strip-to-strip sources of a strip. -/
def StripCfg.feeders (s : StripCfg) : List Nat := ([s.srcx, s.srcy].filter fun c => 8 ≤ c && c < 20).map (· - 8)
/-- Strips that a path of at most n steps leads to, back along the sources. -/
def FabCfg.reach (c : FabCfg) : Nat → List Nat → List Nat
  | 0, l => l
  | n + 1, l => c.reach n ((l ++ l.flatMap fun i => ((c.strips[i]?).map StripCfg.feeders).getD []).dedup)
/-- A strip stands on a cycle. -/
def FabCfg.onCycle (c : FabCfg) (i : Nat) : Bool :=
  (c.reach 12 (((c.strips[i]?).map StripCfg.feeders).getD [])).contains i
/-- The strip feeds a strip or a port. -/
def FabCfg.feeds (c : FabCfg) (i : Nat) : Bool := c.outs.contains i || c.strips.any fun s => s.feeders.contains i

/-- The faults of a bitstream of L words by R252, as strip and word index, in ascending word order. -/
def cfgFaults (ws : List W32) (l : Nat) : List (Nat × Nat) :=
  let w (i : Nat) : W32 := ws.getD i 0
  let c := parseCfg ws
  let n := ((List.range 12).map fun j => descN (w (4 + j))).sum
  let tab := (w 3).getLsbD 0
  let want := 28 + n + (if tab then 1024 else 0)
  let head : List (Nat × Nat) :=
    (if w 0 = 0x46420001 then [] else [(15, 0)]) ++
    (if (w 1).toNat = l ∧ want = l then [] else [(15, 1)]) ++
    (if (w 2).toNat < 2 ^ 16 ∧ c.outs.all (fun p => p < 12 || p == 15) then [] else [(15, 2)]) ++
    (if (w 3).toNat < 2 ∧ !(tab && descN (w 15) == 0) then [] else [(15, 3)])
  let descs : List (Nat × Nat) := (List.range 12).filterMap fun i =>
    let d := w (4 + i)
    let nw := descN d
    let ok := d.toNat < 2 ^ 16 && nw ≤ 32 && srcCodeOk (descX d) && srcCodeOk (descY d) &&
      (if nw = 0 then descX d == noSrc && descY d == noSrc && !c.feeds i else descX d != noSrc) && !c.onCycle i
    if ok then none else some (i, 4 + i)
  let start (i : Nat) : Nat := 28 + ((List.range i).map fun j => descN (w (4 + j))).sum
  let words : List (Nat × Nat) := (List.range 12).flatMap fun i =>
    let d := w (4 + i)
    (List.range (descN d)).filterMap fun j =>
      if stripWordOk i (descY d != noSrc) (w (start i + j)) then none else some (i, start i + j)
  head ++ descs ++ words

/-- Input ports that a configuration uses (R252). -/
def FabCfg.inPorts (c : FabCfg) : List Nat :=
  (List.range 8).filter fun p => c.strips.any fun s => !s.prog.isEmpty && (s.srcx == p || s.srcy == p)
/-- Output ports that a configuration uses (R252). -/
def FabCfg.outPorts (c : FabCfg) : List Nat := (List.range 4).filter fun p => c.outs.getD p 15 != 15

end Sys2Proof.Machine
end

