-- ==== Sys2Proof/Machine/Fabric.lean ====
section
/-!
DEFINITION. The fabric: FAB words, the unit's queue, phases and their tokens (15 R243 to R265).
-/
namespace Sys2Proof.Machine

/-- The fabric changed. -/
def Core.mapFab (c : Core) (f : Fabric → Fabric) : Core := { c with fabric := f c.fabric }
/-- The fabric of the core in front changed. -/
def State.mapFab (s : State) (f : Fabric → Fabric) : State := s.mapCore fun c => c.mapFab f
/-- The running phase changed. -/
def State.mapPhase (s : State) (f : Phase → Phase) : State := s.mapFab fun b => { b with phase := b.phase.map f }

/-! ### Words at the sequencer (R254, R255) -/

/-- A FAB word goes into the unit's queue of 8; a ninth waits at the queue's end with its sequencer (R254). -/
def State.fabQueue (s : State) (q : FabCmd) : Out :=
  let s1 := s.mapFab fun b => { b with queue := b.queue ++ [q] }
  if s1.core.fabric.queue.length ≤ 8 then .next (s1.complete 1)
  else .next ((s1.mapSeq s.who fun q => { q with claim := some 0 }).waiting .internal)
/-- A FAB word before it is queued: the wait of one already queued, or its handle and its checks (R254). -/
def State.fabWord (s : State) (k : State → Out) : Out :=
  if s.seq.claim.isSome then
    (if 8 < s.core.fabric.queue.length then .next (s.waiting .internal) else .next (s.complete 1))
  else k s
/-- A queued word of the unit. -/
def fabCmd (i : Instr) (place : At) (post : Option TailClause) : FabCmd :=
  { i := i, place := place, opnd := none, binds := [], live := true, sees := 0, ending := false, stopped := false, post := post }

/-- A handle's BASE is aligned, or the word raises ALIGN at decode (R54). -/
def State.withAligned (s : State) (v : W256) (k : State → Out) : Out :=
  if handleAligned v then k s else .next (s.trap { cause := Cause.align, addr := hBase v })
/-- An operand of the fabric resolved: pages and span, then tags and windows (R255, 09 R185). -/
def State.fabOperand (s : State) (o : Operand) (w : Want) : Judged Operand :=
  match s.translate [(o, w)] none [] with
  | .error f => .error f
  | .ok (pages, _) => match s.settle { o with pages := pages.getD 0 [] } w with
    | .error f => .error f
    | .ok (p, _) => .ok p
/-- The whole pattern of a handle, or its first elements (R255). -/
def fabPattern (h : W256) (cnt : W32) : Operand :=
  { h := h, pages := [], tags := [], ring := false, slice := 0, count := if cnt = 0 then hCount h else min cnt.toNat (hCount h) }
/-- An open handle against its record (16 R266). -/
def Core.checkIfOpen (c : Core) (h : W256) (reader : Bool) : Judged Unit := if hOpen h then c.checkOpen h reader else .ok ()

/-- FCFG: its handle is read at decode; the unit installs it (R256). An open handle is checked against its record; its pattern is read as
it stands, with no claim (log 76). -/
def execFcfg (h : HReg) (tl : Tail) (s : State) : Out :=
  s.fabWord fun s => s.withHO h fun v s =>
    if !(handleOk v [0, 1] && hRank v == 1 && hFmt v == 0) || s.core.fabric.openPh.isSome then .next (s.trap fIllop)
    else s.withAligned v fun s => s.withAwait tl fun s =>
      match s.core.checkIfOpen v true with
      | .error f => .next (s.trap f)
      | .ok _ => match s.fabOperand (fabPattern v 0) .rd with
        | .error f => .next (s.trap f)
        | .ok o => s.fabQueue { fabCmd (.fcfg h tl) s.cur tl.post with opnd := some o }

/-- The next FGO in the block: one that an INST installs, a program's own, or none to be seen (16 R270, R273; log 21). -/
def Seq.nextFgo (q : Seq) : Option Bool :=
  match q.fetch with
  | none => none
  | some (_, ws) =>
    let fgo (k : Nat) : Bool := match decode (ws.getD k 0) with | .ok (.fgo ..) => true | _ => false
    ((List.range 4).find? fun k => decide (slotOf q.pc < k) && fgo k).map fun k => isInst (ws.getD (k - 1) 0)
/-- A program's binding of an open input claims its slices (16 R270). -/
def bindClaims (q : Seq) (v : W256) (port : Nat) : Bool := hOpen v && decide (port < 8) && q.nextFgo != some true
/-- What a binding of an open tensor must be: a program's input of a nonzero multiple of its slice; an output only for a rule (16 R267,
R270). -/
def bindShape (q : Seq) (v : W256) (port n : Nat) : Bool :=
  !hOpen v || (if port < 8 then !bindClaims q v port || (hSlice v != 0 && n != 0 && n % hSlice v == 0) else q.nextFgo != some false)
/-- The slices of a claiming binding, from the record's read cursor on. -/
def Core.claimBind (c : Core) (o : Operand) : Judged (Core × Operand) :=
  if o.ring then
    match c.claimRead (hOtid o.h) (o.count / hSlice o.h) with
    | .error f => .error f
    | .ok x => .ok (x.2, o)
  else .ok (c, o)
/-- A binding that will not be used gives its claim back (16 R269). -/
def Core.dropBind (c : Core) (b : Bind) : Core :=
  let o := b.opnd
  if o.ring && hOpen o.h then c.dropReader (hOtid o.h) o.slice (o.count / max 1 (hSlice o.h)) else c
/-- FBIND and FBIND.C: the binding attaches to the next FGO, in place of an earlier one of its port (R255). -/
def State.bindPort (s : State) (i : Instr) (h : HReg) (port : Nat) (compact : Bool) (cnt : W32) (tl : Tail) : Out :=
  s.fabWord fun s => s.withHO h fun v s =>
    let o0 := fabPattern v cnt
    if !(handleOk v [0, 1] && (hFmt v == 0 || hFmt v == 1) && bindShape s.seq v port o0.count) then .next (s.trap fIllop)
    else s.withAligned v fun s => s.withAwait tl fun s =>
      match s.core.checkIfOpen v (port < 8) with
      | .error f => .next (s.trap f)
      | .ok _ =>
        let o1 := if bindClaims s.seq v port then { o0 with ring := true, slice := (s.core.orec (hOtid v)).rc } else o0
        match s.fabOperand o1 (if port < 8 then .rd else .wr) with
        | .error f => .next (s.trap f)
        | .ok o2 => match s.core.claimBind o2 with
          | .error f => .next (s.trap f)
          | .ok (c, o) =>
            let b : Bind := { port := port, compact := compact, opnd := o, sees := s.tailSees tl }
            let c1 := (c.fabric.pendBinds.filter fun y => y.port == port).foldl Core.dropBind c
            ({ s with core := c1.mapFab fun x => { x with pendBinds := x.pendBinds.filter (fun (y : Bind) => y.port != port) ++ [b] } }).fabQueue
              (fabCmd i s.cur tl.post)
/-- FBIND (R255). -/
def execFbind (h : HReg) (port : Fin 12) (cnt : W32) (tl : Tail) (s : State) : Out :=
  s.bindPort (.fbind h port cnt tl) h port.val false cnt tl
/-- FBIND.C (R255). -/
def execFbindC (h : HReg) (out : BitVec 2) (cnt : W32) (tl : Tail) (s : State) : Out :=
  s.bindPort (.fbindC h out cnt tl) h (8 + out.toNat) true cnt tl

/-- FGO: the pending bindings attach to it; the unit starts the phase (R254, R257). An open output belongs to a rule alone (16 R267). -/
def execFgo (n : BitVec 8) (tl : Tail) (s : State) : Out :=
  s.fabWord fun s =>
    let bs := s.core.fabric.pendBinds
    if s.core.fabric.openPh.isSome || bs.any fun b => !b.isInput && hOpen b.opnd.h then .next (s.trap fIllop)
    else s.withAwait tl fun s =>
      (s.mapFab fun x => { x with pendBinds := [], openPh := some n }).fabQueue
        { fabCmd (.fgo n tl) s.cur tl.post with binds := bs, sees := s.tailSees tl }

/-- A record handle: four INT32 elements in memory or scratchpad (R259). -/
def recordOk (v : W256) : Bool := handleOk v [0, 1] && hFmt v == 0 && hCount v == 4
/-- FBAR and FSTOP, with or without a record, at the sequencer (R254, R259, R260); a record through an open handle is checked against its
open-tensor record and stands where the handle says, with no claim (log 76). -/
def State.endPhase (s : State) (i : Instr) (h : Option HReg) (bad : State → Bool) (tl : Tail) : Out :=
  let go (o : Option Operand) (s : State) : Out :=
    (s.mapFab fun x => { x with openPh := none }).fabQueue
      { fabCmd i s.cur tl.post with opnd := o, live := s.core.fabric.openPh.isSome }
  s.fabWord fun s =>
    match h with
    | none => if bad s then .next (s.trap fIllop) else s.withAwait tl (go none)
    | some r => s.withHO r fun v s =>
      if bad s || !recordOk v then .next (s.trap fIllop)
      else s.withAligned v fun s => s.withAwait tl fun s => match s.core.checkIfOpen v false with
        | .error f => .next (s.trap f)
        | .ok _ => match s.fabOperand (fabPattern v 0) .wr with
          | .error f => .next (s.trap f)
          | .ok o => go (some o) s
/-- FBAR names no open phase, or another (R254). -/
def fbarBad (n : BitVec 8) (s : State) : Bool := s.core.fabric.openPh != some n
/-- FBAR (R259). -/
def execFbar (n : BitVec 8) (tl : Tail) (s : State) : Out := s.endPhase (.fbar n tl) none (fbarBad n) tl
/-- FBAR.REC (R259). -/
def execFbarRec (h : HReg) (n : BitVec 8) (tl : Tail) (s : State) : Out := s.endPhase (.fbarRec h n tl) (some h) (fbarBad n) tl
/-- FSTOP (R260). -/
def execFstop (tl : Tail) (s : State) : Out := s.endPhase (.fstop tl) none (fun _ => false) tl
/-- FSTOP.REC (R260). -/
def execFstopRec (h : HReg) (tl : Tail) (s : State) : Out := s.endPhase (.fstopRec h tl) (some h) (fun _ => false) tl

/-! ### Phases (R257) -/

/-- A strip at the start of a phase (R242). -/
def Strip.start : Strip :=
  { a := List.replicate stripLanes { v := 0, ok := true }, buckets := List.replicate 256 0, out := [], taken := [], lastX := false,
    lastY := false }
/-- A phase at its start (R257). -/
def Phase.start (binds : List Bind) (order sees : Nat) (place : At) (owner : Owner) : Phase :=
  { binds := binds, strips := List.replicate 12 Strip.start,
    ins := List.replicate 8 { fed := 0, last := false, skid := [], taken := [], far := [], due := none },
    outs := List.replicate 4 { tokens := 0, written := 0, overrun := false, done := false, sent := [], due := none },
    order := order, sees := sees, place := place, owner := owner, stopped := false }
/-- The binding of a port. -/
def Phase.bind (p : Phase) (port : Nat) : Option Bind := p.binds.find? fun b => b.port == port
/-- A phase may start: a configuration is installed and every used port is bound (R257); what it leaves unused is released. -/
def Fabric.phaseBinds (f : Fabric) (binds : List Bind) : Option (List Bind) :=
  match f.cfg with
  | none => none
  | some c =>
    let used := c.inPorts ++ c.outPorts.map (· + 8)
    if used.all fun p => binds.any fun b => b.port == p then some (binds.filter fun b => used.contains b.port) else none
/-- Program readers of a phase's open inputs have retired (16 R269). -/
def Core.dropBinds (c : Core) (binds : List Bind) : Core :=
  binds.foldl Core.dropBind c
/-- A phase started, with its overlap check (07 R144, R257). -/
def State.startPhase (s : State) (binds : List Bind) (sees : Nat) (place : At) (owner : Owner) : Judged State :=
  match s.core.fabric.phaseBinds binds with
  | none => .error fIllop
  | some bs =>
    let n := s.core.order
    let gs (input : Bool) : List (Nat × Nat) := (bs.filter fun b => b.isInput == input).flatMap fun b => b.opnd.granules s.cnum
    let foot : Footprint := { eng := .fab, order := n, copy := none, reads := (gs true).map Prod.fst, writes := gs false }
    let unused := binds.filter fun b => !bs.any fun x => x.port == b.port
    match s.openFoot foot with
    | .error f => .error f
    | .ok s1 =>
      .ok (s1.mapCore fun c =>
        ({ (if owner == Owner.own then c.dropBinds unused else c) with order := n + 1 }).mapFab fun f =>
          { f with phase := some (Phase.start bs n sees place owner) })
/-- The running phase ends: its interval closes, what its ports have asked is no longer wanted, and a program's readers have retired (R259,
R260). -/
def Core.endPhase (c : Core) (p : Phase) : Core :=
  let c1 := ((c.mapFab fun f => { f with phase := f.parked.head?, parked := f.parked.tail }).dropReply .fab).closeFoot .fab p.order
  if p.owner == Owner.own then c1.dropBinds p.binds else c1

/-- Consumers of a source code: strips by twice their number, one more for Y; output ports from 100 on (R244). -/
def FabCfg.consumers (c : FabCfg) (code : Nat) : List Nat :=
  (c.strips.zipIdx.flatMap fun x => if x.1.prog.isEmpty then [] else
    (if x.1.srcx == code then [2 * x.2] else []) ++ (if x.1.srcy == code then [2 * x.2 + 1] else [])) ++
  (List.range 4).filterMap fun p => if 8 ≤ code && c.outs.getD p 15 + 8 == code then some (100 + p) else none

/-- The number a fault record gives a part of the fabric, in TRAPREC5 from bit 16 on: an input port, an output port from 8 on, a strip from
16 on (R264; log 38). -/
def fabPart (n : Nat) : Nat := fld n 16
/-- A fault that strikes a running phase at one of its parts stops it until ERET or ERET.SKIP; a rule's instance is dropped (R264, 16
R279). -/
def State.phaseFault (s : State) (p : Phase) (f : Flt) (part tsdone : Nat) : State :=
  let g : Flt := { f with aux := f.aux + fabPart part }
  match p.owner with
  | .rule id => s.mapCore fun c => ((c.dropReply .fab).closeFoot .fab p.order).ruleFault id.val .fab g tsdone 0 0 0
  | _ =>
    let info : TrapInfo :=
      { eng := .fab, cause := g.cause, reason := g.reason, awd := false, async := true, rulei := false, pc := p.place.pc,
        addr := BitVec.ofNat 64 g.addr, ruleid := 0, tsdone := tsdone, col := 0, row := 0, kstep := 0, slice := 0,
        aux := BitVec.ofNat 64 g.aux, word := p.place.word }
    (s.mapPhase fun x => { x with stopped := true }).mapCore fun c =>
      { c.dropReply .fab with pend := c.pend ++ [{ info := info, held := .phase, inside := c.aside.isSome }] }

/-- Tile steps of a port: 5 tokens each (R263). -/
def portSteps (tokens : Nat) : Nat := tokens / 5
/-- Whole tile steps of the port of a phase that has done the most. -/
def Phase.tileSteps (p : Phase) : Nat := (p.ins.map InPort.fed ++ p.outs.map OutPort.tokens).foldl (fun n t => max n (portSteps t)) 0
/-- A phase that may move: not stopped, the core running. -/
def State.runningPhase (s : State) : Option (FabCfg × Phase) :=
  match s.core.fabric.cfg, s.core.fabric.phase with
  | some c, some p => if p.stopped || s.core.halt == .stopped then none else some (c, p)
  | _, _ => none
/-- Every feeder has issued LAST and every output port is done (R259). -/
def Phase.drained (p : Phase) (cfg : FabCfg) : Bool :=
  cfg.inPorts.all (fun k => (p.ins[k]?).any InPort.last) && cfg.outPorts.all fun k => (p.outs[k]?).any OutPort.done
/-- The overlap interval of a phase that has drained closes (R261). -/
def State.noteDrain (s : State) : State :=
  match s.core.fabric.cfg, s.core.fabric.phase with
  | some c, some p => if p.drained c then s.mapCore fun d => d.closeFoot .fab p.order else s
  | _, _ => s
/-- An access of another module by a part of the fabric: one at a time, so that an answer goes to the part that asked (R262). -/
def State.askFab (s : State) (part rank n : Nat) (k : LinkKind) (done : List Byte → State → State) (refused : State → State) : State :=
  match s.core.replies.get .fab with
  | .none => (s.mapFab fun f => { f with asker := part }).askEngine .fab rank n k (fun bs _ s => done bs s) refused id
  | _ => if s.core.fabric.asker = part then s.askEngine .fab rank n k (fun bs _ s => done bs s) refused id else s
/-- A part of the fabric has an access of another module under way. -/
def Core.fabAsks (c : Core) (part : Nat) : Bool := c.replies.get .fab != .none && c.fabric.asker == part

/-! ### Feeders, strips and output ports (R243 to R245, R258) -/

/-- Open slices that a token reads are present (R255). -/
def Core.tokenReady (c : Core) (o : Operand) (k n : Nat) : Bool :=
  !(o.ring && hOpen o.h) || n == 0 ||
    (let sl := max 1 (hSlice o.h)
     (List.range ((k + n - 1) / sl + 1 - k / sl)).all fun j => decide (o.slice + k / sl + j < (c.orec (hOtid o.h)).p))
/-- A token of raw lanes. -/
def tokenOf (bs : List Byte) (last : Bool) : Token :=
  let ls := (lanesOf bs).map fun v => ({ v := v, ok := true } : Lane)
  { lanes := ls ++ List.replicate (stripLanes - ls.length) noLane, last := last }
/-- In deterministic mode a tile step of five tokens takes the time of a copy's on the same memory before its first token: the cycle at which it
is complete, where it has yet to begin (23 R343). -/
def Core.portBegin (c : Core) (due : Option Nat) (o : Operand) (cnum k : Nat) : Option Nat :=
  if c.det && due.isNone then some (c.later ((o.stepLat cnum k (min (5 * stripLanes) (o.count - k))).getD 0)) else none
/-- The tile step stays under way after a token, unless that was its fifth or the last. -/
def portDue (due : Option Nat) (tokens : Nat) (last : Bool) : Option Nat := if last || tokens % 5 = 0 then none else due
/-- A feeder's next token: its first element and how many it holds (R243). -/
def feedRange (o : Operand) (ip : InPort) : Nat × Nat := (ip.fed * stripLanes, min stripLanes (o.count - ip.fed * stripLanes))
/-- An access of a phase on the FB path may be performed (20 R325). -/
def Core.fbOpen (c : Core) (ph : Phase) : Bool := ph.owner != .own || c.pathOpen .fb ph.place.pos ph.place.slot
/-- What a feeder sees: a rule's, or that of an open tensor, has waited on presence (20 R324). -/
def Phase.look (ph : Phase) (b : Bind) : Option Look :=
  if ph.owner != .own || (b.opnd.ring && hOpen b.opnd.h) then none
  else some { bit := Path.fb.bit, pos := ph.place.pos, slot := ph.place.slot, sees := max ph.sees b.sees }
/-- A feeder may build its next token; while the core stops it finishes its tile step of five tokens (R243, R255, R261, R263). -/
def Core.feederMay (c : Core) (cfg : FabCfg) (ph : Phase) (p : Nat) : Bool :=
  match ph.bind p, ph.ins[p]? with
  | some b, some ip =>
    let r := feedRange b.opnd ip
    !ip.last && cfg.inPorts.contains p && decide (ip.skid.length < 2) && c.tokenReady b.opnd r.1 r.2 && c.fbOpen ph &&
      (c.halt == .run || ip.fed % 5 != 0 || !ip.far.isEmpty || c.fabAsks p)
  | _, _ => false
/-- FEEDER_TOKEN: a feeder of a used input port builds its next token, elements of other modules asked for first (R243). -/
def execEvFeederToken (p : Fin 8) (s : State) : Out :=
  match s.runningPhase with
  | none => .next s
  | some (cfg, ph) =>
    match ph.bind p.val, ph.ins[p.val]? with
    | some b, some ip =>
      let o := b.opnd
      let k := (feedRange o ip).1
      let n := (feedRange o ip).2
      let last := decide (o.count ≤ k + stripLanes)
      if !s.core.feederMay cfg ph p.val || !s.memOk (devBytes o s.cnum k n) then .next s
      else
      let put (f : InPort → InPort) (s : State) : State := s.mapPhase fun x => { x with ins := modAt x.ins p.val f }
      match s.core.portBegin ip.due o s.cnum k with
      | some n => .next (put (fun x => { x with due := some n }) s)
      | none => if !ip.due.all s.core.reached then .next s else
        match (List.range n).findSome? fun j => s.badSpot o (k + j) with
        | some f => .next (s.phaseFault ph f p.val (portSteps ip.fed))
        | none =>
          let fs := (farPieces o s.cnum k n).filter fun x => !ip.far.any fun y => y.1 == k + x.2.2
          match fs with
          | [] =>
            let t := tokenOf (s.gatherStep (ph.look b) o k n ip.far) last
            .next (put (fun x => { x with fed := x.fed + 1, last := last, skid := x.skid ++ [t], far := [], due := portDue x.due (x.fed + 1) last })
              (s.memDebit (devBytes o s.cnum k n))).noteDrain
          | f :: _ =>
            let mine := fs.filter fun x => x.1 == f.1
            let es := hEsize o.h
            .next (s.askFab p.val f.1 (mine.length * es) (.read (mine.map fun x => (x.2.1, es)))
              (fun bs s =>
                let got := mine.zipIdx.map fun y => (k + y.1.2.2, (bs.drop (y.2 * es)).take es)
                put (fun x => { x with far := x.far ++ got }) s)
              (fun s => s.phaseFault ph (fRefused o (k + f.2.2) .rd) p.val (portSteps ip.fed)))
    | _, _ => .next s

/-- The head token of a source that a consumer has not taken yet (R244). -/
def Phase.headFor (p : Phase) (code consumer : Nat) : Option Token :=
  let q : List Token × List Nat :=
    if code < 8 then ((p.ins[code]?).map fun i => (i.skid, i.taken)).getD ([], [])
    else ((p.strips[code - 8]?).map fun t => (t.out, t.taken)).getD ([], [])
  if q.2.contains consumer then none else q.1.head?
/-- A consumer takes the head token of a source; it is released once every consumer has it (R244). -/
def Phase.take (p : Phase) (cfg : FabCfg) (code consumer : Nat) : Phase :=
  let upd (skid : List Token) (taken : List Nat) : List Token × List Nat :=
    let t := consumer :: taken
    if (cfg.consumers code).all t.contains then (skid.drop 1, []) else (skid, t)
  let updIn (i : InPort) : InPort := let r := upd i.skid i.taken
    { i with skid := r.1, taken := r.2 }
  let updStrip (t : Strip) : Strip := let r := upd t.out t.taken
    { t with out := r.1, taken := r.2 }
  if code < 8 then { p with ins := modAt p.ins code updIn } else { p with strips := modAt p.strips (code - 8) updStrip }

/-- A strip may fire, or discard what comes after LAST on its other input (R244, R245). -/
def Phase.stripMay (ph : Phase) (cfg : FabCfg) (i : Nat) : Bool :=
  match cfg.strips[i]?, ph.strips[i]? with
  | some sc, some st =>
    let hasY := sc.srcy != noSrc
    let x := (ph.headFor sc.srcx (2 * i)).isSome
    let y := hasY && (ph.headFor sc.srcy (2 * i + 1)).isSome
    !sc.prog.isEmpty &&
      (if st.lastX || st.lastY then (st.lastX && !st.lastY && y) || (!st.lastX && st.lastY && x)
       else decide (st.out.length < 2) && x && (y || !hasY))
  | _, _ => false
/-- STRIP_FIRE: strip i consumes a token from each connected input, runs its program and emits a token; after LAST on one input it only
discards the other's (R244, R245). Damage in the fabric's state raises ECCU there (R264, 25 R385). -/
def execEvStripFire (i : Fin 12) (s : State) : Out :=
  match s.runningPhase with
  | none => .next s
  | some (cfg, ph) =>
    match cfg.strips[i.val]?, ph.strips[i.val]? with
    | some sc, some st =>
      let hasY := sc.srcy != noSrc
      let tx := ph.headFor sc.srcx (2 * i.val)
      let ty := if hasY then ph.headFor sc.srcy (2 * i.val + 1) else none
      let mark (x y : Bool) (p : Phase) : Phase :=
        { p with strips := modAt p.strips i.val fun t => { t with lastX := t.lastX || x, lastY := t.lastY || y } }
      if !ph.stripMay cfg i.val then .next s
      else if let some f := s.core.badIn 6 (fun _ => true) then .next (s.phaseFault ph f (16 + i.val) 0)
      else if st.lastX || st.lastY then
        match st.lastX, st.lastY, tx, ty with
        | true, false, _, some t => .next (s.mapPhase fun p => mark false t.last (p.take cfg sc.srcy (2 * i.val + 1)))
        | false, true, some t, _ => .next (s.mapPhase fun p => mark t.last false (p.take cfg sc.srcx (2 * i.val)))
        | _, _, _, _ => .next s
      else match tx, (if hasY then ty else some { lanes := [], last := false }) with
        | some x, some y =>
          let r := stripRun { x := x.lanes, y := y.lanes, k := sc.k, table := cfg.table } sc.prog st.a st.buckets
          let last := x.last || y.last
          let emit := (!hasHold sc.prog || last) && !(cfg.consumers (8 + i.val)).isEmpty
          let tok : List Token := if emit then [{ lanes := r.1, last := last }] else []
          let run (p : Phase) : Phase :=
            { p with strips := modAt p.strips i.val fun t => { t with a := r.1, buckets := r.2, out := t.out ++ tok } }
          .next (s.mapPhase fun p =>
            let p1 := p.take cfg sc.srcx (2 * i.val)
            run (mark x.last y.last (if hasY then p1.take cfg sc.srcy (2 * i.val + 1) else p1)))
        | _, _ => .next s
    | _, _ => .next s

/-- What an output port writes of a token: elements with their values, and the port after it (R258). -/
def portWrites (b : Bind) (op : OutPort) (t : Token) : List (Nat × W32) × OutPort :=
  let valid : List (Nat × W32) := t.lanes.zipIdx.filterMap fun x => if x.1.ok then some (x.2, x.1.v) else none
  let put : List (Nat × W32) :=
    if b.compact then valid.zipIdx.map fun x => (op.written + x.2, x.1.2)
    else valid.map fun x => (op.tokens * stripLanes + x.1, x.2)
  let inside := put.filter fun x => decide (x.1 < b.opnd.count)
  (inside, { op with tokens := op.tokens + 1, written := op.written + inside.length,
                     overrun := op.overrun || decide (inside.length < put.length), done := t.last, sent := [],
                     due := portDue op.due (op.tokens + 1) t.last })
/-- An output port may take a token (R258, 20 R325). -/
def Core.outMay (c : Core) (cfg : FabCfg) (ph : Phase) (p : Nat) : Bool :=
  match ph.bind (8 + p), ph.outs[p]?, ph.headFor (cfg.outs.getD p 15 + 8) (100 + p) with
  | some _, some op, some _ => !op.done && c.fbOpen ph
  | _, _, _ => false
/-- OUTPUT_PORT_TOKEN: output port p takes a token and writes its valid lanes (R258, R261). -/
def execEvOutputPortToken (p : Fin 4) (s : State) : Out :=
  match s.runningPhase with
  | none => .next s
  | some (cfg, ph) =>
    match ph.bind (8 + p.val), ph.outs[p.val]?, ph.headFor (cfg.outs.getD p.val 15 + 8) (100 + p.val) with
    | some b, some op, some t =>
      let o := b.opnd
      let w := portWrites b op t
      let dev := (w.1.filter fun x => match o.spot s.cnum x.1 with | .phys _ _ => true | _ => false).length * 4
      let k := if b.compact then op.written else op.tokens * stripLanes
      if !s.core.outMay cfg ph p.val || !s.memOk dev then .next s
      else match s.core.portBegin op.due o s.cnum k with
      | some n => .next (s.mapPhase fun x => { x with outs := modAt x.outs p.val fun y => { y with due := some n } })
      | none =>
        if !op.due.all s.core.reached then .next s else
        let far : List (Nat × Nat × W32) := w.1.filterMap fun x => match o.spot s.cnum x.1 with
          | .far r off => some (r, off, x.2)
          | _ => none
        match far.find? fun x => !op.sent.contains x.1 with
        | some f =>
          let ps := (far.filter fun x => x.1 == f.1).map fun x => (x.2.1, leBytes 4 x.2.2.toNat)
          .next (s.askFab (8 + p.val) f.1 (4 * ps.length) (.write ps [])
            (fun _ s => s.mapPhase fun x => { x with outs := modAt x.outs p.val fun y => { y with sent := f.1 :: y.sent } })
            (fun s => s.phaseFault ph (fRefused o ((w.1.map Prod.fst).headD 0) .wr) (8 + p.val) (portSteps op.tokens)))
        | none =>
          let s1 := w.1.foldl (fun (u : State) (x : Nat × W32) => u.writeSpot .fb (o.spot u.cnum x.1) (leBytes 4 x.2.toNat)) (s.memDebit dev)
          .next (s1.wrote.mapPhase fun x =>
            { x.take cfg (cfg.outs.getD p.val 15 + 8) (100 + p.val) with outs := x.outs.set p.val w.2 }).noteDrain
    | _, _, _ => .next s

/-! ### The unit (R254, R256 to R260) -/

/-- Some part of the running phase may move (R259, R263). -/
def State.phaseMoves (s : State) : Bool :=
  match s.runningPhase with
  | none => false
  | some (c, p) =>
    ((List.range 8).any (s.core.feederMay c p)) || ((List.range 12).any (p.stripMay c)) || (List.range 4).any (s.core.outMay c p)
/-- The phase record (R259). -/
def recordWords (cfg : Option FabCfg) (outs : List OutPort) : List Nat :=
  (List.range 4).map fun p =>
    match outs[p]? with
    | some o => if (cfg.any fun c => c.outPorts.contains p) then o.written % 2 ^ 31 + (if o.overrun then 2 ^ 31 else 0) else 0
    | none => 0
/-- A fault of the word at the head of the unit's queue: it stays there until ERET or ERET.SKIP (09 R171, R254). -/
def State.unitFault (s : State) (q : FabCmd) (f : Flt) : State :=
  let info : TrapInfo :=
    { eng := .fab, cause := f.cause, reason := f.reason, awd := false, async := true, rulei := false, pc := q.place.pc,
      addr := BitVec.ofNat 64 f.addr, ruleid := 0, tsdone := 0, col := 0, row := 0, kstep := 0, slice := 0,
      aux := BitVec.ofNat 64 f.aux, word := q.place.word }
  (s.mapFab fun b => { b with queue := modAt b.queue 0 fun x => { x with stopped := true }, far := [] }).mapCore fun c =>
    { c with pend := c.pend ++ [{ info := info, held := .command .fab, inside := c.aside.isSome }] }
/-- The word at the head retires: its post takes effect (R254). -/
def State.unitDone (s : State) (q : FabCmd) : State :=
  (s.mapFab fun b => { b with queue := dropHead b.queue, far := [] }).mapCore fun c => c.postClause .fab q.post q.place

/-- The elements of an operand read whole, other modules asked first (R256). -/
def State.unitRead (s : State) (q : FabCmd) (o : Operand) (k : List Byte → State → State) : State :=
  let far := s.core.fabric.far
  let fs := (farPieces o s.cnum 0 o.count).filter fun x => !far.any fun y => y.1 == x.2.2
  let m := devBytes o s.cnum 0 o.count
  if !s.memOk m then s
  else match (List.range o.count).findSome? fun j => s.badSpot o j with
    | some f => s.unitFault q f
    | none =>
      match fs with
      | [] => k (s.gatherStep none o 0 o.count far) (s.memDebit m)
      | f :: _ =>
        let mine := fs.filter fun x => x.1 == f.1
        s.askFab 12 f.1 (4 * mine.length) (.read (mine.map fun x => (x.2.1, 4)))
          (fun bs s => s.mapFab fun b => { b with far := b.far ++ mine.zipIdx.map fun y => (y.1.2.2, (bs.drop (y.2 * 4)).take 4) })
          (fun s => s.unitFault q (fRefused o f.2.2 .rd))
/-- A phase record written, where the word asks for one (R259, R260). -/
def State.unitRecord (s : State) (q : FabCmd) (outs : List OutPort) (k : State → State) : State :=
  match q.opnd with
  | none => k s
  | some o =>
    let ws := recordWords s.core.fabric.cfg outs
    let bs := ws.flatMap fun w => leBytes 4 w
    let m := devBytes o s.cnum 0 4
    let fs := (farPieces o s.cnum 0 4).filter fun x => !s.core.fabric.far.any fun y => y.1 == x.2.2
    if !s.memOk m then s
    else match fs with
      | [] => k ((s.memDebit m).scatterStep .fb o 0 bs)
      | f :: _ =>
        let mine := fs.filter fun x => x.1 == f.1
        s.askFab 12 f.1 (4 * mine.length) (.write (mine.map fun x => (x.2.1, leBytes 4 (ws.getD x.2.2 0))) [])
          (fun _ s => s.mapFab fun b => { b with far := b.far ++ mine.map fun x => (x.2.2, []) })
          (fun s => s.unitFault q (fRefused o f.2.2 .wr))

/-- The word at the head of the unit's queue may run: FCFG and FGO when no phase does, FBAR at the drain (R254, R256 to R260). -/
def Fabric.headMay (f : Fabric) (q : FabCmd) : Bool :=
  let mine (p : Phase) : Bool := p.owner == .own && !p.stopped
  !q.stopped && match q.i with
    | .fcfg .. | .fgo .. => f.phase.isNone
    | .fbar .. | .fbarRec .. => f.phase.all fun p => mine p && f.cfg.any p.drained
    | .fstop .. | .fstopRec .. => !q.live || q.ending || f.phase.all mine
    | _ => true
/-- The word at the head of the unit's queue runs (R254, R256 to R260). FSTOP first stops the phase where it is. -/
def State.unitStep (s : State) (q : FabCmd) : State :=
  let f := s.core.fabric
  let finish (outs : List OutPort) (s : State) : State := s.unitRecord q outs fun s =>
    ((s.mapCore fun c => (c.fabric.phase.map c.endPhase).getD c).mapFab fun b => { b with endRec := none }).unitDone q
  match q.i with
  | .fcfg .. =>
    match q.opnd with
    | some o => s.unitRead q o fun bs s =>
        let ws := lanesOf bs
        match cfgFaults ws o.count with
        | x :: _ => s.unitFault q { cause := Cause.illop, aux := x.1 + fld x.2 16 }
        | [] => (s.mapFab fun b => { b with cfg := some (parseCfg ws) }).unitDone q
    | none => s
  | .fgo .. =>
    let s := s.mapFab fun b => { b with endRec := none }
    match s.startPhase q.binds q.sees q.place .own with
    | .error x => s.unitFault q x
    | .ok s1 => s1.unitDone q
  | .fbar .. | .fbarRec .. => finish ((f.phase.map Phase.outs).getD (f.endRec.getD [])) s
  | .fstop .. | .fstopRec .. =>
    if !q.live then s.unitDone q
    else match f.phase with
      | some p =>
        if q.ending then finish p.outs s
        else (s.mapPhase fun x => { x with stopped := true }).mapCore fun c =>
          (((c.closeFoot .fab p.order).dropReply .fab).mapFab fun b => { b with queue := modAt b.queue 0 fun x => { x with ending := true } })
      | none => finish (f.endRec.getD []) s
  | _ => s.unitDone q
/-- PHASE_DRAIN: the unit goes on. A rule's phase that has drained has finished its instance; the word at the head of the queue runs when
it may, FBAR at the drain (R254, R259). -/
def execEvPhaseDrain (s : State) : Out :=
  let f := s.core.fabric
  if s.core.halt != .run && !s.core.fabAsks 12 && f.far.isEmpty then .next s
  else
    match f.phase.bind (fun p => match p.owner with | .rule id => some (id, p) | _ => none), f.cfg with
    | some (id, p), some c => if p.drained c && !p.stopped then .next (s.mapCore fun c => c.finishInst id.val) else .next s
    | _, _ =>
      match f.queue with
      | [] => .next s
      | q :: _ => if f.headMay q then .next (s.unitStep q) else .next s
/-- The fabric of the core may go on by itself. -/
def State.fabricMoves (s : State) : Bool :=
  let f := s.core.fabric
  s.core.replies.get .fab != .none || s.phaseMoves ||
    match f.phase.bind (fun p => match p.owner with | .rule id => some (id, p) | _ => none), f.cfg with
    | some (id, p), some c => p.drained c && ((s.core.rules.getD id.val none).bind Rule.inst).any fun x => !x.finished
    | _, _ => f.queue.head?.any f.headMay

end Sys2Proof.Machine
end

