-- ==== Sys2Proof/Machine/Almanac.lean ====
section
/-!
DEFINITION. Open axes and the almanac of standing rules: the words, the issue of instances and their retirement (16 R266 to R281).
-/
namespace Sys2Proof.Machine

/-! ### Words over records (R271, R272) -/

/-- A RULE trap of the running word, with the almanac entry it names (R271, 25 R371). -/
def State.trapRule (s : State) (reason : Byte) (v id : Nat) : State :=
  s.trapWith { s.info Cause.rule with reason := reason, addr := BitVec.ofNat 64 v, ruleid := id }
/-- An id or OTID of op2: out of range from a register it raises RULE with reason 0x07 (R271). -/
def State.withId (s : State) (v : W64) (k : Nat → State → Out) : Out :=
  if 32 ≤ v.toNat then .next (s.trapRule 0x07 v.toNat 0) else k v.toNat s
/-- An open handle, read as CTL's own (R54, R90, R271). -/
def State.withOpen (s : State) (h : HReg) (k : W256 → State → Out) : Out :=
  let v := s.core.getH h
  if !(handleOk v [0, 1, 2] && hOpen v) then .next (s.trap fIllop)
  else if !handleAligned v then .next (s.trap { cause := Cause.align, addr := hBase v })
  else s.withGood 5 (· / 64 == 32 + hOtid v) fun s => k v s

/-- ROPEN (R272); a capacity of 0 is no ring (R54). -/
def execRopen (h : HReg) (s : State) : Out :=
  s.withOpen h fun v s =>
    let cap := hExt v (hOuter v)
    if cap = 0 then .next (s.trap fIllop)
    else if (s.core.orec (hOtid v)).st ≠ .free then .next (s.trapRule 0x02 0 0)
    else .next ((s.mapCore fun c => c.mapRec (hOtid v) fun _ => { OpenRec.reset with st := .opened, cap := cap }).complete 1)
/-- The operand is an immediate. -/
def isImm (o : Op2) : Bool :=
  match o with
  | .imm _ => true
  | .reg _ => false
/-- RSLICE: an immediate above the ring's capacity is ILLOP (R271); CTL's earlier accesses are released, then the slices complete at once (R267 to R269, R272). -/
def execRslice (h : HReg) (o : Op2) (s : State) : Out :=
  s.withRegs (op2Regs o) fun s =>
  s.withOpen h fun v s =>
    let k := (s.op2 o).toNat
    let id := hOtid v
    let r := s.core.orec id
    match s.core.checkOpen v false with
    | .error f => .next (s.trap f)
    | .ok _ =>
      if r.prod = .rule then .next (s.trapRule 0x04 0 0)
      else if k = 0 ∨ r.cap < k then .next (if isImm o then s.trap fIllop else s.trapRule 0x07 k 0)
      else if 2 ^ 32 - 1 < r.w + k then .next (s.trapRule 0x07 (r.w + k) 0)
      else s.withDrained fun s =>
        if !((List.range k).all fun j => s.core.mayWrite id (r.w + j)) then .next (s.waiting .internal)
        else .next ((s.mapCore fun c => (List.range k).foldl (fun d j => d.completeSlice id (r.w + j))
          (c.mapRec id fun x => { x with w := x.w + k, prod := .program })).complete 1)
/-- RCLOSE (R272). -/
def execRclose (h : HReg) (s : State) : Out :=
  s.withOpen h fun v s =>
    match s.core.checkOpen v false with
    | .error f => .next (s.trap f)
    | .ok _ => .next ((s.mapCore fun c => (c.mapRec (hOtid v) fun x => { x with st := .closed }).sweep).complete 1)

/-! ### The almanac (R273 to R275) -/

/-- The meaning of a VEC word that may be installed: operation words but VRMAXI, VRMINI and VPACK (R273). -/
def ruleVec (i : Instr) : Option VSem :=
  match i with
  | .vrmaxi .. | .vrmini .. | .vpack .. => none
  | i => vecSem i

/-- What a rule is made of, as INST finds it. -/
structure Plan where
  i : Instr
  word : W128
  follow : Option (Instr × At) := none
  /-- The trigger of VEC, MAT and copies; every handle checked; those read and those written as open. -/
  trig : W256 := 0
  handles : List W256 := []
  reads : List W256 := []
  writes : List W256 := []
  outH : Option W256 := none
  binds : List Bind := []

/-- A static slot as a source. -/
def staticSrc (v : VSrc) : Option Nat :=
  match v with
  | .t k => some k.val
  | _ => none
/-- VEC's operands as a rule may name them: VA and VD static slots, VB and VC static slots or broadcasts (R273). A word that reads nothing has
t0 in its unused VA field. -/
def vecRuleOk (v : VSem) (carry : Option Nat) : Bool :=
  match v.srcs, v.dst with
  | .t a :: rest, .t d =>
    (rest.all fun x => match x with
      | .t _ | .immLo | .immHi => true
      | _ => false) && carry.all fun k => k != a.val && k != d.val
  | [], .t d => carry.all fun k => k != 0 && k != d.val
  | _, _ => false
/-- A handle of a VEC rule (R273). -/
def vecRuleHandle (h : W256) : Bool := handleOk h [0, 1] && hOpen h && (hFmt h == 0 || hFmt h == 1)
/-- MMA's trigger in drawers: whole drawers, each slice at the start of one (R273). -/
def drawerTrigOk (h : W256) (ks : BitVec 12) : Bool :=
  hSlice h == (ks.toNat + 1) * 128 && (hExt h (hOuter h) == 1 || hStep h (hOuter h) % 8192 == 0)
/-- A copy rule's destination has an index of S elements for every slice (R273). -/
def copyRuleDst (s d : W256) : Bool := hSlice s == hSlice d && (hOpen d || hExt d (hOuter d) != 0 || hSlice s == 0)

/-- The MMA that an installed CPYF brings along: in the next slot, with no tail (R275). -/
def State.ruleFollow (s : State) : Option (Instr × At) :=
  match s.seq.fetch with
  | none => none
  | some (_, ws) =>
    let w := ws.getD (s.cur.slot + 2) 0
    if 1 < s.cur.slot then none
    else match decode w with
      | .ok (.mma c bk da db ks ecl clr rls tl) =>
        if tl.await.isSome || tl.post.isSome then none
        else some (.mma c bk da db ks ecl clr rls tl,
          { word := w, pc := s.cur.pc + 32, pos := s.cur.pos, slot := s.cur.slot + 2 })
      | _ => none
/-- The bindings that were pending where FAB passed the installed word (R273). -/
def State.ruleBinds (s : State) : List Bind :=
  ((s.core.fabric.instBinds.find? fun x => x.1 == s.cur.pos && x.2.1 == s.cur.slot + 1).map fun x => x.2.2).getD []

/-- The rule that INST's operands and the word after it describe, none where R273 or R275 is broken. -/
def State.plan (s : State) (ha hb : HReg) (out : Bool) (carry : Option (BitVec 6)) : Option Plan :=
  let w : W128 := (s.seq.fetch.map fun x => x.2.getD (s.cur.slot + 1) 0).getD 0
  let h (r : HReg) : W256 := s.core.getH r
  let plain := !out && carry.isNone && hb == 0
  let opens (l : List W256) : List W256 := l.filter hOpen
  let mat (i : Instr) (ho : Option HReg) (ok : Bool) : Option Plan :=
    let t := h ha
    let o := ho.map h
    if plain && handleOk t [0, 1, 2] && hOpen t && ok && o.all moutHandleOk then
      some { i := i, word := w, trig := t, handles := t :: o.toList, reads := [t], writes := opens o.toList,
             outH := o.filter hOpen }
    else none
  let copy (e : CopyEng) (i : Instr) (hs hd : HReg) (f : Option (Instr × At)) : Option Plan :=
    let x : CopyHs := { hs := some (h hs), hd := some (h hd), hc := (copyCnt i).map fun n => h n.hc }
    if plain && ha == 0 && copyLegal e i true x && hOpen (h hs) && copyRuleDst (h hs) (h hd) then
      some { i := i, word := w, follow := f, trig := h hs, handles := [h hs, h hd] ++ x.hc.toList, reads := [h hs],
             writes := opens [h hd], outH := [h hd].find? hOpen }
    else none
  if s.cur.slot = 3 then none
  else match decode w with
    | .error _ => none
    | .ok i =>
      match ruleVec i with
      | some v =>
        let t := h ha
        let o := if out then some (h hb) else none
        if (out || hb == 0) && vecRuleOk v (carry.map BitVec.toNat) && vecRuleHandle t && decide (hSlice t ≤ 1024) &&
            o.all (fun x => vecRuleHandle x && hSlice x == hSlice t) then
          some { i := i, word := w, trig := t, handles := t :: o.toList, reads := [t], writes := o.toList, outH := o }
        else none
      | none =>
        match i with
        | .mma _ _ _ _ ks _ _ _ _ => mat i none (hSpc (h ha) != 2 || drawerTrigOk (h ha) ks)
        | .moutTile .. | .mgate .. | .mscan .. => mat i none true
        | .moutHandle _ ho _ _ _ _ _ => mat i (some ho) true
        | .cpy e _ hs hd _ _ _ => copy e i hs hd none
        | .cpyf _ hs hd _ _ _ => match s.ruleFollow with
          | some f => copy .cld i hs hd (some f)
          | none => none
        | .cred _ hs hd _ _ _ _ _ => copy .cst i hs hd none
        | .fgo .. =>
          let bs := s.ruleBinds
          let ins := (bs.filter Bind.isInput).map fun b => b.opnd.h
          let outs := (bs.filter fun b => !b.isInput).map fun b => b.opnd.h
          if plain && ha == 0 && ins.any hOpen then
            some { i := i, word := w, handles := ins ++ outs, reads := opens ins, writes := opens outs, binds := bs }
          else none
        | _ => none

/-- A receive end of this core bound to a record (18 R305). -/
def Core.boundTo (c : Core) (o : Nat) : Bool := c.bindings.any fun b => hOtid b.opnd.h == o
/-- A record may be handed to a writing rule: no rule writes it, no program claim is incomplete, no receive end is bound (R268). -/
def State.mayHand (s : State) (o : Nat) : Bool :=
  let r := s.core.orec o
  r.prod != .rule && r.p + r.complete.length == r.w && !s.core.boundTo o
/-- The lowest free entry of the almanac. -/
def Core.freeEntry (c : Core) : Option Nat := (List.range 32).find? fun k => (c.rules.getD k none).isNone

/-- The checks of INST after the word itself: records, a free entry, start slice, outputs (R274). -/
def State.planCheck (s : State) (p : Plan) (n0 : Nat) : Judged Nat :=
  let c := s.core
  match p.handles.find? fun h => !handleAligned h with
  | some h => .error { cause := Cause.align, addr := hBase h }
  | none =>
    match (p.reads.map fun h => c.checkOpen h true) ++ (p.writes.map fun h => c.checkOpen h false) |>.findSome? fun x =>
        match x with | .error f => some f | .ok _ => none with
    | some f => .error f
    | none =>
      if 2 ^ 32 - 1 < n0 then .error (fRule 0x07 n0)
      else match c.freeEntry with
        | none => .error (fRule 0x01)
        | some e =>
          if p.reads.any fun h => let r := c.orec (hOtid h); decide (n0 + r.cap < r.w) then .error (fRule 0x05)
          else if p.writes.any fun h => !s.mayHand (hOtid h) || (c.orec (hOtid h)).w != n0 then .error (fRule 0x04)
          else .ok e

/-- INST installs the word after it (R273 to R275). A word of FAB's is judged once FAB has passed it. -/
def execInst (d : SReg) (ha hb : HReg) (o : Op2) (quiet : Bool) (post : Option FlagNo) (out : Bool) (carry : Option (BitVec 6))
    (s : State) : Out :=
  s.withRegs (d :: op2Regs o) fun s =>
    let n0 := (s.op2 o).toNat
    let w : W128 := (s.seq.fetch.map fun x => x.2.getD (s.cur.slot + 1) 0).getD 0
    let fgo : Bool := match decode w with | .ok (.fgo ..) => true | _ => false
    if fgo && s.cur.slot != 3 && !s.core.passed s.cur.pos (s.cur.slot + 1) .fab then .next (s.waiting .external)
    else match s.plan ha hb out carry with
      | none => .next (s.trap fIllop)
      | some p =>
        if isImm o && decide (2 ^ 32 ≤ n0) then .next (s.trap fIllop)
        else match s.planCheck p n0 with
          | .error f => .next (s.trap f)
          | .ok e =>
            let rec? (h : Option W256) : Option (Fin 32) := h.map fun x => Fin.ofNat 32 (hOtid x)
            let isFab := !p.binds.isEmpty
            let r : Rule :=
              { st := .active, seqNo := s.core.ruleSeq, next := n0, n0 := n0, last := none, i := p.i, word := p.word,
                follow := p.follow, place := s.cur, hs := s.core.h, trig := p.trig, outH := p.outH, binds := p.binds,
                nant := s.core.nant, quiet := quiet, post := post, carry := carry.map BitVec.toNat, cause := 0, tsdone := 0,
                inst := none, trigRec := if isFab then none else rec? (some p.trig), outRec := rec? p.outH, reached := n0,
                retired := n0 }
            let s1 := s.mapCore fun c =>
              let c1 := { c with rules := c.rules.set e (some r), ruleSeq := c.ruleSeq + 1 }
              let c2 := p.writes.foldl (fun d h => d.mapRec (hOtid h) fun x => { x with prod := .rule }) c1
              c2.mapFab fun f => { f with instBinds := f.instBinds.filter fun x => !(x.1 == s.cur.pos && x.2.1 == s.cur.slot + 1) }
            .next ((s1.putS d (BitVec.ofNat 64 e)).mapCore Core.sweep)

/-- A word that names an entry: a FREE one raises RULE 0x06 (R272). -/
def State.withRule (s : State) (v : W64) (k : Nat → Rule → State → Out) : Out :=
  s.withId v fun id s =>
    s.withGood 5 (· / 64 == id) fun s =>
    match s.core.rules.getD id none with
    | none => .next (s.trapRule 0x06 0 id)
    | some r => k id r s
/-- A rule changed. -/
def Core.mapRule (c : Core) (id : Nat) (f : Rule → Rule) : Core := { c with rules := modAt c.rules id fun r => r.map f }

/-- RVK: the last slice issued becomes the last; a rule that has issued none, or that is FAULTED, is freed at once (R272). -/
def execRvk (o : Op2) (s : State) : Out :=
  s.withRegs (op2Regs o) fun s => s.withRule (s.op2 o) fun id r s =>
    .next ((s.mapCore fun c =>
      (if r.st = .faulted then
        (r.writes.foldl (fun (d : Core) (o : Nat) => d.mapRec o fun x => { x with w := r.next }) c).freeRule id false
      else if r.reached = r.n0 then c.freeRule id false
      else c.mapRule id fun x => { x with last := some (x.reached - 1) }).sweep).complete 1)
/-- RVKAT (R272, 17 R284). -/
def execRvkat (a : SReg) (o : Op2) (s : State) : Out :=
  s.withRegs (a :: op2Regs o) fun s => s.withRule (s.getS a) fun id _ s =>
    let n := (s.op2 o).toNat
    .next ((s.mapCore fun c =>
      (c.mapRule id fun x => { x with last := some (if x.reached = x.n0 then n else max n (x.reached - 1)) }).sweep).complete 1)
/-- RRES: the faulted slice is ready again (R272, R279). -/
def execRres (o : Op2) (s : State) : Out :=
  s.withRegs (op2Regs o) fun s => s.withRule (s.op2 o) fun id r s =>
    if r.st ≠ .faulted then .next (s.trapRule 0x06 0 id)
    else .next ((s.mapCore fun c => (c.mapRule id fun x => { x with st := .active }).sweep).complete 1)

/-- The map of RQRY.RULE (R281). -/
def Rule.map (r : Option Rule) : Nat :=
  match r with
  | none => 0
  | some r =>
    let f := r.st == .faulted
    fld (if f then 2 else if r.last.isSome then 3 else 1) 61 + fld (r.word.extractLsb' 125 3).toNat 58 +
      fld (if f then r.cause.toNat else 0) 44 + fld (if f then min r.tsdone 4095 else 0) 32 + r.next % 2 ^ 32
/-- RQRY.RULE (R281). -/
def execRqryRule (d : SReg) (o : Op2) (s : State) : Out :=
  s.withRegs (d :: op2Regs o) fun s => s.withId (s.op2 o) fun id s => s.withGood 5 (· / 64 == id) fun s =>
    .next (s.putS d (BitVec.ofNat 64 (Rule.map (s.core.rules.getD id none))))
/-- RQRY.REC (R281). -/
def execRqryRec (d : SReg) (o : Op2) (s : State) : Out :=
  s.withRegs (d :: op2Regs o) fun s => s.withId (s.op2 o) fun id s => s.withGood 5 (· / 64 == 32 + id) fun s =>
    let r := s.core.orec id
    let st := match r.st with | .free => 0 | .opened => 1 | .closed => 2
    let pr := match r.prod with | .none => 0 | .program => 1 | .rule => 2
    .next (s.putS d (BitVec.ofNat 64 (fld st 62 + fld pr 48 + fld (r.cap % 65536) 32 + r.p % 2 ^ 32)))
/-- RQRY.CUR (R281). -/
def execRqryCur (d : SReg) (o : Op2) (s : State) : Out :=
  s.withRegs (d :: op2Regs o) fun s => s.withId (s.op2 o) fun id s => s.withGood 5 (· / 64 == 32 + id) fun s =>
    let r := s.core.orec id
    .next (s.putS d (BitVec.ofNat 64 (fld (r.rc % 2 ^ 32) 32 + r.w % 2 ^ 32)))

/-! ### Readiness (R276) -/

/-- The engine an installed word belongs to. -/
def ruleEng (i : Instr) : Eng :=
  match i with
  | .mma .. | .moutTile .. | .moutHandle .. | .mgate .. | .mscan .. => .mat
  | .cpy e .. => ofCopy e
  | .cpyf .. => .cld
  | .cred .. => .cst
  | .fgo .. => .fab
  | _ => .vec
/-- Its VEC or MAT part issues only while MODEX is 0 (R275, R276). -/
def Rule.needsInterlock (r : Rule) : Bool :=
  r.follow.isSome || ruleEng r.i == .vec || ruleEng r.i == .mat
/-- A rule's instance for its next slice is ready (R276); none issues while a MODE drains or after EXIT (04 R76, 17 R285). -/
def Core.ruleReady (c : Core) (id : Nat) (r : Rule) : Bool :=
  let n := r.next
  r.st == .active && !c.instOut id && r.last.all (fun l => decide (n ≤ l)) && !c.draining && c.halt == .run &&
    !c.seqs.ctl.ended &&
    (r.reads.all fun o => decide (n < (c.orec o).p)) &&
    (c.ruleList.all fun x => !(x.2.st == .active && x.2.seqNo < r.seqNo && x.2.covers n && (x.2.reads.any r.reads.contains)) ||
      decide (n < x.2.reached)) &&
    (r.writes.all fun o => c.mayWrite o n) &&
    (match awaitOf r.i with
      | some (f, k) => c.awaitReady (ruleEng r.i) f k
      | none => true) &&
    (!r.needsInterlock || !c.modex) && (ruleEng r.i != .fab || (c.fabric.phase.isNone && c.fabric.far.isEmpty && !c.fabAsks 12 && c.aside.all fun a => a.fabPhase.isNone))
/-- It is the ready one of its engine with the lowest sequence number (R277). -/
def Core.ruleFirst (c : Core) (id : Nat) (r : Rule) : Bool :=
  c.ruleReady id r && c.ruleList.all fun x =>
    !(x.2.seqNo < r.seqNo && ruleEng x.2.i == ruleEng r.i && c.ruleReady x.1 x.2)

/-! ### Issue (R277, R278) -/

/-- The await performed, the output slices claimed, the slice reached (R277). -/
def Core.beginInst (c : Core) (id : Nat) (r : Rule) : Core :=
  let c1 := match awaitOf r.i with
    | some (f, k) => c.takeFlag f k
    | none => c
  let c2 := r.writes.foldl (fun d o => d.mapRec o fun x => { x with w := max x.w (r.next + 1) }) c1
  c2.mapRule id fun x => { x with reached := max x.reached (r.next + 1) }
/-- An instance in flight. -/
def Inst.start (n : Nat) : Inst :=
  { slice := n, trig := none, out := none, staged := false, result := none, asking := false, far := [], sent := [], finished := false }
/-- The instance is in flight and next advances (R277). -/
def Core.putInst (c : Core) (id : Nat) (n : Inst) : Core :=
  c.mapRule id fun x => { x with next := n.slice + 1, inst := some n }
/-- The instance in flight changed. -/
def State.mapInst (s : State) (id : Nat) (f : Inst → Inst) : State :=
  s.mapCore fun c => c.mapRule id fun x => { x with inst := x.inst.map f }
/-- A fault of an instance that has done nothing (R279). -/
def State.instFault (s : State) (id : Nat) (r : Rule) (f : Flt) (row col : Nat) : State :=
  s.mapCore fun c => c.ruleFault id (ruleEng r.i) f 0 row col 0

/-- Operands translated together and put in place (R277, 09 R185, 07 R134). -/
def State.ruleOperands (s : State) (os : List (Operand × Want)) : Judged (List Operand) :=
  match s.translate os none [] with
  | .error f => .error f
  | .ok (pages, _) =>
    let one (x : (Operand × Want) × List PageTr) : Judged Operand :=
      (s.settle { x.1.1 with pages := x.2 } x.1.2).map Prod.fst
    (os.zip pages).foldr (fun x acc => match one x, acc with
      | .error f, _ => .error f
      | .ok _, .error f => .error f
      | .ok o, .ok l => .ok (o :: l)) (.ok [])

/-- Another rule's instance has an access of another module under way. -/
def Core.instAsks (c : Core) (id : Nat) : Bool := c.ruleList.any fun x => x.1 != id && x.2.inst.any Inst.asking
/-- An instance's access of another module: one at a time, through VEC's port. -/
def State.askInst (s : State) (id : Nat) (r : Rule) (rank n : Nat) (k : LinkKind) (f : Flt) (done : List Byte → State → State) : State :=
  if s.core.instAsks id then s
  else
    s.askEngine .vec rank n k
      (fun bs _ s => done bs (s.mapInst id fun x => { x with asking := false }))
      (fun s => s.instFault id r f 0 0)
      (fun s => s.mapInst id fun x => { x with asking := (match s.core.replies.get .vec with | .none => false | _ => true) })

/-- VEC may run a rule's word now: its sequencer is between words, and its slots hold no result on its way (R81, R82, R277). -/
def State.vecFree (s : State) (r : Rule) (v : VSem) : Bool :=
  s.core.isDue (s.core.seqs.get .vec) && decide (s.core.inFlight .vec < 24) && !s.slotHazard v &&
    r.carry.all fun k => !s.runBusy (slotKey s.cnum k) 4096
/-- The slot of a rule's VA. -/
def VSem.stage (v : VSem) : Nat := (v.srcs.head?.bind staticSrc).getD 0
/-- The trigger slice staged in VA and the word run (R278). -/
def State.vecRun (s : State) (id : Nat) (r : Rule) (v : VSem) (o : Operand) (far : List (Nat × List Byte)) : State :=
  let m := devBytes o s.cnum 0 o.count
  if !s.vecFree r v || !s.memOk m then s
  else match (List.range o.count).findSome? fun j => s.badSpot o j with
    | some f => s.instFault id r f 0 0
    | none =>
      let ls := lanesOf (s.gatherStep none o 0 o.count far)
      let s1 := (s.memDebit m).writeSpad (slotKey s.cnum v.stage) (bytesOf (ls ++ List.replicate (laneCount - ls.length) 0))
      match s1.badSrc v, s1.readSrcs v.imm v.srcs s1.core.queues with
      | some f, _ => s1.instFault id r f 0 0
      | none, none => s
      | none, some (ts, _) =>
        let x := v.run ts
        match x.bad, (if r.nant then x.nan else none) with
        | some j, _ => s1.instFault id r { cause := Cause.fmtbad, addr := j } 0 0
        | none, some l => s1.instFault id r { cause := Cause.nantrap, aux := v.dst.code.toNat } (l / 64) (l % 64)
        | none, none =>
          let effs := x.effs s1.cnum (s1.core.seqs.get .vec) v.dst
          let f : Flight := { s1.flight (s1.core.latency v.cls s1.tick) effs (.rule (Fin.ofNat 32 id)) with eng := .vec, place := r.place }
          let s2 := s1.mapCore fun c =>
            { c.issue f with legacycnt := if v.legacy then c.legacycnt + 1 else c.legacycnt }
          (s2.mapSeq .vec fun q => { q with due := s2.core.vcyc.toNat + 2 }).mapInst id fun y =>
            { y with staged := true, result := some x.tile }
/-- A VEC instance goes on: elements of other modules are asked for, then the word runs (R278). -/
def State.vecStage (s : State) (id : Nat) (r : Rule) (n : Inst) : State :=
  match ruleVec r.i, n.trig with
  | some v, some o =>
    let fs := (farPieces o s.cnum 0 o.count).filter fun x => !n.far.any fun y => y.1 == x.2.2
    match fs with
    | [] => s.vecRun id r v o n.far
    | f :: _ =>
      let mine := fs.filter fun x => x.1 == f.1
      s.askInst id r f.1 (4 * mine.length) (.read (mine.map fun x => (x.2.1, 4))) (fRefused o f.2.2 .rd) fun bs s =>
        s.mapInst id fun x =>
          let got := mine.zipIdx.map fun y => (y.1.2.2, (bs.drop (y.2 * 4)).take 4)
          { x with far := x.far ++ got }
  | _, _ => s
/-- A VEC instance issued (R277). -/
def State.vecInst (s : State) (id : Nat) (r : Rule) : State :=
  match ruleVec r.i with
  | none => s
  | some v =>
    if !s.vecFree r v then s
    else
      let s0 := s.mapCore fun c => c.beginInst id r
      let os := (patternOf r.trig (some r.next), Want.rd) :: (r.outH.map fun h => (patternOf h (some r.next), Want.wr)).toList
      match s0.ruleOperands os with
      | .error f => s0.instFault id r f 0 0
      | .ok l =>
        let n : Inst := { Inst.start r.next with trig := l[0]?, out := l[1]? }
        (s0.mapCore fun c => c.putInst id n).vecStage id r n

/-- The banks and carries a MAT rule's word touches (R81). -/
def ruleBanks (i : Instr) : List BankNo × List BankNo :=
  match i with
  | .mma _ bk .. | .moutTile bk .. | .moutHandle bk .. => ([bk], [])
  | .mgate bs bd .. => ([bs, bd], [])
  | .mscan bk _ bc .. => ([bk], [bc])
  | _ => ([], [])
/-- The queue an epilogue word pops (R229). -/
def ruleQueue (i : Instr) : Option QNo :=
  match i with
  | .moutTile _ _ _ _ b sc _ _ | .moutHandle _ _ _ _ b sc _ => if b || sc then some 6 else none
  | .mgate _ _ _ _ _ b _ => if b then some 6 else none
  | .mscan _ _ _ _ rs _ => if rs then some 7 else none
  | _ => none
/-- The array may take a MAT rule's instance: between commands, with no hazard, its tile there (R81, R237, R276). -/
def State.matFree (s : State) (r : Rule) : Bool :=
  let c := s.core
  let b := ruleBanks r.i
  decide (c.inFlight .mat < 7) && !c.arrayLent && !c.arrayBusy &&
    !(b.1.any c.bankBusy) && !(b.2.any c.carryBusy) && (ruleQueue r.i).all (fun q => !(c.queue q).isEmpty) &&
    (match r.i with
      | .moutTile _ t4 .. => !s.runBusy (slotKey s.cnum (4 * t4.val)) (4 * 4096)
      | _ => true)
/-- The word of an MMA rule for slice n: DA follows a trigger in drawers (R273). -/
def ruleMma (r : Rule) (n : Nat) : Instr :=
  match r.i with
  | .mma c bk da db ks ecl clr rls tl =>
    .mma c bk (if hSpc r.trig = 2 then BitVec.ofNat 5 (drawerOf r.trig (sliceOff r.trig n 0).toNat) else da) db ks ecl clr rls tl
  | i => i
/-- The destination of a MOUT rule for slice n. -/
def ruleMoutOperand (r : Rule) (n : Nat) : Option Operand :=
  match r.i with
  | .moutHandle _ ho _ _ _ _ _ =>
    let h := r.hs.getD ho.toNat 0
    some { h := h, pages := [], tags := [], ring := hOpen h, slice := n, count := bankLanes }
  | _ => none
/-- A bad granule that a MAT rule's word reads at issue (25 R385). -/
def Core.ruleBad (c : Core) (i : Instr) : Option Flt :=
  let b := ruleBanks i
  match i with
  | .mma .. => none
  | _ =>
    match c.badIn 3 fun x => (b.1.take 1).any (fun k => x / bankLanes == k.toNat) ||
        b.2.any fun k => x / 32 == 4 * bankLanes / 32 + k.toNat with
    | some f => some f
    | none => (ruleQueue i).bind fun q => c.badIn 1 (· == q.toNat)
/-- A MAT instance issued: its work is staged until it retires (R277, R278). -/
def State.matInst (s : State) (id : Nat) (r : Rule) : State :=
  if !s.matFree r then s
  else
    let s0 := s.mapCore fun c => c.beginInst id r
    let i := ruleMma r r.next
    let owner : Owner := .rule (Fin.ofNat 32 id)
    let fail (f : Flt) : State := s0.instFault id r f 0 0
    let opnd : Judged (Option Operand) := match ruleMoutOperand r r.next with
      | none => .ok none
      | some o => (s0.core.matDest o).map some
    match s0.core.unclaimed (mmaDrawers i), opnd, s0.core.ruleBad i with
    | some f, _, _ | none, .error f, _ | none, .ok _, some f => fail f
    | none, .ok o, none =>
      let writes : List Nat := match i, o with
        | .moutTile _ t4 .., _ => granules (slotKey s.cnum (4 * t4.val)) (4 * 4096)
        | _, some x => ((x.granules s.cnum).map Prod.fst).dedup
        | _, none => []
      match s0.openFoot { eng := .mat, order := s0.core.nextId, copy := none, reads := mmaGranules s.cnum i,
                          writes := writes.map fun g => (g, 0) } with
      | .error f => fail f
      | .ok s1 =>
        let c := s1.core
        let b := ruleBanks i
        let m0 := MatCmd.start i r.place owner r.nant false
        let m : MatCmd := match i with
          | .mma .. => m0
          | _ => { m0 with src := (b.1.head?.map c.bank).getD [], carry := (b.2.head?.map c.carry).getD [],
                           tile := (ruleQueue i).bind fun q => (c.queue q).head?, opnd := o }
        let f := matFlight m none (rlsDrawers i) ((o.map fun x => x.tags.map Prod.snd).getD [])
        s1.mapCore fun c =>
          let c1 := match ruleQueue i with
            | some q => c.setQueue q (dropHead (c.queue q))
            | none => c
          (c1.issue f).putInst id (Inst.start r.next)

/-- The word of a CRED rule for slice n: its number in the group (R278). -/
def ruleCopy (r : Rule) (n : Nat) : Instr :=
  match r.i with
  | .cred int hs hd cnt sq grp ch tl => .cred int hs hd cnt (sq + BitVec.ofNat 16 (n - r.n0)) grp ch tl
  | i => i
/-- The handle registers of a copy word. -/
def copyRegs (i : Instr) : Option HReg × Option HReg :=
  match i with
  | .cpy _ _ hs hd _ _ _ | .cpyf _ hs hd _ _ _ | .cred _ hs hd _ _ _ _ _ | .ctier _ _ hs hd _ _ _ => (some hs, some hd)
  | .cfil _ _ hd _ _ _ _ => (none, some hd)
  | _ => (none, none)
/-- A copy instance enters its engine's queue, after every command that entered before it; a full queue waits (R277, 09 R187; log 82). -/
def State.copyInst (s : State) (e : CopyEng) (id : Nat) (r : Rule) : State :=
  if 8 ≤ (s.core.copies e).length then s
  else
    let s0 := s.mapCore fun c => c.beginInst id r
    let i := ruleCopy r r.next
    let h (x : HReg) : W256 := r.hs.getD x.toNat 0
    let regs := copyRegs i
    let x : CopyHs := { hs := regs.1.map h, hd := regs.2.map h, hc := (copyCnt i).map fun n => h n.hc }
    match s0.resolveCopy e { CopyCmd.start i r.place (.rule (Fin.ofNat 32 id)) none with follow := r.follow } x (some r.next) with
    | .error f => s0.instFault id r f 0 0
    | .ok (c, q) =>
      { s0 with core := (c.enqueue e q).putInst id (Inst.start r.next) }

/-- A FAB instance: one phase over slice n (R278, 15 R257). -/
def State.fabInst (s : State) (id : Nat) (r : Rule) : State :=
  let s0 := s.mapCore fun c => c.beginInst id r
  let os := r.binds.map fun b =>
    (if hOpen b.opnd.h then patternOf b.opnd.h (some r.next) else { b.opnd with pages := [], tags := [] },
      if b.isInput then Want.rd else Want.wr)
  match s0.ruleOperands os with
  | .error f => s0.instFault id r f 0 0
  | .ok l =>
    let bs := (r.binds.zip l).map fun x => { x.1 with opnd := x.2 }
    match s0.startPhase bs 0 r.place (.rule (Fin.ofNat 32 id)) with
    | .error f => s0.instFault id r f 0 0
    | .ok s1 => s1.mapCore fun c => c.putInst id (Inst.start r.next)

/-- Damage in what the almanac reads to issue an instance: the rule's entry, the records it names (25 R385). -/
def Core.ruleDamage (c : Core) (id : Nat) (r : Rule) : Option Flt :=
  c.badIn 5 fun a => a / 64 == id || (r.reads ++ r.writes).any fun o => a / 64 == 32 + o
/-- RULE_INSTANCE_ISSUE: the almanac issues a ready instance into its engine, ahead of the engine's own next word; a VEC instance that
waits for other modules goes on (R276 to R278). -/
def execEvRuleInstanceIssue (id : Fin 32) (s : State) : Out :=
  match s.core.rules.getD id.val none with
  | none => .next s
  | some r =>
    match r.inst with
    | some n => if ruleEng r.i == .vec && !n.staged && s.core.halt == .run then .next (s.vecStage id.val r n) else .next s
    | none =>
      if !s.core.ruleFirst id.val r then .next s
      else if let some f := s.core.ruleDamage id.val r then .next ((s.mapCore fun c => c.beginInst id.val r).instFault id.val r f 0 0)
      else match ruleEng r.i with
        | .vec => .next (s.vecInst id.val r)
        | .mat => .next (s.matInst id.val r)
        | .cld => .next (s.copyInst .cld id.val r)
        | .cst => .next (s.copyInst .cst id.val r)
        | .fab => .next (s.fabInst id.val r)
        | .ctl | .acc => .next s

/-- The almanac would issue an instance of a rule now, or find its fault. -/
def State.ruleIssues (s : State) (id : Fin 32) : Bool :=
  match s.core.rules.getD id.val none with
  | none => false
  | some r => s.core.ruleFirst id.val r && (match execEvRuleInstanceIssue id s with
    | .next t => t.core.rules.getD id.val none != some r
    | _ => false)
/-- What goes ahead of an engine's own next word: a ready instance (R277), in MAT a ready follow-on (09 R181). -/
def State.lentFirst (s : State) (e : Eng) : Bool :=
  (e == .mat && s.followReady) || s.core.ruleList.any fun r => ruleEng r.2.i == e && s.ruleIssues (Fin.ofNat 32 r.1)

/-! ### Retirement (R277 to R279) -/

/-- The post-on-completion of an installed word. -/
def rulePost (i : Instr) : Option TailClause :=
  match i with
  | .mma _ _ _ _ _ _ _ _ t | .moutTile _ _ _ _ _ _ _ t | .moutHandle _ _ _ _ _ _ t | .mgate _ _ _ _ _ _ t | .mscan _ _ _ _ _ t
  | .cpy _ _ _ _ _ _ t | .cpyf _ _ _ _ _ t | .cred _ _ _ _ _ _ _ t | .fgo _ t => t.post
  | _ => none
/-- What an instance posts at its retirement. -/
def Rule.posts (r : Rule) : List (FlagNo × Nat) :=
  (r.post.map fun f => (f, 1)).toList ++ ((rulePost r.i).map fun t => (t.f, tailCount t.n)).toList
/-- The posts of an instance judged together: the flag that would overflow (R277). -/
def Core.postsOver (c : Core) (r : Rule) : Option Flt :=
  (r.posts.findSome? fun x =>
    let n := (r.posts.filter fun y => y.1 == x.1).foldl (fun a y => a + y.2) 0
    if c.postFits x.1 n then none else some { cause := Cause.flagovf, aux := flagAux x.1 (c.flag x.1) n })
/-- An instance has committed: its output slices complete, its posts take effect, it holds its trigger slice no longer; after EXIT the
rule is freed with it (R27, R277, R280). -/
def Core.endInst (c : Core) (id : Nat) (r : Rule) (n : Nat) : Core :=
  let c1 := c.mapRule id fun x => { x with inst := none, retired := n + 1 }
  let c2 := r.writes.foldl (fun d o => d.completeSlice o n) c1
  let c3 := r.posts.foldl (fun d x => d.addFlag x.1 x.2) c2
  (if c3.seqs.ctl.ended then c3.freeRule id false else c3).sweep

/-- A VEC instance's commit: its output slice, elements of other modules first, then its carried slot (R278). -/
def State.vecCommit (s : State) (id : Nat) (r : Rule) (n : Inst) (t : Tile) : State :=
  let ls := t.take (hSlice r.trig)
  let carry (s : State) : State := match r.carry with
    | some k => s.writeSpad (slotKey s.cnum k) (bytesOf (ls ++ List.replicate (laneCount - ls.length) 0))
    | none => s
  let fin (s : State) : State := (carry s).mapCore fun c => c.endInst id r n.slice
  match n.out with
  | none => fin s
  | some o =>
    let m := devBytes o s.cnum 0 o.count
    match (farPieces o s.cnum 0 o.count).filter fun x => !n.sent.contains x.1 with
    | [] => if s.memOk m then fin ((s.memDebit m).scatterStep .mx o 0 (bytesOf ls)) else s
    | f :: fs =>
      let ps := ((f :: fs).filter fun x => x.1 == f.1).map fun x => (x.2.1, leBytes 4 (laneAt t x.2.2).toNat)
      s.askInst id r f.1 (4 * ps.length) (.write ps []) (fRefused o f.2.2 .wr) fun _ s =>
        s.mapInst id fun x => { x with sent := f.1 :: x.sent }

/-- A MAT result of a rule that has done all its work. -/
def Core.ruleFlight (c : Core) (id : Nat) : Option Flight :=
  c.flights.find? fun f => f.owner.isRule id && f.eng == .mat && f.rem == 0 && f.finished
/-- The staged work of a rule's MAT result commits (R278). -/
def State.matCommit (s : State) (f : Flight) : State :=
  let s1 := s.mapCore fun c => { c with flights := c.flights.filter fun g => g.id != f.id }.closeFoot f.eng f.id
  ((f.effs.foldl (State.applyEff (some .mx)) s1).wrote).mapCore fun c => c.releaseDrawers f.rls
/-- A copy instance's commit, its follow-on's bank with it (R275, R277). -/
def State.copyCommit (s : State) (e : CopyEng) (id : Nat) (r : Rule) (n : Inst) : State :=
  match s.core.copies e with
  | [] => s
  | q :: _ =>
    if !(q.owner.isRule id && q.moved) then s
    else match q.follow.isSome, s.core.ruleFlight id with
      | true, none => s
      | _, f => s.bumpCounter e q fun s =>
          let s1 := match f with | some x => s.matCommit x | none => s
          let s2 := match q.i with | .cred int _ _ _ sq grp _ _ => s1.passGroup q int grp.toNat sq | _ => s1
          s2.mapCore fun c => (c.leaveCopies e q).endInst id r n.slice

/-- RULE_INSTANCE_RETIRE: an instance whose engine has done its work commits, unless a post of it would overflow (R277, R278). -/
def execEvRuleInstanceRetire (id : Fin 32) (s : State) : Out :=
  match s.core.rules.getD id.val none with
  | none => .next s
  | some r =>
    match r.inst with
    | none => .next s
    | some n =>
      let ready : Bool := match ruleEng r.i with
        | .vec => n.staged && n.finished
        | .mat => (s.core.ruleFlight id.val).isSome
        | .cld => (s.core.cld.head?.any fun q => q.owner.isRule id.val && q.moved && s.core.reached q.due) && (r.follow.isNone || (s.core.ruleFlight id.val).isSome)
        | .cst => s.core.cst.head?.any fun q => q.owner.isRule id.val && q.moved && s.core.reached q.due
        | _ => n.finished
      if !ready || s.core.halt == .stopped then .next s
      else match s.core.postsOver r with
        | some f => .next (s.mapCore fun c => c.ruleFault id.val (ruleEng r.i) f (match ruleEng r.i with
            | .cld => (c.cld.head?.map CopyCmd.steps).getD 0
            | .cst => (c.cst.head?.map CopyCmd.steps).getD 0
            | .mat => ((c.ruleFlight id.val).bind fun f => f.work.map MatCmd.tiles).getD 0
            | .fab => (c.fabric.phase.map Phase.tileSteps).getD 0
            | _ => 1) 0 0 0)
        | none =>
          match ruleEng r.i with
          | .vec => .next (match n.result with | some t => s.vecCommit id.val r n t | none => s)
          | .mat => .next (match s.core.ruleFlight id.val with
              | some f => (s.matCommit f).mapCore fun c => c.endInst id.val r n.slice
              | none => s)
          | .cld => .next (s.copyCommit .cld id.val r n)
          | .cst => .next (s.copyCommit .cst id.val r n)
          | _ => .next (match s.core.fabric.phase with
              | some p => s.mapCore fun c => (c.endPhase p).endInst id.val r n.slice
              | none => s)

end Sys2Proof.Machine
end

