-- ==== Sys2Proof/Machine/Stream.lean ====
section
/-!
DEFINITION. Streams: end handles, the words, items, moves and waypoints, loss, bindings and the census (18 R287 to R307, 19 R309 to
R311; 03 R55).
-/
namespace Sys2Proof.Machine

/-! ### Entries -/

/-- The entry of a stream. -/
def Home.isOf (h : Home) (sid : W32) (rank : Nat) : Bool := h.sid == sid && h.hrank == rank
/-- The entry of a stream found. -/
def State.home? (s : State) (sid : W32) (rank : Nat) : Option Home := s.dev.homes.find? fun h => h.isOf sid rank
/-- The entry of a stream changed. -/
def State.mapHome (s : State) (h : Home) (f : Home → Home) : State :=
  s.mapDev fun d => { d with homes := d.homes.map fun x => if x.isOf h.sid h.hrank then f x else x }
/-- Where an end is. -/
def Home.loc (h : Home) (recv : Bool) : EndLoc := if recv then h.locR else h.locS
/-- An end placed. -/
def Home.setLoc (h : Home) (recv : Bool) (l : EndLoc) : Home := if recv then { h with locR := l } else { h with locS := l }
/-- An end counts as live for a task (R287, R309). -/
def EndLoc.heldBy (l : EndLoc) (ctx : W16) (core : Nat) : Bool :=
  match l with
  | .here c k | .unplaced c k => c == ctx && k == core
  | _ => false
/-- An end is on this module. -/
def EndLoc.isHere (l : EndLoc) : Bool :=
  match l with
  | .here _ _ | .unplaced _ _ => true
  | _ => false
/-- The rank of the module an end is on, when that is another. -/
def EndLoc.rank? (l : EndLoc) : Option Nat :=
  match l with
  | .away r => some r
  | _ => none
/-- The running task's context and rank. -/
def State.taskCtx (s : State) : W16 := (s.core.task.map Task.ctx).getD 0
/-- This module's rank in the running task's launch. -/
def State.ownRank (s : State) : Nat := (s.core.task.map Task.rank).getD 0
/-- Live ends of the running task (R294, R308). -/
def State.liveEnds (s : State) : Nat :=
  s.dev.homes.foldl (fun n h =>
    n + (h.locS.heldBy s.taskCtx s.cnum).toNat + (h.locR.heldBy s.taskCtx s.cnum).toNat) 0
/-- A waypoint of an end remains (R298, R300). -/
def Home.way (h : Home) (recv : Bool) : Bool := if recv then h.wayR.isSome || h.farR.isSome else h.wayS.isSome || h.farS.isSome
/-- An entry is of no more use (R289): at the home, no end live or in transit, no waypoint, no item in flight (every item sent has reached the
receive end or been discarded); elsewhere, nothing of the stream is here. -/
def Home.spent (h : Home) : Bool :=
  h.flight.isEmpty && h.returns.isEmpty && h.wayR.isNone && h.wayS.isNone &&
    if h.mine then h.locS == .gone && h.locR == .gone && h.farR.isNone && h.farS.isNone && h.got.all fun n => h.final.all (· == n)
    else !h.locS.isHere && !h.locR.isHere
/-- Entries of no more use freed (R289). -/
def State.freeHomes (s : State) : State := s.mapDev fun d => { d with homes := d.homes.filter fun h => !h.spent }

/-! ### Messages among the home, the ends and the waypoints -/

/-- A message of a stream between modules, each named by its rank. -/
structure Note where
  sid : W32
  home : Nat
  launch : List Byte
  tenant : BitVec 5
  core : Nat
  own : Nat
  src : Nat
  dst : Nat
  m : StreamMsg
deriving DecidableEq, Repr

/-- A message of this module. -/
def Home.note (h : Home) (dst : Nat) (m : StreamMsg) : Note :=
  { sid := h.sid, home := h.hrank, launch := h.launch, tenant := h.tenant, core := h.hcore, own := h.own, src := h.own, dst := dst, m := m }
/-- To the home. -/
def Home.toHome (h : Home) (m : StreamMsg) : Note := h.note h.hrank m
/-- To the module of the send end, of the receive end, of a waypoint of each, where that is another. -/
def Home.toS (h : Home) (m : StreamMsg) : List Note := (h.locS.rank?.map fun r => h.note r m).toList
/-- To the receive end's module. -/
def Home.toR (h : Home) (m : StreamMsg) : List Note := (h.locR.rank?.map fun r => h.note r m).toList
/-- To the module of the receive end's waypoint. -/
def Home.toWayR (h : Home) (m : StreamMsg) : List Note := (h.farR.map fun r => h.note r m).toList
/-- To the module of the send end's waypoint. -/
def Home.toWayS (h : Home) (m : StreamMsg) : List Note := (h.farS.map fun r => h.note r m).toList
/-- The rank of the module an end is on, as this module knows it. -/
def Home.rankOf (h : Home) (recv : Bool) : Nat := ((h.loc recv).rank?).getD h.own
/-- The message by which the home of a carried end learns that it is destroyed with its item (R301). -/
def Home.lostNote (h : Home) (c : Carried) : Note :=
  let r := endRecv' c.v
  { h.note (c.v.extractLsb' 64 8).toNat (.lost r (if r then c.head else c.next)) with sid := c.v.setWidth 32, home := (c.v.extractLsb' 64 8).toNat }
where
  /-- END of a handle (R55). -/
  endRecv' (v : W256) : Bool := v.getLsbD 32
/-- Items discarded: every end carried in them is destroyed (R301). -/
def Home.discard (h : Home) (is : List Item) : List Note := is.filterMap fun i => i.carried.map h.lostNote

/-- The send end's final number recorded at its close or loss (R311); a state is not taken back. -/
def Home.ends (h : Home) (n : W32) (st : BitVec 2) : Home := { h with st := if st = 2 ∨ h.st = 0 then st else h.st, final := some (h.final.getD n) }
/-- No move of an end is under way or asked for. -/
def Home.unmoved (h : Home) (recv : Bool) : Home :=
  { h with asks := h.asks.filter fun x => x.1 != recv, grant := if h.grant = some recv then none else h.grant,
           moving := if h.moving = some recv then none else h.moving }
/-- The home answers a notice in place of a send end that is gone (R304, R311). -/
def Home.answerNotice (h : Home) (n : W32) : Home × List Note :=
  if h.pending then ({ h with pending := false, notice := none, sstar := some n }, h.toWayR (.reply n)) else (h, [])
/-- What a census finds at the sender: expect ≠ D pauses the stream (R306). -/
def Home.census (h : Home) (n : Nat) (q : W32) : Home :=
  if !h.calm then h
  else if h.free + (h.next - (q + 1)).toNat + n = h.depth then { h with report := none }
  else { h with paused := true, report := some (n, q), back := 0 }
/-- An end registers at a module (R299): the move is over. The home tells the receiver and the old location where a send end is (R303), the
send end and the old location where a receive end is (R304), and the new location what it has missed. -/
def Home.registers (h : Home) (recv : Bool) (src : Nat) : Home × List Note :=
  let far (ms : List StreamMsg) : List Note := if src = h.own then [] else ms.map (h.note src)
  let h1 := { (if src = h.own then h else h.setLoc recv (.away src)) with moving := none }
  if recv then
    if h.locS = .gone then
      let n := h.final.getD h.next
      ({ h1 with sstar := some n }, h.toWayR (.located true src) ++ h.toWayR (.reply n) ++ far [if h.st = 1 then .closed n else .lost false n])
    else
      ({ h1 with pending := true, notice := if h.locS.isHere then some src else none },
        h.toWayR (.located true src) ++ h.toS (.located true src))
  else
    let news : List StreamMsg :=
      (if h.pending then [.located true (h.rankOf true)] else []) ++ (if h.way true then [] else [.retired true]) ++
        (if h.locR = .gone then [.lost true 0] else [])
    let h2 := { h1 with notice := if h.pending && src == h.own then some (h.rankOf true) else none,
                        sstar := if h.way true then h1.sstar else none }
    if h.locR = .gone then ({ h2 with wayS := none, farS := none }, h.toWayS (.retired false) ++ far news)
    else ({ h2 with told := if h.locR.isHere then some src else none }, h.toR (.located false src) ++ h.toWayS (.located false src) ++ far news)

/-- A message taken by this module: the entry after it, and the messages it gives rise to. -/
def Home.take (h : Home) (src : Nat) (m : StreamMsg) : Home × List Note :=
  match m with
  | .item q bs c rel => ({ h with flight := h.flight ++ [(q, { bytes := bs, carried := c, rel := rel, due := 0 })] }, [])
  | .slots n =>
    (if h.locS.isHere then { h with free := h.free + n, back := h.back + n } else { h with returns := h.returns ++ [m] }, [])
  | .last => (if h.locS.isHere then { h with calm := true } else { h with returns := h.returns ++ [m] }, [])
  | .report n q => (if h.locS.isHere then h.census n q else { h with returns := h.returns ++ [m] }, [])
  | .closed n =>
    let h1 := h.ends n 1
    if !h.mine then (h1, [])
    else
      let r := ({ h1 with locS := .gone }.unmoved false).answerNotice n
      (r.1, h.toR m ++ r.2)
  | .lost true n =>
    let h1 := { h with st := 2, flight := h.flight ++ (h.wayR.map Waypoint.items).getD [], wayR := none, notice := none, sstar := none }
    if !h.mine then ({ h1 with locR := if h.locR.isHere then h.locR else .away h.hrank }, [])
    else
      ({ (h1.unmoved true) with locR := .gone, farR := none, wayS := none, farS := none, got := some n, bound := false, pending := false, told := none },
        h.toS m ++ h.toWayR m ++ h.toWayS (.retired false))
  | .lost false n =>
    let h1 := h.ends n 2
    if !h.mine then (h1, [])
    else
      let r := ({ h1 with locS := .gone }.unmoved false).answerNotice (h.final.getD n)
      (r.1, h.toR (.lost false (h.final.getD n)) ++ r.2)
  | .departed e gen auth =>
    let h1 := { (if e then { h with genR := gen, authR := auth, farR := some src } else { h with genS := gen, authS := auth, farS := some src })
      with grant := none, moving := some e, asks := h.asks.filter fun x => x.1 != e }
    (h1.setLoc e .transit, [])
  | .registered e => h.registers e src
  | .learned => ({ h with wayS := none, farS := none }, h.toWayS (.retired false))
  | .reply n => ({ h with pending := false, sstar := if h.wayR.isSome then some n else h.sstar }, if h.mine then h.toWayR m else [])
  | .forwarded =>
    if h.way true then ({ h with wayR := none, farR := none, sstar := none }, h.toWayR (.retired true) ++ h.toS (.retired true) ++ h.toR (.retired true))
    else (h, [])
  | .unmove e => (if h.grant = some e then h.unmoved e else h, [])
  | .repaired => ({ h with repair := h.repair + 1 }, [])
  | .located true r =>
    ({ h with locR := if h.wayR.isSome && !h.locR.isHere then .away r else h.locR, notice := if h.locS.isHere then some r else h.notice }, [])
  | .located false r =>
    ({ h with told := if h.locR.isHere then some r else h.told, locS := if h.locR.isHere || h.locS.isHere then h.locS else .away r }, [])
  | .retired true => ({ h with wayR := none, farR := none, sstar := none }, [])
  | .retired false => ({ h with wayS := none }, [])
  | .orphan cut n =>
    let h1 := { h with st := 2 }
    let here := h.head + BitVec.ofNat 32 h.buf.length
    let h2 := if !h.locR.isHere then h1
      else if cut then { h1 with final := some here, early := [] }
      else { h1 with final := some (h.final.getD (if h.locS.isHere then h.next else n)) }
    (if h.mine then (if cut then { h2 with farR := none, pending := false, sstar := none } else { h2 with farS := none }) else h2,
      (if cut && h.locR.isHere then h.discard (h.early.map Prod.snd) else []) ++ if h.mine then h.toR m ++ h.toS m else [])
  | .check _ _ _ | .move _ | .stat _ | .held => (h, [])

/-- A message put on the links (R306). -/
def State.sendNote (s : State) (n : Note) : State :=
  s.mapDev fun d => { d with outbox := d.outbox ++
    [{ rank := n.dst, launch := n.launch, tenant := n.tenant, core := n.core, port := .ctl, text := false, kind := .stream n.sid n.home n.m }] }
/-- A message for a stream that this module has no entry of: items, freed slots and reports go to the stream's home; at the home, an item is
discarded with the end it carries. -/
def Note.stray (n : Note) : List Note :=
  match n.m with
  | .item _ _ c _ =>
    if n.own = n.home then
      (c.map fun c => { n with sid := c.v.setWidth 32, home := (c.v.extractLsb' 64 8).toNat, src := n.own, dst := (c.v.extractLsb' 64 8).toNat,
                               m := .lost (c.v.getLsbD 32) (if c.v.getLsbD 32 then c.head else c.next) }).toList
    else [{ n with src := n.own, dst := n.home }]
  | .slots _ | .last | .report _ _ => if n.own = n.home then [] else [{ n with src := n.own, dst := n.home }]
  | _ => []
/-- Messages delivered: those of this module are taken at once, in order. -/
def State.runNotes : Nat → List Note → State → State
  | 0, _, s => s
  | _, [], s => s
  | f + 1, n :: r, s =>
    if n.dst ≠ n.own then State.runNotes f r (s.sendNote n)
    else match s.home? n.sid n.home with
      | some h =>
        let x := h.take n.src n.m
        State.runNotes f (r ++ x.2) (s.mapHome h fun _ => x.1)
      | none => State.runNotes f (r ++ n.stray) s
/-- Messages delivered, and entries of no more use freed. A message gives rise to a few more, and no chain of them is long. -/
def State.tell (s : State) (ns : List Note) : State := (s.runNotes (8 * ns.length + 16) ns).freeHomes

/-! ### End handles (R55, R290) -/

/-- The handle of an end (R55). -/
def Home.handle (h : Home) (recv : Bool) : W256 :=
  let gen := (if recv then h.genR else h.genS).toNat
  let auth := (if recv then h.authR else h.authS).toNat
  BitVec.ofNat 256 (h.sid.toNat + fld recv.toNat 32 + fld gen 33 + fld 3 52 + fld (h.hrank % 256) 64 + fld (h.hcore % 128) 72 + fld auth 80)
/-- A well-formed stream-end handle (R55). -/
def endForm (v : W256) : Bool :=
  hSpc v == 3 && hBits v 112 144 == 0 && hBits v 79 1 == 0 && hBits v 54 10 == 0 && hBits v 49 3 == 0
/-- SID, HRANK and END of a handle. -/
def endSid (v : W256) : W32 := BitVec.ofNat 32 (hBits v 0 32)
/-- END: the receive end. -/
def endRecv (v : W256) : Bool := hBits v 32 1 == 1
/-- HRANK. -/
def endRank (v : W256) : Nat := hBits v 64 8
/-- GEN and AUTH of a handle. -/
def endGen (v : W256) : W16 := BitVec.ofNat 16 (hBits v 33 16)
/-- AUTH. -/
def endAuth (v : W256) : W32 := BitVec.ofNat 32 (hBits v 80 32)
/-- A stream on this module of which nothing has been here before. -/
def Home.foreign (v : W256) (tenant : BitVec 5) (own : Nat) (launch : List Byte) (ctx : W16) : Home :=
  { sid := endSid v, mine := false, own := own, launch := launch, tenant := tenant, ctx := ctx, depth := 0, st := 0, hcore := hBits v 72 7, hrank := endRank v,
    genS := 0, genR := 0, authS := 0, authR := 0, locS := .away (endRank v), locR := .away (endRank v), free := 0, next := 0, flight := [],
    buf := [], head := 0, early := [], returns := [], wayR := none, wayS := none, farR := none, farS := none, sstar := none, notice := none,
    pending := false, told := none, calm := true, asks := [], grant := none, moving := none, bound := false, repair := 0, final := none,
    got := none, report := none, back := 0, paused := false, freed := [], fresh := [] }
/-- An end that arrives here takes up its counters (R288, R303, R304). -/
def Home.arrive (h : Home) (c : Carried) (l : EndLoc) : Home :=
  let h1 := { h with depth := c.depth, st := if h.st = 0 then c.st else h.st }
  if endRecv c.v then
    { h1 with genR := endGen c.v, authR := endAuth c.v, locR := l, head := c.head, buf := [], early := [], final := h.final <|> c.final,
              locS := if h.mine || h.locS.isHere || c.peer = h.own then h.locS else .away c.peer,
              farR := if h.mine || c.way = h.own then h.farR else some c.way }
  else
    { h1 with genS := endGen c.v, authS := endAuth c.v, locS := l, free := c.free, next := c.next, sstar := h.sstar <|> c.sstar, calm := false,
              locR := if h.mine || h.locR.isHere || h.wayR.isSome || c.peer = h.own then h.locR else .away c.peer,
              farS := if h.mine || c.way = h.own then h.farS else some c.way }
/-- The end of a handle, where it is on this module with that GEN and AUTH. -/
def State.findEnd (s : State) (v : W256) : Option Home :=
  (s.home? (endSid v) (endRank v)).filter fun h => h.handle (endRecv v) == v && (h.loc (endRecv v)).isHere
/-- The home of a handle's end is another module, which must be asked: the end is not known here (R290, 19 R309). -/
def State.asksHome (s : State) (v : W256) : Bool :=
  endForm v && endRank v != s.ownRank && decide (endRank v < (s.core.task.map Task.nranks).getD 0) && (s.findEnd v).isNone
/-- The checks of R290 on an end handle, in order, as this module answers them; an unplaced send end is placed by the first word that passes
them (19 R309). Check 3 asks for the context, and within the cycle of the placing for the core (log 91). -/
def State.checkEnd (s : State) (v : W256) (want : Option Bool) : Judged (Home × Bool × State) :=
  let e := endRecv v
  let sid := (endSid v).toNat
  if !endForm v then .error fIllop
  else match s.home? (endSid v) (endRank v) with
    | none => .error (fStream 0x03 sid)
    | some h =>
      if h.handle e != v || h.loc e == .gone then .error (fStream 0x03 sid)
      else
        let here : Bool := match h.loc e with
          | .here c k => c == s.taskCtx && (k == s.cnum || !h.fresh.contains s.cnum)
          | .unplaced c _ => c == s.taskCtx
          | _ => false
        if !here then .error (fStream 0x04 sid)
        else if want.any fun w => w != e then .error (fStream 0x05 sid)
        else match h.loc e with
          | .unplaced _ k =>
            if k != s.cnum && decide (64 < s.liveEnds + 1) then .error (fStream 0x02 sid)
            else
              let rest := (s.tasked.filter fun c => c.1 != s.cnum).map Prod.fst
              let f (x : Home) : Home := { x.setLoc e (.here s.taskCtx s.cnum) with fresh := rest }
              .ok (f h, e, s.mapHome h f)
          | _ => .ok (h, e, s)
/-- The end as a home tells of it: its counters and what it must know. -/
def Home.carry (h : Home) (recv : Bool) : Carried :=
  { v := h.handle recv, depth := h.depth, free := h.free, next := h.next, head := h.head, st := h.st, final := h.final, sstar := h.sstar,
    peer := if !recv && h.wayR.isSome then h.own else h.rankOf (!recv), way := h.own }
/-- Bytes of a carried send end as a home answers with it. -/
def carriedBytes (c : Carried) : List Byte :=
  leBytes 2 c.depth ++ leBytes 2 c.free ++ leBytes 4 c.next.toNat ++ leBytes 1 c.st.toNat ++ leBytes 1 c.peer ++
    leBytes 5 (match c.sstar with | some n => 2 ^ 32 + n.toNat | none => 0)
/-- The send end read from those bytes. -/
def carriedOf (v : W256) (bs : List Byte) : Carried :=
  let n (a b : Nat) : Nat := leNat ((bs.drop a).take b)
  { v := v, depth := n 0 2, free := n 2 2, next := BitVec.ofNat 32 (n 4 4), head := 0, st := BitVec.ofNat 2 (n 8 1), final := none,
    sstar := if 2 ^ 32 ≤ n 10 5 then some (BitVec.ofNat 32 (n 10 5)) else none, peer := n 9 1, way := endRank v }
/-- The entry of a stream, made where this module has none. -/
def State.withEntry (s : State) (v : W256) : State :=
  if (s.home? (endSid v) (endRank v)).isSome then s
  else s.mapDev fun d => { d with homes := d.homes ++ [Home.foreign v s.tenantNo s.ownRank s.chartRaw s.taskCtx] }
/-- A word asks another module about a stream. -/
def State.askStream (s : State) (sid : W32) (home rank : Nat) (m : StreamMsg) (k : List Byte → State → Out) : Out :=
  s.askEngine .ctl rank 0 (.stream sid home m) (fun bs _ s => k bs s) (fun s => .next (s.trap (fStream 0x03 sid.toNat)))
    fun s => .next (s.waiting (.stream true))
/-- A word over one end (R290): the home is asked where the end is not known here. -/
def State.withEnd (s : State) (r : HReg) (want : Option Bool) (k : Home → Bool → State → Out) : Out :=
  let v := s.core.getH r
  let go (s : State) : Out :=
    match s.checkEnd v want with
    | .error f => .next (s.trap f)
    | .ok x => k x.1 x.2.1 x.2.2
  if s.asksHome v then
    s.askStream (endSid v) (endRank v) (endRank v) (.check v (want.all (· == endRecv v)) (decide (s.liveEnds + 1 ≤ 64))) fun bs s =>
      match bs with
      | 0 :: r =>
        let s1 := s.withEntry v
        go (match s1.home? (endSid v) (endRank v) with
          | some h => s1.mapHome h fun x => { x.arrive (carriedOf v r) (.here s.taskCtx s.cnum) with calm := (carriedOf v r).peer == endRank v, farS := none }
          | none => s1)
      | b :: _ => .next (s.trap (fStream b (endSid v).toNat))
      | [] => .next (s.trap (fStream 0x03 (endSid v).toNat))
  else go s
/-- A word over the receive end, which must not be bound (R291). -/
def State.withRecv (s : State) (r : HReg) (k : Home → State → Out) : Out :=
  s.withEnd r (some true) fun h _ s => if h.bound then .next (s.trap (fStream 0x08 h.sid.toNat)) else k h s

/-- The item that carries an end is held on a core of this module (R302). -/
def State.heldOn (s : State) (h : Home) (recv : Bool) (core : Nat) : Bool :=
  let carries (i : Item) : Bool := i.carried.any fun c => endSid c.v == h.sid && endRank c.v == h.hrank && endRecv c.v == recv
  s.dev.homes.any fun x =>
    ((match x.locR with | .here _ k => k == core | _ => false) && ((x.buf ++ x.early.map Prod.snd).any carries)) ||
      x.wayR.any fun w => w.core == core && w.items.any fun i => carries i.2
/-- The other end is live or in transit outside the core, or something of the stream is on its way (R302). -/
def State.outside (s : State) (h : Home) (recv : Bool) (core : Nat) : Bool :=
  (match h.loc recv with
    | .here _ k | .unplaced _ k => k != core
    | .gone => false
    | .away _ => true
    | .transit => !s.heldOn h recv core) ||
    ((!h.flight.isEmpty || h.way true) && h.locR != .transit) || ((!h.returns.isEmpty || !h.freed.isEmpty || h.way false) && h.locS != .transit)
/-- A stream word waits for the other end (R302). -/
def State.waitEnd (s : State) (h : Home) (recv : Bool) : Out := .next (s.waiting (.stream (s.outside h recv s.cnum)))
/-- The result of a word (R293). -/
def streamResult (st n : Nat) : W64 := BitVec.ofNat 64 (fld st 56 + n)
/-- An item count: 1 to 64, at most D (R291). -/
def State.withItems (s : State) (h : Home) (o : Op2) (k : Nat → State → Out) : Out :=
  let n := (s.op2 o).toNat
  if n = 0 ∨ 64 < n ∨ h.depth < n then .next (s.trap (fStream 0x06 h.sid.toNat n)) else k n s
/-- The core's own scratchpad bytes of some items (R295). -/
def State.withItemBytes (s : State) (a : SReg) (k : Nat) (write : Bool) (f : Nat → State → Out) : Out :=
  let o := (s.getS a).toNat
  if 2 ^ 23 ≤ o ∨ spadSize < o + 64 * k then .next (s.trap { cause := Cause.perm, addr := o, aux := write.toNat })
  else if o % 64 ≠ 0 then .next (s.trap { cause := Cause.align, addr := o })
  else f o s

/-- A use of the ST path, and of the SC path for the word's own bytes (20 R314, R325). -/
def State.withStream (s : State) (k : State → Out) : Out := s.withPaths [.sc, .st] k
/-- A use of the ST path alone. -/
def State.withSt (s : State) (k : State → Out) : Out := s.withPaths [.st] k
/-- A stream word with REL or ACQ is a bridge of its core from SC to ST, and back (20 R324). -/
def State.bridgeSt (s : State) : State :=
  (s.showTo scEye fun r => r.path == some .st).showTo (1#7 <<< Path.st.bit) fun r => r.path == some .sc

/-! ### Sending (R295, R297) -/

/-- The module that an item now sent goes to, when that is another: the old place of a moved receive end until the send end has replied
(R304). -/
def Home.sendRank (h : Home) : Option Nat := if h.wayR.isSome && h.sstar.isNone then none else h.locR.rank?
/-- A cycle of deterministic mode has come for a stream's context, while it is resident (23 R342, R343). -/
def State.homeReached (s : State) (h : Home) (n : Nat) : Bool :=
  n == 0 || match s.dev.ctxs.find? fun x => x.id == h.ctx with
    | none => true
    | some x => (s.tasked.filter fun c => c.2.task.any fun t => t.ctx == h.ctx).any (fun c => decide (n ≤ c.2.cycle.toNat)) || decide (n ≤ x.cycles.toNat)
/-- An item sent: in flight on this module, or as a message (R295, R297); in deterministic mode it is delivered on the module 800 cycles later
(23 R343). -/
def State.putItem (s : State) (h : Home) (i : Item) : State :=
  match s.home? h.sid h.hrank with
  | none => s
  | some h =>
    let s1 := s.mapHome h fun x => { x with free := x.free - 1, next := x.next + 1 }
    match h.sendRank with
    | some r => s1.sendNote (h.note r (.item h.next i.bytes i.carried i.rel))
    | none => s1.mapHome h fun x => { x with flight := x.flight ++ [(h.next, { i with due := s.core.later 800 })] }
/-- At most 64 items are sent from s* while a waypoint still forwards (R304). -/
def Home.window (h : Home) (k : Nat) : Bool := h.sstar.all fun n => decide ((h.next + BitVec.ofNat 32 k - n).toNat ≤ 64)
/-- In a compute phase nothing leaves the module (02 R31). -/
def State.mayLeave (s : State) (h : Home) : Bool :=
  h.sendRank.isNone || !(s.core.task.any Task.sstep) || s.core.exch

/-- SSEND (R295). -/
def execSsend (nb : Bool) (d : SReg) (r : HReg) (a : SReg) (o : Op2) (rel : Option Scope) (s : State) : Out :=
  s.withRegs (d :: a :: op2Regs o) fun s => s.withStream fun s => s.withEnd r (some false) fun h _ s => s.withItems h o fun k s =>
    s.withItemBytes a k false fun off s =>
      if !s.mayLeave h then .next (s.trap { cause := Cause.perm, addr := off })
      else s.withDrained fun s =>
        if h.st = 2 then .next (s.putS d (streamResult 3 0))
        else if h.paused then s.waitEnd h true
        else if h.free < k ∨ !h.window k then
          (if nb then .next (s.putS d (streamResult (if h.free < k then 1 else 6) 0)) else s.waitEnd h true)
        else if s.badSpad (spadKey s.cnum off) (64 * k) then .next (s.trap (fEccu off 0))
        else if h.sendRank.isSome && !s.linkOk (64 * k) then .next (s.waiting .budget)
        else
          let s0 := if h.sendRank.isSome then s.linkDebit (64 * k) else s
          let s1 := if rel.isSome then s0.bridgeSt else s0
          let s2 := (List.range k).foldl (fun t j =>
            let bs := t.seeRun t.scLook (spadKey t.cnum (off + 64 * j)) 64
            t.putItem h { bytes := bs, carried := none, rel := rel.map fun sc => (t.party, sc), due := 0 }) s1
          .next (s2.putS d (streamResult 0 k))

/-- Waypoints on a core (R308). -/
def State.waypointsOn (s : State) (core : Nat) : Nat :=
  s.dev.homes.foldl (fun n h => n + (h.wayS.any (· == core)).toNat + (h.wayR.any fun w => w.core == core).toNat) 0
/-- The home may grant a move of an end: no move of the stream is in progress, no waypoint of that end remains (R298). -/
def Home.mayMove (h : Home) (recv : Bool) : Bool := h.moving.isNone && !h.way recv
/-- An end leaves its location, which becomes a waypoint (R297, R303, R304). -/
def Home.depart (m : Home) (recv : Bool) (core : Nat) (auth : W32) : Home :=
  let m1 := { m with moving := some recv, grant := none, asks := m.asks.filter fun x => x.1 != recv }.setLoc recv .transit
  if recv then
    { m1 with genR := m.genR + 1, authR := auth, sstar := none, told := none, buf := [], early := [],
              wayR := some { items := (m.buf.zipIdx.map fun x => (m.head + BitVec.ofNat 32 x.2, x.1)) ++ m.early, core := core, next := m.head } }
  else { m1 with genS := m.genS + 1, authS := auth, wayS := some core, notice := none, sstar := if m.wayR.isSome || m.mine then m.sstar else none }
/-- A grant not used goes back to the home. -/
def State.unmove (s : State) (m : Home) (e : Bool) : State :=
  if m.mine then s.mapHome m fun x => x.unmoved e
  else if m.grant = some e then (s.mapHome m fun x => { x with grant := none }).tell [m.toHome (.unmove e)]
  else s
/-- SSENDH's move of an end, granted (R297): the end goes as one handle item. -/
def State.moveEnd (s : State) (d : SReg) (rb : HReg) (h m : Home) (e : Bool) (rel : Option Scope) : Out :=
  let s0 := if h.sendRank.isSome then s.linkDebit 64 else s
  let s1 := if rel.isSome then s0.bridgeSt else s0
  let gone := m.depart e s.cnum (Config.freeAuth s.tick)
  let c := { m.carry e with v := gone.handle e }
  let s2 := (s1.mapHome m fun _ => gone).putItem h { bytes := [], carried := some c, rel := rel.map fun sc => (s.party, sc), due := 0 }
  let s3 := if m.mine then s2 else s2.tell [m.toHome (.departed e (endGen c.v) (endAuth c.v))]
  .next (((s3.mapCore fun c => c.setH rb 0).setS d (streamResult 0 1)).complete 1)
/-- SSENDH (R297). -/
def execSsendh (nb : Bool) (d : SReg) (ra rb : HReg) (rel : Option Scope) (s : State) : Out :=
  s.withRegs [d] fun s => s.withSt fun s => s.withEnd ra (some false) fun h _ s => s.withEnd rb none fun m e s =>
    if m.isOf h.sid h.hrank then .next (s.trap (fStream 0x07 h.sid.toNat))
    else if e && m.bound then .next (s.trap (fStream 0x08 m.sid.toNat))
    else if !s.mayLeave h then .next (s.trap { cause := Cause.perm })
    else (if rel.isSome then s.withDrained else fun k => k s) fun s =>
      if h.st = 2 then .next ((s.unmove m e).putS d (streamResult 3 0))
      else if h.paused || m.paused then s.waitEnd h true
      else if h.free = 0 then
        (if nb then .next ((s.unmove m e).putS d (streamResult 1 0)) else s.waitEnd h true)
      else if h.sendRank.isSome && !s.linkOk 64 then .next (s.waiting .budget)
      else
        let turned (s : State) : Out :=
          if nb then .next (s.putS d (streamResult 6 0))
          else if m.mine then (s.mapHome m fun x => { x with asks := (e, s.cnum) :: x.asks.filter fun a => a.1 != e }).waitEnd m (!e)
          else s.waitEnd m (!e)
        if 256 ≤ s.waypointsOn s.cnum then turned s
        else if m.grant = some e ∨ (m.mine ∧ m.mayMove e) then s.moveEnd d rb h m e rel
        else if m.mine then turned s
        else s.askStream m.sid m.hrank m.hrank (.move e) fun bs s =>
          if bs = [1] then .next ((s.mapHome m fun x => { x with grant := some e }).waiting (.stream true)) else turned s

/-- STREAM_MOVE_GRANT: the home grants a move that a core asks for, once nothing blocks it (R298). -/
def execEvStreamMoveGrant (k : Nat) (recv : Bool) (s : State) : Out :=
  match s.dev.homes[k]? with
  | none => .next s
  | some h =>
    if h.grant.isNone && h.mayMove recv && h.asks.any fun a => a.1 == recv && decide (s.waypointsOn a.2 < 256) then
      .next (s.mapHome h fun x => { x with grant := some recv, moving := some recv, asks := x.asks.filter fun a => a.1 != recv })
    else .next s

/-! ### Receiving (R296, R299) -/

/-- The receive end's holder learns that nothing follows: closed or orphan, and every item below the final number has been taken (R296,
R301). -/
def Home.over (h : Home) (n : Nat) : Bool := h.st != 0 && h.final.any fun f => h.head + BitVec.ofNat 32 n == f
/-- Freed slots: the send end's where it is on this module, at once or at a cycle of deterministic mode, else in a batch on their way (R296,
R306, 23 R343). -/
def Home.giveBack (h : Home) (n due : Nat) : Home :=
  if n = 0 then h
  else if h.locS.isHere && due != 0 then { h with freed := h.freed ++ [(n, due)] }
  else if h.locS.isHere then { h with free := h.free + n, back := h.back + n }
  else { h with returns := h.returns ++ [.slots n] }
/-- Items taken from the head. -/
def Home.takeItems (h : Home) (n due : Nat) : Home :=
  { h with buf := h.buf.drop n, head := h.head + BitVec.ofNat 32 n }.giveBack n due
/-- An acquire of the items taken; a pair whose scopes do not match sets SCOPEMISS (R307, 20 R322, R324). -/
def State.acquireItems (s : State) (acq : Option Scope) (is : List Item) : State :=
  match acq with
  | none => s
  | some sc => s.bridgeSt.acquireFrom sc (is.filterMap Item.rel)

/-- SRECV (R296). -/
def execSrecv (nb : Bool) (d : SReg) (r : HReg) (a : SReg) (o : Op2) (acq : Option Scope) (s : State) : Out :=
  s.withRegs (d :: a :: op2Regs o) fun s => s.withStream fun s => s.withRecv r fun h s => s.withItems h o fun k s =>
    s.withItemBytes a k true fun off s =>
      let is := (h.buf.take k).takeWhile fun i => i.carried.isNone
      let n := is.length
      let handle : Bool := (h.buf[n]?).isSome
      if n < k ∧ !(handle || h.over n) then
        (if nb then .next (s.putS d (streamResult 2 0)) else s.waitEnd h false)
      else
        let st := if n = k then 0 else if handle then 5 else if h.st = 1 then 4 else 3
        let s1 := is.zipIdx.foldl (fun t x => t.pushStore true (spadKey t.cnum (off + 64 * x.2)) none x.1.bytes none) s
        let s2 := (s1.mapHome h fun x => x.takeItems n (s.core.later 800)).acquireItems acq is
        .next (s2.freeHomes.putS d (streamResult st n))

/-- SRECVH (R299): the carried end is registered here, and its home told. -/
def execSrecvh (nb : Bool) (d : SReg) (ra rb : HReg) (acq : Option Scope) (s : State) : Out :=
  s.withRegs [d] fun s => s.withSt fun s => s.withRecv ra fun h s =>
    match h.buf with
    | [] =>
      if h.over 0 then .next (s.putS d (streamResult (if h.st = 1 then 4 else 3) 0))
      else if nb then .next (s.putS d (streamResult 2 0))
      else s.waitEnd h false
    | i :: _ =>
      match i.carried with
      | none => .next (s.putS d (streamResult 5 0))
      | some c =>
        if 64 < s.liveEnds + 1 then .next (s.trap (fStream 0x02 h.sid.toNat))
        else
          let s1 := (s.mapHome h fun x => x.takeItems 1 (s.core.later 800)).withEntry c.v
          let s2 := match s1.home? (endSid c.v) (endRank c.v) with
            | none => s1
            | some m =>
              (s1.mapHome m fun x => x.arrive c (.here s.taskCtx s.cnum)).tell [m.toHome (.registered (endRecv c.v))]
          let s3 := ((s2.mapCore fun x => x.setH rb c.v).acquireItems acq [i]).setS d (streamResult 0 1)
          .next ((s3.freeHomes).complete 1)

/-! ### Making an end and ending one (R294, R300, R301, R311) -/

/-- A SID in use by no entry: the first from a free value on. -/
def State.freshSid (s : State) : W32 :=
  let used (x : W32) : Bool := s.dev.homes.any fun h => h.sid == x
  let c := (List.range (s.dev.homes.length + 1)).map fun j => Config.freeSid s.tick + BitVec.ofNat 32 j
  (c.find? fun x => !used x).getD (Config.freeSid s.tick)
/-- A stream as SNEW makes it (R294, R309). -/
def Home.create (sid : W32) (t : Task) (core depth : Nat) (authS authR : W32) : Home :=
  { Home.foreign 0 t.tenant t.rank [] t.ctx with
    sid := sid, mine := true, depth := depth, hcore := core, hrank := t.rank, authS := authS, authR := authR,
    locS := .unplaced t.ctx core, locR := .here t.ctx core, free := depth }
/-- SNEW (R294). -/
def execSnew (ha hb : HReg) (o : Op2) (s : State) : Out :=
  s.withRegs (op2Regs o) fun s =>
    let d := (s.op2 o).toNat
    match s.core.task with
    | none => .next (s.trap fIllop)
    | some t =>
      if d = 0 ∨ 4096 < d then .next (s.trap (fStream 0x06 0 d))
      else if 8192 ≤ (s.dev.homes.filter Home.mine).length then .next (s.trap (fStream 0x01 0))
      else if 64 < s.liveEnds + 2 then .next (s.trap (fStream 0x02 0))
      else
        let h := { Home.create s.freshSid t s.cnum d (Config.freeAuth s.tick) (Config.freeAuth (2 ^ 64 + s.tick)) with launch := s.chartRaw }
        let s1 := s.mapDev fun x => { x with homes := x.homes ++ [h] }
        .next ((s1.mapCore fun c => (c.setH ha (h.handle false)).setH hb (h.handle true)).complete 1)

/-- A binding of a stream's receive end (R305). -/
def SBinding.isOf (b : SBinding) (sid : W32) (rank : Nat) : Bool := b.sid == sid && b.hrank == rank
/-- The binding of a stream's receive end removed, on whatever core it is. -/
def State.unbind (s : State) (h : Home) : State :=
  (s.mapCores fun _ c => { c with bindings := c.bindings.filter fun b => !b.isOf h.sid h.hrank }).mapHome h fun x => { x with bound := false }
/-- The bindings of a stream's receive end. -/
def State.bindingsOf (s : State) (h : Home) : List (Nat × SBinding) :=
  ((s.cnum, s.core) :: s.others).flatMap fun c => (c.2.bindings.filter fun b => b.isOf h.sid h.hrank).map fun b => (c.1, b)
/-- What is left here of an end destroyed or closed: the home says where it is. -/
def Home.leave (h : Home) (recv : Bool) : Home :=
  h.setLoc recv (if h.mine then .gone else .away h.hrank)
/-- One end here destroyed (R301): the home is told, a receive end's items are discarded with the ends they carry. -/
def State.dropEnd (s : State) (x : W32 × Nat × Bool) : State :=
  match s.home? x.1 x.2.1 with
  | none => s
  | some h =>
    if !(h.loc x.2.2).isHere then s
    else if x.2.2 then
      let is := h.buf ++ h.early.map Prod.snd
      let n := h.head + BitVec.ofNat 32 is.length
      ((s.unbind h).mapHome h fun y => { y.leave true with buf := [], early := [], told := none }).tell (h.toHome (.lost true n) :: h.discard is)
    else (s.mapHome h fun y => { y.leave false with notice := none }).tell [h.toHome (.lost false h.next)]
/-- Ends here destroyed. -/
def State.dropEnds (s : State) (l : List (W32 × Nat × Bool)) : State := l.foldl State.dropEnd s
/-- Every live end of a task dropped (R300). -/
def State.dropTaskEnds (s : State) (ctx : W16) (core : Nat) : State :=
  s.dropEnds (s.dev.homes.flatMap fun h =>
    (if h.locS.heldBy ctx core then [(h.sid, h.hrank, false)] else []) ++ if h.locR.heldBy ctx core then [(h.sid, h.hrank, true)] else [])

/-- SCLOSE (R300, R311). -/
def execSclose (r : HReg) (s : State) : Out :=
  s.withSt fun s => s.withEnd r (some false) fun h _ s =>
    let s1 := (s.mapHome h fun x => { x.leave false with notice := none }).tell [h.toHome (.closed h.next)]
    .next ((s1.mapCore fun c => c.setH r 0).complete 1)
/-- SDROP (R300): a bound receive end is unbound first, which waits for the group in progress (R305). -/
def execSdrop (r : HReg) (s : State) : Out :=
  s.withSt fun s => s.withEnd r none fun h e s =>
    match (s.bindingsOf h).find? fun b => e && b.2.slice.isSome with
    | some b => .next (s.waiting (if b.1 = s.cnum then .internal else .stream true))
    | none => .next (((s.dropEnd (h.sid, h.hrank, e)).mapCore fun c => c.setH r 0).complete 1)
/-- The map of SSTAT (R300): the home's part, and the items that a waypoint elsewhere holds. -/
def Home.map (h : Home) (recv : Bool) (st : Nat) (moving waypt : Bool) (repair held : Nat) : Nat :=
  let count := if recv then h.buf.length + h.early.length + (h.wayR.map fun w => w.items.length).getD 0 + held else h.free
  fld st 62 + fld recv.toNat 61 + fld (recv && h.bound).toNat 60 +
    fld (recv && (h.buf.head?.any fun i => i.carried.isSome)).toNat 59 + fld moving.toNat 58 + fld waypt.toNat 57 +
    fld (min repair 255) 48 + fld (if recv then h.genR else h.genS).toNat 32 + fld h.depth 16 + count % 2 ^ 13
/-- SSTAT (R300): a waypoint elsewhere and a home elsewhere are asked. -/
def execSstat (d : SReg) (r : HReg) (s : State) : Out :=
  s.withRegs [d] fun s => s.withEnd r none fun h e s =>
    let last (held : Nat) (s : State) : Out :=
      if h.mine then .next (s.putS d (BitVec.ofNat 64 (h.map e h.st.toNat h.moving.isSome (h.way e) h.repair held)))
      else s.askStream h.sid h.hrank h.hrank (.stat e) fun bs s =>
        let b (k : Nat) : Nat := (bs.getD k 0).toNat
        .next (s.putS d (BitVec.ofNat 64 (h.map e (b 0 % 4) (b 1 == 1) (b 2 == 1) (b 3) held)))
    match e, h.farR, s.seq.dec with
    | true, some _, .count n => last n s
    | true, some w, _ => s.askStream h.sid h.hrank w .held fun bs s =>
        let n := leNat bs
        last n (s.mapSeq s.who fun q => { q with dec := .count n })
    | _, _, _ => last 0 s

/-! ### Items, returns and waypoints on their way (R288, R303, R304) -/

/-- Items of the reorder window that follow the buffer's last taken into it. -/
def Home.absorb (h : Home) : Nat → Home
  | 0 => h
  | n + 1 =>
    let w := h.head + BitVec.ofNat 32 h.buf.length
    match h.early.find? fun x => x.1 == w with
    | none => h
    | some x => { h with buf := h.buf ++ [x.2], early := h.early.filter fun y => y.1 != w }.absorb n
/-- An item at the receive end: into the reorder window, and in sequence order into the buffer (R288). -/
def Home.accept (h : Home) (q : W32) (i : Item) : Home := { h with early := h.early ++ [(q, i)] }.absorb (h.early.length + 1)
/-- An item belongs to the waypoint of the receive end here: it is below s* and has not been forwarded (R304). -/
def Home.forWaypoint (h : Home) (q : W32) : Bool :=
  h.wayR.any fun w => decide ((q - w.next).toNat < (h.sstar.map fun n => (n - w.next).toNat).getD (2 ^ 31))
/-- The tenant's link bytes allow a stream's item to go on to another module (23 R349). -/
def State.itemOk (s : State) (h : Home) : Bool := s.linkOkOf h.tenant 64
/-- STREAM_ITEM_ARRIVE: the j-th item in flight reaches the waypoint, the reorder window or the buffer of the receive end, or goes on to where
that is; after its destruction it is discarded with the end it carries (R288, R301, R304). -/
def execEvStreamItemArrive (k : Nat) (j : Nat) (s : State) : Out :=
  match s.dev.homes[k]? with
  | none => .next s
  | some h =>
    match h.flight[j]? with
    | none => .next s
    | some (q, i) =>
      if !s.homeReached h i.due then .next s else
      let s1 := s.mapHome h fun x => { x with flight := x.flight.take j ++ x.flight.drop (j + 1) }
      if h.forWaypoint q then
        .next (s1.mapHome h fun x => { x with wayR := x.wayR.map fun w => { w with items := w.items ++ [(q, i)] } })
      else match h.locR with
        | .here _ _ =>
          if 64 ≤ h.early.length ∧ q ≠ h.head + BitVec.ofNat 32 h.buf.length then .next s
          else .next (s1.mapHome h fun x => x.accept q i)
        | .away r =>
          if !s.itemOk h then .next s
          else .next (((s1.linkDebitOf h.tenant 64).sendNote (h.note r (.item q i.bytes i.carried i.rel))).freeHomes)
        | .gone => .next ((s1.mapHome h fun x => { x with got := x.got.map (· + 1) }).tell (h.discard [i]))
        | _ => .next s
/-- STREAM_SLOT_RETURN: freed slots, or a census message, reach the send end, or the module it is on (R296, R303, R306). -/
def execEvStreamSlotReturn (k : Nat) (s : State) : Out :=
  match s.dev.homes[k]? with
  | none => .next s
  | some h =>
    match h.freed, h.returns, h.locS with
    | (n, due) :: r, _, _ =>
      if s.homeReached h due then .next (s.mapHome h fun x => { x with freed := r }.giveBack n 0).freeHomes else .next s
    | [], [], _ | [], _, .transit => .next s
    | [], m :: r, l =>
      let s1 := s.mapHome h fun x => { x with returns := r }
      .next (if l = .gone then s1.freeHomes else s1.tell [h.note (h.rankOf false) m])
/-- SEND_END_REPLY: the send end answers the notice of a moved receive end, which fixes s* (R304). -/
def execEvSendEndReply (k : Nat) (s : State) : Out :=
  match s.dev.homes[k]? with
  | none => .next s
  | some h =>
    match h.notice with
    | some r =>
      if h.locS.isHere then
        .next ((s.mapHome h fun x => { x with notice := none, sstar := some x.next,
                                              locR := if x.mine || x.locR.isHere then x.locR else .away r }).tell [h.toHome (.reply h.next)])
      else .next s
    | none => .next s
/-- WAYPOINT_FORWARD: the waypoint of a receive end forwards its next item once the end is registered; that of a send end, freed slots and
census messages (R303, R304). -/
def execEvWaypointForward (k : Nat) (s : State) : Out :=
  match s.dev.homes[k]? with
  | none => .next s
  | some h =>
    match h.wayR with
    | none => if h.wayS.isSome then execEvStreamSlotReturn k s else .next s
    | some w =>
      let s1 := s.mapHome h fun y => { y with wayR := some { w with items := w.items.filter (fun z => z.1 != w.next), next := w.next + 1 } }
      match w.items.find? fun x => x.1 == w.next, h.locR with
      | some x, .here _ _ => .next (s1.mapHome h fun y => { y with flight := y.flight ++ [x] })
      | some x, .away r =>
        if s.itemOk h then .next ((s1.linkDebitOf h.tenant 64).sendNote (h.note r (.item x.1 x.2.bytes x.2.carried x.2.rel))) else .next s
      | _, _ => .next s
/-- WAYPOINT_RETIRE: a receive end's waypoint has forwarded everything below s*; the receiver has learned where the send end is. The home
confirms (R303, R304). -/
def execEvWaypointRetire (k : Nat) (recv : Bool) (s : State) : Out :=
  match s.dev.homes[k]? with
  | none => .next s
  | some h =>
    match recv, h.wayR, h.told with
    | true, some w, _ =>
      if w.items.isEmpty && h.sstar == some w.next && h.locR != .transit then .next (s.tell [h.toHome .forwarded]) else .next s
    | false, _, some r =>
      let old : Option Nat := if h.wayS.isSome then none else h.farS <|> (h.locS.rank?.filter (· != r))
      let f (x : Home) : Home :=
        { x with told := none, farS := if x.mine then x.farS else none, returns := if old.isNone then x.returns ++ [StreamMsg.last] else [],
                 locS := if x.mine || x.locS.isHere then x.locS else .away r }
      .next ((s.mapHome h f).tell ((match old with
        | some o => (h.returns ++ [StreamMsg.last]).map (h.note o)
        | none => []) ++ [h.toHome .learned]))
    | _, _, _ => .next s
/-- The other modules that hold one side of a stream: its end, its waypoint and, for an entry that is not the home's, the home. -/
def Home.sides (h : Home) (recv : Bool) : List Nat :=
  ((h.loc recv).rank?.toList ++ (if recv then h.farR else h.farS).toList ++ if h.mine then [] else [h.hrank]).filter (· != h.own)
/-- STREAM_LOSS: a module that holds one side of a stream has been reset, and with it an end, a waypoint or the home; the send end's next
number at the loss is `next` (R301, R310; which module, and that number, are free: log 88). -/
def execEvStreamLoss (k : Nat) (recv : Bool) (s : State) : Out :=
  match s.dev.homes[k]? with
  | none => .next s
  | some h =>
    match (h.sides recv)[Config.lostRank s.tick % (h.sides recv).length]? with
    | none => .next s
    | some rank =>
      let next := Config.lostNext s.tick
      let self (m : StreamMsg) : Note := h.note h.own m
      if !h.mine then (if h.hrank = rank then .next (s.tell [self (.orphan false next)]) else .next s)
      else
        let lostS := h.locS == .away rank
        let lostR := h.locR == .away rank
        let s1 := s.tell ((if lostS then [self (.lost false next)] else []) ++ (if lostR then [self (.lost true next)] else []) ++
          (if h.farR = some rank && !lostR then [self (.orphan true next)] else []) ++ if h.farS = some rank && !lostS then [self (.orphan false next)] else [])
        .next (if lostR then (s1.mapHome h fun x => { x with got := none }).freeHomes else s1)

/-! ### Bindings (R305) -/

/-- SBIND (R305): the tensor is judged, its pages and tags held while it is bound (03 R54, 07 R134, 09 R185). -/
def execSbind (ra rb : HReg) (o : Op2) (s : State) : Out :=
  s.withRegs (op2Regs o) fun s => s.withEnd ra (some true) fun h _ s =>
    let v := s.core.getH rb
    let k := (s.op2 o).toNat
    if h.bound then .next (s.trap (fStream 0x08 h.sid.toNat))
    else if k = 0 ∨ 64 < k then .next (s.trap (fStream 0x06 h.sid.toNat k))
    else if !(handleOk v [0, 1] && hOpen v) then .next (s.trap fIllop)
    else if !handleAligned v then .next (s.trap { cause := Cause.align, addr := hBase v })
    else match s.core.checkOpen v false with
      | .error f => .next (s.trap f)
      | .ok _ =>
        if (s.core.orec (hOtid v)).prod = .rule then .next (s.trapRule 0x04 0 0)
        else if hSlice v * hEsize v ≠ 64 * k then .next (s.trap (fStream 0x09 h.sid.toNat))
        else match s.ruleOperands [(patternOf v none, .wr)] with
          | .error f => .next (s.trap f)
          | .ok l =>
            match l with
            | [] => .next (s.trap fIllop)
            | p :: _ =>
              let b : SBinding :=
                { sid := h.sid, hrank := h.hrank, opnd := p, k := k, slice := none, stopped := false, asking := false, sent := [],
                  place := s.cur }
              .next (((s.mapHome h fun x => { x with bound := true }).mapCore fun c => { c with bindings := c.bindings ++ [b] }).complete 1)
/-- SBIND.OFF: it waits for the group in progress, on whichever core of the context the binding is (R305). -/
def execSbindOff (r : HReg) (s : State) : Out :=
  s.withEnd r (some true) fun h _ s =>
    match (s.bindingsOf h).find? fun b => b.2.slice.isSome with
    | some b => .next (s.waiting (if b.1 = s.cnum then .internal else .stream true))
    | none => .next ((s.unbind h).complete 1)

/-- A binding changed. -/
def State.mapBinding (s : State) (b : SBinding) (f : SBinding → SBinding) : State :=
  s.mapCore fun c => { c with bindings := c.bindings.map fun x => if x.isOf b.sid b.hrank then f x else x }
/-- A claim refused: the binding stops, CTL takes RULE asynchronously with the SBIND word's PC (R305, 25 R375). -/
def State.bindFault (s : State) (b : SBinding) (f : Flt) : State :=
  let info : TrapInfo :=
    { eng := .ctl, cause := f.cause, reason := f.reason, awd := false, async := true, rulei := false, pc := b.place.pc,
      addr := BitVec.ofNat 64 f.addr, ruleid := 0, tsdone := 0, col := 0, row := 0, kstep := 0, slice := 0,
      aux := BitVec.ofNat 64 f.aux, word := b.place.word }
  (s.mapBinding b fun x => { x with stopped := true, slice := none }).mapCore fun c =>
    { c with pend := c.pend ++ [{ info := info, held := .binding, inside := false }] }
/-- The slice of a binding written: elements of other modules first, one access at a time through ACC's port (R305). -/
def State.bindWrite (s : State) (h : Home) (b : SBinding) (n : Nat) : State :=
  let o := { b.opnd with ring := true, slice := n, count := hSlice b.opnd.h }
  let es := hEsize o.h
  let bs := (h.buf.take b.k).flatMap Item.bytes
  let m := devBytes o s.cnum 0 o.count
  match (farPieces o s.cnum 0 o.count).filter fun x => !b.sent.contains x.1 with
  | [] =>
    if !s.memOk m then s
    else
      let s1 := (s.memDebit m).scatterStep .st o 0 bs
      let s2 := (s1.mapHome h fun x => x.takeItems b.k (s.core.later 800)).mapBinding b fun x => { x with slice := none, sent := [] }
      s2.mapCore fun c => c.completeSlice (hOtid o.h) n
  | f :: fs =>
    if s.core.bindings.any fun x => x.asking && !x.isOf b.sid b.hrank then s
    else
      let ps := ((f :: fs).filter fun x => x.1 == f.1).map fun x => (x.2.1, (bs.drop (x.2.2 * es)).take es)
      s.askEngine .acc f.1 (es * ps.length) (.write ps [])
        (fun _ _ s => s.mapBinding b fun x => { x with sent := f.1 :: x.sent, asking := false })
        (fun s => (s.mapBinding b fun x => { x with asking := false }).bindFault b (fRefused o f.2.2 .wr))
        fun s => s.mapBinding b fun x => { x with asking := (match s.core.replies.get .acc with | .none => false | _ => true) }
/-- SBIND_SLICE_WRITE: with k data items at the head the binding claims a slice, waits for ring room and writes it (R305). -/
def execEvSbindSliceWrite (k : Nat) (s : State) : Out :=
  match s.dev.homes[k]? with
  | none => .next s
  | some h =>
    match s.core.bindings.find? fun b => b.isOf h.sid h.hrank with
    | none => .next s
    | some b =>
      let data := (h.buf.take b.k).filter fun i => i.carried.isNone
      if b.stopped || decide (data.length < b.k) || s.core.halt == .stopped || !s.core.pathOpen .st b.place.pos b.place.slot then .next s
      else
        let id := hOtid b.opnd.h
        let go (n : Nat) (s : State) : State := if s.core.mayWrite id n then s.bindWrite h b n else s
        match b.slice with
        | some n => .next (go n s)
        | none =>
          if (s.core.orec id).st ≠ .opened then .next (s.bindFault b (fRule 0x03))
          else match s.core.claimWrite id 1 with
            | .error f => .next (s.bindFault b f)
            | .ok (n, c) => .next (go n ({ s with core := c }.mapBinding b fun x => { x with slice := some n }))

/-! ### Questions of other modules, and the census (R290, R298, R300, R306; 19 R309) -/

/-- A context's launch is the one that a message names (19 R309). -/
def State.sameLaunch (s : State) (ctx : W16) (launch : List Byte) : Bool :=
  s.dev.ctxs.any fun x => x.id == ctx && x.launch.raw == launch && launch != []
/-- The answer to a question about a stream from the module of a rank: a named end that is not located there is refused with its reason, an
unplaced send end of the same launch is placed there, a move is granted or not, the state or the items held are told. -/
def State.streamAnswer (s : State) (rank : Nat) (tenant : BitVec 5) (launch : List Byte) (sid : W32) (home : Nat) (m : StreamMsg) :
    List Byte × State :=
  match s.home? sid home with
  | none => ([match m with | .check _ _ _ => 0x03 | _ => 0], s)
  | some h =>
    match m with
    | .check v right room =>
      if h.handle (endRecv v) != v || h.loc (endRecv v) == .gone || h.tenant != tenant then ([0x03], s)
      else match h.loc (endRecv v) with
        | .unplaced c _ =>
          if !s.sameLaunch c launch then ([0x04], s)
          else if !right then ([0x05], s)
          else if !room then ([0x02], s)
          else
            (0 :: carriedBytes (h.carry false),
              (s.mapHome h fun x => { x with locS := .away rank, notice := none, sstar := if x.wayR.isSome then x.sstar else none }).tell
                (h.toR (.located false rank) ++ if h.pending then [h.note rank (.located true (h.rankOf true))] else []))
        | _ => ([0x04], s)
    | .move e =>
      if h.grant = some e ∨ h.mayMove e then ([1], s.mapHome h fun x => { x with grant := some e, moving := some e }) else ([0], s)
    | .stat e => ([BitVec.ofNat 8 h.st.toNat, BitVec.ofNat 8 h.moving.isSome.toNat, BitVec.ofNat 8 (h.way e).toNat, BitVec.ofNat 8 (min h.repair 255)], s)
    | .held => (leBytes 2 ((h.wayR.map fun w => w.items.length).getD 0), s)
    | _ => ([], s)
/-- This module's rank in the launch that a message names, where a context of it is here. -/
def State.rankIn (s : State) (launch : List Byte) : Option Nat := (s.dev.ctxs.find? fun x => x.launch.raw == launch).map Ctx.rank
/-- A message of a stream received from the module of a rank. One of a launch that is no longer here is dropped, unless the stream still has
an entry. -/
def State.streamMsg (s : State) (rank : Nat) (tenant : BitVec 5) (launch : List Byte) (core : Nat) (sid : W32) (home : Nat) (m : StreamMsg) : State :=
  match ((s.home? sid home).map Home.own) <|> s.rankIn launch with
  | none => s
  | some own => s.tell [{ sid := sid, home := home, launch := launch, tenant := tenant, core := core, own := own, src := rank, dst := own, m := m }]
/-- Items that the receiver's report leaves in flight (R306). -/
def Home.inFlight (h : Home) (high : W32) : Nat := (h.next - (high + 1)).toNat
/-- A device event logged for the host: 256 entries, an entry dropped is counted (27 R394). -/
def Device.logEvent (d : Device) (e : W64) : Device :=
  if d.events.length < 256 then { d with events := d.events ++ [e] } else { d with dropped := d.dropped + 1 }
/-- STREAM_CENSUS of a stream with its ends on different modules: after the slots freed so far, the receiver reports what it holds in order and
the highest number of that; the sender compares when the report reaches it (R306). -/
def execEvStreamCensus (k : Nat) (s : State) : Out :=
  match s.dev.homes[k]? with
  | none => .next s
  | some h =>
    match h.locS, h.locR with
    | .away r, .here _ _ =>
      let m : StreamMsg := .report h.buf.length (h.head + BitVec.ofNat 32 h.buf.length - 1)
      .next ((s.mapHome h fun x => { x with returns := [] }).tell ((h.returns ++ [m]).map (h.note r)))
    | _, _ => .next s

end Sys2Proof.Machine
end

