-- ==== Sys2Proof/Machine/Post.lean ====
section
/-!
DEFINITION. POST and AWAIT words of VEC, MAT, CLD, CST and FAB, and an await that succeeds (03 R46, R48; 04 R85 to R87; 09 R173; 15 R254).
-/
namespace Sys2Proof.Machine

/-- A POST word of a copy engine goes into its command queue, a ninth waiting at the queue's end (09 R171, R173). -/
def State.postCopy (s : State) (e : CopyEng) (i : Instr) (c : TailClause) : Out :=
  let full (d : Core) : Bool := decide (8 < (d.copies e).length)
  if s.seq.claim.isSome then (if full s.core then .next (s.waiting .internal) else .next (s.complete 1))
  else
    let s1 := s.mapCore fun d => d.enqueue e (CopyCmd.start i s.cur .own (some c))
    if full s1.core then .next ((s1.mapSeq s.who fun q => { q with claim := some 0 }).waiting .internal)
    else .next (s1.complete 1)

/-- POST in tail form: VEC and MAT go on and the post waits for what they issued before; the others queue it (R48, R85, 09 R173, 15
R254). -/
def execPostTail (e : Eng) (c : TailClause) (s : State) : Out :=
  match e with
  | .cld => s.postCopy .cld (.postTail .cld c) c
  | .cst => s.postCopy .cst (.postTail .cst c) c
  | .fab => s.fabWord fun s => s.fabQueue (fabCmd (.postTail .fab c) s.cur (some c))
  | _ => .next ((s.mapCore fun d => { d with defPosts := d.defPosts ++
      [{ eng := e, f := c.f, n := tailCount c.n, before := d.nextId, place := s.cur }] }).complete (plainInterval e))

/-- AWAIT in tail form (R48, R86). -/
def execAwaitTail (e : Eng) (c : TailClause) (s : State) : Out :=
  if s.core.awaitReady s.who c.f (tailCount c.n) then
    .next (((s.mapCore fun d => d.takeFlag c.f (tailCount c.n)).awaitShows s.who).complete (plainInterval e))
  else .next (s.waiting .external)

/-- A word that is nothing but an await. -/
def isAwait (i : Instr) : Bool :=
  match i with
  | .await .. | .awaitTail .. => true
  | _ => false

/-- AWAIT_SUCCESS: a sequencer's waiting await finds its count: an AWAIT word completes, any other word may go on (R46, R86, R87). -/
def execEvAwaitSuccess (e : Eng) (s : State) : Out :=
  match s.standAt e with
  | none => .next s
  | some (i, t) =>
    match (s.core.seqs.get e).awaiting with
    | none => .next s
    | some (f, n) =>
      if !t.core.awaitReady e f n || t.core.halt != .run || t.core.heldByOthers e then .next s
      else
        let t1 := (t.mapCore fun d => d.takeFlag f n).awaitShows e
        if isAwait i then .next (t1.complete (plainInterval e))
        else .next (t1.mapSeq e fun q => { q with awd := true, wait := none, tried := false })

end Sys2Proof.Machine
end

