-- ==== Sys2Proof/Machine/Launch.lean ====
section
/-!
DEFINITION. Launch records, the hierarchy, reading and judging a record, completion records and vectors (02 R18 to R29, R32; 24 R351,
R352, R359, R365).
-/
namespace Sys2Proof.Machine

/-! ### Vectors and the tenant's memory as the dispatcher reaches it -/

/-- A vector raised: its pending bit is set, and an interrupt message is sent when it was clear (24 R365, 27 R392). -/
def Device.raise (d : Device) (t : BitVec 5) (v : Nat) : Device :=
  let d1 := d.mapTenant t fun x => { x with ipend := x.ipend ||| (1#16 <<< v) }
  if (d.tenant t).ipend.getLsbD v then d1 else { d1 with irqs := d1.irqs ++ [(t, BitVec.ofNat 4 v)] }
/-- An event of the log: kind and detail (27 R394). -/
def eventWord (kind detail : Nat) : W64 := BitVec.ofNat 64 (fld kind 56 + detail % 2 ^ 56)

/-- A byte of a tenant's space on this module: the window of its own rank leads back into its space, another module's does not (25 R380 to R384;
log 7). -/
def State.place (s : State) (t : BitVec 5) (own : Option Nat) (va : Nat) (w : Want) : Option (Nat × Option (BitVec 512)) :=
  match s.leaf t va w with
  | .error _ => none
  | .ok x =>
    if !isWindow x.1 then some x
    else if own != some ((x.1 - windowBase) / 2 ^ 40) then none
    else match s.leaf t ((x.1 - windowBase) % 2 ^ 40) w with
      | .ok y => if isWindow y.1 then none else some y
      | .error _ => none
/-- A range of a tenant's space, page by page: physical address, key and length, or none where some byte may not be accessed here. -/
def State.virtPieces (s : State) (t : BitVec 5) (own : Option Nat) (va n : Nat) (w : Want) : Option (List (Nat × Option (BitVec 512) × Nat)) :=
  if 2 ^ 52 < va + n then none
  else if n = 0 then some []
  else
    let pages := (List.range ((va + n - 1) / 65536 + 1 - va / 65536)).map (· + va / 65536)
    pages.mapM fun p =>
      let a := max va (p * 65536)
      let b := min (va + n) ((p + 1) * 65536)
      (s.place t own a w).map fun x => (x.1, x.2, b - a)
/-- Bytes of a tenant's space; damaged memory is unreadable (25 R385). -/
def State.readVirt (s : State) (t : BitVec 5) (own : Option Nat) (va n : Nat) : Option (List Byte) :=
  match s.virtPieces t own va n .rd with
  | none => none
  | some ps => if ps.any fun p => s.badMem p.1 p.2.2 then none else some (ps.flatMap fun p => s.readPhys p.2.1 p.1 p.2.2)
/-- Bytes written to some pieces. -/
def State.writePieces (s : State) (bs : List Byte) : List (Nat × Option (BitVec 512) × Nat) → State
  | [] => s
  | p :: r => (s.writePhys p.2.1 p.1 (bs.take p.2.2)).writePieces (bs.drop p.2.2) r
/-- Bytes written to a tenant's space whole, or not at all. -/
def State.writeVirt (s : State) (t : BitVec 5) (own : Option Nat) (va : Nat) (bs : List Byte) : Option State :=
  (s.virtPieces t own va bs.length .wr).map (s.writePieces bs)

/-! ### The record (R18 to R21) -/

/-- A little-endian field of bytes. -/
def leAt (bs : List Byte) (off n : Nat) : Nat := leNat ((bs.drop off).take n)
/-- A field of the record (R18). -/
def Launch.num (l : Launch) (off n : Nat) : Nat := leAt l.raw off n
/-- A bit of MODES (R19). -/
def Launch.mode (l : Launch) (b : Nat) : Bool := l.num 3 1 / 2 ^ b % 2 == 1
/-- NLVL. -/
def Launch.nlvl (l : Launch) : Nat := l.num 2 1
/-- A level descriptor (R20). -/
def Launch.lvl (l : Launch) (k : Nat) : Nat := l.num (0x40 + 8 * k) 8
/-- COUNT of a level. -/
def Launch.count (l : Launch) (k : Nat) : Nat := l.lvl k % 2 ^ 32
/-- DOM of a level. -/
def Launch.dom (l : Launch) (k : Nat) : Nat := l.lvl k / 2 ^ 32 % 8
/-- SCOPE of a level. -/
def Launch.scope (l : Launch) (k : Nat) : Nat := l.lvl k / 2 ^ 36 % 8
/-- The product of some counts. -/
def Launch.counts (l : Launch) (ks : List Nat) : Nat := ks.foldl (fun n k => n * l.count k) 1
/-- The size of a level's instance. -/
def Launch.size (l : Launch) (k : Nat) : Nat := l.counts (List.range k)
/-- The gang level; 0 where no level is wider than CORE (R23). -/
def Launch.gang (l : Launch) : Nat := (((List.range l.nlvl).filter fun k => l.dom k != 0).getLast?).getD 0
/-- The number of gangs. -/
def Launch.gangs (l : Launch) : Nat := l.counts ((List.range l.nlvl).drop l.gang)
/-- CHRT. -/
def Launch.chrt (l : Launch) : Bool := l.mode 5
/-- NCHART. -/
def Launch.nchart (l : Launch) : Nat := l.num 0x30 2
/-- NRANKS (R32). -/
def Launch.nranks (l : Launch) : Nat := if l.chrt then l.nchart else 1
/-- COMPL with its low bits taken as zero (R29). -/
def Launch.compl (l : Launch) : Nat := l.num 0x38 8 / 16 * 16
/-- lvlidx of a task (R21). -/
def Launch.lvlidx (l : Launch) (g k : Nat) : Nat := if k < l.nlvl then g / l.size k % l.count k else 0
/-- LVLCNT (R21). -/
def Launch.lvlcnt (l : Launch) (k : Nat) : Nat := if k < l.nlvl then l.count k else 1
/-- The indices of level NLVL − 2 that a rank runs (R32). -/
def Launch.share (l : Launch) (r : Nat) : Nat × Nat :=
  let n := l.count (l.nlvl - 2)
  (r * n / l.nchart, (r + 1) * n / l.nchart)
/-- The first task of a gang on a rank, and their number (R23, R32). -/
def Launch.gangRange (l : Launch) (r n : Nat) : Nat × Nat :=
  if l.chrt then
    let sh := l.share r
    (n * l.size (l.nlvl - 1) + sh.1 * l.size (l.nlvl - 2), (sh.2 - sh.1) * l.size (l.nlvl - 2))
  else (n * l.size l.gang, l.size l.gang)
/-- The tasks of a gang on a rank. -/
def Launch.gangTasks (l : Launch) (r n : Nat) : List Nat :=
  let x := l.gangRange r n
  (List.range x.2).map (· + x.1)
/-- Tmax of R359: the most tasks the launch can have on the module. -/
def Launch.tmax (l : Launch) (r : Nat) : Nat := min 128 (l.gangs * (l.gangRange r 0).2)
/-- The gang that a task belongs to (R23). -/
def Launch.gangOf (l : Launch) (g : Nat) : Nat := g / l.size (if l.chrt then l.nlvl - 1 else l.gang)
/-- Rank of a module in the chart (R32); 0 without one. -/
def Launch.rankOf (l : Launch) (modid : W64) : Nat :=
  if l.chrt then (l.chart.findIdx? fun e => e.any fun x => leAt x 0 8 == modid.toNat).getD 0 else 0

/-! ### Judging (R29) -/

/-- LEVELS. -/
def Launch.badLevels (l : Launch) : Bool :=
  decide (l.nlvl < 1 ∨ 8 < l.nlvl) || l.dom 0 != 0 ||
    (List.range l.nlvl).any fun k =>
      decide (l.count k = 0 ∨ 4 < l.dom k ∨ 4 < l.scope k ∨ l.scope k < l.dom k ∨ (0 < k ∧ l.dom k < l.dom (k - 1)))
/-- Capacity of a unit of a domain (R22). -/
def Launch.capacity (l : Launch) (d : Nat) : Nat :=
  match d with
  | 0 => 1 | 1 => 8 | 2 => 64 | 3 => 128
  | _ => if l.chrt then 128 * l.nchart else 128
/-- FIT, but for the save region, which the admission checks (24 R359). -/
def Launch.badFit (l : Launch) : Bool :=
  ((List.range l.nlvl).any fun k => decide (l.capacity (l.dom k) < l.size k)) ||
    (l.chrt && decide (2 ≤ l.nlvl) && (List.range l.nchart).any fun r => decide (128 < (l.gangRange r 0).2))
/-- TEXT. -/
def Launch.badText (l : Launch) : Bool :=
  let n := l.num 0x10 4
  decide (l.num 8 8 % 64 ≠ 0 ∨ n < 1 ∨ 2 ^ 24 < n ∨ n ≤ l.num 0x14 4)
/-- A bad entry of the image table (R25). -/
def badImage (e : List Byte) : Bool :=
  let src := leAt e 0 8
  let dst := leAt e 8 8
  let len := leAt e 0x10 4
  let kind := leAt e 0x14 1
  decide (2 < kind ∨ src % 64 ≠ 0 ∨ dst % 64 ≠ 0 ∨ len % 64 ≠ 0 ∨ len < 64 ∨ 2 ^ 23 < len ∨ (kind ≠ 0 ∧ 0x800000 < dst + len)) ||
    leAt e 0x15 11 != 0
/-- IMAGE. -/
def Launch.badImages (l : Launch) : Bool :=
  let n := l.num 0x20 2
  let t := l.num 0x18 8
  decide (256 < n ∨ (0 < n ∧ (t = 0 ∨ t % 32 ≠ 0))) || l.images.any fun e => e.any badImage
/-- MODES. -/
def Launch.badModes (l : Launch) : Bool := (l.mode 0 && !l.mode 1) || (l.mode 4 && l.gangs != 1)
/-- CHART: the rules of R32. A module absent from entries that were all read, or there twice; NCHART without CHRT. -/
def Launch.badChart (l : Launch) (modid : W64) : Bool :=
  let n := l.nchart
  if !l.chrt then n != 0
  else
    let own := l.chart.filter fun e => e.any fun x => leAt x 0 8 == modid.toNat
    decide (n < 2 ∨ 256 < n ∨ l.num 0x28 8 % 16 ≠ 0 ∨ l.nlvl < 2 ∨ l.dom (l.nlvl - 1) ≠ 4 ∨ 3 < l.dom (l.nlvl - 2) ∨
      l.count (l.nlvl - 2) < n ∨ 1 < own.length ∨ (own = [] ∧ l.chart.all Option.isSome)) ||
      l.chart.any fun e => e.any fun x => decide (leAt x 8 1 < 1 ∨ 24 < leAt x 8 1 ∨ leAt x 9 7 ≠ 0)
/-- RESERVED. -/
def Launch.badReserved (l : Launch) : Bool :=
  l.mode 7 || decide (l.num 6 1 / 16 % 8 ≠ 0 ∨ l.num 7 1 ≠ 0 ∨ l.num 0x22 6 ≠ 0 ∨ l.num 0x32 6 ≠ 0 ∨ l.num 0xC0 64 ≠ 0 ∨
    1024 < l.num 4 2) ||
    (List.range 8).any fun k =>
      if k < l.nlvl then decide (l.lvl k / 2 ^ 39 ≠ 0 ∨ l.lvl k / 2 ^ 35 % 2 ≠ 0) else l.lvl k != 0
/-- The tasks of a rank as ranges: first task and number. -/
def Launch.ownRanges (l : Launch) (r : Nat) : List (Nat × Nat) :=
  if l.chrt then (List.range l.gangs).map (l.gangRange r) else [(0, l.size l.nlvl)]
/-- This module's rank for a launch with a chart. -/
def State.ownIn (s : State) (l : Launch) : Option Nat := if l.chrt then some (l.rankOf s.dev.modid) else none
/-- An address that lies in the window of another module of the launch: its rank and the offset there (25 R380). -/
def State.farPlace (s : State) (t : BitVec 5) (l : Launch) (va : Nat) (w : Want) : Option (Nat × Nat) :=
  match s.leaf t va w with
  | .ok (pa, _) =>
    let r := (pa - windowBase) / 2 ^ 40
    if isWindow pa && decide (r < l.nranks) && s.ownIn l != some r then some (r, (pa - windowBase) % 2 ^ 40) else none
  | .error _ => none
/-- PAGE: an entry that could not be read, or an address that could not be translated or is not permitted: text, images, COMPL. -/
def State.badPages (s : State) (t : BitVec 5) (l : Launch) : Bool :=
  let ok (va n : Nat) (w : Want) : Bool := (s.virtPieces t (s.ownIn l) va n w).isSome
  let r := l.rankOf s.dev.modid
  let far (va n : Nat) (w : Want) : Bool := ((List.range ((va + n - 1) / 65536 + 1 - va / 65536)).map (· + va / 65536)).all fun p =>
    let a := max va (p * 65536)
    (s.place t (s.ownIn l) a w).isSome || (s.farPlace t l a w).isSome
  l.images.any Option.isNone || l.chart.any Option.isNone || !far (l.num 8 8) (64 * l.num 0x10 4) .fetch || !far l.compl 16 .wr ||
    l.images.any fun e => e.any fun x =>
      let src := leAt x 0 8
      let len := leAt x 0x10 4
      match leAt x 0x14 1 with
      | 0 => !ok src len .rd || !ok (leAt x 8 8) len .wr
      | 1 => !ok src len .rd
      | _ => (l.ownRanges r).any fun g => !ok (src + g.1 * len) (g.2 * len) .rd
/-- The first reason of R29's table that applies; PAGE only when everything read is sound, so after COMPL. -/
def State.judge (s : State) (t : BitVec 5) (l : Launch) : Option Nat :=
  let first (cs : List (Bool × Nat)) : Option Nat := (cs.find? Prod.fst).map Prod.snd
  first [(l.num 0 2 != 1, 0x01), (l.badLevels, 0x02), (l.badFit, 0x03), (l.badText, 0x04), (l.badImages, 0x05), (l.badModes, 0x06),
    (l.badChart s.dev.modid, 0x07), (l.badReserved, 0x08), (l.num 0x38 8 % 16 != 0, 0x0A), (s.badPages t l, 0x09)]

/-- The record at an address, its image table and its chart read once, and judged (R29, 24 R352). An unreadable record has no bytes. -/
def State.readLaunch (s : State) (t : BitVec 5) (va : Nat) : Launch :=
  match s.readVirt t none va 256 with
  | none => { raw := [], images := [], chart := [], reject := none }
  | some raw =>
    let l : Launch := { raw := raw, images := [], chart := [], reject := none }
    let entries (base size n : Nat) : List (Option (List Byte)) := (List.range (min n 256)).map fun k => s.readVirt t none (base + size * k) size
    let l1 : Launch := { l with images := entries (l.num 0x18 8) 32 (l.num 0x20 2),
                                chart := if l.chrt then entries (l.num 0x28 8) 16 l.nchart else [] }
    { l1 with reject := s.judge t l1 }

/-! ### Completion records (R27 to R29) -/

/-- A release of the device over 8 bytes (27 R393). -/
def State.deviceRelease (s : State) (pa : Nat) : State := s.mapDev fun d => d.setMark pa 8 [(.host, .device)]
/-- The completion record written and released, or event 6; then IVEC's vector, or another where one is given (R27, 25 R377). -/
def State.writeCompletion (s : State) (q : BitVec 9) (t : BitVec 5) (l : Launch) (status detail tasks : Nat) (other : Option Nat) :
    State :=
  let bs := leBytes 4 status ++ leBytes 4 detail ++ leBytes 8 tasks
  let s1 := match s.virtPieces t (s.ownIn l) l.compl 16 .wr, s.farPlace t l l.compl .wr with
    | some ps, _ =>
      let pa := (ps.head?.map Prod.fst).getD 0
      ((s.writePieces bs ps).deviceRelease pa).deviceRelease (pa + 8)
    | none, some (r, off) => s.mapDev fun d => { d with outbox := d.outbox ++
        [{ rank := r, launch := l.raw, tenant := t, core := 255, port := .ctl, text := false, kind := .write [(off, bs)] [.device] }] }
    | none, none => s.mapDev fun d => d.logEvent (eventWord 6 (q.toNat + fld t.toNat 32 + 2 ^ 40))
  let iv := l.num 6 1
  if 128 ≤ iv then s1.mapDev fun d => d.raise t (iv % 16)
  else match other with
    | some v => s1.mapDev fun d => d.raise t v
    | none => s1

/-- A message of a launch to the other modules of its chart (R28, R30, R32). -/
def State.tellLaunch (s : State) (t : BitVec 5) (l : Launch) (rank : Option Nat) (m : LaunchMsg) : State :=
  let rs := (List.range l.chart.length).filter fun r => some r != rank && (l.chart.getD r none).isSome
  let ms : List LinkMsg := rs.map fun r =>
    { rank := r, launch := l.raw, tenant := t, core := 0, port := .ctl, text := false, kind := .launch l.raw m }
  s.mapDev fun d => { d with outbox := d.outbox ++ ms }

/-! ### Queues (24 R351, R352) -/

/-- A launch queue. -/
def Device.queue (d : Device) (q : BitVec 9) : LQueue := d.queues.getD q.toNat LQueue.reset
/-- A launch queue changed. -/
def State.mapQueue (s : State) (q : BitVec 9) (f : LQueue → LQueue) : State :=
  s.mapDev fun d => { d with queues := modAt d.queues q.toNat f }
/-- The queue is served: its EN and its tenant's (R351). -/
def Device.served (d : Device) (q : BitVec 9) : Bool := (d.queue q).en && (d.tenant (d.queue q).tenant).en
/-- HEAD advances past the record at the head, and the device writes it (R352). -/
def State.popHead (s : State) (q : BitVec 9) (prev : Option W16) : State :=
  let s1 := s.mapQueue q fun x => { x with cache := dropHead x.cache, head := x.head + 1, prev := prev }
  s1.writePhys none (s1.dev.qtab.toNat + 32 * q.toNat + 0x10) (leBytes 4 (s1.dev.queue q).head.toNat)
/-- A record rejected: its completion record, the abort of a chart launch, and the queue moves on (R28, R29, R32). -/
def State.rejectHead (s : State) (q : BitVec 9) (l : Launch) (reason : Nat) (tell : Bool) : State :=
  let t := (s.dev.queue q).tenant
  let s1 := s.writeCompletion q t l 1 reason 0 none
  let own := l.chart.findIdx? fun e => e.any fun x => leAt x 0 8 == s.dev.modid.toNat
  (if tell then s1.tellLaunch t l own .abort else s1).popHead q none
/-- The mark of a record rejected on another module's abort: CHART, and no abort is sent on (R28). -/
def aborted : Nat := 0x107
/-- Records at the head that are unreadable or to be rejected leave the queue, one after another (R29, R352). -/
def State.settleQueue (s : State) (q : BitVec 9) : Nat → State
  | 0 => s
  | n + 1 =>
    let x := s.dev.queue q
    match x.cache with
    | (l, none) :: _ =>
      if l.raw = [] then
        let s1 := s.mapDev fun d => d.logEvent (eventWord 6 (q.toNat + fld x.tenant.toNat 32))
        (s1.popHead q none).settleQueue q n
      else match l.reject with
        | some r => (s.rejectHead q l (r % 256) (r != aborted)).settleQueue q n
        | none => s
    | _ => s
/-- The records that the queue holds: from HEAD up to TAIL; a TAIL beyond the ring reads as an empty queue (R352). -/
def LQueue.holds (x : LQueue) : Nat := let n := (x.tail - x.head).toNat; if x.broken ∨ 2 ^ x.log2n < n then 0 else n
/-- TAIL covers a record not yet read (R352). -/
def LQueue.covered (x : LQueue) : Bool := decide ((x.taken - x.head).toNat < x.holds)

/-- LAUNCH_RECORD_READ: the next record is read once, and checked (R352, R29). -/
def execEvLaunchRecordRead (q : BitVec 9) (s : State) : Out :=
  let x := s.dev.queue q
  if !s.dev.served q || !x.covered || decide (16 ≤ x.cache.length) then .next s
  else
    let l := s.readLaunch x.tenant (x.base + 256 * (x.taken.toNat % 2 ^ x.log2n))
    .next ((s.mapQueue q fun y => { y with cache := y.cache ++ [(l, none)], taken := y.taken + 1 }).settleQueue q 17)

/-- An entry of the queue table in range (R351). The bit EN is CTL's lowest. -/
def queueEntryOk (e : List Byte) : Bool :=
  decide (leAt e 0 8 % 256 = 0 ∧ 4 ≤ leAt e 8 1 ∧ leAt e 8 1 ≤ 16 ∧ leAt e 9 1 ≤ 3 ∧ 1 ≤ leAt e 10 2 ∧ leAt e 10 2 ≤ 1000 ∧
    leAt e 12 1 ≤ 31 ∧ leAt e 13 1 < 2 ∧ leAt e 14 2 = 0 ∧ leAt e 0x14 12 = 0)
/-- QUEUE_ENABLE: the device takes up a change of the entry's EN, and reads the entry when it becomes 1; while it stays 1 the rest is ignored.
The same values set again keep the queue's records (R351). -/
def execEvQueueEnable (q : BitVec 9) (s : State) : Out :=
  let e := s.readPhys none (s.dev.qtab.toNat + 32 * q.toNat) 32
  let x := s.dev.queue q
  let bit := leAt e 13 1 % 2 == 1
  let en := bit && (x.en || queueEntryOk e)
  if en == x.en then .next s
  else if !en then .next (s.mapQueue q fun y => { y with en := false })
  else
    let h : W32 := BitVec.ofNat 32 (leAt e 0x10 4)
    let y : LQueue := { x with en := true, base := leAt e 0 8, log2n := leAt e 8 1, cls := leAt e 9 1, weight := leAt e 10 2,
                               tenant := BitVec.ofNat 5 (leAt e 12 1), head := h, broken := false }
    if y = { x with en := true } then .next (s.mapQueue q fun _ => y)
    else .next (s.mapQueue q fun _ => { y with cache := [], taken := h, prev := none })

end Sys2Proof.Machine
end

