-- ==== Sys2Proof/Machine/Sched.lean ====
section
/-!
DEFINITION. The dispatcher: placement, classes, slices and grants, admission, the stop and the end of contexts (02 R22 to R28, R32; 23
R345 to R348; 24 R353 to R357, R363, R366, R367; 25 R377).
-/
namespace Sys2Proof.Machine

/-! ### Cores and placement (R22, R23, 24 R363) -/

/-- A context changed. -/
def Device.mapCtx (d : Device) (id : W16) (f : Ctx → Ctx) : Device :=
  { d with ctxs := d.ctxs.map fun c => if c.id == id then f c else c }
/-- Cores without a task. -/
def State.freeCores (s : State) : List Nat := (List.range 128).filter fun n => (s.coreAt n).task.isNone
/-- Cores that hold a context's tasks. -/
def State.ctxCores (s : State) (id : W16) : List (Nat × Core) := s.tasked.filter fun c => c.2.task.map Task.ctx == some id
/-- A core whose task has left it: nothing runs or is in flight there, its drawers are released and its almanac is empty. What its registers
and storage hold stays until an incoming context clears it (13 R220, 16 R280, 24 R366). -/
def Core.vacate (c : Core) : Core :=
  { c with task := none, halt := .run, aside := none, escal := none, pend := [], flights := [], defPosts := [], cld := [], cst := [],
           loads := [], stores := [], replies := PerEng.all .none, freplies := PerEng.all .none, fences := [], claimed := 0, feet := [],
           fabric := { c.fabric with openPh := none, pendBinds := [], instBinds := [], queue := [], phase := none, parked := [], endRec := none, far := [], asker := 0 },
           rules := List.replicate 32 none, recs := List.replicate 32 OpenRec.reset, bindings := [], arrived := none, draining := false }
/-- A core's task leaves it; what it might not have seen of others' writes has no reader any more. -/
def State.vacateCore (s : State) (n : Nat) : State :=
  (s.setCoreAt n (s.coreAt n).vacate).mapDev fun d => { d with stale := d.stale.filter fun r => r.core != n }
/-- A core back at its reset values, its scratchpad zero, before an incoming context runs on it; damaged storage stays damaged (24 R366, 02
R25; log 17). -/
def State.freeCore (s : State) (n : Nat) : State :=
  let lo := spadKey n 0
  let hi := spadKey (n + 1) 0
  let s1 := s.setCoreAt n { Core.reset with bad := (s.coreAt n).bad }
  { s1 with spad := clearRange s1.spad lo hi, dev := s1.dev.overwrite true lo spadSize }
/-- The unit of a domain that a core lies in (R22). -/
def unitOf (d c : Nat) : Nat :=
  match d with
  | 0 => c
  | 1 => c / 8
  | 2 => c / 64
  | _ => 0
/-- Tasks on cores as R22 asks: every level's instance within one unit of its domain. -/
def Launch.placeOk (l : Launch) (gs cores : List Nat) : Bool :=
  let ps := gs.zip cores
  decide (gs.length = cores.length) && decide cores.Nodup && cores.all (fun c => decide (c < 128)) &&
    (List.range l.nlvl).all fun k => ps.all fun x => ps.all fun y =>
      x.1 / l.size k != y.1 / l.size k || unitOf (l.dom k) x.2 == unitOf (l.dom k) y.2
/-- The outermost level bound to a domain. -/
def Launch.domLevel (l : Launch) (d : Nat) : Option Nat := ((List.range l.nlvl).filter fun k => l.dom k == d).getLast?
/-- The size of that level's instance, or a value where there is none. -/
def Launch.domSize (l : Launch) (d n : Nat) : Nat :=
  match l.domLevel d with
  | some k => l.size k
  | none => n
/-- A gang of `n` tasks fits some free cores: counted in instances bound to clusters, then in instances bound to dies (24 R353). -/
def Launch.fits (l : Launch) (n : Nat) (free : List Nat) : Bool :=
  let mc := l.domSize 1 1
  let md := l.domSize 2 mc
  let cluster (k : Nat) : Nat := (free.filter fun c => c / 8 == k).length / mc
  let die (d : Nat) : Nat := ((List.range 8).map fun k => cluster (8 * d + k)).sum / (md / mc)
  decide (n ≤ (die 0 + die 1) * md)

/-- Tasks of a saved context that return together, with their old cores: the instances bound to a cluster, else each by itself; and the
instance bound to a die that they belong to. -/
def Ctx.backGroups (x : Ctx) : List (Option Nat × List Nat) :=
  let l := x.launch
  let mc := l.domSize 1 1
  let die (g : Nat) : Option Nat := (l.domLevel 2).map fun k => g / l.size k
  ((x.saved.map fun v => v.g / mc).dedup).map fun k =>
    let vs := x.saved.filter fun v => v.g / mc == k
    (die (k * mc), vs.map Saved.core)
/-- Where a group may return: its index within the cluster is kept where it is bound to one (24 R363). -/
def Ctx.backOptions (x : Ctx) (old : List Nat) : List (List Nat) :=
  if (x.launch.domLevel 1).isSome then (List.range 16).map fun k => old.map fun c => 8 * k + c % 8
  else (List.range 128).map fun c => [c]
/-- Groups placed one after another on free cores, each die-bound instance in one die. -/
def placeable : List (Option Nat × List (List Nat)) → List Nat → List (Nat × Nat) → Bool
  | [], _, _ => true
  | (d, opts) :: r, free, dies => opts.any fun cs =>
      let die := cs.headD 0 / 64
      cs.all free.contains && (match d with
        | none => placeable r (free.filter fun c => !cs.contains c) dies
        | some k => ((dies.find? fun y => y.1 == k).all fun y => y.2 == die) &&
            placeable r (free.filter fun c => !cs.contains c) ((k, die) :: dies))
/-- A saved context's tasks fit some free cores. -/
def Ctx.fitsBack (x : Ctx) (free : List Nat) : Bool := placeable (x.backGroups.map fun g => (g.1, x.backOptions g.2)) free []
/-- Cores, one for each saved task in order, are a place to return to (24 R363). -/
def Ctx.backOk (x : Ctx) (cores : List Nat) : Bool :=
  x.launch.placeOk (x.saved.map Saved.g) cores &&
    ((x.launch.domLevel 1).isNone || (x.saved.zip cores).all fun p => p.1.core % 8 == p.2 % 8)

/-! ### Energy (23 R345 to R348) -/

/-- EREFILL of a launch (R345). -/
def Device.erefill (d : Device) (t : BitVec 5) (l : Launch) : Nat :=
  (if l.num 4 2 = 0 then (d.tenant t).dshare.toNat else l.num 4 2) * 256
/-- Contexts that hold cores. -/
def Device.resident (d : Device) : List Ctx := d.ctxs.filter fun x => x.st == .resident || x.st == .stopping
/-- The sum of the EREFILL values of the resident contexts of a kind. -/
def Device.refillSum (d : Device) (det : Bool) : Nat := ((d.resident.filter fun x => x.launch.mode 0 == det).map Ctx.erefill).sum
/-- The module grant (R348). -/
def Device.moduleGrant (d : Device) : Nat := if d.thermal.getD 0 false then 131072 else 262144
/-- What a refill gives a context (R348). -/
def Device.granting (d : Device) (x : Ctx) : Nat :=
  let r := d.moduleGrant - d.refillSum true
  let sum := d.refillSum false
  if x.launch.mode 0 || decide (sum ≤ r) then x.erefill else x.erefill * r / sum
/-- A task's share of EREFILL in deterministic mode (R347). -/
def Ctx.detShare (x : Ctx) (g : Nat) : Nat :=
  let t := max 1 (x.launch.tmax x.rank)
  x.erefill / t + if g = (x.launch.gangRange x.rank 0).1 then x.erefill % t else 0

/-! ### What queues want (24 R353 to R356) -/

/-- What a queue would place next. -/
inductive Need where
  | none
  | back (x : Ctx)
  | more (x : Ctx)
  | first (l : Launch)
deriving DecidableEq, Repr

/-- A context by its identifier. -/
def Device.ctx? (d : Device) (id : W16) : Option Ctx := d.ctxs.find? fun x => x.id == id
/-- What a queue would place next: a saved context, a further gang, or the first gang of its head record (R352, R353; 02 R19, R32). -/
def State.need (s : State) (q : BitVec 9) : Need :=
  let x := s.dev.queue q
  match s.dev.ctxs.find? fun c => c.queue == q && c.st == .saved with
  | some c => .back c
  | none =>
    match x.cache with
    | (_, some id) :: _ => match s.dev.ctx? id with
      | some c => if c.st == .resident then .more c else .none
      | none => .none
    | (l, none) :: _ =>
      let before := x.prev.any fun id => (s.dev.ctx? id).isSome
      if !s.dev.served q || x.holds == 0 || l.raw == [] || l.reject.isSome || (l.mode 6 && before) then .none
      else .first l
    | [] => .none
/-- Context slots that no context holds. -/
def Device.freeSlots (d : Device) : List Nat := (List.range 64).filter fun n => d.ctxs.all fun x => x.slot != some (BitVec.ofNat 6 n)
/-- What a queue wants fits some free cores, with a slot for a first gang (R353). -/
def State.coresFit (s : State) (n : Need) (free : List Nat) : Bool :=
  match n with
  | .none => false
  | .back x => x.fitsBack free
  | .more x => x.launch.fits (x.launch.gangRange x.rank 0).2 free
  | .first l => l.fits (l.gangRange (l.rankOf s.dev.modid) 0).2 free && !s.dev.freeSlots.isEmpty
/-- A first gang in deterministic mode finds room in the module's grant (23 R348). -/
def State.energyFits (s : State) (q : BitVec 9) (n : Need) : Bool :=
  match n with
  | .first l => !(l.mode 0 && decide (262144 < s.dev.refillSum true + s.dev.erefill (s.dev.queue q).tenant l))
  | _ => true
/-- What a queue wants may be placed on some free cores. -/
def State.needFits (s : State) (q : BitVec 9) (free : List Nat) : Bool := s.coresFit (s.need q) free && s.energyFits q (s.need q)
/-- A queue is waiting (R353): a context of it is saved, or holds cores with a gang to come, or its head record's first gang does not fit. -/
def State.isWaiting (s : State) (q : BitVec 9) : Bool :=
  let x := s.dev.queue q
  (s.dev.ctxs.any fun c => c.queue == q && (c.st == .saved || ((c.st == .resident || c.st == .stopping) && decide (c.gangs < c.launch.gangs)))) ||
    (s.dev.served q && x.holds != 0 && match x.cache with
      | (l, none) :: _ => l.raw != [] && l.reject.isNone && !(s.coresFit (.first l) s.freeCores && s.energyFits q (.first l))
      | _ => false)
/-- A queue is running (R353). -/
def State.isRunning (s : State) (q : BitVec 9) : Bool := s.dev.resident.any fun x => x.queue == q
/-- A queue's class; after a wait of 10 ms it counts as class 0 for its next slice (R354). -/
def State.classOf (s : State) (q : BitVec 9) : Nat := if (s.dev.queue q).guarded then 0 else (s.dev.queue q).cls
/-- Every queue. -/
def allQueues : List (BitVec 9) := (List.range 512).map fun n => BitVec.ofNat 9 n
/-- The place of a queue in its class's order from the grant pointer on (R356). -/
def State.grantOrder (s : State) (q : BitVec 9) : Nat := (q - s.dev.grant.getD (s.classOf q) 511 - 1).toNat

/-- QUEUE_GRANT: the first queue in class and pointer order whose gang fits takes the grant; a queue that starts running has a new slice
(R354, R356). -/
def execEvQueueGrant (q : BitVec 9) (s : State) : Out :=
  let free := s.freeCores
  let ready (r : BitVec 9) : Bool := s.needFits r free
  let ahead (r : BitVec 9) : Bool :=
    decide (s.classOf r < s.classOf q) || (s.classOf r == s.classOf q && decide (s.grantOrder r < s.grantOrder q))
  if !ready q || (allQueues.any fun r => ready r && ahead r) || s.dev.granted.any ready then .next s
  else
    let s1 := s.mapDev fun d => { d with grant := d.grant.set (s.classOf q) q, granted := some q }
    .next (if s.isRunning q then s1 else s1.mapQueue q fun x => { x with sliceEnd := false })
/-- SLICE_EXPIRY: a queue of the same or a higher class waits, or a new slice begins (R354). -/
def execEvSliceExpiry (q : BitVec 9) (s : State) : Out :=
  if !s.isRunning q then .next s
  else
    let wanted := allQueues.any fun r => r != q && s.isWaiting r && decide (s.classOf r ≤ s.classOf q)
    .next ((s.mapQueue q fun x => { x with sliceEnd := wanted, guarded := false, ended := if wanted then s.dev.born else x.ended }).mapDev
      fun d => { d with born := d.born + 1 })
/-- WAIT_GUARD_EXPIRY: a queue has waited 10 ms without running (R354). -/
def execEvWaitGuardExpiry (q : BitVec 9) (s : State) : Out :=
  if s.isWaiting q && !s.isRunning q then .next (s.mapQueue q fun x => { x with guarded := true }) else .next s

/-! ### Ends of contexts (02 R27, R28; 24 R367; 25 R377) -/

/-- A command of CTXCMD is complete (27 R392). -/
def Device.ctxcmdDone (d : Device) (op : Nat) (id : W16) : Device :=
  if d.ctxcmd.toNat / 2 ^ 63 = 1 ∧ d.ctxcmd.toNat / 2 ^ 16 % 4 = op ∧ d.ctxcmd.toNat % 2 ^ 16 = id.toNat then
    { d with ctxcmd := d.ctxcmd &&& ~~~(1#64 <<< 63) }
  else d
/-- A context ends: its tasks' stream ends are dropped, its cores and slot freed, its completion record written; a record not wholly
admitted leaves its queue (R27, R352). -/
def State.endCtx (s : State) (x : Ctx) (status detail : Nat) (other : Option Nat) : State :=
  let s1 := (s.ctxCores x.id).foldl (fun (t : State) c => (t.dropTaskEnds x.id c.1).vacateCore c.1) s
  let s2 := x.saved.foldl (fun (t : State) v => t.dropTaskEnds x.id v.core) s1
  let s3 := s2.writeCompletion x.queue x.tenant x.launch status detail x.ended other
  let s4 := s3.mapDev fun d =>
    { ((d.ctxcmdDone 1 x.id).ctxcmdDone 2 x.id) with ctxs := d.ctxs.filter fun y => y.id != x.id }
  match (s4.dev.queue x.queue).cache with
  | (_, some id) :: _ => if id = x.id then (s4.popHead x.queue none).settleQueue x.queue 17 else s4
  | _ => s4

/-- Why a context stops, a second reason joined: an escalation or a kill under way stays, and either replaces a pre-emption. -/
def joinWhy (old : Option StopWhy) (new : StopWhy) : StopWhy :=
  match old with
  | none | some .preempt => new
  | some w => w
/-- The end of a context stopped for good. -/
def State.finishStop (s : State) (x : Ctx) : State :=
  match x.stop with
  | some (.escalate c _) => s.endCtx x 2 c.toNat (some 15)
  | some .kill => s.endCtx x 3 0 none
  | _ => s
/-- A request to stop a context: its tasks stop at once, but for one in its handler, which waits for ERET; a saved context that is killed
or stopped by an escalation ends where it is (R357, R367, R377). -/
def State.stopCtx (s : State) (id : W16) (why : StopWhy) : State :=
  match s.dev.ctx? id with
  | none => s
  | some x =>
    let w := joinWhy x.stop why
    match x.st with
    | .resident | .stopping =>
      let s1 := s.mapDev fun d => d.mapCtx id fun y => { y with st := .stopping, stop := some w }
      s1.mapCores fun _ c =>
        if c.task.map Task.ctx == some id && c.halt == .run && c.aside.isNone then { c with halt := .stopping } else c
    | .saved => s.finishStop { x with stop := some w }
    | _ => s

/-- Nothing of the core is in the middle of an access: it may stand still. In deterministic mode outstanding loads and stores keep what is left
of their time (23 R342; log 85). -/
def Core.atRest (c : Core) : Bool :=
  (engs.all fun e => c.replies.get e != .asked && c.freplies.get e != .asked) &&
    (c.det || (c.loads.isEmpty && (c.stores.isEmpty || !c.storesOpen))) && (c.cld ++ c.cst).all (fun q => q.isCred || q.sending.isNone) &&
    (c.ruleList.all fun r => r.2.inst.all fun i => !i.asking && i.sent.isEmpty) &&
    (c.bindings.all fun b => !b.asking && b.sent.isEmpty) &&
    c.fabric.phase.all (fun p => p.outs.all fun o => o.sent.isEmpty) && c.aside.all fun a => engs.all fun e => a.replies.get e != .asked
/-- A core that has stopped, a tile step of its array held for energy and a step of a reducing copy held for its turn being abandoned: words that wait will be executed again from their start (24 R357). -/
def Core.haltNow (c : Core) : Core :=
  let again (q : Seq) : Seq := { q with wait := none, tried := false, atSync := false, dec := .none }
  let drop (f : Flight) : Flight := if f.midStep then { f with work := f.work.map MatCmd.abandon } else f
  let unhold (q : CopyCmd) : CopyCmd := if q.isCred then { q with buf := [], sending := none } else q
  { c with halt := .stopped, draining := false, seqs := c.seqs.mapE fun _ q => again q, flights := c.flights.map drop,
           cst := c.cst.map unhold,
           aside := c.aside.map fun a => { a with flights := a.flights.map drop, cst := a.cst.map unhold } }

/-- PREEMPT_REQUEST: the cores of a context that has been asked to stop come to rest; a killed context ends (R357, R367). -/
def execEvPreemptRequest (ctx : W16) (s : State) : Out :=
  match s.dev.ctx? ctx with
  | none => .next s
  | some x =>
    if x.st != .stopping then .next s
    else
      let s1 := (s.ctxCores ctx).foldl (fun (t : State) c =>
        if c.2.halt == .stopping && c.2.atRest && (!(c.2.allFlights.any Flight.midStep) || (t.focus c.1).energyOut) then
          t.setCoreAt c.1 c.2.haltNow
        else t) s
      let all := (s1.ctxCores ctx).all fun c => c.2.halt == .stopped
      .next (if all && x.stop == some .kill then s1.finishStop x else s1)
/-- HANDLER_PREEMPT_TIMEOUT: after 4 us the handler is stopped where it stands (R357, 25 R376). -/
def execEvHandlerPreemptTimeout (s : State) : Out :=
  match s.ctx? with
  | some x => if x.st == .stopping && s.core.aside.isSome && s.core.halt == .run then
      .next (s.mapCore fun c => { c with halt := .stopping })
    else .next s
  | none => .next s

/-! ### Pre-emption for a waiting queue (24 R355) -/

/-- A context that a waiting queue may pre-empt (R354, R355). -/
def State.eligible (s : State) (w : BitVec 9) (x : Ctx) : Bool :=
  x.st == .resident && x.queue != w &&
    (decide (s.classOf w < s.classOf x.queue) ||
      ((s.dev.queue x.queue).sliceEnd && decide (s.classOf w ≤ s.classOf x.queue)))
/-- One victim comes before another: class, then the end of the slice, then the time of admission (R355). -/
def State.victimBefore (s : State) (x y : Ctx) : Bool :=
  let cx := s.classOf x.queue
  let cy := s.classOf y.queue
  let ex := if (s.dev.queue x.queue).sliceEnd then (s.dev.queue x.queue).ended else s.dev.born
  let ey := if (s.dev.queue y.queue).sliceEnd then (s.dev.queue y.queue).ended else s.dev.born
  decide (cy < cx ∨ (cx = cy ∧ (ex < ey ∨ (ex = ey ∧ y.born < x.born))))
/-- Cores that will be free once every context now stopping has stopped, and some more. -/
def State.freeWith (s : State) (xs : List Ctx) : List Nat :=
  (List.range 128).filter fun n =>
    match (s.coreAt n).task with
    | none => true
    | some t => (s.dev.ctx? t.ctx).any fun x => x.st == .stopping || xs.any fun y => y.id == x.id
/-- QUEUE_PREEMPT: the next victim for a waiting queue, as long as the queue's gang does not fit and would with the victims (R355). -/
def execEvQueuePreempt (w : BitVec 9) (ctx : W16) (s : State) : Out :=
  match s.dev.ctx? ctx with
  | none => .next s
  | some x =>
    let vs := s.dev.ctxs.filter fun y => s.eligible w y
    if s.isWaiting w && s.eligible w x && !(vs.any fun y => s.victimBefore y x) && !s.needFits w (s.freeWith []) &&
        s.needFits w (s.freeWith vs) then .next (s.stopCtx ctx .preempt)
    else .next s
/-- Another queue waits whose gang would fit in the free cores and those that the running task's context holds (05 R105). -/
def State.yieldTaken (s : State) : Bool :=
  match s.ctx? with
  | none => false
  | some x => x.st == .resident && allQueues.any fun q => q != x.queue && s.isWaiting q &&
      s.coresFit (s.need q) ((List.range 128).filter fun n => (s.coreAt n).task.all fun t => t.ctx == x.id)

/-! ### Admission (02 R23 to R26, R32; 24 R359) -/

/-- A task at its start (R26). -/
def Core.start (c : Core) (x : Ctx) (g : Nat) : Core :=
  let l := x.launch
  let scopes : List Scope := (List.range l.nlvl).map fun k =>
    match l.scope k with
    | 0 => .core | 1 => .cluster | 2 => .die | 3 => .device | _ => .domain
  let t : Task :=
    { ctx := x.id, g := g, tenant := x.tenant, text := l.num 8 8, tlen := l.num 0x10 4, rank := x.rank, nranks := x.nranks,
      lvlidx := (List.range 8).map (l.lvlidx g), lvlcnt := (List.range 8).map l.lvlcnt, chrt := l.chrt, sstep := l.mode 4,
      nlvl := l.nlvl, gang := l.gang, single := l.gangs == 1, scopes := scopes }
  let args : List W64 := (List.range 8).map fun k => BitVec.ofNat 64 (l.num (0x80 + 8 * k) 8)
  let det := l.mode 0
  { Core.reset with
    task := some t, seqs := PerEng.all { Seq.reset with pc := l.num 0x14 4 * 64 }, s := (0 :: args) ++ List.replicate 23 0,
    modex := l.mode 2, fixt := l.mode 1, det := det, nant := l.mode 3, nbase := l.mode 3,
    ebudget := if det then BitVec.ofNat 32 (x.detShare g) else 0, erefill := BitVec.ofNat 32 x.erefill,
    cycle := if det then x.cycles else 0, eperiod := if det then x.cycles.toNat % detPeriod else 0,
    halt := if x.held.contains (l.gangOf g) then .stopped else .run, bad := c.bad, spOwner := some x.tenant }
/-- The preloads of a task, in table order (R25); an image whose source no longer translates is left out (log 81). -/
def State.preload (s : State) (x : Ctx) (g n : Nat) : State :=
  x.launch.images.foldl (fun (t : State) e =>
    let b := e.getD []
    let kind := leAt b 0x14 1
    let len := leAt b 0x10 4
    if kind = 0 then t
    else match t.readVirt x.tenant (t.ownIn x.launch) (leAt b 0 8 + if kind = 2 then g * len else 0) len with
      | some bs => t.writeSpad (spadKey n (leAt b 8 8)) bs
      | none => t) s
/-- The memory images, copied once, in table order (R25); one whose source or destination no longer translates is left out (log 81). -/
def State.memImages (s : State) (x : Ctx) : State :=
  x.launch.images.foldl (fun (t : State) e =>
    let b := e.getD []
    if leAt b 0x14 1 != 0 then t
    else match t.readVirt x.tenant (t.ownIn x.launch) (leAt b 0 8) (leAt b 0x10 4) with
      | some bs => (t.writeVirt x.tenant (t.ownIn x.launch) (leAt b 8 8) bs).getD t
      | none => t) s
/-- A gang's tasks placed (R23). -/
def State.placeGang (s : State) (x : Ctx) (gs cores : List Nat) : State :=
  (gs.zip cores).foldl (fun (t : State) p =>
    let t1 := t.freeCore p.2
    (t1.setCoreAt p.2 ((t1.coreAt p.2).start x p.1)).preload x p.1 p.2) s

/-- What the other modules have told of a launch, taken from the messages that wait (R30, R32). -/
def Ctx.told (x : Ctx) (rank : Nat) (m : LaunchMsg) : Ctx :=
  match m with
  | .admitted n => { x with farReady := (rank, n) :: x.farReady }
  | .arrive level n g =>
    let old := ((x.farBars.find? fun y => y.1 == g).map Prod.snd).getD (List.replicate 9 0)
    { x with farBars := (g, old.set level n) :: x.farBars.filter fun y => y.1 != g }
  | .ended g => { x with farEnded := g :: x.farEnded }
  | _ => x
/-- A message of a launch that a context takes when it comes. -/
def launchInforms (m : LaunchMsg) : Bool :=
  match m with
  | .admitted _ | .arrive .. | .ended _ => true
  | _ => false
/-- The messages waiting for a context are taken; once every module has admitted its share of a gang, that gang's tasks start (R23, R32). -/
def State.takeTold (s : State) (id : W16) : State :=
  match s.dev.ctx? id with
  | none => s
  | some x =>
    let mine (m : LinkMsg) : Bool := match m.kind with
      | .launch raw k => raw == x.launch.raw && m.tenant == x.tenant && launchInforms k
      | _ => false
    let x1 := (s.dev.inbox.filter mine).foldl (fun (y : Ctx) m => match m.kind with
      | .launch _ k => y.told m.rank k
      | _ => y) x
    let go := x1.held.filter fun n => (List.range x.nranks).all fun r => r == x.rank || x1.farReady.contains (r, n)
    let s1 := s.mapDev fun d =>
      { d with inbox := d.inbox.filter fun m => !mine m
               ctxs := d.ctxs.map fun y => if y.id == id then { x1 with held := x1.held.filter fun n => !go.contains n } else y }
    s1.mapCores fun _ c =>
      if x.st == .resident && c.halt == .stopped && c.task.any fun t => t.ctx == id && go.contains (x.launch.gangOf t.g) then { c with halt := .run } else c

/-- An entry of the slot table: address, size and key index; a broken entry has size 0 (24 R359). -/
def State.slotEntry (s : State) (n : BitVec 6) : Nat × Nat × Nat :=
  let e := s.readPhys none (s.dev.stab.toNat + 16 * n.toNat) 16
  let a := leAt e 0 8
  (a, if a % 65536 ≠ 0 ∨ 1024 ≤ leAt e 12 2 ∨ leAt e 14 2 ≠ 0 then 0 else leAt e 8 4, leAt e 12 2 % 1024)
/-- A context identifier that no context has (05 R103). -/
def Device.freshCtx (d : Device) : Nat → W16 → W16
  | 0, n => n
  | k + 1, n => if d.ctxs.any fun x => x.id == n then d.freshCtx k (n + 1) else n
/-- Counted cycles that a context's cores have reached (23 R342). -/
def State.ctxCycles (s : State) (x : Ctx) : W64 :=
  ((s.ctxCores x.id).map fun c => c.2.cycle).foldl (fun a b => if a.ult b then b else a) x.cycles

/-- The next gang of a context admitted on some cores, held until the other modules have admitted their shares (R23, R32): the record leaves
its queue with its last gang (24 R352). -/
def State.admitNext (s : State) (x : Ctx) (cores : List Nat) : State :=
  let x1 : Ctx := { x with gangs := x.gangs + 1, cycles := s.ctxCycles x, held := if x.launch.chrt then x.gangs :: x.held else x.held }
  let s1 := (s.mapDev fun d => { d with granted := none, ctxs := d.ctxs.map fun y => if y.id == x.id then x1 else y }).placeGang x1
    (x.launch.gangTasks x.rank x.gangs) cores
  let s2 := if x1.gangs = x.launch.gangs then (s1.popHead x.queue (some x.id)).settleQueue x.queue 17
    else s1.mapQueue x.queue fun y => { y with cache := modAt y.cache 0 fun c => (c.1, some x.id) }
  if x.launch.chrt then (s2.tellLaunch x.tenant x.launch (some x.rank) (.admitted x.gangs)).takeTold x.id else s2
/-- The context of a record's first gang (24 R353, R360; 23 R345, R348); its groups of reducing copies count from 0 (09 R182). -/
def State.createCtx (s : State) (q : BitVec 9) (slot : BitVec 6) (l : Launch) : Ctx × State :=
  let id := s.dev.freshCtx 65536 s.dev.nextCtx
  let r := l.rankOf s.dev.modid
  let t := (s.dev.queue q).tenant
  let x : Ctx :=
    { id := id, tenant := t, queue := q, slot := some slot, launch := l, st := .resident, stop := none, gangs := 0, ended := 0,
      endedG := [], endAt := [], erefill := s.dev.erefill t l, epool := 0, eperiod := 0, saves := 0, saved := [], rank := r,
      nranks := l.nranks, born := s.dev.born, held := [], farReady := [], farBars := [], farEnded := [], cycles := 0 }
  let k := Red.start t (if l.chrt then l.raw else []) (if l.chrt then 0 else id) 0
  let d := { s.dev with ctxs := s.dev.ctxs ++ [x], nextCtx := id + 1, born := s.dev.born + 1,
                        reds := s.dev.reds.filter fun r => !k.same { r with grp := 0 } }
  let x1 := { x with epool := BitVec.ofNat 32 (d.granting x) }
  (x1, { s with dev := { d with ctxs := d.ctxs.map fun y => if y.id == id then x1 else y } })

/-- GANG_ADMIT: the granted queue's next gang is admitted whole on the named cores, a first gang into the named slot; a save region that
is too small rejects the launch (R23, R24, 24 R356, R359). -/
def execEvGangAdmit (q : BitVec 9) (slot : BitVec 6) (cores : List Nat) (s : State) : Out :=
  let free := cores.all fun c => s.freeCores.contains c
  if s.dev.granted != some q || !s.needFits q s.freeCores then .next s
  else match s.need q with
    | .more x =>
      if free && x.launch.placeOk (x.launch.gangTasks x.rank x.gangs) cores then .next (s.admitNext x cores) else .next s
    | .first l =>
      let r := l.rankOf s.dev.modid
      if !s.dev.freeSlots.contains slot.toNat || !free || !l.placeOk (l.gangTasks r 0) cores then .next s
      else if (s.slotEntry slot).2.1 < 0x10000 + l.tmax r * 0x900000 then
        .next (((s.mapDev fun d => { d with granted := none }).rejectHead q l 0x03 true).settleQueue q 17)
      else
        let p := s.createCtx q slot l
        .next ((p.2.memImages p.1).admitNext p.1 cores)
    | _ => .next s

/-- Something set aside has not retired: a handler that ends its walk with EXIT does not end the task (25 R374). -/
def Aside.busy (a : Aside) : Bool :=
  !(a.flights.isEmpty && a.defPosts.isEmpty && a.cld.isEmpty && a.cst.isEmpty && a.fabQueue.isEmpty && a.fabPhase.isNone && a.fabParked.isEmpty &&
    a.insts.all Option.isNone)
/-- TASK_END: a task whose walk has ended and whose commands, results, rules' instances and phases have retired (R27, R106); the launch
ends with its last task. -/
def execEvTaskEnd (s : State) : Out :=
  match s.core.task, s.ctx? with
  | some t, some x =>
    let c := s.core
    if !(engs.all fun e => (c.seqs.get e).ended) || !c.quiet || c.aside.any Aside.busy || !c.pend.isEmpty || c.escal.isSome || c.halt == .stopped then
      .next s
    else
      let s1 := (s.dropTaskEnds t.ctx s.cnum).mapDev fun d => d.mapCtx t.ctx fun y =>
        { y with ended := y.ended + 1, endedG := t.g :: y.endedG, endAt := (t.g, s.core.later 0) :: y.endAt, cycles := s.ctxCycles x }
      let s2 := s1.vacateCore s.cnum
      let s3 := if t.chrt then s2.tellLaunch t.tenant x.launch (some x.rank) (.ended t.g) else s2
      match s3.dev.ctx? t.ctx with
      | some y => .next (if y.gangs == y.launch.gangs && (s3.ctxCores y.id).isEmpty && (y.stop == none || y.stop == some .preempt) then s3.endCtx y 0 0 none
                         else s3)
      | none => .next s3
  | _, _ => .next s

/-! ### Aborts of other modules (02 R28, R32; 25 R377) -/

/-- The first waiting message of a launch of a kind, taken. -/
def State.takeLaunch (s : State) (t : BitVec 5) (raw : List Byte) (m : LaunchMsg) : Option State :=
  match s.dev.inbox.findIdx? fun x => x.tenant == t && x.kind == .launch raw m with
  | some k => some (s.mapDev fun d => { d with inbox := d.inbox.take k ++ d.inbox.drop (k + 1) })
  | none => none
/-- CHART_ABORT: the launch of a queue is rejected with CHART, in the queue or held before its start (R28, R32). -/
def execEvChartAbort (q : BitVec 9) (s : State) : Out :=
  let x := s.dev.queue q
  match s.dev.ctxs.find? fun c => c.queue == q && c.held.contains 0 && (s.takeLaunch c.tenant c.launch.raw .abort).isSome with
  | some c => match s.takeLaunch c.tenant c.launch.raw .abort with
    | some s1 => .next (s1.endCtx c 1 0x07 none)
    | none => .next s
  | none =>
    match x.cache.findIdx? fun y => y.2.isNone && (s.takeLaunch x.tenant y.1.raw .abort).isSome with
    | none => .next s
    | some k =>
      let l := (x.cache.getD k ({ raw := [], images := [], chart := [], reject := none }, none)).1
      match s.takeLaunch x.tenant l.raw .abort with
      | none => .next s
      | some s1 => .next ((s1.mapQueue q fun y => { y with cache := modAt y.cache k fun c =>
          ({ c.1 with reject := some (c.1.reject.getD aborted) }, c.2) }).settleQueue q 17)
/-- LAUNCH_KILL_ABORT: a kill on another module (R28). -/
def execEvLaunchKillAbort (ctx : W16) (s : State) : Out :=
  match s.dev.ctx? ctx with
  | none => .next s
  | some x => match s.takeLaunch x.tenant x.launch.raw .kill with
    | some s1 => .next (s1.stopCtx ctx .kill)
    | none => .next s
/-- ESCALATION_STOP: an escalation on another module (R28, R377). -/
def execEvEscalationStop (ctx : W16) (cause : Byte) (s : State) : Out :=
  match s.dev.ctx? ctx with
  | none => .next s
  | some x => match s.takeLaunch x.tenant x.launch.raw (.escalate cause) with
    | some s1 => .next (s1.stopCtx ctx (.escalate cause false))
    | none => .next s
/-- ESCALATE: a trap that no handler took stops its context on every module (R377). -/
def execEvEscalate (ctx : W16) (s : State) : Out :=
  match s.dev.ctx? ctx, (s.ctxCores ctx).findSome? fun c => c.2.escal with
  | some x, some (cause, hnd) =>
    if x.stop.any fun w => w != .preempt then .next s
    else
      let s1 := s.stopCtx ctx (.escalate cause hnd)
      .next (if x.launch.chrt then s1.tellLaunch x.tenant x.launch (some x.rank) (.escalate cause) else s1)
  | _, _ => .next s

end Sys2Proof.Machine
end

