-- ==== Sys2Proof/Machine/Save.lean ====
section
/-!
DEFINITION. The context save area, saving a context and restoring it (24 R358 to R363; 09 R192; 25 R384).
-/
namespace Sys2Proof.Machine

/-! ### STATUS and TRAPVEC as words (05 R102, R103) -/

/-- STATUS (R102). -/
def Core.statusWord (c : Core) : W64 :=
  BitVec.ofNat 64 (fld c.lastc.toNat 16 + fld c.scopemiss.toNat 8 + fld c.nant.toNat 3 + fld c.det.toNat 2 +
    fld (c.fixt || c.exch).toNat 1 + c.modex.toNat)
/-- TRAPVEC (R103). -/
def Core.trapvecWord (c : Core) : W64 := BitVec.ofNat 64 (fld c.trapEn.toNat 63 + c.trapBlk.toNat)

/-! ### The layout (24 R360, R361) -/

/-- Bytes of a list of 64-bit words. -/
def wordBytes (ws : List W64) : List Byte := ws.flatMap fun w => leBytes 8 w.toNat
/-- A 64-bit word of bytes. -/
def wordAt (bs : List Byte) (off : Nat) : W64 := BitVec.ofNat 64 (leAt bs off 8)
/-- The TASK region; the walk of a task that holds its core has ENDED when every sequencer has. -/
def Core.taskBytes (c : Core) (cnum : Nat) : List Byte :=
  let g := (c.task.map Task.g).getD 0
  let ended := engs.all fun e => (c.seqs.get e).ended
  leBytes 4 g ++ leBytes 1 cnum ++ leBytes 1 (ended.toNat + 2 * c.aside.isSome.toNat) ++ leBytes 2 0 ++ leBytes 8 c.savemap.toNat ++
    (c.bars.take 8).flatMap (leBytes 4) ++ List.replicate (0x1000 - 0x30) 0
/-- The words at +0x200 of REGS. -/
def Core.sysWords (c : Core) : List W64 :=
  [c.statusWord, c.slipwin.setWidth 64, c.vcyc, c.cycle, c.ebudget.setWidth 64, c.erefill.setWidth 64, c.legacycnt, c.trapvecWord] ++
    c.traprec ++ [c.savemap] ++ c.wptr.map fun w => w.setWidth 64
/-- The REGS region. -/
def Core.regBytes (c : Core) : List Byte :=
  let b := wordBytes c.s ++ wordBytes c.a ++ c.f.flatMap (fun f => leBytes 2 f.toNat) ++ wordBytes c.sysWords
  b ++ List.replicate (0x1000 - b.length) 0
/-- The TAGS region. -/
def Core.tagBytes (c : Core) : List Byte := c.tags.flatMap fun t => leBytes 4 (fld t.valid.toNat 31 + t.key.toNat)
/-- The HANDLES region. -/
def Core.handleBytes (c : Core) : List Byte :=
  let d := c.pruneHist
  let es := d.hist.take 2048
  let b := d.h.flatMap (fun h => leBytes 32 h.toNat) ++ d.hbase.flatMap (fun h => leBytes 32 h.toNat) ++ leBytes 8 es.length ++
    es.flatMap fun w => leBytes 8 (w.pos % 2 ^ 32 + fld w.slot 32 + fld w.h.toNat 36) ++ leBytes 32 w.val.toNat
  b ++ List.replicate (0x15000 - b.length) 0
/-- Carries as bytes. -/
def carryBytes (cs : List (List (W32 × W32))) : List Byte := cs.flatMap fun c => bytesOf (c.flatMap fun x => [x.1, x.2])
/-- Committed banks. -/
def Core.bankBytes (c : Core) : List Byte := c.banks.flatMap bytesOf
/-- The DRAWERS region. -/
def Core.drawerBytes (c : Core) : List Byte := c.drawers.flatMap (fun d => d.flatMap blockBytes) ++ leBytes 4 c.claimed.toNat

/-- Regions of a task record whose bytes the spec does not lay out: SEQ, ALMANAC to INFLIGHT, staged banks and carries (log 13). -/
def openRegions : List (Nat × Nat) := [(0x1000, 0x2000), (0x1A000, 0x82000), (0xAC000, 0x10000), (0xBC400, 0x400)]
/-- A task record: pieces at their offsets (R361). -/
def State.taskRecord (s : State) (n : Nat) (base : Nat) : List (Nat × List Byte) :=
  let c := s.coreAt n
  let live := (List.range 64).filter fun i => c.savemap.getLsbD i
  [(0, c.taskBytes n), (0x3000, c.regBytes), (0x4000, c.tagBytes), (0x5000, c.handleBytes), (0x9C000, c.bankBytes),
    (0xBC000, carryBytes c.carries), (0xBD000, c.drawerBytes)] ++
    openRegions.map (fun r => (r.1, (List.range r.2).map fun k => Config.savedByte s.tick (base + r.1 + k))) ++
    live.map fun i => (0x100000 + i * 0x20000, readRun s.spad (spadKey n (i * 0x20000)) 0x20000)
/-- Bytes of the context header with a STATE (R360). -/
def Ctx.headerBytes (x : Ctx) (state ntask : Nat) (eperiod : Nat) : List Byte :=
  let b := leBytes 4 0x53414B43 ++ leBytes 2 1 ++ leBytes 2 state ++ leBytes 2 x.id.toNat ++ leBytes 1 x.tenant.toNat ++ leBytes 1 0 ++
    leBytes 2 x.queue.toNat ++ leBytes 2 ntask ++ leBytes 8 x.saves ++ leBytes 8 x.epool.toNat ++ leBytes 8 eperiod ++ leBytes 8 x.ended
  b ++ List.replicate (0x100 - b.length) 0 ++ x.launch.raw ++ List.replicate (0x10000 - 0x200) 0
/-- Start of task record k. -/
def recordBase (addr k : Nat) : Nat := addr + 0x10000 + k * 0x900000
/-- The cores of a context in ascending global index. -/
def State.ctxTasks (s : State) (id : W16) : List (Nat × Nat) :=
  let ts := (s.ctxCores id).map fun c => ((c.2.task.map Task.g).getD 0, c.1)
  ts.mergeSort fun a b => decide (a.1 ≤ b.1)
/-- The save area written, STATE := SAVED last, as a release (R361, R362). -/
def State.writeSave (s : State) (x : Ctx) (addr : Nat) (key : Option (BitVec 512)) : State :=
  let ts := s.ctxTasks x.id
  let ep := (ts.map fun t => (s.coreAt t.2).eperiod).foldl max x.eperiod
  let s1 := ts.zipIdx.foldl (fun (t : State) y =>
    let base := recordBase addr y.2
    (s.taskRecord y.1.2 base).foldl (fun (u : State) p => u.writePhys key (base + p.1) p.2) t) s
  (s1.writePhys key addr (x.headerBytes 2 ts.length ep)).deviceRelease addr

/-- CONTEXT_SAVE: every core of the context stands still; the save area is written; a pre-empted context is saved and its cores are
freed, an escalated one ends FAULTED (R358, R362, 25 R377). -/
def execEvContextSave (ctx : W16) (s : State) : Out :=
  match s.dev.ctx? ctx with
  | none => .next s
  | some x =>
    let cs := s.ctxCores ctx
    let dead := x.stop.any fun w => w != .preempt
    if x.st != .stopping || x.stop == some .kill || !(cs.all fun c => c.2.halt == .stopped) || (!dead && cs.any fun c => c.2.escal.isSome) then
      .next s
    else
      match x.slot with
      | none => .next s
      | some sl =>
        let e := s.slotEntry sl
        let x1 : Ctx := { x with saves := x.saves + 1, eperiod := (cs.map fun c => c.2.eperiod).foldl max x.eperiod, cycles := s.ctxCycles x }
        let s1 := s.writeSave x1 e.1 (s.dev.key e.2.2)
        if dead then .next (s1.finishStop x1)
        else
          let saved : List Saved := (s.ctxTasks ctx).map fun t => { g := t.1, core := t.2, snap := s.coreAt t.2 }
          let s2 := cs.foldl (fun (t : State) c => t.vacateCore c.1) s1
          .next (s2.mapDev fun d => (d.ctxcmdDone 1 ctx).mapCtx ctx fun _ => { x1 with st := .saved, stop := none, saved := saved })

/-! ### Restoring (24 R363) -/

/-- The regions of a task record read back into a core. -/
def Core.unpackTask (c : Core) (task regs tags hs banks carries drawers : List Byte) : Core :=
  let w (k : Nat) : W64 := wordAt regs (0x200 + 8 * k)
  let st := w 0
  let n := min 2048 (leAt hs 0x400 4)
  let entry (k : Nat) : HWrite :=
    let v := leAt hs (0x408 + 40 * k) 8
    { pos := v % 2 ^ 32, slot := v / 2 ^ 32 % 4, h := BitVec.ofNat 4 (v / 2 ^ 36 % 16), val := BitVec.ofNat 256 (leAt hs (0x410 + 40 * k) 32) }
  let lanes (b : List Byte) (k m : Nat) : List W32 := lanesOf ((b.drop (k * 4 * m)).take (4 * m))
  let pairs (l : List W32) : List (W32 × W32) := (List.range 32).map fun k => (l.getD (2 * k) 0, l.getD (2 * k + 1) 0)
  { c with
    savemap := w 16
    bars := (List.range 8).map (fun k => leAt task (0x10 + 4 * k) 4) ++ c.bars.drop 8
    s := (List.range 32).map fun k => wordAt regs (8 * k)
    a := (List.range 16).map fun k => wordAt regs (0x100 + 8 * k)
    f := (List.range 64).map fun k => BitVec.ofNat 16 (leAt regs (0x180 + 2 * k) 2)
    lastc := st.extractLsb' 16 8, scopemiss := st.getLsbD 8, nant := st.getLsbD 3, det := st.getLsbD 2,
    fixt := if c.exch then c.fixt else st.getLsbD 1, modex := st.getLsbD 0, slipwin := (w 1).setWidth 9, vcyc := w 2, cycle := w 3,
    ebudget := (w 4).setWidth 32, erefill := (w 5).setWidth 32, legacycnt := w 6, trapEn := (w 7).getLsbD 63,
    trapBlk := (w 7).setWidth 24, traprec := (List.range 8).map fun k => w (8 + k)
    wptr := (List.range 4).map fun k => (w (17 + k)).setWidth 32
    tags := (List.range 1024).map fun k =>
      let v := leAt tags (4 * k) 4
      { valid := v / 2 ^ 31 == 1, key := BitVec.ofNat 14 v }
    h := (List.range 16).map fun k => BitVec.ofNat 256 (leAt hs (32 * k) 32)
    hbase := (List.range 16).map fun k => BitVec.ofNat 256 (leAt hs (0x200 + 32 * k) 32)
    hist := (List.range n).map entry
    banks := (List.range 4).map fun k => lanes banks k 4096
    carries := (List.range 4).map fun k => pairs (lanes carries k 64)
    drawers := (List.range 32).map fun d => (List.range 128).map fun i => BitVec.ofNat 512 (leAt drawers ((d * 128 + i) * 64) 64)
    claimed := BitVec.ofNat 32 (leAt drawers 0x40000 4) }

/-- A scratchpad key as the task sees it from another core: the window distance is kept (24 R363, 07 R130). -/
def moveKey (old new key : Nat) : Nat := spadKey (windowCore new ((key / spadSize % 8 + 8 - old % 8) % 8)) (key % spadSize)
/-- A granule of the overlap checker moved with its core. -/
def moveGranule (old new g : Nat) : Nat :=
  if g < 2 ^ 40 then moveKey old new (g * 64) / 64 else drawerGranule new 0 0 + (g - 2 ^ 40) % 4096
/-- A piece of a result moved with its core. -/
def Eff.move (old new : Nat) (e : Eff) : Eff :=
  match e with
  | .run k bs => .run (moveKey old new k) bs
  | _ => e
/-- A result in flight moved with its core. -/
def Flight.move (old new : Nat) (f : Flight) : Flight :=
  { f with effs := f.effs.map (Eff.move old new),
           work := f.work.map fun m => { m with outs := m.outs.map (Eff.move old new) } }
/-- A core's own addresses moved with it. -/
def Core.move (old new : Nat) (c : Core) : Core :=
  let foot (x : Footprint) : Footprint :=
    { x with reads := x.reads.map (moveGranule old new), writes := x.writes.map fun y => (moveGranule old new y.1, y.2) }
  let store (e : StoreEnt) : StoreEnt := if e.sp then { e with addr := moveKey old new e.addr } else e
  let load (l : LoadEnt) : LoadEnt := match l.src with
    | .spad k a q => { l with src := .spad k (moveKey old new a) q }
    | _ => l
  { c with flights := c.flights.map (Flight.move old new), stores := c.stores.map store, loads := c.loads.map load, feet := c.feet.map foot,
           aside := c.aside.map fun a => { a with flights := a.flights.map (Flight.move old new) } }

/-- A held operand's pages translated again (09 R192, 25 R384). -/
def State.again (s : State) (w : Want) (o : Operand) : Judged Operand :=
  if hSpc o.h != 0 then .ok o
  else match s.translate [(o, w)] none [] with
    | .error f => .error f
    | .ok (pages, _) => .ok { o with pages := pages.getD 0 [] }
/-- An optional operand translated again. -/
def State.againOpt (s : State) (w : Want) (o : Option Operand) : Judged (Option Operand) :=
  match o with
  | none => .ok none
  | some x => (s.again w x).map some
/-- A copy command's pins taken again. -/
def State.againCopy (s : State) (q : CopyCmd) : Judged CopyCmd :=
  match if q.dst.isNone then .ok q.src else s.againOpt .rd q.src, s.againOpt .wr q.dst with
  | .error f, _ | .ok _, .error f => .error f
  | .ok a, .ok b =>
    match q.cnt with
    | none => .ok { q with src := a, dst := b }
    | some (_, va) => (s.page va .rdwr).map fun p => { q with src := a, dst := b, cnt := some (s.counterPage va p, va) }
/-- The record of a fault found at restore: asynchronous, with the command's next step (25 R384). -/
def restoreInfo (e : Eng) (p : At) (f : Flt) (tsdone : Nat) : TrapInfo :=
  { eng := e, cause := f.cause, reason := f.reason, awd := false, async := true, rulei := false, pc := p.pc,
    addr := BitVec.ofNat 64 f.addr, ruleid := 0, tsdone := tsdone, col := 0, row := 0, kstep := 0, slice := 0,
    aux := BitVec.ofNat 64 f.aux, word := p.word }
/-- Copy commands with their pins taken again; the first fault of each stops it. -/
def State.againCopies (s : State) (e : Eng) (l : List CopyCmd) : List CopyCmd × List Pending :=
  let rs := l.map fun q => match s.againCopy q with
    | .ok x => (x, none)
    | .error f => ({ q with stopped := true },
        some ({ info := restoreInfo e q.place f q.step, held := .command e, inside := false } : Pending))
  (rs.map Prod.fst, rs.filterMap Prod.snd)
/-- Bindings with their pins taken again, or the fault. -/
def State.againBinds (s : State) (l : List Bind) : Judged (List Bind) :=
  l.mapM fun b => (s.again (if b.isInput then .rd else .wr) b.opnd).map fun o => { b with opnd := o }
/-- A phase with its pins taken again. -/
def State.againPhase (s : State) (p : Phase) : Phase × List Pending :=
  match s.againBinds p.binds with
  | .ok bs => ({ p with binds := bs }, [])
  | .error f => ({ p with stopped := true }, [{ info := restoreInfo .fab p.place f 0, held := .phase, inside := false }])
/-- The unit's queue with its pins taken again. -/
def State.againUnit (s : State) (l : List FabCmd) : List FabCmd × List Pending :=
  let rs := l.map fun q => match s.againOpt (match q.i with | .fcfg .. => .rd | _ => .wr) q.opnd, s.againBinds q.binds with
    | .ok o, .ok bs => ({ q with opnd := o, binds := bs }, none)
    | .error f, _ | .ok _, .error f => ({ q with stopped := true },
        some ({ info := restoreInfo .fab q.place f 0, held := .command .fab, inside := false } : Pending))
  (rs.map Prod.fst, rs.filterMap Prod.snd)
/-- Pins of the core in front taken again at its restore; faults are pending, taken asynchronously (09 R192, 25 R384). -/
def State.repin (s : State) : State :=
  let c := s.core
  let cld := s.againCopies .cld c.cld
  let cst := s.againCopies .cst c.cst
  let unit := s.againUnit c.fabric.queue
  let ph := c.fabric.phase.map s.againPhase
  let pk := c.fabric.parked.map s.againPhase
  let pend := (s.againBinds c.fabric.pendBinds).toOption.getD c.fabric.pendBinds
  let aside := c.aside.map fun a =>
    let x := s.againCopies .cld a.cld
    let y := s.againCopies .cst a.cst
    let z := a.fabPhase.map s.againPhase
    let zs := a.fabParked.map s.againPhase
    let u := s.againUnit a.fabQueue
    (({ a with cld := x.1, cst := y.1, fabPhase := z.map Prod.fst, fabParked := zs.map Prod.fst, fabQueue := u.1 } : Aside),
      x.2 ++ y.2 ++ (z.map Prod.snd).getD [] ++ zs.flatMap Prod.snd ++ u.2)
  let binds := c.bindings.map fun b => match s.again .wr b.opnd with
    | .ok o => ({ b with opnd := o }, none)
    | .error f => ({ b with stopped := true },
        some ({ info := restoreInfo .ctl b.place f 0, held := .binding, inside := false } : Pending))
  let c1 : Core :=
    { c with cld := cld.1, cst := cst.1, bindings := binds.map Prod.fst, aside := aside.map Prod.fst,
             fabric := { c.fabric with queue := unit.1, phase := ph.map Prod.fst, parked := pk.map Prod.fst, pendBinds := pend },
             pend := c.pend ++ cld.2 ++ cst.2 ++ unit.2 ++ (ph.map Prod.snd).getD [] ++ pk.flatMap Prod.snd ++ (aside.map Prod.snd).getD [] ++
               binds.filterMap Prod.snd }
  let s1 := { s with core := c1 }
  s1.core.ruleList.foldl (fun (t : State) r =>
    let put (i : Inst) : State := t.mapCore fun c =>
      if r.2.inst.isSome then c.mapRule r.1 fun x => { x with inst := some i }
      else { c with aside := c.aside.map fun a => { a with insts := modAt a.insts r.1 fun _ => some i } }
    match r.2.inst <|> (t.core.aside.bind fun a => a.insts.getD r.1 none) with
    | none => t
    | some i =>
      match t.againOpt .rd i.trig, t.againOpt .wr i.out with
      | .ok a, .ok b => put { i with trig := a, out := b }
      | .error f, _ | .ok _, .error f => t.instFault r.1 r.2 f 0 0) s1

/-- One task put back on a core from its record; a gang that other modules have not yet admitted stays held (02 R32). -/
def State.putBack (s : State) (x : Ctx) (v : Saved) (new base : Nat) (key : Option (BitVec 512)) : State :=
  let rd (off n : Nat) : List Byte := s.readPhys key (base + off) n
  let c := v.snap.unpackTask (rd 0 0x1000) (rd 0x3000 0x1000) (rd 0x4000 0x1000) (rd 0x5000 0x15000) (rd 0x9C000 0x10000)
    (rd 0xBC000 0x400) (rd 0xBD000 0x41000)
  let c1 := { c.move v.core new with halt := if x.held.contains (x.launch.gangOf v.g) then .stopped else .run, bad := (s.coreAt new).bad, spOwner := v.snap.task.map Task.tenant }
  let s1 := (s.freeCore new).setCoreAt new c1
  let live := (List.range 64).filter fun i => c1.savemap.getLsbD i
  live.foldl (fun (t : State) i => { t with spad := writeRun t.spad (spadKey new (i * 0x20000)) (s.readPhys key (base + 0x100000 + i * 0x20000) 0x20000) }) s1
/-- Stream ends of a context follow its tasks to their new cores. -/
def EndLoc.moved (id : W16) (to' : Nat → Nat) (l : EndLoc) : EndLoc :=
  match l with
  | .here c k => if c = id then .here c (to' k) else l
  | .unplaced c k => if c = id then .unplaced c (to' k) else l
  | _ => l

/-- CONTEXT_RESTORE: the granted queue's saved context returns, on the cores named for its tasks in ascending global index; an area with a
wrong MAGIC or VERSION kills it (R362, R363). -/
def execEvContextRestore (ctx : W16) (slot : BitVec 6) (cores : List Nat) (s : State) : Out :=
  match s.dev.ctx? ctx with
  | none => .next s
  | some x =>
    let free := cores.all fun c => s.freeCores.contains c
    if x.st != .saved || x.slot != some slot || s.dev.granted != some x.queue || !free || !x.backOk cores then .next s
    else
      let e := s.slotEntry slot
      let key := s.dev.key e.2.2
      let hd := s.readPhys key e.1 0x200
      let s0 := s.mapDev fun d => { d with granted := none }
      if leAt hd 0 4 ≠ 0x53414B43 ∨ leAt hd 4 2 ≠ 1 then .next (s0.endCtx x 3 0 none)
      else
        let ps := x.saved.zip cores
        let to' (k : Nat) : Nat := ((ps.find? fun p => p.1.core == k).map Prod.snd).getD k
        let s1 := ps.zipIdx.foldl (fun (t : State) p => t.putBack x p.1.1 p.1.2 (recordBase e.1 p.2) key) s0
        let x1 : Ctx := { x with st := .resident, stop := none, saved := [], saves := leAt hd 0x10 8, epool := BitVec.ofNat 32 (leAt hd 0x18 8),
                                 eperiod := leAt hd 0x20 8, ended := leAt hd 0x28 8 }
        let s2 := s1.mapDev fun d => { (d.mapCtx ctx fun _ => x1) with
          homes := d.homes.map fun h => { h with locS := h.locS.moved ctx to', locR := h.locR.moved ctx to' } }
        let s3 := s2.writePhys key (e.1 + 6) (leBytes 2 4)
        let front := s3.cnum
        .next ((cores.foldl (fun (t : State) c => (t.focus c).repin) s3).focus front)

end Sys2Proof.Machine
end

