-- ==== Sys2Proof/Machine/CtlSys.lean ====
section
/-!
DEFINITION. CTL's system words: SRD, SWR, MBXRD, TRAP, ERET, YIELD, EXIT, and barriers (02 R30, R31; 05 R100 to R106; 25 R374, R375).
-/
namespace Sys2Proof.Machine

/-! ### System registers (R100 to R103) -/

/-- A constant of the resident task. -/
def State.ofTask (s : State) (f : Task → Nat) : W64 := BitVec.ofNat 64 ((s.core.task.map f).getD 0)
/-- The value of a system register (R101). -/
def State.sysReg (s : State) (n : Nat) : W64 :=
  let c := s.core
  if n = 0x000 then c.statusWord
  else if n = 0x001 then c.slipwin.setWidth 64
  else if n = 0x002 then c.seqs.ctl.rbase.setWidth 64
  else if n = 0x003 then c.seqs.ctl.rotsz.setWidth 64
  else if n = 0x004 then c.vcyc
  else if n = 0x005 then c.cycle
  else if n = 0x008 then BitVec.ofNat 64 s.ebudget
  else if n = 0x009 then c.erefill.setWidth 64
  else if n = 0x00A then c.legacycnt
  else if n = 0x010 then c.trapvecWord
  else if n ≤ 0x018 then c.traprec.getD (n - 0x011) 0
  else if n ≤ 0x027 then s.ofTask fun t => t.lvlidx.getD (n - 0x020) 0
  else if n ≤ 0x02F then s.ofTask fun t => t.lvlcnt.getD (n - 0x028) 1
  else if n = 0x030 then BitVec.ofNat 64 s.cnum
  else if n = 0x031 then s.ofTask Task.rank
  else if n = 0x032 then s.ofTask Task.nranks
  else if n = 0x033 then s.ofTask fun t => t.tenant.toNat
  else if n = 0x034 then s.ofTask fun t => t.ctx.toNat
  else if n = 0x035 then c.savemap
  else (c.wptr.getD (n - 0x040) 0).setWidth 64
/-- SRD (R100). -/
def execSrd (d : SReg) (n : BitVec 12) (s : State) : Out := s.withRegs [d] fun s => .next (s.putS d (s.sysReg n.toNat))

/-- A system register written, or none where the value breaks its map's rule (R100, R102, R103; 04 R60). -/
def State.setSysReg (s : State) (n : Nat) (v : W64) : Option State :=
  if n = 0x000 then
    some (s.mapCore fun c => { c.setNant (v.getLsbD 3) with scopemiss := c.scopemiss && !v.getLsbD 8 })
  else if n = 0x001 then
    let w := v.setWidth 9
    if w = 0 ∨ 256 < w.toNat then none else some (s.mapCore fun c => { c with slipwin := w })
  else if n = 0x00A then some (s.mapCore fun c => { c with legacycnt := v })
  else if n = 0x010 then
    if v.getLsbD 63 ∧ s.tlen ≤ (v.setWidth 24).toNat then none
    else some (s.mapCore fun c => { c with trapEn := v.getLsbD 63, trapBlk := v.setWidth 24 })
  else if n = 0x035 then some (s.mapCore fun c => { c with savemap := v })
  else none
/-- SWR (R100). -/
def execSwr (n : BitVec 12) (o : Op2) (s : State) : Out :=
  s.withRegs (op2Regs o) fun s =>
    match s.setSysReg n.toNat (s.op2 o) with
    | some s1 => .next (s1.complete 1)
    | none => .next (s.trap fIllop)

/-- Where the release marks of mailboxes are kept. -/
def mailboxMark (t : BitVec 5) (n : Nat) : Nat := 2 ^ 61 + 128 * t.toNat + 8 * n
/-- MBXRD (R100, 27 R393); in deterministic mode its register arrives 800 cycles after its issue (23 R343). -/
def execMbxrd (d : SReg) (n : BitVec 4) (acq : Option Scope) (s : State) : Out :=
  s.withRegs [d] fun s =>
    let t := s.tenantNo
    let v := (s.dev.tenant t).mbx.getD n.toNat 0
    let s1 := s.noteRead acq (markAt s.dev.marks (mailboxMark t n.toNat))
    if s.core.det then
      .next ((s1.mapCore fun c => { c with loads := c.loads ++ [{ d := d, src := .done, val := v, issued := c.cycle.toNat, lat := 400 }] }).complete 1)
    else .next (s1.putS d v)

/-- TRAP (R104). -/
def execTrap (v : W64) (s : State) : Out := .next (s.trapWith { s.info Cause.swtrap with aux := v })

/-! ### Returning from the handler (R104, 25 R374, R375) -/

/-- The first element that a predicate names changed. -/
def mapFirst {α : Type} (p : α → Bool) (f : α → α) : List α → List α
  | [] => []
  | x :: r => if p x then f x :: r else x :: mapFirst p f r
/-- A MAT command stopped by a fault. -/
def Flight.isStopped (f : Flight) : Bool := f.work.any MatCmd.stopped
/-- The stopped command of a sequencer goes on at its next tile step (R375). -/
def Core.resume (c : Core) (e : Eng) : Core :=
  let go (q : CopyCmd) : CopyCmd := { q with stopped := false }
  match e with
  | .mat => { c with flights := mapFirst Flight.isStopped (fun f => { f with work := f.work.map fun m => { m with stopped := false } }) c.flights }
  | .cld => { c with cld := mapFirst CopyCmd.stopped go c.cld }
  | .cst => { c with cst := mapFirst CopyCmd.stopped go c.cst }
  | .fab => c.mapFab fun b => { b with queue := mapFirst FabCmd.stopped (fun q => { q with stopped := false }) b.queue }
  | _ => c
/-- An abandoned CRED's place in its group is passed when its turn comes (09 R193). -/
def State.passCred (s : State) (q : CopyCmd) : State :=
  match q.i with
  | .cred int _ _ _ sq grp _ _ =>
    if q.applied then s else s.passGroup q int grp.toNat sq
  | _ => s
/-- A stopped copy command leaves its queue: its pins, its reader's claim and its place in its channel, but no increment and no post (09
R193). -/
def State.abandonCopy (s : State) (e : CopyEng) : State :=
  match (s.core.copies e).find? CopyCmd.stopped with
  | none => s
  | some q =>
    let s1 := s.passCred q
    s1.mapCore fun c =>
      let rest := (c.copies e).erase q
      (c.setCopies e (q :: rest)).leaveCopies e q
/-- The stopped command of a sequencer is abandoned (R375; 09 R193, 13 R236). -/
def State.abandon (s : State) (e : Eng) : State :=
  match e with
  | .cld => s.abandonCopy .cld
  | .cst => s.abandonCopy .cst
  | .mat => match s.core.flights.find? Flight.isStopped with
    | some f => s.mapCore fun c => { c with flights := c.flights.filter fun g => g.id != f.id }.closeFoot .mat f.id
    | none => s
  | .fab => match s.core.fabric.queue.find? FabCmd.stopped with
    | some q => s.mapCore fun c => (c.dropBinds q.binds).mapFab fun b => { b with queue := b.queue.erase q }
    | none => s
  | _ => s
/-- The stopped phase runs again from its start, or is abandoned, its FBAR or FSTOP then completing at once (15 R264). -/
def Core.phaseAgain (c : Core) (skip : Bool) : Core :=
  match c.fabric.phase with
  | none => c
  | some p =>
    if !p.stopped then c
    else if skip then (c.endPhase p).mapFab fun b => { b with endRec := some p.outs }
    else c.mapFab fun b => { b with phase := some (Phase.start p.binds p.order p.sees p.place p.owner) }
/-- A context that a stop awaits stops when its task leaves the handler (24 R357). -/
def State.leaveHandler (s : State) : State :=
  if s.ctx?.any fun x => x.st == .stopping then s.mapCore fun c => { c with halt := .stopping } else s
/-- The sequencer that trapped goes on after its word; its next word is due at once. -/
def Core.skipWord (c : Core) (e : Eng) : Core :=
  { c with seqs := c.seqs.set e (c.seqs.get e).advance, arrived := if e = .ctl then none else c.arrived }

/-- ERET of CTL: the set-aside walk goes on where it stopped (R375). -/
def State.eret (s : State) (w : Aside) : State :=
  let s1 := s.mapCore fun c => c.restoreWalk w
  let s2 := match w.held with
    | .command e => s1.mapCore fun c => c.resume e
    | .phase => s1.mapCore fun c => c.phaseAgain false
    | _ => s1
  s2.leaveHandler
/-- ERET.SKIP of CTL: past the trapped word, or the trapped command abandoned (R375). -/
def State.eretSkip (s : State) (w : Aside) : State :=
  let s1 := s.mapCore fun c => c.restoreWalk w
  let s2 := match w.held with
    | .word => s1.mapCore fun c => c.skipWord w.eng
    | .command e => s1.abandon e
    | .phase => s1.mapCore fun c => c.phaseAgain true
    | .deadlock => if s1.core.seqs.ctl.ended then s1 else s1.mapCore fun c => c.skipWord .ctl
    | _ => s1
  s2.leaveHandler
/-- A word that every sequencer observes and at which those other than CTL wait (R106, 25 R374). -/
def State.observed (s : State) (k : State → Out) : Out := if s.who = .ctl then k s else .next (s.waiting .internal)
/-- What another module has answered to a command or phase set aside is still held, and the handler's own of that engine is not done: the walk
cannot be restored yet (log 84). -/
def Core.eretBusy (c : Core) (w : Aside) : Bool :=
  (w.replies.cld != .none && !c.cld.isEmpty) || (w.replies.cst != .none && !c.cst.isEmpty) ||
    ((w.replies.fab != .none || !w.fabFar.isEmpty) && (c.fabric.phase.isSome || !c.fabric.queue.isEmpty || c.replies.fab != .none)) ||
    (w.replies.vec != .none && c.ruleList.any fun r => r.2.inst.any Inst.asking)
/-- ERET (R104, 25 R374). -/
def execEret (s : State) : Out :=
  s.observed fun s => match s.core.aside with
    | none => .next (s.trap fIllop)
    | some w => if s.core.eretBusy w then .next (s.waiting .internal) else .next (s.eret w)
/-- ERET.SKIP; of a MUL word it is ILLOP (R104, 25 R374). -/
def execEretSkip (s : State) : Out :=
  s.observed fun s => match s.core.aside with
    | none => .next (s.trap fIllop)
    | some w =>
      if w.mulWord then .next (s.trap fIllop)
      else if s.core.eretBusy w then .next (s.waiting .internal) else .next (s.eretSkip w)

/-! ### YIELD and EXIT (R105, R106) -/

/-- YIELD (R105). -/
def execYield (s : State) : Out :=
  let s1 := s.complete 1
  match s.core.task with
  | some t => if s.yieldTaken then .next (s1.stopCtx t.ctx .preempt) else .next s1
  | none => .next s1

/-- The rules with no instance in flight leave the almanac; without rules every record becomes FREE that no command still reads or writes
(16 R280). -/
def Core.exitRules (c : Core) : Core :=
  let d := c.ruleList.foldl (fun (d : Core) r => if d.instOut r.1 then d else d.freeRule r.1 false) c
  let held (r : OpenRec) : Bool := !r.readers.isEmpty || r.p + r.complete.length != r.w
  { d with recs := if d.ruleList.isEmpty then d.recs.map fun r => if held r then r else OpenRec.reset else d.recs }
/-- EXIT: CTL's walk ends, and with it the walk of every sequencer that stands at the word; the others wait there (R106). -/
def execExit (s : State) : Out :=
  if s.who = .ctl then
    let s1 := s.mapSeq .ctl fun q => { q with ended := true, wait := none, tried := false }
    .next (s1.mapCore Core.exitRules)
  else if s.core.seqs.ctl.ended && s.core.seqs.ctl.pc == s.cur.pc then
    .next (s.mapSeq s.who fun q => { q with ended := true, wait := none, tried := false })
  else .next (s.waiting .internal)

/-! ### Barriers (02 R30, R31) -/

/-- The tasks of a task's instance of a level; level 8 is the launch, for BAR.PART. -/
def Launch.members (l : Launch) (g k : Nat) : List Nat :=
  if k = 8 then List.range (l.size l.nlvl) else (List.range (l.size k)).map (· + g / l.size k * l.size k)
/-- The occurrences of a barrier that a task of the context has arrived at, on this module or as other modules have told. -/
def State.barCount (s : State) (x : Ctx) (g k : Nat) : Nat :=
  match (s.ctxCores x.id).find? fun c => c.2.task.map Task.g == some g with
  | some c => c.2.bars.getD k 0
  | none => (((x.farBars.find? fun y => y.1 == g).map Prod.snd).getD []).getD k 0
/-- Tasks that have not arrived at a task's current occurrence of a barrier, and have not ended (R30). -/
def State.missing (s : State) (x : Ctx) (g k n : Nat) : List Nat :=
  (x.launch.members g k).filter fun h =>
    !(h == g || decide (n ≤ s.barCount x h k) || x.endedG.contains h || x.farEnded.contains h)
/-- The page is on another module. -/
def Operand.isFar (o : Operand) : Bool := o.pages.any fun p => p.remote.isSome
/-- No transfer of the exchange phase is under way: accesses of other modules by the context's engines (R31; log 80). -/
def State.transfersDone (s : State) (x : Ctx) : Bool :=
  (s.ctxCores x.id).all (fun c =>
    (engs.all fun e => c.2.replies.get e == .none) && ((c.2.cld ++ c.2.cst).all fun q => !(q.src.any Operand.isFar || q.dst.any Operand.isFar)) &&
      c.2.fabric.phase.all fun p => p.binds.all fun b => !b.opnd.isFar)
/-- Cycles from the last arrival at a barrier to its departure in deterministic mode, by its scope (23 R343); none at DOMAIN. -/
def Task.barLat (t : Task) (k : Nat) : Option Nat :=
  match if k = 8 then (if t.chrt then Scope.domain else .device) else t.scopes.getD k .core with
  | .core => some 0
  | .cluster => some 128
  | .die => some 256
  | .device => some 512
  | .domain => none
/-- The cycle of the last arrival at a barrier's occurrence, the ends of tasks among them. -/
def State.lastArrival (s : State) (x : Ctx) (g k : Nat) : Nat :=
  ((x.launch.members g k).map fun h =>
    match (s.ctxCores x.id).find? fun c => c.2.task.map Task.g == some h with
    | some c => c.2.arrAt.getD k 0
    | none => ((x.endAt.find? fun y => y.1 == h).map Prod.snd).getD 0).foldl max 0
/-- CTL's waiting barrier may end: everyone has arrived or ended, in deterministic mode its declared time ago; an exchange phase closes no
earlier than its declared length, its transfers done (R30, R31, 23 R343). -/
def State.mayDepart (s : State) (k : Nat) : Bool :=
  match s.core.task, s.ctx? with
  | some t, some x =>
    (s.missing x t.g k (s.core.bars.getD k 0)).isEmpty && (t.barLat k).all (fun n => s.core.reached (s.lastArrival x t.g k + n)) &&
      (!(k == 8 && t.sstep && s.core.exch) ||
        (decide (s.core.opened + s.core.declared ≤ s.core.cycle.toNat) && s.transfersDone x))
  | _, _ => false
/-- The departure: CTL sees what the other tasks released and what it had itself awaited before it arrived (20 R324); BAR.PART ends one
superstep phase and opens the next (R31). -/
def State.depart (s : State) (k : Nat) (n : W32) : State :=
  let step (c : Core) : Core :=
    if k = 8 ∧ c.task.any Task.sstep then
      (if c.exch then { c with exch := false } else { c with exch := true, declared := n.toNat, opened := c.cycle.toNat })
    else c
  ((s.mapCore fun c => { step c with arrived := none }).showTo scEye fun r => r.path.isNone || decide (r.id < s.core.acqNo)).complete 1
/-- Arrival, once for an occurrence, as a release; then the departure or a wait (R30). -/
def State.barWord (s : State) (k : Nat) (n : W32) : Out :=
  if s.core.arrived.isSome then (if s.mayDepart k then .next (s.depart k n) else .next (s.waiting .internal))
  else s.withDrained fun s =>
    let m := s.core.bars.getD k 0 + 1
    let s1 := s.mapCore fun c => { c with bars := c.bars.set k m, arrived := some k, arrAt := c.arrAt.set k (c.later 0) }
    let s2 := match s1.core.task, s1.ctx? with
      | some t, some x => if t.chrt && (k == 8 || k + 1 == t.nlvl) then s1.tellLaunch t.tenant x.launch (some x.rank) (.arrive k m t.g) else s1
      | _, _ => s1
    if s2.mayDepart k then .next (s2.depart k n) else .next (s2.waiting .internal)
/-- BAR; ILLOP beyond the levels or the gang level (R30). -/
def execBar (k : BitVec 3) (s : State) : Out :=
  if s.core.task.all fun t => decide (t.nlvl ≤ k.toNat ∨ t.gang < k.toNat) then .next (s.trap fIllop) else s.barWord k.toNat 0
/-- BAR.PART; ILLOP where the launch is not a single gang (R30, R31). -/
def execBarPart (n : W32) (s : State) : Out :=
  if s.core.task.all fun t => !t.single then .next (s.trap fIllop) else s.barWord 8 n
/-- BAR_DEPART: the barrier at which CTL waits ends (R30). -/
def execEvBarDepart (s : State) : Out :=
  match s.standAt .ctl with
  | some (.bar k, t) => if t.core.arrived.isSome && t.core.halt == .run && t.mayDepart k.toNat then .next (t.depart k.toNat 0) else .next s
  | some (.barPart n, t) => if t.core.arrived.isSome && t.core.halt == .run && t.mayDepart 8 then .next (t.depart 8 n) else .next s
  | _ => .next s

end Sys2Proof.Machine
end

