-- ==== Sys2Proof/Machine/Trap.lean ====
section
/-!
DEFINITION. Asynchronous traps, DEADLOCK and DROOP; the ends of energy and budget periods; thermal steps (02 R34; 04 R83; 18 R302; 23 R341,
R346, R349; 25 R372, R378; 27 R397).
-/
namespace Sys2Proof.Machine

/-- A fault of a follow-on whose CPYF has not retired: it is taken only after that (09 R181). -/
def Core.followHeld (c : Core) (p : Pending) : Bool :=
  p.held == .command .mat && c.cld.any fun q => q.followDone && q.follow.any fun f => f.2.pc == p.info.pc
/-- The pending trap of the lowest engine tag; inside the handler, of those that the handler's own commands raised (25 R372, R376). -/
def Core.nextPending (c : Core) : Option (Nat × Pending) :=
  let ps := c.pend.zipIdx.filter fun p => (c.aside.isNone || p.1.inside) && !c.followHeld p.1
  (engs.findSome? fun e => ps.find? fun p => p.1.info.eng == e).map fun p => (p.2, p.1)
/-- TRAP_ENTRY: an asynchronous trap is taken at its sequencer's instruction boundary (25 R369, R372, R373). -/
def execEvTrapEntry (s : State) : Out :=
  match s.core.nextPending with
  | none => .next s
  | some (k, p) =>
    if s.core.halt != .run || s.core.task.isNone then .next s
    else .next (s.mapCore fun c =>
      ({ c with pend := c.pend.take k ++ c.pend.drop (k + 1) }).takeTrap p.info p.held false)

/-! ### DEADLOCK (02 R34, 25 R378) -/

/-- A sequencer is blocked: it waits at a word, is held by the tether, is detached, or is in the lockstep set while the cycle is frozen
and its next word is not due, or is held back by the word that freezes it (04 R58, R59, R83). -/
def State.seqBlocked (s : State) (e : Eng) : Bool :=
  let c := s.core
  let q := c.seqs.get e
  q.ended || q.wait.any (fun w => w != .budget) || (!q.closing && !q.entered && !c.tetherOk q.pos) ||
    (lockstep e && s.frozen && !c.isDue q) || (q.entered && !q.closing && c.heldByOthers e)
/-- A copy engine's head command can go on by itself: neither its channel, absent slices, a FENCEX nor CTL hold it (09 R181, R187); a step of
a reducing copy that is held for its turn is in flight. -/
def State.copyLive (s : State) (e : CopyEng) : Bool :=
  match s.core.copies e with
  | [] => false
  | q :: _ =>
    !q.stopped && (if !q.started then (q.moved || s.chanFree e q)
      else if q.moved then true
      else if q.steps ≤ q.next then q.isCred || s.followReady
      else (q.isCred && !q.buf.isEmpty) || q.sending.isSome ||
        (let r := q.stepRange q.next
         s.core.slicesReady q r.1 r.2 && (q.owner != .own || s.core.pathOpen .cp q.place.pos q.place.slot)))
/-- CTL waits at a barrier that another task can still end: one that has not arrived and does not itself wait at a barrier (R30, R34). -/
def State.barLive (s : State) : Bool :=
  match s.core.arrived, s.core.task, s.ctx? with
  | some k, some t, some x =>
    let far := s.missing x t.g k (s.core.bars.getD k 0)
    far.any fun g => (((s.ctxCores x.id).find? fun c => c.2.task.map Task.g == some g).all fun c => c.2.arrived.isNone)
  | _, _, _ => false
/-- CTL polls memory (09 R191). -/
def State.polling (s : State) : Bool :=
  match s.standAt .ctl with
  | some (.waitge .., _) => true
  | _ => false
/-- A stream that has an end here may still bring something: items or freed slots on their way, or a bound tensor to be fed (18 R302,
R305). -/
def State.streamLive (s : State) : Bool :=
  let ctx := s.taskCtx
  s.dev.homes.any fun h =>
    (h.locS.heldBy ctx s.cnum && !(h.returns.isEmpty && h.freed.isEmpty)) ||
      (h.locR.heldBy ctx s.cnum && (!h.flight.isEmpty || (h.bound && (s.outside h false s.cnum ||
        (s.core.bindings.any fun b => b.sid == h.sid && b.hrank == h.hrank && !b.stopped && decide (b.k ≤ h.buf.length))))))
/-- A command, rule instance, phase or memory access of the core is in flight; frozen results do not count (R34, 04 R83, 18 R302). -/
def State.somethingInFlight (s : State) : Bool :=
  let c := s.core
  let frozenSet := s.frozen && !c.interlocked && !s.energyHeld
  (!frozenSet && !c.flights.isEmpty) || c.defPosts.any c.postDue || s.copyLive .cld || s.copyLive .cst || s.fabricMoves ||
    (c.ruleList.any fun r => (ruleEng r.2.i == .vec && r.2.inst.any fun n => !n.staged || n.finished) || s.ruleIssues (Fin.ofNat 32 r.1)) ||
    !c.loads.isEmpty ||
    (!c.stores.isEmpty && c.storesOpen) || (engs.any fun e => c.replies.get e != .none || c.freplies.get e != .none) ||
    (engs.any fun e => let q := c.seqs.get e; q.entered && !q.ended && q.fetch.isNone) || s.polling || s.barLive || s.streamLive ||
    (engs.any fun e => (c.seqs.get e).wait == some (.stream true)) || !c.pend.isEmpty || c.draining
/-- Sequencers as bits in ENG order. -/
def engBits (p : Eng → Bool) : Nat := (engs.map fun e => if p e then 2 ^ engNo e else 0).sum
/-- DEADLOCK: every sequencer blocked and nothing in flight; precise at CTL's current word (R34, 25 R378). `step` asks first whether a
waiting word could go on. -/
def execEvDeadlock (s : State) : Out :=
  let c := s.core
  if c.task.isNone || c.halt != .run || !(engs.all s.seqBlocked) || (engs.all fun e => (c.seqs.get e).ended) && c.aside.isNone && c.quiet ||
      s.somethingInFlight then .next s
  else
    let q := c.seqs.ctl
    let w := q.word?.getD 0
    let info : TrapInfo :=
      { eng := .ctl, cause := Cause.deadlock, reason := 0, awd := q.awd, async := false, rulei := false, pc := q.pc, addr := 0,
        ruleid := 0, tsdone := 0, col := 0, row := 0, kstep := 0, slice := 0,
        aux := BitVec.ofNat 64 (engBits (fun e => !(c.seqs.get e).ended) + fld (engBits fun e => (c.seqs.get e).ended) 8), word := w }
    .next (s.mapCore fun c => c.takeTrap info .deadlock (w.extractLsb' 125 3 == 7#3 && !q.ended))

/-- The word at a sequencer's PC: from its fetch buffer, else as the text holds it. -/
def State.peekWord (s : State) (q : Seq) : Option W128 :=
  match q.word? with
  | some w => some w
  | none => (s.knownBlock (blkOf q.pc)).bind fun ws => ws[slotOf q.pc]?
/-- CTL's walk up to its next own word: the loop closes that are due and the words it passes over. -/
def State.ctlNext (s : State) : Nat → Seq → Seq
  | 0, q => q
  | n + 1, q =>
    if q.ended then q
    else if q.closing then s.ctlNext n { q.close.1 with closing := false }
    else match s.peekWord q with
      | some w => if (w.extractLsb' 125 3).toNat = 0 ∨ (w.extractLsb' 125 3).toNat = 7 then q else s.ctlNext n q.advance
      | none => q
/-- DROOP: a cycle of the fixed-timing clock is stretched; the trap names CTL, its next word and CYCLE (23 R341). -/
def execEvDroop (s : State) : Out :=
  let c := s.core
  if c.task.isNone || c.halt != .run || !(c.fixt || c.exch) then .next s
  else
    let q := s.ctlNext (2 ^ 64) c.seqs.ctl
    let info : TrapInfo :=
      { eng := .ctl, cause := Cause.droop, reason := 0, awd := q.awd, async := false, rulei := false, pc := q.pc, addr := 0,
        ruleid := 0, tsdone := 0, col := 0, row := 0, kstep := 0, slice := 0, aux := c.cycle, word := (s.peekWord q).getD 0 }
    .next (s.mapCore fun c => c.takeTrap info .droop false)

/-! ### Periods (23 R346, R349) -/

/-- ENERGY_REFILL: at the end of a deterministic task's period its share again; else, at the module's tick, the pool of every resident
context that is not deterministic (23 R346 to R348). -/
def execEvEnergyRefill (s : State) : Out :=
  match s.core.task, s.ctx? with
  | some t, some x =>
    if s.core.det then
      if s.core.eperiod < detPeriod then .next s
      else .next (s.mapCore fun c => { c with ebudget := BitVec.ofNat 32 (x.detShare t.g), eperiod := c.eperiod - detPeriod })
    else .next (s.mapDev fun d => { d with ctxs := d.ctxs.map fun y =>
      if (y.st == .resident || y.st == .stopping) && !y.launch.mode 0 then { y with epool := BitVec.ofNat 32 (d.granting y) } else y })
  | _, _ => .next (s.mapDev fun d => { d with ctxs := d.ctxs.map fun y =>
      if (y.st == .resident || y.st == .stopping) && !y.launch.mode 0 then { y with epool := BitVec.ofNat 32 (d.granting y) } else y })
/-- TENANT_BUDGET_REFILL: every tenant's budgets anew, and a budget written since takes effect (23 R349, 27 R391). -/
def execEvTenantBudgetRefill (s : State) : Out :=
  .next (s.mapDev fun d => { d with tenants := d.tenants.map fun t =>
    { t with eleft := if t.ebud = 0 then none else some t.ebud.toNat, mleft := budgetOf t.mbud, lleft := budgetOf t.lbud } })

/-! ### Thermal steps and reset (27 R397, 01 R16) -/

/-- A thermal step begins and is logged. -/
def State.thermalStep (s : State) (n : Nat) : State :=
  s.mapDev fun d => ({ d with thermal := d.thermal.set (n - 1) true }).logEvent (eventWord 5 n)
/-- THERMAL_STEP_1: the module grant halves (27 R397). -/
def execEvThermalStep1 (s : State) : Out := .next (s.thermalStep 1)
/-- THERMAL_STEP_2: every context is held (27 R397). -/
def execEvThermalStep2 (s : State) : Out := .next (s.thermalStep 2)
/-- What a module reset leaves: everything lost, the module's identifier kept, what is still to come of turns kept (01 R16). R16 does not say
whether GDDR7 and LPDDR6 keep their bytes: the model takes them as lost too, zero (log 86). -/
def State.moduleReset (s : State) (bootst : W64) : State :=
  { State.reset with dev := { Device.reset with modid := s.dev.modid, bootst := bootst }, agenda := s.agenda, tick := s.tick }
/-- THERMAL_STEP_3: power is removed and the module resets; the step is logged (27 R397). -/
def execEvThermalStep3 (s : State) : Out := .next ((s.moduleReset 0).mapDev fun d => d.logEvent (eventWord 5 3))
/-- THERMAL_STEP_END: the temperature falls below the trigger of the highest step that holds (27 R397). -/
def execEvThermalStepEnd (s : State) : Out :=
  .next (s.mapDev fun d => { d with thermal := d.thermal.set (if d.thermal.getD 1 false then 1 else 0) false })
/-- MODULE_RESET: all device state is lost; the firmware is verified, and a failure leaves its code in BOOTST and is logged (01 R16,
27 R394, R398). -/
def execEvModuleReset (bootst : W64) (s : State) : Out :=
  let s1 := s.moduleReset bootst
  .next (if bootst = 0 then s1
         else s1.mapDev fun d => d.logEvent (eventWord 4 (Config.eventDetail 4 bootst.toNat 0).toNat))

end Sys2Proof.Machine
end

