-- ==== Sys2Proof/Machine/HostIf.lean ====
section
/-!
DEFINITION. The host's transactions, the control block, its commands, events, attestation, and what arrives over the links (27 R389 to R399;
24 R367; 25 R380, R384; 18 R306).
-/
namespace Sys2Proof.Machine

/-! ### Refused accesses and errors outside any context (R389, R394; 25 R385) -/

/-- The requester class as a number, for the detail of an event (log 20). -/
def classNo (r : Requester) : Nat :=
  match r with
  | .hyp => 32
  | .tenant t => t.toNat
/-- A refused access or a discarded command, logged (R389, R394). -/
def Device.refuse (d : Device) (r : Requester) (off : Nat) : Device :=
  d.logEvent (eventWord 3 (Config.eventDetail 3 (classNo r) off).toNat)
/-- An uncorrectable error outside any context, logged (R394, 25 R385). -/
def Device.errorOutside (d : Device) (code a : Nat) : Device := d.logEvent (eventWord 2 (Config.eventDetail 2 code a).toNat)

/-! ### MEM (R389, R393) -/

/-- A range of memory as a requester reaches it: HYP by physical addresses of this module, a tenant through its tables. -/
def State.hostPieces (s : State) (r : Requester) (a n : Nat) (w : Want) : Option (List (Nat × Option (BitVec 512) × Nat)) :=
  match r with
  | .hyp =>
    let e := a + max n 1 - 1
    if (isGddr a && isGddr e) || (isLpddr a && isLpddr e) then some [(a, none, n)] else none
  | .tenant t => s.virtPieces t none a n w
/-- Bytes read from memory outside any context: damaged bytes read as free values (25 R385; log 17). -/
def State.readOutside (s : State) (ps : List (Nat × Option (BitVec 512) × Nat)) : List Byte :=
  ps.flatMap fun p => (List.range p.2.2).map fun k =>
    if s.badMem (p.1 + k) 1 then Config.badByte s.tick (p.1 + k) else s.physByte p.2.1 (p.1 + k)
/-- A release write of the device or the host leaves its mark on the bytes it wrote (R393, 20 R319). -/
def State.releasePieces (s : State) (ps : List (Nat × Option (BitVec 512) × Nat)) : State :=
  ps.foldl (fun (t : State) p => t.mapDev fun d => d.setMark p.1 p.2.2 [(.host, .device)]) s
/-- HOST_MEM_ACCESS (R389, R393): a read's bytes are what the host receives; HYP receives an error, no bytes, where a tenant reads
zeros. -/
def execEvHostMemAccess (r : Requester) (addr : W64) (write : Option (List Byte)) (n : Nat) (rel : Bool) (s : State) : Out :=
  let refused (zeros : List Byte) (keep : Bool) : Out :=
    .next (s.mapDev fun d => { (d.refuse r addr.toNat) with hostRead := if keep then d.hostRead else zeros })
  match write with
  | some bs =>
    match s.hostPieces r addr.toNat bs.length .wr with
    | none => refused [] true
    | some ps =>
      let s1 := s.writePieces bs ps
      .next (if rel then s1.releasePieces ps else s1)
  | none =>
    match s.hostPieces r addr.toNat n .rd with
    | none => refused (if r = .hyp then [] else List.replicate n 0) false
    | some ps =>
      let s1 := s.mapDev fun d => { d with hostRead := s.readOutside ps }
      match ps.find? fun p => s.badMem p.1 p.2.2 with
      | some p => .next (s1.mapDev fun d => d.errorOutside 7 p.1)
      | none => .next s1

/-! ### Commands (R392) -/

/-- Bit 63 of a command register. -/
def goBit : W64 := 1#64 <<< 63
/-- A command register holds a command under way. -/
def busyCmd (v : W64) : Bool := v.getLsbD 63
/-- A command complete. -/
def doneCmd (v : W64) : W64 := v &&& ~~~goBit

/-- CTXCMD written (R392, 24 R357, R367). An OP that the register does not name completes at once and is logged (log 19). -/
def State.writeCtxcmd (s : State) (v : W64) : State :=
  if busyCmd s.dev.ctxcmd then s.mapDev fun d => d.refuse .hyp 0x18
  else
    let w := v &&& 0x800000000003FFFF#64
    let id : W16 := v.setWidth 16
    let op := (v.extractLsb' 16 2).toNat
    let s1 := s.mapDev fun d => { d with ctxcmd := w }
    let done := s.mapDev fun d => { d with ctxcmd := doneCmd w }
    if !busyCmd v then s1
    else match s.dev.ctx? id with
      | none => done.mapDev fun d => d.refuse .hyp 0x18
      | some x =>
        if op = 1 then (if x.st == .saved then done else s1.stopCtx id .preempt)
        else if op = 2 then
          let s2 := if x.launch.chrt then s1.tellLaunch x.tenant x.launch (some x.rank) .kill else s1
          s2.stopCtx id .kill
        else done.mapDev fun d => d.refuse .hyp 0x18

/-- Pages that pins of a core hold (09 R185, 25 R384). -/
def Core.pinnedPages (c : Core) : List PageTr :=
  let copies := c.cld ++ c.cst ++ (match c.aside with | some a => a.cld ++ a.cst | none => [])
  (c.heldOperands.flatMap Operand.pages) ++ copies.filterMap fun q => q.cnt.map Prod.fst
/-- An invalidation is held: a pin covers a page of the range, or an access of the SC path already translated has not been performed (25
R384; the model asks it of every such access of the tenant, log 19). -/
def State.invalHeld (s : State) (t : BitVec 5) (base pages : Nat) : Bool :=
  s.tasked.any fun c => c.2.task.map Task.tenant == some t &&
    ((c.2.pinnedPages.any fun p => decide (base / 65536 < p.vpage + 2 ^ (p.sh - 16) ∧ p.vpage < base / 65536 + pages)) ||
      (c.2.stores.any fun e => !e.sp) || !c.2.loads.isEmpty || engs.any fun e => c.2.replies.get e == .asked)
/-- The invalidation under way completes where nothing holds it; a changed root is taken up (25 R384, 27 R391; log 19). -/
def State.tryInval (s : State) : State :=
  let t := s.dev.inval1.extractLsb' 32 5
  if busyCmd s.dev.inval1 && !s.invalHeld t s.dev.inval0.toNat (s.dev.inval1.setWidth 32).toNat then
    s.mapDev fun d => ({ d with inval1 := doneCmd d.inval1 }).mapTenant t fun x => { x with root := x.troot }
  else s
/-- INVAL1 written. -/
def State.writeInval1 (s : State) (v : W64) : State :=
  if busyCmd s.dev.inval1 then s.mapDev fun d => d.refuse .hyp 0x28
  else (s.mapDev fun d => { d with inval1 := v &&& 0x8000001FFFFFFFFF#64 }).tryInval
/-- INVAL0 written: it takes part in the command of INVAL1. -/
def State.writeInval0 (s : State) (v : W64) : State :=
  if busyCmd s.dev.inval1 then s.mapDev fun d => d.refuse .hyp 0x20
  else s.mapDev fun d => { d with inval0 := v &&& ~~~0xFFFF#64 }

/-- The clear of a key under way completes once no pin covers a page mapped with it (R392). -/
def State.tryKeyClear (s : State) : State :=
  let k := (s.dev.keycmd.setWidth 10).toNat
  let held : Bool := match s.dev.key k with
    | none => false
    | some v => s.tasked.any fun c => c.2.pinnedPages.any fun p => p.key == some v
  if busyCmd s.dev.keycmd && !held then
    s.mapDev fun d => { d with keycmd := doneCmd d.keycmd, keys := d.keys.filter fun x => x.1.toNat != k }
  else s
/-- KEYCMD written (R392). -/
def State.writeKeycmd (s : State) (v : W64) : State :=
  if busyCmd s.dev.keycmd then s.mapDev fun d => d.refuse .hyp 0x30
  else
    let w := v &&& 0x80000300000003FF#64
    let k : BitVec 10 := v.setWidth 10
    let op := (v.extractLsb' 40 2).toNat
    if !busyCmd v then s.mapDev fun d => { d with keycmd := w }
    else if op = 1 then
      s.mapDev fun d => { d with keycmd := doneCmd w, keys := (k, d.keydata) :: d.keys.filter fun x => x.1 != k }
    else if op = 2 then (s.mapDev fun d => { d with keycmd := w }).tryKeyClear
    else s.mapDev fun d => ({ d with keycmd := doneCmd w }).refuse .hyp 0x30

/-! ### Attestation (R398, R399) -/

/-- The bytes of a free value, lowest first. -/
def freeBytes {w : Nat} (n : Nat) (v : BitVec w) : List Byte := (List.range n).map fun k => v.extractLsb' (8 * k) 8
/-- The report (R399); the firmware's digest, the tenant's digest and the signature are free values (log 12). -/
def State.report (s : State) (nonce : List Byte) (tenant : Bool) : List Byte :=
  leBytes 4 0x54414B43 ++ List.replicate 4 0 ++ leBytes 8 s.dev.modid.toNat ++ nonce ++ freeBytes 64 (Config.attFirmware s.tick) ++
    (if tenant then freeBytes 64 (Config.attTenant s.tick) else List.replicate 64 0) ++ freeBytes 132 (Config.attSignature s.tick) ++
    List.replicate 172 0
/-- ATTADDR written by HYP or for a tenant: the report is written and released, and the register is 0 again; a buffer that cannot be
accessed is a failure, logged (R394, R399). -/
def State.attest (s : State) (party : Requester) (addr : Nat) : State :=
  let zero (d : Device) : Device := match party with
    | .hyp => { d with attaddr := 0 }
    | .tenant t => d.mapTenant t fun x => { x with attaddr := 0 }
  match s.hostPieces party addr 512 .rdwr with
  | none => s.mapDev fun d => (zero d).logEvent (eventWord 4 (Config.eventDetail 4 0 (classNo party)).toNat)
  | some ps =>
    let nonce := ((s.readOutside ps).drop 0x10).take 64
    (((s.writePieces (s.report nonce (party != .hyp)) ps).releasePieces ps)).mapDev zero

/-! ### The control block (R390, R391) -/

/-- The register lies where the requester reaches: HYP all, a tenant its own page and TAIL of the queues it owns (R389, R390). -/
def Device.reaches (d : Device) (r : Requester) (off : Nat) : Bool :=
  match r with
  | .hyp => true
  | .tenant t =>
    off / 0x100 == 0x100 + t.toNat ||
      (decide (0x20000 ≤ off ∧ off < 0x21000) && (d.queue (BitVec.ofNat 9 ((off - 0x20000) / 8))).tenant == t)
/-- A 64-bit word of KEYDATA replaced. -/
def setKeyWord (k : BitVec 512) (j : Nat) (v : W64) : BitVec 512 :=
  (k &&& ~~~((0xFFFFFFFFFFFFFFFF#512) <<< (64 * j))) ||| ((v.setWidth 512) <<< (64 * j))
/-- A register of a tenant's block written (R391). TROOT's address reaches translations at once where the tenant did not exist and has no
context, else through an invalidation (log 19). -/
def State.writeBlock (s : State) (t : BitVec 5) (o : Nat) (v : W64) : State :=
  s.mapDev fun d => d.mapTenant t fun x =>
    if o = 0 then
      let a := v.extractLsb' 12 37
      { x with troot := a, en := v.getLsbD 0, root := if !x.en && !(d.ctxs.any fun y => y.tenant == t) then a else x.root }
    else if o = 0x08 then { x with ebud := v.setWidth 32 }
    else if o = 0x10 then { x with mbud := v }
    else if o = 0x18 then { x with lbud := v }
    else if o = 0x20 then (if 1024 < (v.setWidth 11).toNat then x else { x with dshare := v.setWidth 11 })
    else x
/-- A mailbox written, with release or without (R393). -/
def State.writeMbx (s : State) (t : BitVec 5) (n : Nat) (v : W64) (rel : Bool) : State :=
  (s.mapDev fun d => d.mapTenant t fun x => { x with mbx := x.mbx.set n v }).mapDev fun d =>
    d.setMark (mailboxMark t n) 8 (if rel then [(.host, .device)] else [])
/-- A register of a tenant's page written (R390, R392, R399). -/
def State.writePage (s : State) (t : BitVec 5) (o : Nat) (v : W64) (rel : Bool) : State :=
  if o < 0x80 then s.writeMbx t (o / 8) v rel
  else if o = 0x80 then s.mapDev fun d => d.mapTenant t fun x => { x with ipend := x.ipend &&& ~~~(v.setWidth 16) }
  else if o = 0x88 then (s.mapDev fun d => d.mapTenant t fun x => { x with attaddr := v }).attest (.tenant t) v.toNat
  else s
/-- A write of HYP's part of the control block below the tenant blocks (R390). -/
def State.writeLow (s : State) (off : Nat) (v : W64) : State :=
  let table : W64 := v &&& ~~~0xFFF#64
  if off = 0x08 then s.mapDev fun d => { d with qtab := table }
  else if off = 0x10 then s.mapDev fun d => { d with stab := table }
  else if off = 0x18 then s.writeCtxcmd v
  else if off = 0x20 then s.writeInval0 v
  else if off = 0x28 then s.writeInval1 v
  else if off = 0x30 then s.writeKeycmd v
  else if 0x40 ≤ off ∧ off < 0x80 then s.mapDev fun d => { d with keydata := setKeyWord d.keydata ((off - 0x40) / 8) v }
  else if off = 0x90 then (s.mapDev fun d => { d with attaddr := v }).attest .hyp v.toNat
  else if 0x200 ≤ off ∧ off < 0xA00 then s.mapDev fun d => { d with route := d.route.set ((off - 0x200) / 8) (v.setWidth 24) }
  else s
/-- A host write of the control block (R389 to R392): refused outside the requester's reach, and without effect where no register lies. -/
def State.regWrite (s : State) (r : Requester) (off : Nat) (v : W64) (rel : Bool) : State :=
  if !s.dev.reaches r off then s.mapDev fun d => d.refuse r off
  else if off % 8 ≠ 0 then s
  else if off < 0x1000 then s.writeLow off v
  else if off < 0x1800 then s.writeBlock (BitVec.ofNat 5 ((off - 0x1000) / 0x40)) (off % 0x40) v
  else if 0x10000 ≤ off ∧ off < 0x12000 then s.writePage (BitVec.ofNat 5 ((off - 0x10000) / 0x100)) (off % 0x100) v rel
  else if 0x20000 ≤ off ∧ off < 0x21000 then
    s.mapQueue (BitVec.ofNat 9 ((off - 0x20000) / 8)) fun x => { x with tail := v.setWidth 32 }
  else s

/-- What a read of HYP's part below the tenant blocks returns (R390). -/
def Device.readLow (d : Device) (off : Nat) : W64 :=
  if off = 0x00 then d.modid
  else if off = 0x08 then d.qtab
  else if off = 0x10 then d.stab
  else if off = 0x18 then d.ctxcmd
  else if off = 0x20 then d.inval0
  else if off = 0x28 then d.inval1
  else if off = 0x30 then d.keycmd
  else if off = 0x80 then d.events.headD 0
  else if off = 0x88 then d.bootst
  else if off = 0x90 then d.attaddr
  else if 0x200 ≤ off ∧ off < 0xA00 then (d.route.getD ((off - 0x200) / 8) 0).setWidth 64
  else 0
/-- What a read of a tenant's block returns (R391). -/
def Tenant.readBlock (x : Tenant) (o : Nat) : W64 :=
  if o = 0 then BitVec.ofNat 64 (fld x.troot.toNat 12 + x.en.toNat)
  else if o = 0x08 then x.ebud.setWidth 64
  else if o = 0x10 then x.mbud
  else if o = 0x18 then x.lbud
  else if o = 0x20 then x.dshare.setWidth 64
  else 0
/-- What a read of a tenant's page returns (R390). -/
def Tenant.readPage (x : Tenant) (o : Nat) : W64 :=
  if o < 0x80 then x.mbx.getD (o / 8) 0
  else if o = 0x80 then x.ipend.setWidth 64
  else if o = 0x88 then x.attaddr
  else 0
/-- What a read of the control block returns, to a requester that reaches it (R390). -/
def Device.regRead (d : Device) (off : Nat) : W64 :=
  if off % 8 ≠ 0 then 0
  else if off < 0x1000 then d.readLow off
  else if off < 0x1800 then (d.tenant (BitVec.ofNat 5 ((off - 0x1000) / 0x40))).readBlock (off % 0x40)
  else if 0x10000 ≤ off ∧ off < 0x12000 then (d.tenant (BitVec.ofNat 5 ((off - 0x10000) / 0x100))).readPage (off % 0x100)
  else if 0x20000 ≤ off ∧ off < 0x21000 then ((d.queue (BitVec.ofNat 9 ((off - 0x20000) / 8))).tail).setWidth 64
  else 0
/-- The oldest event leaves the log, and events counted while it was full are reported now that there is room (R394). -/
def Device.popEvent (d : Device) : Device :=
  match d.events with
  | [] => d
  | _ :: r =>
    if d.dropped = 0 then { d with events := r }
    else { d with events := r ++ [eventWord 0xFF (min d.dropped (2 ^ 32 - 1))], dropped := 0 }

/-! ### The rows -/

/-- TAIL_WRITE (R390, R393; 24 R352). -/
def execEvTailWrite (r : Requester) (q : BitVec 9) (v : W64) (s : State) : Out := .next (s.regWrite r (0x20000 + 8 * q.toNat) v true)
/-- MAILBOX_WRITE (R393, 24 R364). -/
def execEvMailboxWrite (r : Requester) (t : BitVec 5) (n : BitVec 4) (v : W64) (rel : Bool) (s : State) : Out :=
  .next (s.regWrite r (0x10000 + 0x100 * t.toNat + 8 * n.toNat) v rel)
/-- CTXCMD with OP 1: pre-emption of a context (R392, 24 R357). -/
def execEvCtxcmdPreempt (ctx : W16) (s : State) : Out :=
  .next (s.regWrite .hyp 0x18 (goBit ||| 0x10000#64 ||| ctx.setWidth 64) false)
/-- CTXCMD with OP 2: the kill of a context (R392, 24 R367). -/
def execEvCtxcmdKill (ctx : W16) (s : State) : Out :=
  .next (s.regWrite .hyp 0x18 (goBit ||| 0x20000#64 ||| ctx.setWidth 64) false)
/-- INVALIDATE: the command is given, or, under way already, is completed where nothing holds it (25 R384, R392). -/
def execEvInvalidate (t : BitVec 5) (base : W64) (pages : W32) (s : State) : Out :=
  let b : W64 := base &&& ~~~0xFFFF#64
  let v : W64 := goBit ||| (t.setWidth 64 <<< 32) ||| pages.setWidth 64
  if busyCmd s.dev.inval1 && s.dev.inval0 == b && s.dev.inval1 == v then .next s.tryInval
  else .next ((s.regWrite .hyp 0x20 b false).regWrite .hyp 0x28 v false)
/-- KEY_LOAD (R392). -/
def execEvKeyLoad (k : BitVec 10) (s : State) : Out :=
  .next (s.regWrite .hyp 0x30 (goBit ||| (1#64 <<< 40) ||| k.setWidth 64) false)
/-- KEY_CLEAR: the command is given, or, under way already, is completed where no pin holds it (R392). -/
def execEvKeyClear (k : BitVec 10) (s : State) : Out :=
  let v : W64 := goBit ||| (2#64 <<< 40) ||| k.setWidth 64
  if s.dev.keycmd == v then .next s.tryKeyClear else .next (s.regWrite .hyp 0x30 v false)
/-- KEYCMD with OP 0 or 3 (R392); an OP that has an effect is written as such. -/
def execEvKeycmdNop (op : BitVec 2) (s : State) : Out :=
  .next (s.regWrite .hyp 0x30 (goBit ||| (op.setWidth 64 <<< 40)) false)
/-- EVENT_READ: a read of the control block; only that of EVENT changes anything beside what the host receives (R389, R390, R394). -/
def execEvEventRead (r : Requester) (off : W64) (s : State) : Out :=
  let o := off.toNat
  if !s.dev.reaches r o then .next (s.mapDev fun d => { (d.refuse r o) with hostRead := List.replicate 8 0 })
  else
    let s1 := s.mapDev fun d => { d with hostRead := leBytes 8 (d.regRead o).toNat }
    .next (if o = 0x80 then s1.mapDev Device.popEvent else s1)
/-- IPEND_CLEAR (R392). -/
def execEvIpendClear (r : Requester) (t : BitVec 5) (bits : W16) (s : State) : Out :=
  .next (s.regWrite r (0x10080 + 0x100 * t.toNat) (bits.setWidth 64) false)
/-- ATTEST_REQUEST: HYP writes its own ATTADDR, a tenant that of the tenant page named (R390, R399). -/
def execEvAttestRequest (r : Requester) (t : BitVec 5) (addr : W64) (s : State) : Out :=
  .next (s.regWrite r (if r = .hyp then 0x90 else 0x10088 + 0x100 * t.toNat) addr false)
/-- HOST_REG_WRITE (R390, R391). -/
def execEvHostRegWrite (r : Requester) (off : W64) (v : W64) (s : State) : Out := .next (s.regWrite r off.toNat v false)

/-! ### Links (R380, R395, R396) -/

/-- An answer to another module. -/
def State.answer (s : State) (m : LinkMsg) (k : LinkKind) : State :=
  s.mapDev fun d => { d with outbox := d.outbox ++ [{ m with kind := k }] }
/-- A port that has asked after it has been answered: what is no longer wanted is dropped. -/
def Reply.answered (old new : Reply) : Reply :=
  match old with
  | .asked => new
  | .unwanted => .none
  | r => r
/-- An answer received: it goes to the engine's port that asked, set aside or not, or is dropped where none waits for it. -/
def State.takeAnswer (s : State) (m : LinkMsg) (r : Reply) : State :=
  if 128 ≤ m.core then s
  else
    let c := s.coreAt m.core
    let put (p : PerEng Reply) : PerEng Reply := p.set m.port ((p.get m.port).answered r)
    s.setCoreAt m.core (if m.text then { c with freplies := put c.freplies }
      else if c.asideAsks m.port then { c with aside := c.aside.map fun a => { a with replies := put a.replies } }
      else { c with replies := put c.replies })
/-- A party named by another module, as this one names it: this module's rank in the launch is `own` (20 R316). -/
def crossParty (src own : Nat) (p : Party) : Party :=
  match p with
  | .core n l => .far src n l
  | .far r n l => if r = own then .core n l else p
  | .host | .farHost => .farHost
/-- Releases named by another module. -/
def State.crossed (s : State) (m : LinkMsg) (l : List (Party × Scope)) : List (Party × Scope) :=
  l.map fun x => (crossParty m.rank ((s.rankIn m.launch).getD 0) x.1, x.2)
/-- LINK_FLIT_RECEIVE: a flit that passes its check is taken; one that fails is sent again, and nothing changes (R395). -/
def execEvLinkFlitReceive (m : Option LinkMsg) (s : State) : Out :=
  match m with
  | none => .next s
  | some m =>
    let wait := s.mapDev fun d => { d with inbox := d.inbox ++ [m] }
    match m.kind with
    | .data bs ch => .next (s.takeAnswer m (.data bs (s.crossed m ch)))
    | .refused => .next (s.takeAnswer m .refused)
    | .stream sid home k =>
      (match k with
      | .check .. | .move _ | .stat _ | .held =>
        let p := s.streamAnswer m.rank m.tenant m.launch sid home k
        .next (p.2.answer m (.data p.1 []))
      | .item q bs c rel =>
        .next (s.streamMsg m.rank m.tenant m.launch m.core sid home (.item q bs c (rel.map fun x => (crossParty m.rank ((s.rankIn m.launch).getD 0) x.1, x.2))))
      | _ => .next (s.streamMsg m.rank m.tenant m.launch m.core sid home k))
    | .launch raw k =>
      let ids := (s.dev.ctxs.filter fun x => launchInforms k && x.tenant == m.tenant && x.launch.raw == raw).map Ctx.id
      .next (ids.foldl (fun (t : State) id => t.takeTold id) wait)
    | _ => .next wait

/-- An offset of this module as another module's access reaches it: the tenant's own tables, no window, no damaged unit, and no write to the
text of the launch that asks (R380, 03 R38). -/
def State.arriving (s : State) (m : LinkMsg) (off n : Nat) (w : Want) : Option (Nat × Option (BitVec 512)) :=
  let text := s.dev.ctxs.any fun x => x.tenant == m.tenant && x.launch.raw == m.launch && m.launch != [] &&
    inText (x.launch.num 8 8) (x.launch.num 0x10 4) off
  match s.leaf m.tenant off w with
  | .error _ => none
  | .ok (pa, k) => if isWindow pa || (w != .wr && s.badMem pa n) || (w.writes && text) then none else some (pa, k)
/-- An access from another module performed, with its answer (R380; 20 R319, R328); a step of a reducing copy is answered with 1 where it has
been applied, and with 0 where its turn has not come (09 R182). -/
def State.serve (s : State) (m : LinkMsg) : Option State :=
  let own (rels : List Scope) : List (Party × Scope) := rels.map fun sc => (if m.core < 128 then .far m.rank m.core m.launch else .farHost, sc)
  match m.kind with
  | .read ps =>
    match ps.mapM fun p => (s.arriving m p.1 p.2 (if m.text then .fetch else .rd)).map fun x => (x, p.2) with
    | some xs => some (s.answer m (.data (xs.flatMap fun x => s.readPhys x.1.2 x.1.1 x.2) (xs.flatMap fun x => s.marksOf x.1.1 x.2).dedup))
    | none => some (s.answer m .refused)
  | .write ps rels =>
    match ps.mapM fun p => (s.arriving m p.1 p.2.length .wr).map fun x => (x, p.2) with
    | some xs =>
      let s1 := xs.foldl (fun (u : State) x => (u.writePhys x.1.2 x.1.1 x.2).mapDev fun d => d.setMark x.1.1 x.2.length (own rels)) s
      some (if m.core < 128 then s1.answer m (.data [] []) else s1)
    | none => some (if m.core < 128 then s.answer m .refused else s)
  | .atomic op w g off v c rels =>
    match s.arriving m off (atSize w) .rdwr with
    | some x =>
      let ch := s.marksOf x.1 (atSize w)
      let p := s.atomicAt none x.2 x.1 op w g v c (own rels)
      some (p.2.answer m (.data p.1 ch))
    | none => some (s.answer m .refused)
  | .contribute int grp sq step last ps =>
    let k := Red.start m.tenant m.launch 0 grp
    let r := s.dev.red k
    let pass (t : State) : State := t.mapDev fun d => d.mapRed k fun x => x.pass sq
    if ps.isEmpty then some (if last then pass s else s)
    else if r.e ≠ sq then some (s.answer m (.data [0] []))
    else if step < r.done then some ((if last then pass s else s).answer m (.data [1] []))
    else match ps.mapM fun p => (s.arriving m p.1 4 .rdwr).map fun y => (y, p.2) with
      | none => some (s.answer m .refused)
      | some ys =>
        let s1 := ys.foldl (fun (u : State) y =>
          let old : W32 := BitVec.ofNat 32 (leNat (u.readPhys y.1.2 y.1.1 4))
          u.writePhys y.1.2 y.1.1 (leBytes 4 (credAdd int old y.2).toNat)) s
        let s2 := if last then pass s1 else s1.mapDev fun d => d.mapRed k fun x => { x with done := step + 1 }
        some (s2.answer m (.data [1] []))
  | _ => none
/-- REMOTE_WINDOW_ACCESS: the first access that has arrived and need not wait is performed or refused (R380). -/
def execEvRemoteWindowAccess (s : State) : Out :=
  match s.dev.inbox.zipIdx.findSome? fun x => (s.serve x.1).map fun t => (x.2, t) with
  | none => .next s
  | some (k, t) => .next (t.mapDev fun d => { d with inbox := d.inbox.take k ++ d.inbox.drop (k + 1) })

/-- LINKSLOT_REPAIR: the sender rebuilds its free count from the receiver's report, and the stream goes on (18 R306, R394). -/
def execEvLinkslotRepair (k : Nat) (s : State) : Out :=
  match s.dev.homes[k]? with
  | none => .next s
  | some h =>
    match h.paused, h.report with
    | true, some (n, q) =>
      let s1 := (s.mapHome h fun x =>
        { x with free := x.depth + x.back - n - x.inFlight q, back := 0, repair := if x.mine then x.repair else x.repair + 1, paused := false,
                 report := none }).tell [h.toHome .repaired]
      .next (s1.mapDev fun d => (d.logEvent (eventWord 1 (h.sid.toNat + fld h.tenant.toNat 32))).raise h.tenant 14)
    | _, _ => .next s

end Sys2Proof.Machine
end

