-- ==== Sys2Proof/Machine/Dispatch.lean ====
section
/-!
DEFINITION. One arm per instruction and event: the call of its meaning.
-/
namespace Sys2Proof.Machine

/-- What an instruction does: a word of the running sequencer, or an event of the core in front. -/
def exec (i : Instr) (s : State) : Host.Outcome State Fault Refusal :=
  match i with
  | .add d a o => Sys2Proof.Machine.execAdd d a o s
  | .sub d a o => Sys2Proof.Machine.execSub d a o s
  | .mul d a o => Sys2Proof.Machine.execMul d a o s
  | .mulh k d a o => Sys2Proof.Machine.execMulh k d a o s
  | .div g d a o => Sys2Proof.Machine.execDiv g d a o s
  | .rem g d a o => Sys2Proof.Machine.execRem g d a o s
  | .and d a o => Sys2Proof.Machine.execAnd d a o s
  | .or d a o => Sys2Proof.Machine.execOr d a o s
  | .xor d a o => Sys2Proof.Machine.execXor d a o s
  | .andn d a o => Sys2Proof.Machine.execAndn d a o s
  | .shl d a o => Sys2Proof.Machine.execShl d a o s
  | .shr d a o => Sys2Proof.Machine.execShr d a o s
  | .sra d a o => Sys2Proof.Machine.execSra d a o s
  | .rotl d a o => Sys2Proof.Machine.execRotl d a o s
  | .min g d a o => Sys2Proof.Machine.execMin g d a o s
  | .max g d a o => Sys2Proof.Machine.execMax g d a o s
  | .clz d a => Sys2Proof.Machine.execClz d a s
  | .popc d a => Sys2Proof.Machine.execPopc d a s
  | .setc c d a o => Sys2Proof.Machine.execSetc c d a o s
  | .sel d c a o => Sys2Proof.Machine.execSel d c a o s
  | .movi d v => Sys2Proof.Machine.execMovi d v s
  | .mov d a => Sys2Proof.Machine.execMov d a s
  | .lea d a o sh => Sys2Proof.Machine.execLea d a o sh s
  | .extr g d a pos w => Sys2Proof.Machine.execExtr g d a pos w s
  | .insr d a pos w => Sys2Proof.Machine.execInsr d a pos w s
  | .ld k d a off acq => Sys2Proof.Machine.execLd k d a off acq s
  | .st k a b off rel => Sys2Proof.Machine.execSt k a b off rel s
  | .ldsp k d a off acq => Sys2Proof.Machine.execLdsp k d a off acq s
  | .stsp k a b off rel => Sys2Proof.Machine.execStsp k a b off rel s
  | .waitge d a o sc => Sys2Proof.Machine.execWaitge d a o sc s
  | .atadd w d a o ord => Sys2Proof.Machine.execAtadd w d a o ord s
  | .atand w d a o ord => Sys2Proof.Machine.execAtand w d a o ord s
  | .ator w d a o ord => Sys2Proof.Machine.execAtor w d a o ord s
  | .atxor w d a o ord => Sys2Proof.Machine.execAtxor w d a o ord s
  | .atmin w g d a o ord => Sys2Proof.Machine.execAtmin w g d a o ord s
  | .atmax w g d a o ord => Sys2Proof.Machine.execAtmax w g d a o ord s
  | .atswp w d a o ord => Sys2Proof.Machine.execAtswp w d a o ord s
  | .atcas w d a c o ord => Sys2Proof.Machine.execAtcas w d a c o ord s
  | .mark => Sys2Proof.Machine.execMark s
  | .fence k sc => Sys2Proof.Machine.execFence k sc s
  | .fencex x y => Sys2Proof.Machine.execFencex x y s
  | .bar k => Sys2Proof.Machine.execBar k s
  | .barPart n => Sys2Proof.Machine.execBarPart n s
  | .hmov ha hb => Sys2Proof.Machine.execHmov ha hb s
  | .hld h a off => Sys2Proof.Machine.execHld h a off s
  | .hst h a off => Sys2Proof.Machine.execHst h a off s
  | .hsetb spc h o => Sys2Proof.Machine.execHsetb spc h o s
  | .hsetx h k o => Sys2Proof.Machine.execHsetx h k o s
  | .hsets h o => Sys2Proof.Machine.execHsets h o s
  | .hsetf h o => Sys2Proof.Machine.execHsetf h o s
  | .hget d h sel => Sys2Proof.Machine.execHget d h sel s
  | .hoff h k o => Sys2Proof.Machine.execHoff h k o s
  | .hclr h => Sys2Proof.Machine.execHclr h s
  | .tlook d a => Sys2Proof.Machine.execTlook d a s
  | .tset a o => Sys2Proof.Machine.execTset a o s
  | .tclr o => Sys2Proof.Machine.execTclr o s
  | .tclrAll => Sys2Proof.Machine.execTclrAll s
  | .tinfo d o => Sys2Proof.Machine.execTinfo d o s
  | .ropen h => Sys2Proof.Machine.execRopen h s
  | .rslice h o => Sys2Proof.Machine.execRslice h o s
  | .rclose h => Sys2Proof.Machine.execRclose h s
  | .inst d ha hb o quiet post out carry => Sys2Proof.Machine.execInst d ha hb o quiet post out carry s
  | .rvk o => Sys2Proof.Machine.execRvk o s
  | .rvkat a o => Sys2Proof.Machine.execRvkat a o s
  | .rqryRule d o => Sys2Proof.Machine.execRqryRule d o s
  | .rqryRec d o => Sys2Proof.Machine.execRqryRec d o s
  | .rqryCur d o => Sys2Proof.Machine.execRqryCur d o s
  | .rres o => Sys2Proof.Machine.execRres o s
  | .snew ha hb o => Sys2Proof.Machine.execSnew ha hb o s
  | .ssend nb d h a o rel => Sys2Proof.Machine.execSsend nb d h a o rel s
  | .srecv nb d h a o acq => Sys2Proof.Machine.execSrecv nb d h a o acq s
  | .ssendh nb d ha hb rel => Sys2Proof.Machine.execSsendh nb d ha hb rel s
  | .srecvh nb d ha hb acq => Sys2Proof.Machine.execSrecvh nb d ha hb acq s
  | .sbind ha hb o => Sys2Proof.Machine.execSbind ha hb o s
  | .sbindOff h => Sys2Proof.Machine.execSbindOff h s
  | .sclose h => Sys2Proof.Machine.execSclose h s
  | .sdrop h => Sys2Proof.Machine.execSdrop h s
  | .sstat d h => Sys2Proof.Machine.execSstat d h s
  | .srd d n => Sys2Proof.Machine.execSrd d n s
  | .swr n o => Sys2Proof.Machine.execSwr n o s
  | .mbxrd d n acq => Sys2Proof.Machine.execMbxrd d n acq s
  | .trap v => Sys2Proof.Machine.execTrap v s
  | .eret => Sys2Proof.Machine.execEret s
  | .eretSkip => Sys2Proof.Machine.execEretSkip s
  | .yield => Sys2Proof.Machine.execYield s
  | .exit => Sys2Proof.Machine.execExit s
  | .post e f n => Sys2Proof.Machine.execPost e f n s
  | .await e f n => Sys2Proof.Machine.execAwait e f n s
  | .postTail e c => Sys2Proof.Machine.execPostTail e c s
  | .awaitTail e c => Sys2Proof.Machine.execAwaitTail e c s
  | .aset d v => Sys2Proof.Machine.execAset d v s
  | .aadd d a v => Sys2Proof.Machine.execAadd d a v s
  | .aaddReg d a b => Sys2Proof.Machine.execAaddReg d a b s
  | .ashl d a n => Sys2Proof.Machine.execAshl d a n s
  | .ard q a nrow rstr off => Sys2Proof.Machine.execArd q a nrow rstr off s
  | .ardb q a nrow rstr off => Sys2Proof.Machine.execArdb q a nrow rstr off s
  | .waitwp ch w => Sys2Proof.Machine.execWaitwp ch w s
  | .aldi d a l v => Sys2Proof.Machine.execAldi d a l v s
  | .vadd ty rm d a b imm => Sys2Proof.Machine.execVadd ty rm d a b imm s
  | .vsub ty rm d a b imm => Sys2Proof.Machine.execVsub ty rm d a b imm s
  | .vmul ty rm d a b imm => Sys2Proof.Machine.execVmul ty rm d a b imm s
  | .vfma ty rm d a b c imm => Sys2Proof.Machine.execVfma ty rm d a b c imm s
  | .vfms ty rm d a b c imm => Sys2Proof.Machine.execVfms ty rm d a b c imm s
  | .vfnma ty rm d a b c imm => Sys2Proof.Machine.execVfnma ty rm d a b c imm s
  | .vmin ty rm d a b imm => Sys2Proof.Machine.execVmin ty rm d a b imm s
  | .vmax ty rm d a b imm => Sys2Proof.Machine.execVmax ty rm d a b imm s
  | .vabs ty rm d a imm => Sys2Proof.Machine.execVabs ty rm d a imm s
  | .vneg ty rm d a imm => Sys2Proof.Machine.execVneg ty rm d a imm s
  | .vdiv ty rm d a b imm => Sys2Proof.Machine.execVdiv ty rm d a b imm s
  | .vdivRem ty d a b imm => Sys2Proof.Machine.execVdivRem ty d a b imm s
  | .vfma16 rm d a b c imm => Sys2Proof.Machine.execVfma16 rm d a b c imm s
  | .viadd ty sat d a b imm => Sys2Proof.Machine.execViadd ty sat d a b imm s
  | .visub ty sat d a b imm => Sys2Proof.Machine.execVisub ty sat d a b imm s
  | .vimul ty sat d a b imm => Sys2Proof.Machine.execVimul ty sat d a b imm s
  | .vimulh ty d a b imm => Sys2Proof.Machine.execVimulh ty d a b imm s
  | .vimin ty d a b imm => Sys2Proof.Machine.execVimin ty d a b imm s
  | .vimax ty d a b imm => Sys2Proof.Machine.execVimax ty d a b imm s
  | .vand ty d a b imm => Sys2Proof.Machine.execVand ty d a b imm s
  | .vor ty d a b imm => Sys2Proof.Machine.execVor ty d a b imm s
  | .vxor ty d a b imm => Sys2Proof.Machine.execVxor ty d a b imm s
  | .vshl ty d a b imm => Sys2Proof.Machine.execVshl ty d a b imm s
  | .vshr ty d a b imm => Sys2Proof.Machine.execVshr ty d a b imm s
  | .vsra ty d a b imm => Sys2Proof.Machine.execVsra ty d a b imm s
  | .vcmp cc ty d a b imm => Sys2Proof.Machine.execVcmp cc ty d a b imm s
  | .vsel d a b c imm => Sys2Proof.Machine.execVsel d a b c imm s
  | .vcvt dt st rm d a imm => Sys2Proof.Machine.execVcvt dt st rm d a imm s
  | .vmov d a imm => Sys2Proof.Machine.execVmov d a imm s
  | .vseti d a row col v => Sys2Proof.Machine.execVseti d a row col v s
  | .viota k d base => Sys2Proof.Machine.execViota k d base s
  | .vrngRaw d a key => Sys2Proof.Machine.execVrngRaw d a key s
  | .vrngUni d a key => Sys2Proof.Machine.execVrngUni d a key s
  | .vclamp ty d a b c imm => Sys2Proof.Machine.execVclamp ty d a b c imm s
  | .vrot ax amt d a imm => Sys2Proof.Machine.execVrot ax amt d a imm s
  | .vbcast ax amt d a imm => Sys2Proof.Machine.execVbcast ax amt d a imm s
  | .vshiftDn ax amt d a imm => Sys2Proof.Machine.execVshiftDn ax amt d a imm s
  | .vshiftUp ax amt d a imm => Sys2Proof.Machine.execVshiftUp ax amt d a imm s
  | .vrsum ty rm sat ax d a imm => Sys2Proof.Machine.execVrsum ty rm sat ax d a imm s
  | .vscanIncl ty rm sat ax d a imm => Sys2Proof.Machine.execVscanIncl ty rm sat ax d a imm s
  | .vscanExcl ty rm sat ax d a imm => Sys2Proof.Machine.execVscanExcl ty rm sat ax d a imm s
  | .vrmax ty ax d a imm => Sys2Proof.Machine.execVrmax ty ax d a imm s
  | .vrmin ty ax d a imm => Sys2Proof.Machine.execVrmin ty ax d a imm s
  | .vrmaxi ty ax d a imm => Sys2Proof.Machine.execVrmaxi ty ax d a imm s
  | .vrmini ty ax d a imm => Sys2Proof.Machine.execVrmini ty ax d a imm s
  | .vexp ty rm d a imm => Sys2Proof.Machine.execVexp ty rm d a imm s
  | .vexp2 ty rm d a imm => Sys2Proof.Machine.execVexp2 ty rm d a imm s
  | .vln ty rm d a imm => Sys2Proof.Machine.execVln ty rm d a imm s
  | .vlog2 ty rm d a imm => Sys2Proof.Machine.execVlog2 ty rm d a imm s
  | .vrcp ty rm d a imm => Sys2Proof.Machine.execVrcp ty rm d a imm s
  | .vrsqrt ty rm d a imm => Sys2Proof.Machine.execVrsqrt ty rm d a imm s
  | .vsqrt ty rm d a imm => Sys2Proof.Machine.execVsqrt ty rm d a imm s
  | .vtanh ty rm d a imm => Sys2Proof.Machine.execVtanh ty rm d a imm s
  | .vsigm ty rm d a imm => Sys2Proof.Machine.execVsigm ty rm d a imm s
  | .vgelu ty rm d a imm => Sys2Proof.Machine.execVgelu ty rm d a imm s
  | .verf ty rm d a imm => Sys2Proof.Machine.execVerf ty rm d a imm s
  | .vunpk hi ty rm amt d a imm => Sys2Proof.Machine.execVunpk hi ty rm amt d a imm s
  | .vpack fmt sg amt n d a b c => Sys2Proof.Machine.execVpack fmt sg amt n d a b c s
  | .vpkbf rm d a b imm => Sys2Proof.Machine.execVpkbf rm d a b imm s
  | .vupbf hi d a imm => Sys2Proof.Machine.execVupbf hi d a imm s
  | .mma c bk da db ks ecl clr rls tl => Sys2Proof.Machine.execMma c bk da db ks ecl clr rls tl s
  | .mclr bk tl => Sys2Proof.Machine.execMclr bk tl s
  | .moutTile bk t4 epi clr bias scale bf tl => Sys2Proof.Machine.execMoutTile bk t4 epi clr bias scale bf tl s
  | .moutHandle bk ho epi clr bias scale tl => Sys2Proof.Machine.execMoutHandle bk ho epi clr bias scale tl s
  | .mgate bs bd aa ab cmp bias tl => Sys2Proof.Machine.execMgate bs bd aa ab cmp bias tl s
  | .mscan bk n bc kc reset tl => Sys2Proof.Machine.execMscan bk n bc kc reset tl s
  | .mcarryZ bk tl => Sys2Proof.Machine.execMcarryZ bk tl s
  | .mcarryLd bk bx row tl => Sys2Proof.Machine.execMcarryLd bk bx row tl s
  | .mcarrySt bk bx row tl => Sys2Proof.Machine.execMcarrySt bk bx row tl s
  | .dclaim da n tl => Sys2Proof.Machine.execDclaim da n tl s
  | .drel da n tl => Sys2Proof.Machine.execDrel da n tl s
  | .dqry ho tl => Sys2Proof.Machine.execDqry ho tl s
  | .mmah c bk da db ks ecl clr rls tl => Sys2Proof.Machine.execMmah c bk da db ks ecl clr rls tl s
  | .cpy e slice hs hd cnt ch tl => Sys2Proof.Machine.execCpy e slice hs hd cnt ch tl s
  | .cpyf slice hs hd cnt ch tl => Sys2Proof.Machine.execCpyf slice hs hd cnt ch tl s
  | .cred int hs hd cnt sq grp ch tl => Sys2Proof.Machine.execCred int hs hd cnt sq grp ch tl s
  | .cfil e sx hd cnt v ch tl => Sys2Proof.Machine.execCfil e sx hd cnt v ch tl s
  | .ctier e up hs hd cnt ch tl => Sys2Proof.Machine.execCtier e up hs hd cnt ch tl s
  | .ccnt e cnt tl => Sys2Proof.Machine.execCcnt e cnt tl s
  | .fcfg h tl => Sys2Proof.Machine.execFcfg h tl s
  | .fbind h port cnt tl => Sys2Proof.Machine.execFbind h port cnt tl s
  | .fbindC h out cnt tl => Sys2Proof.Machine.execFbindC h out cnt tl s
  | .fgo n tl => Sys2Proof.Machine.execFgo n tl s
  | .fbar n tl => Sys2Proof.Machine.execFbar n tl s
  | .fbarRec h n tl => Sys2Proof.Machine.execFbarRec h n tl s
  | .fstop tl => Sys2Proof.Machine.execFstop tl s
  | .fstopRec h tl => Sys2Proof.Machine.execFstopRec h tl s
  | .nop m => Sys2Proof.Machine.execNop m s
  | .br m c sa sb tgt => Sys2Proof.Machine.execBr m c sa sb tgt s
  | .jmp m tgt => Sys2Proof.Machine.execJmp m tgt s
  | .jmpIndirect m sa => Sys2Proof.Machine.execJmpIndirect m sa s
  | .call m tgt => Sys2Proof.Machine.execCall m tgt s
  | .ret m => Sys2Proof.Machine.execRet m s
  | .loop m l sa rot tgt imm => Sys2Proof.Machine.execLoop m l sa rot tgt imm s
  | .brk m c l sa sb tgt => Sys2Proof.Machine.execBrk m c l sa sb tgt s
  | .mode exposed => Sys2Proof.Machine.execMode exposed s
  | .rotset m n => Sys2Proof.Machine.execRotset m n s
  | .sync m => Sys2Proof.Machine.execSync m s
  | .syncRetire m => Sys2Proof.Machine.execSyncRetire m s
  | .evLoadResultArrive d => Sys2Proof.Machine.execEvLoadResultArrive d s
  | .evWaitgeSatisfy => Sys2Proof.Machine.execEvWaitgeSatisfy s
  | .evBarDepart => Sys2Proof.Machine.execEvBarDepart s
  | .evDeferredPostEffect imm => Sys2Proof.Machine.execEvDeferredPostEffect imm s
  | .evAwaitSuccess e => Sys2Proof.Machine.execEvAwaitSuccess e s
  | .evWaitwpComplete => Sys2Proof.Machine.execEvWaitwpComplete s
  | .evResultLand imm => Sys2Proof.Machine.execEvResultLand imm s
  | .evMatKstep => Sys2Proof.Machine.execEvMatKstep s
  | .evEpilogueTileStep => Sys2Proof.Machine.execEvEpilogueTileStep s
  | .evCopyStart e => Sys2Proof.Machine.execEvCopyStart e s
  | .evCopyTileStep e => Sys2Proof.Machine.execEvCopyTileStep e s
  | .evCopyRetire e => Sys2Proof.Machine.execEvCopyRetire e s
  | .evCredApply e => Sys2Proof.Machine.execEvCredApply e s
  | .evFollowOnIssue => Sys2Proof.Machine.execEvFollowOnIssue s
  | .evFeederToken p => Sys2Proof.Machine.execEvFeederToken p s
  | .evStripFire imm => Sys2Proof.Machine.execEvStripFire imm s
  | .evOutputPortToken p => Sys2Proof.Machine.execEvOutputPortToken p s
  | .evPhaseDrain => Sys2Proof.Machine.execEvPhaseDrain s
  | .evLoopClose e => Sys2Proof.Machine.execEvLoopClose e s
  | .evModeDrainDone => Sys2Proof.Machine.execEvModeDrainDone s
  | .evSeqReattach e => Sys2Proof.Machine.execEvSeqReattach e s
  | .evTextFetch e => Sys2Proof.Machine.execEvTextFetch e s
  | .evRuleInstanceIssue id => Sys2Proof.Machine.execEvRuleInstanceIssue id s
  | .evRuleInstanceRetire id => Sys2Proof.Machine.execEvRuleInstanceRetire id s
  | .evStreamItemArrive k j => Sys2Proof.Machine.execEvStreamItemArrive k j s
  | .evStreamSlotReturn k => Sys2Proof.Machine.execEvStreamSlotReturn k s
  | .evStreamMoveGrant k recv => Sys2Proof.Machine.execEvStreamMoveGrant k recv s
  | .evSendEndReply k => Sys2Proof.Machine.execEvSendEndReply k s
  | .evWaypointForward k => Sys2Proof.Machine.execEvWaypointForward k s
  | .evWaypointRetire k recv => Sys2Proof.Machine.execEvWaypointRetire k recv s
  | .evStreamLoss k recv => Sys2Proof.Machine.execEvStreamLoss k recv s
  | .evSbindSliceWrite k => Sys2Proof.Machine.execEvSbindSliceWrite k s
  | .evStreamCensus k => Sys2Proof.Machine.execEvStreamCensus k s
  | .evLinkslotRepair k => Sys2Proof.Machine.execEvLinkslotRepair k s
  | .evLaunchRecordRead q => Sys2Proof.Machine.execEvLaunchRecordRead q s
  | .evGangAdmit q slot cores => Sys2Proof.Machine.execEvGangAdmit q slot cores s
  | .evTaskEnd => Sys2Proof.Machine.execEvTaskEnd s
  | .evChartAbort q => Sys2Proof.Machine.execEvChartAbort q s
  | .evLaunchKillAbort ctx => Sys2Proof.Machine.execEvLaunchKillAbort ctx s
  | .evEscalationStop ctx cause => Sys2Proof.Machine.execEvEscalationStop ctx cause s
  | .evQueueEnable q => Sys2Proof.Machine.execEvQueueEnable q s
  | .evSliceExpiry q => Sys2Proof.Machine.execEvSliceExpiry q s
  | .evWaitGuardExpiry q => Sys2Proof.Machine.execEvWaitGuardExpiry q s
  | .evQueuePreempt w ctx => Sys2Proof.Machine.execEvQueuePreempt w ctx s
  | .evQueueGrant q => Sys2Proof.Machine.execEvQueueGrant q s
  | .evPreemptRequest ctx => Sys2Proof.Machine.execEvPreemptRequest ctx s
  | .evHandlerPreemptTimeout => Sys2Proof.Machine.execEvHandlerPreemptTimeout s
  | .evContextSave ctx => Sys2Proof.Machine.execEvContextSave ctx s
  | .evContextRestore ctx slot cores => Sys2Proof.Machine.execEvContextRestore ctx slot cores s
  | .evTrapEntry => Sys2Proof.Machine.execEvTrapEntry s
  | .evEscalate ctx => Sys2Proof.Machine.execEvEscalate ctx s
  | .evDeadlock => Sys2Proof.Machine.execEvDeadlock s
  | .evDroop => Sys2Proof.Machine.execEvDroop s
  | .evEnergyRefill => Sys2Proof.Machine.execEvEnergyRefill s
  | .evTenantBudgetRefill => Sys2Proof.Machine.execEvTenantBudgetRefill s
  | .evThermalStep1 => Sys2Proof.Machine.execEvThermalStep1 s
  | .evThermalStep2 => Sys2Proof.Machine.execEvThermalStep2 s
  | .evThermalStep3 => Sys2Proof.Machine.execEvThermalStep3 s
  | .evModuleReset bootst => Sys2Proof.Machine.execEvModuleReset bootst s
  | .evLinkFlitReceive m => Sys2Proof.Machine.execEvLinkFlitReceive m s
  | .evRemoteWindowAccess => Sys2Proof.Machine.execEvRemoteWindowAccess s
  | .evHostMemAccess r addr write n rel => Sys2Proof.Machine.execEvHostMemAccess r addr write n rel s
  | .evTailWrite r q v => Sys2Proof.Machine.execEvTailWrite r q v s
  | .evMailboxWrite r t n v rel => Sys2Proof.Machine.execEvMailboxWrite r t n v rel s
  | .evCtxcmdPreempt ctx => Sys2Proof.Machine.execEvCtxcmdPreempt ctx s
  | .evCtxcmdKill ctx => Sys2Proof.Machine.execEvCtxcmdKill ctx s
  | .evInvalidate t base pages => Sys2Proof.Machine.execEvInvalidate t base pages s
  | .evKeyLoad k => Sys2Proof.Machine.execEvKeyLoad k s
  | .evKeyClear k => Sys2Proof.Machine.execEvKeyClear k s
  | .evKeycmdNop op => Sys2Proof.Machine.execEvKeycmdNop op s
  | .evEventRead r off => Sys2Proof.Machine.execEvEventRead r off s
  | .evIpendClear r t bits => Sys2Proof.Machine.execEvIpendClear r t bits s
  | .evAttestRequest r t addr => Sys2Proof.Machine.execEvAttestRequest r t addr s
  | .evHostRegWrite r off v => Sys2Proof.Machine.execEvHostRegWrite r off v s
  | .evThermalStepEnd => Sys2Proof.Machine.execEvThermalStepEnd s
  | .evStorePerformed => Sys2Proof.Machine.execEvStorePerformed s

end Sys2Proof.Machine
end

