-- ==== Sys2Proof/Machine/Walk.lean ====
section
/-!
DEFINITION. One turn of a sequencer: entering blocks, recognising its words, decoding and issuing them (03 R35 to R38, R50, R51; 04 R56 to
R59, R77, R78; 05 R106; 09 R181; 16 R273; 25 R374); what a soft error does; and which turns a held or failed module takes.
-/
namespace Sys2Proof.Machine

/-! ### Blocks -/

/-- Entries of the path that no sequencer needs any more leave it (R57 to R59). -/
def Core.pruneTrail (c : Core) : Core :=
  let low := engs.foldl (fun n e => let q := c.seqs.get e; if q.detached && !q.ended then min n (q.skip + 1) else n) c.pmin
  { c with trail := c.trail.filter fun x => decide (low ≤ x.1), exits := c.exits.filter fun x => decide (low ≤ x.1) }
/-- An attached sequencer enters a block: the path holds it from then on (R57). -/
def Core.noteEntry (c : Core) (pos blk : Nat) : Core :=
  if c.trail.any fun x => x.1 == pos then c else { c.pruneTrail with trail := c.pruneTrail.trail ++ [(pos, blk)] }
/-- A sequencer at the start of its next block: past the end of the text it raises ILLOP, with a zero word in its record, as no word stands there
(log 89); else it enters when the tether allows; a block is fetched anew for each pass (R38, R59). -/
def State.enterBlock (s : State) (e : Eng) : State :=
  let c := s.core
  let q := c.seqs.get e
  if s.tlen ≤ blkOf q.pc then
    ({ s with who := e, cur := { word := 0, pc := q.pc, pos := q.pos, slot := 0 } }).trap fIllop
  else if !q.detached && !c.tetherOk q.pos then
    s.mapSeq e fun q => { q with wait := some (if c.pminLockstep then .internal else .external), tried := true }
  else
    let s1 := s.mapSeq e fun q => { q with entered := true, fetch := none, wait := none, tried := false }
    if q.detached then s1 else s1.mapCore fun c => c.noteEntry q.pos (blkOf q.pc)

/-! ### Words (R35, R51, R56) -/

/-- The engine tag of a word. -/
def engTag (w : W128) : Nat := (w.extractLsb' 125 3).toNat
/-- EMASK of a MUL word. -/
def emaskOf (w : W128) : EMask := w.extractLsb' 105 7
/-- The word transfers control, by its OP (R63). -/
def isTransfer (w : W128) : Bool := let op := (w.extractLsb' 118 7).toNat; decide (1 ≤ op ∧ op ≤ 6)
/-- EXIT by its header (05 R106). -/
def isExit (w : W128) : Bool := w.extractLsb' 112 16 == 0x1D80#16
/-- ERET and ERET.SKIP by their headers (25 R374). -/
def isEret (w : W128) : Bool := w.extractLsb' 113 15 == 0x0E80#15
/-- The word before the one at a PC in the same block. -/
def Seq.before (q : Seq) : W128 :=
  match q.fetch with
  | some (_, ws) => if slotOf q.pc = 0 then 0 else ws.getD (slotOf q.pc - 1) 0
  | none => 0
/-- What a sequencer does with the word at which it stands. -/
inductive Reading where
  /-- It passes over the word (R56; a FENCEX counts from the first sequencer that does, 20 R325), over a word that INST installs (16 R273), or over a CPYF's follow-on (09 R181). -/
  | pass (installed : Bool)
  /-- It waits at an EXIT or ERET that is CTL's to execute (05 R106, 25 R374). -/
  | exit
  | eret
  /-- It falls through a MUL word whose mask leaves it out (R57, R58). -/
  | fall
  /-- The word is its own, well-formed or not. -/
  | own (i : Option Instr)
deriving DecidableEq, Repr
/-- How a sequencer takes a word; `prev` is the word before it in the block. -/
def readWord (e : Eng) (handler : Bool) (prev w : W128) : Reading :=
  let i := (decode w).toOption
  if e != .ctl && isExit w then .exit
  else if e != .ctl && handler && isEret w then .eret
  else if engTag w = 7 then (if e == .ctl || inMask (emaskOf w) e then .own i else .fall)
  else if engTag w != engNo e then .pass false
  else if isInst prev then .pass true
  else if e == .mat && isCpyf prev then .pass false
  else .own i
/-- A binding that a rule takes claims nothing: what it had claimed as a program reader is given back (16 R270, R273). -/
def Core.unclaim (c : Core) (b : Bind) : Core :=
  let o := b.opnd
  let m := o.count / max 1 (hSlice o.h)
  if o.ring && hOpen o.h then
    (c.mapRec (hOtid o.h) fun r => { r with rc := if r.rc = o.slice + m then o.slice else r.rc }).dropReader (hOtid o.h) o.slice m
  else c
/-- FAB passes over an FGO that an INST installs: the bindings pending there are the rule's (16 R273). -/
def Core.leaveBinds (c : Core) (e : Eng) (installed : Bool) (pos slot : Nat) : Core :=
  if e == .fab && installed then
    let bs := c.fabric.pendBinds
    ((bs.reverse.foldl Core.unclaim c)).mapFab fun f =>
      { f with pendBinds := [], instBinds := f.instBinds ++ [(pos, slot, bs.map fun b => { b with opnd := { b.opnd with ring := false, slice := 0 } })] }
  else c

/-- A sequencer's own word: a malformed one raises ILLOP, but for a MUL word away from CTL, which waits for CTL's trap (R50, R51). -/
def State.ownWord (s : State) (i : Option Instr) : Out :=
  match i with
  | some i => exec i s
  | none => if s.isMul && s.who != .ctl then .next (s.waiting .external) else .next (s.trap fIllop)
/-- The word at a sequencer's PC taken for once: `s` has it as the running word. -/
def State.takeWord (s : State) (t : Reading) : Out :=
  match t with
  | .pass b =>
    let fence (c : Core) : Core := match decode s.cur.word with
      | .ok (.fencex x y) => c.addFence { pos := s.cur.pos, slot := s.cur.slot, x := x, y := y }
      | _ => c
    .next ((s.mapCore fun c => fence (c.leaveBinds s.who b s.cur.pos s.cur.slot)).passOver)
  | .exit => execExit s
  | .eret => .next (s.waiting .internal)
  | .fall => .next (s.skipMul (isTransfer s.cur.word))
  | .own i =>
    if s.seq.detached then .next (s.waiting .external)
    else if s.seq.due ≤ s.core.clockOf s.who then s.ownWord i
    else .next s
/-- The state with a sequencer's word as the running one, and how it takes it; none before it has entered a block and has its words. -/
def State.atWord (s : State) (e : Eng) : Option (State × Reading) :=
  let q := s.core.seqs.get e
  if q.ended || q.closing || !q.entered then none
  else q.word?.map fun w =>
    ({ s with who := e, cur := { word := w, pc := q.pc, pos := q.pos, slot := slotOf q.pc } },
      readWord e s.core.aside.isSome q.before w)

/-! ### Exposed mode: nothing issues in a frozen cycle (R77, R78) -/

/-- A sequencer waits at its word after an attempt: it has not issued. -/
def Seq.stillAt (q : Seq) (q' : Seq) : Bool := q'.wait.isSome && q'.pc == q.pc && !q'.ended
/-- A due lockstep sequencer that has not tried its word in this cycle: it is not yet at an own word, or would wait there for something
external. -/
def State.mightFreeze (s : State) (g : Eng) : Bool :=
  let q := s.core.seqs.get g
  if q.ended || !s.core.isDue q || q.tried then false
  else match s.atWord g with
    | some (t, .own i) =>
      q.detached || (match t.ownWord i with
        | .next u => q.stillAt (u.core.seqs.get g) && (u.core.seqs.get g).wait.any Wait.freezes
        | _ => false)
    | some (_, .exit) | some (_, .eret) => false
    | _ => true
/-- In exposed mode a lockstep sequencer holds its word back while the cycle is frozen or another may freeze it. -/
def State.heldBack (s : State) (e : Eng) : Bool :=
  lockstep e && !s.core.interlocked && (s.core.draining || s.energyHeld || s.core.heldByOthers e ||
    [Eng.acc, .vec, .mat].any fun g => g != e && s.mightFreeze g)

/-! ### A sequencer's turn -/

/-- A sequencer may act: its task runs, nothing holds it, no asynchronous trap of its own waits to be taken (R85), and it has not tried its
word in this cycle of exposed mode. -/
def State.mayAct (s : State) (e : Eng) : Bool :=
  s.core.task.isSome && s.core.halt == .run && !s.heldHot && !(s.core.seqs.get e).ended && !s.core.trapDue e &&
    !(lockstep e && !s.core.interlocked && (s.core.seqs.get e).tried)

/-! ### Posts and awaits of one cycle (R87) -/

/-- A sequencer whose next word is due has a loop close, a block entry or a word to pass before it: what it does in this cycle is still
open. -/
def State.unsettled (s : State) (g : Eng) : Bool :=
  let q := s.core.seqs.get g
  s.mayAct g && decide (q.due ≤ s.core.clockOf g) &&
    (q.closing || (!q.entered && (q.detached || s.core.tetherOk q.pos)) || match s.atWord g with
      | some (_, .pass _) | some (_, .fall) => true
      | _ => false)
/-- The own word at which a sequencer stands, due in this cycle. -/
def State.dueWord (s : State) (g : Eng) : Option Instr :=
  let q := s.core.seqs.get g
  if !s.mayAct g || q.detached || s.core.clockOf g < q.due || s.heldBack g then none
  else match s.atWord g with
    | some (_, .own i) => i
    | _ => none
/-- A sequencer may yet post to a flag in this cycle: CTL or ACC by its word, VEC or MAT by a post that has fallen due (R85). -/
def State.postsYet (s : State) (f : FlagNo) (g : Eng) : Bool :=
  s.unsettled g || (s.core.defPosts.any fun p => p.eng == g && p.f == f && s.core.postDue p) ||
    (!((s.core.seqs.get g).tried && (s.core.seqs.get g).wait.isSome) && match s.dueWord g with
      | some (.post _ f' _) => f' == f
      | _ => false)
/-- A sequencer may yet take a flag's count in this cycle. -/
def State.takesYet (s : State) (f : FlagNo) (g : Eng) : Bool :=
  s.unsettled g || (!(s.core.seqs.get g).awd && match (s.dueWord g).bind awaitOf with
    | some (f', n) => f' == f && decide (n ≤ s.core.flagSeen f)
    | none => false)
/-- The turn of a word that posts or awaits has yet to come: within a cycle every post to a flag comes first, in ascending tag order, and of
the awaits the lowest tag's (R87); in deterministic mode awaits do not see that cycle's posts (23 R343). -/
def State.flagWaits (s : State) (e : Eng) (i : Instr) : Bool :=
  let below (p : Eng → Bool) : Bool := engs.any fun g => decide (engNo g < engNo e) && p g
  (match i with
    | .post _ f _ => below (s.postsYet f)
    | _ => false) ||
  (!(s.core.seqs.get e).awd && match awaitOf i with
    | some (f, _) => (!s.core.det && engs.any fun g => g != e && s.postsYet f g) || below (s.takesYet f)
    | none => false)
/-- The turn of a sequencer at its word: ready instances and follow-ons go ahead of its engine's own words (09 R181, 16 R277). -/
def State.wordTurn (s : State) (e : Eng) : Out :=
  match s.atWord e with
  | none => .next (s.mapSeq e fun q => { q with wait := some .external, tried := true })
  | some (t, .own i) =>
    if i.any (s.flagWaits e) || (engTag t.cur.word == engNo e && [Eng.vec, .mat, .cld, .cst].contains e && s.lentFirst e) then .next s
    else if s.heldBack e then
      (match t.takeWord (.own i) with
        | .next u => if (s.core.seqs.get e).stillAt (u.core.seqs.get e) then .next u else .next s
        | _ => .next s)
    else t.takeWord (.own i)
  | some (t, k) => t.takeWord k
/-- A turn of a sequencer: the pending loop closes, the entry of a block, or the word at its PC (R56, R59, R70). -/
def State.seqTurn (s : State) (e : Eng) : Out :=
  let q := s.core.seqs.get e
  if !s.mayAct e then .next s
  else if q.closing then .next (s.closeLoops e)
  else if !q.entered then .next (s.enterBlock e)
  else s.wordTurn e

/-! ### Events -/

/-- The state without the marks of waits. -/
def State.unmarked (s : State) : State :=
  { s.mapCore (fun c => { c with seqs := c.seqs.mapE fun _ q => { q with wait := none, tried := false } }) with who := .ctl, cur := At.none }
/-- A turn changes more than the marks of waits. -/
def State.changedBy (s : State) (o : Out) : Bool :=
  match o with
  | .next t => t.unmarked != s.unmarked
  | _ => true
/-- The sequencer's turn would change more than the mark of its wait. -/
def State.couldGoOn (s : State) (e : Eng) : Bool := s.changedBy (s.seqTurn e)
/-- The host's accesses, the links, the module's own events: they go on while thermal step 2 holds every context (27 R397). -/
def Instr.ofModule (i : Instr) : Bool :=
  match i with
  | .evStreamItemArrive .. | .evStreamSlotReturn .. | .evStreamMoveGrant .. | .evSendEndReply .. | .evWaypointForward ..
  | .evWaypointRetire .. | .evStreamLoss .. | .evStreamCensus .. | .evLinkslotRepair .. | .evLaunchRecordRead .. | .evGangAdmit ..
  | .evChartAbort .. | .evLaunchKillAbort .. | .evEscalationStop .. | .evQueueEnable .. | .evSliceExpiry .. | .evWaitGuardExpiry ..
  | .evQueuePreempt .. | .evQueueGrant .. | .evPreemptRequest .. | .evHandlerPreemptTimeout | .evContextSave .. | .evContextRestore ..
  | .evEscalate .. | .evTenantBudgetRefill | .evThermalStep1 | .evThermalStep2 | .evThermalStep3 | .evThermalStepEnd
  | .evModuleReset .. | .evLinkFlitReceive .. | .evRemoteWindowAccess | .evHostMemAccess .. | .evTailWrite .. | .evMailboxWrite ..
  | .evCtxcmdPreempt .. | .evCtxcmdKill .. | .evInvalidate .. | .evKeyLoad .. | .evKeyClear .. | .evKeycmdNop .. | .evEventRead ..
  | .evIpendClear .. | .evAttestRequest .. | .evHostRegWrite .. => true
  | _ => false
/-- What may still happen while the dies stay in reset after a failed verification: the host die answers reads of the control block, and
the module may be reset again (27 R398). -/
def Instr.inReset (i : Instr) : Bool :=
  match i with
  | .evEventRead .. | .evModuleReset .. | .evThermalStep3 => true
  | _ => false
/-- An event's turn: a row that is no event, or one that what holds the module keeps back, changes nothing; DEADLOCK asks first whether
a waiting sequencer could go on (25 R378). -/
def State.eventTurn (s : State) (i : Instr) : Out :=
  if !i.isEvent || (s.dev.bootst != 0 && !Instr.inReset i) || (s.heldHot && !Instr.ofModule i) then .next s
  else if i = .evDeadlock ∧ engs.any s.couldGoOn then .next s
  else match i with
    | .evPhaseDrain => if s.lentFirst .fab then .next s else exec i s
    | .evAwaitSuccess e => if (s.standAt e).any fun x => s.flagWaits e x.1 then .next s else exec i s
    | _ => exec i s

/-! ### The clock of a deterministic context (23 R342 to R344; log 85) -/

/-- The events of the core in front that come in their time. -/
def State.ownEvents (s : State) : List Instr :=
  let c := s.core
  let homes := (s.dev.homes.zipIdx.filter fun h => h.1.ctx == s.taskCtx).flatMap fun (h, k) =>
    (List.range h.flight.length).map (Instr.evStreamItemArrive k) ++
      [.evStreamSlotReturn k, .evStreamMoveGrant k false, .evStreamMoveGrant k true, .evSendEndReply k, .evWaypointForward k,
        .evWaypointRetire k false, .evWaypointRetire k true]
  c.loads.map (fun l => .evLoadResultArrive l.d) ++
    [.evStorePerformed, .evWaitgeSatisfy, .evBarDepart, .evWaitwpComplete, .evMatKstep, .evEpilogueTileStep, .evFollowOnIssue, .evPhaseDrain,
      .evModeDrainDone, .evTrapEntry, .evDeadlock, .evEnergyRefill, .evTaskEnd] ++
    (List.range c.defPosts.length).map .evDeferredPostEffect ++
    (engs.flatMap fun e => [Instr.evAwaitSuccess e, .evTextFetch e, .evSeqReattach e]) ++
    ([CopyEng.cld, .cst].flatMap fun e => [Instr.evCopyStart e, .evCopyTileStep e, .evCopyRetire e, .evCredApply e]) ++
    (List.range 8).map (fun p => .evFeederToken (Fin.ofNat 8 p)) ++ (List.range 12).map (fun i => .evStripFire (Fin.ofNat 12 i)) ++
    (List.range 4).map (fun p => .evOutputPortToken (Fin.ofNat 4 p)) ++
    ((List.range 32).flatMap fun i => [Instr.evRuleInstanceIssue (Fin.ofNat 32 i), .evRuleInstanceRetire (Fin.ofNat 32 i)]) ++
    (List.range c.bindings.length).map .evSbindSliceWrite ++ homes
/-- Nothing more happens on the core in front in this cycle, were its tenant's byte budgets never used up; and no hold is on it: it runs, the
module is not held, its text and its tenant's budgets hold nothing back (23 R342). -/
def State.cycleSpent (s : State) : Bool :=
  let free := s.mapDev fun d => d.mapTenant s.tenantNo fun t => { t with mleft := none, lleft := none }
  s.core.halt == .run && !s.heldHot && !(s.core.nextK.isSome && s.tenantSpent) && (engs.all fun e => s.core.freplies.get e != .asked) &&
    s.cycleDone && (engs.all fun e => !free.couldGoOn e) && s.ownEvents.all fun i => !free.changedBy (free.eventTurn i)
/-- A counted cycle: every core of the context ends it together, unless a hold stops them all (23 R342). -/
def State.detClock (s : State) : State :=
  let ns := (s.ctxCores s.taskCtx).map Prod.fst
  if ns.all fun n => (s.focus n).cycleSpent then (ns.foldl (fun t n => (t.focus n).clock) s).focus s.cnum else s

/-! ### Checked accesses that start in one cycle of deterministic mode (07 R144) -/

/-- The engine whose checked access an event may start, or else the lowest. -/
def State.startEng (s : State) (i : Instr) : Eng :=
  match i with
  | .evCopyStart e | .evCopyTileStep e | .evCopyRetire e | .evCredApply e => ofCopy e
  | .evFollowOnIssue | .evMatKstep | .evEpilogueTileStep => .mat
  | .evRuleInstanceIssue id | .evRuleInstanceRetire id => ((s.core.rules.getD id.val none).map fun r => ruleEng r.i).getD .ctl
  | .evPhaseDrain | .evFeederToken _ | .evStripFire _ | .evOutputPortToken _ => .fab
  | .evWaitwpComplete => .acc
  | _ => .ctl
/-- A turn of the core in front starts a checked access, or ends in a trap instead. -/
def State.starts (s : State) (o : Out) : Bool :=
  match o with
  | .next t => decide (s.core.feet.length < t.core.feet.length) || t.core.pend != s.core.pend || t.core.aside.isSome != s.core.aside.isSome
  | _ => false
/-- Something may still happen in this cycle on an engine below a tag. -/
def State.busyBelow (s : State) (k : Nat) : Bool :=
  (engs.any fun e => decide (engNo e < k) && s.couldGoOn e) ||
    s.ownEvents.any fun i => decide (engNo (s.startEng i) < k) && s.changedBy (s.eventTurn i)
/-- Of accesses that start in one cycle the one of the lower tag starts first, and of two cores of a cluster that of the lower number: the
later is the one that raises OVERLAP (R144). -/
def State.startsLater (s : State) (e : Eng) (o : Out) : Bool :=
  s.core.det && s.starts o && (s.busyBelow (engNo e) || s.clusterCores.any fun c => decide (c.1 < s.cnum) && (s.focus c.1).busyBelow 7)

/-! ### Soft errors (25 R385) -/

/-- An uncorrectable error: a granule of the core's storage or of device memory becomes unreadable; a home entry's stream becomes ORPHAN, a
queue whose cached record is lost reads as empty (codes 8 and 9 are the model's; log 17). -/
def State.softError (s : State) (code : BitVec 4) (addr : Nat) : State :=
  if code.toNat ≤ 7 then s.mapCore fun c => { c with bad := (code, addr) :: c.bad.filter (· != (code, addr)) }
  else if code = 8 then
    match s.dev.homes[addr]? with
    | none => s
    | some h => if h.mine then (s.tell [h.toHome (.orphan false h.next)]).mapDev fun d => d.errorOutside 8 addr else s
  else if code = 9 then
    if addr < 512 && !(s.dev.queue (BitVec.ofNat 9 addr)).cache.isEmpty then
      (s.mapQueue (BitVec.ofNat 9 addr) fun x => { x with cache := [], broken := true }).mapDev fun d => d.errorOutside 9 addr
    else s
  else s

/-- The core a turn names. -/
def turnCore (t : Turn) : Nat :=
  match t with
  | .seq n _ | .clock n | .event n _ | .softError n _ _ => n
/-- A turn taken by the core in front. -/
def State.takeTurn (s : State) (t : Turn) : Out :=
  match t with
  | .seq _ e => if s.dev.bootst = 0 ∧ !s.startsLater e (s.seqTurn e) then s.seqTurn e else .next s
  | .clock _ => .next (if s.dev.bootst ≠ 0 then s else if s.core.det then s.detClock else s.clock)
  | .event _ i => if s.startsLater (s.startEng i) (s.eventTurn i) then .next s else s.eventTurn i
  | .softError _ code a => .next (s.softError code a)

end Sys2Proof.Machine
end

