-- ==== Sys2Proof/Machine/Place.lean ====
section
/-!
DEFINITION. Which turn comes next, and placing one word where its sequencer fetches.
-/
namespace Sys2Proof.Machine

/-- The turn that comes next: the head of the agenda, or a free one (log 2). -/
def State.nextTurn (s : State) : Turn := s.agenda.headD (Config.freeTurn s.tick)
/-- The state in which a turn is taken: the agenda without it, the count of steps one on, the core it names in front. -/
def State.begin (s : State) (t : Turn) : State :=
  ({ s with agenda := dropHead s.agenda, tick := s.tick + 1 }).focus (turnCore t)

/-- The task that stands for a loaded program where the core has none (log 1). -/
def placedTask : Task :=
  { ctx := 0, g := 0, tenant := 0, text := 0, tlen := 2 ^ 24, rank := 0, nranks := 1, lvlidx := List.replicate 8 0,
    lvlcnt := List.replicate 8 1, chrt := false, sstep := false, nlvl := 1, gang := 0, single := true, scopes := [.core] }
/-- The sequencer that takes a word first: that of its engine tag, CTL for a MUL word. -/
def takerOf (w : W128) : Eng := (engs.find? fun e => engNo e == engTag w).getD .ctl
/-- CALL and LOOP must stand in slot 3 (04 R63). -/
def slotFor (w : W128) : Nat := if engTag w = 7 ∧ ((w.extractLsb' 118 7).toNat = 3 ∨ (w.extractLsb' 118 7).toNat = 5) then 3 else 0
/-- A sequencer that stands at a slot of block 0, with the block in its fetch buffer. -/
def Seq.placed (q : Seq) (slot : Nat) (ws : List W128) : Seq :=
  { q with pc := 16 * slot, pos := 0, entered := true, closing := false, detached := false, ended := false, fetch := some (0, ws), due := 0,
           wait := none, tried := false, awd := false, atSync := false, claim := none, dec := .none }
/-- A word placed where its sequencer fetches next, with what it takes that the very next step runs it: a resident task, a core that runs,
the turn (log 1). -/
def State.placeWord (s : State) (w : W128) : State :=
  let e := takerOf w
  let k := slotFor w
  let ws := (List.replicate 4 (0 : W128)).set k w
  let c := s.core
  { s with
    core := { c with task := some (c.task.getD placedTask), halt := .run, seqs := c.seqs.set e ((c.seqs.get e).placed k ws) }
    dev := { s.dev with bootst := 0, thermal := s.dev.thermal.set 1 false }
    agenda := [.seq s.cnum e] }

end Sys2Proof.Machine
end

