-- ==== Sys2Proof/Machine/Step.lean ====
section
/-!
DEFINITION. One step of the machine: the next turn is taken on the core it names.
-/
namespace Sys2Proof.Machine

/-- One step: the next turn of the agenda, or a free one, on its core (log 2). -/
def step (s : State) : Host.Outcome State Fault Refusal :=
  let t := s.nextTurn
  if 128 ≤ turnCore t then .fault .noSuchCore
  else (s.begin t).takeTurn t

/-- The state with an instruction stored where its sequencer fetches its next word, and that sequencer's turn next (log 1). -/
def State.withFetchWord (s : State) (nbits w : Nat) : State := s.placeWord (BitVec.ofNat 128 (w % 2 ^ nbits))

end Sys2Proof.Machine
end

