-- ==== Sys2Proof/Safety.lean ====
section
/-!
DEFINITION. The terms that claims about the machine use: safe runs, the invariant of memory, when a word's operands let it go on, and frames.
-/
namespace Sys2Proof.Machine

/-! ### Runs -/

/-- A state that some number of steps leads to. -/
inductive Reaches (s : State) : State → Prop where
  | refl : Reaches s s
  | tail {t u : State} : Reaches s t → step t = .next u → Reaches s u
/-- A safe run: every state it reaches has a next one. -/
def Safe (s : State) : Prop := ∀ t, Reaches s t → ∃ u, step t = .next u
/-- Device memory and scratchpad are in canonical form. -/
def State.canonical (s : State) : Prop := Memory.wf s.mem = true ∧ Memory.wf s.spad = true
/-- A core's files are of the sizes the spec gives them (05 R89, R96; 04 R73, R84; 07 R138, R142; 09 R186; 16 R266, R273), what it has
set aside too. -/
def Core.sized (c : Core) : Bool :=
  let walk (q : PerEng Seq) : Bool := engs.all fun e => (q.get e).lidx.length == 6
  c.s.length == 32 && c.a.length == 16 && c.h.length == 16 && c.f.length == 64 && c.wptr.length == 4 && c.queues.length == 8 &&
    c.rules.length == 32 && c.recs.length == 32 && walk c.seqs && c.aside.all fun a => a.insts.length == 32 && walk a.seqs
/-- Every core, every saved task and the device's files are of their sizes (24 R351, R356; 27 R390, R397). -/
def State.sized (s : State) : Bool :=
  (s.core :: s.others.map Prod.snd).all Core.sized && (s.dev.ctxs.all fun x => x.saved.all fun v => v.snap.sized) &&
    s.dev.tenants.length == 32 && s.dev.queues.length == 512 && s.dev.grant.length == 4 && s.dev.thermal.length == 3
/-- Every core is held once. -/
def State.single (s : State) : Prop := (s.cnum :: s.others.map Prod.fst).Nodup
/-- Every turn the agenda holds names a core of the module (01 R9). -/
def State.agendaOk (s : State) : Bool := s.agenda.all fun t => decide (turnCore t < 128)

/-! ### When a word may go on -/

/-- No register of a list has a load outstanding (05 R90). -/
def State.settled (s : State) (rs : List SReg) : Bool := !rs.any s.busy
/-- No FENCEX holds the running word's accesses on the SC path (20 R325). -/
def State.scOpen (s : State) : Bool := s.core.pathOpen .sc s.cur.pos s.cur.slot
/-- No FENCEX holds the running word's accesses on any path (20 R325). -/
def State.pathsOpen (s : State) : Bool := allPaths.all fun p => s.core.pathOpen p s.cur.pos s.cur.slot
/-- A word that performs CTL's older stores first need not wait: no FENCEX holds one of them, and in deterministic mode none is left (20 R317,
R325; 22 R337). -/
def State.drains (s : State) : Bool := if s.core.det then s.core.stores.isEmpty else s.core.storesOpen
/-- An access of n bytes at an address lies in this module's memory, within the tenant's budget of bytes (05 R94, 23 R349). -/
def State.lands (s : State) (ea n : Nat) (w : Want) (pa : Nat) (key : Option (BitVec 512)) : Prop :=
  s.scTarget ea n w = .ok { phys := pa, key := key, remote := none } ∧ s.memOk n = true
/-- An access of CTL performed some cycles after its issue need not wait for an older one that is performed later; outside deterministic mode
none does (20 R317; 22 R337). -/
def State.inTurn (s : State) (lat : Nat) (store : Bool) : Bool :=
  !(s.core.det && (s.core.loads.any (fun l => l.open && decide (s.core.cycle.toNat + lat < l.issued + l.lat)) ||
    (store && s.core.stores.any fun e => decide (s.core.cycle.toNat + lat < e.due))))
/-- The state after the issue of a load whose value is v and whose bytes come from a chain of releases: it has been read and is outstanding, or
in deterministic mode is read `lat` cycles later (05 R90; 20 R317, R319; 22 R337). -/
def State.loaded (s : State) (d : SReg) (x : LdSrc) (lat : Nat) (acq : Option Scope) (v : W64) (chain : List (Party × Scope)) : State :=
  if s.core.det then
    s.mapCore fun c => { c with loads := c.loads ++ [{ d := d, src := x, val := 0, issued := c.cycle.toNat, lat := lat }] }
  else (s.noteRead acq chain).mapCore fun c => { c with loads := c.loads ++ [{ d := d, src := .done, val := v, issued := 0, lat := 0 }] }
/-- The running word waits with what it has resolved. -/
def State.stands (s : State) (d : Decoded) (w : Wait) : State := (s.mapSeq s.who fun q => { q with dec := d }).waiting w
/-- No bad granule in a structure of the core (25 R385). -/
def State.good (s : State) (code : BitVec 4) : Bool := (s.core.badIn code fun _ => true).isNone
/-- The running word has no await clause, or the clause finds its count (03 R46). -/
def State.awaits (s : State) (t : Tail) : Bool :=
  match t.await with
  | none => true
  | some a => s.seq.awd || s.core.awaitReady s.who a.f (tailCount a.n)
/-- The state after the await clause of a word has been performed (03 R46). -/
def State.awaited (s : State) (t : Tail) : State :=
  match t.await with
  | none => s
  | some a =>
    if s.seq.awd then s
    else (s.mapCore fun c => c.takeFlag a.f (tailCount a.n)).mapSeq s.who fun q => { q with awd := true }

/-- The home entry of a stream that is on this module with its ends, or what is left of them, and its waypoints. -/
def Home.whole (h : Home) : Prop :=
  h.mine = true ∧ h.hrank = h.own ∧ (∀ e r, h.loc e ≠ .away r) ∧ h.farR = none ∧ h.farS = none
/-- Slots given back to the send end: at once where it is on this module, in deterministic mode at a cycle, else as a message on its way (18
R296; 23 R343). -/
def Home.gaveBack (h x : Home) (n due : Nat) : Prop :=
  (h.locS.isHere = true → due = 0 → x.free = h.free + n ∧ x.freed = h.freed ∧ x.returns = h.returns) ∧
    (h.locS.isHere = true → due ≠ 0 → x.free = h.free ∧ x.freed = h.freed ++ [(n, due)] ∧ x.returns = h.returns) ∧
    (h.locS.isHere = false → x.free = h.free ∧ x.freed = h.freed ∧ x.returns = h.returns ++ [.slots n])

/-! ### Completion -/

/-- The instruction completes with this next state. -/
def Goes (i : Instr) (s t : State) : Prop := exec i s = .next t
/-- The word of CTL completes, with the value in its scalar register and nothing else changed but its walk. -/
def Puts (i : Instr) (s : State) (d : SReg) (v : W64) : Prop := Goes i s (s.putS d v)

/-! ### Frames: what a step leaves as it was -/

/-- Every byte of device memory and of scratchpad reads as before. -/
def SameBytes (s t : State) : Prop := (∀ a, readByte t.mem a = readByte s.mem a) ∧ ∀ a, readByte t.spad a = readByte s.spad a
/-- Every sequencer but the running one stands as before. -/
def SameWalks (s t : State) : Prop := ∀ e, e ≠ s.who → t.core.seqs.get e = s.core.seqs.get e
/-- Every scalar register but one reads as before. -/
def SameScalars (d : SReg) (s t : State) : Prop := ∀ r, r ≠ d → t.getS r = s.getS r
/-- Every address register but one reads as before. -/
def SameAddrs (d : AReg) (s t : State) : Prop := ∀ r, r ≠ d → t.getA r = s.getA r
/-- Every flag but one counts as before. -/
def SameFlags (f : FlagNo) (s t : State) : Prop := ∀ g, g ≠ f → t.core.flag g = s.core.flag g
/-- Every handle but one reads as before. -/
def SameHandles (h : HReg) (s t : State) : Prop := ∀ k, k ≠ h → t.core.getH k = s.core.getH k

/-- The scalar register that a word of CTL writes from its operands alone, with no memory access and no trap (05 R92, R98, R101). -/
def scalarDest : Instr → Option SReg
  | .add d _ _ | .sub d _ _ | .mul d _ _ | .mulh _ d _ _ | .div _ d _ _ | .rem _ d _ _ | .and d _ _ | .or d _ _ | .xor d _ _
  | .andn d _ _ | .shl d _ _ | .shr d _ _ | .sra d _ _ | .rotl d _ _ | .min _ d _ _ | .max _ d _ _ | .clz d _ | .popc d _
  | .setc _ d _ _ | .sel d _ _ _ | .movi d _ | .mov d _ | .lea d _ _ _ | .extr _ d _ _ _ | .insr d _ _ _ | .hget d _ _
  | .srd d _ => some d
  | _ => none
/-- The address register that a word of ACC writes (07 R139). -/
def addrDest : Instr → Option AReg
  | .aset d _ | .aadd d _ _ | .aaddReg d _ _ | .ashl d _ _ | .aldi d _ _ _ => some d
  | _ => none
/-- The handle that a word of CTL writes from its operands alone (05 R97). -/
def handleDest : Instr → Option HReg
  | .hmov h _ | .hsetb _ h _ | .hsetx h _ _ | .hsets h _ | .hsetf h _ | .hoff h _ _ | .hclr h => some h
  | _ => none
/-- The tile that an operation word of VEC computes from its source tiles (08 R146). -/
def resultTile (i : Instr) (ts : List Tile) : Tile := ((vecSem i).map fun v => (v.run ts).tile).getD []
/-- An operation word of VEC that nothing holds: legal rotating operands, a result slot free, paths open, no hazard of interlocked mode,
NANT known at its position, its sources there (08 R146, R149; 04 R81, R82; 05 R102). -/
def State.vecReady (s : State) (v : VSem) (ts : List Tile) (qs : List (List Tile)) : Prop :=
  v.srcs.all (srcOk s.seq) = true ∧ dstOk s.seq v.dst v.pair = true ∧ s.core.inFlight .vec + (if v.pair then 2 else 1) ≤ 24 ∧
    s.pathsOpen = true ∧
    (s.core.interlocked && s.slotHazard v) = false ∧ s.core.ctlPassed s.cur.pos s.cur.slot = true ∧
    s.readSrcs v.imm v.srcs s.core.queues = some (ts, qs) ∧ s.core.roomFor v.dst qs = true ∧ s.badSrc v = none

/-- Nothing holds a MAT word once its await is done: a result slot and the array free, no hazard of interlocked mode, no overlap check, good
storage (13 R236, R237; 04 R81, R82; 07 R144; 25 R385). -/
def State.matReady (s : State) (banks carries : List BankNo) : Prop :=
  s.core.inFlight .mat < 7 ∧ s.core.arrayBusy = false ∧
    (s.core.interlocked && (banks.any s.core.bankBusy || carries.any s.core.carryBusy)) = false ∧ s.core.det = false ∧
    s.good 1 = true ∧ s.good 3 = true
/-- The word issues a result at the end of those in flight, `f` but for its number, with memory, banks and drawers as they were. -/
def Issues (i : Instr) (s t : State) (flights : List Flight) (f : Flight) : Prop :=
  Goes i s t ∧ (∃ n, t.core.flights = flights ++ [{ f with id := n }]) ∧ SameBytes s t ∧ t.core.banks = s.core.banks ∧
    t.core.carries = s.core.carries ∧ t.core.drawers = s.core.drawers ∧ t.core.s = s.core.s

end Sys2Proof.Machine
end

