-- ==== Sys2Proof/Certificates/Slice0/Obligations.lean ====
section
/-!
DEFINITION. The statements for the provers, from the numbered rules of the spec, family by family.
-/
open Sys2Proof Sys2Proof.Machine

/-! ### CTL: the integer group (05 R89 to R93) -/

/-- Arithmetic, logic, shifts and address words of CTL write the exact result mod 2^64 to s[d] and go on (05 R91, R92). Counting,
comparing, selecting, moving and bit-field words of CTL (05 R92; conditions of 04 R64). -/
def Obligations.CtlIntegerResults : Prop :=
  (∀ (s : State) (d a : SReg) (o : Op2) (sh : BitVec 6), s.settled (d :: a :: op2Regs o) = true →
    let x := s.getS a
    let y := s.op2 o
    let k := y.toNat % 64
    Puts (.add d a o) s d (BitVec.ofNat 64 (x.toNat + y.toNat)) ∧
    Puts (.sub d a o) s d (BitVec.ofInt 64 (x.toNat - y.toNat)) ∧
    Puts (.mul d a o) s d (BitVec.ofNat 64 (x.toNat * y.toNat)) ∧
    Puts (.mulh .ss d a o) s d (BitVec.ofInt 64 (x.toInt * y.toInt / 2 ^ 64)) ∧
    Puts (.mulh .uu d a o) s d (BitVec.ofNat 64 (x.toNat * y.toNat / 2 ^ 64)) ∧
    Puts (.mulh .su d a o) s d (BitVec.ofInt 64 (x.toInt * y.toNat / 2 ^ 64)) ∧
    Puts (.and d a o) s d (x &&& y) ∧ Puts (.or d a o) s d (x ||| y) ∧ Puts (.xor d a o) s d (x ^^^ y) ∧ Puts (.andn d a o) s d (x &&& ~~~y) ∧
    Puts (.shl d a o) s d (BitVec.ofNat 64 (x.toNat * 2 ^ k)) ∧
    Puts (.shr d a o) s d (BitVec.ofNat 64 (x.toNat / 2 ^ k)) ∧
    Puts (.sra d a o) s d (BitVec.ofInt 64 (x.toInt / 2 ^ k)) ∧
    Puts (.rotl d a o) s d (BitVec.ofNat 64 (x.toNat * 2 ^ k + x.toNat / 2 ^ (64 - k))) ∧
    Puts (.min .s d a o) s d (if x.toInt ≤ y.toInt then x else y) ∧ Puts (.min .u d a o) s d (if x.toNat ≤ y.toNat then x else y) ∧
    Puts (.max .s d a o) s d (if x.toInt ≤ y.toInt then y else x) ∧ Puts (.max .u d a o) s d (if x.toNat ≤ y.toNat then y else x) ∧
    Puts (.lea d a o sh) s d (BitVec.ofNat 64 (x.toNat + y.toNat * 2 ^ sh.toNat))) ∧
  (∀ (s : State) (d a c : SReg) (o : Op2) (v : W64) (pos : BitVec 6) (w : BitVec 7),
    s.settled (d :: c :: a :: op2Regs o) = true → 1 ≤ w.toNat → pos.toNat + w.toNat ≤ 64 →
    let x := s.getS a
    let y := s.op2 o
    let flag (p : Prop) [Decidable p] : W64 := if p then 1 else 0
    let f := x.toNat / 2 ^ pos.toNat % 2 ^ w.toNat
    (∃ n : Nat, Puts (.clz d a) s d (BitVec.ofNat 64 n) ∧ x.toNat < 2 ^ (64 - n) ∧ n ≤ 64 ∧ (n < 64 → 2 ^ (63 - n) ≤ x.toNat)) ∧
    Puts (.popc d a) s d (BitVec.ofNat 64 ((List.range 64).countP fun j => x.getLsbD j)) ∧
    Puts (.setc .eq d a o) s d (flag (x = y)) ∧ Puts (.setc .ne d a o) s d (flag (x ≠ y)) ∧
    Puts (.setc .lt d a o) s d (flag (x.toInt < y.toInt)) ∧ Puts (.setc .ge d a o) s d (flag (y.toInt ≤ x.toInt)) ∧
    Puts (.setc .ltu d a o) s d (flag (x.toNat < y.toNat)) ∧ Puts (.setc .geu d a o) s d (flag (y.toNat ≤ x.toNat)) ∧
    Puts (.setc .any d a o) s d (flag (x &&& y ≠ 0)) ∧ Puts (.setc .none d a o) s d (flag (x &&& y = 0)) ∧
    Puts (.sel d c a o) s d (if s.getS c ≠ 0 then x else y) ∧
    Puts (.movi d v) s d v ∧ Puts (.mov d a) s d x ∧
    Puts (.extr .u d a pos w) s d (BitVec.ofNat 64 f) ∧
    Puts (.extr .s d a pos w) s d (BitVec.ofInt 64 (if f < 2 ^ (w.toNat - 1) then (f : Int) else (f : Int) - 2 ^ w.toNat)) ∧
    (∃ r : W64, Puts (.insr d a pos w) s d r ∧ ∀ j < 64, r.getLsbD j =
      if pos.toNat ≤ j ∧ j < pos.toNat + w.toNat then x.getLsbD (j - pos.toNat) else (s.getS d).getLsbD j))

/-- DIV and REM by the three cases of R93: a zero divisor, the one signed overflow, every other pair; none of them traps. -/
def Obligations.DivideByCases : Prop :=
  ∀ (s : State) (d a : SReg) (o : Op2), s.settled (d :: a :: op2Regs o) = true →
    let n := s.getS a
    let m := s.op2 o
    (m = 0 → ∀ g, Puts (.div g d a o) s d 0xFFFFFFFFFFFFFFFF ∧ Puts (.rem g d a o) s d n) ∧
    (n.toInt = -2 ^ 63 → m.toInt = -1 → Puts (.div .s d a o) s d n ∧ Puts (.rem .s d a o) s d 0) ∧
    (m ≠ 0 → ¬(n.toInt = -2 ^ 63 ∧ m.toInt = -1) →
      ∃ q r : W64, Puts (.div .s d a o) s d q ∧ Puts (.rem .s d a o) s d r ∧ q.toInt * m.toInt + r.toInt = n.toInt ∧
        r.toInt.natAbs < m.toInt.natAbs ∧ (r = 0 ∨ (r.toInt < 0 ↔ n.toInt < 0))) ∧
    (m ≠ 0 → ∃ q r : W64, Puts (.div .u d a o) s d q ∧ Puts (.rem .u d a o) s d r ∧ q.toNat * m.toNat + r.toNat = n.toNat ∧
      r.toNat < m.toNat)

/-- A register word of CTL writes its destination alone: every other register, flag, handle, special register and byte is as before. A
handle word of CTL writes its handle and the history of handles, or traps: no other handle, register, flag or byte changes. An address
word of ACC changes its address register and its walk alone (07 R139). s0 reads zero and a write to it is discarded; any other scalar
register reads what was written last (05 R89). -/
def Obligations.RegisterWordFrames : Prop :=
  (∀ (i : Instr) (d : SReg) (s t : State), scalarDest i = some d → exec i s = .next t →
    t = { s with core := { s.core with s := t.core.s, seqs := t.core.seqs } } ∧ SameScalars d s t ∧ SameWalks s t ∧ SameBytes s t) ∧
  (∀ (i : Instr) (h : HReg) (s t : State), handleDest i = some h → exec i s = .next t →
    t = s.trap fIllop ∨
    (t = { s with core := { s.core with h := t.core.h, hist := t.core.hist, hbase := t.core.hbase, seqs := t.core.seqs } } ∧
      SameHandles h s t ∧ SameWalks s t ∧ SameBytes s t)) ∧
  (∀ (i : Instr) (d : AReg) (s t : State), addrDest i = some d → exec i s = .next t →
    t = { s with core := { s.core with a := t.core.a, seqs := t.core.seqs } } ∧ SameAddrs d s t ∧ SameWalks s t ∧ SameBytes s t) ∧
  (∀ (s : State) (r q : SReg) (v : W64), s.core.s.length = 32 →
    s.getS 0 = 0 ∧ s.setS 0 v = s ∧ (r ≠ 0 → (s.setS r v).getS r = v) ∧ (q ≠ r → (s.setS r v).getS q = s.getS q))

/-! ### CTL: memory (05 R90, R94, R95; 09 R191; 20 R317 to R328) -/

/-- LD and LDSP take what memory holds, as CTL's path sees it under CTL's own queued stores, extended, and complete with the load outstanding:
it is read at issue, or in deterministic mode in its time. HLD writes the handle; in deterministic mode it reads and arrives in its time (05 R94,
R95, R97; 22 R337). ST, STSP and HST put their bytes at the end of CTL's store queue, little-endian, and change no byte of memory (05 R94,
R95, R97; 20 R317). -/
def Obligations.ScalarAccesses : Prop :=
  (∀ (s : State) (k : LdKind) (d a : SReg) (h : HReg) (off : W64) (acq : Option Scope) (pa n : Nat) (key : Option (BitVec 512)) (bs : List Byte),
    s.settled [d, a] = true → s.scOpen = true →
    let sk := spadOff s.cnum (s.ea a off)
    let now := s.core.cycle.toNat
    let lat := s.loadLat false pa
    (s.lands (s.ea a off) (ldSize k) .rd pa key → s.badMem pa (ldSize k) = false → s.inTurn lat false = true →
      Goes (.ld k d a off acq) s (((s.memDebit (ldSize k)).loaded d (.mem k pa key acq) lat acq (ldExt k (s.loadPhys key pa (ldSize k)))
        (s.chainOf false key pa (ldSize k))).complete 1)) ∧
    (s.ea a off < 2 ^ 26 → s.ea a off % ldSize k = 0 → s.siblingOk (windowCore s.cnum (s.ea a off / spadSize)) = true →
      s.badSpad sk (ldSize k) = false → s.inTurn (s.loadLat true sk) false = true →
      Goes (.ldsp k d a off acq) s ((s.loaded d (.spad k sk acq) (s.loadLat true sk) acq (ldExt k (s.loadSpad sk (ldSize k)))
        (s.chainOf true none sk (ldSize k))).complete 1)) ∧
    (s.lands (s.ea a off) 32 .rd pa key → s.badMem pa 32 = false →
      (s.core.det = false → Goes (.hld h a off) s (((s.memDebit 32).noteRead none (s.chainOf false key pa 32)).putH h
        (BitVec.ofNat 256 (leNat (s.loadPhys key pa 32))))) ∧
      (s.core.det = true → s.seq.dec = .none → s.inTurn lat false = true →
        Goes (.hld h a off) s ((s.memDebit 32).stands (.timed (now + lat) none) .internal)) ∧
      (s.core.det = true → s.seq.dec = .timed n none → n ≤ now → s.core.loadsRead = true →
        Goes (.hld h a off) s (((s.noteRead none (s.chainOf false key pa 32)).mapCore fun c => { c with scDone := now }).stands
          (.timed (now + lat) (some (s.loadPhys key pa 32))) .internal)) ∧
      (s.core.det = true → s.seq.dec = .timed n (some bs) → n ≤ now → Goes (.hld h a off) s (s.putH h (BitVec.ofNat 256 (leNat bs)))))) ∧
  (∀ (s t : State) (k : StKind) (a b : SReg) (h : HReg) (off : W64) (rel : Option Scope) (pa : Nat) (key : Option (BitVec 512)),
    s.settled [a, b] = true →
    let sk := spadOff s.cnum (s.ea a off)
    (s.lands (s.ea a off) (stSize k) .wr pa key → s.inTurn (s.storeLat false pa) true = true →
      Goes (.st k a b off rel) s
        (((s.memDebit (stSize k)).pushStore false pa key (leBytes (stSize k) (s.getS b).toNat) rel).complete 1)) ∧
    (s.ea a off < 2 ^ 26 → s.ea a off % stSize k = 0 → s.siblingOk (windowCore s.cnum (s.ea a off / spadSize)) = true →
      s.inTurn (s.storeLat true sk) true = true →
      Goes (.stsp k a b off rel) s ((s.pushStore true sk none (leBytes (stSize k) (s.getS b).toNat) rel).complete 1)) ∧
    (s.lands (s.ea a off) 32 .wr pa key → s.inTurn (s.storeLat false pa) true = true →
      ∃ u, Goes (.hst h a off) s u ∧ SameBytes s u ∧ ∃ es, u.core.stores = s.core.stores ++ es ∧
        es.map (fun e => (e.addr, e.bytes.length)) = [(pa, 8), (pa + 8, 8), (pa + 16, 8), (pa + 24, 8)] ∧
        es.flatMap StoreEnt.bytes = leBytes 32 (s.core.getH h).toNat) ∧
    ((s.lands (s.ea a off) (stSize k) .wr pa key ∧ exec (.st k a b off rel) s = .next t) ∨ exec (.stsp k a b off rel) s = .next t →
      SameBytes s t))

/-- A value that has been read arrives at its register, the oldest outstanding load of that register first (05 R90); in deterministic mode it
is first read, when its time and its turn have come, under the stores of CTL older than itself (20 R317, 22 R337). The oldest queued store is
performed at the address it was queued for and nowhere else: its bytes read as stored under its key, and every other byte reads under that key
as before (20 R317, 25 R383). -/
def Obligations.ScalarAccessesLand : Prop :=
  (∀ (s : State) (l : LoadEnt) (before after : List LoadEnt), s.core.loads = before ++ l :: after → (∀ x ∈ before, x.d ≠ l.d) →
    (l.src = .done → s.core.reached (l.issued + 2 * l.lat) = true →
      Goes (.evLoadResultArrive l.d) s ((s.setS l.d l.val).mapCore fun c => { c with loads := before ++ after })) ∧
    (l.src ≠ .done → s.core.reached (l.issued + l.lat) = true → s.core.loadTurn l before = true →
      let p := (s.mapCore fun c => { c with stores := c.stores.filter fun e => decide (e.issued < l.issued) }).readLoad l.src
      Goes (.evLoadResultArrive l.d) s (p.2.mapCore fun c =>
        { c with stores := s.core.stores, scDone := s.core.cycle.toNat, loads := before ++ { l with src := .done, val := p.1 } :: after }))) ∧
  (∀ (s : State) (k : LdKind) (pa : Nat) (key : Option (BitVec 512)) (acq : Option Scope),
    s.readLoad (.mem k pa key acq) = (ldExt k (s.loadPhys key pa (ldSize k)), s.noteRead acq (s.chainOf false key pa (ldSize k))) ∧
    s.readLoad (.spad k pa acq) = (ldExt k (s.loadSpad pa (ldSize k)), s.noteRead acq (s.chainOf true none pa (ldSize k)))) ∧
  (∀ (s : State) (e : StoreEnt) (r : List StoreEnt), s.core.stores = e :: r → s.core.pathOpen .sc e.pos e.slot = true →
    s.core.reached e.due = true → (∀ x ∈ s.core.loads, x.src ≠ .done → e.issued ≤ x.issued) →
    ∃ t, Goes .evStorePerformed s t ∧
      t.core = { s.core with stores := r, scDone := if s.core.det then s.core.cycle.toNat else s.core.scDone } ∧
      (e.sp = true → t.mem = s.mem ∧
        (∀ j < e.bytes.length, readByte t.spad (e.addr + j) = e.bytes.getD j 0) ∧
        ∀ a, a < e.addr ∨ e.addr + e.bytes.length ≤ a → readByte t.spad a = readByte s.spad a) ∧
      (e.sp = false → t.spad = s.spad ∧
        (∀ j < e.bytes.length, t.physByte e.key (e.addr + j) = e.bytes.getD j 0) ∧
        ∀ a, a < e.addr ∨ e.addr + e.bytes.length ≤ a → t.physByte e.key a = s.physByte e.key a))

/-- WAITGE completes as an acquire with the value once it is at least op2, unsigned; below that CTL waits, and the waiting word samples again
(09 R191). In deterministic mode the first sample comes 400 cycles after its issue and the others 64 apart, and it completes 400 cycles after the
one that satisfies it (23 R343). -/
def Obligations.WaitgeSamples : Prop :=
  ∀ (s : State) (d a : SReg) (o : Op2) (sc : Scope) (pa n : Nat) (key : Option (BitVec 512)) (bs : List Byte),
    s.settled (d :: a :: op2Regs o) = true → s.scOpen = true → s.lands (s.getS a).toNat 8 .rd pa key → s.badMem pa 8 = false →
    let u := s.memDebit 8
    let got := s.loadPhys key pa 8
    let read : State := u.noteRead (some sc) (s.chainOf false key pa 8)
    let now := s.core.cycle.toNat
    let enough := (s.op2 o).toNat ≤ leNat got
    let again (t : State) : Prop := Goes (.waitge d a o sc) s t ∧
      ∀ s0, s0.standAt .ctl = some (.waitge d a o sc, s) → s.seq.wait.isSome = true → Goes .evWaitgeSatisfy s0 t
    (s.core.det = false → (enough → again (read.putS d (BitVec.ofNat 64 (leNat got)))) ∧ (¬enough → again (u.waiting .external))) ∧
    (s.core.det = true →
      (s.seq.dec = .none → s.inTurn 400 false = true → again (s.stands (.timed (now + 400) none) .external)) ∧
      (s.seq.dec = .timed n none → n ≤ now → (enough → again (read.stands (.timed (now + 400) (some got)) .external)) ∧
        (¬enough → again (u.stands (.timed (now + 64) none) .external))) ∧
      (s.seq.dec = .timed n (some bs) → n ≤ now → again (s.putS d (BitVec.ofNat 64 (leNat bs)))) ∧
      ∀ x, s.seq.dec = .timed n x → now < n → again (s.waiting .external))

/-- Every atomic comes after CTL's older stores, reads the old value, writes the new one in the same step, and leaves the old value outstanding
for s[d]; in deterministic mode that step is 800 cycles later (20 R327, R328; 22 R337). What an atomic of 64 bits leaves at its address: the
sum, the logic results, the lesser or greater, the exchange, and the compare and swap (20 R327). -/
def Obligations.Atomics : Prop :=
  (∀ (s u : State) (w : AtW) (g : Sgn) (d a c : SReg) (o : Op2) (ord : AtOrd) (pa : Nat) (key : Option (BitVec 512)),
    s.settled ((d :: a :: [c]) ++ op2Regs o) = true → s.scOpen = true →
    (if s.core.det then u = s ∧ s.inTurn 800 true = true else u = s.drainStores ∧ s.core.storesOpen = true) →
    s.scTarget (s.getS a).toNat (atSize w) .rdwr = .ok { phys := pa, key := key, remote := none } →
    u.memOk (atSize w) = true → u.badMem pa (atSize w) = false →
    let rels := (ordRel ord).toList ++ s.core.fenceRel
    let v := s.op2 o
    let u1 := u.memDebit (atSize w)
    let does (i : Instr) (op : AtOp) (g : Sgn) (x : W64) : Prop :=
      let p := u1.atomicAt (some .sc) key pa op w g v x (rels.map fun sc => (s.party, sc))
      let load (t : State) (y : LoadEnt) : State := t.mapCore fun c => { c with loads := c.loads ++ [y] }
      Goes i s ((if s.core.det then
            load u1 { d := d, src := .atomic op w g pa key v x rels (ordAcq ord), val := 0, issued := s.core.cycle.toNat, lat := 800 }
          else load (p.2.noteRead (ordAcq ord) (u1.marksOf pa (atSize w)))
            { d := d, src := .done, val := BitVec.ofNat 64 (leNat p.1), issued := 0, lat := 0 }).complete 1)
    does (.atadd w d a o ord) .add .u 0 ∧ does (.atand w d a o ord) .and .u 0 ∧ does (.ator w d a o ord) .or .u 0 ∧
    does (.atxor w d a o ord) .xor .u 0 ∧ does (.atmin w g d a o ord) .min g 0 ∧ does (.atmax w g d a o ord) .max g 0 ∧
    does (.atswp w d a o ord) .swp .u 0 ∧ does (.atcas w d a c o ord) .cas .u (s.getS c)) ∧
  (∀ (s : State) (pth : Option Machine.Path) (pa : Nat) (key : Option (BitVec 512)) (op : AtOp) (g : Sgn) (v c : W64)
    (rels : List (Party × Scope)),
    let p := s.atomicAt pth key pa op .w64 g v c rels
    let old : W64 := BitVec.ofNat 64 (leNat (s.readPhys key pa 8))
    let new : W64 := match op with
      | .add => old + v | .and => old &&& v | .or => old ||| v | .xor => old ^^^ v | .swp => v
      | .min => (match g with | .s => if old.toInt ≤ v.toInt then old else v | .u => if old.toNat ≤ v.toNat then old else v)
      | .max => (match g with | .s => if old.toInt ≤ v.toInt then v else old | .u => if old.toNat ≤ v.toNat then v else old)
      | .cas => if old = v then c else old
    p.1 = s.readPhys key pa 8 ∧ BitVec.ofNat 64 (leNat (p.2.readPhys key pa 8)) = new ∧
      ∀ a, a < pa ∨ pa + 8 ≤ a → p.2.physByte key a = s.physByte key a)

/-- MARK completes once every older store is performed, and so does an SC fence; an acquire fence completes once every earlier load has been
read and judges what those have read; a release fence completes at once and makes later stores releases (20 R318, R321, R322, R326; 22 R337).
FENCEX completes at once, and from then on an access of a path in Y by a word after it waits until every sequencer has passed the FENCEX (20
R325). -/
def Obligations.OrderWords : Prop :=
  (∀ (s : State), s.drains = true → exec .mark s = .next (s.drainStores.complete 1) ∧ s.drainStores.core.stores = []) ∧
  (∀ (s : State) (sc : Scope),
    let acq (t : State) : State := t.acquireFrom sc t.core.seen
    let rel (t : State) : State := t.mapCore fun c => { c with fenceRel := (sc :: c.fenceRel).dedup }
    exec (.fence .rel sc) s = .next ((rel s).complete 1) ∧
    (s.core.loadsRead = true → exec (.fence .acq sc) s = .next ((acq s).complete 1) ∧
      exec (.fence .acqrel sc) s = .next ((rel (acq s)).complete 1)) ∧
    (s.core.det = false → s.core.storesOpen = true → exec (.fence .sc sc) s = .next ((rel ((acq s.drainStores).takeScFence sc)).complete 1)) ∧
    (∀ n x, s.core.det = true → s.seq.dec = .timed n x → s.core.stores = [] → s.core.loadsRead = true → max n s.core.scDone + 32 ≤ s.core.cycle.toNat →
      (∀ c ∈ s.tasked, c.1 < s.cnum → c.2.task.map Task.ctx = s.core.task.map Task.ctx → c.2.fenceDue = false) →
      exec (.fence .sc sc) s = .next ((rel ((acq s).takeScFence sc)).complete 1))) ∧
  (∀ (s : State) (x y : BitVec 5) (p : Machine.Path) (pos slot : Nat),
    (∀ z ∈ s.core.fences, z.pos = s.cur.pos → z.slot = s.cur.slot → z.x = x ∧ z.y = y) →
    ∃ t, exec (.fencex x y) s = .next t ∧ t.mem = s.mem ∧ t.spad = s.spad ∧ t.dev = s.dev ∧
      (y.getLsbD p.bit = true → posLt s.cur.pos s.cur.slot pos slot = true → t.core.pathOpen p pos slot = true →
        t.core.allPassed s.cur.pos s.cur.slot = true))

/-! ### CTL: handles and tags (05 R97 to R99; 07 R133 to R137) -/

/-- HMOV and HCLR write all 256 bits; the HSET family writes the fields it names and leaves every other bit of a tensor handle; on a
stream end it raises ILLOP (05 R97). -/
def Obligations.HandleWords : Prop :=
  ∀ (s : State) (ha hb : HReg) (o : Op2) (p : HSpc) (k : BitVec 6), s.settled (op2Regs o) = true →
    let old := s.core.getH ha
    let x := s.op2 o
    let edits (i : Instr) (v : W256) (at' : Nat → Prop) : Prop :=
      Goes i s (s.putH ha v) ∧ ∀ j, ¬at' j → v.getLsbD j = old.getLsbD j
    Goes (.hmov ha hb) s (s.putH ha (s.core.getH hb)) ∧ Goes (.hclr ha) s (s.putH ha 0) ∧
    (hSpc old ≠ 3 →
      (∃ v, edits (.hsetb p ha o) v (fun j => j < 54) ∧ hBase v = x.toNat % 2 ^ 52 ∧ hSpc v = spcNo p) ∧
      (k.toNat ≤ 5 → ∃ v, edits (.hsetx ha k o) v (fun j => (64 + 16 * k.toNat ≤ j ∧ j < 80 + 16 * k.toNat) ∨
          (k.toNat ≤ 4 ∧ 171 + 17 * k.toNat ≤ j ∧ j < 188 + 17 * k.toNat)) ∧
        hExt v k.toNat = x.toNat % 2 ^ 16 ∧ (k.toNat ≤ 4 → hBits v (171 + 17 * k.toNat) 17 = x.toNat / 2 ^ 16 % 2 ^ 17)) ∧
      (∃ v, edits (.hsets ha o) v (fun j => (60 ≤ j ∧ j < 63) ∨ (168 ≤ j ∧ j < 171)) ∧
        hRank v = x.toNat % 8 ∧ hSsh v = x.toNat / 8 % 8) ∧
      (∃ v, edits (.hsetf ha o) v (fun j => (54 ≤ j ∧ j < 60) ∨ j = 63 ∨ (160 ≤ j ∧ j < 168)) ∧
        hFmt v = x.toNat % 64 ∧ hOpen v = x.getLsbD 6 ∧ hOtid v = x.toNat / 128 % 128 ∧ hTag v = x.getLsbD 14)) ∧
    (hSpc old = 3 → Goes (.hsetb p ha o) s (s.trap fIllop) ∧ Goes (.hsetx ha k o) s (s.trap fIllop) ∧
      Goes (.hsets ha o) s (s.trap fIllop) ∧ Goes (.hsetf ha o) s (s.trap fIllop))

/-- HGET writes the field that X12 selects: the bit positions are those of the tensor layout, and the strides are sign-extended; a
selector above 22 is no instruction (05 R98). -/
def Obligations.HgetSelectors : Prop :=
  ∀ (s : State) (d : SReg) (h : HReg) (sel : BitVec 12), s.settled [d] = true →
    let v := s.core.getH h
    let n := sel.toNat
    let is (x : W64) : Prop := Puts (.hget d h sel) s d x
    (n = 0 → is ((v.extractLsb' 0 52).setWidth 64)) ∧ (n = 1 → is ((v.extractLsb' 52 2).setWidth 64)) ∧
    (n = 2 → is ((v.extractLsb' 54 6).setWidth 64)) ∧ (n = 3 → is ((v.extractLsb' 60 3).setWidth 64)) ∧
    (n = 4 → is ((v.extractLsb' 63 1).setWidth 64)) ∧
    (5 ≤ n → n ≤ 10 → is ((v.extractLsb' (64 + 16 * (n - 5)) 16).setWidth 64)) ∧
    (11 ≤ n → n ≤ 15 → is ((v.extractLsb' (171 + 17 * (n - 11)) 17).signExtend 64)) ∧
    (n = 16 → is ((v.extractLsb' 168 3).setWidth 64)) ∧ (n = 17 → is ((v.extractLsb' 160 7).setWidth 64)) ∧
    (n = 18 → is ((v.extractLsb' 167 1).setWidth 64)) ∧
    (19 ≤ n → n ≤ 22 → is (v.extractLsb' (64 * (n - 19)) 64)) ∧
    (22 < n → (Instr.hget d h sel).wf = false)

/-- HOFF completes and moves BASE by op2 steps of an axis, mod 2^52, leaving every other bit; a drawer or a stream end raises ILLOP, as does
axis 5 of a reserved FMT; an axis above 5 is no instruction (05 R99). -/
def Obligations.HoffMovesBase : Prop :=
  ∀ (s : State) (h : HReg) (k : BitVec 6) (o : Op2), s.settled (op2Regs o) = true →
    let v := s.core.getH h
    let stuck : Prop := hSpc v = 2 ∨ hSpc v = 3 ∨ (k = 5 ∧ fmtSize (hFmt v) = none)
    let move : Int := if k = 5 then ((fmtSize (hFmt v)).getD 1 : Nat) else hStr v k.toNat * 64 * 2 ^ hSsh v
    let base : Int := (hBase v + (s.op2 o).toInt * move) % 2 ^ 52
    (¬stuck → exec (.hoff h k o) s = .next (s.putH h ((v.extractLsb' 52 204) ++ (BitVec.ofInt 52 base)))) ∧
    (stuck → exec (.hoff h k o) s = .next (s.trap fIllop)) ∧
    (5 < k.toNat → (Instr.hoff h k o).wf = false)

/-- TLOOK, TSET, TCLR, TCLR.ALL and TINFO: a lookup answers the line whose valid entry holds the key, or all ones; a key stands on one line at
most; a line is changed only while nothing pins it, and a cleared one keeps its key (07 R133, R135, R136). -/
def Obligations.TagWords : Prop :=
  ∀ (s : State) (d a : SReg) (o : Op2), s.settled (d :: a :: op2Regs o) = true → s.good 4 = true →
    let key := (s.getS a).extractLsb' 12 14
    let l := (s.op2 o).toNat
    let at' (n : Nat) : TagEnt := s.core.tags.getD n TagEnt.reset
    let put (l : Nat) (v : TagEnt) : State := (s.mapCore fun c => { c with tags := c.tags.set l v }).complete 1
    (s.core.tagLine key.toNat = none → Puts (.tlook d a) s d (BitVec.allOnes 64) ∧
      ∀ n < 1024, (at' n).valid = true → (at' n).key ≠ key) ∧
    (∀ n, s.core.tagLine key.toNat = some n → Puts (.tlook d a) s d (BitVec.ofNat 64 n) ∧ n < 1024 ∧ at' n = { valid := true, key := key }) ∧
    (l < 1024 → s.core.pins l = 0 → Goes (.tclr o) s (put l { valid := false, key := (at' l).key }) ∧
      (s.core.tagLine key.toNat = none → Goes (.tset a o) s (put l { valid := true, key := key }))) ∧
    (l < 1024 → s.core.pins l ≠ 0 → Goes (.tclr o) s (s.waiting .internal)) ∧
    ((∀ n < 1024, s.core.pins n = 0) →
      Goes .tclrAll s ((s.mapCore fun c => { c with tags := c.tags.map fun t => { t with valid := false } }).complete 1)) ∧
    (l < 1024 → ∃ v : W64, Puts (.tinfo d o) s d v ∧ v.getLsbD 63 = (at' l).valid ∧
      (v.extractLsb' 0 12).toNat = min 4095 (s.core.pins l) ∧ v.extractLsb' 12 14 = (at' l).key)

/-! ### CTL: system registers and the mailbox (05 R100 to R103) -/

/-- SRD writes the register's value at issue: STATUS by its fields, and the others whole (05 R101 to R103, 04 R60, R73). SWR writes the
five writable registers under their maps: NANT, and SCOPEMISS cleared by a one; SLIPWIN 1 to 256; TRAPVEC within the text when it enables;
a value that breaks its map raises ILLOP and writes nothing (05 R100 to R103, 04 R60). MBXRD writes the value of a mailbox register of the
task's tenant, as an acquire where its word says so; in deterministic mode its register arrives 800 cycles later (05 R100, 23 R343). -/
def Obligations.SystemRegisters : Prop :=
  (∀ (s : State) (d : SReg) (t : Task), s.settled [d] = true → s.core.task = some t →
    let reads (n : BitVec 12) (v : W64) : Prop := Puts (.srd d n) s d v
    (∃ v, reads 0x000 v ∧ v.extractLsb' 16 8 = s.core.lastc ∧ v.getLsbD 8 = s.core.scopemiss ∧ v.getLsbD 3 = s.core.nant ∧
      v.getLsbD 2 = s.core.det ∧ v.getLsbD 1 = (s.core.fixt || s.core.exch) ∧ v.getLsbD 0 = s.core.modex ∧
      v &&& 0xFFFFFFFFFF00FEF0 = 0) ∧
    reads 0x001 (s.core.slipwin.setWidth 64) ∧ reads 0x002 (s.core.seqs.ctl.rbase.setWidth 64) ∧
    reads 0x003 (s.core.seqs.ctl.rotsz.setWidth 64) ∧ reads 0x004 s.core.vcyc ∧ reads 0x005 s.core.cycle ∧
    reads 0x009 (s.core.erefill.setWidth 64) ∧ reads 0x00A s.core.legacycnt ∧
    (∃ v, reads 0x010 v ∧ v.getLsbD 63 = s.core.trapEn ∧ v.extractLsb' 0 24 = s.core.trapBlk ∧ v &&& 0x7FFFFFFFFF000000 = 0) ∧
    (∀ k < 8, reads (BitVec.ofNat 12 (0x011 + k)) (s.core.traprec.getD k 0)) ∧
    (∀ k < 8, reads (BitVec.ofNat 12 (0x020 + k)) (BitVec.ofNat 64 (t.lvlidx.getD k 0)) ∧
      reads (BitVec.ofNat 12 (0x028 + k)) (BitVec.ofNat 64 (t.lvlcnt.getD k 1))) ∧
    reads 0x030 (BitVec.ofNat 64 s.cnum) ∧ reads 0x031 (BitVec.ofNat 64 t.rank) ∧ reads 0x032 (BitVec.ofNat 64 t.nranks) ∧
    reads 0x033 (t.tenant.setWidth 64) ∧ reads 0x034 (t.ctx.setWidth 64) ∧ reads 0x035 s.core.savemap ∧
    (∀ k < 4, reads (BitVec.ofNat 12 (0x040 + k)) ((s.core.wptr.getD k 0).setWidth 64)) ∧
    Puts (.srd d 0x008) s d (BitVec.ofNat 64 s.ebudget)) ∧
  (∀ (s : State) (o : Op2), s.settled (op2Regs o) = true →
    let v := s.op2 o
    let w := v.extractLsb' 0 9
    let blk := v.extractLsb' 0 24
    let put (f : Core → Core) : State := (s.mapCore f).complete 1
    Goes (.swr 0x000 o) s (put fun c => { c.setNant (v.getLsbD 3) with scopemiss := c.scopemiss && !v.getLsbD 8 }) ∧
    (1 ≤ w.toNat → w.toNat ≤ 256 → Goes (.swr 0x001 o) s (put fun c => { c with slipwin := w })) ∧
    (w.toNat = 0 ∨ 256 < w.toNat → Goes (.swr 0x001 o) s (s.trap fIllop)) ∧
    Goes (.swr 0x00A o) s (put fun c => { c with legacycnt := v }) ∧
    (v.getLsbD 63 = false ∨ blk.toNat < s.tlen →
      Goes (.swr 0x010 o) s (put fun c => { c with trapEn := v.getLsbD 63, trapBlk := blk })) ∧
    (v.getLsbD 63 = true → s.tlen ≤ blk.toNat → Goes (.swr 0x010 o) s (s.trap fIllop)) ∧
    Goes (.swr 0x035 o) s (put fun c => { c with savemap := v })) ∧
  (∀ (s : State) (d : SReg) (n : BitVec 4) (acq : Option Scope) (t : Task), s.settled [d] = true → s.core.task = some t →
    let v := (s.dev.tenant t.tenant).mbx.getD n.toNat 0
    let u := s.noteRead acq (markAt s.dev.marks (mailboxMark t.tenant n.toNat))
    Goes (.mbxrd d n acq) s (if s.core.det then
        (u.mapCore fun c => { c with loads := c.loads ++ [{ d := d, src := .done, val := v, issued := c.cycle.toNat, lat := 400 }] }).complete 1
      else u.putS d v))

/-! ### Traps (05 R104 to R106; 25 R371 to R377) -/

/-- TRAP writes the trap record and LASTC: SWTRAP, the engine, the PC, IMM and the word itself, and HND inside the handler (05 R104, 25
R371). A trap outside the handler with TRAPVEC.EN = 1 enters it: all seven sequencers attached at block TRAPVEC.BLK with nothing queued or
active, RBASE and ROTSZ kept; registers, handles, flags, slots, queues, banks and drawers are the task's still (25 R373). A trap with
TRAPVEC.EN = 0, or inside the handler, is not handled: the core stops for the escalation, HND says where it arose, and the walk stays as
it was (25 R376, R377). -/
def Obligations.TrapsTaken : Prop :=
  (∀ (s : State) (v : W64), ∃ t, Goes (.trap v) s t ∧
    let r (k : Nat) : W64 := t.core.traprec.getD k 0
    t.core.lastc = 0x12 ∧ t.core.traprec.length = 8 ∧
    (r 0).extractLsb' 40 8 = 0 ∧ (r 0).extractLsb' 32 8 = 0x12 ∧ (r 0).getLsbD 17 = s.seq.awd ∧
    (r 0).getLsbD 16 = s.core.aside.isSome ∧ (r 0).getLsbD 15 = false ∧ (r 0).getLsbD 14 = false ∧
    (r 0).extractLsb' 8 3 = s.who.code ∧ r 1 = BitVec.ofNat 64 (s.cur.pc % 2 ^ 30) ∧ r 2 = 0 ∧ r 3 = 0 ∧ r 4 = 0 ∧ r 5 = v ∧
    r 6 = s.cur.word.extractLsb' 0 64 ∧ r 7 = s.cur.word.extractLsb' 64 64) ∧
  (∀ (s : State) (t : TrapInfo) (e : Eng), s.core.trapEn = true → s.core.aside = none →
    let u := s.trapWith t
    let c := u.core
    let q := c.seqs.get e
    q.pc = s.core.trapBlk.toNat * 64 ∧ q.pos = 0 ∧ q.entered = false ∧ q.ended = false ∧ q.detached = false ∧ q.loops = [] ∧
    q.rstack = [] ∧ q.ctlq = [] ∧ q.rbase = (s.core.seqs.get e).rbase ∧ q.rotsz = (s.core.seqs.get e).rotsz ∧
    c.cld = [] ∧ c.cst = [] ∧ c.fabric.queue = [] ∧ c.fabric.phase = none ∧ c.flights = [] ∧
    (∃ w, c.aside = some w ∧ w.seqs = s.core.seqs ∧ w.cld = s.core.cld ∧ w.cst = s.core.cst ∧ w.flights = s.core.flights ∧
      w.fabQueue = s.core.fabric.queue ∧ w.fabPhase = s.core.fabric.phase ∧ w.fabParked = s.core.fabric.parked) ∧
    c.s = s.core.s ∧ c.h = s.core.h ∧ c.a = s.core.a ∧ c.f = s.core.f ∧ c.queues = s.core.queues ∧ c.banks = s.core.banks ∧
    c.carries = s.core.carries ∧ c.drawers = s.core.drawers ∧ c.claimed = s.core.claimed ∧ c.tags = s.core.tags ∧
    c.halt = s.core.halt ∧ u.mem = s.mem ∧ u.spad = s.spad ∧ u.dev = s.dev) ∧
  (∀ (s : State) (t : TrapInfo), s.core.trapEn = false ∨ s.core.aside.isSome = true →
    let c := (s.trapWith t).core
    c.halt = .stopping ∧ c.escal = some (t.cause, s.core.aside.isSome) ∧ c.lastc = t.cause ∧ c.seqs = s.core.seqs ∧
      c.aside = s.core.aside ∧ (c.traprec.getD 0 0).getLsbD 16 = s.core.aside.isSome)

/-- ERET in the handler restores the walk that was set aside, ERET.SKIP goes on after the trapped word; outside the handler both raise
ILLOP, as does ERET.SKIP of a MUL word; every sequencer but CTL waits at the word (05 R104, 25 R374, R375). What was set aside at entry
comes back at an immediate return: the walk, the histories, commands, results and instances (25 R373 to R375). While an engine's answer from
another module is held and the handler's own command of that engine is not done, CTL waits at the word (the model's choice, log 84). -/
def Obligations.TrapsReturn : Prop :=
  (∀ (s : State),
    (s.who ≠ .ctl → Goes .eret s (s.waiting .internal) ∧ Goes .eretSkip s (s.waiting .internal)) ∧
    (s.who = .ctl → s.core.aside = none → Goes .eret s (s.trap fIllop) ∧ Goes .eretSkip s (s.trap fIllop)) ∧
    (∀ w, s.who = .ctl → s.core.aside = some w →
      (s.core.eretBusy w = true → Goes .eret s (s.waiting .internal)) ∧
      (s.core.eretBusy w = false → ∃ t, Goes .eret s t ∧ t.core.aside = none ∧ t.mem = s.mem ∧ t.spad = s.spad ∧
        ∀ e, (t.core.seqs.get e).pc = (w.seqs.get e).pc ∧ (t.core.seqs.get e).pos = (w.seqs.get e).pos ∧
          (t.core.seqs.get e).loops = (w.seqs.get e).loops ∧ (t.core.seqs.get e).lidx = (w.seqs.get e).lidx ∧
          (t.core.seqs.get e).rstack = (w.seqs.get e).rstack ∧ (t.core.seqs.get e).ctlq = (w.seqs.get e).ctlq ∧
          (t.core.seqs.get e).rbase = (w.seqs.get e).rbase ∧ (t.core.seqs.get e).rotsz = (w.seqs.get e).rotsz ∧
          (t.core.seqs.get e).awd = (w.seqs.get e).awd) ∧
      (w.mulWord = true → Goes .eretSkip s (s.trap fIllop)) ∧
      (w.mulWord = false → s.core.eretBusy w = false → ∃ t, Goes .eretSkip s t ∧ t.core.aside = none ∧
        (w.held = .word → ∀ e, (t.core.seqs.get e).pc = (w.seqs.get e).pc + if e = w.eng then 16 else 0)))) ∧
  (∀ (c : Core) (t : TrapInfo) (m : Bool) (w : Aside), c.trapEn = true → c.aside = none → (c.takeTrap t .word m).aside = some w →
    let d := (c.takeTrap t .word m).restoreWalk w
    (∀ e, d.seqs.get e = { c.seqs.get e with wait := none, tried := false, dec := .none }) ∧ d.view = c.view ∧ d.trail = c.trail ∧
      d.exits = c.exits ∧ (∃ new, d.hist = c.hist ++ new ∧ ∀ x ∈ new, x.val = c.getH x.h ∧ x.pos = c.seqs.ctl.pos) ∧ d.hbase = c.hbase ∧
      d.nhist = c.nhist ∧ d.nbase = c.nbase ∧ d.flights = c.flights ∧
      d.defPosts = c.defPosts ∧ d.cld = c.cld ∧ d.cst = c.cst ∧ d.fabric.queue = c.fabric.queue ∧
      d.fabric.phase = c.fabric.phase ∧ d.fabric.parked = c.fabric.parked ∧ d.fences = c.fences ∧ d.aside = none)

/-- YIELD gives the core up only where another queue's gang would then fit, and otherwise costs one cycle; EXIT ends CTL's walk, and that
of each sequencer that waits at the same word (05 R105, R106). -/
def Obligations.YieldAndExit : Prop :=
  ∀ (s : State) (t : Task), s.core.task = some t →
    (s.yieldTaken = false → Goes .yield s (s.complete 1)) ∧
    (s.yieldTaken = true → Goes .yield s ((s.complete 1).stopCtx t.ctx .preempt)) ∧
    (s.who = .ctl → ∃ u, Goes .exit s u ∧ u.core.seqs.ctl.ended = true ∧ u.mem = s.mem ∧ u.spad = s.spad ∧ u.core.s = s.core.s) ∧
    (s.who ≠ .ctl → s.core.seqs.ctl.ended = true → s.core.seqs.ctl.pc = s.cur.pc →
      Goes .exit s (s.mapSeq s.who fun q => { q with ended := true, wait := none, tried := false })) ∧
    (s.who ≠ .ctl → s.core.seqs.ctl.ended = false → Goes .exit s (s.waiting .internal))

/-! ### Flags (03 R46, R48; 04 R84 to R87) -/

/-- A POST of CTL or ACC adds its count in one step, CTL's after its older stores are performed; one that would overflow traps with the
count unchanged (04 R85). A POST word of VEC or MAT does not hold its sequencer: the post waits for the results issued before it, and then
adds its count (04 R85). -/
def Obligations.PostsAdd : Prop :=
  (∀ (s : State) (f : FlagNo) (n : W64), s.core.f.length = 64 →
    let adds (t : State) : State := (t.mapCore fun c => { c.setFlag f (s.core.flag f + n.toNat) with
      posted := if s.core.det then (f, n.toNat) :: s.core.posted else s.core.posted }).complete 1
    (s.core.flag f + n.toNat ≤ 65535 →
      (s.who = .ctl → s.drains = true → Goes (.post .ctl f n) s (adds s.drainStores)) ∧
      (s.who ≠ .ctl → Goes (.post .acc f n) s (adds s)) ∧
      ∀ t, exec (.post .acc f n) s = .next t → s.who = .acc → t.core.flag f = s.core.flag f + n.toNat ∧ SameFlags f s t ∧ SameBytes s t) ∧
    (65535 < s.core.flag f + n.toNat → ∀ e, ∃ t, Goes (.post e f n) s t ∧ t.core.lastc = 0x08 ∧ t.core.f = s.core.f)) ∧
  (∀ (s : State) (e : Eng) (c : TailClause) (p : DefPost) (r : List DefPost), e = .vec ∨ e = .mat →
    Goes (.postTail e c) s ((s.mapCore fun d => { d with defPosts := d.defPosts ++
      [{ eng := e, f := c.f, n := tailCount c.n, before := d.nextId, place := s.cur }] }).complete (if e = .mat then 4 else 1)) ∧
    (s.core.defPosts = p :: r → (∀ g ∈ s.core.flights, g.eng = p.eng → g.owner = .own → p.before ≤ g.id) →
      (∀ x ∈ r, x.f = p.f → engNo p.eng ≤ engNo x.eng) → s.core.flag p.f + p.n ≤ 65535 →
      Goes (.evDeferredPostEffect 0) s (s.mapCore fun d => { d.setFlag p.f (s.core.flag p.f + p.n) with
        defPosts := r, posted := if d.det then (p.f, p.n) :: d.posted else d.posted })))

/-- An AWAIT whose count suffices, with no sequencer of a lower tag ready at the same flag and no other await on it successful in this cycle,
takes its count and goes on; otherwise its sequencer waits and nothing else changes (04 R86, R87). What a tile access of VEC or ACC does after it
sees every write (07 R142). AWAIT_SUCCESS: a waiting await that finds its count takes it: an AWAIT word completes, any other word may issue and
does not await again (03 R46, 04 R86, R87). -/
def Obligations.AwaitsTake : Prop :=
  (∀ (s : State) (e : Eng) (f : FlagNo) (n : W64) (c : TailClause),
    let takes (t : State) (f : FlagNo) (k : Nat) : State :=
      t.mapCore fun d => { d.setFlag f (d.flag f - k) with took := d.took ++ [f] }
    (s.core.awaitReady s.who f n.toNat = true → Goes (.await e f n) s (((takes s f n.toNat).awaitShows s.who).complete 1)) ∧
    (s.core.awaitReady s.who f n.toNat = false → Goes (.await e f n) s (s.waiting .external)) ∧
    (s.core.awaitReady s.who c.f (tailCount c.n) = true →
      Goes (.awaitTail e c) s (((takes s c.f (tailCount c.n)).awaitShows s.who).complete (if e = .mat then 4 else 1))) ∧
    (s.core.awaitReady s.who c.f (tailCount c.n) = false → Goes (.awaitTail e c) s (s.waiting .external)) ∧
    (s.core.awaitReady e f n.toNat = true → n.toNat ≤ s.core.flag f ∧ f ∉ s.core.took ∧
      ∀ g, engNo g < engNo e → ∀ m, (s.core.seqs.get g).awaiting = some (f, m) → s.core.flagSeen f < m) ∧
    (takes s f n.toNat).core.awaitReady e f n.toNat = false ∧
    ((takes s f n.toNat).awaitShows .vec).core = (takes s f n.toNat).core ∧
    ∀ r ∈ ((takes s f n.toNat).awaitShows .vec).dev.stale, r.core = s.cnum → r.hide.getLsbD 5 = false) ∧
  (∀ (s t : State) (e : Eng) (i : Instr) (f : FlagNo) (n : Nat), s.standAt e = some (i, t) → (s.core.seqs.get e).awaiting = some (f, n) →
    t.core.awaitReady e f n = true → t.core.halt = .run → t.core.heldByOthers e = false →
    let t1 := (t.mapCore fun d => { d.setFlag f (d.flag f - n) with took := d.took ++ [f] }).awaitShows e
    (isAwait i = true → Goes (.evAwaitSuccess e) s (t1.complete (if e = .mat then 4 else 1))) ∧
    (isAwait i = false → Goes (.evAwaitSuccess e) s (t1.mapSeq e fun q => { q with awd := true, wait := none, tried := false })))

/-! ### ACC (07 R138 to R141) -/

/-- ASET, AADD, ASHL and ALDI write the address register they name, mod 2^64; ALDI takes ACC's own loop index (07 R139). WAITWP goes on at
once where the channel has no earlier copy, where that copy has retired, or where it has delivered the threshold; else it waits, and the
waiting word goes on when one of these comes to hold (07 R141). -/
def Obligations.AddressWords : Prop :=
  (∀ (s : State) (d a b : AReg) (v : W64) (n : BitVec 6) (l : Fin 6),
    let puts (i : Instr) (x : W64) : Prop := Goes i s ((s.setA d x).complete 1)
    puts (.aset d v) v ∧ puts (.aadd d a v) (BitVec.ofNat 64 ((s.getA a).toNat + v.toNat)) ∧
    puts (.aaddReg d a b) (BitVec.ofNat 64 ((s.getA a).toNat + (s.getA b).toNat)) ∧
    puts (.ashl d a n) (BitVec.ofNat 64 ((s.getA a).toNat * 2 ^ n.toNat)) ∧
    puts (.aldi d a l v) (BitVec.ofNat 64 ((s.getA a).toNat + (s.seq.lidx.getD l.val 0).toNat * v.toNat))) ∧
  (∀ (s s0 : State) (ch : ChanNo) (w : W32), s.copyAhead .cld ch s.cur.pos s.cur.slot = false →
    s.copyAhead .cst ch s.cur.pos s.cur.slot = false →
    let ref := s.core.refCopy ch s.cur.pos s.cur.slot
    let both (t : State) : Prop := Goes (.waitwp ch w) s t ∧ (s0.standAt .acc = some (.waitwp ch w, s) → s.seq.wait.isSome = true →
      s.core.heldByOthers .acc = false → Goes .evWaitwpComplete s0 t)
    (ref = none → both (s.complete 1)) ∧
    (∀ x, ref = some x → (x.retired = true ∨ ∃ n, x.delivered = some n ∧ w.toNat ≤ n) →
      both (((s.mapCore fun c => { c with wpDone := c.wpDone ++ [(ch, x.pos, x.slot, w.toNat)] }).showTo (tileEye .acc)
        fun r => r.path == some .cp).complete 1)) ∧
    (∀ x, ref = some x → x.retired = false → (∀ n, x.delivered = some n → n < w.toNat) → Goes (.waitwp ch w) s (s.waiting .external)))

/-- ARD and ARDB whose rows pass their checks issue one result of whole tiles: row i of the gather is row i mod 16 of tile i div 16, lane
by lane, as ACC sees scratchpad, and the rows missing from the last tile are zero; the lines of an ARDB stay pinned until then (07 R134, R140,
R142; 04 R79). -/
def Obligations.RowsGather : Prop :=
  ∀ (s : State) (q : QNo) (a : AReg) (nrow : BitVec 5) (rstr : BitVec 24) (off : W64) (byTag : Bool)
    (rows : List (List Nat)) (lines : List Nat),
    (if byTag then
      (s.good 4 = true ∧ ∃ rs, judgeAll ((s.rowOffsets a nrow rstr off).map (ardbRow s.core s.cnum)) = .ok rs ∧
        rows = rs.map Prod.fst ∧ lines = (rs.flatMap Prod.snd).dedup) ∧ s.seq.dec = .none
    else lines = [] ∧ ∃ ks, judgeAll ((s.rowOffsets a nrow rstr off).map s.ardRow) = .ok ks ∧
      rows = ks.map fun k => [k, k + 64, k + 128, k + 192]) →
    (s.core.queue q).length + s.core.pendingAppends q + (rows.length + 15) / 16 ≤ 8 → s.pathsOpen = true →
    (s.core.interlocked && s.runsBusy (rows.flatten.map fun k => (k, 64))) = false →
    (∀ k ∈ rows.flatten, s.badSpad k 64 = false) → s.core.det = false →
    ∃ (t : State) (f : Flight) (ts : List Tile),
      Goes (if byTag then .ardb q a nrow rstr off else .ard q a nrow rstr off) s t ∧
      t.core.flights = s.core.flights ++ [f] ∧ f.rem = s.core.appendRem .acc q 12 ∧ f.effs = ts.map (Eff.queue q) ∧ f.pins = lines ∧
      SameBytes s t ∧ t.core.a = s.core.a ∧ ts.length = (rows.length + 15) / 16 ∧ rows.length = nrow.toNat + 1 ∧
      (∀ i < rows.length, ∀ g < 4, ∀ l < 16, (ts.getD (i / 16) []).getD (i % 16 * 64 + g * 16 + l) 0 =
        BitVec.ofNat 32 (leNat (s.seeRun (s.tileLook .acc) ((rows.getD i []).getD g 0 + 4 * l) 4))) ∧
      ∀ i, rows.length ≤ i → i < 16 * ts.length → ∀ l < 64, (ts.getD (i / 16) []).getD (i % 16 * 64 + l) 0 = 0

/-! ### VEC (08 R146 to R168) -/

/-- Every operation word of VEC that nothing holds reads its sources at issue, pops its queues, and issues one result that lands after the
latency of its class; no tile changes yet (08 R146, R149, R150, R162; 04 R79, R80). Where VEC words trap: a rotating operand beyond ROTSZ
is ILLOP, a block that decodes to nothing is FMTBAD with its number, and with STATUS.NANT set the first new NaN is NANTRAP with its row
and column; no destination is written (03 R42; 08 R150). These are the operation words of VEC. -/
def Obligations.VecWordsIssue : Prop :=
  (∀ (s : State) (i : Instr) (v : VSem) (ts : List Tile) (qs : List (List Tile)), vecSem i = some v → s.vecReady v ts qs →
    (v.run ts).bad = none → (s.core.nantAt s.cur.pos s.cur.slot = true → (v.run ts).nan = none) →
    ∃ (t : State) (f : Flight), Goes i s t ∧ t.core.flights = s.core.flights ++ [f] ∧
      f.effs = (v.run ts).effs s.cnum s.seq v.dst ∧ f.eng = s.who ∧ f.owner = .own ∧ f.work = none ∧
      (∀ r, v.dst ≠ .q r → f.rem = s.core.latency v.cls s.tick) ∧ t.core.queues = qs ∧
      t.core.legacycnt = s.core.legacycnt + (if v.legacy then 1 else 0) ∧ t.core.s = s.core.s ∧ t.core.f = s.core.f ∧
      SameBytes s t ∧ (t.core.seqs.get s.who).due = s.core.clockOf s.who + 2) ∧
  (∀ (s : State) (i : Instr) (v : VSem) (ts : List Tile) (qs : List (List Tile)), vecSem i = some v →
    (v.srcs.all (srcOk s.seq) && dstOk s.seq v.dst v.pair) = false ∧ Goes i s (s.trap fIllop) ∨
    (v.srcs.all (srcOk s.seq) && dstOk s.seq v.dst v.pair) = true ∧
      (s.vecReady v ts qs →
        (∀ j, (v.run ts).bad = some j → Goes i s (s.trap { cause := Cause.fmtbad, addr := j })) ∧
        (∀ l, (v.run ts).bad = none → (v.run ts).nan = some l → s.core.nantAt s.cur.pos s.cur.slot = true →
          ∃ t, Goes i s t ∧ t.core.lastc = Cause.nantrap ∧ SameBytes s t ∧
            (t.core.traprec.getD 4 0).extractLsb' 48 6 = BitVec.ofNat 6 (l / 64) ∧
            (t.core.traprec.getD 4 0).extractLsb' 56 6 = BitVec.ofNat 6 (l % 64)))) ∧
  (∀ (f : FTy) (rm : RMode) (d : VDst) (a b c : VSrc) (imm : W64) (w w2 : VTy) (t : ITy) (on : Bool) (cc : VCond) (nt : NTy) (r4 : BitVec 4)
    (m : BitVec 6) (v : W32) (k : IotaKind) (ax : Axis) (bf : BlkFmt) (m7 : BitVec 7) (i : Instr),
    i ∈ ([
      .vadd f rm d a b imm, .vsub f rm d a b imm, .vmul f rm d a b imm, .vfma f rm d a b c imm, .vfms f rm d a b c imm,
      .vfnma f rm d a b c imm, .vmin f rm d a b imm, .vmax f rm d a b imm, .vabs f rm d a imm, .vneg f rm d a imm, .vdiv w rm d a b imm,
      .vdivRem t d a b imm, .vfma16 rm d a b c imm, .viadd t on d a b imm, .visub t on d a b imm, .vimul t on d a b imm,
      .vimulh t d a b imm, .vimin t d a b imm, .vimax t d a b imm, .vand t d a b imm, .vor t d a b imm, .vxor t d a b imm,
      .vshl t d a b imm, .vshr t d a b imm, .vsra t d a b imm, .vcmp cc nt d a b imm, .vsel d a b c imm, .vcvt w w2 rm d a imm,
      .vmov d a imm, .vseti d a r4 m v, .viota k d v, .vrngRaw d a imm, .vrngUni d a imm, .vclamp nt d a b c imm, .vrot ax m d a imm,
      .vbcast ax m d a imm, .vshiftDn ax m d a imm, .vshiftUp ax m d a imm, .vrsum nt rm on ax d a imm, .vscanIncl nt rm on ax d a imm,
      .vscanExcl nt rm on ax d a imm, .vrmax nt ax d a imm, .vrmin nt ax d a imm, .vrmaxi nt ax d a imm, .vrmini nt ax d a imm,
      .vexp f rm d a imm, .vexp2 f rm d a imm, .vln f rm d a imm, .vlog2 f rm d a imm, .vrcp f rm d a imm, .vrsqrt f rm d a imm,
      .vsqrt f rm d a imm, .vtanh f rm d a imm, .vsigm f rm d a imm, .vgelu f rm d a imm, .verf f rm d a imm, .vunpk on f rm m d a imm,
      .vpack bf on m m7 d a b c, .vpkbf rm d a b imm, .vupbf on d a imm] : List Instr) →
    (vecSem i).isSome = true)

/-- The integer words of VEC, lane by lane: exact results stored mod 2^32 or saturated to the type, logic, and shifts by the amount mod 32
(08 R147, R153). The words of VEC that move lanes: copies, selection, counting, one lane set, and the rotations, broadcasts and shifts
along a row or a column, zero filling (08 R154, R156, R157). -/
def Obligations.VecLanes : Prop :=
  (∀ (ty : ITy) (d : VDst) (p q : VSrc) (imm : W64) (a b : Tile) (j : Nat), a.length = 1024 → b.length = 1024 → j < 1024 →
    let lane (i : Instr) : W32 := (resultTile i [a, b]).getD j 0
    let u := a.getD j 0
    let w := b.getD j 0
    let x : Int := match ty with | .i32 => u.toInt | .u32 => u.toNat
    let y : Int := match ty with | .i32 => w.toInt | .u32 => w.toNat
    let lo : Int := match ty with | .i32 => -2 ^ 31 | .u32 => 0
    let hi : Int := match ty with | .i32 => 2 ^ 31 - 1 | .u32 => 2 ^ 32 - 1
    let sat (z : Int) : W32 := BitVec.ofInt 32 (max lo (min hi z))
    lane (.viadd ty false d p q imm) = BitVec.ofInt 32 (x + y) ∧ lane (.viadd ty true d p q imm) = sat (x + y) ∧
    lane (.visub ty false d p q imm) = BitVec.ofInt 32 (x - y) ∧ lane (.visub ty true d p q imm) = sat (x - y) ∧
    lane (.vimul ty false d p q imm) = BitVec.ofInt 32 (x * y) ∧ lane (.vimul ty true d p q imm) = sat (x * y) ∧
    lane (.vimulh ty d p q imm) = BitVec.ofInt 32 (x * y / 2 ^ 32) ∧
    lane (.vimin ty d p q imm) = (if x ≤ y then u else w) ∧ lane (.vimax ty d p q imm) = (if x ≤ y then w else u) ∧
    lane (.vand ty d p q imm) = u &&& w ∧ lane (.vor ty d p q imm) = u ||| w ∧ lane (.vxor ty d p q imm) = u ^^^ w ∧
    lane (.vshl ty d p q imm) = BitVec.ofNat 32 (u.toNat * 2 ^ (w.toNat % 32)) ∧
    lane (.vshr ty d p q imm) = BitVec.ofNat 32 (u.toNat / 2 ^ (w.toNat % 32)) ∧
    lane (.vsra ty d p q imm) = BitVec.ofInt 32 (u.toInt / 2 ^ (w.toNat % 32))) ∧
  (∀ (d : VDst) (p q r : VSrc) (imm : W64) (a b c : Tile) (base v : W32) (m : BitVec 6) (row0 : BitVec 4) (row col : Nat),
    a.length = 1024 → b.length = 1024 → c.length = 1024 → row < 16 → col < 64 →
    let at' (t : Tile) (i j : Nat) : W32 := t.getD (64 * i + j) 0
    let lane (i : Instr) (ts : List Tile) : W32 := at' (resultTile i ts) row col
    let n := m.toNat
    lane (.vmov d p imm) [a] = at' a row col ∧
    lane (.vsel d p q r imm) [a, b, c] = (if at' a row col ≠ 0 then at' b row col else at' c row col) ∧
    lane (.viota .lin d base) [] = base + BitVec.ofNat 32 (64 * row + col) ∧
    lane (.viota .col d base) [] = base + BitVec.ofNat 32 col ∧ lane (.viota .row d base) [] = base + BitVec.ofNat 32 row ∧
    lane (.vseti d p row0 m v) [a] = (if row = row0.toNat ∧ col = n then v else at' a row col) ∧
    lane (.vrot .row m d p imm) [a] = at' a row ((col + n) % 64) ∧
    (n < 16 → lane (.vrot .col m d p imm) [a] = at' a ((row + n) % 16) col) ∧
    lane (.vbcast .row m d p imm) [a] = at' a row n ∧ (n < 16 → lane (.vbcast .col m d p imm) [a] = at' a n col) ∧
    lane (.vshiftDn .row m d p imm) [a] = (if col + n < 64 then at' a row (col + n) else 0) ∧
    (n < 16 → lane (.vshiftDn .col m d p imm) [a] = (if row + n < 16 then at' a (row + n) col else 0)) ∧
    lane (.vshiftUp .row m d p imm) [a] = (if n ≤ col then at' a row (col - n) else 0) ∧
    (n < 16 → lane (.vshiftUp .col m d p imm) [a] = (if n ≤ row then at' a (row - n) col else 0)))

/-- The floating words of VEC compute the exact value of their finite operands and round it once, into FP32 or BF16: the nearest value and
the even one on a tie, the one toward zero, the lesser or the greater; beyond the largest finite value as R110's table says; integer
conversions round to an integer so and clamp (06 R110, R111, R113; 08 R147, R151, R155). -/
def Obligations.VecFloatRounding : Prop :=
  ∀ (ty : FTy) (rm : RMode) (d : VDst) (p o n : VSrc) (imm : W64) (a b c : Tile) (j : Nat),
    a.length = 1024 → b.length = 1024 → c.length = 1024 → j < 1024 →
    let lane (i : Instr) (ts : List Tile) : W32 := (resultTile i ts).getD j 0
    let x := a.getD j 0
    let y := b.getD j 0
    let w := c.getD j 0
    let ex (x : W32) : Nat := (x.extractLsb' 23 8).toNat
    let fin (x : W32) : Prop := ex x ≠ 255
    let val (x : W32) : Rat := (if x.getLsbD 31 then -1 else 1) * (if ex x = 0 then ((x.extractLsb' 0 23).toNat : Rat) * 2 ^ (-149 : Int)
      else (2 ^ 23 + (x.extractLsb' 0 23).toNat : Rat) * 2 ^ ((ex x : Int) - 150))
    let g := match ty with | .f32 => 0 | .bf16 => 16
    let grid (x : W32) : Prop := fin x ∧ x.toNat % 2 ^ g = 0
    let big : Rat := 2 ^ 128 - 2 ^ (103 + g)
    let rounds (z : Rat) (r : W32) : Prop := r.toNat % 2 ^ g = 0 ∧ match rm with
      | .rne => (fin r → |z| < big ∧ ∀ x, grid x → |val r - z| ≤ |val x - z| ∧
            (|val r - z| = |val x - z| → val x = val r ∨ r.getLsbD g = false)) ∧
          (¬fin r → big ≤ |z| ∧ r = if 0 ≤ z then 0x7F800000 else 0xFF800000)
      | .rtz => fin r ∧ |val r| ≤ |z| ∧ 0 ≤ val r * z ∧ ∀ x, grid x → |val x| ≤ |z| → |val x| ≤ |val r|
      | .rdn => (fin r → val r ≤ z ∧ ∀ x, grid x → val x ≤ z → val x ≤ val r) ∧
          (¬fin r → r = 0xFF800000 ∧ ∀ x, grid x → z < val x)
      | .rup => (fin r → z ≤ val r ∧ ∀ x, grid x → z ≤ val x → val r ≤ val x) ∧
          (¬fin r → r = 0x7F800000 ∧ ∀ x, grid x → val x < z)
    let near (z : Rat) (k : Int) : Prop := match rm with
      | .rne => |(k : Rat) - z| ≤ 1 / 2 ∧ (|(k : Rat) - z| = 1 / 2 → k % 2 = 0)
      | .rtz => k = if 0 ≤ z then ⌊z⌋ else ⌈z⌉
      | .rdn => k = ⌊z⌋
      | .rup => k = ⌈z⌉
    let dst : VTy := match ty with | .f32 => .f32 | .bf16 => .bf16
    (fin x → fin y → rounds (val x + val y) (lane (.vadd ty rm d p o imm) [a, b]) ∧
      rounds (val x - val y) (lane (.vsub ty rm d p o imm) [a, b]) ∧ rounds (val x * val y) (lane (.vmul ty rm d p o imm) [a, b]) ∧
      rounds (min (val x) (val y)) (lane (.vmin ty rm d p o imm) [a, b]) ∧
      rounds (max (val x) (val y)) (lane (.vmax ty rm d p o imm) [a, b]) ∧
      (val y ≠ 0 → rounds (val x / val y) (lane (.vdiv dst rm d p o imm) [a, b]))) ∧
    (fin x → fin y → fin w → rounds (val x * val y + val w) (lane (.vfma ty rm d p o n imm) [a, b, c]) ∧
      rounds (val x * val y - val w) (lane (.vfms ty rm d p o n imm) [a, b, c]) ∧
      rounds (val w - val x * val y) (lane (.vfnma ty rm d p o n imm) [a, b, c])) ∧
    (fin x → rounds |val x| (lane (.vabs ty rm d p imm) [a]) ∧ rounds (-val x) (lane (.vneg ty rm d p imm) [a]) ∧
      (val x ≠ 0 → rounds (1 / val x) (lane (.vrcp ty rm d p imm) [a])) ∧
      (∃ k, near (val x) k ∧ (lane (.vcvt .i32 .f32 rm d p imm) [a]).toInt = max (-2 ^ 31) (min (2 ^ 31 - 1) k)) ∧
      ∃ k, near (val x) k ∧ ((lane (.vcvt .u32 .f32 rm d p imm) [a]).toNat : Int) = max 0 (min (2 ^ 32 - 1) k)) ∧
    rounds (x.toInt : Rat) (lane (.vcvt dst .i32 rm d p imm) [a]) ∧ rounds (x.toNat : Rat) (lane (.vcvt dst .u32 rm d p imm) [a])

/-- Special values, division, comparison, reductions and packing of VEC: the first NaN operand comes out, an invalid operation gives the
canonical NaN, a finite value over zero an infinity; integer division by the cases of R152; comparisons by type, false of a NaN; sums,
scans and extremes along a row; BF16 halves packed and unpacked; the special inputs of the special functions, the bounds of the generator,
POISON and ZERO blocks (06 R114, R116; 08 R151, R152, R154, R158 to R161, R163, R165, R167, R168). -/
def Obligations.VecSpecialLanes : Prop :=
  ∀ (rm : RMode) (d : VDst) (p o n : VSrc) (imm : W64) (a b c : Tile) (row col : Nat),
    a.length = 1024 → b.length = 1024 → c.length = 1024 → row < 16 → col < 64 →
    let at' (t : Tile) (k : Nat) : W32 := t.getD (64 * row + k) 0
    let lane (i : Instr) (ts : List Tile) : W32 := at' (resultTile i ts) col
    let x := at' a col
    let y := at' b col
    let w := at' c col
    let ex (x : W32) : Nat := (x.extractLsb' 23 8).toNat
    let nan (x : W32) : Prop := ex x = 255 ∧ (x.extractLsb' 0 23) ≠ 0
    let inf (x : W32) : Prop := ex x = 255 ∧ (x.extractLsb' 0 23) = 0
    let zero (x : W32) : Prop := x.extractLsb' 0 31 = 0
    let canon : W32 := 0x7FC00000
    let pairs (v : W32) : Prop := lane (.vadd .f32 rm d p o imm) [a, b] = v ∧ lane (.vsub .f32 rm d p o imm) [a, b] = v ∧
      lane (.vmul .f32 rm d p o imm) [a, b] = v ∧ lane (.vdiv .f32 rm d p o imm) [a, b] = v ∧
      lane (.vmin .f32 rm d p o imm) [a, b] = v ∧ lane (.vmax .f32 rm d p o imm) [a, b] = v
    let cmp (cc : VCond) (ty : NTy) (q : Prop) [Decidable q] : Prop :=
      lane (.vcmp cc ty d p o imm) [a, b] = if q then 0xFFFFFFFF else 0
    (nan x → pairs x ∧ lane (.vabs .f32 rm d p imm) [a] = x ∧ lane (.vneg .f32 rm d p imm) [a] = x ∧
      lane (.vfma .f32 rm d p o n imm) [a, b, c] = x ∧ lane (.vcvt .i32 .f32 rm d p imm) [a] = 0) ∧
    (¬nan x → nan y → pairs y ∧ lane (.vfma .f32 rm d p o n imm) [a, b, c] = y) ∧
    (¬nan x → ¬nan y → nan w → lane (.vfma .f32 rm d p o n imm) [a, b, c] = w) ∧
    (¬nan x → lane (.vneg .f32 rm d p imm) [a] = x ^^^ 0x80000000 ∧ lane (.vabs .f32 rm d p imm) [a] = x &&& 0x7FFFFFFF) ∧
    (inf x → inf y → lane (.vdiv .f32 rm d p o imm) [a, b] = canon ∧
      (x = y → lane (.vsub .f32 rm d p o imm) [a, b] = canon) ∧ (x ≠ y → lane (.vadd .f32 rm d p o imm) [a, b] = canon)) ∧
    ((inf x ∧ zero y) ∨ (zero x ∧ inf y) → lane (.vmul .f32 rm d p o imm) [a, b] = canon) ∧
    (zero y → (zero x → lane (.vdiv .f32 rm d p o imm) [a, b] = canon) ∧ (¬zero x → ex x ≠ 255 →
      lane (.vdiv .f32 rm d p o imm) [a, b] = 0x7F800000 ||| ((x ^^^ y) &&& 0x80000000))) ∧
    (x = y → ¬zero x → ex x ≠ 255 → lane (.vsub .f32 rm d p o imm) [a, b] = if rm = .rdn then 0x80000000 else 0) ∧
    (y = 0 → ∀ ty, lane (.vdiv (match ty with | .i32 => .i32 | .u32 => .u32) rm d p o imm) [a, b] = 0xFFFFFFFF ∧
      lane (.vdivRem ty d p o imm) [a, b] = x) ∧
    (x = 0x80000000 → y = 0xFFFFFFFF → lane (.vdiv .i32 rm d p o imm) [a, b] = x ∧ lane (.vdivRem .i32 d p o imm) [a, b] = 0) ∧
    (y ≠ 0 → ∃ q r : W32, lane (.vdiv .u32 rm d p o imm) [a, b] = q ∧ lane (.vdivRem .u32 d p o imm) [a, b] = r ∧
      q.toNat * y.toNat + r.toNat = x.toNat ∧ r.toNat < y.toNat) ∧
    (y ≠ 0 → ¬(x = 0x80000000 ∧ y = 0xFFFFFFFF) → ∃ q r : W32, lane (.vdiv .i32 rm d p o imm) [a, b] = q ∧
      lane (.vdivRem .i32 d p o imm) [a, b] = r ∧ q.toInt * y.toInt + r.toInt = x.toInt ∧ r.toInt.natAbs < y.toInt.natAbs ∧
      (r = 0 ∨ (r.toInt < 0 ↔ x.toInt < 0))) ∧
    cmp .lt .i32 (x.toInt < y.toInt) ∧ cmp .ge .i32 (y.toInt ≤ x.toInt) ∧ cmp .lt .u32 (x.toNat < y.toNat) ∧
    cmp .le .u32 (x.toNat ≤ y.toNat) ∧ cmp .gt .u32 (y.toNat < x.toNat) ∧ cmp .eq .i32 (x = y) ∧ cmp .ne .i32 (x ≠ y) ∧
    (nan x ∨ nan y → cmp .un .f32 True ∧ cmp .ne .f32 True ∧ cmp .eq .f32 False ∧ cmp .lt .f32 False ∧ cmp .ge .f32 False ∧
      cmp .gt .f32 False ∧ cmp .le .f32 False) ∧
    (zero x → zero y → cmp .eq .f32 True ∧ cmp .lt .f32 False ∧ cmp .un .f32 False) ∧
    lane (.vrsum .i32 rm false .row d p imm) [a] = BitVec.ofInt 32 ((List.range 64).map fun k => (at' a k).toInt).sum ∧
    lane (.vrsum .u32 rm false .row d p imm) [a] = BitVec.ofNat 32 ((List.range 64).map fun k => (at' a k).toNat).sum ∧
    lane (.vscanIncl .i32 rm false .row d p imm) [a] = BitVec.ofInt 32 ((List.range (col + 1)).map fun k => (at' a k).toInt).sum ∧
    lane (.vscanExcl .i32 rm false .row d p imm) [a] = BitVec.ofInt 32 ((List.range col).map fun k => (at' a k).toInt).sum ∧
    (∃ k < 64, lane (.vrmax .i32 .row d p imm) [a] = at' a k ∧ ∀ m < 64, (at' a m).toInt ≤ (at' a k).toInt) ∧
    (∃ k < 64, lane (.vrmin .u32 .row d p imm) [a] = at' a k ∧ ∀ m < 64, (at' a k).toNat ≤ (at' a m).toNat) ∧
    (∀ hi, lane (.vupbf hi d p imm) [a] =
      (at' a ((col + if hi then 64 else 0) / 2)).extractLsb' (16 * (col % 2)) 16 ++ (0 : BitVec 16)) ∧
    (∀ u v, u = at' (if col < 32 then a else b) (2 * col % 64) → v = at' (if col < 32 then a else b) (2 * col % 64 + 1) →
      ex u ≠ 255 → ex v ≠ 255 → u.extractLsb' 0 16 = 0 → v.extractLsb' 0 16 = 0 →
      lane (.vpkbf rm d p o imm) [a, b] = v.extractLsb' 16 16 ++ u.extractLsb' 16 16) ∧
    (let f (i : Instr) (v : W32) : Prop := lane i [a] = v;
      (nan x → f (.vexp .f32 rm d p imm) x ∧ f (.vexp2 .f32 rm d p imm) x ∧ f (.vln .f32 rm d p imm) x ∧ f (.vlog2 .f32 rm d p imm) x ∧
        f (.vrcp .f32 rm d p imm) x ∧ f (.vrsqrt .f32 rm d p imm) x ∧ f (.vsqrt .f32 rm d p imm) x ∧ f (.vtanh .f32 rm d p imm) x ∧
        f (.vsigm .f32 rm d p imm) x ∧ f (.vgelu .f32 rm d p imm) x ∧ f (.verf .f32 rm d p imm) x) ∧
      (zero x → f (.vexp .f32 rm d p imm) 0x3F800000 ∧ f (.vexp2 .f32 rm d p imm) 0x3F800000 ∧ f (.vln .f32 rm d p imm) 0xFF800000 ∧
        f (.vlog2 .f32 rm d p imm) 0xFF800000 ∧ f (.vrcp .f32 rm d p imm) (x ||| 0x7F800000) ∧
        f (.vrsqrt .f32 rm d p imm) (x ||| 0x7F800000) ∧ f (.vsqrt .f32 rm d p imm) x ∧ f (.vtanh .f32 rm d p imm) x ∧
        f (.vsigm .f32 rm d p imm) 0x3F000000 ∧ f (.vgelu .f32 rm d p imm) x ∧ f (.verf .f32 rm d p imm) x) ∧
      (x = 0x7F800000 → f (.vexp .f32 rm d p imm) x ∧ f (.vexp2 .f32 rm d p imm) x ∧ f (.vln .f32 rm d p imm) x ∧
        f (.vlog2 .f32 rm d p imm) x ∧ f (.vrcp .f32 rm d p imm) 0 ∧ f (.vrsqrt .f32 rm d p imm) 0 ∧ f (.vsqrt .f32 rm d p imm) x ∧
        f (.vtanh .f32 rm d p imm) 0x3F800000 ∧ f (.vsigm .f32 rm d p imm) 0x3F800000 ∧ f (.vgelu .f32 rm d p imm) x ∧
        f (.verf .f32 rm d p imm) 0x3F800000) ∧
      (x = 0xFF800000 → f (.vexp .f32 rm d p imm) 0 ∧ f (.vexp2 .f32 rm d p imm) 0 ∧ f (.vrcp .f32 rm d p imm) 0x80000000 ∧
        f (.vtanh .f32 rm d p imm) 0xBF800000 ∧ f (.vsigm .f32 rm d p imm) 0 ∧ f (.vgelu .f32 rm d p imm) 0x80000000 ∧
        f (.verf .f32 rm d p imm) 0xBF800000) ∧
      (¬nan x → ¬zero x → x.getLsbD 31 = true → f (.vln .f32 rm d p imm) canon ∧ f (.vlog2 .f32 rm d p imm) canon ∧
        f (.vrsqrt .f32 rm d p imm) canon ∧ f (.vsqrt .f32 rm d p imm) canon) ∧
      (x = 0x3F800000 → f (.vln .f32 rm d p imm) 0 ∧ f (.vlog2 .f32 rm d p imm) 0)) ∧
    lane (.vclamp .i32 d p o n imm) [a, b, c] = BitVec.ofInt 32 (min (max x.toInt y.toInt) w.toInt) ∧
    lane (.vclamp .u32 d p o n imm) [a, b, c] = BitVec.ofNat 32 (min (max x.toNat y.toNat) w.toNat) ∧
    (∃ k < 64, lane (.vrmaxi .i32 .row d p imm) [a] = at' a k ∧
      ((vecSem (.vrmaxi .i32 .row d p imm)).bind fun v => (v.run [a]).index).map (fun t => at' t col) = some (BitVec.ofNat 32 k) ∧
      ∀ m < 64, (at' a m).toInt ≤ (at' a k).toInt ∧ (m < k → at' a m ≠ at' a k)) ∧
    (∃ k < 64, lane (.vrmini .u32 .row d p imm) [a] = at' a k ∧
      ((vecSem (.vrmini .u32 .row d p imm)).bind fun v => (v.run [a]).index).map (fun t => at' t col) = some (BitVec.ofNat 32 k) ∧
      ∀ m < 64, (at' a k).toNat ≤ (at' a m).toNat ∧ (m < k → at' a m ≠ at' a k)) ∧
    (let high (t : Tile) : Tile := t.map fun x => x &&& 0xFFFF0000;
      lane (.vfma16 rm d p o n imm) [a, b, c] = lane (.vfma .bf16 rm d p o n imm) [high a, high b, high c]) ∧
    (x = imm.setWidth 32 → imm.toNat < 2 ^ 32 → lane (.vrngRaw d p imm) [a] = 0 ∧ lane (.vrngUni d p imm) [a] = 0x33000000) ∧
    (let u := lane (.vrngUni d p imm) [a];
      0x33000000 ≤ u.toNat ∧ u.toNat ≤ 0x3F7FFFFF) ∧
    (∀ hi m, let code := (a.getD (16 * ((m.toNat + row) % 64)) 0).extractLsb' 0 8
      (code = 0xFF → lane (.vunpk hi .f32 rm m d p imm) [a] = canon) ∧ (code = 0 → lane (.vunpk hi .f32 rm m d p imm) [a] = 0))

/-- A due result lands: each of its runs of bytes then reads as computed, its tiles stand at the end of their queues, it is no longer in
flight, and a result that is not due changes nothing (04 R78, R79). -/
def Obligations.ResultsLand : Prop :=
  ∀ (s : State) (i : Nat) (f : Flight), s.core.flights[i]? = some f →
    (f.ready = false → Goes (.evResultLand i) s s) ∧
    (∀ k bs, f.ready = true → f.owner = .own → f.effs = [.run k bs] → f.work = none → ∃ t, Goes (.evResultLand i) s t ∧
      (∀ j < bs.length, readByte t.spad (k + j) = bs.getD j 0) ∧
      (∀ x, x < k ∨ k + bs.length ≤ x → readByte t.spad x = readByte s.spad x) ∧ t.mem = s.mem ∧
      t.core.flights = s.core.flights.filter (fun g => g.id != f.id) ∧ t.core.s = s.core.s ∧ t.core.queues = s.core.queues) ∧
    (∀ q x, f.ready = true → f.owner = .own → f.effs = [.queue q x] → f.work = none → s.core.queues.length = 8 →
      ∃ t, Goes (.evResultLand i) s t ∧ t.core.queue q = s.core.queue q ++ [x] ∧ t.spad = s.spad ∧ t.mem = s.mem)

/-! ### Barriers (02 R30, R31) -/

/-- BAR and BAR.PART arrive once, performing CTL's older stores, and go on when no task of the level is missing; CTL's waiting word goes
on when the last one arrives; a level the task does not have, and BAR.PART of a launch of several gangs, is ILLOP (02 R30, R31). -/
def Obligations.BarriersMeet : Prop :=
  ∀ (s s0 : State) (k : BitVec 3) (n : W32) (t : Task), s.core.task = some t →
    let word (i : Instr) (lv : Nat) (n : W32) : Prop :=
      (s.core.arrived.isSome = true → s.mayDepart lv = true → Goes i s (s.depart lv n) ∧
        (s0.standAt .ctl = some (i, s) → s.core.halt = .run → Goes .evBarDepart s0 (s.depart lv n))) ∧
      (s.core.arrived.isSome = true → s.mayDepart lv = false → Goes i s (s.waiting .internal)) ∧
      (s.core.arrived = none → s.drains = true → ∃ u, Goes i s u ∧ u.core.stores = [] ∧
        u.core.bars = s.core.bars.set lv (s.core.bars.getD lv 0 + 1) ∧ u.core.s = s.core.s ∧
        (u.core.arrived = some lv ∧ u.core.seqs.ctl.pc = s.core.seqs.ctl.pc ∨
          u.core.arrived = none ∧ (s.who = .ctl → u.core.seqs.ctl.pc = s.core.seqs.ctl.pc + 16)))
    (k.toNat < t.nlvl → k.toNat ≤ t.gang → word (.bar k) k.toNat 0) ∧
    (t.nlvl ≤ k.toNat ∨ t.gang < k.toNat → Goes (.bar k) s (s.trap fIllop)) ∧
    (t.single = true → word (.barPart n) 8 n) ∧ (t.single = false → Goes (.barPart n) s (s.trap fIllop)) ∧
    (∀ x lv, s.ctx? = some x → s.mayDepart lv = true → ∀ h ∈ x.launch.members t.g lv, h = t.g ∨
      s.core.bars.getD lv 0 ≤ s.barCount x h lv ∨ h ∈ x.endedG ∨ h ∈ x.farEnded)

/-! ### Shared control flow (04 R56 to R76) -/

/-- The transfers of CTL, with their operands settled, their target inside the text and room in every masked control queue: where CTL
goes, what it pushes, and which loops and returns it keeps (04 R62 to R69, R71, R72). A masked sequencer follows: it pops CTL's entry for
BR, JMP by register, LOOP and BREAK, waits while there is none, and goes where CTL went; JMP, CALL and RET need no entry (04 R62, R66 to
R71). -/
def Obligations.Transfers : Prop :=
  (∀ (s : State) (m : EMask) (c : Cond) (l : Fin 6) (sa sb : SReg) (rot : Bool) (tgt imm : W32), s.who = .ctl →
    s.settled [sa, sb] = true → s.queuesRoom m = true → tgt.toNat < s.tlen →
    let q := s.core.seqs.ctl
    let stands (t : State) (blk : Nat) : Prop := t.core.seqs.ctl.pc = blk * 64 ∧ t.core.seqs.ctl.pos = q.pos + 1 ∧
      t.core.seqs.ctl.entered = false ∧ t.core.seqs.ctl.due = s.core.cycle.toNat + 1
    let pushed (t : State) (x : List CtlEntry) : Prop :=
      ∀ e, e ≠ .ctl → (t.core.seqs.get e).ctlq = (s.core.seqs.get e).ctlq ++ if inMask m e then x else []
    let hit := condHolds c (s.getS sa) (s.getS sb)
    let reg := (s.getS sa).toNat
    let trips : W32 := if sa = 0 then imm else (s.getS sa).setWidth 32
    let free := (followers m).all fun e => (loopAt (s.core.view.get e).loops l).isNone
    (∃ t, Goes (.br m c sa sb tgt) s t ∧ pushed t [.outcome hit] ∧ (hit = false → t.core.seqs.ctl.pc = q.pc + 16) ∧
      (hit = true → stands t tgt.toNat ∧ t.core.seqs.ctl.loops = q.loops.filter fun x => x.has tgt.toNat)) ∧
    (∃ t, Goes (.jmp m tgt) s t ∧ pushed t [] ∧ stands t tgt.toNat ∧
      t.core.seqs.ctl.loops = q.loops.filter fun x => x.has tgt.toNat) ∧
    (reg % 64 = 0 → reg / 64 < s.tlen → ∃ t, Goes (.jmpIndirect m sa) s t ∧ pushed t [.target (reg / 64)] ∧ stands t (reg / 64)) ∧
    (s.cur.slot = 3 → ((followers m).all fun e => decide ((s.core.view.get e).depth < 16)) = true →
      ∃ t, Goes (.call m tgt) s t ∧ pushed t [] ∧ stands t tgt.toNat ∧ t.core.seqs.ctl.rstack = (q.pc / 64 + 1) :: q.rstack) ∧
    (∀ b r, q.rstack = b :: r → b < s.tlen → ((followers m).all fun e => (s.core.view.get e).depth != 0) = true →
      ∃ t, Goes (.ret m) s t ∧ pushed t [] ∧ stands t b ∧ t.core.seqs.ctl.rstack = r) ∧
    (s.cur.slot = 3 → s.cur.pc = q.pc → reg < 2 ^ 32 → q.pc / 64 + 1 < tgt.toNat → free = true →
      ∃ t, Goes (.loop m l sa rot tgt imm) s t ∧ pushed t [.trips trips] ∧ (trips = 0 → stands t tgt.toNat) ∧
        (trips ≠ 0 → stands t (q.pc / 64 + 1) ∧ t.core.seqs.ctl.loops =
          { lvl := l, n := trips, start := q.pc / 64 + 1, exit := tgt.toNat, depth := q.rstack.length, rot := rot } :: q.loops) ∧
        t.core.seqs.ctl.lidx = q.lidx.set l.val 0) ∧
    (((followers m).all fun e => (loopAt (s.core.view.get e).loops l).any fun x => x.exit == tgt.toNat) = true →
      ∃ t, Goes (.brk m c l sa sb tgt) s t ∧ pushed t [.outcome hit] ∧ (hit = true → stands t tgt.toNat) ∧
        (hit = false → t.core.seqs.ctl.pc = q.pc + 16) ∧ t.core.seqs.ctl.lidx = q.lidx)) ∧
  (∀ (s : State) (m : EMask) (c : Cond) (l : Fin 6) (sa sb : SReg) (rot : Bool) (tgt imm : W32), s.who ≠ .ctl → inMask m s.who = true →
    let stands (t : State) (blk : Nat) : Prop := t.seq.pc = blk * 64 ∧ t.seq.pos = s.seq.pos + 1 ∧ t.seq.entered = false
    let waits (i : Instr) : Prop := Goes i s (s.waiting .external)
    (s.seq.ctlq = [] → waits (.br m c sa sb tgt) ∧ waits (.jmpIndirect m sa) ∧ waits (.loop m l sa rot tgt imm) ∧
      waits (.brk m c l sa sb tgt)) ∧
    (∀ r, s.seq.ctlq = .outcome true :: r → (∃ t, Goes (.br m c sa sb tgt) s t ∧ t.seq.ctlq = r ∧ stands t tgt.toNat) ∧
      ∃ t, Goes (.brk m c l sa sb tgt) s t ∧ t.seq.ctlq = r ∧ stands t tgt.toNat ∧ t.seq.lidx = s.seq.lidx) ∧
    (∀ r, s.seq.ctlq = .outcome false :: r → ∃ t, Goes (.br m c sa sb tgt) s t ∧ Goes (.brk m c l sa sb tgt) s t ∧
      t.seq.ctlq = r ∧ t.seq.pc = s.seq.pc + 16) ∧
    (∀ b r, s.seq.ctlq = .target b :: r → ∃ t, Goes (.jmpIndirect m sa) s t ∧ t.seq.ctlq = r ∧ stands t b) ∧
    (∀ n r, s.seq.ctlq = .trips n :: r → ∃ t, Goes (.loop m l sa rot tgt imm) s t ∧ t.seq.ctlq = r ∧
      (n = 0 → stands t tgt.toNat) ∧ (n ≠ 0 → stands t (s.seq.pc / 64 + 1) ∧ t.seq.loops =
        { lvl := l, n := n, start := s.seq.pc / 64 + 1, exit := tgt.toNat, depth := s.seq.rstack.length, rot := rot } :: s.seq.loops)) ∧
    (tgt.toNat < s.tlen → (∃ t, Goes (.jmp m tgt) s t ∧ stands t tgt.toNat) ∧ (s.cur.slot = 3 → s.seq.rstack.length < 16 →
      ∃ t, Goes (.call m tgt) s t ∧ stands t tgt.toNat ∧ t.seq.rstack = (s.seq.pc / 64 + 1) :: s.seq.rstack)) ∧
    (∀ b r, s.seq.rstack = b :: r → b < s.tlen → ∃ t, Goes (.ret m) s t ∧ stands t b ∧ t.seq.rstack = r))

/-- A sequencer outside the mask falls through to the next word; a transfer skipped so detaches it, and it counts no position until it
takes one up again (04 R58). NOP costs each masked sequencer one cycle; ROTSET sets ROTSZ and clears RBASE (04 R65, R73, R80). -/
def Obligations.TransfersSkipped : Prop :=
  (∀ (s : State) (m : EMask) (c : Cond) (l : Fin 6) (sa sb : SReg) (rot : Bool) (tgt imm n : W32) (e : Eng) (p : Nat),
    s.who ≠ .ctl → inMask m s.who = false →
    let falls (i : Instr) : Prop := ∃ t, Goes i s t ∧ t.seq.pc = s.seq.pc + 16 ∧ t.seq.detached = true ∧
      (s.seq.detached = false → t.seq.skip = s.seq.pos) ∧ t.seq.ctlq = s.seq.ctlq ∧ SameBytes s t
    falls (.br m c sa sb tgt) ∧ falls (.jmp m tgt) ∧ falls (.jmpIndirect m sa) ∧ falls (.call m tgt) ∧ falls (.ret m) ∧
    falls (.loop m l sa rot tgt imm) ∧ falls (.brk m c l sa sb tgt) ∧
    (∃ t, Goes (.rotset m n) s t ∧ t.seq.pc = s.seq.pc + 16 ∧ t.seq.detached = s.seq.detached ∧ t.seq.rotsz = s.seq.rotsz) ∧
    Goes (.nop m) s s.passOver ∧
    ((s.core.seqs.get e).detached = true → (s.core.seqs.get e).ended = false → (s.core.seqs.get e).wait.isSome = true →
      s.core.rejoin (s.core.seqs.get e) = some p → ∃ t, Goes (.evSeqReattach e) s t ∧ (t.core.seqs.get e).detached = false ∧
        (t.core.seqs.get e).pos = p ∧ (t.core.seqs.get e).pc = (s.core.seqs.get e).pc)) ∧
  (∀ (s : State) (m : EMask) (n : W32), s.who = .ctl ∨ inMask m s.who = true →
    (inMask m s.who = true → Goes (.nop m) s (s.complete 1)) ∧
    ∃ t, Goes (.rotset m n) s t ∧ t.seq.rotsz = n.setWidth 5 ∧ t.seq.rbase = 0 ∧ t.seq.pc = s.seq.pc + 16 ∧
      t.core.s = s.core.s ∧ t.core.f = s.core.f ∧ SameBytes s t ∧ SameWalks s t)

/-- A loop close: the index counts on, RBASE rotates where the loop says so, the sequencer goes back to the body while trips are left, and
else leaves the loop and closes the next one out, if that has the same exit and depth, all in one step (04 R70). TEXT_FETCH fills a sequencer's
buffer with the four little-endian words of the block it has entered, from this module's memory; a fetch that the tables refuse traps at
the block's first word (03 R36, R38; 25 R383). -/
def Obligations.LoopClosesAndText : Prop :=
  (∀ (s : State) (e : Eng) (l : LoopRec) (r : List LoopRec),
    let q := s.core.seqs.get e
    let turned (q : Seq) (l : LoopRec) : BitVec 4 :=
      if l.rot then BitVec.ofNat 4 ((q.rbase.toNat + q.rotsz.toNat - 1) % q.rotsz.toNat) else q.rbase
    q.closing = true → ∃ t, Goes (.evLoopClose e) s t ∧ (t.core.seqs.get e).closing = false ∧ (t.core.seqs.get e).pos = q.pos ∧
      SameBytes s t ∧ t.core.s = s.core.s ∧
      ((∀ x ∈ q.loops, x.exit ≠ q.pc / 64 ∨ x.depth ≠ q.rstack.length) →
        (t.core.seqs.get e).pc = q.pc ∧ (t.core.seqs.get e).loops = q.loops ∧ (t.core.seqs.get e).lidx = q.lidx) ∧
      (q.loops = l :: r → q.lidx.length = 6 → l.exit = q.pc / 64 → l.depth = q.rstack.length →
        let i := q.lidx.getD l.lvl.val 0 + 1
        (i.toNat < l.n.toNat → (t.core.seqs.get e).pc = l.start * 64 ∧ (t.core.seqs.get e).loops = l :: r ∧
          (t.core.seqs.get e).lidx = q.lidx.set l.lvl.val i ∧ (t.core.seqs.get e).rbase = turned q l) ∧
        (l.n.toNat ≤ i.toNat → (∀ x, r.head? = some x → x.exit ≠ q.pc / 64 ∨ x.depth ≠ q.rstack.length) →
          (t.core.seqs.get e).pc = q.pc ∧ (t.core.seqs.get e).loops = r ∧ (t.core.seqs.get e).lidx = q.lidx.set l.lvl.val i ∧
          (t.core.seqs.get e).rbase = turned q l) ∧
        (∀ m r', l.n.toNat ≤ i.toNat → r = m :: r' → m.exit = q.pc / 64 → m.depth = q.rstack.length → m.lvl ≠ l.lvl →
          (q.lidx.getD m.lvl.val 0 + 1).toNat < m.n.toNat →
          (t.core.seqs.get e).pc = m.start * 64 ∧ (t.core.seqs.get e).loops = r ∧
          (t.core.seqs.get e).lidx.getD m.lvl.val 0 = q.lidx.getD m.lvl.val 0 + 1))) ∧
  (∀ (s : State) (e : Eng), let q := s.core.seqs.get e
    q.ended = false → q.entered = true → q.fetch = none →
    (∀ pa key, s.textTarget (q.pc / 64) = .ok { phys := pa, key := key, remote := none } → s.badMem pa 64 = false → ∃ t ws, Goes (.evTextFetch e) s t ∧
      (t.core.seqs.get e).fetch = some (q.pc / 64, ws) ∧ ws.length = 4 ∧ SameBytes s t ∧ t.core.s = s.core.s ∧
      ∀ k < 4, ws.getD k 0 = BitVec.ofNat 128 (leNat (s.readPhys key (pa + 16 * k) 16))) ∧
    (∀ f, s.textTarget (q.pc / 64) = .error f → ∃ t, Goes (.evTextFetch e) s t ∧ t.core.lastc = f.cause ∧
      t.core.traprec.getD 1 0 = BitVec.ofNat 64 (64 * (q.pc / 64) % 2 ^ 30) ∧ (t.core.traprec.getD 0 0).extractLsb' 8 3 = e.code))

/-- SYNC, SYNC.RETIRE and MODE are meetings: the last to arrive, with nothing outstanding where that is asked, takes all of them past the
word; before that a sequencer waits there. MODE sets MODEX when its drain is over, and in the handler it is ILLOP (04 R75, R76; 25 R374).
-/
def Obligations.Rendezvous : Prop :=
  ∀ (s s0 : State) (m : EMask) (x : Bool), s.who = .ctl ∨ inMask m s.who = true →
    let u := s.arrive
    (u.allArrived (followers m) = true → Goes (.sync m) s (u.departAll (followers m)) ∧
      (((followers m).all fun e => !inMask m e || !u.core.outstanding e) = true →
        Goes (.syncRetire m) s (u.departAll (followers m)))) ∧
    (u.allArrived (followers m) = false → Goes (.sync m) s u ∧ Goes (.syncRetire m) s u) ∧
    (s.core.aside = none → (u.allArrived engs = false → Goes (.mode x) s u) ∧
      (u.allArrived engs = true → u.core.quiet = true → ∃ t, Goes (.mode x) s t ∧ t.core.modex = x ∧
        ∀ e, (t.core.seqs.get e).pc = (u.core.seqs.get e).pc + 16) ∧
      (u.allArrived engs = true → u.core.quiet = false →
        ∃ t, Goes (.mode x) s t ∧ t.core.draining = true ∧ t.core.modex = s.core.modex)) ∧
    (s.core.aside.isSome = true → s.who = .ctl → Goes (.mode x) s (s.trap fIllop)) ∧
    (s0.standAt .ctl = some (.mode x, s) → s.core.draining = true → s.allArrived engs = true → s.core.quiet = true →
      ∃ t, Goes .evModeDrainDone s0 t ∧ t.core.modex = x ∧ t.core.draining = false)

/-! ### MAT (13 R220 to R239) -/

/-- MMA issues a result that lands after its k-steps at their declared cost, with the drawers it will release; an unclaimed drawer is
DRAWER with the lowest number; MMAH is trapped as LEGACY and counted (13 R225, R227, R228, R238; 04 R79). The short words of MAT issue
results that land after 4 cycles: MCLR a bank of zeros, MCARRY.Z and .LD a carry, MCARRY.ST one row of a bank, whose lanes it computes at its one
tile step (13 R224, R234, R235; 04 R79). -/
def Obligations.MatWordsIssue : Prop :=
  (∀ (s : State) (c : Cost) (bk : BankNo) (da db : DrawerNo) (ks : BitVec 12) (ecl : BitVec 2) (clr rls : Bool) (tl : Tail),
    let i : Instr := .mma c bk da db ks ecl clr rls tl
    let u := s.awaited tl
    let per := match c with | .c4 => 4 | .c6 => 6 | .c8 => 8
    (s.awaits tl = true → u.matReady [bk] [] → u.core.ctlPassed s.cur.pos s.cur.slot = true →
      (u.core.unclaimed (mmaDrawers i) = none → ∃ t, Issues i s t u.core.flights
          { id := 0, eng := .mat, rem := (ks.toNat + 1) * per, effs := [], post := tl.post, pins := [], place := s.cur, owner := .own,
            rls := if rls then (mmaDrawers i).map (BitVec.ofNat 5) else [],
            work := some (MatCmd.start i s.cur .own (u.core.nantAt s.cur.pos s.cur.slot) u.core.interlocked) }) ∧
      (∀ f, u.core.unclaimed (mmaDrawers i) = some f → Goes i s (u.trap f) ∧ f.cause = Cause.drawer ∧
        ∃ d ∈ mmaDrawers i, f.aux = d ∧ s.core.claimed.getLsbD d = false)) ∧
    (∃ t, Goes (.mmah c bk da db ks ecl clr rls tl) s t ∧ t.core.lastc = 0x11 ∧ t.core.legacycnt = s.core.legacycnt + 1 ∧ SameBytes s t)) ∧
  (∀ (s : State) (bk bx : BankNo) (row : BitVec 6) (tl : Tail), s.awaits tl = true → s.who = .mat →
    let u := s.awaited tl
    let short (i : Instr) (effs : List Eff) : Prop := ∃ t, Issues i s t u.core.flights
      { id := 0, eng := .mat, rem := 4, effs := effs, work := none, post := tl.post, rls := [], pins := [], place := s.cur, owner := .own }
    let lane (j : Nat) : W32 := (s.core.banks.getD bx.toNat []).getD (64 * row.toNat + j) 0
    let cs := s.core.carries.getD bk.toNat []
    (u.matReady [bk] [] → short (.mclr bk tl) [.bank bk [(0, List.replicate 4096 0)]]) ∧
    (u.matReady [] [bk] → short (.mcarryZ bk tl) [.carry bk (List.replicate 32 (0, 0))]) ∧
    (u.matReady [bx] [bk] → short (.mcarryLd bk bx row tl) [.carry bk ((List.range 32).map fun j => (lane j, lane (j + 32)))]) ∧
    (u.matReady [bx] [bk] → s.core.ctlPassed s.cur.pos s.cur.slot = true →
      let i : Instr := .mcarrySt bk bx row tl
      let m : MatCmd := { MatCmd.start i s.cur .own (u.core.nantAt s.cur.pos s.cur.slot) u.core.interlocked with
        src := s.core.banks.getD bx.toNat [], carry := cs }
      (∃ t, Issues i s t u.core.flights
        { id := 0, eng := .mat, rem := 4, effs := [], work := some m, post := tl.post, rls := [], pins := [], place := s.cur, owner := .own }) ∧
      (m.nant = false → ∃ m1, u.epStep m = .ok m1 ∧ m1.done = true ∧
        m1.outs = [.bank bx [(64 * row.toNat, cs.map Prod.fst ++ cs.map Prod.snd)]])))

/-- The epilogue words issue a result that reads its bank at issue and pops its tile where it asks for one: MOUT lands after 16 cycles,
MGATE after 20, MSCAN after 28 (13 R229 to R232; 04 R79). A destination by handle is the one resolved at the word's decode, one slice of an open tensor
once it may be written (07 R134; 16 R267, R269). -/
def Obligations.EpilogueIssues : Prop :=
  ∀ (s : State) (bk bd : BankNo) (t4 : Fin 12) (ho : HReg) (epi : Epi) (clr bias scale bf cmp : Bool) (aa ab : GateAct) (n : BitVec 6)
    (kc : Bool) (tl : Tail), s.awaits tl = true → s.pathsOpen = true → s.core.ctlPassed s.cur.pos s.cur.slot = true →
    let u := s.awaited tl
    let pops (on : Bool) (q : QNo) (tile : Option Tile) : Prop :=
      (on = false ∧ tile = none) ∨ (on = true ∧ ∃ x r, u.core.queue q = x :: r ∧ tile = some x)
    let out (i : Instr) (b : BankNo) (rem : Nat) (carry : List (W32 × W32)) (tile : Option Tile) (o : Option Operand) : Prop :=
      ∃ t, Issues i s t u.core.flights
        { id := 0, eng := .mat, rem := rem, effs := [], post := tl.post, rls := [], place := s.cur, owner := .own,
          pins := (o.map fun x => x.tags.map Prod.snd).getD [],
          work := some { MatCmd.start i s.cur .own (u.core.nantAt s.cur.pos s.cur.slot) u.core.interlocked with
            src := s.core.banks.getD b.toNat [], carry := carry, tile := tile, opnd := o } }
    (∀ tile, u.matReady [bk] [] → pops (bias || scale) 6 tile →
      (u.core.interlocked && u.runBusy (slotKey s.cnum (4 * t4.val)) (4 * 4096)) = false →
      out (.moutTile bk t4 epi clr bias scale bf tl) bk 16 [] tile none) ∧
    (∀ tile o, u.matReady [bk] [] → pops (bias || scale) 6 tile →
      let h := s.core.handleAt ho s.cur.pos s.cur.slot
      moutHandleOk h = true → handleAligned h = true →
      (s.seq.dec = .operand o ∨ s.seq.dec = .none ∧ s.seq.claim = none ∧ hOpen h = false ∧
        u.core.matDest { h := h, pages := [], tags := [], ring := false, slice := 0, count := 4096 } = .ok o) →
      (o.ring = true → u.core.mayWrite (hOtid o.h) o.slice = true) →
      (u.core.interlocked && u.runsBusy ((o.keys s.cnum).map fun key => (key, hEsize h))) = false →
      out (.moutHandle bk ho epi clr bias scale tl) bk 16 [] tile (some o)) ∧
    (∀ tile, u.matReady [bk, bd] [] → pops bias 6 tile → out (.mgate bk bd aa ab cmp bias tl) bk 20 [] tile none) ∧
    (∀ tile, u.matReady [bk] [bd] → pops cmp 7 tile →
      out (.mscan bk n bd kc cmp tl) bk 28 (s.core.carries.getD bd.toNat []) tile none)

/-- DCLAIM claims drawers that nobody holds and zeroes them, DREL releases claimed ones, DQRY stores the mask of claims; a drawer in the
wrong state is DRAWER, and then nothing is claimed or released (13 R222, R223). -/
def Obligations.DrawerWords : Prop :=
  ∀ (s : State) (da : DrawerNo) (n : BitVec 5) (ho : HReg) (tl : Tail), s.awaits tl = true →
    let u := s.awaited tl
    let ds := drawerRange da (n.toNat + 1)
    let has (c : Core) (d : Nat) : Bool := c.claimed.getLsbD d
    u.matReady [] [] →
    ((∀ d ∈ ds, has s.core d = false) → ∃ t, Goes (.dclaim da n tl) s t ∧ (∀ d < 32, has t.core d = (has s.core d || ds.contains d)) ∧
      ∀ d < s.core.drawers.length, t.core.drawers.getD d [] =
        if d ∈ ds then List.replicate 128 0 else s.core.drawers.getD d []) ∧
    ((∃ d ∈ ds, has s.core d = true) → ∃ t, Goes (.dclaim da n tl) s t ∧ t.core.lastc = Cause.drawer ∧ t.core.claimed = s.core.claimed) ∧
    ((∀ d ∈ ds, has s.core d = true ∧ d ∉ u.core.pinnedDrawers) → ∃ t, Goes (.drel da n tl) s t ∧
      (∀ d < 32, has t.core d = (has s.core d && !ds.contains d)) ∧ t.core.drawers = s.core.drawers) ∧
    ((∃ d ∈ ds, has s.core d = false ∨ d ∈ u.core.pinnedDrawers) → ∃ t, Goes (.drel da n tl) s t ∧
      t.core.lastc = Cause.drawer ∧ t.core.claimed = s.core.claimed) ∧
    (∀ key o, let h := s.core.handleAt ho s.cur.pos s.cur.slot
      s.core.ctlPassed s.cur.pos s.cur.slot = true → s.pathsOpen = true → handleOk h [1] = true → hFmt h = 0 → handleAligned h = true →
      s.who = .mat → (s.seq.dec = .operand o ∨ s.seq.dec = .none ∧ s.seq.claim = none ∧ (hOpen h = true → u.core.checkOpen h false = .ok ()) ∧
        u.core.matDest { h := h, pages := [], tags := [], ring := false, slice := 0, count := min 1 (hCount h) } = .ok o) →
      o.count = 1 → o.spot s.cnum 0 = .sp key → (u.core.interlocked && u.runsBusy [(key, 4)]) = false →
        ∃ t, Issues (.dqry ho tl) s t u.core.flights
          { id := 0, eng := .mat, rem := 4, effs := [.run key (leBytes 4 s.core.claimed.toNat)], work := none, post := tl.post, rls := [],
            pins := o.tags.map Prod.snd, place := s.cur, owner := .own })

/-- MAT_KSTEP completes: the next k-step adds its four-block dot products to the bank lanes of its tile step and debits its energy; while a
budget is used up, or in deterministic mode while a period's refill is due, it does not start, and a fault in it stops the command (13 R226 to
R229, R236; 23 R346, R349). EPILOGUE_TILE_STEP completes: the next tile step of the oldest epilogue word; after its last one the word's pieces
stand ready to land, and a NaN it must not make stops it before it writes (13 R230 to R232, R235, R236). -/
def Obligations.MatStepsRun : Prop :=
  (∀ (s : State) (f : Flight) (m : MatCmd) (c : Cost) (bk : BankNo) (da db : DrawerNo) (ks : BitVec 12) (ecl : BitVec 2) (clr rls : Bool)
    (tl : Tail), s.core.asideFlights.find? Flight.midStep = none → s.core.nextK = some f → f.work = some m →
    m.i = .mma c bk da db ks ecl clr rls tl →
    let units := max (2 ^ ecl.toNat) (match c with | .c4 => 4 | .c6 => 2 | .c8 => 1)
    let d1 := (da.toNat + m.k) % 32
    let d2 := (db.toNat + m.k) % 32
    let a := s.core.drawerRows d1
    let b := s.core.drawerRows d2
    let base := if m.k % 64 ≠ 0 then m.acc else if m.k = 0 ∧ clr = true then List.replicate 4096 0
      else if m.live = true ∨ m.k = 0 then s.core.bank bk else m.comm
    (s.energyOut = true → exec .evMatKstep s = .next s) ∧
    (s.energyOut = false → s.core.halt ≠ .stopped → (s.core.det = true → s.core.eperiod < 11500) →
      (∀ int, (m.k = 0 → ∀ d ∈ mmaDrawers m.i, s.core.isClaimed d = true) → s.core.badK d1 d2 bk = none →
        kCheck d1 d2 a b c.cycles = .ok int → m.nant = false →
        ∃ t, exec .evMatKstep s = .next t ∧ t.mem = s.mem ∧ t.spad = s.spad ∧ t.core.ebudget.toNat ≤ s.core.ebudget.toNat ∧
          ∃ g ∈ t.core.flights, g.id = f.id ∧ ∃ m1, g.work = some m1 ∧ m1.k = m.k + 1 ∧ m1.acc = kstepBank int a b base ∧
            ((m.live = false ∨ (m.k + 1) % 64 ≠ 0 ∧ m.k + 1 < m.steps) → t.core.banks = s.core.banks)) ∧
      (∀ e, (s.debit units).core.kstep m c bk da db clr = .error e → f.owner = .own → ∃ t p, exec .evMatKstep s = .next t ∧
        t.core.pend = s.core.pend ++ [p] ∧ p.info.cause = e.flt.cause ∧ p.info.kstep = m.k ∧ p.info.async = true ∧
        p.held = .command .mat))) ∧
  (∀ (s : State) (f : Flight) (m : MatCmd), s.core.flights.find? Flight.epDue = some f → f.work = some m → s.core.halt ≠ .stopped →
    let word : Prop := match m.i with | .moutTile .. | .moutHandle .. | .mgate .. | .mscan .. | .mcarrySt .. => True | _ => False
    (word → m.nant = false → ∃ t m1, exec .evEpilogueTileStep s = .next t ∧ m1.k = m.k + 1 ∧ m1.i = m.i ∧ s.epStep m = .ok m1) ∧
    (∀ m1, s.epStep m = .ok m1 → ∃ t, exec .evEpilogueTileStep s = .next t ∧ t.mem = s.mem ∧ t.spad = s.spad ∧
      t.core.banks = s.core.banks ∧
      t.core.flights = s.core.flights.map (fun g => if g.id == f.id then
        { f with work := some m1, effs := if m1.done then m1.outs ++ m1.lastEffs else f.effs } else g)) ∧
    (∀ b, s.epStep m = .error b → f.owner = .own → ∃ t p, exec .evEpilogueTileStep s = .next t ∧ t.core.pend = s.core.pend ++ [p] ∧
      p.info.cause = b.flt.cause ∧ p.info.row = b.row ∧ p.info.col = b.col ∧ p.info.tsdone = m.tiles))

/-! ### Copies (09 R171 to R193) -/

/-- A copy word whose operands resolve goes to the end of its engine's command queue with its handles as they stood at the word, its
claims and pins taken, and moves no byte; with eight commands already there its sequencer waits at the queue's end (09 R171, R175, R185).
A POST word of a copy engine is queued like a command and moves nothing (09 R173). -/
def Obligations.CopyWordsQueue : Prop :=
  (∀ (s : State) (e : CopyEng) (i : Instr) (tl : Tail) (hs hd : Option HReg) (follow : Option (Instr × At)) (sl up sx int : Bool)
    (a b : HReg) (cnt : Option CntClause) (ch : ChanNo) (sq v : W16) (grp : BitVec 8),
    ((i = .cpy e sl a b cnt ch tl ∧ hs = some a ∧ hd = some b ∧ follow = none) ∨
     (i = .cpyf sl a b cnt ch tl ∧ e = .cld ∧ hs = some a ∧ hd = some b ∧ follow.isSome = true ∧ s.followOn = follow) ∨
     (i = .cred int a b cnt sq grp ch tl ∧ e = .cst ∧ hs = some a ∧ hd = some b ∧ follow = none) ∨
     (i = .cfil e sx b cnt v ch tl ∧ hs = none ∧ hd = some b ∧ follow = none) ∨
     (i = .ctier e up a b cnt ch tl ∧ hs = some a ∧ hd = some b ∧ follow = none) ∨
     (i = .ccnt e cnt tl ∧ hs = none ∧ hd = none ∧ follow = none)) →
    s.seq.claim = none → s.core.ctlPassed s.cur.pos s.cur.slot = true → s.awaits tl = true →
    let at' (r : HReg) : W256 := s.core.handleAt r s.cur.pos s.cur.slot
    let x : CopyHs := { hs := hs.map at', hd := hd.map at', hc := cnt.map fun n => at' n.hc }
    let q0 : CopyCmd := { CopyCmd.start i s.cur .own tl.post with follow := follow, sees := if tl.await.isSome then s.dev.writeNo else 0 }
    ∀ c q, (s.awaited tl).resolveCopy e q0 x none = .ok (c, q) →
      ∃ t, Goes i s t ∧ t.core.copies e = c.copies e ++ [{ q with order := c.order }] ∧ SameBytes s t ∧
        ((c.copies e).length < 8 → t.seq.pc = s.seq.pc + 16) ∧
        (8 ≤ (c.copies e).length → t.seq.pc = s.seq.pc ∧ t.seq.wait = some .internal)) ∧
  (∀ (s : State) (e : CopyEng) (c : TailClause), s.seq.claim = none → (s.core.copies e).length < 8 →
    ∃ t, Goes (.postTail e.eng c) s t ∧ t.core.copies e = s.core.copies e ++
        [{ CopyCmd.start (.postTail e.eng c) s.cur .own (some c) with order := s.core.order }] ∧
      t.seq.pc = s.seq.pc + 16 ∧ t.core.f = s.core.f ∧ SameBytes s t)

/-- COPY_START starts the command at the head of its queue when its channel is free, with WPTR of the channel at 0 (09 R172, R186, R187).
COPY_TILE_STEP of a copy between places of this module reads its step and then writes it, at most 4 KiB, and counts the bytes as delivered; in
deterministic mode the step takes its declared cycles first (09 R177, R179, R180, R186; 23 R343). COPY_RETIRE: the command at the head that has
moved all it has adds its counter as one atomic, leaves its queue, and posts; nothing else of the queue changes (09 R172, R189, R190). -/
def Obligations.CopiesRun : Prop :=
  (∀ (s : State) (e : CopyEng) (q : CopyCmd) (r : List CopyCmd), s.core.copies e = q :: r → q.started = false → q.stopped = false →
    s.core.halt = .run → (s.core.det = true → q.count = 0) →
    (s.chanFree e q = true → ∃ t, Goes (.evCopyStart e) s t ∧ SameBytes s t ∧
      t.core.copies e = { q with started := true, due := if s.core.det then s.core.cycle.toNat + (if q.steps = 0 then q.tailLat else 64) else 0 } :: r ∧
      ∀ ch, copyChan q.i = some ch → s.core.wptr.length = 4 → t.core.wptr.getD ch.toNat 1 = 0) ∧
    (s.chanFree e q = false → Goes (.evCopyStart e) s s)) ∧
  (∀ (s : State) (e : CopyEng) (q : CopyCmd) (r : List CopyCmd) (o : Operand), s.core.copies e = q :: r → q.dst = some o →
    q.started = true → q.stopped = false → q.step < q.steps → q.sending = none → q.isCred = false → q.buf = [] → s.core.halt = .run →
    let k := (q.stepRange q.step).1
    let n := (q.stepRange q.step).2
    let far (x : Option Operand) : List (Nat × Nat × Nat) := (x.map fun y => farPieces y s.cnum k n).getD []
    let dev (x : Option Operand) : Nat := (x.map fun y => devBytes y s.cnum k n).getD 0
    let m := dev q.src + (if (match q.i with | .ctier .. => true | _ => false) then 0 else dev q.dst)
    s.core.slicesReady q k n = true → (q.owner = .own → s.core.pathOpen .cp q.place.pos q.place.slot = true) →
    s.core.reached q.due = true → (q.busy = false → s.memOk m = true) →
    (s.core.det = true → q.busy = false → ∃ t, Goes (.evCopyTileStep e) s t ∧ SameBytes s t ∧
      t.core.copies e = { q with busy := true, due := s.core.cycle.toNat + q.stepLat s.cnum k n } :: r) ∧
    ((s.core.det = true → q.busy = true) → far q.src = [] → far q.dst = [] →
      (q.src.any fun x => (List.range n).any fun j => (s.badSpot x (k + j)).isSome) = false →
      let u := s.memDebit (if q.busy then 0 else m)
      let bytes := match q.src with
        | some x => u.gatherStep q.look x k n []
        | none => fillStep q.i q.esize n
      bytes.length = n * hEsize o.h →
      ∃ t, Goes (.evCopyTileStep e) s t ∧ t.mem = (u.scatterStep .cp o k bytes).mem ∧ t.spad = (u.scatterStep .cp o k bytes).spad ∧
        ∃ c r', t.core.copies e = c :: r' ∧ c.step = q.step + 1 ∧ c.delivered = q.delivered + bytes.length ∧ c.i = q.i ∧ c.busy = false)) ∧
  (∀ (s : State) (e : CopyEng) (q : CopyCmd) (r : List CopyCmd), s.core.copies e = q :: r → q.owner = .own → s.core.halt ≠ .stopped →
    (q.moved = false → Goes (.evCopyRetire e) s s) ∧
    (q.moved = true → s.core.reached q.due = true → q.cnt = none →
      ∃ t, Goes (.evCopyRetire e) s t ∧ t.core.copies e = r ∧ t.mem = s.mem ∧ t.spad = s.spad) ∧
    (∀ p va n, q.moved = true → s.core.reached q.due = true → s.core.pathOpen .cp q.place.pos q.place.slot = true → q.cnt = some (p, va) →
      copyCnt q.i = some n → p.remote = none → s.badMem (p.phys + va % 65536) 8 = false → s.memOk 8 = true →
      ∃ t, Goes (.evCopyRetire e) s t ∧ t.core.copies e = r ∧
        leNat (t.readPhys p.key (p.phys + va % 65536) 8) =
          (leNat (s.readPhys p.key (p.phys + va % 65536) 8) + n.cinc.toNat) % 2 ^ 64))

/-- CRED_APPLY: a contribution on this module is applied, tile step by tile step, while the count of its group is at its place, element by element,
and after the last step the count goes on; before its turn nothing is applied, and a step applied before a fault is not applied again (09 R182;
16 R279). FOLLOW_ON_ISSUE: once the last byte of a CPYF has landed and the array is free, its MMA goes to the array (09 R181, 13 R237). -/
def Obligations.ReductionsAndFollowOns : Prop :=
  (∀ (s : State) (e : CopyEng) (q : CopyCmd) (r : List CopyCmd) (o : Operand) (int : Bool) (a b : HReg) (cnt : Option CntClause)
    (sq : W16) (grp : BitVec 8) (ch : ChanNo) (tl : Tail) (k : Nat) (bs : List Byte) (rest : List (Nat × List Byte)),
    s.core.copies e = q :: r → q.i = .cred int a b cnt sq grp ch tl → q.dst = some o → q.buf = (k, bs) :: rest → q.owner = .own →
    q.started = true → q.stopped = false → q.applied = false → s.core.halt = .run → q.credRank s.cnum = none →
    (s.core.det = true → q.steps ≤ q.next ∧ q.due ≤ s.core.cycle.toNat) →
    let g := s.redKey grp.toNat
    let red := s.dev.red g
    let stepped (t : State) : Prop := ∃ c r', t.core.copies e = c :: r' ∧ c.step = q.step + 1 ∧ c.buf = rest ∧
      (c.applied = true ↔ q.steps ≤ q.step + 1) ∧ c.delivered = q.delivered + bs.length
    (red.e ≠ sq → Goes (.evCredApply e) s s) ∧
    (red.e = sq → q.step < red.done → ∃ t, Goes (.evCredApply e) s t ∧ t.mem = s.mem ∧ t.spad = s.spad ∧ stepped t ∧ t.dev.red g = red) ∧
    (red.e = sq → red.done ≤ q.step → (∀ j < bs.length / 4, s.badSpot o (k + j) = none) → ∃ t, Goes (.evCredApply e) s t ∧
      t.mem = (s.credPiece int o k bs).mem ∧ t.spad = (s.credPiece int o k bs).spad ∧ stepped t ∧
      (q.step + 1 < q.steps → (t.dev.red g).e = sq ∧ (t.dev.red g).done = q.step + 1) ∧
      (q.steps ≤ q.step + 1 → red.skips = [] → (t.dev.red g).e = sq + 1 ∧ (t.dev.red g).done = 0))) ∧
  (∀ (s : State) (q : CopyCmd) (r : List CopyCmd) (i : Instr) (p : At), s.core.cld = q :: r → q.follow = some (i, p) → q.owner = .own →
    q.started = true → q.stopped = false → q.followDone = false → q.steps ≤ q.step → s.core.halt = .run → s.core.arrayLent = false →
    s.core.arrayBusy = false → s.core.inFlight .mat < 7 → s.core.ctlPassed p.pos p.slot = true → s.core.det = false →
    s.core.unclaimed (mmaDrawers i) = none →
    ∃ t f, Goes .evFollowOnIssue s t ∧ t.core.flights = s.core.flights ++ [f] ∧ f.rem = matLatency i ∧ f.owner = .follow ∧ f.place = p ∧
      t.core.cld = { q with followDone := true } :: r ∧ SameBytes s t)

/-! ### FAB (15 R243 to R264) -/

/-- A FAB word whose handle and operand pass goes to the end of the unit's queue: FCFG and a record with the operand, FBIND and FBIND.C
binding their port anew for the next FGO, an open input with the slices it claims, FGO opening the phase with the bindings pending, FBAR and
FSTOP closing it; a ninth waits there with its sequencer; what R254 forbids is ILLOP, a misaligned handle ALIGN before the await clause (15
R254, R255, R259, R260; 16 R270; 03 R54). Log 21 and log 76 say which open handles claim. -/
def Obligations.FabricWordsQueue : Prop :=
  ∀ (s : State) (h : HReg) (port : Fin 12) (out : BitVec 2) (cnt : W32) (n : BitVec 8) (tl : Tail) (clause : TailClause) (o : Operand),
    s.seq.claim = none → s.core.ctlPassed s.cur.pos s.cur.slot = true →
    let v := s.core.handleAt h s.cur.pos s.cur.slot
    let u := s.awaited tl
    let f := u.core.fabric
    let queuedAt (rs : List OpenRec) (i : Instr) (g : Fabric) (x : FabCmd) : Prop :=
      ∃ t, Goes i s t ∧ t.core.fabric = { g with queue := g.queue ++ [x] } ∧ SameBytes s t ∧ t.core.s = s.core.s ∧ t.core.recs = rs ∧
        (g.queue.length < 8 → t.seq.pc = s.seq.pc + 16) ∧
        (8 ≤ g.queue.length → t.seq.pc = s.seq.pc ∧ t.seq.wait = some .internal)
    let queued := queuedAt s.core.recs
    let plain (i : Instr) : FabCmd := fabCmd i s.cur tl.post
    let formed (p : Nat) : Prop := handleOk v [0, 1] = true ∧ (hFmt v = 0 ∨ hFmt v = 1) ∧ bindShape s.seq v p (fabPattern v cnt).count = true
    let config : Prop := handleOk v [0, 1] = true ∧ hRank v = 1 ∧ hFmt v = 0 ∧ f.openPh = none
    let pattern (p : Nat) : Operand :=
      if bindClaims s.seq v p then { fabPattern v cnt with ring := true, slice := (s.core.orec (hOtid v)).rc } else fabPattern v cnt
    let binds (i : Instr) (p : Nat) (x : Bool) : Prop :=
      ∀ c r, s.core.checkIfOpen v (decide (p < 8)) = .ok () → u.fabOperand (pattern p) (if p < 8 then .rd else .wr) = .ok o →
        u.core.claimBind o = .ok (c, r) →
        queuedAt ((f.pendBinds.filter fun y => y.port == p).foldl Core.dropBind c).recs i
          { f with pendBinds :=
            f.pendBinds.filter (fun y => y.port != p) ++ [{ port := p, compact := x, opnd := r, sees := u.tailSees tl }] } (plain i)
    let recorded : Prop := recordOk v = true ∧ s.core.checkIfOpen v false = .ok () ∧ u.fabOperand (fabPattern v 0) .wr = .ok o
    (s.awaits tl = true →
      (config → handleAligned v = true → s.core.checkIfOpen v true = .ok () → u.fabOperand (fabPattern v 0) .rd = .ok o →
        queued (.fcfg h tl) f { plain (.fcfg h tl) with opnd := some o }) ∧
      (formed port.val → handleAligned v = true → binds (.fbind h port cnt tl) port.val false) ∧
      (formed (8 + out.toNat) → handleAligned v = true → binds (.fbindC h out cnt tl) (8 + out.toNat) true) ∧
      (f.openPh = none → (∀ b ∈ f.pendBinds, b.port < 8 ∨ hOpen b.opnd.h = false) →
        queued (.fgo n tl) { f with pendBinds := [], openPh := some n }
          { plain (.fgo n tl) with binds := f.pendBinds, sees := u.tailSees tl }) ∧
      (f.openPh = some n → queued (.fbar n tl) { f with openPh := none } { plain (.fbar n tl) with live := true } ∧
        (handleAligned v = true → recorded →
          queued (.fbarRec h n tl) { f with openPh := none } { plain (.fbarRec h n tl) with opnd := some o, live := true })) ∧
      queued (.fstop tl) { f with openPh := none } { plain (.fstop tl) with live := f.openPh.isSome } ∧
      (handleAligned v = true → recorded →
        queued (.fstopRec h tl) { f with openPh := none } { plain (.fstopRec h tl) with opnd := some o, live := f.openPh.isSome })) ∧
    (¬config → Goes (.fcfg h tl) s (s.trap fIllop)) ∧
    (f.openPh.isSome = true ∨ (∃ b ∈ f.pendBinds, 8 ≤ b.port ∧ hOpen b.opnd.h = true) → Goes (.fgo n tl) s (s.trap fIllop)) ∧
    (¬formed port.val → Goes (.fbind h port cnt tl) s (s.trap fIllop)) ∧
    (¬formed (8 + out.toNat) → Goes (.fbindC h out cnt tl) s (s.trap fIllop)) ∧
    (f.openPh ≠ some n → Goes (.fbar n tl) s (s.trap fIllop)) ∧
    (f.openPh ≠ some n ∨ recordOk v = false → Goes (.fbarRec h n tl) s (s.trap fIllop)) ∧
    (recordOk v = false → Goes (.fstopRec h tl) s (s.trap fIllop)) ∧
    (handleAligned v = false →
      let misaligned (i : Instr) : Prop := Goes i s (s.trap { cause := 0x02, addr := hBase v })
      (config → misaligned (.fcfg h tl)) ∧ (formed port.val → misaligned (.fbind h port cnt tl)) ∧
      (formed (8 + out.toNat) → misaligned (.fbindC h out cnt tl)) ∧
      (recordOk v = true → misaligned (.fstopRec h tl) ∧ (f.openPh = some n → misaligned (.fbarRec h n tl)))) ∧
    queued (.postTail .fab clause) s.core.fabric (fabCmd (.postTail .fab clause) s.cur (some clause))

/-- Tokens of a running phase: a feeder builds its next one from 192 elements, as they are seen on its path, invalid lanes beyond the count; a
strip consumes one of each input, runs its program and emits one; an output port writes the valid lanes at their elements, or one after
another where it compacts (15 R243 to R245, R258). In deterministic mode the first token of a tile step first takes the step's cycles (23
R343). -/
def Obligations.FabricTokensMove : Prop :=
  ∀ (s : State) (cfg : FabCfg) (ph : Phase), s.runningPhase = some (cfg, ph) → s.core.halt = .run → s.core.fbOpen ph = true →
    let now (due : Option Nat) (o : Operand) (k : Nat) : Prop := s.core.portBegin due o s.cnum k = none ∧ due.all s.core.reached = true
    (∀ (p : Fin 8) (b : Bind) (ip : InPort), ph.bind p.val = some b → ph.ins[p.val]? = some ip → ip.last = false → ip.skid.length < 2 →
      ip.far = [] → cfg.inPorts.contains p.val = true →
      let o := b.opnd
      let k := ip.fed * 192
      let n := min 192 (o.count - k)
      s.core.tokenReady o k n = true → s.memOk (devBytes o s.cnum k n) = true → hEsize o.h = 4 → hSpc o.h < 2 →
      (∀ j < n, s.badSpot o (k + j) = none ∧ ∀ r off, o.spot s.cnum (k + j) ≠ .far r off) →
      (∀ d, s.core.portBegin ip.due o s.cnum k = some d → ∃ t p', Goes (.evFeederToken p) s t ∧ SameBytes s t ∧
        t.core.fabric.phase = some p' ∧ p'.ins[p.val]? = some { ip with due := some d } ∧ p'.strips = ph.strips ∧ p'.outs = ph.outs) ∧
      (now ip.due o k → ∃ t p' ip' tk, Goes (.evFeederToken p) s t ∧ SameBytes s t ∧ t.core.fabric.phase = some p' ∧
        p'.ins[p.val]? = some ip' ∧
        ip'.fed = ip.fed + 1 ∧ ip'.last = decide (o.count ≤ k + 192) ∧ ip'.skid = ip.skid ++ [tk] ∧ tk.last = ip'.last ∧
        p'.strips = ph.strips ∧ p'.outs = ph.outs ∧ ∀ j < 192, tk.lanes[j]? =
          some (if j < n then { v := BitVec.ofNat 32 (leNat (s.readSpot (ph.look b) (o.spot s.cnum (k + j)) 4)), ok := true }
            else { v := 0, ok := false }))) ∧
    (∀ (i : Fin 12) (sc : StripCfg) (st : Strip) (x y : Token), cfg.strips[i.val]? = some sc → ph.strips[i.val]? = some st →
      sc.prog ≠ [] → st.lastX = false → st.lastY = false → st.out.length < 2 → sc.srcx ≠ 8 + i.val → sc.srcy ≠ 8 + i.val →
      ph.headFor sc.srcx (2 * i.val) = some x → (sc.srcy = 31 → y = { lanes := [], last := false }) →
      (sc.srcy ≠ 31 → ph.headFor sc.srcy (2 * i.val + 1) = some y) → s.good 6 = true →
      let r := stripRun { x := x.lanes, y := y.lanes, k := sc.k, table := cfg.table } sc.prog st.a st.buckets
      let last := x.last || y.last
      ∃ t p' st', Goes (.evStripFire i) s t ∧ SameBytes s t ∧ t.core.fabric.phase = some p' ∧ p'.strips[i.val]? = some st' ∧
        st'.a = r.1 ∧ st'.buckets = r.2 ∧ st'.lastX = x.last ∧ st'.lastY = y.last ∧
        st'.out = st.out ++ (if (!hasHold sc.prog || last) && !(cfg.consumers (8 + i.val)).isEmpty then
          [{ lanes := r.1, last := last }] else []) ∧
        (∀ ip, ph.ins[sc.srcx]? = some ip → sc.srcx < 8 → cfg.consumers sc.srcx = [2 * i.val] →
          ∃ ip', p'.ins[sc.srcx]? = some ip' ∧ ip'.skid = ip.skid.drop 1)) ∧
    (∀ (p : Fin 4) (b : Bind) (op : OutPort) (tk : Token), ph.bind (8 + p.val) = some b → ph.outs[p.val]? = some op →
      ph.headFor (cfg.outs.getD p.val 15 + 8) (100 + p.val) = some tk → op.done = false →
      now op.due b.opnd (if b.compact then op.written else op.tokens * 192) →
      let w := portWrites b op tk
      let m := (w.1.filter fun x => match b.opnd.spot s.cnum x.1 with | .phys _ _ => true | _ => false).length * 4
      s.memOk m = true → (∀ x ∈ w.1, ∀ r off, b.opnd.spot s.cnum x.1 ≠ .far r off) →
      let written := w.1.foldl (fun (u : State) y => u.writeSpot .fb (b.opnd.spot u.cnum y.1) (leBytes 4 y.2.toNat)) (s.memDebit m)
      ∃ t p', Goes (.evOutputPortToken p) s t ∧ t.core.fabric.phase = some p' ∧ p'.outs[p.val]? = some w.2 ∧
        t.mem = written.mem ∧ t.spad = written.spad ∧ w.2.tokens = op.tokens + 1 ∧ w.2.done = tk.last ∧
        ∀ e v, (e, v) ∈ w.1 ↔ e < b.opnd.count ∧ ∃ l, tk.lanes[l]? = some { v := v, ok := true } ∧
          e = if b.compact then op.written + (tk.lanes.take l).countP Lane.ok else op.tokens * 192 + l)

/-- The unit runs the word at the head of its queue: FCFG installs a legal bitstream and raises ILLOP on another; FGO starts its phase;
FBAR waits for the drain; FSTOP stops the phase where it is and then ends it; a POST posts (15 R251, R252, R254, R256 to R260). -/
def Obligations.FabricUnitRuns : Prop :=
  ∀ (s : State) (q : FabCmd) (r : List FabCmd), s.core.halt = .run → s.core.fabric.queue = q :: r → q.stopped = false →
    s.core.fabric.far = [] → (∀ p, s.core.fabric.phase = some p → p.owner = .own) →
    let f := s.core.fabric
    let runs (p : State → Prop) : Prop := ∃ t, Goes .evPhaseDrain s t ∧ t.core.fabric.queue = r ∧ SameBytes s t ∧ p t
    (∀ h tl o, q.i = .fcfg h tl → f.phase = none → q.opnd = some o → s.memOk (devBytes o s.cnum 0 o.count) = true →
      (∀ j < o.count, s.badSpot o j = none ∧ ∀ k off, o.spot s.cnum j ≠ .far k off) →
      let ws := lanesOf (s.gatherStep none o 0 o.count [])
      (cfgFaults ws o.count = [] → runs fun t => t.core.fabric = { f with cfg := some (parseCfg ws), queue := r }) ∧
      (∀ x l, cfgFaults ws o.count = x :: l → ∃ t p, Goes .evPhaseDrain s t ∧ t.core.fabric.cfg = f.cfg ∧
        t.core.pend = s.core.pend ++ [p] ∧ p.info.cause = 0x01 ∧ p.info.aux = BitVec.ofNat 64 (x.1 + x.2 * 2 ^ 16) ∧
        p.held = .command .fab)) ∧
    (∀ n tl u, q.i = .fgo n tl → f.phase = none → (s.mapFab fun b => { b with endRec := none }).startPhase q.binds q.sees q.place .own = .ok u →
      runs fun t => ∃ p, t.core.fabric.phase = some p ∧ p.owner = .own ∧ p.stopped = false ∧ (∀ b ∈ p.binds, b ∈ q.binds) ∧
        p.strips = List.replicate 12 Strip.start) ∧
    (∀ p c, f.phase = some p → f.cfg = some c → q.opnd = none →
      (∀ n tl, q.i = .fbar n tl → p.stopped = false → (p.drained c = false → Goes .evPhaseDrain s s) ∧
        (p.drained c = true → runs fun t => t.core.fabric.phase = f.parked.head?)) ∧
      (∀ tl, q.i = .fstop tl → q.live = true →
        (q.ending = false → p.stopped = false → ∃ t, Goes .evPhaseDrain s t ∧ SameBytes s t ∧
          t.core.fabric.phase = some { p with stopped := true } ∧ t.core.fabric.queue = { q with ending := true } :: r) ∧
        (q.ending = true → runs fun t => t.core.fabric.phase = f.parked.head?))) ∧
    (∀ x, q.i = .postTail .fab x → q.post = some x → s.core.det = false → s.core.flag x.f + tailCount x.n ≤ 65535 → runs fun t =>
      t.core.f = s.core.f.set x.f.toNat (BitVec.ofNat 16 (s.core.flag x.f + tailCount x.n)))

/-! ### Open axes and the almanac (16 R266 to R281) -/

/-- ROPEN opens a FREE record with the capacity of the handle's open axis; RSLICE completes the next k slices once they may be written,
after CTL's stores; RCLOSE closes, and a record that nothing uses any more is FREE; a record in the wrong state raises RULE (16 R266 to
R269, R271, R272). INST installs the next word as a rule in the lowest free entry, with the handles as CTL holds them, hands its outputs
to it and writes the entry's number; RVK and RVKAT set the last slice, RRES makes a FAULTED rule active, RQRY reads the maps of R281 (16
R271 to R275, R281). -/
def Obligations.AlmanacWords : Prop :=
  (∀ (s : State) (h : HReg) (o : Op2), s.settled (op2Regs o) = true →
    let v := s.core.getH h
    let id := hOtid v
    let r := s.core.orec id
    let k := (s.op2 o).toNat
    let raises (i : Instr) (reason : Byte) : Prop :=
      ∃ t, Goes i s t ∧ t.core.lastc = 0x0D ∧ (t.core.traprec.getD 0 0).extractLsb' 40 8 = reason ∧ t.core.recs = s.core.recs
    handleOk v [0, 1, 2] = true → hOpen v = true → handleAligned v = true → s.good 5 = true →
    (hExt v (hOuter v) ≠ 0 → (r.st = .free → Goes (.ropen h) s ((s.mapCore fun c =>
        c.mapRec id fun _ => { OpenRec.reset with st := .opened, cap := hExt v (hOuter v) }).complete 1)) ∧
      (r.st ≠ .free → raises (.ropen h) 0x02)) ∧
    (r.st = .opened → hExt v (hOuter v) = r.cap → r.prod ≠ .rule → 1 ≤ k → k ≤ r.cap → r.w + k < 2 ^ 32 → s.drains = true →
      (∀ x ∈ s.core.ruleList, id ∉ x.2.writes) →
      ((∀ j < k, s.core.mayWrite id (r.w + j) = true) → ∃ t, Goes (.rslice h o) s t ∧ t.core.stores = [] ∧ t.mem = s.drainStores.mem ∧
        t.core.s = s.core.s ∧ (t.core.orec id).w = r.w + k ∧ (t.core.orec id).prod = .program ∧
        (r.complete = [] → r.p = r.w → (t.core.orec id).p = r.w + k)) ∧
      ((∃ j < k, s.core.mayWrite id (r.w + j) = false) → Goes (.rslice h o) s (s.drainStores.waiting .internal))) ∧
    (r.st = .opened → hExt v (hOuter v) = r.cap → r.prod = .rule → raises (.rslice h o) 0x04) ∧
    (r.st = .opened → hExt v (hOuter v) = r.cap → ∃ t, Goes (.rclose h) s t ∧ SameBytes s t ∧
      (r.p ≠ r.w → (t.core.orec id).st = .closed ∧ (t.core.orec id).p = r.p ∧ (t.core.orec id).w = r.w) ∧
      (r.p = r.w → r.readers = [] → (∀ x ∈ s.core.ruleList, id ∉ x.2.reads ∧ id ∉ x.2.writes) → (t.core.orec id).st = .free)) ∧
    (r.st ≠ .opened → raises (.rclose h) 0x03 ∧ raises (.rslice h o) 0x03)) ∧
  (∀ (s : State) (d a : SReg) (ha hb : HReg) (o : Op2) (quiet : Bool) (post : Option FlagNo) (out : Bool) (carry : Option (BitVec 6)),
    s.settled (d :: a :: op2Regs o) = true → s.sized = true → s.good 5 = true →
    let n := (s.op2 o).toNat
    let entry (t : State) (k : Nat) : Option Rule := t.core.rules.getD k none
    (∀ p e, s.plan ha hb out carry = some p → (∀ x tl, p.i = .fgo x tl → s.core.passed s.cur.pos (s.cur.slot + 1) .fab = true) →
      (isImm o = true → n < 2 ^ 32) → s.planCheck p n = .ok e → (∀ x ∈ s.core.ruleList, s.core.ruleDone x.1 x.2 = false) →
      (∀ h ∈ p.reads, (s.core.orec (hOtid h)).st = .opened) →
      ∃ t r, Goes (.inst d ha hb o quiet post out carry) s t ∧ entry s e = none ∧ entry t e = some r ∧ e < 32 ∧
        (d ≠ 0 → t.getS d = BitVec.ofNat 64 e) ∧ r.st = .active ∧ r.next = n ∧ r.i = p.i ∧ r.word = p.word ∧ r.hs = s.core.h ∧
        r.seqNo = s.core.ruleSeq ∧ r.quiet = quiet ∧ r.post = post ∧ r.last = none ∧ r.inst = none ∧ SameBytes s t ∧
        ∀ h ∈ p.writes, (t.core.orec (hOtid h)).prod = .rule) ∧
    (s.cur.slot = 3 → Goes (.inst d ha hb o quiet post out carry) s (s.trap fIllop)) ∧
    (∀ r, n < 32 → entry s n = some r →
      (∃ t, Goes (.rvk o) s t ∧ SameBytes s t ∧ (r.st = .faulted ∨ r.reached = r.n0 → entry t n = none) ∧
        ∀ x, entry t n = some x → x.last = some (r.reached - 1) ∧ x.next = r.next ∧ x.inst = r.inst) ∧
      (r.st = .faulted → ∃ t, Goes (.rres o) s t ∧ SameBytes s t ∧ ∀ x, entry t n = some x → x.st = .active ∧ x.next = r.next) ∧
      (r.st ≠ .faulted → Goes (.rres o) s (s.trapRule 0x06 0 n))) ∧
    (∀ r, (s.getS a).toNat < 32 → entry s (s.getS a).toNat = some r → ∃ t, Goes (.rvkat a o) s t ∧ SameBytes s t ∧
      ∀ x, entry t (s.getS a).toNat = some x → x.last = some (if r.reached = r.n0 then n else max n (r.reached - 1))) ∧
    (n < 32 → entry s n = none → Goes (.rvk o) s (s.trapRule 0x06 0 n) ∧ Goes (.rres o) s (s.trapRule 0x06 0 n)) ∧
    (32 ≤ n → Goes (.rvk o) s (s.trapRule 0x07 n 0) ∧ Goes (.rqryRule d o) s (s.trapRule 0x07 n 0)) ∧
    (n < 32 → ∃ v w x : W64, Puts (.rqryRule d o) s d v ∧ Puts (.rqryRec d o) s d w ∧ Puts (.rqryCur d o) s d x ∧
      (entry s n = none → v = 0) ∧
      (∀ r, entry s n = some r → v.extractLsb' 61 3 = (if r.st = .faulted then 2 else if r.last.isSome then 3 else 1) ∧
        v.extractLsb' 58 3 = r.word.extractLsb' 125 3 ∧ v.extractLsb' 52 6 = 0 ∧
        v.extractLsb' 44 8 = (if r.st = .faulted then r.cause else 0) ∧
        v.extractLsb' 32 12 = BitVec.ofNat 12 (if r.st = .faulted then min r.tsdone 4095 else 0) ∧
        v.extractLsb' 0 32 = BitVec.ofNat 32 r.next) ∧
      let c := s.core.orec n
      w.extractLsb' 62 2 = (match c.st with | .free => 0 | .opened => 1 | .closed => 2) ∧ w.extractLsb' 50 12 = 0 ∧
      w.extractLsb' 48 2 = (match c.prod with | .none => 0 | .program => 1 | .rule => 2) ∧
      w.extractLsb' 32 16 = BitVec.ofNat 16 c.cap ∧ w.extractLsb' 0 32 = BitVec.ofNat 32 c.p ∧
      x.extractLsb' 32 32 = BitVec.ofNat 32 c.rc ∧ x.extractLsb' 0 32 = BitVec.ofNat 32 c.w))

/-- RULE_INSTANCE_ISSUE issues the first ready instance of its engine: a copy enters its engine's queue (at its end, log 82), a VEC word runs
on the staged slice, a phase starts; RULE_INSTANCE_RETIRE commits what has finished, the carried slot and the posts together, and an
instance whose post would overflow faults with nothing committed (16 R276 to R279). -/
def Obligations.RulesRun : Prop :=
  ∀ (s : State) (k : Fin 32) (r : Rule), s.sized = true → s.core.rules.getD k.val none = some r → s.good 5 = true →
    let u := s.mapCore fun c => c.beginInst k.val r
    let flown (n : Inst) : Rule := { r with reached := max r.reached (r.next + 1), next := r.next + 1, inst := some n }
    let entry (t : State) : Option Rule := t.core.rules.getD k.val none
    (r.inst = none → s.core.ruleFirst k.val r = false → Goes (.evRuleInstanceIssue k) s s) ∧
    (r.inst = none → s.core.ruleFirst k.val r = true →
      (∀ e c q, ruleEng r.i = ofCopy e → (s.core.copies e).length < 8 →
        let at' (x : HReg) : W256 := r.hs.getD x.toNat 0
        let i := ruleCopy r r.next
        u.resolveCopy e { CopyCmd.start i r.place (.rule k) none with follow := r.follow }
          { hs := (copyRegs i).1.map at', hd := (copyRegs i).2.map at', hc := (copyCnt i).map fun n => at' n.hc } (some r.next) = .ok (c, q) →
        ∃ t, Goes (.evRuleInstanceIssue k) s t ∧ SameBytes s t ∧
          t.core.copies e = s.core.copies e ++ [{ q with order := s.core.order }] ∧ entry t = some (flown (Inst.start r.next)) ∧
          ∀ x, r.outRec = some x → (t.core.orec x.val).w = max (s.core.orec x.val).w (r.next + 1)) ∧
      (∀ v a l ts qs, ruleEng r.i = .vec → ruleVec r.i = some v → s.vecFree r v = true →
        u.ruleOperands ((patternOf r.trig (some r.next), .rd) :: (r.outH.map fun h => (patternOf h (some r.next), .wr)).toList) =
          .ok (a :: l) →
        let m := devBytes a s.cnum 0 a.count
        (∀ j < a.count, u.badSpot a j = none ∧ ∀ rank off, a.spot s.cnum j ≠ .far rank off) → u.memOk m = true →
        let ls := lanesOf (u.gatherStep none a 0 a.count [])
        let w := u.writeSpad (slotKey s.cnum v.stage) (bytesOf (ls ++ List.replicate (1024 - ls.length) 0))
        w.badSrc v = none → w.readSrcs v.imm v.srcs w.core.queues = some (ts, qs) → (v.run ts).bad = none →
        (r.nant = true → (v.run ts).nan = none) →
        ∃ t f, Goes (.evRuleInstanceIssue k) s t ∧ t.core.flights = s.core.flights ++ [f] ∧ f.owner = .rule k ∧ f.eng = .vec ∧
          f.effs = (v.run ts).effs s.cnum s.core.seqs.vec v.dst ∧ t.spad = w.spad ∧ t.mem = s.mem ∧
          entry t = some (flown { Inst.start r.next with trig := some a, out := l.head?, staged := true, result := some (v.run ts).tile })) ∧
      (∀ l w, ruleEng r.i = .fab → u.ruleOperands (r.binds.map fun b =>
          (if hOpen b.opnd.h then patternOf b.opnd.h (some r.next) else { b.opnd with pages := [], tags := [] },
            if b.isInput then .rd else .wr)) = .ok l →
        u.startPhase ((r.binds.zip l).map fun x => { x.1 with opnd := x.2 }) 0 r.place (.rule k) = .ok w →
        ∃ t, Goes (.evRuleInstanceIssue k) s t ∧ t.core.fabric.phase = w.core.fabric.phase ∧ entry t = some (flown (Inst.start r.next)) ∧
          SameBytes s t)) ∧
    (∀ n x, r.inst = some n → ruleEng r.i = .vec → s.core.halt ≠ .stopped → n.result = some x → n.out = none →
      ((n.staged && n.finished) = false → Goes (.evRuleInstanceRetire k) s s) ∧
      ((n.staged && n.finished) = true → s.core.postsOver r = none → ∃ t, Goes (.evRuleInstanceRetire k) s t ∧
        t.core.f = (r.posts.foldl (fun (c : Core) y => c.setFlag y.1 (c.flag y.1 + y.2)) s.core).f ∧ t.mem = s.mem ∧
        (∀ y, entry t = some y → y.inst = none ∧ y.retired = n.slice + 1 ∧ y.next = r.next) ∧
        ∀ p, r.carry = some p → x.length = 1024 → hSlice r.trig ≤ 1024 → ∀ j < 1024,
          (t.slotTile p).getD j 0 = if j < hSlice r.trig then x.getD j 0 else 0) ∧
      (∀ f, (n.staged && n.finished) = true → s.core.postsOver r = some f → f.cause = 0x08 ∧ ∃ t y, Goes (.evRuleInstanceRetire k) s t ∧
        t.core.f = s.core.f ∧ SameBytes s t ∧ entry t = some y ∧ y.st = .faulted ∧ y.cause = 0x08 ∧ y.next = n.slice))

/-! ### Streams (18 R287 to R307; 19 R309 to R311) -/

/-- SNEW makes a stream of depth op2 with both ends at the task and writes their handles; a depth outside 1 to 4,096 is STREAM 0x06 (18
R290, R294; 03 R55). The first word over an unplaced send end places it (19 R309). SBIND binds a receive end to an open tensor whose slices are
k items each, SBIND.OFF undoes it between groups, on whatever core of the context the binding is; SCLOSE closes a stream, SDROP destroys an end
and leaves the stream ORPHAN, both clearing the handle, at the home at once and else as a message to it; SSTAT reads the map of R300 (18 R300,
R301, R305; 19 R311). -/
def Obligations.StreamsMadeAndEnded : Prop :=
  (∀ (s : State) (ha hb : HReg) (o : Op2) (t : Task), s.settled (op2Regs o) = true → s.sized = true → s.core.task = some t →
    let d := (s.op2 o).toNat
    let raises (reason : Byte) : Prop := ∃ u, Goes (.snew ha hb o) s u ∧ u.core.lastc = 0x0E ∧
      (u.core.traprec.getD 0 0).extractLsb' 40 8 = reason ∧ u.dev = s.dev
    (1 ≤ d → d ≤ 4096 → (s.dev.homes.filter Home.mine).length < 8192 → s.liveEnds + 2 ≤ 64 → ∃ u h, Goes (.snew ha hb o) s u ∧
      u.dev.homes = s.dev.homes ++ [h] ∧ h.mine = true ∧ h.hrank = t.rank ∧ h.hcore = s.cnum ∧ h.depth = d ∧ h.st = 0 ∧ h.free = d ∧
      h.next = 0 ∧ h.buf = [] ∧ h.flight = [] ∧ (s.dev.homes.length < 2 ^ 32 → ∀ x ∈ s.dev.homes, x.sid ≠ h.sid) ∧
      h.locS = .unplaced t.ctx s.cnum ∧ h.locR = .here t.ctx s.cnum ∧ h.genS = 0 ∧ h.genR = 0 ∧
      (ha ≠ hb → u.core.getH ha = h.handle false) ∧ u.core.getH hb = h.handle true ∧
      (∀ e, endForm (h.handle e) = true ∧ endSid (h.handle e) = h.sid ∧ endRecv (h.handle e) = e) ∧ SameBytes s u) ∧
    (d = 0 ∨ 4096 < d → raises 0x06) ∧
    (1 ≤ d → d ≤ 4096 → 8192 ≤ (s.dev.homes.filter Home.mine).length → raises 0x01) ∧
    (1 ≤ d → d ≤ 4096 → (s.dev.homes.filter Home.mine).length < 8192 → 64 < s.liveEnds + 2 → raises 0x02)) ∧
  (∀ (s : State) (d : SReg) (r : HReg) (h : Home) (k : Nat), s.settled [d] = true → s.core.getH r = h.handle false →
    s.home? (endSid (h.handle false)) (endRank (h.handle false)) = some h → h.locS = .unplaced s.taskCtx k → h.mine = true →
    (k = s.cnum ∨ s.liveEnds + 1 ≤ 64 → ∃ t x, Goes (.sstat d r) s t ∧ SameBytes s t ∧ t.home? h.sid h.hrank = some x ∧
      x.locS = .here s.taskCtx s.cnum ∧ x.handle false = h.handle false) ∧
    (k ≠ s.cnum → 64 < s.liveEnds + 1 → ∃ t, Goes (.sstat d r) s t ∧ t.core.lastc = 0x0E ∧
      (t.core.traprec.getD 0 0).extractLsb' 40 8 = 0x02 ∧ t.dev.homes = s.dev.homes)) ∧
  (∀ (s : State) (d : SReg) (ra rb : HReg) (o : Op2) (h : Home) (e : Bool), s.settled (d :: op2Regs o) = true → s.sized = true →
    let v := s.core.getH rb
    let k := (s.op2 o).toNat
    let ours (b : SBinding) : Bool := b.isOf h.sid h.hrank
    let told (t : State) (m : StreamMsg) : Prop := ∃ x, t.dev.outbox = s.dev.outbox ++ [x] ∧ x.rank = h.hrank ∧
      x.kind = .stream h.sid h.hrank m
    (s.checkEnd (s.core.getH ra) (some true) = .ok (h, true, s) →
      (∀ p l, h.bound = false → 1 ≤ k → k ≤ 64 → handleOk v [0, 1] = true → hOpen v = true → handleAligned v = true →
        s.core.checkOpen v false = .ok () → (s.core.orec (hOtid v)).prod ≠ .rule → hSlice v * hEsize v = 64 * k →
        s.ruleOperands [(patternOf v none, .wr)] = .ok (p :: l) → ∃ t x b, Goes (.sbind ra rb o) s t ∧ SameBytes s t ∧
          t.home? h.sid h.hrank = some x ∧ x.bound = true ∧ t.core.bindings = s.core.bindings ++ [b] ∧ ours b = true ∧ b.k = k ∧
          b.opnd = p ∧ b.slice = none) ∧
      (h.bound = true → ∃ t, Goes (.sbind ra rb o) s t ∧ t.core.lastc = 0x0E ∧ (t.core.traprec.getD 0 0).extractLsb' 40 8 = 0x08) ∧
      ((∀ b ∈ s.bindingsOf h, b.2.slice = none) → ∃ t x, Goes (.sbindOff ra) s t ∧ SameBytes s t ∧
        t.home? h.sid h.hrank = some x ∧ x.bound = false ∧ t.bindingsOf h = [] ∧
        t.core.bindings = s.core.bindings.filter fun b => !ours b) ∧
      ((∃ b ∈ s.core.bindings, ours b = true ∧ b.slice.isSome = true) → Goes (.sbindOff ra) s (s.waiting .internal))) ∧
    (s.checkEnd (s.core.getH ra) (some false) = .ok (h, false, s) → s.core.pathOpen .st s.cur.pos s.cur.slot = true →
      (h.whole → ∃ t, Goes (.sclose ra) s t ∧ SameBytes s t ∧ t.core.getH ra = 0 ∧
        (∀ c j, h.locR = .here c j → ∃ x, t.home? h.sid h.hrank = some x ∧ x.st = if h.st = 0 then 1 else h.st) ∧
        ∀ x, t.home? h.sid h.hrank = some x → x.st ≠ 0 ∧ x.locS = .gone ∧ x.final.isSome = true) ∧
      (h.mine = false → h.hrank ≠ h.own → ∃ t, Goes (.sclose ra) s t ∧ SameBytes s t ∧ t.core.getH ra = 0 ∧ told t (.closed h.next) ∧
        ∀ x, t.home? h.sid h.hrank = some x → x.locS = .away h.hrank)) ∧
    (s.checkEnd (s.core.getH ra) none = .ok (h, e, s) →
      (s.core.pathOpen .st s.cur.pos s.cur.slot = true → (e = true → ∀ b ∈ s.bindingsOf h, b.2.slice = none) →
        (∀ i ∈ h.buf ++ h.early.map Prod.snd, i.carried = none) →
        (h.whole → ∃ t, Goes (.sdrop ra) s t ∧ SameBytes s t ∧ t.core.getH ra = 0 ∧
          ∀ x, t.home? h.sid h.hrank = some x → x.st = 2 ∧ x.loc e = .gone) ∧
        (h.mine = false → h.hrank ≠ h.own → ∃ t n, Goes (.sdrop ra) s t ∧ SameBytes s t ∧ t.core.getH ra = 0 ∧ told t (.lost e n) ∧
          n = (if e then h.head + BitVec.ofNat 32 (h.buf.length + h.early.length) else h.next) ∧
          ∀ x, t.home? h.sid h.hrank = some x → x.loc e = .away h.hrank)) ∧
      (h.mine = true → (e = true → h.farR = none) → h.depth ≤ 4096 → ∃ v : W64, Puts (.sstat d ra) s d v ∧ v.extractLsb' 62 2 = h.st ∧
        v.getLsbD 61 = e ∧ v.getLsbD 60 = (e && h.bound) ∧ v.getLsbD 58 = h.moving.isSome ∧ v.getLsbD 57 = h.way e ∧
        v.extractLsb' 48 8 = BitVec.ofNat 8 (min h.repair 255) ∧
        v.extractLsb' 32 16 = (if e then h.genR else h.genS) ∧ v.extractLsb' 16 13 = BitVec.ofNat 13 h.depth ∧
        v.extractLsb' 0 13 = BitVec.ofNat 13 (if e then h.buf.length + h.early.length + (h.wayR.map fun w => w.items.length).getD 0
          else h.free))))

/-- SSEND over an end of this module takes n slots and puts n items in flight with the bytes of the scratchpad, after CTL's stores; SRECV
takes n items from the head, queues their bytes and gives the slots back; short of slots or items they wait, or say so under NB; an ORPHAN
or CLOSED stream says so (18 R290 to R293, R295, R296). -/
def Obligations.ItemsSentAndReceived : Prop :=
  ∀ (s : State) (nb : Bool) (d a : SReg) (r : HReg) (o : Op2) (rel acq : Option Scope) (h : Home),
    s.settled (d :: a :: op2Regs o) = true → s.core.pathOpen .sc s.cur.pos s.cur.slot = true →
    s.core.pathOpen .st s.cur.pos s.cur.slot = true →
    let n := (s.op2 o).toNat
    let off := (s.getS a).toNat
    let key := spadKey s.cnum off
    let u := s.drainStores
    let send : Instr := .ssend nb d r a o rel
    let recv : Instr := .srecv nb d r a o acq
    1 ≤ n → n ≤ 64 → n ≤ h.depth → off + 64 * n ≤ 2 ^ 23 → off < 2 ^ 23 → off % 64 = 0 →
    (s.checkEnd (s.core.getH r) (some false) = .ok (h, false, s) → s.drains = true → h.sendRank = none →
      (h.st = 2 → Goes send s (u.putS d 0x0300000000000000)) ∧
      (h.st ≠ 2 → h.paused = true → Goes send s (u.waiting (.stream (s.outside h true s.cnum)))) ∧
      (h.st ≠ 2 → h.paused = false →
        (n ≤ h.free → h.window n = true → s.badSpad key (64 * n) = false → ∃ t x, Goes send s t ∧ t.mem = u.mem ∧ t.spad = u.spad ∧
          t.core.s = (s.setS d (BitVec.ofNat 64 n)).core.s ∧ t.home? h.sid h.hrank = some x ∧ x.free = h.free - n ∧
          x.next = h.next + BitVec.ofNat 32 n ∧
          let w := if rel.isSome then u.bridgeSt else u
          x.flight = h.flight ++ (List.range n).map fun j => (h.next + BitVec.ofNat 32 j,
            { bytes := w.seeRun w.scLook (spadKey s.cnum (off + 64 * j)) 64, carried := none, rel := rel.map fun sc => (s.party, sc),
              due := s.core.later 800 })) ∧
        (h.free < n → Goes send s (if nb then u.putS d 0x0100000000000000 else u.waiting (.stream (s.outside h true s.cnum)))) ∧
        (n ≤ h.free → h.window n = false →
          Goes send s (if nb then u.putS d 0x0600000000000000 else u.waiting (.stream (s.outside h true s.cnum)))))) ∧
    (s.checkEnd (s.core.getH r) (some true) = .ok (h, true, s) → h.bound = false →
      (n ≤ h.buf.length → (∀ i ∈ h.buf.take n, i.carried = none) → ∃ t x, Goes recv s t ∧ SameBytes s t ∧
        t.core.s = (s.setS d (BitVec.ofNat 64 n)).core.s ∧ (∃ es, t.core.stores = s.core.stores ++ es ∧
          es.map (fun e => (e.addr, e.sp, e.bytes)) =
            (h.buf.take n).zipIdx.map fun x => (spadKey s.cnum (off + 64 * x.2), true, x.1.bytes)) ∧
        t.home? h.sid h.hrank = some x ∧ x.buf = h.buf.drop n ∧ x.head = h.head + BitVec.ofNat 32 n ∧
        h.gaveBack x n (s.core.later 800)) ∧
      (h.buf = [] → h.st = 0 → Goes recv s (if nb then s.putS d 0x0200000000000000 else s.waiting (.stream (s.outside h false s.cnum)))) ∧
      (∀ st, h.buf = [] → h.final = some h.head → (h.st = 1 ∧ st = 0x0400000000000000 ∨ h.st = 2 ∧ st = 0x0300000000000000) →
        ∃ t, Goes recv s t ∧ SameBytes s t ∧ t.core.stores = s.core.stores ∧ t.core.s = (s.setS d st).core.s))

/-- SSENDH sends an end as an item once its move is granted: the handle is cleared, the end is in transit with a new generation, its core a
waypoint; SRECVH takes up an end that has come with its counters, writes its handle and registers it at its home (18 R297 to R299). -/
def Obligations.EndsMove : Prop :=
  ∀ (s : State) (nb e : Bool) (d : SReg) (ra rb : HReg) (sc : Option Scope) (h m : Home), s.settled [d] = true → s.sized = true →
    s.core.pathOpen .st s.cur.pos s.cur.slot = true → m.isOf h.sid h.hrank = false →
    (s.checkEnd (s.core.getH ra) (some false) = .ok (h, false, s) → s.checkEnd (s.core.getH rb) none = .ok (m, e, s) →
      (e = true → m.bound = false) → (sc.isSome = true → s.drains = true) → h.st ≠ 2 → h.sendRank = none →
      let u := if sc.isSome then s.drainStores else s
      (h.paused = true ∨ m.paused = true → Goes (.ssendh nb d ra rb sc) s (u.waiting (.stream (s.outside h true s.cnum)))) ∧
      (h.paused = false → m.paused = false → h.free ≠ 0 → s.waypointsOn s.cnum < 256 → (m.mine = true ∨ m.hrank ≠ m.own) →
        m.grant = some e ∨ (m.mine = true ∧ m.mayMove e = true) → ∃ t x y, Goes (.ssendh nb d ra rb sc) s t ∧ t.core.getH rb = 0 ∧
          t.core.s = (s.setS d 1).core.s ∧ t.home? h.sid h.hrank = some x ∧ x.free = h.free - 1 ∧ x.next = h.next + 1 ∧
          (∃ i c, x.flight = h.flight ++ [(h.next, i)] ∧ i.carried = some c ∧ c.v = y.handle e ∧ c.free = m.free ∧ c.next = m.next ∧
            c.head = m.head ∧ c.depth = m.depth) ∧
          t.home? m.sid m.hrank = some y ∧ y.loc e = .transit ∧ y.moving = some e ∧ y.grant = none ∧
          (if e then y.genR = m.genR + 1 ∧ (∃ w, y.wayR = some w ∧ w.core = s.cnum) else y.genS = m.genS + 1 ∧ y.wayS = some s.cnum)) ∧
      (h.paused = false → m.paused = false → h.free = 0 → nb = true → ∃ t, Goes (.ssendh nb d ra rb sc) s t ∧
        t.core.s = (s.setS d 0x0100000000000000).core.s ∧ t.core.h = s.core.h ∧
        (m.mine = true → ∃ y, t.home? m.sid m.hrank = some y ∧ y.grant ≠ some e ∧ y.loc e = m.loc e)) ∧
      (h.paused = false → m.paused = false → h.free = 0 → nb = false →
        Goes (.ssendh nb d ra rb sc) s (u.waiting (.stream (s.outside h true s.cnum))))) ∧
    (s.checkEnd (s.core.getH ra) (some true) = .ok (h, true, s) → h.bound = false →
      (∀ i b c, h.buf = i :: b → i.carried = some c → endRecv c.v = e → s.home? (endSid c.v) (endRank c.v) = some m → s.liveEnds + 1 ≤ 64 →
        (m.whole ∨ m.hrank ≠ m.own) →
        ∃ t x y, Goes (.srecvh nb d ra rb sc) s t ∧ SameBytes s t ∧ t.core.getH rb = c.v ∧ t.core.s = (s.setS d 1).core.s ∧
          t.home? h.sid h.hrank = some x ∧ x.buf = b ∧ x.head = h.head + 1 ∧ h.gaveBack x 1 (s.core.later 800) ∧
          t.home? m.sid m.hrank = some y ∧ y.loc e = .here s.taskCtx s.cnum ∧ (if e then y.head = c.head else y.free = c.free ∧ y.next = c.next) ∧
          (m.whole → y.moving = none) ∧
          (m.hrank ≠ m.own → ∃ z, t.dev.outbox = s.dev.outbox ++ [z] ∧ z.rank = m.hrank ∧ z.kind = .stream m.sid m.hrank (.registered e))) ∧
      (h.buf = [] → h.st = 0 →
        Goes (.srecvh nb d ra rb sc) s (if nb then s.putS d 0x0200000000000000 else s.waiting (.stream (s.outside h false s.cnum)))))

/-- What goes on between the ends by itself: items arrive in sequence order, slots come back, a move is granted, a notice is answered, a
waypoint forwards and retires, a lost end leaves the stream ORPHAN (18 R288, R296, R298, R301, R303, R304; 19 R310). A binding with k data
items at the head claims the next slice, writes it whole and completes it; the receiver reports for the census and the sender compares and
pauses on a mismatch; a repair rebuilds the free count, logs event 1 and raises vector 14 (18 R305, R306; 27 R394). -/
def Obligations.StreamEvents : Prop :=
  (∀ (s : State) (k : Nat) (h : Home) (recv : Bool), s.dev.homes[k]? = some h → s.home? h.sid h.hrank = some h →
    let changes (i : Instr) (f : Home → Prop) : Prop := ∃ t x, Goes i s t ∧ SameBytes s t ∧ t.core = s.core ∧ t.home? h.sid h.hrank = some x ∧ f x
    let left (i : Instr) (f : Home → Prop) : Prop := ∃ t, Goes i s t ∧ SameBytes s t ∧ t.core = s.core ∧
      ∀ x, t.home? h.sid h.hrank = some x → f x
    (∀ j q i c n, h.flight[j]? = some (q, i) → s.homeReached h i.due = true → h.forWaypoint q = false → h.locR = .here c n → h.early = [] →
      let rest := h.flight.take j ++ h.flight.drop (j + 1)
      (q = h.head + BitVec.ofNat 32 h.buf.length → changes (.evStreamItemArrive k j) fun x =>
        x.flight = rest ∧ x.buf = h.buf ++ [i] ∧ x.early = []) ∧
      (q ≠ h.head + BitVec.ofNat 32 h.buf.length → changes (.evStreamItemArrive k j) fun x =>
        x.flight = rest ∧ x.buf = h.buf ∧ x.early = [(q, i)])) ∧
    (∀ j q i w, h.flight[j]? = some (q, i) → s.homeReached h i.due = true → h.wayR = some w → h.forWaypoint q = true →
      changes (.evStreamItemArrive k j) fun x => x.flight = h.flight.take j ++ h.flight.drop (j + 1) ∧
        x.wayR = some { w with items := w.items ++ [(q, i)] }) ∧
    (∀ n r, h.freed = [] → h.returns = .slots n :: r → h.locS.isHere = true → changes (.evStreamSlotReturn k) fun x =>
      x.free = h.free + n ∧ x.returns = r) ∧
    (∀ n d r, h.freed = (n, d) :: r → n ≠ 0 → h.locS.isHere = true →
      (s.homeReached h d = true → changes (.evStreamSlotReturn k) fun x => x.free = h.free + n ∧ x.freed = r) ∧
      (s.homeReached h d = false → Goes (.evStreamSlotReturn k) s s)) ∧
    ((∃ a ∈ h.asks, a.1 = recv ∧ s.waypointsOn a.2 < 256) → h.grant = none → h.mayMove recv = true →
      changes (.evStreamMoveGrant k recv) fun x => x.grant = some recv ∧ x.moving = some recv) ∧
    (∀ r, h.notice = some r → h.locS.isHere = true → (h.whole ∨ h.hrank ≠ h.own) →
      changes (.evSendEndReply k) fun x => x.sstar = some h.next ∧ x.notice = none) ∧
    (∀ w x c n, h.wayR = some w → w.items.find? (fun y => y.1 == w.next) = some x → h.locR = .here c n →
      changes (.evWaypointForward k) fun y => y.flight = h.flight ++ [x] ∧
        ∃ w', y.wayR = some w' ∧ w'.next = w.next + 1 ∧ w'.items = w.items.filter fun z => z.1 != w.next) ∧
    (∀ w, h.wayR = some w → h.locR ≠ .transit → h.whole → (w.items = [] → h.sstar = some w.next →
        left (.evWaypointRetire k true) fun x => x.wayR = none ∧ x.sstar = none) ∧
      (w.items ≠ [] → Goes (.evWaypointRetire k true) s s)) ∧
    (∀ c r, h.wayS = some c → h.told = some r → h.whole → left (.evWaypointRetire k false) fun x => x.wayS = none ∧ x.told = none) ∧
    (∀ r, h.mine = true → r ≠ h.own → h.hrank = h.own → h.farR = none → h.farS = none → (∀ e x, h.loc e = .away x → e = recv) →
      h.loc recv = .away r → left (.evStreamLoss k recv) fun x => x.st = 2 ∧ x.loc recv = .gone)) ∧
  (∀ (s : State) (k : Nat) (h : Home), s.dev.homes[k]? = some h → s.home? h.sid h.hrank = some h →
    (∀ b n c, s.core.bindings.find? (fun b => b.isOf h.sid h.hrank) = some b → b.stopped = false → b.slice = none → b.sent = [] →
      b.k ≤ h.buf.length → (∀ i ∈ h.buf.take b.k, i.carried = none) → s.core.halt ≠ .stopped →
      s.core.pathOpen .st b.place.pos b.place.slot = true → (s.core.orec (hOtid b.opnd.h)).st = .opened →
      s.core.claimWrite (hOtid b.opnd.h) 1 = .ok (n, c) → c.mayWrite (hOtid b.opnd.h) n = true →
      let o := { b.opnd with ring := true, slice := n, count := hSlice b.opnd.h }
      let m := devBytes o s.cnum 0 o.count
      (∀ j < o.count, ∀ r off, o.spot s.cnum j ≠ .far r off) → s.memOk m = true →
      let w := (s.memDebit m).scatterStep .st o 0 ((h.buf.take b.k).flatMap Item.bytes)
      ∃ t x, Goes (.evSbindSliceWrite k) s t ∧ t.mem = w.mem ∧ t.spad = w.spad ∧ t.dev.homes[k]? = some x ∧
        x.buf = h.buf.drop b.k ∧ x.head = h.head + BitVec.ofNat 32 b.k ∧ (1 ≤ b.k → h.gaveBack x b.k (s.core.later 800))) ∧
    (∀ r c n, h.locS = .away r → r ≠ h.own → h.locR = .here c n → ∃ t ms, Goes (.evStreamCensus k) s t ∧ SameBytes s t ∧
      t.dev.outbox = s.dev.outbox ++ ms ∧ (∀ m ∈ ms, m.rank = r) ∧
      ms.map LinkMsg.kind = (h.returns ++ [StreamMsg.report h.buf.length (h.head + BitVec.ofNat 32 h.buf.length - 1)]).map (LinkKind.stream h.sid h.hrank)) ∧
    (∀ n q r, h.locS.isHere = true → h.calm = true → h.freed = [] → h.returns = .report n q :: r → ∃ t x, Goes (.evStreamSlotReturn k) s t ∧
      t.home? h.sid h.hrank = some x ∧ x.free = h.free ∧ (if h.free + (h.next - (q + 1)).toNat + n = h.depth then
        x.report = none ∧ x.paused = h.paused else x.paused = true ∧ x.report = some (n, q) ∧ x.back = 0)) ∧
    (∀ n q, h.paused = true → h.report = some (n, q) → h.locS.isHere = true → s.sized = true → (h.whole ∨ h.mine = false ∧ h.hrank ≠ h.own) →
      ∃ t x, Goes (.evLinkslotRepair k) s t ∧ t.core = s.core ∧
        t.home? h.sid h.hrank = some x ∧ x.free = h.depth + h.back - n - (h.next - (q + 1)).toNat ∧ x.repair = h.repair + 1 ∧ x.paused = false ∧
        (s.dev.events.length < 256 → ∃ e, t.dev.events = s.dev.events ++ [e] ∧ e.extractLsb' 56 8 = 1 ∧
          e.extractLsb' 0 32 = h.sid) ∧ (t.dev.tenant h.tenant).ipend.getLsbD 14 = true))

/-! ### Launches, scheduling, contexts (02 R22 to R32; 24 R351 to R367) -/

/-- LAUNCH_RECORD_READ takes the next covered record in, or lets a bad one leave the queue; QUEUE_ENABLE takes up the entry of the queue
table when its EN becomes 1, and ignores it while EN stays 1; CHART_ABORT rejects the launch another module aborted (24 R351, R352; 02 R28, R29, R32). The dispatcher's choices: the end of a
slice, the guard of 10 ms, the next victim, the grant and its pointer (24 R353 to R356). -/
def Obligations.LaunchesChosen : Prop :=
  (∀ (s : State) (q : BitVec 9), s.sized = true →
    let x := s.dev.queue q
    let l := s.readLaunch x.tenant (x.base + 256 * (x.taken.toNat % 2 ^ x.log2n))
    let e := s.readPhys none (s.dev.qtab.toNat + 32 * q.toNat) 32
    (s.dev.served q = true → x.covered = true → x.cache = [] →
      (l.raw ≠ [] → l.reject = none → ∃ t, Goes (.evLaunchRecordRead q) s t ∧ SameBytes s t ∧ t.core = s.core ∧
        t.dev.queue q = { x with cache := [(l, none)], taken := x.taken + 1 }) ∧
      (l.raw = [] ∨ l.reject.isSome = true → ∃ t, Goes (.evLaunchRecordRead q) s t ∧ t.core = s.core ∧
        t.dev.queue q = { x with cache := [], taken := x.taken + 1, head := x.head + 1, prev := none })) ∧
    ((s.dev.served q && x.covered) = false → Goes (.evLaunchRecordRead q) s s) ∧
    (x.en = false → queueEntryOk e = true → leAt e 13 1 = 1 → ∃ t, Goes (.evQueueEnable q) s t ∧ SameBytes s t ∧ t.core = s.core ∧
      let y := t.dev.queue q
      y.en = true ∧ y.base = leAt e 0 8 ∧ y.log2n = leAt e 8 1 ∧ y.cls = leAt e 9 1 ∧ y.weight = leAt e 10 2 ∧
        y.tenant.toNat = leAt e 12 1 ∧ y.head.toNat = leAt e 16 4 ∧ y.tail = x.tail) ∧
    (x.en = true → leAt e 13 1 % 2 = 0 → Goes (.evQueueEnable q) s (s.mapQueue q fun y => { y with en := false })) ∧
    (x.en = true ∧ leAt e 13 1 % 2 = 1 ∨ x.en = false ∧ (leAt e 13 1 % 2 = 0 ∨ queueEntryOk e = false) → Goes (.evQueueEnable q) s s) ∧
    (∀ c u, s.dev.ctxs.find? (fun c => c.queue == q && c.held.contains 0 && (s.takeLaunch c.tenant c.launch.raw .abort).isSome) = some c →
      s.takeLaunch c.tenant c.launch.raw .abort = some u → Goes (.evChartAbort q) s (u.endCtx c 1 0x07 none)) ∧
    (∀ r, s.dev.ctxs.find? (fun c => c.queue == q && c.held.contains 0 && (s.takeLaunch c.tenant c.launch.raw .abort).isSome) = none →
      x.cache = [(r, none)] → (s.takeLaunch x.tenant r.raw .abort).isSome = true →
      ∃ t, Goes (.evChartAbort q) s t ∧ t.core = s.core ∧ (t.dev.queue q).cache = [] ∧ (t.dev.queue q).head = x.head + 1)) ∧
  (∀ (s : State) (q : BitVec 9) (ctx : W16) (x : Ctx), s.sized = true →
    (s.isRunning q = true → ∃ t, Goes (.evSliceExpiry q) s t ∧ t.core = s.core ∧ (t.dev.queue q).guarded = false ∧
      ((t.dev.queue q).sliceEnd = true ↔ ∃ r, r ≠ q ∧ s.isWaiting r = true ∧ s.classOf r ≤ s.classOf q)) ∧
    (s.isRunning q = false → Goes (.evSliceExpiry q) s s) ∧
    (s.isWaiting q = true → s.isRunning q = false → ∃ t, Goes (.evWaitGuardExpiry q) s t ∧ t.core = s.core ∧ t.classOf q = 0) ∧
    (s.dev.ctx? ctx = some x →
      (s.isWaiting q = true → s.eligible q x = true → (∀ y ∈ s.dev.ctxs, s.eligible q y = true → s.victimBefore y x = false) →
        s.needFits q (s.freeWith []) = false → s.needFits q (s.freeWith (s.dev.ctxs.filter fun y => s.eligible q y)) = true →
        Goes (.evQueuePreempt q ctx) s (s.stopCtx ctx .preempt)) ∧
      (s.eligible q x = false ∨ s.isWaiting q = false → Goes (.evQueuePreempt q ctx) s s)) ∧
    (s.needFits q s.freeCores = true → s.dev.granted = none → s.classOf q < 4 →
      (∀ r, s.needFits r s.freeCores = true → s.classOf q < s.classOf r ∨ (s.classOf r = s.classOf q ∧ s.grantOrder q ≤ s.grantOrder r)) →
      ∃ t, Goes (.evQueueGrant q) s t ∧ t.core = s.core ∧ t.dev.granted = some q ∧ t.dev.grant.getD (s.classOf q) 0 = q) ∧
    (s.needFits q s.freeCores = false → Goes (.evQueueGrant q) s s))

/-- GANG_ADMIT places every task of the granted gang on its core with its index, its arguments and its entry; TASK_END takes a finished
task off its core: drawers, rules and records are released, what its registers and its scratchpad hold stays until an incoming context clears it
(02 R23 to R27; 13 R220; 24 R352, R359, R366). -/
def Obligations.GangsStartAndEnd : Prop :=
  ∀ (s : State) (q : BitVec 9) (slot : BitVec 6) (cores : List Nat), s.sized = true →
    let starts (t : State) (x : Ctx) (gs : List Nat) : Prop := ∀ j n g : Nat, cores[j]? = some n → gs[j]? = some g →
      let c := t.coreAt n
      (∃ k, c.task = some k ∧ k.ctx = x.id ∧ k.g = g ∧ k.tenant = x.tenant) ∧ c.seqs.ctl.pc = x.launch.num 0x14 4 * 64 ∧
        (∀ i < 8, c.s.getD (1 + i) 0 = BitVec.ofNat 64 (x.launch.num (0x80 + 8 * i) 8)) ∧ c.f = List.replicate 64 0 ∧
        c.modex = x.launch.mode 2
    let free := cores.all fun c => s.freeCores.contains c
    (∀ x, s.dev.granted = some q → s.needFits q s.freeCores = true → s.need q = .more x → free = true →
      x.launch.placeOk (x.launch.gangTasks x.rank x.gangs) cores = true →
      ∃ t, Goes (.evGangAdmit q slot cores) s t ∧ t.dev.granted = none ∧ starts t x (x.launch.gangTasks x.rank x.gangs)) ∧
    (∀ l, s.dev.granted = some q → s.needFits q s.freeCores = true → s.need q = .first l → free = true → l.chrt = false →
      s.dev.freeSlots.contains slot.toNat = true → l.placeOk (l.gangTasks 0 0) cores = true →
      (0x10000 + l.tmax 0 * 0x900000 ≤ (s.slotEntry slot).2.1 → ∃ t x, Goes (.evGangAdmit q slot cores) s t ∧ x ∈ t.dev.ctxs ∧
        x.launch = l ∧ x.slot = some slot ∧ x.st = .resident ∧ x.queue = q ∧ x.gangs = 1 ∧ starts t x (l.gangTasks 0 0)) ∧
      ((s.slotEntry slot).2.1 < 0x10000 + l.tmax 0 * 0x900000 → (s.dev.queue q).cache = [(l, none)] → ∃ t, Goes (.evGangAdmit q slot cores) s t ∧ t.core = s.core ∧
        t.dev.granted = none ∧ (t.dev.queue q).head = (s.dev.queue q).head + 1)) ∧
    (∀ k x, s.core.task = some k → s.ctx? = some x → (∀ e, (s.core.seqs.get e).ended = true) → s.core.quiet = true →
      s.core.aside.any Aside.busy = false → s.core.pend = [] → s.core.escal = none → s.core.halt ≠ .stopped → ∃ t, Goes .evTaskEnd s t ∧
        t.core = s.core.vacate ∧ t.core.task = none ∧ t.core.s = s.core.s ∧ t.core.a = s.core.a ∧ t.core.h = s.core.h ∧
        t.core.f = s.core.f ∧ t.core.banks = s.core.banks ∧ t.core.carries = s.core.carries ∧ t.core.drawers = s.core.drawers ∧
        t.core.tags = s.core.tags ∧ t.core.claimed = 0 ∧ t.core.ruleList = [] ∧ (∀ k < 32, (t.core.orec k).st = .free) ∧ t.spad = s.spad) ∧
    ((∃ e, (s.core.seqs.get e).ended = false) ∨ s.core.quiet = false → Goes .evTaskEnd s s)

/-- A context stops: its tasks are told at once but for one in its handler, which is told after 4 us; each comes to rest with its
registers; a kill or an escalation of another module, or of this one's trap, stops it so (24 R357, R367; 25 R376, R377; 02 R28). -/
def Obligations.ContextsStop : Prop :=
  ∀ (s : State) (ctx : W16) (x : Ctx) (cause : Byte), s.single → s.dev.ctx? ctx = some x →
    let ofIt (n : Nat) : Prop := ∃ k, (s.coreAt n).task = some k ∧ k.ctx = ctx
    (∀ why, x.st = .resident →
      let t := s.stopCtx ctx why
      (∃ y, t.dev.ctx? ctx = some y ∧ y.st = .stopping ∧ y.stop.isSome = true) ∧ t.mem = s.mem ∧ t.spad = s.spad ∧
        ∀ n, ofIt n → (s.coreAt n).halt = .run →
          (t.coreAt n).halt = (if (s.coreAt n).aside.isNone then .stopping else .run) ∧ (t.coreAt n).seqs = (s.coreAt n).seqs) ∧
    (x.st = .stopping → x.stop = some .preempt → ∃ t, Goes (.evPreemptRequest ctx) s t ∧ SameBytes s t ∧
      ∀ n, ofIt n → (s.coreAt n).halt = .stopping →
        ((s.coreAt n).atRest = true → (s.coreAt n).allFlights.any Flight.midStep = false → (t.coreAt n).halt = .stopped ∧ (t.coreAt n).s = (s.coreAt n).s ∧ (t.coreAt n).f = (s.coreAt n).f) ∧
        ((s.coreAt n).atRest = false → t.coreAt n = s.coreAt n)) ∧
    (s.ctx? = some x → x.st = .stopping → s.core.aside.isSome = true → s.core.halt = .run →
      Goes .evHandlerPreemptTimeout s (s.mapCore fun c => { c with halt := .stopping })) ∧
    (∀ u, s.takeLaunch x.tenant x.launch.raw .kill = some u → Goes (.evLaunchKillAbort ctx) s (u.stopCtx ctx .kill)) ∧
    (∀ u, s.takeLaunch x.tenant x.launch.raw (.escalate cause) = some u →
      Goes (.evEscalationStop ctx cause) s (u.stopCtx ctx (.escalate cause false))) ∧
    (∀ hnd, (s.ctxCores ctx).findSome? (fun c => c.2.escal) = some (cause, hnd) → (∀ w, x.stop = some w → w = .preempt) →
      let u := s.stopCtx ctx (.escalate cause hnd)
      Goes (.evEscalate ctx) s (if x.launch.chrt then u.tellLaunch x.tenant x.launch (some x.rank) (.escalate cause) else u))

/-- CONTEXT_SAVE writes the save area, its header as SAVED, and frees the cores; CONTEXT_RESTORE puts the tasks back with the registers of
their records, a gang still held by other modules as held (02 R32), or kills the context where the header is not one (24 R358, R360 to R363). -/
def Obligations.ContextsSavedAndRestored : Prop :=
  ∀ (s : State) (ctx : W16) (x : Ctx) (slot : BitVec 6) (cores : List Nat), s.single → s.dev.ctx? ctx = some x → x.slot = some slot →
    let e := s.slotEntry slot
    let key := s.dev.key e.2.2
    (x.st = .stopping → x.stop = some .preempt → (∀ c ∈ s.ctxCores ctx, c.2.halt = .stopped ∧ c.2.escal = none) →
      ∃ t, Goes (.evContextSave ctx) s t ∧ leNat (t.readPhys key e.1 4) = 0x53414B43 ∧ leNat (t.readPhys key (e.1 + 4) 2) = 1 ∧
        leNat (t.readPhys key (e.1 + 6) 2) = 2 ∧ (∃ y, t.dev.ctx? ctx = some y ∧ y.st = .saved ∧ y.stop = none ∧
          y.saved.length = (s.ctxCores ctx).length) ∧
        ∀ c ∈ s.ctxCores ctx, t.coreAt c.1 = c.2.vacate) ∧
    (x.st = .saved → s.dev.granted = some x.queue → (cores.all fun c => s.freeCores.contains c) = true → x.backOk cores = true →
      let head := s.readPhys key e.1 0x200
      (leAt head 0 4 = 0x53414B43 → leAt head 4 2 = 1 → ∃ t, Goes (.evContextRestore ctx slot cores) s t ∧ t.dev.granted = none ∧
        (∃ y, t.dev.ctx? ctx = some y ∧ y.st = .resident ∧ y.saved = []) ∧
        ∀ (j n : Nat) (v : Saved), x.saved[j]? = some v → cores[j]? = some n → (t.coreAt n).task = v.snap.task ∧
          (t.coreAt n).halt = (if x.held.contains (x.launch.gangOf v.g) then .stopped else .run) ∧ ∀ k < 32, (t.coreAt n).s.getD k 0 =
            BitVec.ofNat 64 (leNat (s.readPhys key (e.1 + 0x10000 + j * 0x900000 + 0x3000 + 8 * k) 8))) ∧
      (leAt head 0 4 ≠ 0x53414B43 ∨ leAt head 4 2 ≠ 1 →
        Goes (.evContextRestore ctx slot cores) s ((s.mapDev fun d => { d with granted := none }).endCtx x 3 0 none)))

/-! ### Asynchronous traps, periods, heat and reset (25 R372, R378; 23 R341, R346, R349; 27 R397, R398; 01 R16) -/

/-- TRAP_ENTRY takes the pending trap of the lowest engine tag, a follow-on's after its CPYF has retired (09 R181); DEADLOCK traps at CTL's word only when every sequencer is blocked and
nothing is in flight; DROOP traps under fixed timing with CTL's next word and CYCLE (25 R369, R372, R378; 02 R34; 23 R341). The ends of energy periods and
budget periods, and the thermal steps: the grant halves, every context is held, the module resets (23 R346 to R349; 27 R391, R397). -/
def Obligations.OwnEvents : Prop :=
  (∀ (s : State) (k : Task), s.core.task = some k → s.core.halt = .run →
    let q := s.core.seqs.ctl
    let record (t : State) (n : Nat) : W64 := t.core.traprec.getD n 0
    ((∀ x ∈ s.core.pend, s.core.followHeld x = true) → Goes .evTrapEntry s s) ∧
    ((∃ x ∈ s.core.pend, s.core.followHeld x = false) → s.core.aside = none → ∃ t p a b, s.core.pend = a ++ p :: b ∧
      s.core.followHeld p = false ∧ (∀ x ∈ s.core.pend, s.core.followHeld x = false → engNo p.info.eng ≤ engNo x.info.eng) ∧
      Goes .evTrapEntry s t ∧ t.core.lastc = p.info.cause ∧ t.core.pend = a ++ b ∧ (record t 0).extractLsb' 8 3 = p.info.eng.code ∧
      SameBytes s t) ∧
    (engs.all s.seqBlocked = true → s.somethingInFlight = false → (∃ e, (s.core.seqs.get e).ended = false) →
      ∃ t, Goes .evDeadlock s t ∧ t.core.lastc = 0x10 ∧ (record t 0).extractLsb' 8 3 = 0 ∧ (record t 0).getLsbD 15 = false ∧
        record t 1 = BitVec.ofNat 64 (q.pc % 2 ^ 30) ∧ SameBytes s t ∧
        ∀ e, ((record t 5).getLsbD (engNo e) = !(s.core.seqs.get e).ended) ∧ (record t 5).getLsbD (8 + engNo e) = (s.core.seqs.get e).ended) ∧
    (engs.all s.seqBlocked = false ∨ s.somethingInFlight = true → Goes .evDeadlock s s) ∧
    ((s.core.fixt || s.core.exch) = true → ∃ t, Goes .evDroop s t ∧ t.core.lastc = 0x13 ∧ record t 5 = s.core.cycle ∧
      record t 1 = BitVec.ofNat 64 ((s.ctlNext (2 ^ 64) q).pc % 2 ^ 30) ∧ SameBytes s t) ∧
    ((s.core.fixt || s.core.exch) = false → Goes .evDroop s s)) ∧
  (∀ (s : State), s.sized = true →
    let event (t : State) (n : Nat) : Prop := ∃ e, t.dev.events = s.dev.events ++ [e] ∧ e = BitVec.ofNat 64 (5 * 2 ^ 56 + n)
    (∀ k x, s.core.task = some k → s.ctx? = some x → s.core.det = true →
      (11500 ≤ s.core.eperiod → Goes .evEnergyRefill s (s.mapCore fun c =>
        { c with ebudget := BitVec.ofNat 32 (x.detShare k.g), eperiod := c.eperiod - 11500 })) ∧
      (s.core.eperiod < 11500 → Goes .evEnergyRefill s s)) ∧
    (s.core.det = false → ∃ t, Goes .evEnergyRefill s t ∧ t.core = s.core ∧ SameBytes s t ∧ ∀ (j : Nat) (x : Ctx), s.dev.ctxs[j]? = some x →
      t.dev.ctxs[j]? = some (if (x.st = .resident ∨ x.st = .stopping) ∧ x.launch.mode 0 = false then
        { x with epool := BitVec.ofNat 32 (s.dev.granting x) } else x)) ∧
    (∃ t, Goes .evTenantBudgetRefill s t ∧ t.core = s.core ∧ SameBytes s t ∧ ∀ n, let x := s.dev.tenant n
      let y := t.dev.tenant n
      y.eleft = (if x.ebud = 0 then none else some x.ebud.toNat) ∧
        y.mleft = (if x.mbud = 0 then none else some (max x.mbud.toNat 65536)) ∧
        y.lleft = (if x.lbud = 0 then none else some (max x.lbud.toNat 65536))) ∧
    (s.dev.events.length < 256 →
      (∃ t, Goes .evThermalStep1 s t ∧ t.core = s.core ∧ t.dev.moduleGrant = 131072 ∧ event t 1) ∧
      (∃ t, Goes .evThermalStep2 s t ∧ t.core = s.core ∧ event t 2 ∧ ∀ e, t.seqTurn e = .next t)) ∧
    (∃ t, Goes .evThermalStep3 s t ∧ t.core = Core.reset ∧ t.others = [] ∧ t.mem = [] ∧ t.spad = [] ∧ t.dev.ctxs = [] ∧
      t.dev.bootst = 0 ∧ t.dev.modid = s.dev.modid ∧ t.dev.events = [BitVec.ofNat 64 (5 * 2 ^ 56 + 3)]) ∧
    (∃ t, Goes .evThermalStepEnd s t ∧ t.core = s.core ∧ t.heldHot = false ∧ (s.heldHot = true →
      t.dev.moduleGrant = s.dev.moduleGrant) ∧ (s.heldHot = false → t.dev.moduleGrant = 262144)) ∧
    (∀ b, ∃ t, Goes (.evModuleReset b) s t ∧ t.core = Core.reset ∧ t.others = [] ∧ t.mem = [] ∧ t.spad = [] ∧ t.dev.homes = [] ∧
      t.dev.keys = [] ∧ t.dev.tenants = List.replicate 32 Tenant.reset ∧ t.dev.bootst = b ∧ t.dev.modid = s.dev.modid ∧
      (b = 0 → t.dev.events = []) ∧ (b ≠ 0 → (∃ e, t.dev.events = [e] ∧ e.extractLsb' 56 8 = 4) ∧
        ∀ n e, t.takeTurn (.seq n e) = .next t)))

/-! ### The host and the links (25 R380, R384; 27 R389 to R399) -/

/-- HOST_MEM_ACCESS by HYP at a physical range reads and writes its bytes; a tenant's refused read returns zeros and is logged. Another
module's access is performed in order of arrival and answered, or refused; a reply reaches the port that asked; a bad flit changes nothing
(27 R389, R393 to R395; 25 R380). -/
def Obligations.MemoryFromOutside : Prop :=
  ∀ (s : State) (a : W64) (bs : List Byte) (n : Nat) (rel : Bool) (tn : BitVec 5) (m : LinkMsg) (ms : List LinkMsg) (off : Nat)
    (ch : List (Party × Scope)) (rels : List Scope),
    let inside (k : Nat) : Prop := isGddr (a.toNat + max k 1 - 1) = true ∨ (isLpddr a.toNat = true ∧ isLpddr (a.toNat + max k 1 - 1) = true)
    let answered (t : State) (k : LinkKind) : Prop := t.dev.inbox = ms ∧ t.dev.outbox = s.dev.outbox ++ [{ m with kind := k }]
    (inside n → (∀ j < n, s.badMem (a.toNat + j) 1 = false) → s.badMem a.toNat n = false →
      ∃ t, Goes (.evHostMemAccess .hyp a none n rel) s t ∧ SameBytes s t ∧ t.core = s.core ∧
        t.dev.hostRead = (List.range n).map fun j => s.physByte none (a.toNat + j)) ∧
    (inside bs.length → ∃ t, Goes (.evHostMemAccess .hyp a (some bs) n rel) s t ∧ t.core = s.core ∧ t.spad = s.spad ∧
      (∀ j < bs.length, t.physByte none (a.toNat + j) = bs.getD j 0) ∧
      ∀ b, b < a.toNat ∨ a.toNat + bs.length ≤ b → t.physByte none b = s.physByte none b) ∧
    (s.virtPieces tn none a.toNat n .rd = none → Goes (.evHostMemAccess (.tenant tn) a none n rel) s
      (s.mapDev fun d => { d.refuse (.tenant tn) a.toNat with hostRead := List.replicate n 0 })) ∧
    (s.virtPieces tn none a.toNat bs.length .wr = none → ∃ t, Goes (.evHostMemAccess (.tenant tn) a (some bs) n rel) s t ∧ SameBytes s t) ∧
    Goes (.evLinkFlitReceive none) s s ∧
    (m.kind = .data bs ch → m.core = s.cnum → s.cnum < 128 → m.text = false → s.core.asideAsks m.port = false →
      s.core.replies.get m.port = .asked → ∃ t, Goes (.evLinkFlitReceive (some m)) s t ∧ SameBytes s t ∧
        t.core.replies.get m.port = .data bs (s.crossed m ch) ∧
        ∀ e, e ≠ m.port → t.core.replies.get e = s.core.replies.get e) ∧
    (∀ ps, m.kind = .read ps ∨ (∃ xs, m.kind = .write xs rels ∧ ps = []) → ∃ t, Goes (.evLinkFlitReceive (some m)) s t ∧
      t.dev.inbox = s.dev.inbox ++ [m] ∧ t.core = s.core ∧ SameBytes s t) ∧
    (s.dev.inbox = [] → Goes .evRemoteWindowAccess s s) ∧
    (s.dev.inbox = m :: ms →
      (∀ pa key, m.kind = .read [(off, n)] → s.arriving m off n (if m.text then .fetch else .rd) = some (pa, key) →
        ∃ t, Goes .evRemoteWindowAccess s t ∧ SameBytes s t ∧ answered t (.data (s.readPhys key pa n) (s.marksOf pa n))) ∧
      (∀ pa key, m.kind = .write [(off, bs)] rels → s.arriving m off bs.length .wr = some (pa, key) →
        ∃ t, Goes .evRemoteWindowAccess s t ∧ (m.core < 128 → answered t (.data [] [])) ∧
          (128 ≤ m.core → t.dev.inbox = ms ∧ t.dev.outbox = s.dev.outbox) ∧ t.spad = s.spad ∧
          (∀ j < bs.length, t.physByte key (pa + j) = bs.getD j 0) ∧
          ∀ b, b < pa ∨ pa + bs.length ≤ b → t.physByte key b = s.physByte key b) ∧
      (m.kind = .read [(off, n)] → s.arriving m off n (if m.text then .fetch else .rd) = none →
        ∃ t, Goes .evRemoteWindowAccess s t ∧ SameBytes s t ∧ answered t .refused))

/-- The host's writes of the control block within a requester's reach: TAIL, a mailbox, IPEND, the tables, a tenant's root and budgets,
the route table; beyond it nothing changes but the log; a read of EVENT takes the oldest entry (27 R389 to R394; 24 R364, R365). The
command registers: a context pre-empted or killed, a range invalidated with the root taken up, a key loaded and cleared, an OP without
effect; a command under way refuses another (27 R392; 24 R357, R367; 25 R384). An attestation report is written at its buffer with the
nonce that stood there (27 R398, R399). -/
def Obligations.HostWrites : Prop :=
  (∀ (s : State) (r : Requester) (q : BitVec 9) (tn : BitVec 5) (n : BitVec 4) (v : W64) (bits : W16) (rel : Bool), s.sized = true →
    let own : Prop := r = .hyp ∨ r = .tenant tn
    let x := s.dev.tenant tn
    let block (o : Nat) (v : W64) (f : Tenant → Prop) : Prop :=
      ∃ t, Goes (.evHostRegWrite .hyp (BitVec.ofNat 64 (0x1000 + 0x40 * tn.toNat + o)) v) s t ∧ t.core = s.core ∧ SameBytes s t ∧
        f (t.dev.tenant tn) ∧ ∀ u, u ≠ tn → t.dev.tenant u = s.dev.tenant u
    let refused (i : Instr) (off : Nat) : Prop := Goes i s (s.mapDev fun d => d.refuse r off)
    (r = .hyp ∨ r = .tenant (s.dev.queue q).tenant →
      Goes (.evTailWrite r q v) s (s.mapQueue q fun y => { y with tail := v.setWidth 32 })) ∧
    (∀ u, r = .tenant u → (s.dev.queue q).tenant ≠ u → refused (.evTailWrite r q v) (0x20000 + 8 * q.toNat)) ∧
    (own → (∃ t, Goes (.evMailboxWrite r tn n v rel) s t ∧ t.core = s.core ∧ SameBytes s t ∧
        t.dev.tenant tn = { x with mbx := x.mbx.set n.toNat v }) ∧
      ∃ t, Goes (.evIpendClear r tn bits) s t ∧ t.core = s.core ∧ SameBytes s t ∧ t.dev.tenant tn = { x with ipend := x.ipend &&& ~~~bits }) ∧
    (¬own → refused (.evMailboxWrite r tn n v rel) (0x10000 + 0x100 * tn.toNat + 8 * n.toNat) ∧
      refused (.evIpendClear r tn bits) (0x10080 + 0x100 * tn.toNat)) ∧
    block 0 v (fun y => y.en = v.getLsbD 0 ∧ y.troot = v.extractLsb' 12 37) ∧ block 8 v (fun y => y.ebud = v.setWidth 32) ∧
    block 16 v (fun y => y.mbud = v) ∧ block 24 v (fun y => y.lbud = v) ∧
    block 32 v (fun y => y.dshare = if v.toNat % 2048 ≤ 1024 then v.setWidth 11 else x.dshare) ∧
    Goes (.evHostRegWrite .hyp 8 v) s (s.mapDev fun d => { d with qtab := v &&& ~~~0xFFF }) ∧
    Goes (.evHostRegWrite .hyp 16 v) s (s.mapDev fun d => { d with stab := v &&& ~~~0xFFF }) ∧
    Goes (.evHostRegWrite .hyp 0 v) s s ∧
    (∀ off : W64, r = .tenant tn → off.toNat < 0x10000 → refused (.evHostRegWrite r off v) off.toNat ∧
      ∃ t, Goes (.evEventRead r off) s t ∧ t.dev.hostRead = List.replicate 8 0 ∧ t.dev.tenants = s.dev.tenants) ∧
    (∃ t, Goes (.evEventRead .hyp 0) s t ∧ t.dev = { s.dev with hostRead := leBytes 8 s.dev.modid.toNat } ∧ t.core = s.core) ∧
    (∀ e l, s.dev.events = e :: l → ∃ t, Goes (.evEventRead .hyp 0x80) s t ∧ t.dev.hostRead = leBytes 8 e.toNat ∧ t.core = s.core ∧
      t.dev.dropped = 0 ∧ (s.dev.dropped = 0 → t.dev.events = l) ∧
      (s.dev.dropped ≠ 0 → t.dev.events = l ++ [BitVec.ofNat 64 (0xFF * 2 ^ 56 + min s.dev.dropped (2 ^ 32 - 1))]))) ∧
  (∀ (s : State) (ctx : W16) (x : Ctx) (tn : BitVec 5) (base a : W64) (pages : W32) (k : BitVec 10), s.sized = true →
    let free (v : W64) : Prop := v.getLsbD 63 = false
    let go (op : W64) : W64 := 0x8000000000000000 ||| op
    let refused (i : Instr) (off : Nat) : Prop := Goes i s (s.mapDev fun d => d.refuse .hyp off)
    (free s.dev.ctxcmd → s.dev.ctx? ctx = some x →
      (x.st = .resident → Goes (.evCtxcmdPreempt ctx) s
        ((s.mapDev fun d => { d with ctxcmd := go 0x10000 ||| ctx.setWidth 64 }).stopCtx ctx .preempt)) ∧
      (x.st = .saved → ∃ t, Goes (.evCtxcmdPreempt ctx) s t ∧ t.core = s.core ∧ t.dev.ctxs = s.dev.ctxs ∧ free t.dev.ctxcmd) ∧
      (x.launch.chrt = false → Goes (.evCtxcmdKill ctx) s
        ((s.mapDev fun d => { d with ctxcmd := go 0x20000 ||| ctx.setWidth 64 }).stopCtx ctx .kill))) ∧
    (¬free s.dev.ctxcmd → refused (.evCtxcmdPreempt ctx) 0x18 ∧ refused (.evCtxcmdKill ctx) 0x18) ∧
    (free s.dev.inval1 → base.toNat % 65536 = 0 → s.invalHeld tn base.toNat pages.toNat = false →
      ∃ t, Goes (.evInvalidate tn base pages) s t ∧ t.core = s.core ∧ SameBytes s t ∧ free t.dev.inval1 ∧
        (t.dev.tenant tn).root = (s.dev.tenant tn).troot) ∧
    (free s.dev.inval1 → base.toNat % 65536 = 0 → s.invalHeld tn base.toNat pages.toNat = true →
      ∃ t, Goes (.evInvalidate tn base pages) s t ∧ ¬free t.dev.inval1 ∧ t.dev.tenants = s.dev.tenants) ∧
    (free s.dev.keycmd →
      (∃ t, Goes (.evKeyLoad k) s t ∧ t.core = s.core ∧ SameBytes s t ∧ t.dev.key k.toNat = some s.dev.keydata ∧ free t.dev.keycmd ∧
        ∀ j, j ≠ k.toNat → t.dev.key j = s.dev.key j) ∧
      ((∀ c ∈ s.tasked, ∀ p ∈ c.2.pinnedPages, p.key = none ∨ p.key ≠ s.dev.key k.toNat) →
        ∃ t, Goes (.evKeyClear k) s t ∧ t.core = s.core ∧ SameBytes s t ∧ t.dev.key k.toNat = none ∧ free t.dev.keycmd ∧
          ∀ j, j ≠ k.toNat → t.dev.key j = s.dev.key j) ∧
      ∀ op, op = 0 ∨ op = 3 → ∃ t, Goes (.evKeycmdNop op) s t ∧ t.core = s.core ∧ t.dev.keys = s.dev.keys ∧ free t.dev.keycmd) ∧
    (isGddr (a.toNat + 511) = true → (∀ j < 512, s.badMem (a.toNat + j) 1 = false) →
      ∃ t, Goes (.evAttestRequest .hyp tn a) s t ∧ t.core = s.core ∧ t.dev.attaddr = 0 ∧
        leNat (t.readPhys none a.toNat 4) = 0x54414B43 ∧ leNat (t.readPhys none (a.toNat + 8) 8) = s.dev.modid.toNat ∧
        t.readPhys none (a.toNat + 16) 64 = s.readPhys none (a.toNat + 16) 64))

/-! ### The whole machine -/

/-- Every instruction answers a next state, traps and waits included; a step stops only where a turn names a core the module does not have
(01 R9; the turns are the model's, log 2). -/
def Obligations.NoInstructionStops : Prop :=
  (∀ (i : Instr) (s : State), ∃ t, exec i s = .next t) ∧
  ∀ s : State, (turnCore s.nextTurn < 128 → ∃ t, step s = .next t) ∧ (128 ≤ turnCore s.nextTurn → step s = .fault .noSuchCore)

/-- A sequencer's turn runs the instruction its word decodes to: the own, well-formed word at the PC of a sequencer that may act, is due
and is not held back is `exec` of that instruction in the state with that word as the running one; a malformed own word raises ILLOP, but
for a MUL word away from CTL; an event's turn is `exec` of the event, but for a DEADLOCK while a sequencer could go on (03 R35, R50, R51;
the turns are the model's, log 2). Before its turn in a cycle comes a word changes nothing: others may still post to its flag or take it (04
R87), a follow-on or a rule's instance goes first (09 R181; 16 R277), or a checked access of a lower tag starts (07 R144; log 87). -/
def Obligations.StepRunsDecoded : Prop :=
  ∀ (s : State) (n : Nat) (e : Eng) (i : Instr) (w : W128), n < 128 →
    (s.nextTurn = .seq n e →
      let u := s.begin (.seq n e)
      let q := u.core.seqs.get e
      let v : State := { u with who := e, cur := { word := w, pc := q.pc, pos := q.pos, slot := slotOf q.pc } }
      let own : Prop := if engTag w = 7 then e = .ctl ∨ inMask (emaskOf w) e = true
        else engTag w = engNo e ∧ isInst q.before = false ∧ (e = .mat → isCpyf q.before = false)
      let early (o : Out) : Prop := (engTag w = engNo e ∧ (e = .vec ∨ e = .mat ∨ e = .cld ∨ e = .cst) ∧ u.lentFirst e = true) ∨
        u.startsLater e o = true
      u.dev.bootst = 0 → u.mayAct e = true → q.entered = true → q.closing = false → q.detached = false → q.word? = some w →
        own → u.heldBack e = false → q.due ≤ u.core.clockOf e →
      (decode w = .ok i → (¬early (exec i v) → u.flagWaits e i = false → step s = exec i v) ∧
        (early (exec i v) ∨ u.flagWaits e i = true → step s = .next u)) ∧
      (∀ x, decode w = .error x →
        let o : Out := if engTag w = 7 ∧ e ≠ .ctl then .next (v.waiting .external) else .next (v.trap fIllop)
        (¬early o → step s = o) ∧ (early o → step s = .next u))) ∧
    (s.nextTurn = .event n i → i.isEvent = true →
      let u := s.begin (.event n i)
      let early : Prop := (i = .evPhaseDrain ∧ u.lentFirst .fab = true) ∨
        (∃ g, i = .evAwaitSuccess g ∧ (u.standAt g).any (fun x => u.flagWaits g x.1) = true) ∨ u.startsLater (u.startEng i) (exec i u) = true
      u.dev.bootst = 0 → u.heldHot = false →
        (i = .evDeadlock ∧ engs.any u.couldGoOn = true → step s = .next u) ∧
        (¬(i = .evDeadlock ∧ engs.any u.couldGoOn = true) → (¬early → step s = exec i u) ∧ (early → step s = .next u)))

/-- Decode and encode agree: the word of every well-formed instruction, with every operand at every value, decodes to it, and a word that
decodes is the word of what it decodes to (03 R35 to R50; no word of an event, log 2). -/
def Obligations.EncodeDecodeRoundTrip : Prop :=
  (∀ (i : Instr) (w : W128), encode i = some w → decode w = .ok i) ∧ (∀ (i : Instr) (w : W128), decode w = .ok i → encode i = some w) ∧
  ∀ i : Instr, i.isEvent = false → i.wf = true → ∃ w, encode i = some w

/-- Device memory and scratchpad (01 R10; 20 R315) keep the canonical form of the model (log 3) in every step: equal contents are equal
data. -/
def Obligations.StepKeepsMemoryCanonical : Prop :=
  ∀ s t : State, s.canonical → step s = .next t → t.canonical

/-- Every file keeps its size in every step and every core is held once: 32 scalar and 16 address registers, 16 handles, 64 flags, 8
queues, 32 rules and records, 6 loop indices a sequencer, 32 tenants, 512 queues (05 R89, R96; 04 R84; 07 R138, R143; 16 R266, R273; 24
R351; 27 R390). -/
def Obligations.StepKeepsFiles : Prop :=
  ∀ s t : State, s.sized = true → s.single → step s = .next t → t.sized = true ∧ t.single

/-- What module reset leaves: memory in canonical form, every file of its size, scratchpad, registers, handles, flags, banks, carries and
drawers zero, SLIPWIN 64, RBASE 0 and ROTSZ 16, queues empty, records FREE, no rule, no key, no stream (02 R25, 24 R366; log 14 for the
rest). -/
def Obligations.ResetHolds : Prop :=
  let s := State.reset
  let c := s.core
  s.canonical ∧ s.sized = true ∧ s.single ∧ s.agendaOk = true ∧ (∀ n, s.coreAt n = Core.reset) ∧ (∀ a, readByte s.spad a = 0) ∧
    (∀ r, s.getS r = 0) ∧ (∀ r, s.getA r = 0) ∧ (∀ h, c.getH h = 0) ∧ (∀ f, c.flag f = 0) ∧ c.slipwin = 64 ∧ c.claimed = 0 ∧
    (∀ e, (c.seqs.get e).rbase = 0 ∧ (c.seqs.get e).rotsz = 16 ∧ ∀ l < 6, (c.seqs.get e).lidx.getD l 1 = 0) ∧ c.vcyc = 0 ∧
    (∀ b < 4, ∀ j < 4096, (c.banks.getD b []).getD j 1 = 0) ∧ (∀ b < 4, ∀ j < 32, (c.carries.getD b []).getD j (1, 1) = (0, 0)) ∧
    (∀ d < 32, ∀ j < 128, (c.drawers.getD d []).getD j 1 = 0) ∧ (∀ q, c.queue q = []) ∧ (∀ k < 32, (c.orec k).st = .free) ∧
    c.ruleList = [] ∧ (∀ l < 1024, c.tags.getD l { valid := true, key := 1 } = { valid := false, key := 0 }) ∧ c.fabric.cfg = none ∧ s.dev.homes = [] ∧ s.dev.ctxs = [] ∧
    (∀ k, s.dev.key k = none) ∧ ∀ k < 4, s.dev.grant.getD k 0 = 511

/-- Words the spec writes out decode to the lines it writes them for, one or more for each engine (03 R35, R39 to R47; the words of 05 R92
and R101, 07 R140, 08 R166, 10, 09 R175, 13 R225, 15, 04 R76). -/
def Obligations.DecodeSanityWords : Prop :=
  let tl : Tail := { await := none, post := none }
  decode 0x00002101000000000000000000000001 = .ok (.add 4 4 (.imm 1)) ∧
  decode 0x1C004800000000040000000000000000 = .ok (.srd 9 0x004) ∧
  decode 0x0C032A410001A0000000000000000001 = .ok (.atadd .w64 5 9 (.imm 1) (.rel .device)) ∧
  decode 0x20C00200F00000040000000000000000 = .ok (.ard 0 2 15 4 0) ∧
  decode 0x40C00701903000000000000000000000 = .ok (.vfma .f32 .rne (.t 3) (.pop 0) (.z 2) (.t 3) 0) ∧
  decode 0x54422820000001400000000000000004 = .ok (.vpack .mxi4 false 5 4 (.t 20) (.t 8) (.t 0) (.t 0)) ∧
  decode 0x600241000F0200000000000000010804 =
    .ok (.mma .c8 1 0 16 15 0 true false { tl with post := some { f := 2, n := 1 } }) ∧
  decode 0x80003400000000000000000184030C04 =
    .ok (.cpy .cld false 3 4 none 1 { await := some { f := 2, n := 1 }, post := some { f := 3, n := 1 } }) ∧
  decode 0xA000567B000000010000000000000000 = .ok (.cpy .cst false 5 6 (some { hc := 7, csc := .device, cinc := 1 }) 0 tl) ∧
  decode 0x9F800000000000000000000000011408 = .ok (.postTail .cld { f := 5, n := 2 }) ∧
  decode 0xC0C15001000000000000000000010804 = .ok (.fbarRec 5 1 { tl with post := some { f := 2, n := 1 } }) ∧
  decode 0xE140E050008000000000000200000000 = .ok (.loop 0x70 0 5 true 2 0) ∧
  decode 0xE1C1FE00000000000000000000000000 = .ok (.mode true)
end

