-- ==== Sys2Proof/Laws/Encoding.lean ====
section
/-!
SUPPORT. Laws of the encoding: every code is read back, a record is read back from its word, and what the decoder names for each OP.
-/
namespace Sys2Proof

@[simp] theorem isOne_bit1 (b : Bool) : isOne (bit1 b) = b := by cases b <;> rfl
@[simp] theorem ofFn_fn_mulhKind (k : MulhKind) : MulhKind.ofFn k.fn.toNat = some k := by cases k <;> rfl
@[simp] theorem ofFn_fn_sgn (k : Sgn) : Sgn.ofFn k.fn.toNat = some k := by cases k <;> rfl
@[simp] theorem ofCode_code_cond (k : Cond) : Cond.ofCode k.code.toNat = some k := by cases k <;> rfl
@[simp] theorem ofCode_fn_cond (k : Cond) : Cond.ofCode (0#2 ++ k.code).toNat = some k := by cases k <;> rfl
@[simp] theorem ofCode_code_scope (k : Scope) : Scope.ofCode k.code = some k := by cases k <;> rfl
@[simp] theorem ofFn_fn_ld (k : LdKind) : LdKind.ofFn k.fn.toNat = some k := by cases k <;> rfl
@[simp] theorem ofFn_fn_st (k : StKind) : StKind.ofFn k.fn.toNat = some k := by cases k <;> rfl
@[simp] theorem ofFn_fn_atw (k : AtW) : AtW.ofFn k.fn.toNat = some k := by cases k <;> rfl
@[simp] theorem ofFnS_fnS (k : AtW) (g : Sgn) : AtW.ofFnS (k.fnS g).toNat = some (k, g) := by cases k <;> cases g <;> rfl
@[simp] theorem ofFn_fn_hspc (k : HSpc) : HSpc.ofFn k.fn.toNat = some k := by cases k <;> rfl
@[simp] theorem ofCode_code_vsrc (k : VSrc) : VSrc.ofCode k.code = some k := by
  cases k with
  | t k => revert k; decide
  | z k => revert k; decide
  | pop k => revert k; decide
  | peek k => revert k; decide
  | immLo => rfl
  | immHi => rfl
@[simp] theorem ofCode_code_vdst (k : VDst) : VDst.ofCode k.code = some k := by
  cases k with
  | t k => revert k; decide
  | z k => revert k; decide
  | q k => revert k; decide
@[simp] theorem ofCode_code_rm (k : RMode) : RMode.ofCode k.code = k := by cases k <;> rfl
@[simp] theorem ofCode_code_fty (k : FTy) : FTy.ofCode k.code.toNat = some k := by cases k <;> rfl
@[simp] theorem ofCode_code_ity (k : ITy) : ITy.ofCode k.code.toNat = some k := by cases k <;> rfl
@[simp] theorem ofCode_code_nty (k : NTy) : NTy.ofCode k.code.toNat = some k := by cases k <;> rfl
@[simp] theorem ofCode_code_vty (k : VTy) : VTy.ofCode k.code.toNat = some k := by cases k <;> rfl
@[simp] theorem ofCode_fn_vty (k : VTy) : VTy.ofCode k.fn.toNat = some k := by cases k <;> rfl
@[simp] theorem ofFn_fn_vcond (k : VCond) : VCond.ofFn k.fn.toNat = some k := by cases k <;> rfl
@[simp] theorem ofCode_code_axis (k : Axis) : Axis.ofCode k.code = k := by cases k <;> rfl
@[simp] theorem ofFn_fn_iota (k : IotaKind) : IotaKind.ofFn k.fn.toNat = some k := by cases k <;> rfl
@[simp] theorem packOfFn_packFn (f : BlkFmt) (s : Bool) : packOfFn (packFn f s).toNat = some (f, s) := by
  cases f <;> cases s <;> rfl
@[simp] theorem ofFn_fn_cost (k : Cost) : Cost.ofFn k.fn.toNat = some k := by cases k <;> rfl
@[simp] theorem ofCode_code_epi (k : Epi) : Epi.ofCode k.code.toNat = some k := by cases k <;> rfl
@[simp] theorem ofCode_code_gate (k : GateAct) : GateAct.ofCode k.code.toNat = some k := by cases k <;> rfl
@[simp] theorem lvlOf_ofNat (l : Fin 6) : lvlOf (BitVec.ofNat 3 l.val) = some l := by revert l; decide
theorem slice_hi {w v : Nat} (x : BitVec w) (y : BitVec v) (s l : Nat) (h : v ≤ s) :
    (x.append y).extractLsb' s l = x.extractLsb' (s - v) l := by
  rw [BitVec.append_eq, BitVec.extractLsb'_append_eq_of_le h]
theorem slice_lo {w v : Nat} (x : BitVec w) (y : BitVec v) (s l : Nat) (h : s + l ≤ v) :
    (x.append y).extractLsb' s l = y.extractLsb' s l := by
  rw [BitVec.append_eq, BitVec.extractLsb'_append_eq_of_add_le h]
theorem slice_all {w : Nat} (x : BitVec w) : x.extractLsb' 0 w = x := BitVec.extractLsb'_eq_self
@[simp] theorem ofCode_code_tail (t : Tail) : Tail.ofCode t.code = t := by
  obtain ⟨a, p⟩ := t
  cases a <;> cases p <;>
    simp (discharger := omega) only [Tail.ofCode, Tail.code, HAppend.hAppend, slice_hi, slice_lo] <;> simp
/-- A record of a format is read back from its word; the copy engines' and the tail formats' too, where their OP is of the format (R35). -/
theorem unpack_pack_c (r : CRaw) : Raw.unpack (Raw.pack (.c false r)) = .c false r := by
  obtain ⟨⟩ := r
  simp (discharger := omega) [-BitVec.append_eq, Raw.unpack, Raw.pack, HAppend.hAppend, slice_hi, slice_lo]
theorem unpack_pack_acc (r : CRaw) (h : r.op = 0x7E#7 ∨ r.op = 0x7F#7) : Raw.unpack (Raw.pack (.c true r)) = .c true r := by
  obtain ⟨⟩ := r
  rcases h with h | h <;> simp only at h <;> subst h <;>
  simp (discharger := omega) [-BitVec.append_eq, Raw.unpack, Raw.pack, HAppend.hAppend, slice_hi, slice_lo]
theorem unpack_pack_a (r : ARaw) (h : r.op ≠ 0x7E#7) (h2 : r.op ≠ 0x7F#7) : Raw.unpack (Raw.pack (.a r)) = .a r := by
  obtain ⟨⟩ := r
  simp only at h h2
  simp (discharger := omega) [-BitVec.append_eq, Raw.unpack, Raw.pack, HAppend.hAppend, slice_hi, slice_lo, h, h2]
theorem unpack_pack_v (r : VRaw) (h : r.op ≠ 0x7E#7) (h2 : r.op ≠ 0x7F#7) : Raw.unpack (Raw.pack (.v r)) = .v r := by
  obtain ⟨⟩ := r
  simp only at h h2
  simp (discharger := omega) [-BitVec.append_eq, Raw.unpack, Raw.pack, HAppend.hAppend, slice_hi, slice_lo, h, h2]
theorem unpack_pack_m (r : MRaw) (h : r.op ≠ 0x7E#7) (h2 : r.op ≠ 0x7F#7) : Raw.unpack (Raw.pack (.m r)) = .m r := by
  obtain ⟨⟩ := r
  simp only at h h2
  simp (discharger := omega) [-BitVec.append_eq, Raw.unpack, Raw.pack, HAppend.hAppend, slice_hi, slice_lo, h, h2]
theorem unpack_pack_k (e : CopyEng) (r : KRaw) (h : r.op ≠ 0x7E#7) (h2 : r.op ≠ 0x7F#7) :
    Raw.unpack (Raw.pack (.k e r)) = .k e r := by
  obtain ⟨⟩ := r
  simp only at h h2
  cases e <;>
  simp (discharger := omega) [-BitVec.append_eq, Raw.unpack, Raw.pack, HAppend.hAppend, CopyEng.eng, Eng.code, slice_hi, slice_lo, h, h2]
theorem unpack_pack_f (r : FRaw) (h : r.op ≠ 0x7E#7) (h2 : r.op ≠ 0x7F#7) : Raw.unpack (Raw.pack (.f r)) = .f r := by
  obtain ⟨⟩ := r
  simp only at h h2
  simp (discharger := omega) [-BitVec.append_eq, Raw.unpack, Raw.pack, HAppend.hAppend, slice_hi, slice_lo, h, h2]
theorem unpack_pack_x (r : XRaw) : Raw.unpack (Raw.pack (.x r)) = .x r := by
  obtain ⟨⟩ := r
  simp (discharger := omega) [-BitVec.append_eq, Raw.unpack, Raw.pack, HAppend.hAppend, slice_hi, slice_lo]
theorem unpack_pack_t (e : Eng) (r : TRaw) (he : e ≠ .ctl ∧ e ≠ .acc) (h : r.op = 0x7E#7 ∨ r.op = 0x7F#7) :
    Raw.unpack (Raw.pack (.t e r)) = .t e r := by
  obtain ⟨⟩ := r
  rcases h with h | h <;> simp only at h <;> subst h <;> cases e <;> first | (simp at he; done) | skip
  all_goals simp (discharger := omega) [-BitVec.append_eq, Raw.unpack, Raw.pack, HAppend.hAppend, Eng.code, slice_hi, slice_lo]

/-- Neighbouring slices of a word join. -/
theorem glue {n s1 s2 l1 l2 : Nat} (w : BitVec n) (h : s1 = s2 + l2) :
    (w.extractLsb' s1 l1).append (w.extractLsb' s2 l2) = w.extractLsb' s2 (l1 + l2) := by
  rw [BitVec.append_eq]; exact BitVec.extractLsb'_append_extractLsb'_eq_extractLsb' (by omega)
/-- An engine tag over the rest of its word. -/
theorem tag_glue (w : W128) (k : BitVec 3) (h : (w.extractLsb' 125 3).toNat = k.toNat) :
    k.append (w.extractLsb' 0 125) = w := by
  rw [← BitVec.eq_of_toNat_eq h, glue w rfl]; exact BitVec.extractLsb'_eq_self
/-- A word is the packing of its fields. -/
theorem pack_unpack (w : W128) : Raw.pack (Raw.unpack w) = w := by
  have hb := (w.extractLsb' 125 3).isLt
  unfold Raw.unpack
  simp only
  split
  case h_1 h => simp (discharger := omega) only [Raw.pack, HAppend.hAppend, glue]; exact tag_glue w 0 h
  case h_2 h => split <;> simp (discharger := omega) only [Raw.pack, HAppend.hAppend, glue] <;> exact tag_glue w 1 h
  case h_3 h =>
    split <;> simp (discharger := omega) only [Raw.pack, Eng.code, HAppend.hAppend, glue] <;> exact tag_glue w 2 h
  case h_4 h =>
    split <;> simp (discharger := omega) only [Raw.pack, Eng.code, HAppend.hAppend, glue] <;> exact tag_glue w 3 h
  case h_5 h =>
    split <;> simp (discharger := omega) only [Raw.pack, Eng.code, CopyEng.eng, HAppend.hAppend, glue] <;>
      exact tag_glue w 4 h
  case h_6 h =>
    split <;> simp (discharger := omega) only [Raw.pack, Eng.code, CopyEng.eng, HAppend.hAppend, glue] <;>
      exact tag_glue w 5 h
  case h_7 h =>
    split <;> simp (discharger := omega) only [Raw.pack, Eng.code, HAppend.hAppend, glue] <;> exact tag_glue w 6 h
  case h_8 h0 h1 h2 h3 h4 h5 h6 =>
    simp (discharger := omega) only [Raw.pack, HAppend.hAppend, glue]
    refine tag_glue w 7 ?_
    have g0 : ¬ _ = _ := h0
    have g1 : ¬ _ = _ := h1
    have g2 : ¬ _ = _ := h2
    have g3 : ¬ _ = _ := h3
    have g4 : ¬ _ = _ := h4
    have g5 : ¬ _ = _ := h5
    have g6 : ¬ _ = _ := h6
    show _ = 7
    omega

/-! ### What each OP names -/

set_option linter.unusedVariables false
theorem candC_00 (r : CRaw) (h : r.op = 0x00#7) : candC r =
    let o := r.getOp2
    (fn0 r.fn (.add r.d r.a o)) := by
  unfold candC; rw [h]; rfl
theorem candC_01 (r : CRaw) (h : r.op = 0x01#7) : candC r =
    let o := r.getOp2
    (fn0 r.fn (.sub r.d r.a o)) := by
  unfold candC; rw [h]; rfl
theorem candC_02 (r : CRaw) (h : r.op = 0x02#7) : candC r =
    let o := r.getOp2
    (fn0 r.fn (.mul r.d r.a o)) := by
  unfold candC; rw [h]; rfl
theorem candC_03 (r : CRaw) (h : r.op = 0x03#7) : candC r =
    let o := r.getOp2
    let f := r.fn.toNat
    (req (MulhKind.ofFn f) .unlistedFn fun k => .ok (.mulh k r.d r.a o)) := by
  unfold candC; rw [h]; rfl
theorem candC_04 (r : CRaw) (h : r.op = 0x04#7) : candC r =
    let o := r.getOp2
    let f := r.fn.toNat
    (req (Sgn.ofFn f) .unlistedFn fun g => .ok (.div g r.d r.a o)) := by
  unfold candC; rw [h]; rfl
theorem candC_05 (r : CRaw) (h : r.op = 0x05#7) : candC r =
    let o := r.getOp2
    let f := r.fn.toNat
    (req (Sgn.ofFn f) .unlistedFn fun g => .ok (.rem g r.d r.a o)) := by
  unfold candC; rw [h]; rfl
theorem candC_06 (r : CRaw) (h : r.op = 0x06#7) : candC r =
    let o := r.getOp2
    (fn0 r.fn (.and r.d r.a o)) := by
  unfold candC; rw [h]; rfl
theorem candC_07 (r : CRaw) (h : r.op = 0x07#7) : candC r =
    let o := r.getOp2
    (fn0 r.fn (.or r.d r.a o)) := by
  unfold candC; rw [h]; rfl
theorem candC_08 (r : CRaw) (h : r.op = 0x08#7) : candC r =
    let o := r.getOp2
    (fn0 r.fn (.xor r.d r.a o)) := by
  unfold candC; rw [h]; rfl
theorem candC_09 (r : CRaw) (h : r.op = 0x09#7) : candC r =
    let o := r.getOp2
    (fn0 r.fn (.andn r.d r.a o)) := by
  unfold candC; rw [h]; rfl
theorem candC_0A (r : CRaw) (h : r.op = 0x0A#7) : candC r =
    let o := r.getOp2
    (fn0 r.fn (.shl r.d r.a o)) := by
  unfold candC; rw [h]; rfl
theorem candC_0B (r : CRaw) (h : r.op = 0x0B#7) : candC r =
    let o := r.getOp2
    (fn0 r.fn (.shr r.d r.a o)) := by
  unfold candC; rw [h]; rfl
theorem candC_0C (r : CRaw) (h : r.op = 0x0C#7) : candC r =
    let o := r.getOp2
    (fn0 r.fn (.sra r.d r.a o)) := by
  unfold candC; rw [h]; rfl
theorem candC_0D (r : CRaw) (h : r.op = 0x0D#7) : candC r =
    let o := r.getOp2
    (fn0 r.fn (.rotl r.d r.a o)) := by
  unfold candC; rw [h]; rfl
theorem candC_0E (r : CRaw) (h : r.op = 0x0E#7) : candC r =
    let o := r.getOp2
    let f := r.fn.toNat
    (req (Sgn.ofFn f) .unlistedFn fun g => .ok (.min g r.d r.a o)) := by
  unfold candC; rw [h]; rfl
theorem candC_0F (r : CRaw) (h : r.op = 0x0F#7) : candC r =
    let o := r.getOp2
    let f := r.fn.toNat
    (req (Sgn.ofFn f) .unlistedFn fun g => .ok (.max g r.d r.a o)) := by
  unfold candC; rw [h]; rfl
theorem candC_10 (r : CRaw) (h : r.op = 0x10#7) : candC r =
    (fn0 r.fn (.clz r.d r.a)) := by
  unfold candC; rw [h]; rfl
theorem candC_11 (r : CRaw) (h : r.op = 0x11#7) : candC r =
    (fn0 r.fn (.popc r.d r.a)) := by
  unfold candC; rw [h]; rfl
theorem candC_12 (r : CRaw) (h : r.op = 0x12#7) : candC r =
    let o := r.getOp2
    let f := r.fn.toNat
    (req (Cond.ofCode f) .unlistedFn fun c => .ok (.setc c r.d r.a o)) := by
  unfold candC; rw [h]; rfl
theorem candC_13 (r : CRaw) (h : r.op = 0x13#7) : candC r =
    let o := r.getOp2
    (fn0 r.fn (.sel r.d (r.x12.extractLsb' 0 5) r.a o)) := by
  unfold candC; rw [h]; rfl
theorem candC_14 (r : CRaw) (h : r.op = 0x14#7) : candC r =
    (fn0 r.fn (.movi r.d r.imm)) := by
  unfold candC; rw [h]; rfl
theorem candC_15 (r : CRaw) (h : r.op = 0x15#7) : candC r =
    (fn0 r.fn (.mov r.d r.a)) := by
  unfold candC; rw [h]; rfl
theorem candC_16 (r : CRaw) (h : r.op = 0x16#7) : candC r =
    let o := r.getOp2
    (fn0 r.fn (.lea r.d r.a o r.sh)) := by
  unfold candC; rw [h]; rfl
theorem candC_17 (r : CRaw) (h : r.op = 0x17#7) : candC r =
    (if r.fn = 0 then .ok (.extr .u r.d r.a r.sh (r.x12.extractLsb' 0 7))
    else if r.fn = 1 then .ok (.extr .s r.d r.a r.sh (r.x12.extractLsb' 0 7)) else .error .unlistedFn) := by
  unfold candC; rw [h]; rfl
theorem candC_18 (r : CRaw) (h : r.op = 0x18#7) : candC r =
    (fn0 r.fn (.insr r.d r.a r.sh (r.x12.extractLsb' 0 7))) := by
  unfold candC; rw [h]; rfl
theorem candC_20 (r : CRaw) (h : r.op = 0x20#7) : candC r =
    let f := r.fn.toNat
    (req (LdKind.ofFn f) .unlistedFn fun k => req r.getAcq .badOperand fun s => .ok (.ld k r.d r.a r.imm s)) := by
  unfold candC; rw [h]; rfl
theorem candC_21 (r : CRaw) (h : r.op = 0x21#7) : candC r =
    let f := r.fn.toNat
    (req (StKind.ofFn f) .unlistedFn fun k => req r.getRel .badOperand fun s => .ok (.st k r.a r.b r.imm s)) := by
  unfold candC; rw [h]; rfl
theorem candC_22 (r : CRaw) (h : r.op = 0x22#7) : candC r =
    let f := r.fn.toNat
    (req (LdKind.ofFn f) .unlistedFn fun k => req r.getAcq .badOperand fun s => .ok (.ldsp k r.d r.a r.imm s)) := by
  unfold candC; rw [h]; rfl
theorem candC_23 (r : CRaw) (h : r.op = 0x23#7) : candC r =
    let f := r.fn.toNat
    (req (StKind.ofFn f) .unlistedFn fun k => req r.getRel .badOperand fun s => .ok (.stsp k r.a r.b r.imm s)) := by
  unfold candC; rw [h]; rfl
theorem candC_24 (r : CRaw) (h : r.op = 0x24#7) : candC r =
    let o := r.getOp2
    (req (Scope.ofCode r.sc) .badOperand fun s => fn0 r.fn (.waitge r.d r.a o s)) := by
  unfold candC; rw [h]; rfl
theorem candC_30 (r : CRaw) (h : r.op = 0x30#7) : candC r =
    let o := r.getOp2
    let f := r.fn.toNat
    (req (AtW.ofFn f) .unlistedFn fun w => req r.getOrd .badOperand fun q => .ok (.atadd w r.d r.a o q)) := by
  unfold candC; rw [h]; rfl
theorem candC_31 (r : CRaw) (h : r.op = 0x31#7) : candC r =
    let o := r.getOp2
    let f := r.fn.toNat
    (req (AtW.ofFn f) .unlistedFn fun w => req r.getOrd .badOperand fun q => .ok (.atand w r.d r.a o q)) := by
  unfold candC; rw [h]; rfl
theorem candC_32 (r : CRaw) (h : r.op = 0x32#7) : candC r =
    let o := r.getOp2
    let f := r.fn.toNat
    (req (AtW.ofFn f) .unlistedFn fun w => req r.getOrd .badOperand fun q => .ok (.ator w r.d r.a o q)) := by
  unfold candC; rw [h]; rfl
theorem candC_33 (r : CRaw) (h : r.op = 0x33#7) : candC r =
    let o := r.getOp2
    let f := r.fn.toNat
    (req (AtW.ofFn f) .unlistedFn fun w => req r.getOrd .badOperand fun q => .ok (.atxor w r.d r.a o q)) := by
  unfold candC; rw [h]; rfl
theorem candC_34 (r : CRaw) (h : r.op = 0x34#7) : candC r =
    let o := r.getOp2
    let f := r.fn.toNat
    (req (AtW.ofFnS f) .unlistedFn fun w => req r.getOrd .badOperand fun q => .ok (.atmin w.1 w.2 r.d r.a o q)) := by
  unfold candC; rw [h]; rfl
theorem candC_35 (r : CRaw) (h : r.op = 0x35#7) : candC r =
    let o := r.getOp2
    let f := r.fn.toNat
    (req (AtW.ofFnS f) .unlistedFn fun w => req r.getOrd .badOperand fun q => .ok (.atmax w.1 w.2 r.d r.a o q)) := by
  unfold candC; rw [h]; rfl
theorem candC_36 (r : CRaw) (h : r.op = 0x36#7) : candC r =
    let o := r.getOp2
    let f := r.fn.toNat
    (req (AtW.ofFn f) .unlistedFn fun w => req r.getOrd .badOperand fun q => .ok (.atswp w r.d r.a o q)) := by
  unfold candC; rw [h]; rfl
theorem candC_37 (r : CRaw) (h : r.op = 0x37#7) : candC r =
    let o := r.getOp2
    let f := r.fn.toNat
    (req (AtW.ofFn f) .unlistedFn fun w => req r.getOrd .badOperand fun q =>
    .ok (.atcas w r.d r.a (r.x12.extractLsb' 0 5) o q)) := by
  unfold candC; rw [h]; rfl
theorem candC_38 (r : CRaw) (h : r.op = 0x38#7) : candC r =
    (fn0 r.fn .mark) := by
  unfold candC; rw [h]; rfl
theorem candC_39 (r : CRaw) (h : r.op = 0x39#7) : candC r =
    (req (Scope.ofCode r.sc) .badOperand fun s =>
    if isOne r.scf then fn0 r.fn (.fence .sc s)
    else match isOne r.acq, isOne r.rel with
      | true, true => fn0 r.fn (.fence .acqrel s)
      | true, false => fn0 r.fn (.fence .acq s)
      | false, true => fn0 r.fn (.fence .rel s)
      | false, false => .error .badOperand) := by
  unfold candC; rw [h]; rfl
theorem candC_3A (r : CRaw) (h : r.op = 0x3A#7) : candC r =
    (fn0 r.fn (.fencex (r.x12.extractLsb' 0 5) (r.x12.extractLsb' 5 5))) := by
  unfold candC; rw [h]; rfl
theorem candC_3B (r : CRaw) (h : r.op = 0x3B#7) : candC r =
    let f := r.fn.toNat
    (if r.fn = 0x10 then .ok (.barPart (r.imm.extractLsb' 0 32))
    else if f < 8 then .ok (.bar (r.fn.extractLsb' 0 3)) else .error .unlistedFn) := by
  unfold candC; rw [h]; rfl
theorem candC_40 (r : CRaw) (h : r.op = 0x40#7) : candC r =
    (fn0 r.fn (.hmov r.ha r.hb)) := by
  unfold candC; rw [h]; rfl
theorem candC_41 (r : CRaw) (h : r.op = 0x41#7) : candC r =
    (fn0 r.fn (.hld r.ha r.a r.imm)) := by
  unfold candC; rw [h]; rfl
theorem candC_42 (r : CRaw) (h : r.op = 0x42#7) : candC r =
    (fn0 r.fn (.hst r.ha r.a r.imm)) := by
  unfold candC; rw [h]; rfl
theorem candC_43 (r : CRaw) (h : r.op = 0x43#7) : candC r =
    let o := r.getOp2
    let f := r.fn.toNat
    (req (HSpc.ofFn f) .unlistedFn fun s => .ok (.hsetb s r.ha o)) := by
  unfold candC; rw [h]; rfl
theorem candC_44 (r : CRaw) (h : r.op = 0x44#7) : candC r =
    let o := r.getOp2
    (fn0 r.fn (.hsetx r.ha r.sh o)) := by
  unfold candC; rw [h]; rfl
theorem candC_45 (r : CRaw) (h : r.op = 0x45#7) : candC r =
    let o := r.getOp2
    (fn0 r.fn (.hsets r.ha o)) := by
  unfold candC; rw [h]; rfl
theorem candC_46 (r : CRaw) (h : r.op = 0x46#7) : candC r =
    let o := r.getOp2
    (fn0 r.fn (.hsetf r.ha o)) := by
  unfold candC; rw [h]; rfl
theorem candC_47 (r : CRaw) (h : r.op = 0x47#7) : candC r =
    (fn0 r.fn (.hget r.d r.ha r.x12)) := by
  unfold candC; rw [h]; rfl
theorem candC_48 (r : CRaw) (h : r.op = 0x48#7) : candC r =
    let o := r.getOp2
    (fn0 r.fn (.hoff r.ha r.sh o)) := by
  unfold candC; rw [h]; rfl
theorem candC_49 (r : CRaw) (h : r.op = 0x49#7) : candC r =
    (fn0 r.fn (.hclr r.ha)) := by
  unfold candC; rw [h]; rfl
theorem candC_50 (r : CRaw) (h : r.op = 0x50#7) : candC r =
    (fn0 r.fn (.tlook r.d r.a)) := by
  unfold candC; rw [h]; rfl
theorem candC_51 (r : CRaw) (h : r.op = 0x51#7) : candC r =
    let o := r.getOp2
    (fn0 r.fn (.tset r.a o)) := by
  unfold candC; rw [h]; rfl
theorem candC_52 (r : CRaw) (h : r.op = 0x52#7) : candC r =
    let o := r.getOp2
    (if r.fn = 0 then .ok (.tclr o) else if r.fn = 1 then .ok .tclrAll else .error .unlistedFn) := by
  unfold candC; rw [h]; rfl
theorem candC_53 (r : CRaw) (h : r.op = 0x53#7) : candC r =
    let o := r.getOp2
    (fn0 r.fn (.tinfo r.d o)) := by
  unfold candC; rw [h]; rfl
theorem candC_58 (r : CRaw) (h : r.op = 0x58#7) : candC r =
    (fn0 r.fn (.ropen r.ha)) := by
  unfold candC; rw [h]; rfl
theorem candC_59 (r : CRaw) (h : r.op = 0x59#7) : candC r =
    let o := r.getOp2
    (fn0 r.fn (.rslice r.ha o)) := by
  unfold candC; rw [h]; rfl
theorem candC_5A (r : CRaw) (h : r.op = 0x5A#7) : candC r =
    (fn0 r.fn (.rclose r.ha)) := by
  unfold candC; rw [h]; rfl
theorem candC_5B (r : CRaw) (h : r.op = 0x5B#7) : candC r =
    let o := r.getOp2
    let f := r.fn.toNat
    (if f < 4 then
      .ok (.inst r.d r.ha r.hb o (isOne (r.fn.extractLsb' 0 1)) (if isOne (r.fn.extractLsb' 1 1) then some r.sh else none)
        (isOne (r.x12.extractLsb' 11 1)) (if isOne (r.x12.extractLsb' 6 1) then some (r.x12.extractLsb' 0 6) else none))
    else .error .unlistedFn) := by
  unfold candC; rw [h]; rfl
theorem candC_5C (r : CRaw) (h : r.op = 0x5C#7) : candC r =
    let o := r.getOp2
    (fn0 r.fn (.rvk o)) := by
  unfold candC; rw [h]; rfl
theorem candC_5D (r : CRaw) (h : r.op = 0x5D#7) : candC r =
    let o := r.getOp2
    (fn0 r.fn (.rvkat r.a o)) := by
  unfold candC; rw [h]; rfl
theorem candC_5E (r : CRaw) (h : r.op = 0x5E#7) : candC r =
    let o := r.getOp2
    (if r.fn = 0 then .ok (.rqryRule r.d o) else if r.fn = 1 then .ok (.rqryRec r.d o)
    else if r.fn = 2 then .ok (.rqryCur r.d o) else .error .unlistedFn) := by
  unfold candC; rw [h]; rfl
theorem candC_5F (r : CRaw) (h : r.op = 0x5F#7) : candC r =
    let o := r.getOp2
    (fn0 r.fn (.rres o)) := by
  unfold candC; rw [h]; rfl
theorem candC_60 (r : CRaw) (h : r.op = 0x60#7) : candC r =
    let o := r.getOp2
    (fn0 r.fn (.snew r.ha r.hb o)) := by
  unfold candC; rw [h]; rfl
theorem candC_61 (r : CRaw) (h : r.op = 0x61#7) : candC r =
    let o := r.getOp2
    let f := r.fn.toNat
    (if f < 2 then req r.getRel .badOperand fun s => .ok (.ssend (r.fn == 1) r.d r.ha r.a o s) else .error .unlistedFn) := by
  unfold candC; rw [h]; rfl
theorem candC_62 (r : CRaw) (h : r.op = 0x62#7) : candC r =
    let o := r.getOp2
    let f := r.fn.toNat
    (if f < 2 then req r.getAcq .badOperand fun s => .ok (.srecv (r.fn == 1) r.d r.ha r.a o s) else .error .unlistedFn) := by
  unfold candC; rw [h]; rfl
theorem candC_63 (r : CRaw) (h : r.op = 0x63#7) : candC r =
    let f := r.fn.toNat
    (if f < 2 then req r.getRel .badOperand fun s => .ok (.ssendh (r.fn == 1) r.d r.ha r.hb s) else .error .unlistedFn) := by
  unfold candC; rw [h]; rfl
theorem candC_64 (r : CRaw) (h : r.op = 0x64#7) : candC r =
    let f := r.fn.toNat
    (if f < 2 then req r.getAcq .badOperand fun s => .ok (.srecvh (r.fn == 1) r.d r.ha r.hb s) else .error .unlistedFn) := by
  unfold candC; rw [h]; rfl
theorem candC_65 (r : CRaw) (h : r.op = 0x65#7) : candC r =
    let o := r.getOp2
    (if r.fn = 0 then .ok (.sbind r.ha r.hb o) else if r.fn = 1 then .ok (.sbindOff r.ha) else .error .unlistedFn) := by
  unfold candC; rw [h]; rfl
theorem candC_66 (r : CRaw) (h : r.op = 0x66#7) : candC r =
    (fn0 r.fn (.sclose r.ha)) := by
  unfold candC; rw [h]; rfl
theorem candC_67 (r : CRaw) (h : r.op = 0x67#7) : candC r =
    (fn0 r.fn (.sdrop r.ha)) := by
  unfold candC; rw [h]; rfl
theorem candC_68 (r : CRaw) (h : r.op = 0x68#7) : candC r =
    (fn0 r.fn (.sstat r.d r.ha)) := by
  unfold candC; rw [h]; rfl
theorem candC_70 (r : CRaw) (h : r.op = 0x70#7) : candC r =
    (fn0 r.fn (.srd r.d r.x12)) := by
  unfold candC; rw [h]; rfl
theorem candC_71 (r : CRaw) (h : r.op = 0x71#7) : candC r =
    let o := r.getOp2
    (fn0 r.fn (.swr r.x12 o)) := by
  unfold candC; rw [h]; rfl
theorem candC_72 (r : CRaw) (h : r.op = 0x72#7) : candC r =
    (req r.getAcq .badOperand fun s => fn0 r.fn (.mbxrd r.d (r.x12.extractLsb' 0 4) s)) := by
  unfold candC; rw [h]; rfl
theorem candC_73 (r : CRaw) (h : r.op = 0x73#7) : candC r =
    (fn0 r.fn (.trap r.imm)) := by
  unfold candC; rw [h]; rfl
theorem candC_74 (r : CRaw) (h : r.op = 0x74#7) : candC r =
    (if r.fn = 0 then .ok .eret else if r.fn = 1 then .ok .eretSkip else .error .unlistedFn) := by
  unfold candC; rw [h]; rfl
theorem candC_75 (r : CRaw) (h : r.op = 0x75#7) : candC r =
    (fn0 r.fn .yield) := by
  unfold candC; rw [h]; rfl
theorem candC_76 (r : CRaw) (h : r.op = 0x76#7) : candC r =
    (fn0 r.fn .exit) := by
  unfold candC; rw [h]; rfl
theorem candC_7E (r : CRaw) (h : r.op = 0x7E#7) : candC r =
    (fn0 r.fn (.post .ctl (r.x12.extractLsb' 0 6) r.imm)) := by
  unfold candC; rw [h]; rfl
theorem candC_7F (r : CRaw) (h : r.op = 0x7F#7) : candC r =
    (fn0 r.fn (.await .ctl (r.x12.extractLsb' 0 6) r.imm)) := by
  unfold candC; rw [h]; rfl
theorem candAccC_7E (r : CRaw) (h : r.op = 0x7E#7) : candAccC r =
    (fn0 r.fn (.post .acc (r.x12.extractLsb' 0 6) r.imm)) := by
  unfold candAccC; rw [h]; rfl
theorem candAccC_7F (r : CRaw) (h : r.op = 0x7F#7) : candAccC r =
    (fn0 r.fn (.await .acc (r.x12.extractLsb' 0 6) r.imm)) := by
  unfold candAccC; rw [h]; rfl
theorem candA_00 (r : ARaw) (h : r.op = 0x00#7) : candA r =
    (fn0 r.fn (.aset r.ad r.imm)) := by
  unfold candA; rw [h]; rfl
theorem candA_01 (r : ARaw) (h : r.op = 0x01#7) : candA r =
    (if r.fn = 0 then .ok (.aadd r.ad r.aa r.imm) else if r.fn = 1 then .ok (.aaddReg r.ad r.aa r.ab) else .error .unlistedFn) := by
  unfold candA; rw [h]; rfl
theorem candA_02 (r : ARaw) (h : r.op = 0x02#7) : candA r =
    (fn0 r.fn (.ashl r.ad r.aa (r.imm.extractLsb' 0 6))) := by
  unfold candA; rw [h]; rfl
theorem candA_03 (r : ARaw) (h : r.op = 0x03#7) : candA r =
    (fn0 r.fn (.ard r.q r.aa r.nrow r.rstr r.imm)) := by
  unfold candA; rw [h]; rfl
theorem candA_04 (r : ARaw) (h : r.op = 0x04#7) : candA r =
    (fn0 r.fn (.ardb r.q r.aa r.nrow r.rstr r.imm)) := by
  unfold candA; rw [h]; rfl
theorem candA_05 (r : ARaw) (h : r.op = 0x05#7) : candA r =
    (fn0 r.fn (.waitwp (r.ch.extractLsb' 0 2) (r.imm.extractLsb' 0 32))) := by
  unfold candA; rw [h]; rfl
theorem candA_06 (r : ARaw) (h : r.op = 0x06#7) : candA r =
    (req (lvlOf r.q) .badOperand fun l => fn0 r.fn (.aldi r.ad r.aa l r.imm)) := by
  unfold candA; rw [h]; rfl
theorem candV_00 (r : VRaw) (h : r.op = 0x00#7) : candV r =
    let i := r.imm
    let rm := RMode.ofCode r.rm
    req (VDst.ofCode r.vd) .badOperand fun d =>
    req (VSrc.ofCode r.va) .badOperand fun a =>
    req (VSrc.ofCode r.vb) .badOperand fun b =>
    req (VSrc.ofCode r.vc) .badOperand fun c =>
    let ft (k : FTy → Instr) : Except DecErr Instr := req (FTy.ofCode r.ty.toNat) .badOperand fun t => fn0 r.fn (k t)
    (ft fun t => .vadd t rm d a b i) := by
  unfold candV; rw [h]; rfl
theorem candV_01 (r : VRaw) (h : r.op = 0x01#7) : candV r =
    let i := r.imm
    let rm := RMode.ofCode r.rm
    req (VDst.ofCode r.vd) .badOperand fun d =>
    req (VSrc.ofCode r.va) .badOperand fun a =>
    req (VSrc.ofCode r.vb) .badOperand fun b =>
    req (VSrc.ofCode r.vc) .badOperand fun c =>
    let ft (k : FTy → Instr) : Except DecErr Instr := req (FTy.ofCode r.ty.toNat) .badOperand fun t => fn0 r.fn (k t)
    (ft fun t => .vsub t rm d a b i) := by
  unfold candV; rw [h]; rfl
theorem candV_02 (r : VRaw) (h : r.op = 0x02#7) : candV r =
    let i := r.imm
    let rm := RMode.ofCode r.rm
    req (VDst.ofCode r.vd) .badOperand fun d =>
    req (VSrc.ofCode r.va) .badOperand fun a =>
    req (VSrc.ofCode r.vb) .badOperand fun b =>
    req (VSrc.ofCode r.vc) .badOperand fun c =>
    let ft (k : FTy → Instr) : Except DecErr Instr := req (FTy.ofCode r.ty.toNat) .badOperand fun t => fn0 r.fn (k t)
    (ft fun t => .vmul t rm d a b i) := by
  unfold candV; rw [h]; rfl
theorem candV_03 (r : VRaw) (h : r.op = 0x03#7) : candV r =
    let i := r.imm
    let rm := RMode.ofCode r.rm
    req (VDst.ofCode r.vd) .badOperand fun d =>
    req (VSrc.ofCode r.va) .badOperand fun a =>
    req (VSrc.ofCode r.vb) .badOperand fun b =>
    req (VSrc.ofCode r.vc) .badOperand fun c =>
    let ft (k : FTy → Instr) : Except DecErr Instr := req (FTy.ofCode r.ty.toNat) .badOperand fun t => fn0 r.fn (k t)
    (ft fun t => .vfma t rm d a b c i) := by
  unfold candV; rw [h]; rfl
theorem candV_04 (r : VRaw) (h : r.op = 0x04#7) : candV r =
    let i := r.imm
    let rm := RMode.ofCode r.rm
    req (VDst.ofCode r.vd) .badOperand fun d =>
    req (VSrc.ofCode r.va) .badOperand fun a =>
    req (VSrc.ofCode r.vb) .badOperand fun b =>
    req (VSrc.ofCode r.vc) .badOperand fun c =>
    let ft (k : FTy → Instr) : Except DecErr Instr := req (FTy.ofCode r.ty.toNat) .badOperand fun t => fn0 r.fn (k t)
    (ft fun t => .vfms t rm d a b c i) := by
  unfold candV; rw [h]; rfl
theorem candV_05 (r : VRaw) (h : r.op = 0x05#7) : candV r =
    let i := r.imm
    let rm := RMode.ofCode r.rm
    req (VDst.ofCode r.vd) .badOperand fun d =>
    req (VSrc.ofCode r.va) .badOperand fun a =>
    req (VSrc.ofCode r.vb) .badOperand fun b =>
    req (VSrc.ofCode r.vc) .badOperand fun c =>
    let ft (k : FTy → Instr) : Except DecErr Instr := req (FTy.ofCode r.ty.toNat) .badOperand fun t => fn0 r.fn (k t)
    (ft fun t => .vfnma t rm d a b c i) := by
  unfold candV; rw [h]; rfl
theorem candV_06 (r : VRaw) (h : r.op = 0x06#7) : candV r =
    let i := r.imm
    let rm := RMode.ofCode r.rm
    req (VDst.ofCode r.vd) .badOperand fun d =>
    req (VSrc.ofCode r.va) .badOperand fun a =>
    req (VSrc.ofCode r.vb) .badOperand fun b =>
    req (VSrc.ofCode r.vc) .badOperand fun c =>
    let ft (k : FTy → Instr) : Except DecErr Instr := req (FTy.ofCode r.ty.toNat) .badOperand fun t => fn0 r.fn (k t)
    (ft fun t => .vmin t rm d a b i) := by
  unfold candV; rw [h]; rfl
theorem candV_07 (r : VRaw) (h : r.op = 0x07#7) : candV r =
    let i := r.imm
    let rm := RMode.ofCode r.rm
    req (VDst.ofCode r.vd) .badOperand fun d =>
    req (VSrc.ofCode r.va) .badOperand fun a =>
    req (VSrc.ofCode r.vb) .badOperand fun b =>
    req (VSrc.ofCode r.vc) .badOperand fun c =>
    let ft (k : FTy → Instr) : Except DecErr Instr := req (FTy.ofCode r.ty.toNat) .badOperand fun t => fn0 r.fn (k t)
    (ft fun t => .vmax t rm d a b i) := by
  unfold candV; rw [h]; rfl
theorem candV_08 (r : VRaw) (h : r.op = 0x08#7) : candV r =
    let i := r.imm
    let rm := RMode.ofCode r.rm
    req (VDst.ofCode r.vd) .badOperand fun d =>
    req (VSrc.ofCode r.va) .badOperand fun a =>
    req (VSrc.ofCode r.vb) .badOperand fun b =>
    req (VSrc.ofCode r.vc) .badOperand fun c =>
    let ft (k : FTy → Instr) : Except DecErr Instr := req (FTy.ofCode r.ty.toNat) .badOperand fun t => fn0 r.fn (k t)
    (ft fun t => .vabs t rm d a i) := by
  unfold candV; rw [h]; rfl
theorem candV_09 (r : VRaw) (h : r.op = 0x09#7) : candV r =
    let i := r.imm
    let rm := RMode.ofCode r.rm
    req (VDst.ofCode r.vd) .badOperand fun d =>
    req (VSrc.ofCode r.va) .badOperand fun a =>
    req (VSrc.ofCode r.vb) .badOperand fun b =>
    req (VSrc.ofCode r.vc) .badOperand fun c =>
    let ft (k : FTy → Instr) : Except DecErr Instr := req (FTy.ofCode r.ty.toNat) .badOperand fun t => fn0 r.fn (k t)
    (ft fun t => .vneg t rm d a i) := by
  unfold candV; rw [h]; rfl
theorem candV_0A (r : VRaw) (h : r.op = 0x0A#7) : candV r =
    let i := r.imm
    let rm := RMode.ofCode r.rm
    req (VDst.ofCode r.vd) .badOperand fun d =>
    req (VSrc.ofCode r.va) .badOperand fun a =>
    req (VSrc.ofCode r.vb) .badOperand fun b =>
    req (VSrc.ofCode r.vc) .badOperand fun c =>
    (if r.fn = 1 then req (ITy.ofCode r.ty.toNat) .badOperand fun t => .ok (.vdivRem t d a b i)
    else req (VTy.ofCode r.ty.toNat) .badOperand fun t => fn0 r.fn (.vdiv t rm d a b i)) := by
  unfold candV; rw [h]; rfl
theorem candV_0B (r : VRaw) (h : r.op = 0x0B#7) : candV r =
    let i := r.imm
    let rm := RMode.ofCode r.rm
    req (VDst.ofCode r.vd) .badOperand fun d =>
    req (VSrc.ofCode r.va) .badOperand fun a =>
    req (VSrc.ofCode r.vb) .badOperand fun b =>
    req (VSrc.ofCode r.vc) .badOperand fun c =>
    (fn0 r.fn (.vfma16 rm d a b c i)) := by
  unfold candV; rw [h]; rfl
theorem candV_10 (r : VRaw) (h : r.op = 0x10#7) : candV r =
    let i := r.imm
    let sat := isOne r.sat
    req (VDst.ofCode r.vd) .badOperand fun d =>
    req (VSrc.ofCode r.va) .badOperand fun a =>
    req (VSrc.ofCode r.vb) .badOperand fun b =>
    req (VSrc.ofCode r.vc) .badOperand fun c =>
    let it (k : ITy → Instr) : Except DecErr Instr := req (ITy.ofCode r.ty.toNat) .badOperand fun t => fn0 r.fn (k t)
    (it fun t => .viadd t sat d a b i) := by
  unfold candV; rw [h]; rfl
theorem candV_11 (r : VRaw) (h : r.op = 0x11#7) : candV r =
    let i := r.imm
    let sat := isOne r.sat
    req (VDst.ofCode r.vd) .badOperand fun d =>
    req (VSrc.ofCode r.va) .badOperand fun a =>
    req (VSrc.ofCode r.vb) .badOperand fun b =>
    req (VSrc.ofCode r.vc) .badOperand fun c =>
    let it (k : ITy → Instr) : Except DecErr Instr := req (ITy.ofCode r.ty.toNat) .badOperand fun t => fn0 r.fn (k t)
    (it fun t => .visub t sat d a b i) := by
  unfold candV; rw [h]; rfl
theorem candV_12 (r : VRaw) (h : r.op = 0x12#7) : candV r =
    let i := r.imm
    let sat := isOne r.sat
    req (VDst.ofCode r.vd) .badOperand fun d =>
    req (VSrc.ofCode r.va) .badOperand fun a =>
    req (VSrc.ofCode r.vb) .badOperand fun b =>
    req (VSrc.ofCode r.vc) .badOperand fun c =>
    let it (k : ITy → Instr) : Except DecErr Instr := req (ITy.ofCode r.ty.toNat) .badOperand fun t => fn0 r.fn (k t)
    (it fun t => .vimul t sat d a b i) := by
  unfold candV; rw [h]; rfl
theorem candV_13 (r : VRaw) (h : r.op = 0x13#7) : candV r =
    let i := r.imm
    req (VDst.ofCode r.vd) .badOperand fun d =>
    req (VSrc.ofCode r.va) .badOperand fun a =>
    req (VSrc.ofCode r.vb) .badOperand fun b =>
    req (VSrc.ofCode r.vc) .badOperand fun c =>
    let it (k : ITy → Instr) : Except DecErr Instr := req (ITy.ofCode r.ty.toNat) .badOperand fun t => fn0 r.fn (k t)
    (it fun t => .vimulh t d a b i) := by
  unfold candV; rw [h]; rfl
theorem candV_14 (r : VRaw) (h : r.op = 0x14#7) : candV r =
    let i := r.imm
    req (VDst.ofCode r.vd) .badOperand fun d =>
    req (VSrc.ofCode r.va) .badOperand fun a =>
    req (VSrc.ofCode r.vb) .badOperand fun b =>
    req (VSrc.ofCode r.vc) .badOperand fun c =>
    let it (k : ITy → Instr) : Except DecErr Instr := req (ITy.ofCode r.ty.toNat) .badOperand fun t => fn0 r.fn (k t)
    (it fun t => .vimin t d a b i) := by
  unfold candV; rw [h]; rfl
theorem candV_15 (r : VRaw) (h : r.op = 0x15#7) : candV r =
    let i := r.imm
    req (VDst.ofCode r.vd) .badOperand fun d =>
    req (VSrc.ofCode r.va) .badOperand fun a =>
    req (VSrc.ofCode r.vb) .badOperand fun b =>
    req (VSrc.ofCode r.vc) .badOperand fun c =>
    let it (k : ITy → Instr) : Except DecErr Instr := req (ITy.ofCode r.ty.toNat) .badOperand fun t => fn0 r.fn (k t)
    (it fun t => .vimax t d a b i) := by
  unfold candV; rw [h]; rfl
theorem candV_16 (r : VRaw) (h : r.op = 0x16#7) : candV r =
    let i := r.imm
    req (VDst.ofCode r.vd) .badOperand fun d =>
    req (VSrc.ofCode r.va) .badOperand fun a =>
    req (VSrc.ofCode r.vb) .badOperand fun b =>
    req (VSrc.ofCode r.vc) .badOperand fun c =>
    let it (k : ITy → Instr) : Except DecErr Instr := req (ITy.ofCode r.ty.toNat) .badOperand fun t => fn0 r.fn (k t)
    (it fun t => .vand t d a b i) := by
  unfold candV; rw [h]; rfl
theorem candV_17 (r : VRaw) (h : r.op = 0x17#7) : candV r =
    let i := r.imm
    req (VDst.ofCode r.vd) .badOperand fun d =>
    req (VSrc.ofCode r.va) .badOperand fun a =>
    req (VSrc.ofCode r.vb) .badOperand fun b =>
    req (VSrc.ofCode r.vc) .badOperand fun c =>
    let it (k : ITy → Instr) : Except DecErr Instr := req (ITy.ofCode r.ty.toNat) .badOperand fun t => fn0 r.fn (k t)
    (it fun t => .vor t d a b i) := by
  unfold candV; rw [h]; rfl
theorem candV_18 (r : VRaw) (h : r.op = 0x18#7) : candV r =
    let i := r.imm
    req (VDst.ofCode r.vd) .badOperand fun d =>
    req (VSrc.ofCode r.va) .badOperand fun a =>
    req (VSrc.ofCode r.vb) .badOperand fun b =>
    req (VSrc.ofCode r.vc) .badOperand fun c =>
    let it (k : ITy → Instr) : Except DecErr Instr := req (ITy.ofCode r.ty.toNat) .badOperand fun t => fn0 r.fn (k t)
    (it fun t => .vxor t d a b i) := by
  unfold candV; rw [h]; rfl
theorem candV_19 (r : VRaw) (h : r.op = 0x19#7) : candV r =
    let i := r.imm
    req (VDst.ofCode r.vd) .badOperand fun d =>
    req (VSrc.ofCode r.va) .badOperand fun a =>
    req (VSrc.ofCode r.vb) .badOperand fun b =>
    req (VSrc.ofCode r.vc) .badOperand fun c =>
    let it (k : ITy → Instr) : Except DecErr Instr := req (ITy.ofCode r.ty.toNat) .badOperand fun t => fn0 r.fn (k t)
    (it fun t => .vshl t d a b i) := by
  unfold candV; rw [h]; rfl
theorem candV_1A (r : VRaw) (h : r.op = 0x1A#7) : candV r =
    let i := r.imm
    req (VDst.ofCode r.vd) .badOperand fun d =>
    req (VSrc.ofCode r.va) .badOperand fun a =>
    req (VSrc.ofCode r.vb) .badOperand fun b =>
    req (VSrc.ofCode r.vc) .badOperand fun c =>
    let it (k : ITy → Instr) : Except DecErr Instr := req (ITy.ofCode r.ty.toNat) .badOperand fun t => fn0 r.fn (k t)
    (it fun t => .vshr t d a b i) := by
  unfold candV; rw [h]; rfl
theorem candV_1B (r : VRaw) (h : r.op = 0x1B#7) : candV r =
    let i := r.imm
    req (VDst.ofCode r.vd) .badOperand fun d =>
    req (VSrc.ofCode r.va) .badOperand fun a =>
    req (VSrc.ofCode r.vb) .badOperand fun b =>
    req (VSrc.ofCode r.vc) .badOperand fun c =>
    let it (k : ITy → Instr) : Except DecErr Instr := req (ITy.ofCode r.ty.toNat) .badOperand fun t => fn0 r.fn (k t)
    (it fun t => .vsra t d a b i) := by
  unfold candV; rw [h]; rfl
theorem candV_20 (r : VRaw) (h : r.op = 0x20#7) : candV r =
    let f := r.fn.toNat
    let i := r.imm
    req (VDst.ofCode r.vd) .badOperand fun d =>
    req (VSrc.ofCode r.va) .badOperand fun a =>
    req (VSrc.ofCode r.vb) .badOperand fun b =>
    req (VSrc.ofCode r.vc) .badOperand fun c =>
    (req (VCond.ofFn f) .unlistedFn fun cc => req (NTy.ofCode r.ty.toNat) .badOperand fun t => .ok (.vcmp cc t d a b i)) := by
  unfold candV; rw [h]; rfl
theorem candV_21 (r : VRaw) (h : r.op = 0x21#7) : candV r =
    let i := r.imm
    req (VDst.ofCode r.vd) .badOperand fun d =>
    req (VSrc.ofCode r.va) .badOperand fun a =>
    req (VSrc.ofCode r.vb) .badOperand fun b =>
    req (VSrc.ofCode r.vc) .badOperand fun c =>
    (fn0 r.fn (.vsel d a b c i)) := by
  unfold candV; rw [h]; rfl
theorem candV_22 (r : VRaw) (h : r.op = 0x22#7) : candV r =
    let f := r.fn.toNat
    let i := r.imm
    let rm := RMode.ofCode r.rm
    req (VDst.ofCode r.vd) .badOperand fun d =>
    req (VSrc.ofCode r.va) .badOperand fun a =>
    req (VSrc.ofCode r.vb) .badOperand fun b =>
    req (VSrc.ofCode r.vc) .badOperand fun c =>
    (req (VTy.ofCode f) .unlistedFn fun dt => req (VTy.ofCode r.ty.toNat) .badOperand fun st => .ok (.vcvt dt st rm d a i)) := by
  unfold candV; rw [h]; rfl
theorem candV_23 (r : VRaw) (h : r.op = 0x23#7) : candV r =
    let i := r.imm
    req (VDst.ofCode r.vd) .badOperand fun d =>
    req (VSrc.ofCode r.va) .badOperand fun a =>
    req (VSrc.ofCode r.vb) .badOperand fun b =>
    req (VSrc.ofCode r.vc) .badOperand fun c =>
    (fn0 r.fn (.vmov d a i)) := by
  unfold candV; rw [h]; rfl
theorem candV_24 (r : VRaw) (h : r.op = 0x24#7) : candV r =
    let i := r.imm
    req (VDst.ofCode r.vd) .badOperand fun d =>
    req (VSrc.ofCode r.va) .badOperand fun a =>
    req (VSrc.ofCode r.vb) .badOperand fun b =>
    req (VSrc.ofCode r.vc) .badOperand fun c =>
    (fn0 r.fn (.vseti d a (i.extractLsb' 32 4) r.amt (i.extractLsb' 0 32))) := by
  unfold candV; rw [h]; rfl
theorem candV_25 (r : VRaw) (h : r.op = 0x25#7) : candV r =
    let f := r.fn.toNat
    let i := r.imm
    req (VDst.ofCode r.vd) .badOperand fun d =>
    req (VSrc.ofCode r.va) .badOperand fun a =>
    req (VSrc.ofCode r.vb) .badOperand fun b =>
    req (VSrc.ofCode r.vc) .badOperand fun c =>
    (req (IotaKind.ofFn f) .unlistedFn fun k => .ok (.viota k d (i.extractLsb' 0 32))) := by
  unfold candV; rw [h]; rfl
theorem candV_26 (r : VRaw) (h : r.op = 0x26#7) : candV r =
    let i := r.imm
    req (VDst.ofCode r.vd) .badOperand fun d =>
    req (VSrc.ofCode r.va) .badOperand fun a =>
    req (VSrc.ofCode r.vb) .badOperand fun b =>
    req (VSrc.ofCode r.vc) .badOperand fun c =>
    (if r.fn = 0 then .ok (.vrngRaw d a i) else if r.fn = 1 then .ok (.vrngUni d a i) else .error .unlistedFn) := by
  unfold candV; rw [h]; rfl
theorem candV_27 (r : VRaw) (h : r.op = 0x27#7) : candV r =
    let i := r.imm
    req (VDst.ofCode r.vd) .badOperand fun d =>
    req (VSrc.ofCode r.va) .badOperand fun a =>
    req (VSrc.ofCode r.vb) .badOperand fun b =>
    req (VSrc.ofCode r.vc) .badOperand fun c =>
    let nt (k : NTy → Instr) : Except DecErr Instr := req (NTy.ofCode r.ty.toNat) .badOperand fun t => fn0 r.fn (k t)
    (nt fun t => .vclamp t d a b c i) := by
  unfold candV; rw [h]; rfl
theorem candV_30 (r : VRaw) (h : r.op = 0x30#7) : candV r =
    let i := r.imm
    let ax := Axis.ofCode r.ax
    req (VDst.ofCode r.vd) .badOperand fun d =>
    req (VSrc.ofCode r.va) .badOperand fun a =>
    req (VSrc.ofCode r.vb) .badOperand fun b =>
    req (VSrc.ofCode r.vc) .badOperand fun c =>
    (fn0 r.fn (.vrot ax r.amt d a i)) := by
  unfold candV; rw [h]; rfl
theorem candV_31 (r : VRaw) (h : r.op = 0x31#7) : candV r =
    let i := r.imm
    let ax := Axis.ofCode r.ax
    req (VDst.ofCode r.vd) .badOperand fun d =>
    req (VSrc.ofCode r.va) .badOperand fun a =>
    req (VSrc.ofCode r.vb) .badOperand fun b =>
    req (VSrc.ofCode r.vc) .badOperand fun c =>
    (fn0 r.fn (.vbcast ax r.amt d a i)) := by
  unfold candV; rw [h]; rfl
theorem candV_38 (r : VRaw) (h : r.op = 0x38#7) : candV r =
    let i := r.imm
    let ax := Axis.ofCode r.ax
    req (VDst.ofCode r.vd) .badOperand fun d =>
    req (VSrc.ofCode r.va) .badOperand fun a =>
    req (VSrc.ofCode r.vb) .badOperand fun b =>
    req (VSrc.ofCode r.vc) .badOperand fun c =>
    (if r.fn = 0 then .ok (.vshiftDn ax r.amt d a i) else if r.fn = 1 then .ok (.vshiftUp ax r.amt d a i) else .error .unlistedFn) := by
  unfold candV; rw [h]; rfl
theorem candV_32 (r : VRaw) (h : r.op = 0x32#7) : candV r =
    let i := r.imm
    let rm := RMode.ofCode r.rm
    let sat := isOne r.sat
    let ax := Axis.ofCode r.ax
    req (VDst.ofCode r.vd) .badOperand fun d =>
    req (VSrc.ofCode r.va) .badOperand fun a =>
    req (VSrc.ofCode r.vb) .badOperand fun b =>
    req (VSrc.ofCode r.vc) .badOperand fun c =>
    let nt (k : NTy → Instr) : Except DecErr Instr := req (NTy.ofCode r.ty.toNat) .badOperand fun t => fn0 r.fn (k t)
    (nt fun t => .vrsum t rm sat ax d a i) := by
  unfold candV; rw [h]; rfl
theorem candV_37 (r : VRaw) (h : r.op = 0x37#7) : candV r =
    let i := r.imm
    let rm := RMode.ofCode r.rm
    let sat := isOne r.sat
    let ax := Axis.ofCode r.ax
    req (VDst.ofCode r.vd) .badOperand fun d =>
    req (VSrc.ofCode r.va) .badOperand fun a =>
    req (VSrc.ofCode r.vb) .badOperand fun b =>
    req (VSrc.ofCode r.vc) .badOperand fun c =>
    (req (NTy.ofCode r.ty.toNat) .badOperand fun t =>
      if r.fn = 0 then .ok (.vscanIncl t rm sat ax d a i)
      else if r.fn = 1 then .ok (.vscanExcl t rm sat ax d a i) else .error .unlistedFn) := by
  unfold candV; rw [h]; rfl
theorem candV_33 (r : VRaw) (h : r.op = 0x33#7) : candV r =
    let i := r.imm
    let ax := Axis.ofCode r.ax
    req (VDst.ofCode r.vd) .badOperand fun d =>
    req (VSrc.ofCode r.va) .badOperand fun a =>
    req (VSrc.ofCode r.vb) .badOperand fun b =>
    req (VSrc.ofCode r.vc) .badOperand fun c =>
    let nt (k : NTy → Instr) : Except DecErr Instr := req (NTy.ofCode r.ty.toNat) .badOperand fun t => fn0 r.fn (k t)
    (nt fun t => .vrmax t ax d a i) := by
  unfold candV; rw [h]; rfl
theorem candV_34 (r : VRaw) (h : r.op = 0x34#7) : candV r =
    let i := r.imm
    let ax := Axis.ofCode r.ax
    req (VDst.ofCode r.vd) .badOperand fun d =>
    req (VSrc.ofCode r.va) .badOperand fun a =>
    req (VSrc.ofCode r.vb) .badOperand fun b =>
    req (VSrc.ofCode r.vc) .badOperand fun c =>
    let nt (k : NTy → Instr) : Except DecErr Instr := req (NTy.ofCode r.ty.toNat) .badOperand fun t => fn0 r.fn (k t)
    (nt fun t => .vrmin t ax d a i) := by
  unfold candV; rw [h]; rfl
theorem candV_35 (r : VRaw) (h : r.op = 0x35#7) : candV r =
    let i := r.imm
    let ax := Axis.ofCode r.ax
    req (VDst.ofCode r.vd) .badOperand fun d =>
    req (VSrc.ofCode r.va) .badOperand fun a =>
    req (VSrc.ofCode r.vb) .badOperand fun b =>
    req (VSrc.ofCode r.vc) .badOperand fun c =>
    let nt (k : NTy → Instr) : Except DecErr Instr := req (NTy.ofCode r.ty.toNat) .badOperand fun t => fn0 r.fn (k t)
    (nt fun t => .vrmaxi t ax d a i) := by
  unfold candV; rw [h]; rfl
theorem candV_36 (r : VRaw) (h : r.op = 0x36#7) : candV r =
    let i := r.imm
    let ax := Axis.ofCode r.ax
    req (VDst.ofCode r.vd) .badOperand fun d =>
    req (VSrc.ofCode r.va) .badOperand fun a =>
    req (VSrc.ofCode r.vb) .badOperand fun b =>
    req (VSrc.ofCode r.vc) .badOperand fun c =>
    let nt (k : NTy → Instr) : Except DecErr Instr := req (NTy.ofCode r.ty.toNat) .badOperand fun t => fn0 r.fn (k t)
    (nt fun t => .vrmini t ax d a i) := by
  unfold candV; rw [h]; rfl
theorem candV_40 (r : VRaw) (h : r.op = 0x40#7) : candV r =
    let i := r.imm
    let rm := RMode.ofCode r.rm
    req (VDst.ofCode r.vd) .badOperand fun d =>
    req (VSrc.ofCode r.va) .badOperand fun a =>
    req (VSrc.ofCode r.vb) .badOperand fun b =>
    req (VSrc.ofCode r.vc) .badOperand fun c =>
    let ft (k : FTy → Instr) : Except DecErr Instr := req (FTy.ofCode r.ty.toNat) .badOperand fun t => fn0 r.fn (k t)
    (ft fun t => .vexp t rm d a i) := by
  unfold candV; rw [h]; rfl
theorem candV_41 (r : VRaw) (h : r.op = 0x41#7) : candV r =
    let i := r.imm
    let rm := RMode.ofCode r.rm
    req (VDst.ofCode r.vd) .badOperand fun d =>
    req (VSrc.ofCode r.va) .badOperand fun a =>
    req (VSrc.ofCode r.vb) .badOperand fun b =>
    req (VSrc.ofCode r.vc) .badOperand fun c =>
    let ft (k : FTy → Instr) : Except DecErr Instr := req (FTy.ofCode r.ty.toNat) .badOperand fun t => fn0 r.fn (k t)
    (ft fun t => .vexp2 t rm d a i) := by
  unfold candV; rw [h]; rfl
theorem candV_42 (r : VRaw) (h : r.op = 0x42#7) : candV r =
    let i := r.imm
    let rm := RMode.ofCode r.rm
    req (VDst.ofCode r.vd) .badOperand fun d =>
    req (VSrc.ofCode r.va) .badOperand fun a =>
    req (VSrc.ofCode r.vb) .badOperand fun b =>
    req (VSrc.ofCode r.vc) .badOperand fun c =>
    let ft (k : FTy → Instr) : Except DecErr Instr := req (FTy.ofCode r.ty.toNat) .badOperand fun t => fn0 r.fn (k t)
    (ft fun t => .vln t rm d a i) := by
  unfold candV; rw [h]; rfl
theorem candV_43 (r : VRaw) (h : r.op = 0x43#7) : candV r =
    let i := r.imm
    let rm := RMode.ofCode r.rm
    req (VDst.ofCode r.vd) .badOperand fun d =>
    req (VSrc.ofCode r.va) .badOperand fun a =>
    req (VSrc.ofCode r.vb) .badOperand fun b =>
    req (VSrc.ofCode r.vc) .badOperand fun c =>
    let ft (k : FTy → Instr) : Except DecErr Instr := req (FTy.ofCode r.ty.toNat) .badOperand fun t => fn0 r.fn (k t)
    (ft fun t => .vlog2 t rm d a i) := by
  unfold candV; rw [h]; rfl
theorem candV_44 (r : VRaw) (h : r.op = 0x44#7) : candV r =
    let i := r.imm
    let rm := RMode.ofCode r.rm
    req (VDst.ofCode r.vd) .badOperand fun d =>
    req (VSrc.ofCode r.va) .badOperand fun a =>
    req (VSrc.ofCode r.vb) .badOperand fun b =>
    req (VSrc.ofCode r.vc) .badOperand fun c =>
    let ft (k : FTy → Instr) : Except DecErr Instr := req (FTy.ofCode r.ty.toNat) .badOperand fun t => fn0 r.fn (k t)
    (ft fun t => .vrcp t rm d a i) := by
  unfold candV; rw [h]; rfl
theorem candV_45 (r : VRaw) (h : r.op = 0x45#7) : candV r =
    let i := r.imm
    let rm := RMode.ofCode r.rm
    req (VDst.ofCode r.vd) .badOperand fun d =>
    req (VSrc.ofCode r.va) .badOperand fun a =>
    req (VSrc.ofCode r.vb) .badOperand fun b =>
    req (VSrc.ofCode r.vc) .badOperand fun c =>
    let ft (k : FTy → Instr) : Except DecErr Instr := req (FTy.ofCode r.ty.toNat) .badOperand fun t => fn0 r.fn (k t)
    (ft fun t => .vrsqrt t rm d a i) := by
  unfold candV; rw [h]; rfl
theorem candV_46 (r : VRaw) (h : r.op = 0x46#7) : candV r =
    let i := r.imm
    let rm := RMode.ofCode r.rm
    req (VDst.ofCode r.vd) .badOperand fun d =>
    req (VSrc.ofCode r.va) .badOperand fun a =>
    req (VSrc.ofCode r.vb) .badOperand fun b =>
    req (VSrc.ofCode r.vc) .badOperand fun c =>
    let ft (k : FTy → Instr) : Except DecErr Instr := req (FTy.ofCode r.ty.toNat) .badOperand fun t => fn0 r.fn (k t)
    (ft fun t => .vsqrt t rm d a i) := by
  unfold candV; rw [h]; rfl
theorem candV_47 (r : VRaw) (h : r.op = 0x47#7) : candV r =
    let i := r.imm
    let rm := RMode.ofCode r.rm
    req (VDst.ofCode r.vd) .badOperand fun d =>
    req (VSrc.ofCode r.va) .badOperand fun a =>
    req (VSrc.ofCode r.vb) .badOperand fun b =>
    req (VSrc.ofCode r.vc) .badOperand fun c =>
    let ft (k : FTy → Instr) : Except DecErr Instr := req (FTy.ofCode r.ty.toNat) .badOperand fun t => fn0 r.fn (k t)
    (ft fun t => .vtanh t rm d a i) := by
  unfold candV; rw [h]; rfl
theorem candV_48 (r : VRaw) (h : r.op = 0x48#7) : candV r =
    let i := r.imm
    let rm := RMode.ofCode r.rm
    req (VDst.ofCode r.vd) .badOperand fun d =>
    req (VSrc.ofCode r.va) .badOperand fun a =>
    req (VSrc.ofCode r.vb) .badOperand fun b =>
    req (VSrc.ofCode r.vc) .badOperand fun c =>
    let ft (k : FTy → Instr) : Except DecErr Instr := req (FTy.ofCode r.ty.toNat) .badOperand fun t => fn0 r.fn (k t)
    (ft fun t => .vsigm t rm d a i) := by
  unfold candV; rw [h]; rfl
theorem candV_49 (r : VRaw) (h : r.op = 0x49#7) : candV r =
    let i := r.imm
    let rm := RMode.ofCode r.rm
    req (VDst.ofCode r.vd) .badOperand fun d =>
    req (VSrc.ofCode r.va) .badOperand fun a =>
    req (VSrc.ofCode r.vb) .badOperand fun b =>
    req (VSrc.ofCode r.vc) .badOperand fun c =>
    let ft (k : FTy → Instr) : Except DecErr Instr := req (FTy.ofCode r.ty.toNat) .badOperand fun t => fn0 r.fn (k t)
    (ft fun t => .vgelu t rm d a i) := by
  unfold candV; rw [h]; rfl
theorem candV_4A (r : VRaw) (h : r.op = 0x4A#7) : candV r =
    let i := r.imm
    let rm := RMode.ofCode r.rm
    req (VDst.ofCode r.vd) .badOperand fun d =>
    req (VSrc.ofCode r.va) .badOperand fun a =>
    req (VSrc.ofCode r.vb) .badOperand fun b =>
    req (VSrc.ofCode r.vc) .badOperand fun c =>
    let ft (k : FTy → Instr) : Except DecErr Instr := req (FTy.ofCode r.ty.toNat) .badOperand fun t => fn0 r.fn (k t)
    (ft fun t => .verf t rm d a i) := by
  unfold candV; rw [h]; rfl
theorem candV_50 (r : VRaw) (h : r.op = 0x50#7) : candV r =
    let f := r.fn.toNat
    let i := r.imm
    let rm := RMode.ofCode r.rm
    req (VDst.ofCode r.vd) .badOperand fun d =>
    req (VSrc.ofCode r.va) .badOperand fun a =>
    req (VSrc.ofCode r.vb) .badOperand fun b =>
    req (VSrc.ofCode r.vc) .badOperand fun c =>
    (if f < 2 then req (FTy.ofCode r.ty.toNat) .badOperand fun t => .ok (.vunpk (r.fn == 1) t rm r.amt d a i)
    else .error .unlistedFn) := by
  unfold candV; rw [h]; rfl
theorem candV_51 (r : VRaw) (h : r.op = 0x51#7) : candV r =
    let f := r.fn.toNat
    let i := r.imm
    req (VDst.ofCode r.vd) .badOperand fun d =>
    req (VSrc.ofCode r.va) .badOperand fun a =>
    req (VSrc.ofCode r.vb) .badOperand fun b =>
    req (VSrc.ofCode r.vc) .badOperand fun c =>
    (req (packOfFn f) .unlistedFn fun p => .ok (.vpack p.1 p.2 r.amt (i.extractLsb' 0 7) d a b c)) := by
  unfold candV; rw [h]; rfl
theorem candV_52 (r : VRaw) (h : r.op = 0x52#7) : candV r =
    let i := r.imm
    let rm := RMode.ofCode r.rm
    req (VDst.ofCode r.vd) .badOperand fun d =>
    req (VSrc.ofCode r.va) .badOperand fun a =>
    req (VSrc.ofCode r.vb) .badOperand fun b =>
    req (VSrc.ofCode r.vc) .badOperand fun c =>
    (fn0 r.fn (.vpkbf rm d a b i)) := by
  unfold candV; rw [h]; rfl
theorem candV_53 (r : VRaw) (h : r.op = 0x53#7) : candV r =
    let f := r.fn.toNat
    let i := r.imm
    req (VDst.ofCode r.vd) .badOperand fun d =>
    req (VSrc.ofCode r.va) .badOperand fun a =>
    req (VSrc.ofCode r.vb) .badOperand fun b =>
    req (VSrc.ofCode r.vc) .badOperand fun c =>
    (if f < 2 then .ok (.vupbf (r.fn == 1) d a i) else .error .unlistedFn) := by
  unfold candV; rw [h]; rfl
theorem candM_00 (r : MRaw) (h : r.op = 0x00#7) : candM r =
    let f := r.fn.toNat
    let tl := Tail.ofCode r.tail
    (req (Cost.ofFn f) .unlistedFn fun c => .ok (.mma c r.bk r.da r.db r.ks r.ecl (isOne r.clr) (isOne r.rls) tl)) := by
  unfold candM; rw [h]; rfl
theorem candM_01 (r : MRaw) (h : r.op = 0x01#7) : candM r =
    let tl := Tail.ofCode r.tail
    (fn0 r.fn (.mclr r.bk tl)) := by
  unfold candM; rw [h]; rfl
theorem candM_02 (r : MRaw) (h : r.op = 0x02#7) : candM r =
    let tl := Tail.ofCode r.tail
    let q (k : Nat) : Bool := isOne (r.qs.extractLsb' k 1)
    let x (k : Nat) : Bool := isOne (r.xm.extractLsb' k 1)
    (req (Epi.ofCode r.epi.toNat) .badOperand fun e =>
      if r.fn = 1 then .ok (.moutHandle r.bk r.ho e (isOne r.clr) (q 0) (q 1) tl)
      else if h : r.da.toNat < 12 then fn0 r.fn (.moutTile r.bk ⟨r.da.toNat, h⟩ e (isOne r.clr) (q 0) (q 1) (x 0) tl)
      else .error .badOperand) := by
  unfold candM; rw [h]; rfl
theorem candM_03 (r : MRaw) (h : r.op = 0x03#7) : candM r =
    let tl := Tail.ofCode r.tail
    let q (k : Nat) : Bool := isOne (r.qs.extractLsb' k 1)
    let x (k : Nat) : Bool := isOne (r.xm.extractLsb' k 1)
    let x2 := r.xm.extractLsb' 0 2
    (req (GateAct.ofCode (r.xm.extractLsb' 2 2).toNat) .badOperand fun aa =>
    req (GateAct.ofCode (r.xm.extractLsb' 4 2).toNat) .badOperand fun ab =>
    fn0 r.fn (.mgate r.bk x2 aa ab (x 6) (q 0) tl)) := by
  unfold candM; rw [h]; rfl
theorem candM_04 (r : MRaw) (h : r.op = 0x04#7) : candM r =
    let tl := Tail.ofCode r.tail
    let q (k : Nat) : Bool := isOne (r.qs.extractLsb' k 1)
    let x (k : Nat) : Bool := isOne (r.xm.extractLsb' k 1)
    let x2 := r.xm.extractLsb' 0 2
    let k6 := r.ks.extractLsb' 0 6
    (fn0 r.fn (.mscan r.bk k6 x2 (x 2) (q 2) tl)) := by
  unfold candM; rw [h]; rfl
theorem candM_05 (r : MRaw) (h : r.op = 0x05#7) : candM r =
    let tl := Tail.ofCode r.tail
    let x2 := r.xm.extractLsb' 0 2
    let k6 := r.ks.extractLsb' 0 6
    (if r.fn = 0 then .ok (.mcarryZ r.bk tl) else if r.fn = 1 then .ok (.mcarryLd r.bk x2 k6 tl)
    else if r.fn = 2 then .ok (.mcarrySt r.bk x2 k6 tl) else .error .unlistedFn) := by
  unfold candM; rw [h]; rfl
theorem candM_06 (r : MRaw) (h : r.op = 0x06#7) : candM r =
    let tl := Tail.ofCode r.tail
    let k5 := r.ks.extractLsb' 0 5
    (fn0 r.fn (.dclaim r.da k5 tl)) := by
  unfold candM; rw [h]; rfl
theorem candM_07 (r : MRaw) (h : r.op = 0x07#7) : candM r =
    let tl := Tail.ofCode r.tail
    let k5 := r.ks.extractLsb' 0 5
    (fn0 r.fn (.drel r.da k5 tl)) := by
  unfold candM; rw [h]; rfl
theorem candM_08 (r : MRaw) (h : r.op = 0x08#7) : candM r =
    let tl := Tail.ofCode r.tail
    (fn0 r.fn (.dqry r.ho tl)) := by
  unfold candM; rw [h]; rfl
theorem candM_0A (r : MRaw) (h : r.op = 0x0A#7) : candM r =
    let f := r.fn.toNat
    let tl := Tail.ofCode r.tail
    (req (Cost.ofFn f) .unlistedFn fun c => .ok (.mmah c r.bk r.da r.db r.ks r.ecl (isOne r.clr) (isOne r.rls) tl)) := by
  unfold candM; rw [h]; rfl
theorem candK_00 (e : CopyEng) (r : KRaw) (h : r.op = 0x00#7) : candK e r =
    let tl := Tail.ofCode r.tail
    let f := r.fn.toNat
    req r.getCnt .badOperand fun cnt =>
    (if f < 2 then .ok (.cpy e (r.fn == 1) r.hs r.hd cnt r.ch tl) else .error .unlistedFn) := by
  unfold candK; rw [h]; rfl
theorem candK_01 (e : CopyEng) (r : KRaw) (h : r.op = 0x01#7) : candK e r =
    let tl := Tail.ofCode r.tail
    let f := r.fn.toNat
    req r.getCnt .badOperand fun cnt =>
    (match e with
    | .cst => .error .unassignedOp
    | .cld => if f < 2 then .ok (.cpyf (r.fn == 1) r.hs r.hd cnt r.ch tl) else .error .unlistedFn) := by
  unfold candK; rw [h]; rfl
theorem candK_02 (e : CopyEng) (r : KRaw) (h : r.op = 0x02#7) : candK e r =
    let tl := Tail.ofCode r.tail
    let f := r.fn.toNat
    req r.getCnt .badOperand fun cnt =>
    (match e with
    | .cld => .error .unassignedOp
    | .cst =>
      if r.fn = 0 then .ok (.cred false r.hs r.hd cnt r.sq r.grp r.ch tl)
      else if r.fn = 2 then .ok (.cred true r.hs r.hd cnt r.sq r.grp r.ch tl) else .error .unlistedFn) := by
  unfold candK; rw [h]; rfl
theorem candK_03 (e : CopyEng) (r : KRaw) (h : r.op = 0x03#7) : candK e r =
    let tl := Tail.ofCode r.tail
    let f := r.fn.toNat
    req r.getCnt .badOperand fun cnt =>
    (if r.fn = 0 then .ok (.cfil e false r.hd cnt r.sq r.ch tl)
    else if r.fn = 2 then .ok (.cfil e true r.hd cnt r.sq r.ch tl) else .error .unlistedFn) := by
  unfold candK; rw [h]; rfl
theorem candK_04 (e : CopyEng) (r : KRaw) (h : r.op = 0x04#7) : candK e r =
    let tl := Tail.ofCode r.tail
    let f := r.fn.toNat
    req r.getCnt .badOperand fun cnt =>
    (if r.fn = 0 then .ok (.ctier e false r.hs r.hd cnt r.ch tl)
    else if r.fn = 2 then .ok (.ctier e true r.hs r.hd cnt r.ch tl) else .error .unlistedFn) := by
  unfold candK; rw [h]; rfl
theorem candK_05 (e : CopyEng) (r : KRaw) (h : r.op = 0x05#7) : candK e r =
    let tl := Tail.ofCode r.tail
    let f := r.fn.toNat
    req r.getCnt .badOperand fun cnt =>
    (fn0 r.fn (.ccnt e cnt tl)) := by
  unfold candK; rw [h]; rfl
theorem candF_00 (r : FRaw) (h : r.op = 0x00#7) : candF r =
    let tl := Tail.ofCode r.tail
    (fn0 r.fn (.fcfg r.ha tl)) := by
  unfold candF; rw [h]; rfl
theorem candF_01 (r : FRaw) (h : r.op = 0x01#7) : candF r =
    let tl := Tail.ofCode r.tail
    (if r.fn = 1 then .ok (.fbindC r.ha (r.port.extractLsb' 0 2) r.cnt tl)
    else if h : r.port.toNat < 12 then fn0 r.fn (.fbind r.ha ⟨r.port.toNat, h⟩ r.cnt tl) else .error .badOperand) := by
  unfold candF; rw [h]; rfl
theorem candF_02 (r : FRaw) (h : r.op = 0x02#7) : candF r =
    let tl := Tail.ofCode r.tail
    (fn0 r.fn (.fgo r.phase tl)) := by
  unfold candF; rw [h]; rfl
theorem candF_03 (r : FRaw) (h : r.op = 0x03#7) : candF r =
    let tl := Tail.ofCode r.tail
    (if r.fn = 0 then .ok (.fbar r.phase tl) else if r.fn = 1 then .ok (.fbarRec r.ha r.phase tl) else .error .unlistedFn) := by
  unfold candF; rw [h]; rfl
theorem candF_04 (r : FRaw) (h : r.op = 0x04#7) : candF r =
    let tl := Tail.ofCode r.tail
    (if r.fn = 0 then .ok (.fstop tl) else if r.fn = 1 then .ok (.fstopRec r.ha tl) else .error .unlistedFn) := by
  unfold candF; rw [h]; rfl
theorem candX_00 (r : XRaw) (h : r.op = 0x00#7) : candX r =
    (fn0 r.fn (.nop r.em)) := by
  unfold candX; rw [h]; rfl
theorem candX_01 (r : XRaw) (h : r.op = 0x01#7) : candX r =
    (req (Cond.ofCode r.cond.toNat) .badOperand fun c => fn0 r.fn (.br r.em c r.sa r.sb r.tgt)) := by
  unfold candX; rw [h]; rfl
theorem candX_02 (r : XRaw) (h : r.op = 0x02#7) : candX r =
    (if r.fn = 0 then .ok (.jmp r.em r.tgt) else if r.fn = 1 then .ok (.jmpIndirect r.em r.sa) else .error .unlistedFn) := by
  unfold candX; rw [h]; rfl
theorem candX_03 (r : XRaw) (h : r.op = 0x03#7) : candX r =
    (fn0 r.fn (.call r.em r.tgt)) := by
  unfold candX; rw [h]; rfl
theorem candX_04 (r : XRaw) (h : r.op = 0x04#7) : candX r =
    (fn0 r.fn (.ret r.em)) := by
  unfold candX; rw [h]; rfl
theorem candX_05 (r : XRaw) (h : r.op = 0x05#7) : candX r =
    (req (lvlOf r.lvl) .badOperand fun l => fn0 r.fn (.loop r.em l r.sa (isOne r.rot) r.tgt r.imm)) := by
  unfold candX; rw [h]; rfl
theorem candX_06 (r : XRaw) (h : r.op = 0x06#7) : candX r =
    (req (Cond.ofCode r.cond.toNat) .badOperand fun c => req (lvlOf r.lvl) .badOperand fun l =>
    fn0 r.fn (.brk r.em c l r.sa r.sb r.tgt)) := by
  unfold candX; rw [h]; rfl
theorem candX_07 (r : XRaw) (h : r.op = 0x07#7) : candX r =
    (if r.fn = 0 then .ok (.mode false) else if r.fn = 1 then .ok (.mode true) else .error .unlistedFn) := by
  unfold candX; rw [h]; rfl
theorem candX_08 (r : XRaw) (h : r.op = 0x08#7) : candX r =
    (fn0 r.fn (.rotset r.em r.imm)) := by
  unfold candX; rw [h]; rfl
theorem candX_09 (r : XRaw) (h : r.op = 0x09#7) : candX r =
    (if r.fn = 0 then .ok (.sync r.em) else if r.fn = 1 then .ok (.syncRetire r.em) else .error .unlistedFn) := by
  unfold candX; rw [h]; rfl

end Sys2Proof
end

