-- ==== Sys2Proof/Laws/Memory.lean ====
section
/-!
SUPPORT. Byte memories: every operation keeps the canonical form; a read after a write (log 3).
-/
namespace Sys2Proof.Machine

/-- What the canonical form says. -/
theorem Memory.wf_iff (m : Cells) :
    Memory.wf m = true ↔ m.Pairwise (fun x y => x.1 < y.1) ∧ ∀ c ∈ m, c.2 ≠ unlistedByte := by
  simp [Memory.wf]

theorem Memory.wf_nil : Memory.wf [] = true := rfl

theorem cellsOf_range (a : Nat) (bs : List Byte) : ∀ c ∈ cellsOf a bs, a ≤ c.1 ∧ c.1 < a + bs.length := by
  induction bs generalizing a with
  | nil => simp [cellsOf]
  | cons b r ih =>
    intro c hc
    unfold cellsOf at hc
    split at hc
    · have := ih _ c hc; simp; omega
    · rcases List.mem_cons.1 hc with rfl | h
      · simp
      · have := ih _ c h; simp; omega

theorem cellsOf_wf (a : Nat) (bs : List Byte) :
    (cellsOf a bs).Pairwise (fun x y => x.1 < y.1) ∧ ∀ c ∈ cellsOf a bs, c.2 ≠ unlistedByte := by
  induction bs generalizing a with
  | nil => simp [cellsOf]
  | cons b r ih =>
    unfold cellsOf
    split
    · exact ih _
    · rename_i hb
      refine ⟨List.pairwise_cons.2 ⟨fun c hc => ?_, (ih _).1⟩, ?_⟩
      · have := cellsOf_range _ _ c hc; simp; omega
      · intro c hc
        rcases List.mem_cons.1 hc with rfl | h
        · exact hb
        · exact (ih _).2 c h

/-- Writing keeps the canonical form. -/
theorem writeRun_wf (m : Cells) (a : Nat) (bs : List Byte) (h : Memory.wf m = true) : Memory.wf (writeRun m a bs) = true := by
  rw [Memory.wf_iff] at h ⊢
  have hc := cellsOf_wf a bs
  have hr := cellsOf_range a bs
  refine ⟨?_, ?_⟩
  · unfold writeRun
    refine List.pairwise_append.2 ⟨h.1.filter _, List.pairwise_append.2 ⟨hc.1, h.1.filter _, ?_⟩, ?_⟩
    · intro x hx y hy
      have := hr x hx
      simp at hy; omega
    · intro x hx y hy
      simp at hx hy
      rcases hy with hy | hy
      · have := hr y hy; omega
      · omega
  · intro c hm
    unfold writeRun at hm
    simp only [List.mem_append, List.mem_filter] at hm
    rcases hm with h1 | h1 | h1
    · exact h.2 c h1.1
    · exact hc.2 c h1
    · exact h.2 c h1.1

/-- Clearing keeps the canonical form. -/
theorem clearRange_wf (m : Cells) (a b : Nat) (h : Memory.wf m = true) : Memory.wf (clearRange m a b) = true := by
  rw [Memory.wf_iff] at h ⊢
  exact ⟨h.1.filter _, fun c hc => h.2 c (List.mem_of_mem_filter hc)⟩

theorem filter_wf (m : Cells) (p : Host.Cell → Bool) (h : Memory.wf m = true) : Memory.wf (m.filter p) = true := by
  rw [Memory.wf_iff] at h ⊢
  exact ⟨h.1.filter _, fun c hc => h.2 c (List.mem_of_mem_filter hc)⟩

theorem find_filter_ne {α : Type} (m : List (Nat × α)) (p : Nat × α → Bool) (x : Nat) (h : ∀ b, p (x, b) = false) :
    (m.filter p).find? (fun c => c.1 == x) = none := by
  rw [List.find?_eq_none]
  rintro ⟨y, b⟩ hc
  simp only [List.mem_filter] at hc
  simp only [beq_iff_eq]
  rintro rfl
  exact absurd hc.2 (by simp [h b])

theorem find_filter_eq {α : Type} (m : List (Nat × α)) (p : Nat × α → Bool) (x : Nat) (h : ∀ b, p (x, b) = true) :
    (m.filter p).find? (fun c => c.1 == x) = m.find? fun c => c.1 == x := by
  induction m with
  | nil => rfl
  | cons c r ih =>
    obtain ⟨y, b⟩ := c
    by_cases hy : y = x
    · subst hy; simp [h b]
    · by_cases hp : p (y, b) = true
      · simp [hp, hy, ih]
      · simp [hp, hy, ih]

theorem find_cellsOf (a : Nat) (bs : List Byte) (x : Nat) (h : a ≤ x ∧ x < a + bs.length) :
    readByte (cellsOf a bs) x = bs.getD (x - a) 0 := by
  unfold readByte
  induction bs generalizing a with
  | nil => simp at h; omega
  | cons b r ih =>
    by_cases hx : x = a
    · subst hx
      have hn : (cellsOf (x + 1) r).find? (fun c => c.1 == x) = none := by
        rw [List.find?_eq_none]
        intro c hc
        have := cellsOf_range _ _ c hc
        simp; omega
      by_cases hb : b = unlistedByte
      · simp only [cellsOf, if_pos hb, hn]; simp [hb]
      · simp only [cellsOf, if_neg hb]; simp
    · have h2 : a + 1 ≤ x ∧ x < a + 1 + r.length := by simp at h; omega
      have hi := ih (a + 1) h2
      have hd : (b :: r).getD (x - a) 0 = r.getD (x - (a + 1)) 0 := by
        have : x - a = x - (a + 1) + 1 := by omega
        rw [this]; rfl
      rw [hd, ← hi]
      have hax : ¬ a = x := fun e => hx e.symm
      by_cases hb : b = unlistedByte
      · simp only [cellsOf, if_pos hb]
      · simp only [cellsOf, if_neg hb]; simp [hax]

theorem find_cellsOf_out (a : Nat) (bs : List Byte) (x : Nat) (h : x < a ∨ a + bs.length ≤ x) :
    (cellsOf a bs).find? (fun c => c.1 == x) = none := by
  rw [List.find?_eq_none]
  intro c hc
  have := cellsOf_range _ _ c hc
  simp; omega

/-- A byte read after a write: of the bytes written inside the run, and as before outside it. -/
theorem readByte_writeRun (m : Cells) (a : Nat) (bs : List Byte) (x : Nat) :
    readByte (writeRun m a bs) x = if a ≤ x ∧ x < a + bs.length then bs.getD (x - a) 0 else readByte m x := by
  split_ifs with h
  · rw [← find_cellsOf a bs x h]
    unfold readByte writeRun
    rw [List.find?_append, List.find?_append, find_filter_ne m _ x (by simp; omega), find_filter_ne m _ x (by simp; omega)]
    simp
  · unfold readByte writeRun
    rw [List.find?_append, List.find?_append, find_cellsOf_out a bs x (by omega)]
    by_cases hx : x < a
    · rw [find_filter_eq m _ x (by simp; omega), find_filter_ne m _ x (by simp; omega)]
      simp
    · rw [find_filter_ne m _ x (by simp; omega), find_filter_eq m _ x (by simp; omega)]
      simp

theorem readByte_writeRun_in (m : Cells) (a : Nat) (bs : List Byte) (j : Nat) (h : j < bs.length) :
    readByte (writeRun m a bs) (a + j) = bs.getD j 0 := by
  rw [readByte_writeRun, if_pos (by omega)]; congr 1; omega

theorem readByte_writeRun_out (m : Cells) (a : Nat) (bs : List Byte) (x : Nat) (h : x < a ∨ a + bs.length ≤ x) :
    readByte (writeRun m a bs) x = readByte m x := by
  rw [readByte_writeRun, if_neg (by omega)]

theorem readByte_clearRange (m : Cells) (a b x : Nat) :
    readByte (clearRange m a b) x = if a ≤ x ∧ x < b then 0 else readByte m x := by
  unfold readByte clearRange
  split_ifs with h
  · rw [find_filter_ne m _ x (by simp; omega)]; rfl
  · rw [find_filter_eq m _ x (by simp only [Bool.or_eq_true, decide_eq_true_eq]; intro _; omega)]

/-- Two canonical memories that read alike are equal. -/
theorem Memory.ext_read (m n : Cells) (hm : Memory.wf m = true) (hn : Memory.wf n = true)
    (h : ∀ x, readByte m x = readByte n x) : m = n := by
  rw [Memory.wf_iff] at hm hn
  have key : ∀ (m : Cells), m.Pairwise (fun x y => x.1 < y.1) → ∀ c ∈ m, m.find? (fun d => d.1 == c.1) = some c := by
    intro m hp c hc
    induction m with
    | nil => simp at hc
    | cons d r ih =>
      rw [List.pairwise_cons] at hp
      rcases List.mem_cons.1 hc with rfl | h
      · simp
      · have := hp.1 c h
        have hne : ¬ d.1 = c.1 := by omega
        simp [hne, ih hp.2 h]
  have sub : ∀ m n : Cells, (m.Pairwise (fun x y => x.1 < y.1) ∧ ∀ c ∈ m, c.2 ≠ unlistedByte) →
      (∀ x, readByte m x = readByte n x) → m ⊆ n := by
    intro m n hm h c hc
    have h1 := h c.1
    unfold readByte at h1
    rw [key m hm.1 c hc] at h1
    cases hf : n.find? (fun d => d.1 == c.1) with
    | none => rw [hf] at h1; exact absurd h1 (hm.2 c hc)
    | some d =>
      rw [hf] at h1
      have hd := List.mem_of_find?_eq_some hf
      have he : d.1 = c.1 := by simpa using List.find?_some hf
      have : c = d := Prod.ext he.symm h1
      exact this ▸ hd
  have nd : ∀ m : Cells, m.Pairwise (fun x y => x.1 < y.1) → m.Nodup := fun m hp => hp.imp fun h e => by subst e; omega
  have hperm : m.Perm n := (List.perm_ext_iff_of_nodup (nd m hm.1) (nd n hn.1)).2
    fun c => ⟨fun hc => sub m n hm h hc, fun hc => sub n m hn (fun x => (h x).symm) hc⟩
  exact hperm.eq_of_pairwise (fun a b _ _ h1 h2 => by omega) hm.1 hn.1

/-- Looking an entry up in a sorted list where one entry has been put. -/
theorem find_put {α : Type} (m : List (Nat × α)) (u x : Nat) (v : α) :
    (((m.filter fun y => y.1 != u).filter fun y => decide (y.1 < u)) ++
      (u, v) :: ((m.filter fun y => y.1 != u).filter fun y => decide (u < y.1))).find? (fun y => y.1 == x) =
    if x = u then some (u, v) else m.find? fun y => y.1 == x := by
  rw [List.find?_append, List.find?_cons]
  split_ifs with hx
  · subst hx
    rw [find_filter_ne _ _ _ (by simp)]; simp
  · have hu : ¬ u = x := fun e => hx e.symm
    have hb : (u == x) = false := by simpa using hu
    simp only [hb]
    by_cases h1 : x < u
    · rw [find_filter_eq _ (fun y => decide (y.1 < u)) x (fun _ => by simpa using h1), find_filter_ne _ (fun y => decide (u < y.1)) x (fun _ => by simp; omega),
        find_filter_eq _ _ x (fun _ => by simpa using hx)]
      simp
    · rw [find_filter_ne _ (fun y => decide (y.1 < u)) x (fun _ => by simpa using h1), find_filter_eq _ (fun y => decide (u < y.1)) x (fun _ => by simp; omega),
        find_filter_eq _ _ x (fun _ => by simpa using hx)]
      simp
theorem readRun_length (m : Cells) (a n : Nat) : (readRun m a n).length = n := by simp [readRun]
theorem readRun_getD (m : Cells) (a n j : Nat) (h : j < n) : (readRun m a n).getD j 0 = readByte m (a + j) := by
  simp [readRun, h]
theorem leBytes_length (n v : Nat) : (leBytes n v).length = n := by
  induction n generalizing v with
  | zero => rfl
  | succ n ih => simp [leBytes, ih]
theorem blockBytes_length (b : BitVec 512) : (blockBytes b).length = 64 := leBytes_length _ _
theorem State.readUnit_length (s : State) (key : Option (BitVec 512)) (u : Nat) : (s.readUnit key u).length = 64 := by
  unfold State.readUnit; dsimp only; split
  · exact readRun_length ..
  · exact blockBytes_length _
theorem State.readUnit_getD (s : State) (key : Option (BitVec 512)) (a : Nat) :
    (s.readUnit key (a / 64)).getD (a % 64) 0 = s.physByte key a := by
  unfold State.physByte
  split
  · rename_i h
    unfold State.readUnit
    rw [if_pos h, readRun_getD _ _ _ _ (Nat.mod_lt _ (by omega))]; congr 1; omega
  · rfl

/-! ### Device memory under keys -/

theorem State.rekey_mem_wf (s : State) (key : Option (BitVec 512)) (u : Nat) (h : Memory.wf s.mem = true) :
    Memory.wf (s.rekey key u).mem = true := by
  unfold State.rekey; split
  · exact h
  · exact writeRun_wf _ _ _ h

theorem State.rekeyAll_mem_wf (key : Option (BitVec 512)) (us : List Nat) (s : State) (h : Memory.wf s.mem = true) :
    Memory.wf (us.foldl (fun t u => t.rekey key u) s).mem = true := by
  induction us generalizing s with
  | nil => exact h
  | cons u r ih => exact ih _ (s.rekey_mem_wf key u h)

/-- A write to device memory keeps its canonical form. -/
theorem State.writePhys_mem_wf (s : State) (key : Option (BitVec 512)) (a : Nat) (bs : List Byte) (h : Memory.wf s.mem = true) :
    Memory.wf (s.writePhys key a bs).mem = true :=
  writeRun_wf _ _ _ (State.rekeyAll_mem_wf _ _ _ h)

/-- A unit held under another key reads under that key as it did. -/
theorem State.rekey_keyOf (s : State) (key : Option (BitVec 512)) (unit u : Nat) :
    (s.rekey key unit).dev.keyOf u = if u = unit then key else s.dev.keyOf u := by
  unfold State.rekey
  split
  · rename_i h; split_ifs with hu
    · rw [hu, h]
    · rfl
  · dsimp only
    unfold Device.keyOf; dsimp only
    cases key with
    | some k => dsimp only; rw [find_put]; split_ifs <;> rfl
    | none =>
      dsimp only
      split_ifs with hu
      · subst hu; rw [find_filter_ne _ _ _ (by simp)]; rfl
      · rw [find_filter_eq _ _ _ (by simpa using hu)]
theorem State.rekey_physByte (s : State) (key : Option (BitVec 512)) (unit a : Nat) :
    (s.rekey key unit).physByte key a = s.physByte key a := by
  by_cases hk : s.dev.keyOf unit = key
  · rw [State.rekey, if_pos hk]
  · have hkey := s.rekey_keyOf key unit (a / 64)
    have hmem : (s.rekey key unit).mem = writeRun s.mem (unit * 64) (s.readUnit key unit) := by
      rw [State.rekey, if_neg hk]
    by_cases hu : a / 64 = unit
    · rw [if_pos hu] at hkey
      conv_lhs => rw [State.physByte, if_pos hkey, hmem, readByte_writeRun, State.readUnit_length, if_pos (by omega)]
      subst hu
      rw [← State.readUnit_getD]; congr 1; omega
    · rw [if_neg hu] at hkey
      have hrd : ∀ x, x / 64 = a / 64 → readByte (s.rekey key unit).mem x = readByte s.mem x := by
        intro x hx
        rw [hmem, readByte_writeRun_out _ _ _ _ (by rw [State.readUnit_length]; omega)]
      have hru : (s.rekey key unit).readUnit key (a / 64) = s.readUnit key (a / 64) := by
        unfold State.readUnit
        have : readRun (s.rekey key unit).mem (a / 64 * 64) 64 = readRun s.mem (a / 64 * 64) 64 := by
          unfold readRun
          refine List.map_congr_left fun j hj => ?_
          simp only [List.mem_range] at hj
          exact hrd _ (by omega)
        rw [this, hkey]
      rw [← State.readUnit_getD, ← State.readUnit_getD, hru]
theorem State.rekeyAll_physByte (key : Option (BitVec 512)) (us : List Nat) (s : State) (a : Nat) :
    (us.foldl (fun t u => t.rekey key u) s).physByte key a = s.physByte key a := by
  induction us generalizing s with
  | nil => rfl
  | cons u r ih => rw [List.foldl_cons, ih, State.rekey_physByte]
theorem State.rekeyAll_keyOf (key : Option (BitVec 512)) (us : List Nat) (s : State) (u : Nat) :
    (us.foldl (fun t u => t.rekey key u) s).dev.keyOf u = if u ∈ us then key else s.dev.keyOf u := by
  induction us generalizing s with
  | nil => simp
  | cons x r ih =>
    rw [List.foldl_cons, ih, State.rekey_keyOf]
    by_cases h1 : u ∈ r <;> by_cases h2 : u = x <;> simp [h1, h2]
/-- A byte read under the key of a write: of the bytes written inside the run, and as before outside it (25 R383). -/
theorem State.writePhys_physByte (s : State) (key : Option (BitVec 512)) (a : Nat) (bs : List Byte) (x : Nat) :
    (s.writePhys key a bs).physByte key x = if a ≤ x ∧ x < a + bs.length then bs.getD (x - a) 0 else s.physByte key x := by
  obtain ⟨us, hus⟩ : ∃ us, us = (List.range ((a + bs.length + 63) / 64 - a / 64)).map fun k => a / 64 + k := ⟨_, rfl⟩
  have hw : s.writePhys key a bs =
      let s1 := us.foldl (fun t u => t.rekey key u) s
      { s1 with mem := writeRun s1.mem a bs,
                dev := s1.dev.overwrite false a bs.length } := by
    rw [hus]; rfl
  rw [← State.rekeyAll_physByte key us s x, hw]
  have hk := State.rekeyAll_keyOf key us s (x / 64)
  generalize us.foldl (fun t u => t.rekey key u) s = s1 at hk ⊢
  dsimp only
  obtain ⟨t, ht⟩ : ∃ t : State, t = { s1 with mem := writeRun s1.mem a bs, dev := s1.dev.overwrite false a bs.length } := ⟨_, rfl⟩
  have hmem : t.mem = writeRun s1.mem a bs := by rw [ht]
  have hkey : ∀ u, t.dev.keyOf u = s1.dev.keyOf u := by intro u; rw [ht]; rfl
  rw [← ht]
  split_ifs with h
  · have hm : x / 64 ∈ us := by
      rw [hus]; simp only [List.mem_map, List.mem_range]
      exact ⟨x / 64 - a / 64, by omega, by omega⟩
    rw [if_pos hm] at hk
    rw [State.physByte, if_pos (by rw [hkey, hk]), hmem, readByte_writeRun, if_pos h]
  · by_cases hkk : s1.dev.keyOf (x / 64) = key
    · rw [State.physByte, State.physByte, if_pos hkk, if_pos (by rw [hkey, hkk]), hmem, readByte_writeRun, if_neg h]
    · have hm : ¬ x / 64 ∈ us := fun hm => hkk (by rw [hk, if_pos hm])
      have hd : x / 64 < a / 64 ∨ (a + bs.length + 63) / 64 ≤ x / 64 := by
        by_contra hc
        apply hm; rw [hus]; simp only [List.mem_map, List.mem_range]
        exact ⟨x / 64 - a / 64, by omega, by omega⟩
      rw [← State.readUnit_getD, ← State.readUnit_getD]
      have : readRun t.mem (x / 64 * 64) 64 = readRun s1.mem (x / 64 * 64) 64 := by
        rw [hmem]
        unfold readRun
        refine List.map_congr_left fun j hj => ?_
        simp only [List.mem_range] at hj
        rw [readByte_writeRun_out _ _ _ _ (by omega)]
      unfold State.readUnit
      rw [this, hkey]

theorem leNat_leBytes (n v : Nat) : leNat (leBytes n v) = v % 256 ^ n := by
  induction n generalizing v with
  | zero => simp [leBytes, leNat, Nat.mod_one]
  | succ n ih =>
    show v % 256 + 256 * leNat (leBytes n (v / 256)) = _
    rw [ih, Nat.pow_succ', Nat.mod_mul]
theorem State.rekeyAll_frame (key : Option (BitVec 512)) (us : List Nat) (s : State) :
    ∃ m k, us.foldl (fun t u => t.rekey key u) s = { s with mem := m, dev := { s.dev with unitKey := k } } := by
  induction us generalizing s with
  | nil => exact ⟨s.mem, s.dev.unitKey, rfl⟩
  | cons u r ih =>
    obtain ⟨m, k, h⟩ := ih (s.rekey key u)
    rw [List.foldl_cons, h]
    unfold State.rekey
    split
    · exact ⟨m, k, rfl⟩
    · exact ⟨m, k, rfl⟩
/-- A write to device memory changes the bytes, the keys they stand under, the release marks and the hidden writes alone. -/
theorem State.writePhys_frame (s : State) (key : Option (BitVec 512)) (a : Nat) (bs : List Byte) :
    ∃ m k r w, s.writePhys key a bs = { s with mem := m, dev := { s.dev with unitKey := k, marks := r, stale := w } } := by
  unfold State.writePhys
  obtain ⟨m, k, h⟩ := State.rekeyAll_frame key ((List.range ((a + bs.length + 63) / 64 - a / 64)).map fun k => a / 64 + k) s
  dsimp only
  rw [h]
  exact ⟨_, _, _, _, rfl⟩
@[simp] theorem State.writePhys_core (s : State) (key : Option (BitVec 512)) (a : Nat) (bs : List Byte) :
    (s.writePhys key a bs).core = s.core := by obtain ⟨m, k, r, w, h⟩ := s.writePhys_frame key a bs; rw [h]
@[simp] theorem State.writePhys_spad (s : State) (key : Option (BitVec 512)) (a : Nat) (bs : List Byte) :
    (s.writePhys key a bs).spad = s.spad := by obtain ⟨m, k, r, w, h⟩ := s.writePhys_frame key a bs; rw [h]
@[simp] theorem State.writePhys_cnum (s : State) (key : Option (BitVec 512)) (a : Nat) (bs : List Byte) :
    (s.writePhys key a bs).cnum = s.cnum := by obtain ⟨m, k, r, w, h⟩ := s.writePhys_frame key a bs; rw [h]
@[simp] theorem State.writePhys_others (s : State) (key : Option (BitVec 512)) (a : Nat) (bs : List Byte) :
    (s.writePhys key a bs).others = s.others := by obtain ⟨m, k, r, w, h⟩ := s.writePhys_frame key a bs; rw [h]
/-- What a byte reads as depends on the bytes and the keys they stand under alone. -/
theorem State.physByte_congr {s t : State} (hm : t.mem = s.mem) (hk : t.dev.unitKey = s.dev.unitKey)
    (key : Option (BitVec 512)) (a : Nat) : t.physByte key a = s.physByte key a := by
  have h : ∀ u, t.dev.keyOf u = s.dev.keyOf u := fun u => by unfold Device.keyOf; rw [hk]
  unfold State.physByte State.readUnit
  rw [hm, h]
@[simp] theorem State.physByte_mapCore (s : State) (f : Core → Core)
    (key : Option (BitVec 512)) (a : Nat) : (s.mapCore f).physByte key a = s.physByte key a := rfl
/-- The bytes written read back under the key of the write. -/
theorem State.readPhys_writePhys (s : State) (key : Option (BitVec 512)) (pa : Nat) (bs : List Byte) : (s.writePhys key pa bs).readPhys key pa bs.length = bs := by
  unfold State.readPhys
  apply List.ext_getElem (by simp)
  intro j h1 h2
  simp only [List.getElem_map, List.getElem_range]
  rw [State.writePhys_physByte, if_pos (by omega)]
  simp [List.getD_eq_getElem?_getD, h2]

end Sys2Proof.Machine
end

