-- ==== Sys2Proof/Laws/State.lean ====
section
/-!
SUPPORT. What each update of the state leaves: one lemma per field per update, so that no later proof unfolds a record update.
-/
namespace Sys2Proof.Machine

/-! ### State.mapCore -/

@[simp] theorem State.mapCore_core (s : State) (f : Core → Core) : (s.mapCore f).core = f s.core := rfl
@[simp] theorem State.mapCore_cnum (s : State) (f : Core → Core) : (s.mapCore f).cnum = s.cnum := rfl
@[simp] theorem State.mapCore_others (s : State) (f : Core → Core) : (s.mapCore f).others = s.others := rfl
@[simp] theorem State.mapCore_who (s : State) (f : Core → Core) : (s.mapCore f).who = s.who := rfl
@[simp] theorem State.mapCore_cur (s : State) (f : Core → Core) : (s.mapCore f).cur = s.cur := rfl
@[simp] theorem State.mapCore_mem (s : State) (f : Core → Core) : (s.mapCore f).mem = s.mem := rfl
@[simp] theorem State.mapCore_spad (s : State) (f : Core → Core) : (s.mapCore f).spad = s.spad := rfl
@[simp] theorem State.mapCore_dev (s : State) (f : Core → Core) : (s.mapCore f).dev = s.dev := rfl
@[simp] theorem State.mapCore_agenda (s : State) (f : Core → Core) : (s.mapCore f).agenda = s.agenda := rfl
@[simp] theorem State.mapCore_tick (s : State) (f : Core → Core) : (s.mapCore f).tick = s.tick := rfl

/-! ### State.mapSeq -/

@[simp] theorem State.mapSeq_core (s : State) (e : Eng) (f : Seq → Seq) :
    (s.mapSeq e f).core = { s.core with seqs := s.core.seqs.set e (f (s.core.seqs.get e)) } := rfl
@[simp] theorem State.mapSeq_cnum (s : State) (e : Eng) (f : Seq → Seq) : (s.mapSeq e f).cnum = s.cnum := rfl
@[simp] theorem State.mapSeq_others (s : State) (e : Eng) (f : Seq → Seq) : (s.mapSeq e f).others = s.others := rfl
@[simp] theorem State.mapSeq_who (s : State) (e : Eng) (f : Seq → Seq) : (s.mapSeq e f).who = s.who := rfl
@[simp] theorem State.mapSeq_cur (s : State) (e : Eng) (f : Seq → Seq) : (s.mapSeq e f).cur = s.cur := rfl
@[simp] theorem State.mapSeq_mem (s : State) (e : Eng) (f : Seq → Seq) : (s.mapSeq e f).mem = s.mem := rfl
@[simp] theorem State.mapSeq_spad (s : State) (e : Eng) (f : Seq → Seq) : (s.mapSeq e f).spad = s.spad := rfl
@[simp] theorem State.mapSeq_dev (s : State) (e : Eng) (f : Seq → Seq) : (s.mapSeq e f).dev = s.dev := rfl
@[simp] theorem State.mapSeq_agenda (s : State) (e : Eng) (f : Seq → Seq) : (s.mapSeq e f).agenda = s.agenda := rfl
@[simp] theorem State.mapSeq_tick (s : State) (e : Eng) (f : Seq → Seq) : (s.mapSeq e f).tick = s.tick := rfl

/-! ### State.complete -/

@[simp] theorem State.complete_core (s : State) (n : Nat) :
    (s.complete n).core = { s.core with seqs := s.core.seqs.set s.who { s.seq.advance with due := s.core.clockOf s.who + n } } := rfl
@[simp] theorem State.complete_cnum (s : State) (n : Nat) : (s.complete n).cnum = s.cnum := rfl
@[simp] theorem State.complete_others (s : State) (n : Nat) : (s.complete n).others = s.others := rfl
@[simp] theorem State.complete_who (s : State) (n : Nat) : (s.complete n).who = s.who := rfl
@[simp] theorem State.complete_cur (s : State) (n : Nat) : (s.complete n).cur = s.cur := rfl
@[simp] theorem State.complete_mem (s : State) (n : Nat) : (s.complete n).mem = s.mem := rfl
@[simp] theorem State.complete_spad (s : State) (n : Nat) : (s.complete n).spad = s.spad := rfl
@[simp] theorem State.complete_dev (s : State) (n : Nat) : (s.complete n).dev = s.dev := rfl
@[simp] theorem State.complete_agenda (s : State) (n : Nat) : (s.complete n).agenda = s.agenda := rfl
@[simp] theorem State.complete_tick (s : State) (n : Nat) : (s.complete n).tick = s.tick := rfl

/-! ### State.passOver -/

@[simp] theorem State.passOver_core (s : State) :
    (s.passOver).core = { s.core with seqs := s.core.seqs.set s.who s.seq.advance } := rfl
@[simp] theorem State.passOver_cnum (s : State) : (s.passOver).cnum = s.cnum := rfl
@[simp] theorem State.passOver_others (s : State) : (s.passOver).others = s.others := rfl
@[simp] theorem State.passOver_who (s : State) : (s.passOver).who = s.who := rfl
@[simp] theorem State.passOver_cur (s : State) : (s.passOver).cur = s.cur := rfl
@[simp] theorem State.passOver_mem (s : State) : (s.passOver).mem = s.mem := rfl
@[simp] theorem State.passOver_spad (s : State) : (s.passOver).spad = s.spad := rfl
@[simp] theorem State.passOver_dev (s : State) : (s.passOver).dev = s.dev := rfl
@[simp] theorem State.passOver_agenda (s : State) : (s.passOver).agenda = s.agenda := rfl
@[simp] theorem State.passOver_tick (s : State) : (s.passOver).tick = s.tick := rfl

/-! ### State.waiting -/

@[simp] theorem State.waiting_core (s : State) (w : Wait) :
    (s.waiting w).core = { s.core with seqs := s.core.seqs.set s.who { s.seq with wait := some w, tried := true } } := rfl
@[simp] theorem State.waiting_cnum (s : State) (w : Wait) : (s.waiting w).cnum = s.cnum := rfl
@[simp] theorem State.waiting_others (s : State) (w : Wait) : (s.waiting w).others = s.others := rfl
@[simp] theorem State.waiting_who (s : State) (w : Wait) : (s.waiting w).who = s.who := rfl
@[simp] theorem State.waiting_cur (s : State) (w : Wait) : (s.waiting w).cur = s.cur := rfl
@[simp] theorem State.waiting_mem (s : State) (w : Wait) : (s.waiting w).mem = s.mem := rfl
@[simp] theorem State.waiting_spad (s : State) (w : Wait) : (s.waiting w).spad = s.spad := rfl
@[simp] theorem State.waiting_dev (s : State) (w : Wait) : (s.waiting w).dev = s.dev := rfl
@[simp] theorem State.waiting_agenda (s : State) (w : Wait) : (s.waiting w).agenda = s.agenda := rfl
@[simp] theorem State.waiting_tick (s : State) (w : Wait) : (s.waiting w).tick = s.tick := rfl

/-! ### State.setA -/

@[simp] theorem State.setA_core (s : State) (r : AReg) (v : W64) :
    (s.setA r v).core = { s.core with a := s.core.a.set r.toNat v } := rfl
@[simp] theorem State.setA_cnum (s : State) (r : AReg) (v : W64) : (s.setA r v).cnum = s.cnum := rfl
@[simp] theorem State.setA_others (s : State) (r : AReg) (v : W64) : (s.setA r v).others = s.others := rfl
@[simp] theorem State.setA_who (s : State) (r : AReg) (v : W64) : (s.setA r v).who = s.who := rfl
@[simp] theorem State.setA_cur (s : State) (r : AReg) (v : W64) : (s.setA r v).cur = s.cur := rfl
@[simp] theorem State.setA_mem (s : State) (r : AReg) (v : W64) : (s.setA r v).mem = s.mem := rfl
@[simp] theorem State.setA_spad (s : State) (r : AReg) (v : W64) : (s.setA r v).spad = s.spad := rfl
@[simp] theorem State.setA_dev (s : State) (r : AReg) (v : W64) : (s.setA r v).dev = s.dev := rfl
@[simp] theorem State.setA_agenda (s : State) (r : AReg) (v : W64) : (s.setA r v).agenda = s.agenda := rfl
@[simp] theorem State.setA_tick (s : State) (r : AReg) (v : W64) : (s.setA r v).tick = s.tick := rfl

/-! ### State.pushLoad -/

@[simp] theorem State.pushLoad_core (s : State) (d : SReg) (v : W64) :
    (s.pushLoad d v).core =
      { s.core with loads := s.core.loads ++ [{ d := d, src := .done, val := v, issued := 0, lat := 0 }] } := rfl
@[simp] theorem State.pushLoad_cnum (s : State) (d : SReg) (v : W64) : (s.pushLoad d v).cnum = s.cnum := rfl
@[simp] theorem State.pushLoad_others (s : State) (d : SReg) (v : W64) : (s.pushLoad d v).others = s.others := rfl
@[simp] theorem State.pushLoad_who (s : State) (d : SReg) (v : W64) : (s.pushLoad d v).who = s.who := rfl
@[simp] theorem State.pushLoad_cur (s : State) (d : SReg) (v : W64) : (s.pushLoad d v).cur = s.cur := rfl
@[simp] theorem State.pushLoad_mem (s : State) (d : SReg) (v : W64) : (s.pushLoad d v).mem = s.mem := rfl
@[simp] theorem State.pushLoad_spad (s : State) (d : SReg) (v : W64) : (s.pushLoad d v).spad = s.spad := rfl
@[simp] theorem State.pushLoad_dev (s : State) (d : SReg) (v : W64) : (s.pushLoad d v).dev = s.dev := rfl
@[simp] theorem State.pushLoad_agenda (s : State) (d : SReg) (v : W64) : (s.pushLoad d v).agenda = s.agenda := rfl
@[simp] theorem State.pushLoad_tick (s : State) (d : SReg) (v : W64) : (s.pushLoad d v).tick = s.tick := rfl

/-! ### State.setS -/

@[simp] theorem State.setS_cnum (s : State) (r : SReg) (v : W64) : (s.setS r v).cnum = s.cnum := by unfold State.setS; split <;> rfl
@[simp] theorem State.setS_others (s : State) (r : SReg) (v : W64) :
    (s.setS r v).others = s.others := by unfold State.setS; split <;> rfl
@[simp] theorem State.setS_who (s : State) (r : SReg) (v : W64) : (s.setS r v).who = s.who := by unfold State.setS; split <;> rfl
@[simp] theorem State.setS_cur (s : State) (r : SReg) (v : W64) : (s.setS r v).cur = s.cur := by unfold State.setS; split <;> rfl
@[simp] theorem State.setS_mem (s : State) (r : SReg) (v : W64) : (s.setS r v).mem = s.mem := by unfold State.setS; split <;> rfl
@[simp] theorem State.setS_spad (s : State) (r : SReg) (v : W64) : (s.setS r v).spad = s.spad := by unfold State.setS; split <;> rfl
@[simp] theorem State.setS_dev (s : State) (r : SReg) (v : W64) : (s.setS r v).dev = s.dev := by unfold State.setS; split <;> rfl
@[simp] theorem State.setS_agenda (s : State) (r : SReg) (v : W64) :
    (s.setS r v).agenda = s.agenda := by unfold State.setS; split <;> rfl
@[simp] theorem State.setS_tick (s : State) (r : SReg) (v : W64) : (s.setS r v).tick = s.tick := by unfold State.setS; split <;> rfl
@[simp] theorem State.setS_core_task (s : State) (r : SReg) (v : W64) :
    (s.setS r v).core.task = s.core.task := by unfold State.setS; split <;> rfl
@[simp] theorem State.setS_core_seqs (s : State) (r : SReg) (v : W64) :
    (s.setS r v).core.seqs = s.core.seqs := by unfold State.setS; split <;> rfl
@[simp] theorem State.setS_core_view (s : State) (r : SReg) (v : W64) :
    (s.setS r v).core.view = s.core.view := by unfold State.setS; split <;> rfl
@[simp] theorem State.setS_core_trail (s : State) (r : SReg) (v : W64) :
    (s.setS r v).core.trail = s.core.trail := by unfold State.setS; split <;> rfl
@[simp] theorem State.setS_core_a (s : State) (r : SReg) (v : W64) :
    (s.setS r v).core.a = s.core.a := by unfold State.setS; split <;> rfl
@[simp] theorem State.setS_core_h (s : State) (r : SReg) (v : W64) :
    (s.setS r v).core.h = s.core.h := by unfold State.setS; split <;> rfl
@[simp] theorem State.setS_core_hist (s : State) (r : SReg) (v : W64) :
    (s.setS r v).core.hist = s.core.hist := by unfold State.setS; split <;> rfl
@[simp] theorem State.setS_core_hbase (s : State) (r : SReg) (v : W64) :
    (s.setS r v).core.hbase = s.core.hbase := by unfold State.setS; split <;> rfl
@[simp] theorem State.setS_core_f (s : State) (r : SReg) (v : W64) :
    (s.setS r v).core.f = s.core.f := by unfold State.setS; split <;> rfl
@[simp] theorem State.setS_core_lastc (s : State) (r : SReg) (v : W64) :
    (s.setS r v).core.lastc = s.core.lastc := by unfold State.setS; split <;> rfl
@[simp] theorem State.setS_core_scopemiss (s : State) (r : SReg) (v : W64) :
    (s.setS r v).core.scopemiss = s.core.scopemiss := by unfold State.setS; split <;> rfl
@[simp] theorem State.setS_core_nant (s : State) (r : SReg) (v : W64) :
    (s.setS r v).core.nant = s.core.nant := by unfold State.setS; split <;> rfl
@[simp] theorem State.setS_core_det (s : State) (r : SReg) (v : W64) :
    (s.setS r v).core.det = s.core.det := by unfold State.setS; split <;> rfl
@[simp] theorem State.setS_core_fixt (s : State) (r : SReg) (v : W64) :
    (s.setS r v).core.fixt = s.core.fixt := by unfold State.setS; split <;> rfl
@[simp] theorem State.setS_core_modex (s : State) (r : SReg) (v : W64) :
    (s.setS r v).core.modex = s.core.modex := by unfold State.setS; split <;> rfl
@[simp] theorem State.setS_core_nhist (s : State) (r : SReg) (v : W64) :
    (s.setS r v).core.nhist = s.core.nhist := by unfold State.setS; split <;> rfl
@[simp] theorem State.setS_core_nbase (s : State) (r : SReg) (v : W64) :
    (s.setS r v).core.nbase = s.core.nbase := by unfold State.setS; split <;> rfl
@[simp] theorem State.setS_core_slipwin (s : State) (r : SReg) (v : W64) :
    (s.setS r v).core.slipwin = s.core.slipwin := by unfold State.setS; split <;> rfl
@[simp] theorem State.setS_core_vcyc (s : State) (r : SReg) (v : W64) :
    (s.setS r v).core.vcyc = s.core.vcyc := by unfold State.setS; split <;> rfl
@[simp] theorem State.setS_core_cycle (s : State) (r : SReg) (v : W64) :
    (s.setS r v).core.cycle = s.core.cycle := by unfold State.setS; split <;> rfl
@[simp] theorem State.setS_core_ebudget (s : State) (r : SReg) (v : W64) :
    (s.setS r v).core.ebudget = s.core.ebudget := by unfold State.setS; split <;> rfl
@[simp] theorem State.setS_core_erefill (s : State) (r : SReg) (v : W64) :
    (s.setS r v).core.erefill = s.core.erefill := by unfold State.setS; split <;> rfl
@[simp] theorem State.setS_core_legacycnt (s : State) (r : SReg) (v : W64) :
    (s.setS r v).core.legacycnt = s.core.legacycnt := by unfold State.setS; split <;> rfl
@[simp] theorem State.setS_core_trapEn (s : State) (r : SReg) (v : W64) :
    (s.setS r v).core.trapEn = s.core.trapEn := by unfold State.setS; split <;> rfl
@[simp] theorem State.setS_core_trapBlk (s : State) (r : SReg) (v : W64) :
    (s.setS r v).core.trapBlk = s.core.trapBlk := by unfold State.setS; split <;> rfl
@[simp] theorem State.setS_core_traprec (s : State) (r : SReg) (v : W64) :
    (s.setS r v).core.traprec = s.core.traprec := by unfold State.setS; split <;> rfl
@[simp] theorem State.setS_core_savemap (s : State) (r : SReg) (v : W64) :
    (s.setS r v).core.savemap = s.core.savemap := by unfold State.setS; split <;> rfl
@[simp] theorem State.setS_core_wptr (s : State) (r : SReg) (v : W64) :
    (s.setS r v).core.wptr = s.core.wptr := by unfold State.setS; split <;> rfl
@[simp] theorem State.setS_core_loads (s : State) (r : SReg) (v : W64) :
    (s.setS r v).core.loads = s.core.loads := by unfold State.setS; split <;> rfl
@[simp] theorem State.setS_core_stores (s : State) (r : SReg) (v : W64) :
    (s.setS r v).core.stores = s.core.stores := by unfold State.setS; split <;> rfl
@[simp] theorem State.setS_core_replies (s : State) (r : SReg) (v : W64) :
    (s.setS r v).core.replies = s.core.replies := by unfold State.setS; split <;> rfl
@[simp] theorem State.setS_core_freplies (s : State) (r : SReg) (v : W64) :
    (s.setS r v).core.freplies = s.core.freplies := by unfold State.setS; split <;> rfl
@[simp] theorem State.setS_core_fences (s : State) (r : SReg) (v : W64) :
    (s.setS r v).core.fences = s.core.fences := by unfold State.setS; split <;> rfl
@[simp] theorem State.setS_core_fenceRel (s : State) (r : SReg) (v : W64) :
    (s.setS r v).core.fenceRel = s.core.fenceRel := by unfold State.setS; split <;> rfl
@[simp] theorem State.setS_core_seen (s : State) (r : SReg) (v : W64) :
    (s.setS r v).core.seen = s.core.seen := by unfold State.setS; split <;> rfl
@[simp] theorem State.setS_core_tags (s : State) (r : SReg) (v : W64) :
    (s.setS r v).core.tags = s.core.tags := by unfold State.setS; split <;> rfl
@[simp] theorem State.setS_core_queues (s : State) (r : SReg) (v : W64) :
    (s.setS r v).core.queues = s.core.queues := by unfold State.setS; split <;> rfl
@[simp] theorem State.setS_core_flights (s : State) (r : SReg) (v : W64) :
    (s.setS r v).core.flights = s.core.flights := by unfold State.setS; split <;> rfl
@[simp] theorem State.setS_core_nextId (s : State) (r : SReg) (v : W64) :
    (s.setS r v).core.nextId = s.core.nextId := by unfold State.setS; split <;> rfl
@[simp] theorem State.setS_core_defPosts (s : State) (r : SReg) (v : W64) :
    (s.setS r v).core.defPosts = s.core.defPosts := by unfold State.setS; split <;> rfl
@[simp] theorem State.setS_core_pend (s : State) (r : SReg) (v : W64) :
    (s.setS r v).core.pend = s.core.pend := by unfold State.setS; split <;> rfl
@[simp] theorem State.setS_core_banks (s : State) (r : SReg) (v : W64) :
    (s.setS r v).core.banks = s.core.banks := by unfold State.setS; split <;> rfl
@[simp] theorem State.setS_core_carries (s : State) (r : SReg) (v : W64) :
    (s.setS r v).core.carries = s.core.carries := by unfold State.setS; split <;> rfl
@[simp] theorem State.setS_core_drawers (s : State) (r : SReg) (v : W64) :
    (s.setS r v).core.drawers = s.core.drawers := by unfold State.setS; split <;> rfl
@[simp] theorem State.setS_core_claimed (s : State) (r : SReg) (v : W64) :
    (s.setS r v).core.claimed = s.core.claimed := by unfold State.setS; split <;> rfl
@[simp] theorem State.setS_core_cld (s : State) (r : SReg) (v : W64) :
    (s.setS r v).core.cld = s.core.cld := by unfold State.setS; split <;> rfl
@[simp] theorem State.setS_core_cst (s : State) (r : SReg) (v : W64) :
    (s.setS r v).core.cst = s.core.cst := by unfold State.setS; split <;> rfl
@[simp] theorem State.setS_core_order (s : State) (r : SReg) (v : W64) :
    (s.setS r v).core.order = s.core.order := by unfold State.setS; split <;> rfl
@[simp] theorem State.setS_core_chans (s : State) (r : SReg) (v : W64) :
    (s.setS r v).core.chans = s.core.chans := by unfold State.setS; split <;> rfl
@[simp] theorem State.setS_core_wpDone (s : State) (r : SReg) (v : W64) :
    (s.setS r v).core.wpDone = s.core.wpDone := by unfold State.setS; split <;> rfl
@[simp] theorem State.setS_core_fabric (s : State) (r : SReg) (v : W64) :
    (s.setS r v).core.fabric = s.core.fabric := by unfold State.setS; split <;> rfl
@[simp] theorem State.setS_core_rules (s : State) (r : SReg) (v : W64) :
    (s.setS r v).core.rules = s.core.rules := by unfold State.setS; split <;> rfl
@[simp] theorem State.setS_core_recs (s : State) (r : SReg) (v : W64) :
    (s.setS r v).core.recs = s.core.recs := by unfold State.setS; split <;> rfl
@[simp] theorem State.setS_core_ruleSeq (s : State) (r : SReg) (v : W64) :
    (s.setS r v).core.ruleSeq = s.core.ruleSeq := by unfold State.setS; split <;> rfl
@[simp] theorem State.setS_core_bindings (s : State) (r : SReg) (v : W64) :
    (s.setS r v).core.bindings = s.core.bindings := by unfold State.setS; split <;> rfl
@[simp] theorem State.setS_core_aside (s : State) (r : SReg) (v : W64) :
    (s.setS r v).core.aside = s.core.aside := by unfold State.setS; split <;> rfl
@[simp] theorem State.setS_core_bars (s : State) (r : SReg) (v : W64) :
    (s.setS r v).core.bars = s.core.bars := by unfold State.setS; split <;> rfl
@[simp] theorem State.setS_core_arrived (s : State) (r : SReg) (v : W64) :
    (s.setS r v).core.arrived = s.core.arrived := by unfold State.setS; split <;> rfl
@[simp] theorem State.setS_core_halt (s : State) (r : SReg) (v : W64) :
    (s.setS r v).core.halt = s.core.halt := by unfold State.setS; split <;> rfl
@[simp] theorem State.setS_core_feet (s : State) (r : SReg) (v : W64) :
    (s.setS r v).core.feet = s.core.feet := by unfold State.setS; split <;> rfl
@[simp] theorem State.setS_core_bad (s : State) (r : SReg) (v : W64) :
    (s.setS r v).core.bad = s.core.bad := by unfold State.setS; split <;> rfl
@[simp] theorem State.setS_core_escal (s : State) (r : SReg) (v : W64) :
    (s.setS r v).core.escal = s.core.escal := by unfold State.setS; split <;> rfl
@[simp] theorem State.setS_core_draining (s : State) (r : SReg) (v : W64) :
    (s.setS r v).core.draining = s.core.draining := by unfold State.setS; split <;> rfl
@[simp] theorem State.setS_core_eperiod (s : State) (r : SReg) (v : W64) :
    (s.setS r v).core.eperiod = s.core.eperiod := by unfold State.setS; split <;> rfl
@[simp] theorem State.setS_core_exch (s : State) (r : SReg) (v : W64) :
    (s.setS r v).core.exch = s.core.exch := by unfold State.setS; split <;> rfl
@[simp] theorem State.setS_core_declared (s : State) (r : SReg) (v : W64) :
    (s.setS r v).core.declared = s.core.declared := by unfold State.setS; split <;> rfl
@[simp] theorem State.setS_core_opened (s : State) (r : SReg) (v : W64) :
    (s.setS r v).core.opened = s.core.opened := by unfold State.setS; split <;> rfl

/-! ### State.putS -/

@[simp] theorem State.putS_cnum (s : State) (r : SReg) (v : W64) : (s.putS r v).cnum = s.cnum := by simp [State.putS]
@[simp] theorem State.putS_others (s : State) (r : SReg) (v : W64) : (s.putS r v).others = s.others := by simp [State.putS]
@[simp] theorem State.putS_who (s : State) (r : SReg) (v : W64) : (s.putS r v).who = s.who := by simp [State.putS]
@[simp] theorem State.putS_cur (s : State) (r : SReg) (v : W64) : (s.putS r v).cur = s.cur := by simp [State.putS]
@[simp] theorem State.putS_mem (s : State) (r : SReg) (v : W64) : (s.putS r v).mem = s.mem := by simp [State.putS]
@[simp] theorem State.putS_spad (s : State) (r : SReg) (v : W64) : (s.putS r v).spad = s.spad := by simp [State.putS]
@[simp] theorem State.putS_dev (s : State) (r : SReg) (v : W64) : (s.putS r v).dev = s.dev := by simp [State.putS]
@[simp] theorem State.putS_agenda (s : State) (r : SReg) (v : W64) : (s.putS r v).agenda = s.agenda := by simp [State.putS]
@[simp] theorem State.putS_tick (s : State) (r : SReg) (v : W64) : (s.putS r v).tick = s.tick := by simp [State.putS]
@[simp] theorem State.putS_core_task (s : State) (r : SReg) (v : W64) : (s.putS r v).core.task = s.core.task := by simp [State.putS]
@[simp] theorem State.putS_core_view (s : State) (r : SReg) (v : W64) : (s.putS r v).core.view = s.core.view := by simp [State.putS]
@[simp] theorem State.putS_core_trail (s : State) (r : SReg) (v : W64) :
    (s.putS r v).core.trail = s.core.trail := by simp [State.putS]
@[simp] theorem State.putS_core_a (s : State) (r : SReg) (v : W64) : (s.putS r v).core.a = s.core.a := by simp [State.putS]
@[simp] theorem State.putS_core_h (s : State) (r : SReg) (v : W64) : (s.putS r v).core.h = s.core.h := by simp [State.putS]
@[simp] theorem State.putS_core_hist (s : State) (r : SReg) (v : W64) : (s.putS r v).core.hist = s.core.hist := by simp [State.putS]
@[simp] theorem State.putS_core_hbase (s : State) (r : SReg) (v : W64) :
    (s.putS r v).core.hbase = s.core.hbase := by simp [State.putS]
@[simp] theorem State.putS_core_f (s : State) (r : SReg) (v : W64) : (s.putS r v).core.f = s.core.f := by simp [State.putS]
@[simp] theorem State.putS_core_lastc (s : State) (r : SReg) (v : W64) :
    (s.putS r v).core.lastc = s.core.lastc := by simp [State.putS]
@[simp] theorem State.putS_core_scopemiss (s : State) (r : SReg) (v : W64) :
    (s.putS r v).core.scopemiss = s.core.scopemiss := by simp [State.putS]
@[simp] theorem State.putS_core_nant (s : State) (r : SReg) (v : W64) : (s.putS r v).core.nant = s.core.nant := by simp [State.putS]
@[simp] theorem State.putS_core_det (s : State) (r : SReg) (v : W64) : (s.putS r v).core.det = s.core.det := by simp [State.putS]
@[simp] theorem State.putS_core_fixt (s : State) (r : SReg) (v : W64) : (s.putS r v).core.fixt = s.core.fixt := by simp [State.putS]
@[simp] theorem State.putS_core_modex (s : State) (r : SReg) (v : W64) :
    (s.putS r v).core.modex = s.core.modex := by simp [State.putS]
@[simp] theorem State.putS_core_nhist (s : State) (r : SReg) (v : W64) :
    (s.putS r v).core.nhist = s.core.nhist := by simp [State.putS]
@[simp] theorem State.putS_core_nbase (s : State) (r : SReg) (v : W64) :
    (s.putS r v).core.nbase = s.core.nbase := by simp [State.putS]
@[simp] theorem State.putS_core_slipwin (s : State) (r : SReg) (v : W64) :
    (s.putS r v).core.slipwin = s.core.slipwin := by simp [State.putS]
@[simp] theorem State.putS_core_vcyc (s : State) (r : SReg) (v : W64) : (s.putS r v).core.vcyc = s.core.vcyc := by simp [State.putS]
@[simp] theorem State.putS_core_cycle (s : State) (r : SReg) (v : W64) :
    (s.putS r v).core.cycle = s.core.cycle := by simp [State.putS]
@[simp] theorem State.putS_core_ebudget (s : State) (r : SReg) (v : W64) :
    (s.putS r v).core.ebudget = s.core.ebudget := by simp [State.putS]
@[simp] theorem State.putS_core_erefill (s : State) (r : SReg) (v : W64) :
    (s.putS r v).core.erefill = s.core.erefill := by simp [State.putS]
@[simp] theorem State.putS_core_legacycnt (s : State) (r : SReg) (v : W64) :
    (s.putS r v).core.legacycnt = s.core.legacycnt := by simp [State.putS]
@[simp] theorem State.putS_core_trapEn (s : State) (r : SReg) (v : W64) :
    (s.putS r v).core.trapEn = s.core.trapEn := by simp [State.putS]
@[simp] theorem State.putS_core_trapBlk (s : State) (r : SReg) (v : W64) :
    (s.putS r v).core.trapBlk = s.core.trapBlk := by simp [State.putS]
@[simp] theorem State.putS_core_traprec (s : State) (r : SReg) (v : W64) :
    (s.putS r v).core.traprec = s.core.traprec := by simp [State.putS]
@[simp] theorem State.putS_core_savemap (s : State) (r : SReg) (v : W64) :
    (s.putS r v).core.savemap = s.core.savemap := by simp [State.putS]
@[simp] theorem State.putS_core_wptr (s : State) (r : SReg) (v : W64) : (s.putS r v).core.wptr = s.core.wptr := by simp [State.putS]
@[simp] theorem State.putS_core_loads (s : State) (r : SReg) (v : W64) :
    (s.putS r v).core.loads = s.core.loads := by simp [State.putS]
@[simp] theorem State.putS_core_stores (s : State) (r : SReg) (v : W64) :
    (s.putS r v).core.stores = s.core.stores := by simp [State.putS]
@[simp] theorem State.putS_core_replies (s : State) (r : SReg) (v : W64) :
    (s.putS r v).core.replies = s.core.replies := by simp [State.putS]
@[simp] theorem State.putS_core_freplies (s : State) (r : SReg) (v : W64) :
    (s.putS r v).core.freplies = s.core.freplies := by simp [State.putS]
@[simp] theorem State.putS_core_fences (s : State) (r : SReg) (v : W64) :
    (s.putS r v).core.fences = s.core.fences := by simp [State.putS]
@[simp] theorem State.putS_core_fenceRel (s : State) (r : SReg) (v : W64) :
    (s.putS r v).core.fenceRel = s.core.fenceRel := by simp [State.putS]
@[simp] theorem State.putS_core_seen (s : State) (r : SReg) (v : W64) : (s.putS r v).core.seen = s.core.seen := by simp [State.putS]
@[simp] theorem State.putS_core_tags (s : State) (r : SReg) (v : W64) : (s.putS r v).core.tags = s.core.tags := by simp [State.putS]
@[simp] theorem State.putS_core_queues (s : State) (r : SReg) (v : W64) :
    (s.putS r v).core.queues = s.core.queues := by simp [State.putS]
@[simp] theorem State.putS_core_flights (s : State) (r : SReg) (v : W64) :
    (s.putS r v).core.flights = s.core.flights := by simp [State.putS]
@[simp] theorem State.putS_core_nextId (s : State) (r : SReg) (v : W64) :
    (s.putS r v).core.nextId = s.core.nextId := by simp [State.putS]
@[simp] theorem State.putS_core_defPosts (s : State) (r : SReg) (v : W64) :
    (s.putS r v).core.defPosts = s.core.defPosts := by simp [State.putS]
@[simp] theorem State.putS_core_pend (s : State) (r : SReg) (v : W64) : (s.putS r v).core.pend = s.core.pend := by simp [State.putS]
@[simp] theorem State.putS_core_banks (s : State) (r : SReg) (v : W64) :
    (s.putS r v).core.banks = s.core.banks := by simp [State.putS]
@[simp] theorem State.putS_core_carries (s : State) (r : SReg) (v : W64) :
    (s.putS r v).core.carries = s.core.carries := by simp [State.putS]
@[simp] theorem State.putS_core_drawers (s : State) (r : SReg) (v : W64) :
    (s.putS r v).core.drawers = s.core.drawers := by simp [State.putS]
@[simp] theorem State.putS_core_claimed (s : State) (r : SReg) (v : W64) :
    (s.putS r v).core.claimed = s.core.claimed := by simp [State.putS]
@[simp] theorem State.putS_core_cld (s : State) (r : SReg) (v : W64) : (s.putS r v).core.cld = s.core.cld := by simp [State.putS]
@[simp] theorem State.putS_core_cst (s : State) (r : SReg) (v : W64) : (s.putS r v).core.cst = s.core.cst := by simp [State.putS]
@[simp] theorem State.putS_core_order (s : State) (r : SReg) (v : W64) :
    (s.putS r v).core.order = s.core.order := by simp [State.putS]
@[simp] theorem State.putS_core_chans (s : State) (r : SReg) (v : W64) :
    (s.putS r v).core.chans = s.core.chans := by simp [State.putS]
@[simp] theorem State.putS_core_wpDone (s : State) (r : SReg) (v : W64) :
    (s.putS r v).core.wpDone = s.core.wpDone := by simp [State.putS]
@[simp] theorem State.putS_core_fabric (s : State) (r : SReg) (v : W64) :
    (s.putS r v).core.fabric = s.core.fabric := by simp [State.putS]
@[simp] theorem State.putS_core_rules (s : State) (r : SReg) (v : W64) :
    (s.putS r v).core.rules = s.core.rules := by simp [State.putS]
@[simp] theorem State.putS_core_recs (s : State) (r : SReg) (v : W64) : (s.putS r v).core.recs = s.core.recs := by simp [State.putS]
@[simp] theorem State.putS_core_ruleSeq (s : State) (r : SReg) (v : W64) :
    (s.putS r v).core.ruleSeq = s.core.ruleSeq := by simp [State.putS]
@[simp] theorem State.putS_core_bindings (s : State) (r : SReg) (v : W64) :
    (s.putS r v).core.bindings = s.core.bindings := by simp [State.putS]
@[simp] theorem State.putS_core_aside (s : State) (r : SReg) (v : W64) :
    (s.putS r v).core.aside = s.core.aside := by simp [State.putS]
@[simp] theorem State.putS_core_bars (s : State) (r : SReg) (v : W64) : (s.putS r v).core.bars = s.core.bars := by simp [State.putS]
@[simp] theorem State.putS_core_arrived (s : State) (r : SReg) (v : W64) :
    (s.putS r v).core.arrived = s.core.arrived := by simp [State.putS]
@[simp] theorem State.putS_core_halt (s : State) (r : SReg) (v : W64) : (s.putS r v).core.halt = s.core.halt := by simp [State.putS]
@[simp] theorem State.putS_core_feet (s : State) (r : SReg) (v : W64) : (s.putS r v).core.feet = s.core.feet := by simp [State.putS]
@[simp] theorem State.putS_core_bad (s : State) (r : SReg) (v : W64) : (s.putS r v).core.bad = s.core.bad := by simp [State.putS]
@[simp] theorem State.putS_core_escal (s : State) (r : SReg) (v : W64) :
    (s.putS r v).core.escal = s.core.escal := by simp [State.putS]
@[simp] theorem State.putS_core_draining (s : State) (r : SReg) (v : W64) :
    (s.putS r v).core.draining = s.core.draining := by simp [State.putS]
@[simp] theorem State.putS_core_eperiod (s : State) (r : SReg) (v : W64) :
    (s.putS r v).core.eperiod = s.core.eperiod := by simp [State.putS]
@[simp] theorem State.putS_core_exch (s : State) (r : SReg) (v : W64) : (s.putS r v).core.exch = s.core.exch := by simp [State.putS]
@[simp] theorem State.putS_core_declared (s : State) (r : SReg) (v : W64) :
    (s.putS r v).core.declared = s.core.declared := by simp [State.putS]
@[simp] theorem State.putS_core_opened (s : State) (r : SReg) (v : W64) :
    (s.putS r v).core.opened = s.core.opened := by simp [State.putS]

/-! ### State.mapDev -/

@[simp] theorem State.mapDev_core (s : State) (f : Device → Device) : (s.mapDev f).core = s.core := rfl
@[simp] theorem State.mapDev_cnum (s : State) (f : Device → Device) : (s.mapDev f).cnum = s.cnum := rfl
@[simp] theorem State.mapDev_others (s : State) (f : Device → Device) : (s.mapDev f).others = s.others := rfl
@[simp] theorem State.mapDev_who (s : State) (f : Device → Device) : (s.mapDev f).who = s.who := rfl
@[simp] theorem State.mapDev_cur (s : State) (f : Device → Device) : (s.mapDev f).cur = s.cur := rfl
@[simp] theorem State.mapDev_mem (s : State) (f : Device → Device) : (s.mapDev f).mem = s.mem := rfl
@[simp] theorem State.mapDev_spad (s : State) (f : Device → Device) : (s.mapDev f).spad = s.spad := rfl
@[simp] theorem State.mapDev_dev (s : State) (f : Device → Device) : (s.mapDev f).dev = f s.dev := rfl
@[simp] theorem State.mapDev_agenda (s : State) (f : Device → Device) : (s.mapDev f).agenda = s.agenda := rfl
@[simp] theorem State.mapDev_tick (s : State) (f : Device → Device) : (s.mapDev f).tick = s.tick := rfl

/-! ### Core.setFlag -/

@[simp] theorem Core.setFlag_task (c : Core) (f : FlagNo) (n : Nat) : (c.setFlag f n).task = c.task := rfl
@[simp] theorem Core.setFlag_seqs (c : Core) (f : FlagNo) (n : Nat) : (c.setFlag f n).seqs = c.seqs := rfl
@[simp] theorem Core.setFlag_view (c : Core) (f : FlagNo) (n : Nat) : (c.setFlag f n).view = c.view := rfl
@[simp] theorem Core.setFlag_trail (c : Core) (f : FlagNo) (n : Nat) : (c.setFlag f n).trail = c.trail := rfl
@[simp] theorem Core.setFlag_s (c : Core) (f : FlagNo) (n : Nat) : (c.setFlag f n).s = c.s := rfl
@[simp] theorem Core.setFlag_a (c : Core) (f : FlagNo) (n : Nat) : (c.setFlag f n).a = c.a := rfl
@[simp] theorem Core.setFlag_h (c : Core) (f : FlagNo) (n : Nat) : (c.setFlag f n).h = c.h := rfl
@[simp] theorem Core.setFlag_hist (c : Core) (f : FlagNo) (n : Nat) : (c.setFlag f n).hist = c.hist := rfl
@[simp] theorem Core.setFlag_hbase (c : Core) (f : FlagNo) (n : Nat) : (c.setFlag f n).hbase = c.hbase := rfl
@[simp] theorem Core.setFlag_lastc (c : Core) (f : FlagNo) (n : Nat) : (c.setFlag f n).lastc = c.lastc := rfl
@[simp] theorem Core.setFlag_scopemiss (c : Core) (f : FlagNo) (n : Nat) : (c.setFlag f n).scopemiss = c.scopemiss := rfl
@[simp] theorem Core.setFlag_nant (c : Core) (f : FlagNo) (n : Nat) : (c.setFlag f n).nant = c.nant := rfl
@[simp] theorem Core.setFlag_det (c : Core) (f : FlagNo) (n : Nat) : (c.setFlag f n).det = c.det := rfl
@[simp] theorem Core.setFlag_fixt (c : Core) (f : FlagNo) (n : Nat) : (c.setFlag f n).fixt = c.fixt := rfl
@[simp] theorem Core.setFlag_modex (c : Core) (f : FlagNo) (n : Nat) : (c.setFlag f n).modex = c.modex := rfl
@[simp] theorem Core.setFlag_nhist (c : Core) (f : FlagNo) (n : Nat) : (c.setFlag f n).nhist = c.nhist := rfl
@[simp] theorem Core.setFlag_nbase (c : Core) (f : FlagNo) (n : Nat) : (c.setFlag f n).nbase = c.nbase := rfl
@[simp] theorem Core.setFlag_slipwin (c : Core) (f : FlagNo) (n : Nat) : (c.setFlag f n).slipwin = c.slipwin := rfl
@[simp] theorem Core.setFlag_vcyc (c : Core) (f : FlagNo) (n : Nat) : (c.setFlag f n).vcyc = c.vcyc := rfl
@[simp] theorem Core.setFlag_cycle (c : Core) (f : FlagNo) (n : Nat) : (c.setFlag f n).cycle = c.cycle := rfl
@[simp] theorem Core.setFlag_ebudget (c : Core) (f : FlagNo) (n : Nat) : (c.setFlag f n).ebudget = c.ebudget := rfl
@[simp] theorem Core.setFlag_erefill (c : Core) (f : FlagNo) (n : Nat) : (c.setFlag f n).erefill = c.erefill := rfl
@[simp] theorem Core.setFlag_legacycnt (c : Core) (f : FlagNo) (n : Nat) : (c.setFlag f n).legacycnt = c.legacycnt := rfl
@[simp] theorem Core.setFlag_trapEn (c : Core) (f : FlagNo) (n : Nat) : (c.setFlag f n).trapEn = c.trapEn := rfl
@[simp] theorem Core.setFlag_trapBlk (c : Core) (f : FlagNo) (n : Nat) : (c.setFlag f n).trapBlk = c.trapBlk := rfl
@[simp] theorem Core.setFlag_traprec (c : Core) (f : FlagNo) (n : Nat) : (c.setFlag f n).traprec = c.traprec := rfl
@[simp] theorem Core.setFlag_savemap (c : Core) (f : FlagNo) (n : Nat) : (c.setFlag f n).savemap = c.savemap := rfl
@[simp] theorem Core.setFlag_wptr (c : Core) (f : FlagNo) (n : Nat) : (c.setFlag f n).wptr = c.wptr := rfl
@[simp] theorem Core.setFlag_loads (c : Core) (f : FlagNo) (n : Nat) : (c.setFlag f n).loads = c.loads := rfl
@[simp] theorem Core.setFlag_stores (c : Core) (f : FlagNo) (n : Nat) : (c.setFlag f n).stores = c.stores := rfl
@[simp] theorem Core.setFlag_replies (c : Core) (f : FlagNo) (n : Nat) : (c.setFlag f n).replies = c.replies := rfl
@[simp] theorem Core.setFlag_freplies (c : Core) (f : FlagNo) (n : Nat) : (c.setFlag f n).freplies = c.freplies := rfl
@[simp] theorem Core.setFlag_fences (c : Core) (f : FlagNo) (n : Nat) : (c.setFlag f n).fences = c.fences := rfl
@[simp] theorem Core.setFlag_fenceRel (c : Core) (f : FlagNo) (n : Nat) : (c.setFlag f n).fenceRel = c.fenceRel := rfl
@[simp] theorem Core.setFlag_seen (c : Core) (f : FlagNo) (n : Nat) : (c.setFlag f n).seen = c.seen := rfl
@[simp] theorem Core.setFlag_tags (c : Core) (f : FlagNo) (n : Nat) : (c.setFlag f n).tags = c.tags := rfl
@[simp] theorem Core.setFlag_queues (c : Core) (f : FlagNo) (n : Nat) : (c.setFlag f n).queues = c.queues := rfl
@[simp] theorem Core.setFlag_flights (c : Core) (f : FlagNo) (n : Nat) : (c.setFlag f n).flights = c.flights := rfl
@[simp] theorem Core.setFlag_nextId (c : Core) (f : FlagNo) (n : Nat) : (c.setFlag f n).nextId = c.nextId := rfl
@[simp] theorem Core.setFlag_defPosts (c : Core) (f : FlagNo) (n : Nat) : (c.setFlag f n).defPosts = c.defPosts := rfl
@[simp] theorem Core.setFlag_pend (c : Core) (f : FlagNo) (n : Nat) : (c.setFlag f n).pend = c.pend := rfl
@[simp] theorem Core.setFlag_banks (c : Core) (f : FlagNo) (n : Nat) : (c.setFlag f n).banks = c.banks := rfl
@[simp] theorem Core.setFlag_carries (c : Core) (f : FlagNo) (n : Nat) : (c.setFlag f n).carries = c.carries := rfl
@[simp] theorem Core.setFlag_drawers (c : Core) (f : FlagNo) (n : Nat) : (c.setFlag f n).drawers = c.drawers := rfl
@[simp] theorem Core.setFlag_claimed (c : Core) (f : FlagNo) (n : Nat) : (c.setFlag f n).claimed = c.claimed := rfl
@[simp] theorem Core.setFlag_cld (c : Core) (f : FlagNo) (n : Nat) : (c.setFlag f n).cld = c.cld := rfl
@[simp] theorem Core.setFlag_cst (c : Core) (f : FlagNo) (n : Nat) : (c.setFlag f n).cst = c.cst := rfl
@[simp] theorem Core.setFlag_order (c : Core) (f : FlagNo) (n : Nat) : (c.setFlag f n).order = c.order := rfl
@[simp] theorem Core.setFlag_chans (c : Core) (f : FlagNo) (n : Nat) : (c.setFlag f n).chans = c.chans := rfl
@[simp] theorem Core.setFlag_wpDone (c : Core) (f : FlagNo) (n : Nat) : (c.setFlag f n).wpDone = c.wpDone := rfl
@[simp] theorem Core.setFlag_fabric (c : Core) (f : FlagNo) (n : Nat) : (c.setFlag f n).fabric = c.fabric := rfl
@[simp] theorem Core.setFlag_rules (c : Core) (f : FlagNo) (n : Nat) : (c.setFlag f n).rules = c.rules := rfl
@[simp] theorem Core.setFlag_recs (c : Core) (f : FlagNo) (n : Nat) : (c.setFlag f n).recs = c.recs := rfl
@[simp] theorem Core.setFlag_ruleSeq (c : Core) (f : FlagNo) (n : Nat) : (c.setFlag f n).ruleSeq = c.ruleSeq := rfl
@[simp] theorem Core.setFlag_bindings (c : Core) (f : FlagNo) (n : Nat) : (c.setFlag f n).bindings = c.bindings := rfl
@[simp] theorem Core.setFlag_aside (c : Core) (f : FlagNo) (n : Nat) : (c.setFlag f n).aside = c.aside := rfl
@[simp] theorem Core.setFlag_bars (c : Core) (f : FlagNo) (n : Nat) : (c.setFlag f n).bars = c.bars := rfl
@[simp] theorem Core.setFlag_arrived (c : Core) (f : FlagNo) (n : Nat) : (c.setFlag f n).arrived = c.arrived := rfl
@[simp] theorem Core.setFlag_halt (c : Core) (f : FlagNo) (n : Nat) : (c.setFlag f n).halt = c.halt := rfl
@[simp] theorem Core.setFlag_feet (c : Core) (f : FlagNo) (n : Nat) : (c.setFlag f n).feet = c.feet := rfl
@[simp] theorem Core.setFlag_bad (c : Core) (f : FlagNo) (n : Nat) : (c.setFlag f n).bad = c.bad := rfl
@[simp] theorem Core.setFlag_escal (c : Core) (f : FlagNo) (n : Nat) : (c.setFlag f n).escal = c.escal := rfl
@[simp] theorem Core.setFlag_draining (c : Core) (f : FlagNo) (n : Nat) : (c.setFlag f n).draining = c.draining := rfl
@[simp] theorem Core.setFlag_eperiod (c : Core) (f : FlagNo) (n : Nat) : (c.setFlag f n).eperiod = c.eperiod := rfl
@[simp] theorem Core.setFlag_exch (c : Core) (f : FlagNo) (n : Nat) : (c.setFlag f n).exch = c.exch := rfl
@[simp] theorem Core.setFlag_declared (c : Core) (f : FlagNo) (n : Nat) : (c.setFlag f n).declared = c.declared := rfl
@[simp] theorem Core.setFlag_opened (c : Core) (f : FlagNo) (n : Nat) : (c.setFlag f n).opened = c.opened := rfl

/-! ### Core.mapRec -/

@[simp] theorem Core.mapRec_task (c : Core) (n : Nat) (g : OpenRec → OpenRec) : (c.mapRec n g).task = c.task := rfl
@[simp] theorem Core.mapRec_seqs (c : Core) (n : Nat) (g : OpenRec → OpenRec) : (c.mapRec n g).seqs = c.seqs := rfl
@[simp] theorem Core.mapRec_view (c : Core) (n : Nat) (g : OpenRec → OpenRec) : (c.mapRec n g).view = c.view := rfl
@[simp] theorem Core.mapRec_trail (c : Core) (n : Nat) (g : OpenRec → OpenRec) : (c.mapRec n g).trail = c.trail := rfl
@[simp] theorem Core.mapRec_s (c : Core) (n : Nat) (g : OpenRec → OpenRec) : (c.mapRec n g).s = c.s := rfl
@[simp] theorem Core.mapRec_a (c : Core) (n : Nat) (g : OpenRec → OpenRec) : (c.mapRec n g).a = c.a := rfl
@[simp] theorem Core.mapRec_h (c : Core) (n : Nat) (g : OpenRec → OpenRec) : (c.mapRec n g).h = c.h := rfl
@[simp] theorem Core.mapRec_hist (c : Core) (n : Nat) (g : OpenRec → OpenRec) : (c.mapRec n g).hist = c.hist := rfl
@[simp] theorem Core.mapRec_hbase (c : Core) (n : Nat) (g : OpenRec → OpenRec) : (c.mapRec n g).hbase = c.hbase := rfl
@[simp] theorem Core.mapRec_f (c : Core) (n : Nat) (g : OpenRec → OpenRec) : (c.mapRec n g).f = c.f := rfl
@[simp] theorem Core.mapRec_lastc (c : Core) (n : Nat) (g : OpenRec → OpenRec) : (c.mapRec n g).lastc = c.lastc := rfl
@[simp] theorem Core.mapRec_scopemiss (c : Core) (n : Nat) (g : OpenRec → OpenRec) : (c.mapRec n g).scopemiss = c.scopemiss := rfl
@[simp] theorem Core.mapRec_nant (c : Core) (n : Nat) (g : OpenRec → OpenRec) : (c.mapRec n g).nant = c.nant := rfl
@[simp] theorem Core.mapRec_det (c : Core) (n : Nat) (g : OpenRec → OpenRec) : (c.mapRec n g).det = c.det := rfl
@[simp] theorem Core.mapRec_fixt (c : Core) (n : Nat) (g : OpenRec → OpenRec) : (c.mapRec n g).fixt = c.fixt := rfl
@[simp] theorem Core.mapRec_modex (c : Core) (n : Nat) (g : OpenRec → OpenRec) : (c.mapRec n g).modex = c.modex := rfl
@[simp] theorem Core.mapRec_nhist (c : Core) (n : Nat) (g : OpenRec → OpenRec) : (c.mapRec n g).nhist = c.nhist := rfl
@[simp] theorem Core.mapRec_nbase (c : Core) (n : Nat) (g : OpenRec → OpenRec) : (c.mapRec n g).nbase = c.nbase := rfl
@[simp] theorem Core.mapRec_slipwin (c : Core) (n : Nat) (g : OpenRec → OpenRec) : (c.mapRec n g).slipwin = c.slipwin := rfl
@[simp] theorem Core.mapRec_vcyc (c : Core) (n : Nat) (g : OpenRec → OpenRec) : (c.mapRec n g).vcyc = c.vcyc := rfl
@[simp] theorem Core.mapRec_cycle (c : Core) (n : Nat) (g : OpenRec → OpenRec) : (c.mapRec n g).cycle = c.cycle := rfl
@[simp] theorem Core.mapRec_ebudget (c : Core) (n : Nat) (g : OpenRec → OpenRec) : (c.mapRec n g).ebudget = c.ebudget := rfl
@[simp] theorem Core.mapRec_erefill (c : Core) (n : Nat) (g : OpenRec → OpenRec) : (c.mapRec n g).erefill = c.erefill := rfl
@[simp] theorem Core.mapRec_legacycnt (c : Core) (n : Nat) (g : OpenRec → OpenRec) : (c.mapRec n g).legacycnt = c.legacycnt := rfl
@[simp] theorem Core.mapRec_trapEn (c : Core) (n : Nat) (g : OpenRec → OpenRec) : (c.mapRec n g).trapEn = c.trapEn := rfl
@[simp] theorem Core.mapRec_trapBlk (c : Core) (n : Nat) (g : OpenRec → OpenRec) : (c.mapRec n g).trapBlk = c.trapBlk := rfl
@[simp] theorem Core.mapRec_traprec (c : Core) (n : Nat) (g : OpenRec → OpenRec) : (c.mapRec n g).traprec = c.traprec := rfl
@[simp] theorem Core.mapRec_savemap (c : Core) (n : Nat) (g : OpenRec → OpenRec) : (c.mapRec n g).savemap = c.savemap := rfl
@[simp] theorem Core.mapRec_wptr (c : Core) (n : Nat) (g : OpenRec → OpenRec) : (c.mapRec n g).wptr = c.wptr := rfl
@[simp] theorem Core.mapRec_loads (c : Core) (n : Nat) (g : OpenRec → OpenRec) : (c.mapRec n g).loads = c.loads := rfl
@[simp] theorem Core.mapRec_stores (c : Core) (n : Nat) (g : OpenRec → OpenRec) : (c.mapRec n g).stores = c.stores := rfl
@[simp] theorem Core.mapRec_replies (c : Core) (n : Nat) (g : OpenRec → OpenRec) : (c.mapRec n g).replies = c.replies := rfl
@[simp] theorem Core.mapRec_freplies (c : Core) (n : Nat) (g : OpenRec → OpenRec) : (c.mapRec n g).freplies = c.freplies := rfl
@[simp] theorem Core.mapRec_fences (c : Core) (n : Nat) (g : OpenRec → OpenRec) : (c.mapRec n g).fences = c.fences := rfl
@[simp] theorem Core.mapRec_fenceRel (c : Core) (n : Nat) (g : OpenRec → OpenRec) : (c.mapRec n g).fenceRel = c.fenceRel := rfl
@[simp] theorem Core.mapRec_seen (c : Core) (n : Nat) (g : OpenRec → OpenRec) : (c.mapRec n g).seen = c.seen := rfl
@[simp] theorem Core.mapRec_tags (c : Core) (n : Nat) (g : OpenRec → OpenRec) : (c.mapRec n g).tags = c.tags := rfl
@[simp] theorem Core.mapRec_queues (c : Core) (n : Nat) (g : OpenRec → OpenRec) : (c.mapRec n g).queues = c.queues := rfl
@[simp] theorem Core.mapRec_flights (c : Core) (n : Nat) (g : OpenRec → OpenRec) : (c.mapRec n g).flights = c.flights := rfl
@[simp] theorem Core.mapRec_nextId (c : Core) (n : Nat) (g : OpenRec → OpenRec) : (c.mapRec n g).nextId = c.nextId := rfl
@[simp] theorem Core.mapRec_defPosts (c : Core) (n : Nat) (g : OpenRec → OpenRec) : (c.mapRec n g).defPosts = c.defPosts := rfl
@[simp] theorem Core.mapRec_pend (c : Core) (n : Nat) (g : OpenRec → OpenRec) : (c.mapRec n g).pend = c.pend := rfl
@[simp] theorem Core.mapRec_banks (c : Core) (n : Nat) (g : OpenRec → OpenRec) : (c.mapRec n g).banks = c.banks := rfl
@[simp] theorem Core.mapRec_carries (c : Core) (n : Nat) (g : OpenRec → OpenRec) : (c.mapRec n g).carries = c.carries := rfl
@[simp] theorem Core.mapRec_drawers (c : Core) (n : Nat) (g : OpenRec → OpenRec) : (c.mapRec n g).drawers = c.drawers := rfl
@[simp] theorem Core.mapRec_claimed (c : Core) (n : Nat) (g : OpenRec → OpenRec) : (c.mapRec n g).claimed = c.claimed := rfl
@[simp] theorem Core.mapRec_cld (c : Core) (n : Nat) (g : OpenRec → OpenRec) : (c.mapRec n g).cld = c.cld := rfl
@[simp] theorem Core.mapRec_cst (c : Core) (n : Nat) (g : OpenRec → OpenRec) : (c.mapRec n g).cst = c.cst := rfl
@[simp] theorem Core.mapRec_order (c : Core) (n : Nat) (g : OpenRec → OpenRec) : (c.mapRec n g).order = c.order := rfl
@[simp] theorem Core.mapRec_chans (c : Core) (n : Nat) (g : OpenRec → OpenRec) : (c.mapRec n g).chans = c.chans := rfl
@[simp] theorem Core.mapRec_wpDone (c : Core) (n : Nat) (g : OpenRec → OpenRec) : (c.mapRec n g).wpDone = c.wpDone := rfl
@[simp] theorem Core.mapRec_fabric (c : Core) (n : Nat) (g : OpenRec → OpenRec) : (c.mapRec n g).fabric = c.fabric := rfl
@[simp] theorem Core.mapRec_rules (c : Core) (n : Nat) (g : OpenRec → OpenRec) : (c.mapRec n g).rules = c.rules := rfl
@[simp] theorem Core.mapRec_ruleSeq (c : Core) (n : Nat) (g : OpenRec → OpenRec) : (c.mapRec n g).ruleSeq = c.ruleSeq := rfl
@[simp] theorem Core.mapRec_bindings (c : Core) (n : Nat) (g : OpenRec → OpenRec) : (c.mapRec n g).bindings = c.bindings := rfl
@[simp] theorem Core.mapRec_aside (c : Core) (n : Nat) (g : OpenRec → OpenRec) : (c.mapRec n g).aside = c.aside := rfl
@[simp] theorem Core.mapRec_bars (c : Core) (n : Nat) (g : OpenRec → OpenRec) : (c.mapRec n g).bars = c.bars := rfl
@[simp] theorem Core.mapRec_arrived (c : Core) (n : Nat) (g : OpenRec → OpenRec) : (c.mapRec n g).arrived = c.arrived := rfl
@[simp] theorem Core.mapRec_halt (c : Core) (n : Nat) (g : OpenRec → OpenRec) : (c.mapRec n g).halt = c.halt := rfl
@[simp] theorem Core.mapRec_feet (c : Core) (n : Nat) (g : OpenRec → OpenRec) : (c.mapRec n g).feet = c.feet := rfl
@[simp] theorem Core.mapRec_bad (c : Core) (n : Nat) (g : OpenRec → OpenRec) : (c.mapRec n g).bad = c.bad := rfl
@[simp] theorem Core.mapRec_escal (c : Core) (n : Nat) (g : OpenRec → OpenRec) : (c.mapRec n g).escal = c.escal := rfl
@[simp] theorem Core.mapRec_draining (c : Core) (n : Nat) (g : OpenRec → OpenRec) : (c.mapRec n g).draining = c.draining := rfl
@[simp] theorem Core.mapRec_eperiod (c : Core) (n : Nat) (g : OpenRec → OpenRec) : (c.mapRec n g).eperiod = c.eperiod := rfl
@[simp] theorem Core.mapRec_exch (c : Core) (n : Nat) (g : OpenRec → OpenRec) : (c.mapRec n g).exch = c.exch := rfl
@[simp] theorem Core.mapRec_declared (c : Core) (n : Nat) (g : OpenRec → OpenRec) : (c.mapRec n g).declared = c.declared := rfl
@[simp] theorem Core.mapRec_opened (c : Core) (n : Nat) (g : OpenRec → OpenRec) : (c.mapRec n g).opened = c.opened := rfl

/-! ### Core.setH -/

@[simp] theorem Core.setH_task (c : Core) (h : HReg) (v : W256) : (c.setH h v).task = c.task := rfl
@[simp] theorem Core.setH_seqs (c : Core) (h : HReg) (v : W256) : (c.setH h v).seqs = c.seqs := rfl
@[simp] theorem Core.setH_view (c : Core) (h : HReg) (v : W256) : (c.setH h v).view = c.view := rfl
@[simp] theorem Core.setH_trail (c : Core) (h : HReg) (v : W256) : (c.setH h v).trail = c.trail := rfl
@[simp] theorem Core.setH_s (c : Core) (h : HReg) (v : W256) : (c.setH h v).s = c.s := rfl
@[simp] theorem Core.setH_a (c : Core) (h : HReg) (v : W256) : (c.setH h v).a = c.a := rfl
@[simp] theorem Core.setH_f (c : Core) (h : HReg) (v : W256) : (c.setH h v).f = c.f := rfl
@[simp] theorem Core.setH_lastc (c : Core) (h : HReg) (v : W256) : (c.setH h v).lastc = c.lastc := rfl
@[simp] theorem Core.setH_scopemiss (c : Core) (h : HReg) (v : W256) : (c.setH h v).scopemiss = c.scopemiss := rfl
@[simp] theorem Core.setH_nant (c : Core) (h : HReg) (v : W256) : (c.setH h v).nant = c.nant := rfl
@[simp] theorem Core.setH_det (c : Core) (h : HReg) (v : W256) : (c.setH h v).det = c.det := rfl
@[simp] theorem Core.setH_fixt (c : Core) (h : HReg) (v : W256) : (c.setH h v).fixt = c.fixt := rfl
@[simp] theorem Core.setH_modex (c : Core) (h : HReg) (v : W256) : (c.setH h v).modex = c.modex := rfl
@[simp] theorem Core.setH_nhist (c : Core) (h : HReg) (v : W256) : (c.setH h v).nhist = c.nhist := rfl
@[simp] theorem Core.setH_nbase (c : Core) (h : HReg) (v : W256) : (c.setH h v).nbase = c.nbase := rfl
@[simp] theorem Core.setH_slipwin (c : Core) (h : HReg) (v : W256) : (c.setH h v).slipwin = c.slipwin := rfl
@[simp] theorem Core.setH_vcyc (c : Core) (h : HReg) (v : W256) : (c.setH h v).vcyc = c.vcyc := rfl
@[simp] theorem Core.setH_cycle (c : Core) (h : HReg) (v : W256) : (c.setH h v).cycle = c.cycle := rfl
@[simp] theorem Core.setH_ebudget (c : Core) (h : HReg) (v : W256) : (c.setH h v).ebudget = c.ebudget := rfl
@[simp] theorem Core.setH_erefill (c : Core) (h : HReg) (v : W256) : (c.setH h v).erefill = c.erefill := rfl
@[simp] theorem Core.setH_legacycnt (c : Core) (h : HReg) (v : W256) : (c.setH h v).legacycnt = c.legacycnt := rfl
@[simp] theorem Core.setH_trapEn (c : Core) (h : HReg) (v : W256) : (c.setH h v).trapEn = c.trapEn := rfl
@[simp] theorem Core.setH_trapBlk (c : Core) (h : HReg) (v : W256) : (c.setH h v).trapBlk = c.trapBlk := rfl
@[simp] theorem Core.setH_traprec (c : Core) (h : HReg) (v : W256) : (c.setH h v).traprec = c.traprec := rfl
@[simp] theorem Core.setH_savemap (c : Core) (h : HReg) (v : W256) : (c.setH h v).savemap = c.savemap := rfl
@[simp] theorem Core.setH_wptr (c : Core) (h : HReg) (v : W256) : (c.setH h v).wptr = c.wptr := rfl
@[simp] theorem Core.setH_loads (c : Core) (h : HReg) (v : W256) : (c.setH h v).loads = c.loads := rfl
@[simp] theorem Core.setH_stores (c : Core) (h : HReg) (v : W256) : (c.setH h v).stores = c.stores := rfl
@[simp] theorem Core.setH_replies (c : Core) (h : HReg) (v : W256) : (c.setH h v).replies = c.replies := rfl
@[simp] theorem Core.setH_freplies (c : Core) (h : HReg) (v : W256) : (c.setH h v).freplies = c.freplies := rfl
@[simp] theorem Core.setH_fences (c : Core) (h : HReg) (v : W256) : (c.setH h v).fences = c.fences := rfl
@[simp] theorem Core.setH_fenceRel (c : Core) (h : HReg) (v : W256) : (c.setH h v).fenceRel = c.fenceRel := rfl
@[simp] theorem Core.setH_seen (c : Core) (h : HReg) (v : W256) : (c.setH h v).seen = c.seen := rfl
@[simp] theorem Core.setH_tags (c : Core) (h : HReg) (v : W256) : (c.setH h v).tags = c.tags := rfl
@[simp] theorem Core.setH_queues (c : Core) (h : HReg) (v : W256) : (c.setH h v).queues = c.queues := rfl
@[simp] theorem Core.setH_flights (c : Core) (h : HReg) (v : W256) : (c.setH h v).flights = c.flights := rfl
@[simp] theorem Core.setH_nextId (c : Core) (h : HReg) (v : W256) : (c.setH h v).nextId = c.nextId := rfl
@[simp] theorem Core.setH_defPosts (c : Core) (h : HReg) (v : W256) : (c.setH h v).defPosts = c.defPosts := rfl
@[simp] theorem Core.setH_pend (c : Core) (h : HReg) (v : W256) : (c.setH h v).pend = c.pend := rfl
@[simp] theorem Core.setH_banks (c : Core) (h : HReg) (v : W256) : (c.setH h v).banks = c.banks := rfl
@[simp] theorem Core.setH_carries (c : Core) (h : HReg) (v : W256) : (c.setH h v).carries = c.carries := rfl
@[simp] theorem Core.setH_drawers (c : Core) (h : HReg) (v : W256) : (c.setH h v).drawers = c.drawers := rfl
@[simp] theorem Core.setH_claimed (c : Core) (h : HReg) (v : W256) : (c.setH h v).claimed = c.claimed := rfl
@[simp] theorem Core.setH_cld (c : Core) (h : HReg) (v : W256) : (c.setH h v).cld = c.cld := rfl
@[simp] theorem Core.setH_cst (c : Core) (h : HReg) (v : W256) : (c.setH h v).cst = c.cst := rfl
@[simp] theorem Core.setH_order (c : Core) (h : HReg) (v : W256) : (c.setH h v).order = c.order := rfl
@[simp] theorem Core.setH_chans (c : Core) (h : HReg) (v : W256) : (c.setH h v).chans = c.chans := rfl
@[simp] theorem Core.setH_wpDone (c : Core) (h : HReg) (v : W256) : (c.setH h v).wpDone = c.wpDone := rfl
@[simp] theorem Core.setH_fabric (c : Core) (h : HReg) (v : W256) : (c.setH h v).fabric = c.fabric := rfl
@[simp] theorem Core.setH_rules (c : Core) (h : HReg) (v : W256) : (c.setH h v).rules = c.rules := rfl
@[simp] theorem Core.setH_recs (c : Core) (h : HReg) (v : W256) : (c.setH h v).recs = c.recs := rfl
@[simp] theorem Core.setH_ruleSeq (c : Core) (h : HReg) (v : W256) : (c.setH h v).ruleSeq = c.ruleSeq := rfl
@[simp] theorem Core.setH_bindings (c : Core) (h : HReg) (v : W256) : (c.setH h v).bindings = c.bindings := rfl
@[simp] theorem Core.setH_aside (c : Core) (h : HReg) (v : W256) : (c.setH h v).aside = c.aside := rfl
@[simp] theorem Core.setH_bars (c : Core) (h : HReg) (v : W256) : (c.setH h v).bars = c.bars := rfl
@[simp] theorem Core.setH_arrived (c : Core) (h : HReg) (v : W256) : (c.setH h v).arrived = c.arrived := rfl
@[simp] theorem Core.setH_halt (c : Core) (h : HReg) (v : W256) : (c.setH h v).halt = c.halt := rfl
@[simp] theorem Core.setH_feet (c : Core) (h : HReg) (v : W256) : (c.setH h v).feet = c.feet := rfl
@[simp] theorem Core.setH_bad (c : Core) (h : HReg) (v : W256) : (c.setH h v).bad = c.bad := rfl
@[simp] theorem Core.setH_escal (c : Core) (h : HReg) (v : W256) : (c.setH h v).escal = c.escal := rfl
@[simp] theorem Core.setH_draining (c : Core) (h : HReg) (v : W256) : (c.setH h v).draining = c.draining := rfl
@[simp] theorem Core.setH_eperiod (c : Core) (h : HReg) (v : W256) : (c.setH h v).eperiod = c.eperiod := rfl
@[simp] theorem Core.setH_exch (c : Core) (h : HReg) (v : W256) : (c.setH h v).exch = c.exch := rfl
@[simp] theorem Core.setH_declared (c : Core) (h : HReg) (v : W256) : (c.setH h v).declared = c.declared := rfl
@[simp] theorem Core.setH_opened (c : Core) (h : HReg) (v : W256) : (c.setH h v).opened = c.opened := rfl

/-! ### Core.setNant -/

@[simp] theorem Core.setNant_task (c : Core) (v : Bool) : (c.setNant v).task = c.task := rfl
@[simp] theorem Core.setNant_seqs (c : Core) (v : Bool) : (c.setNant v).seqs = c.seqs := rfl
@[simp] theorem Core.setNant_view (c : Core) (v : Bool) : (c.setNant v).view = c.view := rfl
@[simp] theorem Core.setNant_trail (c : Core) (v : Bool) : (c.setNant v).trail = c.trail := rfl
@[simp] theorem Core.setNant_s (c : Core) (v : Bool) : (c.setNant v).s = c.s := rfl
@[simp] theorem Core.setNant_a (c : Core) (v : Bool) : (c.setNant v).a = c.a := rfl
@[simp] theorem Core.setNant_h (c : Core) (v : Bool) : (c.setNant v).h = c.h := rfl
@[simp] theorem Core.setNant_hist (c : Core) (v : Bool) : (c.setNant v).hist = c.hist := rfl
@[simp] theorem Core.setNant_hbase (c : Core) (v : Bool) : (c.setNant v).hbase = c.hbase := rfl
@[simp] theorem Core.setNant_f (c : Core) (v : Bool) : (c.setNant v).f = c.f := rfl
@[simp] theorem Core.setNant_lastc (c : Core) (v : Bool) : (c.setNant v).lastc = c.lastc := rfl
@[simp] theorem Core.setNant_scopemiss (c : Core) (v : Bool) : (c.setNant v).scopemiss = c.scopemiss := rfl
@[simp] theorem Core.setNant_det (c : Core) (v : Bool) : (c.setNant v).det = c.det := rfl
@[simp] theorem Core.setNant_fixt (c : Core) (v : Bool) : (c.setNant v).fixt = c.fixt := rfl
@[simp] theorem Core.setNant_modex (c : Core) (v : Bool) : (c.setNant v).modex = c.modex := rfl
@[simp] theorem Core.setNant_slipwin (c : Core) (v : Bool) : (c.setNant v).slipwin = c.slipwin := rfl
@[simp] theorem Core.setNant_vcyc (c : Core) (v : Bool) : (c.setNant v).vcyc = c.vcyc := rfl
@[simp] theorem Core.setNant_cycle (c : Core) (v : Bool) : (c.setNant v).cycle = c.cycle := rfl
@[simp] theorem Core.setNant_ebudget (c : Core) (v : Bool) : (c.setNant v).ebudget = c.ebudget := rfl
@[simp] theorem Core.setNant_erefill (c : Core) (v : Bool) : (c.setNant v).erefill = c.erefill := rfl
@[simp] theorem Core.setNant_legacycnt (c : Core) (v : Bool) : (c.setNant v).legacycnt = c.legacycnt := rfl
@[simp] theorem Core.setNant_trapEn (c : Core) (v : Bool) : (c.setNant v).trapEn = c.trapEn := rfl
@[simp] theorem Core.setNant_trapBlk (c : Core) (v : Bool) : (c.setNant v).trapBlk = c.trapBlk := rfl
@[simp] theorem Core.setNant_traprec (c : Core) (v : Bool) : (c.setNant v).traprec = c.traprec := rfl
@[simp] theorem Core.setNant_savemap (c : Core) (v : Bool) : (c.setNant v).savemap = c.savemap := rfl
@[simp] theorem Core.setNant_wptr (c : Core) (v : Bool) : (c.setNant v).wptr = c.wptr := rfl
@[simp] theorem Core.setNant_loads (c : Core) (v : Bool) : (c.setNant v).loads = c.loads := rfl
@[simp] theorem Core.setNant_stores (c : Core) (v : Bool) : (c.setNant v).stores = c.stores := rfl
@[simp] theorem Core.setNant_replies (c : Core) (v : Bool) : (c.setNant v).replies = c.replies := rfl
@[simp] theorem Core.setNant_freplies (c : Core) (v : Bool) : (c.setNant v).freplies = c.freplies := rfl
@[simp] theorem Core.setNant_fences (c : Core) (v : Bool) : (c.setNant v).fences = c.fences := rfl
@[simp] theorem Core.setNant_fenceRel (c : Core) (v : Bool) : (c.setNant v).fenceRel = c.fenceRel := rfl
@[simp] theorem Core.setNant_seen (c : Core) (v : Bool) : (c.setNant v).seen = c.seen := rfl
@[simp] theorem Core.setNant_tags (c : Core) (v : Bool) : (c.setNant v).tags = c.tags := rfl
@[simp] theorem Core.setNant_queues (c : Core) (v : Bool) : (c.setNant v).queues = c.queues := rfl
@[simp] theorem Core.setNant_flights (c : Core) (v : Bool) : (c.setNant v).flights = c.flights := rfl
@[simp] theorem Core.setNant_nextId (c : Core) (v : Bool) : (c.setNant v).nextId = c.nextId := rfl
@[simp] theorem Core.setNant_defPosts (c : Core) (v : Bool) : (c.setNant v).defPosts = c.defPosts := rfl
@[simp] theorem Core.setNant_pend (c : Core) (v : Bool) : (c.setNant v).pend = c.pend := rfl
@[simp] theorem Core.setNant_banks (c : Core) (v : Bool) : (c.setNant v).banks = c.banks := rfl
@[simp] theorem Core.setNant_carries (c : Core) (v : Bool) : (c.setNant v).carries = c.carries := rfl
@[simp] theorem Core.setNant_drawers (c : Core) (v : Bool) : (c.setNant v).drawers = c.drawers := rfl
@[simp] theorem Core.setNant_claimed (c : Core) (v : Bool) : (c.setNant v).claimed = c.claimed := rfl
@[simp] theorem Core.setNant_cld (c : Core) (v : Bool) : (c.setNant v).cld = c.cld := rfl
@[simp] theorem Core.setNant_cst (c : Core) (v : Bool) : (c.setNant v).cst = c.cst := rfl
@[simp] theorem Core.setNant_order (c : Core) (v : Bool) : (c.setNant v).order = c.order := rfl
@[simp] theorem Core.setNant_chans (c : Core) (v : Bool) : (c.setNant v).chans = c.chans := rfl
@[simp] theorem Core.setNant_wpDone (c : Core) (v : Bool) : (c.setNant v).wpDone = c.wpDone := rfl
@[simp] theorem Core.setNant_fabric (c : Core) (v : Bool) : (c.setNant v).fabric = c.fabric := rfl
@[simp] theorem Core.setNant_rules (c : Core) (v : Bool) : (c.setNant v).rules = c.rules := rfl
@[simp] theorem Core.setNant_recs (c : Core) (v : Bool) : (c.setNant v).recs = c.recs := rfl
@[simp] theorem Core.setNant_ruleSeq (c : Core) (v : Bool) : (c.setNant v).ruleSeq = c.ruleSeq := rfl
@[simp] theorem Core.setNant_bindings (c : Core) (v : Bool) : (c.setNant v).bindings = c.bindings := rfl
@[simp] theorem Core.setNant_aside (c : Core) (v : Bool) : (c.setNant v).aside = c.aside := rfl
@[simp] theorem Core.setNant_bars (c : Core) (v : Bool) : (c.setNant v).bars = c.bars := rfl
@[simp] theorem Core.setNant_arrived (c : Core) (v : Bool) : (c.setNant v).arrived = c.arrived := rfl
@[simp] theorem Core.setNant_halt (c : Core) (v : Bool) : (c.setNant v).halt = c.halt := rfl
@[simp] theorem Core.setNant_feet (c : Core) (v : Bool) : (c.setNant v).feet = c.feet := rfl
@[simp] theorem Core.setNant_bad (c : Core) (v : Bool) : (c.setNant v).bad = c.bad := rfl
@[simp] theorem Core.setNant_escal (c : Core) (v : Bool) : (c.setNant v).escal = c.escal := rfl
@[simp] theorem Core.setNant_draining (c : Core) (v : Bool) : (c.setNant v).draining = c.draining := rfl
@[simp] theorem Core.setNant_eperiod (c : Core) (v : Bool) : (c.setNant v).eperiod = c.eperiod := rfl
@[simp] theorem Core.setNant_exch (c : Core) (v : Bool) : (c.setNant v).exch = c.exch := rfl
@[simp] theorem Core.setNant_declared (c : Core) (v : Bool) : (c.setNant v).declared = c.declared := rfl
@[simp] theorem Core.setNant_opened (c : Core) (v : Bool) : (c.setNant v).opened = c.opened := rfl

@[simp] theorem Core.setH_h (c : Core) (h : HReg) (v : W256) : (c.setH h v).h = c.h.set h.toNat v := rfl
@[simp] theorem Core.setNant_nant (c : Core) (v : Bool) : (c.setNant v).nant = v := rfl
@[simp] theorem Core.setFlag_f (c : Core) (f : FlagNo) (n : Nat) : (c.setFlag f n).f = c.f.set f.toNat (BitVec.ofNat 16 n) := rfl

/-! ### The per-engine record -/

@[simp] theorem PerEng.get_set {α : Type} (p : PerEng α) (e : Eng) (v : α) : (p.set e v).get e = v := by cases e <;> rfl
theorem PerEng.get_set_ne {α : Type} (p : PerEng α) {e e' : Eng} (v : α) (h : e' ≠ e) : (p.set e v).get e' = p.get e' := by
  cases e <;> cases e' <;> first | rfl | exact absurd rfl h
@[simp] theorem PerEng.set_set {α : Type} (p : PerEng α) (e : Eng) (v w : α) : (p.set e v).set e w = p.set e w := by cases e <;> rfl
@[simp] theorem PerEng.set_get {α : Type} (p : PerEng α) (e : Eng) : p.set e (p.get e) = p := by cases e <;> rfl
@[simp] theorem PerEng.get_all {α : Type} (a : α) (e : Eng) : (PerEng.all a).get e = a := by cases e <;> rfl
@[simp] theorem PerEng.get_mapE {α β : Type} (p : PerEng α) (f : Eng → α → β) (e : Eng) : (p.mapE f).get e = f e (p.get e) := by
  cases e <;> rfl

/-! ### The scalar file -/

theorem State.setS_core_s (s : State) (r : SReg) (v : W64) :
    (s.setS r v).core.s = if r = 0 then s.core.s else s.core.s.set r.toNat v := by unfold State.setS; split <;> rfl
@[simp] theorem State.getS_zero (s : State) : s.getS 0 = 0 := rfl
@[simp] theorem State.setS_zero (s : State) (v : W64) : s.setS 0 v = s := rfl
theorem State.getS_setS (s : State) (r : SReg) (v : W64) (h0 : r ≠ 0) (hl : r.toNat < s.core.s.length) :
    (s.setS r v).getS r = v := by
  rw [State.getS, if_neg h0, State.setS_core_s, if_neg h0]; simp [hl]
theorem State.getS_setS_ne (s : State) {r q : SReg} (v : W64) (h : q ≠ r) : (s.setS r v).getS q = s.getS q := by
  have hn : r.toNat ≠ q.toNat := fun e => h (BitVec.eq_of_toNat_eq e.symm)
  unfold State.getS; rw [State.setS_core_s]; by_cases h0 : r = 0
  · rw [if_pos h0]
  · rw [if_neg h0]; simp [hn]
theorem State.getA_setA_ne (s : State) {r q : AReg} (v : W64) (h : q ≠ r) : (s.setA r v).getA q = s.getA q := by
  have hn : r.toNat ≠ q.toNat := fun e => h (BitVec.eq_of_toNat_eq e.symm)
  simp [State.getA, State.setA, hn]
theorem State.getA_setA (s : State) (r : AReg) (v : W64) (hl : r.toNat < s.core.a.length) : (s.setA r v).getA r = v := by
  simp [State.getA, State.setA, hl]

end Sys2Proof.Machine
end

