-- ==== Sys2Proof/Laws/Ops.lean ====
section
/-!
SUPPORT. What each shared operation does once its gate is open, or while it is closed.
-/
namespace Sys2Proof.Machine

/-! ### Scalar registers (05 R90) -/

theorem State.settled_sub {s : State} {rs qs : List SReg} (h : s.settled rs = true) (hq : ∀ r ∈ qs, r ∈ rs) : s.settled qs = true := by
  simp only [State.settled, Bool.not_eq_true', List.any_eq_false] at h ⊢
  exact fun r hr => h r (hq r hr)
theorem State.withRegs_go {s : State} {rs : List SReg} {k : State → Out} (h : s.settled rs = true) : s.withRegs rs k = k s := by
  simp only [State.settled, Bool.not_eq_true'] at h
  simp [State.withRegs, h]
theorem State.withRegs_wait {s : State} {rs : List SReg} {k : State → Out} (h : s.settled rs = false) :
    s.withRegs rs k = .next (s.waiting .internal) := by
  simp only [State.settled, Bool.not_eq_false'] at h
  simp [State.withRegs, h]
theorem State.alu_go {s : State} {d a : SReg} {o : Op2} {f : W64 → W64 → W64} (h : s.settled (d :: a :: op2Regs o) = true) :
    s.alu d a o f = .next (s.putS d (f (s.getS a) (s.op2 o))) := by
  unfold State.alu; rw [State.withRegs_go h]

/-! ### Gates of memory words (05 R94; 20 R325; 23 R349; 25 R385) -/

theorem State.withSc_go {s : State} {k : State → Out} (h : s.scOpen = true) : s.withSc k = k s := by
  unfold State.withSc; simp only [State.scOpen] at h; rw [if_pos h]
theorem State.withBytes_go {s : State} {n : Nat} {k : State → Out} (h : s.memOk n = true) : s.withBytes n k = k (s.memDebit n) := by
  unfold State.withBytes; rw [h]; rfl
theorem State.withGood_go {s : State} {code : BitVec 4} {p : Nat → Bool} {k : State → Out} (h : s.good code = true) :
    s.withGood code p k = k s := by
  have hn : s.core.badIn code p = none := by
    simp only [State.good, Core.badIn, Option.isNone_iff_eq_none, Option.map_eq_none_iff, List.find?_eq_none, Bool.and_true] at h ⊢
    exact fun b hb => by simp [h b hb]
  unfold State.withGood; rw [hn]

/-! ### CTL's queued stores (20 R317, R318) -/

/-- A write on a path changes what a write changes. -/
theorem State.putPhys_frame (s : State) (p : Path) (key : Option (BitVec 512)) (a : Nat) (bs : List Byte) :
    ∃ m k r w, s.putPhys p key a bs = { s with mem := m, dev := { s.dev with unitKey := k, marks := r, stale := w } } := by
  obtain ⟨m, k, r, w, h⟩ := s.writePhys_frame key a bs
  refine ⟨m, k, r, w ++ s.hidden p false key a bs.length, ?_⟩
  unfold State.putPhys
  generalize s.hidden p false key a bs.length = x
  rw [h]; rfl
/-- A queued store performed changes memory or scratchpad, keys, marks and hidden writes alone. -/
theorem State.performStore_frame (s : State) (e : StoreEnt) :
    ∃ m p k r w n, s.performStore e =
      { s with mem := m, spad := p, dev := { s.dev with unitKey := k, marks := r, stale := w, writeNo := n } } := by
  obtain ⟨m, p, k, r, w, h⟩ : ∃ m p k r w, (if e.sp then s.putSpad .sc e.addr e.bytes else s.putPhys .sc e.key e.addr e.bytes) =
      { s with mem := m, spad := p, dev := { s.dev with unitKey := k, marks := r, stale := w } } := by
    cases e.sp
    · obtain ⟨m, k, r, w, h⟩ := s.putPhys_frame .sc e.key e.addr e.bytes
      exact ⟨m, s.spad, k, r, w, h⟩
    · exact ⟨s.mem, writeRun s.spad e.addr e.bytes, s.dev.unitKey, _, _, rfl⟩
  unfold State.performStore
  rw [h]
  generalize e.rels.map (fun sc => (s.party, sc)) = rels
  by_cases he : e.rels = []
  · exact ⟨m, p, k, r, w, s.dev.writeNo + 1, by dsimp only; rw [if_pos he]; rfl⟩
  · exact ⟨m, p, k, _, w, s.dev.writeNo + 1, by dsimp only; rw [if_neg he]; rfl⟩
@[simp] theorem State.performStore_core (s : State) (e : StoreEnt) : (s.performStore e).core = s.core := by
  obtain ⟨m, p, k, r, w, n, h⟩ := s.performStore_frame e; rw [h]
/-- CTL's queued stores performed change memory, scratchpad, keys, marks and hidden writes, and the queue. -/
theorem State.drainStores_frame (s : State) :
    ∃ m p k r w n, s.drainStores = { s with
      core := { s.core with stores := [] }, mem := m, spad := p,
      dev := { s.dev with unitKey := k, marks := r, stale := w, writeNo := n } } := by
  have hf : ∀ (l : List StoreEnt) (t : State), ∃ m p k r w n, l.foldl (fun t e => t.performStore e) t =
      { t with mem := m, spad := p, dev := { t.dev with unitKey := k, marks := r, stale := w, writeNo := n } } := by
    intro l
    induction l with
    | nil => intro t; exact ⟨_, _, _, _, _, _, rfl⟩
    | cons e r ih =>
      intro t
      obtain ⟨m, p, k, r, w, n, h⟩ := ih (t.performStore e)
      obtain ⟨m', p', k', r', w', n', h'⟩ := t.performStore_frame e
      rw [List.foldl_cons, h, h']
      exact ⟨_, _, _, _, _, _, rfl⟩
  obtain ⟨m, p, k, r, w, n, h⟩ := hf s.core.stores s
  unfold State.drainStores
  rw [h]
  exact ⟨m, p, k, r, w, n, rfl⟩
@[simp] theorem State.drainStores_stores (s : State) : s.drainStores.core.stores = [] := by
  obtain ⟨m, p, k, r, w, n, h⟩ := s.drainStores_frame; rw [h]
theorem State.drainStores_none {s : State} (h : s.core.stores = []) : s.drainStores = s := by
  unfold State.drainStores; rw [h]
  show { s with core := { s.core with stores := [] } } = s
  rw [← h]
theorem State.withDrained_go {s : State} {k : State → Out} (h : s.drains = true) : s.withDrained k = k s.drainStores := by
  unfold State.withDrained
  unfold State.drains at h
  by_cases hd : s.core.det = true
  · rw [if_pos hd] at h ⊢
    rw [if_pos h, State.drainStores_none (List.isEmpty_iff.1 h)]
  · rw [if_neg hd] at h ⊢
    rw [if_pos h]
@[simp] theorem State.drainStores_settled (s : State) (rs : List SReg) : s.drainStores.settled rs = s.settled rs := by
  obtain ⟨m, p, k, r, w, n, h⟩ := s.drainStores_frame; rw [h]; rfl
@[simp] theorem State.drainStores_getS (s : State) (r : SReg) : s.drainStores.getS r = s.getS r := by
  obtain ⟨m, p, k, q, w, n, h⟩ := s.drainStores_frame; rw [h]; rfl
@[simp] theorem State.drainStores_op2 (s : State) (o : Op2) : s.drainStores.op2 o = s.op2 o := by
  obtain ⟨m, p, k, q, w, n, h⟩ := s.drainStores_frame; rw [h]; rfl

/-! ### Fields of a handle (03 R53, R54; 05 R97) -/

/-- A bit of a handle after a field is replaced. -/
theorem setHBits_bit (h : W256) (lo len v j : Nat) (hj : j < 256) :
    (setHBits h lo len v).getLsbD j = if lo ≤ j ∧ j < lo + len then v.testBit (j - lo) else h.getLsbD j := by
  unfold setHBits
  simp only [BitVec.getLsbD_or, BitVec.getLsbD_and, BitVec.getLsbD_not, BitVec.getLsbD_ofNat, hj, decide_true, Bool.true_and,
    Nat.testBit_mul_two_pow, Nat.testBit_mod_two_pow]
  by_cases h1 : lo ≤ j ∧ j < lo + len
  · have h2 : j - lo < len := by omega
    simp [h1, h2]
  · by_cases h2 : lo ≤ j
    · have h3 : ¬ j - lo < len := by omega
      simp [h1, h3]
    · simp [h2]
/-- A field reads as what was put there. -/
theorem hBits_set_same (h : W256) (lo len v : Nat) (hl : lo + len ≤ 256) : hBits (setHBits h lo len v) lo len = v % 2 ^ len := by
  unfold hBits
  apply Nat.eq_of_testBit_eq
  intro j
  rw [BitVec.testBit_toNat, BitVec.getLsbD_extractLsb', Nat.testBit_mod_two_pow]
  by_cases hj : j < len
  · rw [setHBits_bit _ _ _ _ _ (by omega), if_pos (by omega)]; simp [hj]
  · simp [hj]
/-- A field that does not meet the one replaced reads as before. -/
theorem hBits_set_other (h : W256) (lo len v lo' len' : Nat) (hl : lo' + len' ≤ 256) (hd : lo' + len' ≤ lo ∨ lo + len ≤ lo') :
    hBits (setHBits h lo len v) lo' len' = hBits h lo' len' := by
  unfold hBits
  apply Nat.eq_of_testBit_eq
  intro j
  rw [BitVec.testBit_toNat, BitVec.testBit_toNat, BitVec.getLsbD_extractLsb', BitVec.getLsbD_extractLsb']
  by_cases hj : j < len'
  · rw [setHBits_bit _ _ _ _ _ (by omega), if_neg (by omega)]
  · simp [hj]

end Sys2Proof.Machine
end

