-- ==== Sys2Proof/Laws/PerInstr.lean ====
section
/-!
SUPPORT. What the decoder names for the fields of each instruction is that instruction: one lemma per constructor.
-/
set_option linter.unusedSimpArgs false
set_option linter.unusedVariables false

namespace Sys2Proof.Laws.RoundTrip
open Sys2Proof

/-- The fields the encoding table gives a well-formed instruction name that instruction. -/
def Statement (i : Instr) : Prop := ∀ r, i.raw = some r → i.wf = true → r.cand = .ok i
/-- By the record the table gives it. -/
theorem of_raw {i : Instr} {r0 : Raw} (h : i.raw = some r0) (hc : i.wf = true → r0.cand = .ok i) : Statement i := by
  intro r hr w; rw [h] at hr; cases hr; exact hc w
/-- An event has no word. -/
theorem of_none {i : Instr} (h : i.raw = none) : Statement i := by
  intro r hr; rw [h] at hr; cases hr

theorem add (y0 : SReg) (y1 : SReg) (y2 : Op2) : Statement (.add y0 y1 y2) :=
  of_raw rfl fun w => by cases y2 <;> simp (discharger := first | rfl | omega) [-BitVec.append_eq, Raw.cand, candC_00, c0, CRaw.op2, CRaw.acqs, CRaw.rels, CRaw.ords, CRaw.getOp2, CRaw.getAcq, CRaw.getRel, CRaw.getOrd, isOne, fn0, HAppend.hAppend, slice_hi, slice_lo]
theorem sub (y0 : SReg) (y1 : SReg) (y2 : Op2) : Statement (.sub y0 y1 y2) :=
  of_raw rfl fun w => by cases y2 <;> simp (discharger := first | rfl | omega) [-BitVec.append_eq, Raw.cand, candC_01, c0, CRaw.op2, CRaw.acqs, CRaw.rels, CRaw.ords, CRaw.getOp2, CRaw.getAcq, CRaw.getRel, CRaw.getOrd, isOne, fn0, HAppend.hAppend, slice_hi, slice_lo]
theorem mul (y0 : SReg) (y1 : SReg) (y2 : Op2) : Statement (.mul y0 y1 y2) :=
  of_raw rfl fun w => by cases y2 <;> simp (discharger := first | rfl | omega) [-BitVec.append_eq, Raw.cand, candC_02, c0, CRaw.op2, CRaw.acqs, CRaw.rels, CRaw.ords, CRaw.getOp2, CRaw.getAcq, CRaw.getRel, CRaw.getOrd, isOne, fn0, HAppend.hAppend, slice_hi, slice_lo]
theorem mulh (y0 : MulhKind) (y1 : SReg) (y2 : SReg) (y3 : Op2) : Statement (.mulh y0 y1 y2 y3) :=
  of_raw rfl fun w => by cases y3 <;> simp (discharger := first | rfl | omega) [-BitVec.append_eq, Raw.cand, candC_03, c0, CRaw.op2, CRaw.acqs, CRaw.rels, CRaw.ords, CRaw.getOp2, CRaw.getAcq, CRaw.getRel, CRaw.getOrd, isOne, fn0, HAppend.hAppend, slice_hi, slice_lo]
theorem div (y0 : Sgn) (y1 : SReg) (y2 : SReg) (y3 : Op2) : Statement (.div y0 y1 y2 y3) :=
  of_raw rfl fun w => by cases y3 <;> simp (discharger := first | rfl | omega) [-BitVec.append_eq, Raw.cand, candC_04, c0, CRaw.op2, CRaw.acqs, CRaw.rels, CRaw.ords, CRaw.getOp2, CRaw.getAcq, CRaw.getRel, CRaw.getOrd, isOne, fn0, HAppend.hAppend, slice_hi, slice_lo]
theorem rem (y0 : Sgn) (y1 : SReg) (y2 : SReg) (y3 : Op2) : Statement (.rem y0 y1 y2 y3) :=
  of_raw rfl fun w => by cases y3 <;> simp (discharger := first | rfl | omega) [-BitVec.append_eq, Raw.cand, candC_05, c0, CRaw.op2, CRaw.acqs, CRaw.rels, CRaw.ords, CRaw.getOp2, CRaw.getAcq, CRaw.getRel, CRaw.getOrd, isOne, fn0, HAppend.hAppend, slice_hi, slice_lo]
theorem and (y0 : SReg) (y1 : SReg) (y2 : Op2) : Statement (.and y0 y1 y2) :=
  of_raw rfl fun w => by cases y2 <;> simp (discharger := first | rfl | omega) [-BitVec.append_eq, Raw.cand, candC_06, c0, CRaw.op2, CRaw.acqs, CRaw.rels, CRaw.ords, CRaw.getOp2, CRaw.getAcq, CRaw.getRel, CRaw.getOrd, isOne, fn0, HAppend.hAppend, slice_hi, slice_lo]
theorem or (y0 : SReg) (y1 : SReg) (y2 : Op2) : Statement (.or y0 y1 y2) :=
  of_raw rfl fun w => by cases y2 <;> simp (discharger := first | rfl | omega) [-BitVec.append_eq, Raw.cand, candC_07, c0, CRaw.op2, CRaw.acqs, CRaw.rels, CRaw.ords, CRaw.getOp2, CRaw.getAcq, CRaw.getRel, CRaw.getOrd, isOne, fn0, HAppend.hAppend, slice_hi, slice_lo]
theorem xor (y0 : SReg) (y1 : SReg) (y2 : Op2) : Statement (.xor y0 y1 y2) :=
  of_raw rfl fun w => by cases y2 <;> simp (discharger := first | rfl | omega) [-BitVec.append_eq, Raw.cand, candC_08, c0, CRaw.op2, CRaw.acqs, CRaw.rels, CRaw.ords, CRaw.getOp2, CRaw.getAcq, CRaw.getRel, CRaw.getOrd, isOne, fn0, HAppend.hAppend, slice_hi, slice_lo]
theorem andn (y0 : SReg) (y1 : SReg) (y2 : Op2) : Statement (.andn y0 y1 y2) :=
  of_raw rfl fun w => by cases y2 <;> simp (discharger := first | rfl | omega) [-BitVec.append_eq, Raw.cand, candC_09, c0, CRaw.op2, CRaw.acqs, CRaw.rels, CRaw.ords, CRaw.getOp2, CRaw.getAcq, CRaw.getRel, CRaw.getOrd, isOne, fn0, HAppend.hAppend, slice_hi, slice_lo]
theorem shl (y0 : SReg) (y1 : SReg) (y2 : Op2) : Statement (.shl y0 y1 y2) :=
  of_raw rfl fun w => by cases y2 <;> simp (discharger := first | rfl | omega) [-BitVec.append_eq, Raw.cand, candC_0A, c0, CRaw.op2, CRaw.acqs, CRaw.rels, CRaw.ords, CRaw.getOp2, CRaw.getAcq, CRaw.getRel, CRaw.getOrd, isOne, fn0, HAppend.hAppend, slice_hi, slice_lo]
theorem shr (y0 : SReg) (y1 : SReg) (y2 : Op2) : Statement (.shr y0 y1 y2) :=
  of_raw rfl fun w => by cases y2 <;> simp (discharger := first | rfl | omega) [-BitVec.append_eq, Raw.cand, candC_0B, c0, CRaw.op2, CRaw.acqs, CRaw.rels, CRaw.ords, CRaw.getOp2, CRaw.getAcq, CRaw.getRel, CRaw.getOrd, isOne, fn0, HAppend.hAppend, slice_hi, slice_lo]
theorem sra (y0 : SReg) (y1 : SReg) (y2 : Op2) : Statement (.sra y0 y1 y2) :=
  of_raw rfl fun w => by cases y2 <;> simp (discharger := first | rfl | omega) [-BitVec.append_eq, Raw.cand, candC_0C, c0, CRaw.op2, CRaw.acqs, CRaw.rels, CRaw.ords, CRaw.getOp2, CRaw.getAcq, CRaw.getRel, CRaw.getOrd, isOne, fn0, HAppend.hAppend, slice_hi, slice_lo]
theorem rotl (y0 : SReg) (y1 : SReg) (y2 : Op2) : Statement (.rotl y0 y1 y2) :=
  of_raw rfl fun w => by cases y2 <;> simp (discharger := first | rfl | omega) [-BitVec.append_eq, Raw.cand, candC_0D, c0, CRaw.op2, CRaw.acqs, CRaw.rels, CRaw.ords, CRaw.getOp2, CRaw.getAcq, CRaw.getRel, CRaw.getOrd, isOne, fn0, HAppend.hAppend, slice_hi, slice_lo]
theorem min (y0 : Sgn) (y1 : SReg) (y2 : SReg) (y3 : Op2) : Statement (.min y0 y1 y2 y3) :=
  of_raw rfl fun w => by cases y3 <;> simp (discharger := first | rfl | omega) [-BitVec.append_eq, Raw.cand, candC_0E, c0, CRaw.op2, CRaw.acqs, CRaw.rels, CRaw.ords, CRaw.getOp2, CRaw.getAcq, CRaw.getRel, CRaw.getOrd, isOne, fn0, HAppend.hAppend, slice_hi, slice_lo]
theorem max (y0 : Sgn) (y1 : SReg) (y2 : SReg) (y3 : Op2) : Statement (.max y0 y1 y2 y3) :=
  of_raw rfl fun w => by cases y3 <;> simp (discharger := first | rfl | omega) [-BitVec.append_eq, Raw.cand, candC_0F, c0, CRaw.op2, CRaw.acqs, CRaw.rels, CRaw.ords, CRaw.getOp2, CRaw.getAcq, CRaw.getRel, CRaw.getOrd, isOne, fn0, HAppend.hAppend, slice_hi, slice_lo]
theorem clz (y0 : SReg) (y1 : SReg) : Statement (.clz y0 y1) :=
  of_raw rfl fun w => by simp (discharger := first | rfl | omega) [-BitVec.append_eq, Raw.cand, candC_10, c0, CRaw.op2, CRaw.acqs, CRaw.rels, CRaw.ords, CRaw.getOp2, CRaw.getAcq, CRaw.getRel, CRaw.getOrd, isOne, fn0, HAppend.hAppend, slice_hi, slice_lo]
theorem popc (y0 : SReg) (y1 : SReg) : Statement (.popc y0 y1) :=
  of_raw rfl fun w => by simp (discharger := first | rfl | omega) [-BitVec.append_eq, Raw.cand, candC_11, c0, CRaw.op2, CRaw.acqs, CRaw.rels, CRaw.ords, CRaw.getOp2, CRaw.getAcq, CRaw.getRel, CRaw.getOrd, isOne, fn0, HAppend.hAppend, slice_hi, slice_lo]
theorem setc (y0 : Cond) (y1 : SReg) (y2 : SReg) (y3 : Op2) : Statement (.setc y0 y1 y2 y3) :=
  of_raw rfl fun w => by cases y0 <;> cases y3 <;> rfl
theorem sel (y0 : SReg) (y1 : SReg) (y2 : SReg) (y3 : Op2) : Statement (.sel y0 y1 y2 y3) :=
  of_raw rfl fun w => by cases y3 <;> simp (discharger := first | rfl | omega) [-BitVec.append_eq, Raw.cand, candC_13, c0, CRaw.op2, CRaw.acqs, CRaw.rels, CRaw.ords, CRaw.getOp2, CRaw.getAcq, CRaw.getRel, CRaw.getOrd, isOne, fn0, HAppend.hAppend, slice_hi, slice_lo]
theorem movi (y0 : SReg) (y1 : W64) : Statement (.movi y0 y1) :=
  of_raw rfl fun w => by simp (discharger := first | rfl | omega) [-BitVec.append_eq, Raw.cand, candC_14, c0, CRaw.op2, CRaw.acqs, CRaw.rels, CRaw.ords, CRaw.getOp2, CRaw.getAcq, CRaw.getRel, CRaw.getOrd, isOne, fn0, HAppend.hAppend, slice_hi, slice_lo]
theorem mov (y0 : SReg) (y1 : SReg) : Statement (.mov y0 y1) :=
  of_raw rfl fun w => by simp (discharger := first | rfl | omega) [-BitVec.append_eq, Raw.cand, candC_15, c0, CRaw.op2, CRaw.acqs, CRaw.rels, CRaw.ords, CRaw.getOp2, CRaw.getAcq, CRaw.getRel, CRaw.getOrd, isOne, fn0, HAppend.hAppend, slice_hi, slice_lo]
theorem lea (y0 : SReg) (y1 : SReg) (y2 : Op2) (y3 : BitVec 6) : Statement (.lea y0 y1 y2 y3) :=
  of_raw rfl fun w => by cases y2 <;> simp (discharger := first | rfl | omega) [-BitVec.append_eq, Raw.cand, candC_16, c0, CRaw.op2, CRaw.acqs, CRaw.rels, CRaw.ords, CRaw.getOp2, CRaw.getAcq, CRaw.getRel, CRaw.getOrd, isOne, fn0, HAppend.hAppend, slice_hi, slice_lo]
theorem extr (y0 : Sgn) (y1 : SReg) (y2 : SReg) (y3 : BitVec 6) (y4 : BitVec 7) : Statement (.extr y0 y1 y2 y3 y4) :=
  of_raw rfl fun w => by cases y0 <;> simp (discharger := first | rfl | omega) [-BitVec.append_eq, Raw.cand, candC_17, c0, CRaw.op2, CRaw.acqs, CRaw.rels, CRaw.ords, CRaw.getOp2, CRaw.getAcq, CRaw.getRel, CRaw.getOrd, isOne, fn0, HAppend.hAppend, slice_hi, slice_lo]
theorem insr (y0 : SReg) (y1 : SReg) (y2 : BitVec 6) (y3 : BitVec 7) : Statement (.insr y0 y1 y2 y3) :=
  of_raw rfl fun w => by simp (discharger := first | rfl | omega) [-BitVec.append_eq, Raw.cand, candC_18, c0, CRaw.op2, CRaw.acqs, CRaw.rels, CRaw.ords, CRaw.getOp2, CRaw.getAcq, CRaw.getRel, CRaw.getOrd, isOne, fn0, HAppend.hAppend, slice_hi, slice_lo]
theorem ld (y0 : LdKind) (y1 : SReg) (y2 : SReg) (y3 : W64) (y4 : Option Scope) : Statement (.ld y0 y1 y2 y3 y4) :=
  of_raw rfl fun w => by cases y4 <;> simp (discharger := first | rfl | omega) [-BitVec.append_eq, Raw.cand, candC_20, c0, CRaw.op2, CRaw.acqs, CRaw.rels, CRaw.ords, CRaw.getOp2, CRaw.getAcq, CRaw.getRel, CRaw.getOrd, isOne, fn0, HAppend.hAppend, slice_hi, slice_lo]
theorem st (y0 : StKind) (y1 : SReg) (y2 : SReg) (y3 : W64) (y4 : Option Scope) : Statement (.st y0 y1 y2 y3 y4) :=
  of_raw rfl fun w => by cases y4 <;> simp (discharger := first | rfl | omega) [-BitVec.append_eq, Raw.cand, candC_21, c0, CRaw.op2, CRaw.acqs, CRaw.rels, CRaw.ords, CRaw.getOp2, CRaw.getAcq, CRaw.getRel, CRaw.getOrd, isOne, fn0, HAppend.hAppend, slice_hi, slice_lo]
theorem ldsp (y0 : LdKind) (y1 : SReg) (y2 : SReg) (y3 : W64) (y4 : Option Scope) : Statement (.ldsp y0 y1 y2 y3 y4) :=
  of_raw rfl fun w => by cases y4 <;> simp (discharger := first | rfl | omega) [-BitVec.append_eq, Raw.cand, candC_22, c0, CRaw.op2, CRaw.acqs, CRaw.rels, CRaw.ords, CRaw.getOp2, CRaw.getAcq, CRaw.getRel, CRaw.getOrd, isOne, fn0, HAppend.hAppend, slice_hi, slice_lo]
theorem stsp (y0 : StKind) (y1 : SReg) (y2 : SReg) (y3 : W64) (y4 : Option Scope) : Statement (.stsp y0 y1 y2 y3 y4) :=
  of_raw rfl fun w => by cases y4 <;> simp (discharger := first | rfl | omega) [-BitVec.append_eq, Raw.cand, candC_23, c0, CRaw.op2, CRaw.acqs, CRaw.rels, CRaw.ords, CRaw.getOp2, CRaw.getAcq, CRaw.getRel, CRaw.getOrd, isOne, fn0, HAppend.hAppend, slice_hi, slice_lo]
theorem waitge (y0 : SReg) (y1 : SReg) (y2 : Op2) (y3 : Scope) : Statement (.waitge y0 y1 y2 y3) :=
  of_raw rfl fun w => by cases y2 <;> simp (discharger := first | rfl | omega) [-BitVec.append_eq, Raw.cand, candC_24, c0, CRaw.op2, CRaw.acqs, CRaw.rels, CRaw.ords, CRaw.getOp2, CRaw.getAcq, CRaw.getRel, CRaw.getOrd, isOne, fn0, HAppend.hAppend, slice_hi, slice_lo]
theorem atadd (y0 : AtW) (y1 : SReg) (y2 : SReg) (y3 : Op2) (y4 : AtOrd) : Statement (.atadd y0 y1 y2 y3 y4) :=
  of_raw rfl fun w => by cases y3 <;> cases y4 <;> simp (discharger := first | rfl | omega) [-BitVec.append_eq, Raw.cand, candC_30, c0, CRaw.op2, CRaw.acqs, CRaw.rels, CRaw.ords, CRaw.getOp2, CRaw.getAcq, CRaw.getRel, CRaw.getOrd, isOne, fn0, HAppend.hAppend, slice_hi, slice_lo]
theorem atand (y0 : AtW) (y1 : SReg) (y2 : SReg) (y3 : Op2) (y4 : AtOrd) : Statement (.atand y0 y1 y2 y3 y4) :=
  of_raw rfl fun w => by cases y3 <;> cases y4 <;> simp (discharger := first | rfl | omega) [-BitVec.append_eq, Raw.cand, candC_31, c0, CRaw.op2, CRaw.acqs, CRaw.rels, CRaw.ords, CRaw.getOp2, CRaw.getAcq, CRaw.getRel, CRaw.getOrd, isOne, fn0, HAppend.hAppend, slice_hi, slice_lo]
theorem ator (y0 : AtW) (y1 : SReg) (y2 : SReg) (y3 : Op2) (y4 : AtOrd) : Statement (.ator y0 y1 y2 y3 y4) :=
  of_raw rfl fun w => by cases y3 <;> cases y4 <;> simp (discharger := first | rfl | omega) [-BitVec.append_eq, Raw.cand, candC_32, c0, CRaw.op2, CRaw.acqs, CRaw.rels, CRaw.ords, CRaw.getOp2, CRaw.getAcq, CRaw.getRel, CRaw.getOrd, isOne, fn0, HAppend.hAppend, slice_hi, slice_lo]
theorem atxor (y0 : AtW) (y1 : SReg) (y2 : SReg) (y3 : Op2) (y4 : AtOrd) : Statement (.atxor y0 y1 y2 y3 y4) :=
  of_raw rfl fun w => by cases y3 <;> cases y4 <;> simp (discharger := first | rfl | omega) [-BitVec.append_eq, Raw.cand, candC_33, c0, CRaw.op2, CRaw.acqs, CRaw.rels, CRaw.ords, CRaw.getOp2, CRaw.getAcq, CRaw.getRel, CRaw.getOrd, isOne, fn0, HAppend.hAppend, slice_hi, slice_lo]
theorem atmin (y0 : AtW) (y1 : Sgn) (y2 : SReg) (y3 : SReg) (y4 : Op2) (y5 : AtOrd) : Statement (.atmin y0 y1 y2 y3 y4 y5) :=
  of_raw rfl fun w => by cases y4 <;> cases y5 <;> simp (discharger := first | rfl | omega) [-BitVec.append_eq, Raw.cand, candC_34, c0, CRaw.op2, CRaw.acqs, CRaw.rels, CRaw.ords, CRaw.getOp2, CRaw.getAcq, CRaw.getRel, CRaw.getOrd, isOne, fn0, HAppend.hAppend, slice_hi, slice_lo]
theorem atmax (y0 : AtW) (y1 : Sgn) (y2 : SReg) (y3 : SReg) (y4 : Op2) (y5 : AtOrd) : Statement (.atmax y0 y1 y2 y3 y4 y5) :=
  of_raw rfl fun w => by cases y4 <;> cases y5 <;> simp (discharger := first | rfl | omega) [-BitVec.append_eq, Raw.cand, candC_35, c0, CRaw.op2, CRaw.acqs, CRaw.rels, CRaw.ords, CRaw.getOp2, CRaw.getAcq, CRaw.getRel, CRaw.getOrd, isOne, fn0, HAppend.hAppend, slice_hi, slice_lo]
theorem atswp (y0 : AtW) (y1 : SReg) (y2 : SReg) (y3 : Op2) (y4 : AtOrd) : Statement (.atswp y0 y1 y2 y3 y4) :=
  of_raw rfl fun w => by cases y3 <;> cases y4 <;> simp (discharger := first | rfl | omega) [-BitVec.append_eq, Raw.cand, candC_36, c0, CRaw.op2, CRaw.acqs, CRaw.rels, CRaw.ords, CRaw.getOp2, CRaw.getAcq, CRaw.getRel, CRaw.getOrd, isOne, fn0, HAppend.hAppend, slice_hi, slice_lo]
theorem atcas (y0 : AtW) (y1 : SReg) (y2 : SReg) (y3 : SReg) (y4 : Op2) (y5 : AtOrd) : Statement (.atcas y0 y1 y2 y3 y4 y5) :=
  of_raw rfl fun w => by cases y4 <;> cases y5 <;> simp (discharger := first | rfl | omega) [-BitVec.append_eq, Raw.cand, candC_37, c0, CRaw.op2, CRaw.acqs, CRaw.rels, CRaw.ords, CRaw.getOp2, CRaw.getAcq, CRaw.getRel, CRaw.getOrd, isOne, fn0, HAppend.hAppend, slice_hi, slice_lo]
theorem mark : Statement .mark :=
  of_raw rfl fun w => by simp (discharger := first | rfl | omega) [-BitVec.append_eq, Raw.cand, candC_38, c0, CRaw.op2, CRaw.acqs, CRaw.rels, CRaw.ords, CRaw.getOp2, CRaw.getAcq, CRaw.getRel, CRaw.getOrd, isOne, fn0, HAppend.hAppend, slice_hi, slice_lo]
theorem fence (y0 : FenceKind) (y1 : Scope) : Statement (.fence y0 y1) :=
  of_raw rfl fun w => by cases y0 <;> simp (discharger := first | rfl | omega) [-BitVec.append_eq, Raw.cand, candC_39, c0, CRaw.op2, CRaw.acqs, CRaw.rels, CRaw.ords, CRaw.getOp2, CRaw.getAcq, CRaw.getRel, CRaw.getOrd, isOne, fn0, HAppend.hAppend, slice_hi, slice_lo]
theorem fencex (y0 : BitVec 5) (y1 : BitVec 5) : Statement (.fencex y0 y1) :=
  of_raw rfl fun w => by simp (discharger := first | rfl | omega) [-BitVec.append_eq, Raw.cand, candC_3A, c0, CRaw.op2, CRaw.acqs, CRaw.rels, CRaw.ords, CRaw.getOp2, CRaw.getAcq, CRaw.getRel, CRaw.getOrd, isOne, fn0, HAppend.hAppend, slice_hi, slice_lo]
theorem bar (y0 : BitVec 3) : Statement (.bar y0) :=
  of_raw rfl fun w => by 
    have h1 : ∀ y : BitVec 3, ¬(0#3).append y = 16#6 := by decide
    have h2 : ∀ y : BitVec 3, ((0#3).append y).toNat < 8 := by decide
    have h3 : ∀ y : BitVec 3, ((0#3).append y).extractLsb' 0 3 = y := by decide
    simp [-BitVec.append_eq, Raw.cand, candC_3B, c0, HAppend.hAppend, h1, h2, h3]
theorem barPart (y0 : W32) : Statement (.barPart y0) :=
  of_raw rfl fun w => by simp (discharger := first | rfl | omega) [-BitVec.append_eq, Raw.cand, candC_3B, c0, CRaw.op2, CRaw.acqs, CRaw.rels, CRaw.ords, CRaw.getOp2, CRaw.getAcq, CRaw.getRel, CRaw.getOrd, isOne, fn0, HAppend.hAppend, slice_hi, slice_lo]
theorem hmov (y0 : HReg) (y1 : HReg) : Statement (.hmov y0 y1) :=
  of_raw rfl fun w => by simp (discharger := first | rfl | omega) [-BitVec.append_eq, Raw.cand, candC_40, c0, CRaw.op2, CRaw.acqs, CRaw.rels, CRaw.ords, CRaw.getOp2, CRaw.getAcq, CRaw.getRel, CRaw.getOrd, isOne, fn0, HAppend.hAppend, slice_hi, slice_lo]
theorem hld (y0 : HReg) (y1 : SReg) (y2 : W64) : Statement (.hld y0 y1 y2) :=
  of_raw rfl fun w => by simp (discharger := first | rfl | omega) [-BitVec.append_eq, Raw.cand, candC_41, c0, CRaw.op2, CRaw.acqs, CRaw.rels, CRaw.ords, CRaw.getOp2, CRaw.getAcq, CRaw.getRel, CRaw.getOrd, isOne, fn0, HAppend.hAppend, slice_hi, slice_lo]
theorem hst (y0 : HReg) (y1 : SReg) (y2 : W64) : Statement (.hst y0 y1 y2) :=
  of_raw rfl fun w => by simp (discharger := first | rfl | omega) [-BitVec.append_eq, Raw.cand, candC_42, c0, CRaw.op2, CRaw.acqs, CRaw.rels, CRaw.ords, CRaw.getOp2, CRaw.getAcq, CRaw.getRel, CRaw.getOrd, isOne, fn0, HAppend.hAppend, slice_hi, slice_lo]
theorem hsetb (y0 : HSpc) (y1 : HReg) (y2 : Op2) : Statement (.hsetb y0 y1 y2) :=
  of_raw rfl fun w => by cases y2 <;> simp (discharger := first | rfl | omega) [-BitVec.append_eq, Raw.cand, candC_43, c0, CRaw.op2, CRaw.acqs, CRaw.rels, CRaw.ords, CRaw.getOp2, CRaw.getAcq, CRaw.getRel, CRaw.getOrd, isOne, fn0, HAppend.hAppend, slice_hi, slice_lo]
theorem hsetx (y0 : HReg) (y1 : BitVec 6) (y2 : Op2) : Statement (.hsetx y0 y1 y2) :=
  of_raw rfl fun w => by cases y2 <;> simp (discharger := first | rfl | omega) [-BitVec.append_eq, Raw.cand, candC_44, c0, CRaw.op2, CRaw.acqs, CRaw.rels, CRaw.ords, CRaw.getOp2, CRaw.getAcq, CRaw.getRel, CRaw.getOrd, isOne, fn0, HAppend.hAppend, slice_hi, slice_lo]
theorem hsets (y0 : HReg) (y1 : Op2) : Statement (.hsets y0 y1) :=
  of_raw rfl fun w => by cases y1 <;> simp (discharger := first | rfl | omega) [-BitVec.append_eq, Raw.cand, candC_45, c0, CRaw.op2, CRaw.acqs, CRaw.rels, CRaw.ords, CRaw.getOp2, CRaw.getAcq, CRaw.getRel, CRaw.getOrd, isOne, fn0, HAppend.hAppend, slice_hi, slice_lo]
theorem hsetf (y0 : HReg) (y1 : Op2) : Statement (.hsetf y0 y1) :=
  of_raw rfl fun w => by cases y1 <;> simp (discharger := first | rfl | omega) [-BitVec.append_eq, Raw.cand, candC_46, c0, CRaw.op2, CRaw.acqs, CRaw.rels, CRaw.ords, CRaw.getOp2, CRaw.getAcq, CRaw.getRel, CRaw.getOrd, isOne, fn0, HAppend.hAppend, slice_hi, slice_lo]
theorem hget (y0 : SReg) (y1 : HReg) (y2 : BitVec 12) : Statement (.hget y0 y1 y2) :=
  of_raw rfl fun w => by simp (discharger := first | rfl | omega) [-BitVec.append_eq, Raw.cand, candC_47, c0, CRaw.op2, CRaw.acqs, CRaw.rels, CRaw.ords, CRaw.getOp2, CRaw.getAcq, CRaw.getRel, CRaw.getOrd, isOne, fn0, HAppend.hAppend, slice_hi, slice_lo]
theorem hoff (y0 : HReg) (y1 : BitVec 6) (y2 : Op2) : Statement (.hoff y0 y1 y2) :=
  of_raw rfl fun w => by cases y2 <;> simp (discharger := first | rfl | omega) [-BitVec.append_eq, Raw.cand, candC_48, c0, CRaw.op2, CRaw.acqs, CRaw.rels, CRaw.ords, CRaw.getOp2, CRaw.getAcq, CRaw.getRel, CRaw.getOrd, isOne, fn0, HAppend.hAppend, slice_hi, slice_lo]
theorem hclr (y0 : HReg) : Statement (.hclr y0) :=
  of_raw rfl fun w => by simp (discharger := first | rfl | omega) [-BitVec.append_eq, Raw.cand, candC_49, c0, CRaw.op2, CRaw.acqs, CRaw.rels, CRaw.ords, CRaw.getOp2, CRaw.getAcq, CRaw.getRel, CRaw.getOrd, isOne, fn0, HAppend.hAppend, slice_hi, slice_lo]
theorem tlook (y0 : SReg) (y1 : SReg) : Statement (.tlook y0 y1) :=
  of_raw rfl fun w => by simp (discharger := first | rfl | omega) [-BitVec.append_eq, Raw.cand, candC_50, c0, CRaw.op2, CRaw.acqs, CRaw.rels, CRaw.ords, CRaw.getOp2, CRaw.getAcq, CRaw.getRel, CRaw.getOrd, isOne, fn0, HAppend.hAppend, slice_hi, slice_lo]
theorem tset (y0 : SReg) (y1 : Op2) : Statement (.tset y0 y1) :=
  of_raw rfl fun w => by cases y1 <;> simp (discharger := first | rfl | omega) [-BitVec.append_eq, Raw.cand, candC_51, c0, CRaw.op2, CRaw.acqs, CRaw.rels, CRaw.ords, CRaw.getOp2, CRaw.getAcq, CRaw.getRel, CRaw.getOrd, isOne, fn0, HAppend.hAppend, slice_hi, slice_lo]
theorem tclr (y0 : Op2) : Statement (.tclr y0) :=
  of_raw rfl fun w => by cases y0 <;> simp (discharger := first | rfl | omega) [-BitVec.append_eq, Raw.cand, candC_52, c0, CRaw.op2, CRaw.acqs, CRaw.rels, CRaw.ords, CRaw.getOp2, CRaw.getAcq, CRaw.getRel, CRaw.getOrd, isOne, fn0, HAppend.hAppend, slice_hi, slice_lo]
theorem tclrAll : Statement .tclrAll :=
  of_raw rfl fun w => by simp (discharger := first | rfl | omega) [-BitVec.append_eq, Raw.cand, candC_52, c0, CRaw.op2, CRaw.acqs, CRaw.rels, CRaw.ords, CRaw.getOp2, CRaw.getAcq, CRaw.getRel, CRaw.getOrd, isOne, fn0, HAppend.hAppend, slice_hi, slice_lo]
theorem tinfo (y0 : SReg) (y1 : Op2) : Statement (.tinfo y0 y1) :=
  of_raw rfl fun w => by cases y1 <;> simp (discharger := first | rfl | omega) [-BitVec.append_eq, Raw.cand, candC_53, c0, CRaw.op2, CRaw.acqs, CRaw.rels, CRaw.ords, CRaw.getOp2, CRaw.getAcq, CRaw.getRel, CRaw.getOrd, isOne, fn0, HAppend.hAppend, slice_hi, slice_lo]
theorem ropen (y0 : HReg) : Statement (.ropen y0) :=
  of_raw rfl fun w => by simp (discharger := first | rfl | omega) [-BitVec.append_eq, Raw.cand, candC_58, c0, CRaw.op2, CRaw.acqs, CRaw.rels, CRaw.ords, CRaw.getOp2, CRaw.getAcq, CRaw.getRel, CRaw.getOrd, isOne, fn0, HAppend.hAppend, slice_hi, slice_lo]
theorem rslice (y0 : HReg) (y1 : Op2) : Statement (.rslice y0 y1) :=
  of_raw rfl fun w => by cases y1 <;> simp (discharger := first | rfl | omega) [-BitVec.append_eq, Raw.cand, candC_59, c0, CRaw.op2, CRaw.acqs, CRaw.rels, CRaw.ords, CRaw.getOp2, CRaw.getAcq, CRaw.getRel, CRaw.getOrd, isOne, fn0, HAppend.hAppend, slice_hi, slice_lo]
theorem rclose (y0 : HReg) : Statement (.rclose y0) :=
  of_raw rfl fun w => by simp (discharger := first | rfl | omega) [-BitVec.append_eq, Raw.cand, candC_5A, c0, CRaw.op2, CRaw.acqs, CRaw.rels, CRaw.ords, CRaw.getOp2, CRaw.getAcq, CRaw.getRel, CRaw.getOrd, isOne, fn0, HAppend.hAppend, slice_hi, slice_lo]
theorem inst (y0 : SReg) (y1 : HReg) (y2 : HReg) (y3 : Op2) (y4 : Bool) (y5 : Option FlagNo) (y6 : Bool) (y7 : Option (BitVec 6)) : Statement (.inst y0 y1 y2 y3 y4 y5 y6 y7) :=
  of_raw rfl fun w => by cases y3 <;> cases y4 <;> cases y6 <;> cases y5 <;> cases y7 <;> simp (discharger := first | rfl | omega) [-BitVec.append_eq, Raw.cand, candC_5B, bit1, c0, CRaw.op2, CRaw.acqs, CRaw.rels, CRaw.ords, CRaw.getOp2, CRaw.getAcq, CRaw.getRel, CRaw.getOrd, isOne, fn0, HAppend.hAppend, slice_hi, slice_lo] <;> decide
theorem rvk (y0 : Op2) : Statement (.rvk y0) :=
  of_raw rfl fun w => by cases y0 <;> simp (discharger := first | rfl | omega) [-BitVec.append_eq, Raw.cand, candC_5C, c0, CRaw.op2, CRaw.acqs, CRaw.rels, CRaw.ords, CRaw.getOp2, CRaw.getAcq, CRaw.getRel, CRaw.getOrd, isOne, fn0, HAppend.hAppend, slice_hi, slice_lo]
theorem rvkat (y0 : SReg) (y1 : Op2) : Statement (.rvkat y0 y1) :=
  of_raw rfl fun w => by cases y1 <;> simp (discharger := first | rfl | omega) [-BitVec.append_eq, Raw.cand, candC_5D, c0, CRaw.op2, CRaw.acqs, CRaw.rels, CRaw.ords, CRaw.getOp2, CRaw.getAcq, CRaw.getRel, CRaw.getOrd, isOne, fn0, HAppend.hAppend, slice_hi, slice_lo]
theorem rqryRule (y0 : SReg) (y1 : Op2) : Statement (.rqryRule y0 y1) :=
  of_raw rfl fun w => by cases y1 <;> simp (discharger := first | rfl | omega) [-BitVec.append_eq, Raw.cand, candC_5E, c0, CRaw.op2, CRaw.acqs, CRaw.rels, CRaw.ords, CRaw.getOp2, CRaw.getAcq, CRaw.getRel, CRaw.getOrd, isOne, fn0, HAppend.hAppend, slice_hi, slice_lo]
theorem rqryRec (y0 : SReg) (y1 : Op2) : Statement (.rqryRec y0 y1) :=
  of_raw rfl fun w => by cases y1 <;> simp (discharger := first | rfl | omega) [-BitVec.append_eq, Raw.cand, candC_5E, c0, CRaw.op2, CRaw.acqs, CRaw.rels, CRaw.ords, CRaw.getOp2, CRaw.getAcq, CRaw.getRel, CRaw.getOrd, isOne, fn0, HAppend.hAppend, slice_hi, slice_lo]
theorem rqryCur (y0 : SReg) (y1 : Op2) : Statement (.rqryCur y0 y1) :=
  of_raw rfl fun w => by cases y1 <;> simp (discharger := first | rfl | omega) [-BitVec.append_eq, Raw.cand, candC_5E, c0, CRaw.op2, CRaw.acqs, CRaw.rels, CRaw.ords, CRaw.getOp2, CRaw.getAcq, CRaw.getRel, CRaw.getOrd, isOne, fn0, HAppend.hAppend, slice_hi, slice_lo]
theorem rres (y0 : Op2) : Statement (.rres y0) :=
  of_raw rfl fun w => by cases y0 <;> simp (discharger := first | rfl | omega) [-BitVec.append_eq, Raw.cand, candC_5F, c0, CRaw.op2, CRaw.acqs, CRaw.rels, CRaw.ords, CRaw.getOp2, CRaw.getAcq, CRaw.getRel, CRaw.getOrd, isOne, fn0, HAppend.hAppend, slice_hi, slice_lo]
theorem snew (y0 : HReg) (y1 : HReg) (y2 : Op2) : Statement (.snew y0 y1 y2) :=
  of_raw rfl fun w => by cases y2 <;> simp (discharger := first | rfl | omega) [-BitVec.append_eq, Raw.cand, candC_60, c0, CRaw.op2, CRaw.acqs, CRaw.rels, CRaw.ords, CRaw.getOp2, CRaw.getAcq, CRaw.getRel, CRaw.getOrd, isOne, fn0, HAppend.hAppend, slice_hi, slice_lo]
theorem ssend (y0 : Bool) (y1 : SReg) (y2 : HReg) (y3 : SReg) (y4 : Op2) (y5 : Option Scope) : Statement (.ssend y0 y1 y2 y3 y4 y5) :=
  of_raw rfl fun w => by cases y0 <;> cases y4 <;> cases y5 <;> simp (discharger := first | rfl | omega) [-BitVec.append_eq, Raw.cand, candC_61, bit1, c0, CRaw.op2, CRaw.acqs, CRaw.rels, CRaw.ords, CRaw.getOp2, CRaw.getAcq, CRaw.getRel, CRaw.getOrd, isOne, fn0, HAppend.hAppend, slice_hi, slice_lo] <;> rfl
theorem srecv (y0 : Bool) (y1 : SReg) (y2 : HReg) (y3 : SReg) (y4 : Op2) (y5 : Option Scope) : Statement (.srecv y0 y1 y2 y3 y4 y5) :=
  of_raw rfl fun w => by cases y0 <;> cases y4 <;> cases y5 <;> simp (discharger := first | rfl | omega) [-BitVec.append_eq, Raw.cand, candC_62, bit1, c0, CRaw.op2, CRaw.acqs, CRaw.rels, CRaw.ords, CRaw.getOp2, CRaw.getAcq, CRaw.getRel, CRaw.getOrd, isOne, fn0, HAppend.hAppend, slice_hi, slice_lo] <;> rfl
theorem ssendh (y0 : Bool) (y1 : SReg) (y2 : HReg) (y3 : HReg) (y4 : Option Scope) : Statement (.ssendh y0 y1 y2 y3 y4) :=
  of_raw rfl fun w => by cases y0 <;> cases y4 <;> simp (discharger := first | rfl | omega) [-BitVec.append_eq, Raw.cand, candC_63, bit1, c0, CRaw.op2, CRaw.acqs, CRaw.rels, CRaw.ords, CRaw.getOp2, CRaw.getAcq, CRaw.getRel, CRaw.getOrd, isOne, fn0, HAppend.hAppend, slice_hi, slice_lo] <;> rfl
theorem srecvh (y0 : Bool) (y1 : SReg) (y2 : HReg) (y3 : HReg) (y4 : Option Scope) : Statement (.srecvh y0 y1 y2 y3 y4) :=
  of_raw rfl fun w => by cases y0 <;> cases y4 <;> simp (discharger := first | rfl | omega) [-BitVec.append_eq, Raw.cand, candC_64, bit1, c0, CRaw.op2, CRaw.acqs, CRaw.rels, CRaw.ords, CRaw.getOp2, CRaw.getAcq, CRaw.getRel, CRaw.getOrd, isOne, fn0, HAppend.hAppend, slice_hi, slice_lo] <;> rfl
theorem sbind (y0 : HReg) (y1 : HReg) (y2 : Op2) : Statement (.sbind y0 y1 y2) :=
  of_raw rfl fun w => by cases y2 <;> simp (discharger := first | rfl | omega) [-BitVec.append_eq, Raw.cand, candC_65, c0, CRaw.op2, CRaw.acqs, CRaw.rels, CRaw.ords, CRaw.getOp2, CRaw.getAcq, CRaw.getRel, CRaw.getOrd, isOne, fn0, HAppend.hAppend, slice_hi, slice_lo]
theorem sbindOff (y0 : HReg) : Statement (.sbindOff y0) :=
  of_raw rfl fun w => by simp (discharger := first | rfl | omega) [-BitVec.append_eq, Raw.cand, candC_65, c0, CRaw.op2, CRaw.acqs, CRaw.rels, CRaw.ords, CRaw.getOp2, CRaw.getAcq, CRaw.getRel, CRaw.getOrd, isOne, fn0, HAppend.hAppend, slice_hi, slice_lo]
theorem sclose (y0 : HReg) : Statement (.sclose y0) :=
  of_raw rfl fun w => by simp (discharger := first | rfl | omega) [-BitVec.append_eq, Raw.cand, candC_66, c0, CRaw.op2, CRaw.acqs, CRaw.rels, CRaw.ords, CRaw.getOp2, CRaw.getAcq, CRaw.getRel, CRaw.getOrd, isOne, fn0, HAppend.hAppend, slice_hi, slice_lo]
theorem sdrop (y0 : HReg) : Statement (.sdrop y0) :=
  of_raw rfl fun w => by simp (discharger := first | rfl | omega) [-BitVec.append_eq, Raw.cand, candC_67, c0, CRaw.op2, CRaw.acqs, CRaw.rels, CRaw.ords, CRaw.getOp2, CRaw.getAcq, CRaw.getRel, CRaw.getOrd, isOne, fn0, HAppend.hAppend, slice_hi, slice_lo]
theorem sstat (y0 : SReg) (y1 : HReg) : Statement (.sstat y0 y1) :=
  of_raw rfl fun w => by simp (discharger := first | rfl | omega) [-BitVec.append_eq, Raw.cand, candC_68, c0, CRaw.op2, CRaw.acqs, CRaw.rels, CRaw.ords, CRaw.getOp2, CRaw.getAcq, CRaw.getRel, CRaw.getOrd, isOne, fn0, HAppend.hAppend, slice_hi, slice_lo]
theorem srd (y0 : SReg) (y1 : BitVec 12) : Statement (.srd y0 y1) :=
  of_raw rfl fun w => by simp (discharger := first | rfl | omega) [-BitVec.append_eq, Raw.cand, candC_70, c0, CRaw.op2, CRaw.acqs, CRaw.rels, CRaw.ords, CRaw.getOp2, CRaw.getAcq, CRaw.getRel, CRaw.getOrd, isOne, fn0, HAppend.hAppend, slice_hi, slice_lo]
theorem swr (y0 : BitVec 12) (y1 : Op2) : Statement (.swr y0 y1) :=
  of_raw rfl fun w => by cases y1 <;> simp (discharger := first | rfl | omega) [-BitVec.append_eq, Raw.cand, candC_71, c0, CRaw.op2, CRaw.acqs, CRaw.rels, CRaw.ords, CRaw.getOp2, CRaw.getAcq, CRaw.getRel, CRaw.getOrd, isOne, fn0, HAppend.hAppend, slice_hi, slice_lo]
theorem mbxrd (y0 : SReg) (y1 : BitVec 4) (y2 : Option Scope) : Statement (.mbxrd y0 y1 y2) :=
  of_raw rfl fun w => by cases y2 <;> simp (discharger := first | rfl | omega) [-BitVec.append_eq, Raw.cand, candC_72, c0, CRaw.op2, CRaw.acqs, CRaw.rels, CRaw.ords, CRaw.getOp2, CRaw.getAcq, CRaw.getRel, CRaw.getOrd, isOne, fn0, HAppend.hAppend, slice_hi, slice_lo]
theorem trap (y0 : W64) : Statement (.trap y0) :=
  of_raw rfl fun w => by simp (discharger := first | rfl | omega) [-BitVec.append_eq, Raw.cand, candC_73, c0, CRaw.op2, CRaw.acqs, CRaw.rels, CRaw.ords, CRaw.getOp2, CRaw.getAcq, CRaw.getRel, CRaw.getOrd, isOne, fn0, HAppend.hAppend, slice_hi, slice_lo]
theorem eret : Statement .eret :=
  of_raw rfl fun w => by simp (discharger := first | rfl | omega) [-BitVec.append_eq, Raw.cand, candC_74, c0, CRaw.op2, CRaw.acqs, CRaw.rels, CRaw.ords, CRaw.getOp2, CRaw.getAcq, CRaw.getRel, CRaw.getOrd, isOne, fn0, HAppend.hAppend, slice_hi, slice_lo]
theorem eretSkip : Statement .eretSkip :=
  of_raw rfl fun w => by simp (discharger := first | rfl | omega) [-BitVec.append_eq, Raw.cand, candC_74, c0, CRaw.op2, CRaw.acqs, CRaw.rels, CRaw.ords, CRaw.getOp2, CRaw.getAcq, CRaw.getRel, CRaw.getOrd, isOne, fn0, HAppend.hAppend, slice_hi, slice_lo]
theorem yield : Statement .yield :=
  of_raw rfl fun w => by simp (discharger := first | rfl | omega) [-BitVec.append_eq, Raw.cand, candC_75, c0, CRaw.op2, CRaw.acqs, CRaw.rels, CRaw.ords, CRaw.getOp2, CRaw.getAcq, CRaw.getRel, CRaw.getOrd, isOne, fn0, HAppend.hAppend, slice_hi, slice_lo]
theorem exit : Statement .exit :=
  of_raw rfl fun w => by simp (discharger := first | rfl | omega) [-BitVec.append_eq, Raw.cand, candC_76, c0, CRaw.op2, CRaw.acqs, CRaw.rels, CRaw.ords, CRaw.getOp2, CRaw.getAcq, CRaw.getRel, CRaw.getOrd, isOne, fn0, HAppend.hAppend, slice_hi, slice_lo]
theorem post (y0 : Eng) (y1 : FlagNo) (y2 : W64) : Statement (.post y0 y1 y2) := by
  cases y0 with
  | ctl => exact of_raw (r0 := .c false _) rfl fun w => by simp (discharger := first | rfl | omega) [-BitVec.append_eq, Raw.cand, candC_7E, c0, fn0, HAppend.hAppend, slice_hi, slice_lo]
  | acc => exact of_raw (r0 := .c true _) rfl fun w => by simp (discharger := first | rfl | omega) [-BitVec.append_eq, Raw.cand, candAccC_7E, c0, fn0, HAppend.hAppend, slice_hi, slice_lo]
  | vec | mat | cld | cst | fab => exact fun _ _ w => absurd w (by simp [Instr.wf])
theorem await (y0 : Eng) (y1 : FlagNo) (y2 : W64) : Statement (.await y0 y1 y2) := by
  cases y0 with
  | ctl => exact of_raw (r0 := .c false _) rfl fun w => by simp (discharger := first | rfl | omega) [-BitVec.append_eq, Raw.cand, candC_7F, c0, fn0, HAppend.hAppend, slice_hi, slice_lo]
  | acc => exact of_raw (r0 := .c true _) rfl fun w => by simp (discharger := first | rfl | omega) [-BitVec.append_eq, Raw.cand, candAccC_7F, c0, fn0, HAppend.hAppend, slice_hi, slice_lo]
  | vec | mat | cld | cst | fab => exact fun _ _ w => absurd w (by simp [Instr.wf])
theorem postTail (y0 : Eng) (y1 : TailClause) : Statement (.postTail y0 y1) :=
  of_raw rfl fun w => by simp (discharger := first | rfl | omega) [-BitVec.append_eq, Raw.cand, candT, fn0, HAppend.hAppend, slice_hi, slice_lo]
theorem awaitTail (y0 : Eng) (y1 : TailClause) : Statement (.awaitTail y0 y1) :=
  of_raw rfl fun w => by simp (discharger := first | rfl | omega) [-BitVec.append_eq, Raw.cand, candT, fn0, HAppend.hAppend, slice_hi, slice_lo]
theorem aset (y0 : AReg) (y1 : W64) : Statement (.aset y0 y1) :=
  of_raw rfl fun w => by simp (discharger := first | rfl | omega) [-BitVec.append_eq, Raw.cand, candA_00, a0, fn0, HAppend.hAppend, slice_hi, slice_lo]
theorem aadd (y0 : AReg) (y1 : AReg) (y2 : W64) : Statement (.aadd y0 y1 y2) :=
  of_raw rfl fun w => by simp (discharger := first | rfl | omega) [-BitVec.append_eq, Raw.cand, candA_01, a0, fn0, HAppend.hAppend, slice_hi, slice_lo]
theorem aaddReg (y0 : AReg) (y1 : AReg) (y2 : AReg) : Statement (.aaddReg y0 y1 y2) :=
  of_raw rfl fun w => by simp (discharger := first | rfl | omega) [-BitVec.append_eq, Raw.cand, candA_01, a0, fn0, HAppend.hAppend, slice_hi, slice_lo]
theorem ashl (y0 : AReg) (y1 : AReg) (y2 : BitVec 6) : Statement (.ashl y0 y1 y2) :=
  of_raw rfl fun w => by simp (discharger := first | rfl | omega) [-BitVec.append_eq, Raw.cand, candA_02, a0, fn0, HAppend.hAppend, slice_hi, slice_lo]
theorem ard (y0 : QNo) (y1 : AReg) (y2 : BitVec 5) (y3 : BitVec 24) (y4 : W64) : Statement (.ard y0 y1 y2 y3 y4) :=
  of_raw rfl fun w => by simp (discharger := first | rfl | omega) [-BitVec.append_eq, Raw.cand, candA_03, a0, fn0, HAppend.hAppend, slice_hi, slice_lo]
theorem ardb (y0 : QNo) (y1 : AReg) (y2 : BitVec 5) (y3 : BitVec 24) (y4 : W64) : Statement (.ardb y0 y1 y2 y3 y4) :=
  of_raw rfl fun w => by simp (discharger := first | rfl | omega) [-BitVec.append_eq, Raw.cand, candA_04, a0, fn0, HAppend.hAppend, slice_hi, slice_lo]
theorem waitwp (y0 : ChanNo) (y1 : W32) : Statement (.waitwp y0 y1) :=
  of_raw rfl fun w => by simp (discharger := first | rfl | omega) [-BitVec.append_eq, Raw.cand, candA_05, a0, fn0, HAppend.hAppend, slice_hi, slice_lo]
theorem aldi (y0 : AReg) (y1 : AReg) (y2 : Fin 6) (y3 : W64) : Statement (.aldi y0 y1 y2 y3) :=
  of_raw rfl fun w => by simp (discharger := first | rfl | omega) [-BitVec.append_eq, Raw.cand, candA_06, a0, fn0, HAppend.hAppend, slice_hi, slice_lo]
theorem vadd (y0 : FTy) (y1 : RMode) (y2 : VDst) (y3 : VSrc) (y4 : VSrc) (y5 : W64) : Statement (.vadd y0 y1 y2 y3 y4 y5) :=
  of_raw rfl fun w => by simp (discharger := first | rfl | omega) [-BitVec.append_eq, Raw.cand, candV_00, fn0, HAppend.hAppend, slice_hi, slice_lo]
theorem vsub (y0 : FTy) (y1 : RMode) (y2 : VDst) (y3 : VSrc) (y4 : VSrc) (y5 : W64) : Statement (.vsub y0 y1 y2 y3 y4 y5) :=
  of_raw rfl fun w => by simp (discharger := first | rfl | omega) [-BitVec.append_eq, Raw.cand, candV_01, fn0, HAppend.hAppend, slice_hi, slice_lo]
theorem vmul (y0 : FTy) (y1 : RMode) (y2 : VDst) (y3 : VSrc) (y4 : VSrc) (y5 : W64) : Statement (.vmul y0 y1 y2 y3 y4 y5) :=
  of_raw rfl fun w => by simp (discharger := first | rfl | omega) [-BitVec.append_eq, Raw.cand, candV_02, fn0, HAppend.hAppend, slice_hi, slice_lo]
theorem vfma (y0 : FTy) (y1 : RMode) (y2 : VDst) (y3 : VSrc) (y4 : VSrc) (y5 : VSrc) (y6 : W64) : Statement (.vfma y0 y1 y2 y3 y4 y5 y6) :=
  of_raw rfl fun w => by simp (discharger := first | rfl | omega) [-BitVec.append_eq, Raw.cand, candV_03, fn0, HAppend.hAppend, slice_hi, slice_lo]
theorem vfms (y0 : FTy) (y1 : RMode) (y2 : VDst) (y3 : VSrc) (y4 : VSrc) (y5 : VSrc) (y6 : W64) : Statement (.vfms y0 y1 y2 y3 y4 y5 y6) :=
  of_raw rfl fun w => by simp (discharger := first | rfl | omega) [-BitVec.append_eq, Raw.cand, candV_04, fn0, HAppend.hAppend, slice_hi, slice_lo]
theorem vfnma (y0 : FTy) (y1 : RMode) (y2 : VDst) (y3 : VSrc) (y4 : VSrc) (y5 : VSrc) (y6 : W64) : Statement (.vfnma y0 y1 y2 y3 y4 y5 y6) :=
  of_raw rfl fun w => by simp (discharger := first | rfl | omega) [-BitVec.append_eq, Raw.cand, candV_05, fn0, HAppend.hAppend, slice_hi, slice_lo]
theorem vmin (y0 : FTy) (y1 : RMode) (y2 : VDst) (y3 : VSrc) (y4 : VSrc) (y5 : W64) : Statement (.vmin y0 y1 y2 y3 y4 y5) :=
  of_raw rfl fun w => by simp (discharger := first | rfl | omega) [-BitVec.append_eq, Raw.cand, candV_06, fn0, HAppend.hAppend, slice_hi, slice_lo]
theorem vmax (y0 : FTy) (y1 : RMode) (y2 : VDst) (y3 : VSrc) (y4 : VSrc) (y5 : W64) : Statement (.vmax y0 y1 y2 y3 y4 y5) :=
  of_raw rfl fun w => by simp (discharger := first | rfl | omega) [-BitVec.append_eq, Raw.cand, candV_07, fn0, HAppend.hAppend, slice_hi, slice_lo]
theorem vabs (y0 : FTy) (y1 : RMode) (y2 : VDst) (y3 : VSrc) (y4 : W64) : Statement (.vabs y0 y1 y2 y3 y4) :=
  of_raw rfl fun w => by simp (discharger := first | rfl | omega) [-BitVec.append_eq, Raw.cand, candV_08, fn0, HAppend.hAppend, slice_hi, slice_lo]
theorem vneg (y0 : FTy) (y1 : RMode) (y2 : VDst) (y3 : VSrc) (y4 : W64) : Statement (.vneg y0 y1 y2 y3 y4) :=
  of_raw rfl fun w => by simp (discharger := first | rfl | omega) [-BitVec.append_eq, Raw.cand, candV_09, fn0, HAppend.hAppend, slice_hi, slice_lo]
theorem vdiv (y0 : VTy) (y1 : RMode) (y2 : VDst) (y3 : VSrc) (y4 : VSrc) (y5 : W64) : Statement (.vdiv y0 y1 y2 y3 y4 y5) :=
  of_raw rfl fun w => by simp (discharger := first | rfl | omega) [-BitVec.append_eq, Raw.cand, candV_0A, fn0, HAppend.hAppend, slice_hi, slice_lo]
theorem vdivRem (y0 : ITy) (y1 : VDst) (y2 : VSrc) (y3 : VSrc) (y4 : W64) : Statement (.vdivRem y0 y1 y2 y3 y4) :=
  of_raw rfl fun w => by simp (discharger := first | rfl | omega) [-BitVec.append_eq, Raw.cand, candV_0A, fn0, HAppend.hAppend, slice_hi, slice_lo]
theorem vfma16 (y0 : RMode) (y1 : VDst) (y2 : VSrc) (y3 : VSrc) (y4 : VSrc) (y5 : W64) : Statement (.vfma16 y0 y1 y2 y3 y4 y5) :=
  of_raw rfl fun w => by simp (discharger := first | rfl | omega) [-BitVec.append_eq, Raw.cand, candV_0B, fn0, HAppend.hAppend, slice_hi, slice_lo]
theorem viadd (y0 : ITy) (y1 : Bool) (y2 : VDst) (y3 : VSrc) (y4 : VSrc) (y5 : W64) : Statement (.viadd y0 y1 y2 y3 y4 y5) :=
  of_raw rfl fun w => by cases y1 <;> simp (discharger := first | rfl | omega) [-BitVec.append_eq, Raw.cand, candV_10, bit1, fn0, HAppend.hAppend, slice_hi, slice_lo] <;> rfl
theorem visub (y0 : ITy) (y1 : Bool) (y2 : VDst) (y3 : VSrc) (y4 : VSrc) (y5 : W64) : Statement (.visub y0 y1 y2 y3 y4 y5) :=
  of_raw rfl fun w => by cases y1 <;> simp (discharger := first | rfl | omega) [-BitVec.append_eq, Raw.cand, candV_11, bit1, fn0, HAppend.hAppend, slice_hi, slice_lo] <;> rfl
theorem vimul (y0 : ITy) (y1 : Bool) (y2 : VDst) (y3 : VSrc) (y4 : VSrc) (y5 : W64) : Statement (.vimul y0 y1 y2 y3 y4 y5) :=
  of_raw rfl fun w => by cases y1 <;> simp (discharger := first | rfl | omega) [-BitVec.append_eq, Raw.cand, candV_12, bit1, fn0, HAppend.hAppend, slice_hi, slice_lo] <;> rfl
theorem vimulh (y0 : ITy) (y1 : VDst) (y2 : VSrc) (y3 : VSrc) (y4 : W64) : Statement (.vimulh y0 y1 y2 y3 y4) :=
  of_raw rfl fun w => by simp (discharger := first | rfl | omega) [-BitVec.append_eq, Raw.cand, candV_13, fn0, HAppend.hAppend, slice_hi, slice_lo]
theorem vimin (y0 : ITy) (y1 : VDst) (y2 : VSrc) (y3 : VSrc) (y4 : W64) : Statement (.vimin y0 y1 y2 y3 y4) :=
  of_raw rfl fun w => by simp (discharger := first | rfl | omega) [-BitVec.append_eq, Raw.cand, candV_14, fn0, HAppend.hAppend, slice_hi, slice_lo]
theorem vimax (y0 : ITy) (y1 : VDst) (y2 : VSrc) (y3 : VSrc) (y4 : W64) : Statement (.vimax y0 y1 y2 y3 y4) :=
  of_raw rfl fun w => by simp (discharger := first | rfl | omega) [-BitVec.append_eq, Raw.cand, candV_15, fn0, HAppend.hAppend, slice_hi, slice_lo]
theorem vand (y0 : ITy) (y1 : VDst) (y2 : VSrc) (y3 : VSrc) (y4 : W64) : Statement (.vand y0 y1 y2 y3 y4) :=
  of_raw rfl fun w => by simp (discharger := first | rfl | omega) [-BitVec.append_eq, Raw.cand, candV_16, fn0, HAppend.hAppend, slice_hi, slice_lo]
theorem vor (y0 : ITy) (y1 : VDst) (y2 : VSrc) (y3 : VSrc) (y4 : W64) : Statement (.vor y0 y1 y2 y3 y4) :=
  of_raw rfl fun w => by simp (discharger := first | rfl | omega) [-BitVec.append_eq, Raw.cand, candV_17, fn0, HAppend.hAppend, slice_hi, slice_lo]
theorem vxor (y0 : ITy) (y1 : VDst) (y2 : VSrc) (y3 : VSrc) (y4 : W64) : Statement (.vxor y0 y1 y2 y3 y4) :=
  of_raw rfl fun w => by simp (discharger := first | rfl | omega) [-BitVec.append_eq, Raw.cand, candV_18, fn0, HAppend.hAppend, slice_hi, slice_lo]
theorem vshl (y0 : ITy) (y1 : VDst) (y2 : VSrc) (y3 : VSrc) (y4 : W64) : Statement (.vshl y0 y1 y2 y3 y4) :=
  of_raw rfl fun w => by simp (discharger := first | rfl | omega) [-BitVec.append_eq, Raw.cand, candV_19, fn0, HAppend.hAppend, slice_hi, slice_lo]
theorem vshr (y0 : ITy) (y1 : VDst) (y2 : VSrc) (y3 : VSrc) (y4 : W64) : Statement (.vshr y0 y1 y2 y3 y4) :=
  of_raw rfl fun w => by simp (discharger := first | rfl | omega) [-BitVec.append_eq, Raw.cand, candV_1A, fn0, HAppend.hAppend, slice_hi, slice_lo]
theorem vsra (y0 : ITy) (y1 : VDst) (y2 : VSrc) (y3 : VSrc) (y4 : W64) : Statement (.vsra y0 y1 y2 y3 y4) :=
  of_raw rfl fun w => by simp (discharger := first | rfl | omega) [-BitVec.append_eq, Raw.cand, candV_1B, fn0, HAppend.hAppend, slice_hi, slice_lo]
theorem vcmp (y0 : VCond) (y1 : NTy) (y2 : VDst) (y3 : VSrc) (y4 : VSrc) (y5 : W64) : Statement (.vcmp y0 y1 y2 y3 y4 y5) :=
  of_raw rfl fun w => by simp (discharger := first | rfl | omega) [-BitVec.append_eq, Raw.cand, candV_20, fn0, HAppend.hAppend, slice_hi, slice_lo]
theorem vsel (y0 : VDst) (y1 : VSrc) (y2 : VSrc) (y3 : VSrc) (y4 : W64) : Statement (.vsel y0 y1 y2 y3 y4) :=
  of_raw rfl fun w => by simp (discharger := first | rfl | omega) [-BitVec.append_eq, Raw.cand, candV_21, fn0, HAppend.hAppend, slice_hi, slice_lo]
theorem vcvt (y0 : VTy) (y1 : VTy) (y2 : RMode) (y3 : VDst) (y4 : VSrc) (y5 : W64) : Statement (.vcvt y0 y1 y2 y3 y4 y5) :=
  of_raw rfl fun w => by simp (discharger := first | rfl | omega) [-BitVec.append_eq, Raw.cand, candV_22, fn0, HAppend.hAppend, slice_hi, slice_lo]
theorem vmov (y0 : VDst) (y1 : VSrc) (y2 : W64) : Statement (.vmov y0 y1 y2) :=
  of_raw rfl fun w => by simp (discharger := first | rfl | omega) [-BitVec.append_eq, Raw.cand, candV_23, fn0, HAppend.hAppend, slice_hi, slice_lo]
theorem vseti (y0 : VDst) (y1 : VSrc) (y2 : BitVec 4) (y3 : BitVec 6) (y4 : W32) : Statement (.vseti y0 y1 y2 y3 y4) :=
  of_raw rfl fun w => by simp (discharger := first | rfl | omega) [-BitVec.append_eq, Raw.cand, candV_24, fn0, HAppend.hAppend, slice_hi, slice_lo]
theorem viota (y0 : IotaKind) (y1 : VDst) (y2 : W32) : Statement (.viota y0 y1 y2) :=
  of_raw rfl fun w => by simp (discharger := first | rfl | omega) [-BitVec.append_eq, Raw.cand, candV_25, fn0, HAppend.hAppend, slice_hi, slice_lo]
theorem vrngRaw (y0 : VDst) (y1 : VSrc) (y2 : W64) : Statement (.vrngRaw y0 y1 y2) :=
  of_raw rfl fun w => by simp (discharger := first | rfl | omega) [-BitVec.append_eq, Raw.cand, candV_26, fn0, HAppend.hAppend, slice_hi, slice_lo]
theorem vrngUni (y0 : VDst) (y1 : VSrc) (y2 : W64) : Statement (.vrngUni y0 y1 y2) :=
  of_raw rfl fun w => by simp (discharger := first | rfl | omega) [-BitVec.append_eq, Raw.cand, candV_26, fn0, HAppend.hAppend, slice_hi, slice_lo]
theorem vclamp (y0 : NTy) (y1 : VDst) (y2 : VSrc) (y3 : VSrc) (y4 : VSrc) (y5 : W64) : Statement (.vclamp y0 y1 y2 y3 y4 y5) :=
  of_raw rfl fun w => by simp (discharger := first | rfl | omega) [-BitVec.append_eq, Raw.cand, candV_27, fn0, HAppend.hAppend, slice_hi, slice_lo]
theorem vrot (y0 : Axis) (y1 : BitVec 6) (y2 : VDst) (y3 : VSrc) (y4 : W64) : Statement (.vrot y0 y1 y2 y3 y4) :=
  of_raw rfl fun w => by simp (discharger := first | rfl | omega) [-BitVec.append_eq, Raw.cand, candV_30, fn0, HAppend.hAppend, slice_hi, slice_lo]
theorem vbcast (y0 : Axis) (y1 : BitVec 6) (y2 : VDst) (y3 : VSrc) (y4 : W64) : Statement (.vbcast y0 y1 y2 y3 y4) :=
  of_raw rfl fun w => by simp (discharger := first | rfl | omega) [-BitVec.append_eq, Raw.cand, candV_31, fn0, HAppend.hAppend, slice_hi, slice_lo]
theorem vshiftDn (y0 : Axis) (y1 : BitVec 6) (y2 : VDst) (y3 : VSrc) (y4 : W64) : Statement (.vshiftDn y0 y1 y2 y3 y4) :=
  of_raw rfl fun w => by simp (discharger := first | rfl | omega) [-BitVec.append_eq, Raw.cand, candV_38, fn0, HAppend.hAppend, slice_hi, slice_lo]
theorem vshiftUp (y0 : Axis) (y1 : BitVec 6) (y2 : VDst) (y3 : VSrc) (y4 : W64) : Statement (.vshiftUp y0 y1 y2 y3 y4) :=
  of_raw rfl fun w => by simp (discharger := first | rfl | omega) [-BitVec.append_eq, Raw.cand, candV_38, fn0, HAppend.hAppend, slice_hi, slice_lo]
theorem vrsum (y0 : NTy) (y1 : RMode) (y2 : Bool) (y3 : Axis) (y4 : VDst) (y5 : VSrc) (y6 : W64) : Statement (.vrsum y0 y1 y2 y3 y4 y5 y6) :=
  of_raw rfl fun w => by cases y2 <;> simp (discharger := first | rfl | omega) [-BitVec.append_eq, Raw.cand, candV_32, bit1, fn0, HAppend.hAppend, slice_hi, slice_lo] <;> rfl
theorem vscanIncl (y0 : NTy) (y1 : RMode) (y2 : Bool) (y3 : Axis) (y4 : VDst) (y5 : VSrc) (y6 : W64) : Statement (.vscanIncl y0 y1 y2 y3 y4 y5 y6) :=
  of_raw rfl fun w => by cases y2 <;> simp (discharger := first | rfl | omega) [-BitVec.append_eq, Raw.cand, candV_37, bit1, fn0, HAppend.hAppend, slice_hi, slice_lo] <;> rfl
theorem vscanExcl (y0 : NTy) (y1 : RMode) (y2 : Bool) (y3 : Axis) (y4 : VDst) (y5 : VSrc) (y6 : W64) : Statement (.vscanExcl y0 y1 y2 y3 y4 y5 y6) :=
  of_raw rfl fun w => by cases y2 <;> simp (discharger := first | rfl | omega) [-BitVec.append_eq, Raw.cand, candV_37, bit1, fn0, HAppend.hAppend, slice_hi, slice_lo] <;> rfl
theorem vrmax (y0 : NTy) (y1 : Axis) (y2 : VDst) (y3 : VSrc) (y4 : W64) : Statement (.vrmax y0 y1 y2 y3 y4) :=
  of_raw rfl fun w => by simp (discharger := first | rfl | omega) [-BitVec.append_eq, Raw.cand, candV_33, fn0, HAppend.hAppend, slice_hi, slice_lo]
theorem vrmin (y0 : NTy) (y1 : Axis) (y2 : VDst) (y3 : VSrc) (y4 : W64) : Statement (.vrmin y0 y1 y2 y3 y4) :=
  of_raw rfl fun w => by simp (discharger := first | rfl | omega) [-BitVec.append_eq, Raw.cand, candV_34, fn0, HAppend.hAppend, slice_hi, slice_lo]
theorem vrmaxi (y0 : NTy) (y1 : Axis) (y2 : VDst) (y3 : VSrc) (y4 : W64) : Statement (.vrmaxi y0 y1 y2 y3 y4) :=
  of_raw rfl fun w => by simp (discharger := first | rfl | omega) [-BitVec.append_eq, Raw.cand, candV_35, fn0, HAppend.hAppend, slice_hi, slice_lo]
theorem vrmini (y0 : NTy) (y1 : Axis) (y2 : VDst) (y3 : VSrc) (y4 : W64) : Statement (.vrmini y0 y1 y2 y3 y4) :=
  of_raw rfl fun w => by simp (discharger := first | rfl | omega) [-BitVec.append_eq, Raw.cand, candV_36, fn0, HAppend.hAppend, slice_hi, slice_lo]
theorem vexp (y0 : FTy) (y1 : RMode) (y2 : VDst) (y3 : VSrc) (y4 : W64) : Statement (.vexp y0 y1 y2 y3 y4) :=
  of_raw rfl fun w => by simp (discharger := first | rfl | omega) [-BitVec.append_eq, Raw.cand, candV_40, fn0, HAppend.hAppend, slice_hi, slice_lo]
theorem vexp2 (y0 : FTy) (y1 : RMode) (y2 : VDst) (y3 : VSrc) (y4 : W64) : Statement (.vexp2 y0 y1 y2 y3 y4) :=
  of_raw rfl fun w => by simp (discharger := first | rfl | omega) [-BitVec.append_eq, Raw.cand, candV_41, fn0, HAppend.hAppend, slice_hi, slice_lo]
theorem vln (y0 : FTy) (y1 : RMode) (y2 : VDst) (y3 : VSrc) (y4 : W64) : Statement (.vln y0 y1 y2 y3 y4) :=
  of_raw rfl fun w => by simp (discharger := first | rfl | omega) [-BitVec.append_eq, Raw.cand, candV_42, fn0, HAppend.hAppend, slice_hi, slice_lo]
theorem vlog2 (y0 : FTy) (y1 : RMode) (y2 : VDst) (y3 : VSrc) (y4 : W64) : Statement (.vlog2 y0 y1 y2 y3 y4) :=
  of_raw rfl fun w => by simp (discharger := first | rfl | omega) [-BitVec.append_eq, Raw.cand, candV_43, fn0, HAppend.hAppend, slice_hi, slice_lo]
theorem vrcp (y0 : FTy) (y1 : RMode) (y2 : VDst) (y3 : VSrc) (y4 : W64) : Statement (.vrcp y0 y1 y2 y3 y4) :=
  of_raw rfl fun w => by simp (discharger := first | rfl | omega) [-BitVec.append_eq, Raw.cand, candV_44, fn0, HAppend.hAppend, slice_hi, slice_lo]
theorem vrsqrt (y0 : FTy) (y1 : RMode) (y2 : VDst) (y3 : VSrc) (y4 : W64) : Statement (.vrsqrt y0 y1 y2 y3 y4) :=
  of_raw rfl fun w => by simp (discharger := first | rfl | omega) [-BitVec.append_eq, Raw.cand, candV_45, fn0, HAppend.hAppend, slice_hi, slice_lo]
theorem vsqrt (y0 : FTy) (y1 : RMode) (y2 : VDst) (y3 : VSrc) (y4 : W64) : Statement (.vsqrt y0 y1 y2 y3 y4) :=
  of_raw rfl fun w => by simp (discharger := first | rfl | omega) [-BitVec.append_eq, Raw.cand, candV_46, fn0, HAppend.hAppend, slice_hi, slice_lo]
theorem vtanh (y0 : FTy) (y1 : RMode) (y2 : VDst) (y3 : VSrc) (y4 : W64) : Statement (.vtanh y0 y1 y2 y3 y4) :=
  of_raw rfl fun w => by simp (discharger := first | rfl | omega) [-BitVec.append_eq, Raw.cand, candV_47, fn0, HAppend.hAppend, slice_hi, slice_lo]
theorem vsigm (y0 : FTy) (y1 : RMode) (y2 : VDst) (y3 : VSrc) (y4 : W64) : Statement (.vsigm y0 y1 y2 y3 y4) :=
  of_raw rfl fun w => by simp (discharger := first | rfl | omega) [-BitVec.append_eq, Raw.cand, candV_48, fn0, HAppend.hAppend, slice_hi, slice_lo]
theorem vgelu (y0 : FTy) (y1 : RMode) (y2 : VDst) (y3 : VSrc) (y4 : W64) : Statement (.vgelu y0 y1 y2 y3 y4) :=
  of_raw rfl fun w => by simp (discharger := first | rfl | omega) [-BitVec.append_eq, Raw.cand, candV_49, fn0, HAppend.hAppend, slice_hi, slice_lo]
theorem verf (y0 : FTy) (y1 : RMode) (y2 : VDst) (y3 : VSrc) (y4 : W64) : Statement (.verf y0 y1 y2 y3 y4) :=
  of_raw rfl fun w => by simp (discharger := first | rfl | omega) [-BitVec.append_eq, Raw.cand, candV_4A, fn0, HAppend.hAppend, slice_hi, slice_lo]
theorem vunpk (y0 : Bool) (y1 : FTy) (y2 : RMode) (y3 : BitVec 6) (y4 : VDst) (y5 : VSrc) (y6 : W64) : Statement (.vunpk y0 y1 y2 y3 y4 y5 y6) :=
  of_raw rfl fun w => by cases y0 <;> simp (discharger := first | rfl | omega) [-BitVec.append_eq, Raw.cand, candV_50, bit1, fn0, HAppend.hAppend, slice_hi, slice_lo] <;> rfl
theorem vpack (y0 : BlkFmt) (y1 : Bool) (y2 : BitVec 6) (y3 : BitVec 7) (y4 : VDst) (y5 : VSrc) (y6 : VSrc) (y7 : VSrc) : Statement (.vpack y0 y1 y2 y3 y4 y5 y6 y7) :=
  of_raw rfl fun w => by simp (discharger := first | rfl | omega) [-BitVec.append_eq, Raw.cand, candV_51, fn0, HAppend.hAppend, slice_hi, slice_lo]
theorem vpkbf (y0 : RMode) (y1 : VDst) (y2 : VSrc) (y3 : VSrc) (y4 : W64) : Statement (.vpkbf y0 y1 y2 y3 y4) :=
  of_raw rfl fun w => by simp (discharger := first | rfl | omega) [-BitVec.append_eq, Raw.cand, candV_52, fn0, HAppend.hAppend, slice_hi, slice_lo]
theorem vupbf (y0 : Bool) (y1 : VDst) (y2 : VSrc) (y3 : W64) : Statement (.vupbf y0 y1 y2 y3) :=
  of_raw rfl fun w => by cases y0 <;> simp (discharger := first | rfl | omega) [-BitVec.append_eq, Raw.cand, candV_53, bit1, fn0, HAppend.hAppend, slice_hi, slice_lo] <;> rfl
theorem mma (y0 : Cost) (y1 : BankNo) (y2 : DrawerNo) (y3 : DrawerNo) (y4 : BitVec 12) (y5 : BitVec 2) (y6 : Bool) (y7 : Bool) (y8 : Tail) : Statement (.mma y0 y1 y2 y3 y4 y5 y6 y7 y8) :=
  of_raw rfl fun w => by simp (discharger := first | rfl | omega) [-BitVec.append_eq, Raw.cand, candM_00, m0, fn0, HAppend.hAppend, slice_hi, slice_lo]
theorem mclr (y0 : BankNo) (y1 : Tail) : Statement (.mclr y0 y1) :=
  of_raw rfl fun w => by simp (discharger := first | rfl | omega) [-BitVec.append_eq, Raw.cand, candM_01, m0, fn0, HAppend.hAppend, slice_hi, slice_lo]
theorem moutTile (y0 : BankNo) (y1 : Fin 12) (y2 : Epi) (y3 : Bool) (y4 : Bool) (y5 : Bool) (y6 : Bool) (y7 : Tail) : Statement (.moutTile y0 y1 y2 y3 y4 y5 y6 y7) :=
  of_raw rfl fun w => by simp (discharger := first | rfl | omega) [-BitVec.append_eq, Raw.cand, Nat.mod_eq_of_lt (show y1.val < 32 by omega), candM_02, m0, fn0, HAppend.hAppend, slice_hi, slice_lo]
theorem moutHandle (y0 : BankNo) (y1 : HReg) (y2 : Epi) (y3 : Bool) (y4 : Bool) (y5 : Bool) (y6 : Tail) : Statement (.moutHandle y0 y1 y2 y3 y4 y5 y6) :=
  of_raw rfl fun w => by simp (discharger := first | rfl | omega) [-BitVec.append_eq, Raw.cand, candM_02, m0, fn0, HAppend.hAppend, slice_hi, slice_lo]
theorem mgate (y0 : BankNo) (y1 : BankNo) (y2 : GateAct) (y3 : GateAct) (y4 : Bool) (y5 : Bool) (y6 : Tail) : Statement (.mgate y0 y1 y2 y3 y4 y5 y6) :=
  of_raw rfl fun w => by simp (discharger := first | rfl | omega) [-BitVec.append_eq, Raw.cand, candM_03, m0, fn0, HAppend.hAppend, slice_hi, slice_lo]
theorem mscan (y0 : BankNo) (y1 : BitVec 6) (y2 : BankNo) (y3 : Bool) (y4 : Bool) (y5 : Tail) : Statement (.mscan y0 y1 y2 y3 y4 y5) :=
  of_raw rfl fun w => by simp (discharger := first | rfl | omega) [-BitVec.append_eq, Raw.cand, candM_04, m0, fn0, HAppend.hAppend, slice_hi, slice_lo]
theorem mcarryZ (y0 : BankNo) (y1 : Tail) : Statement (.mcarryZ y0 y1) :=
  of_raw rfl fun w => by simp (discharger := first | rfl | omega) [-BitVec.append_eq, Raw.cand, candM_05, m0, fn0, HAppend.hAppend, slice_hi, slice_lo]
theorem mcarryLd (y0 : BankNo) (y1 : BankNo) (y2 : BitVec 6) (y3 : Tail) : Statement (.mcarryLd y0 y1 y2 y3) :=
  of_raw rfl fun w => by simp (discharger := first | rfl | omega) [-BitVec.append_eq, Raw.cand, candM_05, m0, fn0, HAppend.hAppend, slice_hi, slice_lo]
theorem mcarrySt (y0 : BankNo) (y1 : BankNo) (y2 : BitVec 6) (y3 : Tail) : Statement (.mcarrySt y0 y1 y2 y3) :=
  of_raw rfl fun w => by simp (discharger := first | rfl | omega) [-BitVec.append_eq, Raw.cand, candM_05, m0, fn0, HAppend.hAppend, slice_hi, slice_lo]
theorem dclaim (y0 : DrawerNo) (y1 : BitVec 5) (y2 : Tail) : Statement (.dclaim y0 y1 y2) :=
  of_raw rfl fun w => by simp (discharger := first | rfl | omega) [-BitVec.append_eq, Raw.cand, candM_06, m0, fn0, HAppend.hAppend, slice_hi, slice_lo]
theorem drel (y0 : DrawerNo) (y1 : BitVec 5) (y2 : Tail) : Statement (.drel y0 y1 y2) :=
  of_raw rfl fun w => by simp (discharger := first | rfl | omega) [-BitVec.append_eq, Raw.cand, candM_07, m0, fn0, HAppend.hAppend, slice_hi, slice_lo]
theorem dqry (y0 : HReg) (y1 : Tail) : Statement (.dqry y0 y1) :=
  of_raw rfl fun w => by simp (discharger := first | rfl | omega) [-BitVec.append_eq, Raw.cand, candM_08, m0, fn0, HAppend.hAppend, slice_hi, slice_lo]
theorem mmah (y0 : Cost) (y1 : BankNo) (y2 : DrawerNo) (y3 : DrawerNo) (y4 : BitVec 12) (y5 : BitVec 2) (y6 : Bool) (y7 : Bool) (y8 : Tail) : Statement (.mmah y0 y1 y2 y3 y4 y5 y6 y7 y8) :=
  of_raw rfl fun w => by simp (discharger := first | rfl | omega) [-BitVec.append_eq, Raw.cand, candM_0A, m0, fn0, HAppend.hAppend, slice_hi, slice_lo]
theorem cpy (y0 : CopyEng) (y1 : Bool) (y2 : HReg) (y3 : HReg) (y4 : Option CntClause) (y5 : ChanNo) (y6 : Tail) : Statement (.cpy y0 y1 y2 y3 y4 y5 y6) :=
  of_raw rfl fun w => by cases y0 <;> cases y1 <;> cases y4 <;> simp (discharger := first | rfl | omega) [-BitVec.append_eq, Raw.cand, candK_00, bit1, k0, KRaw.getCnt, isOne, fn0, HAppend.hAppend, slice_hi, slice_lo] <;> rfl
theorem cpyf (y0 : Bool) (y1 : HReg) (y2 : HReg) (y3 : Option CntClause) (y4 : ChanNo) (y5 : Tail) : Statement (.cpyf y0 y1 y2 y3 y4 y5) :=
  of_raw rfl fun w => by cases y0 <;> cases y3 <;> simp (discharger := first | rfl | omega) [-BitVec.append_eq, Raw.cand, candK_01, bit1, k0, KRaw.getCnt, isOne, fn0, HAppend.hAppend, slice_hi, slice_lo] <;> rfl
theorem cred (y0 : Bool) (y1 : HReg) (y2 : HReg) (y3 : Option CntClause) (y4 : W16) (y5 : BitVec 8) (y6 : ChanNo) (y7 : Tail) : Statement (.cred y0 y1 y2 y3 y4 y5 y6 y7) :=
  of_raw rfl fun w => by cases y0 <;> cases y3 <;> simp (discharger := first | rfl | omega) [-BitVec.append_eq, Raw.cand, candK_02, bit1, k0, KRaw.getCnt, isOne, fn0, HAppend.hAppend, slice_hi, slice_lo] <;> first | rfl | exact fun h => absurd rfl h
theorem cfil (y0 : CopyEng) (y1 : Bool) (y2 : HReg) (y3 : Option CntClause) (y4 : W16) (y5 : ChanNo) (y6 : Tail) : Statement (.cfil y0 y1 y2 y3 y4 y5 y6) :=
  of_raw rfl fun w => by cases y0 <;> cases y1 <;> cases y3 <;> simp (discharger := first | rfl | omega) [-BitVec.append_eq, Raw.cand, candK_03, bit1, k0, KRaw.getCnt, isOne, fn0, HAppend.hAppend, slice_hi, slice_lo] <;> first | rfl | exact fun h => absurd rfl h
theorem ctier (y0 : CopyEng) (y1 : Bool) (y2 : HReg) (y3 : HReg) (y4 : Option CntClause) (y5 : ChanNo) (y6 : Tail) : Statement (.ctier y0 y1 y2 y3 y4 y5 y6) :=
  of_raw rfl fun w => by cases y0 <;> cases y1 <;> cases y4 <;> simp (discharger := first | rfl | omega) [-BitVec.append_eq, Raw.cand, candK_04, bit1, k0, KRaw.getCnt, isOne, fn0, HAppend.hAppend, slice_hi, slice_lo] <;> first | rfl | exact fun h => absurd rfl h
theorem ccnt (y0 : CopyEng) (y1 : Option CntClause) (y2 : Tail) : Statement (.ccnt y0 y1 y2) :=
  of_raw rfl fun w => by cases y0 <;> cases y1 <;> simp (discharger := first | rfl | omega) [-BitVec.append_eq, Raw.cand, candK_05, k0, KRaw.getCnt, isOne, fn0, HAppend.hAppend, slice_hi, slice_lo]
theorem fcfg (y0 : HReg) (y1 : Tail) : Statement (.fcfg y0 y1) :=
  of_raw rfl fun w => by simp (discharger := first | rfl | omega) [-BitVec.append_eq, Raw.cand, candF_00, f0, fn0, HAppend.hAppend, slice_hi, slice_lo]
theorem fbind (y0 : HReg) (y1 : Fin 12) (y2 : W32) (y3 : Tail) : Statement (.fbind y0 y1 y2 y3) :=
  of_raw rfl fun w => by simp (discharger := first | rfl | omega) [-BitVec.append_eq, Raw.cand, Nat.mod_eq_of_lt (show y1.val < 16 by omega), candF_01, f0, fn0, HAppend.hAppend, slice_hi, slice_lo]
theorem fbindC (y0 : HReg) (y1 : BitVec 2) (y2 : W32) (y3 : Tail) : Statement (.fbindC y0 y1 y2 y3) :=
  of_raw rfl fun w => by simp (discharger := first | rfl | omega) [-BitVec.append_eq, Raw.cand, candF_01, f0, fn0, HAppend.hAppend, slice_hi, slice_lo]
theorem fgo (y0 : BitVec 8) (y1 : Tail) : Statement (.fgo y0 y1) :=
  of_raw rfl fun w => by simp (discharger := first | rfl | omega) [-BitVec.append_eq, Raw.cand, candF_02, f0, fn0, HAppend.hAppend, slice_hi, slice_lo]
theorem fbar (y0 : BitVec 8) (y1 : Tail) : Statement (.fbar y0 y1) :=
  of_raw rfl fun w => by simp (discharger := first | rfl | omega) [-BitVec.append_eq, Raw.cand, candF_03, f0, fn0, HAppend.hAppend, slice_hi, slice_lo]
theorem fbarRec (y0 : HReg) (y1 : BitVec 8) (y2 : Tail) : Statement (.fbarRec y0 y1 y2) :=
  of_raw rfl fun w => by simp (discharger := first | rfl | omega) [-BitVec.append_eq, Raw.cand, candF_03, f0, fn0, HAppend.hAppend, slice_hi, slice_lo]
theorem fstop (y0 : Tail) : Statement (.fstop y0) :=
  of_raw rfl fun w => by simp (discharger := first | rfl | omega) [-BitVec.append_eq, Raw.cand, candF_04, f0, fn0, HAppend.hAppend, slice_hi, slice_lo]
theorem fstopRec (y0 : HReg) (y1 : Tail) : Statement (.fstopRec y0 y1) :=
  of_raw rfl fun w => by simp (discharger := first | rfl | omega) [-BitVec.append_eq, Raw.cand, candF_04, f0, fn0, HAppend.hAppend, slice_hi, slice_lo]
theorem nop (y0 : EMask) : Statement (.nop y0) :=
  of_raw rfl fun w => by simp (discharger := first | rfl | omega) [-BitVec.append_eq, Raw.cand, candX_00, x0, fn0, HAppend.hAppend, slice_hi, slice_lo]
theorem br (y0 : EMask) (y1 : Cond) (y2 : SReg) (y3 : SReg) (y4 : W32) : Statement (.br y0 y1 y2 y3 y4) :=
  of_raw rfl fun w => by simp (discharger := first | rfl | omega) [-BitVec.append_eq, Raw.cand, candX_01, x0, fn0, HAppend.hAppend, slice_hi, slice_lo]
theorem jmp (y0 : EMask) (y1 : W32) : Statement (.jmp y0 y1) :=
  of_raw rfl fun w => by simp (discharger := first | rfl | omega) [-BitVec.append_eq, Raw.cand, candX_02, x0, fn0, HAppend.hAppend, slice_hi, slice_lo]
theorem jmpIndirect (y0 : EMask) (y1 : SReg) : Statement (.jmpIndirect y0 y1) :=
  of_raw rfl fun w => by simp (discharger := first | rfl | omega) [-BitVec.append_eq, Raw.cand, candX_02, x0, fn0, HAppend.hAppend, slice_hi, slice_lo]
theorem call (y0 : EMask) (y1 : W32) : Statement (.call y0 y1) :=
  of_raw rfl fun w => by simp (discharger := first | rfl | omega) [-BitVec.append_eq, Raw.cand, candX_03, x0, fn0, HAppend.hAppend, slice_hi, slice_lo]
theorem ret (y0 : EMask) : Statement (.ret y0) :=
  of_raw rfl fun w => by simp (discharger := first | rfl | omega) [-BitVec.append_eq, Raw.cand, candX_04, x0, fn0, HAppend.hAppend, slice_hi, slice_lo]
theorem loop (y0 : EMask) (y1 : Fin 6) (y2 : SReg) (y3 : Bool) (y4 : W32) (y5 : W32) : Statement (.loop y0 y1 y2 y3 y4 y5) :=
  of_raw rfl fun w => by simp (discharger := first | rfl | omega) [-BitVec.append_eq, Raw.cand, candX_05, x0, fn0, HAppend.hAppend, slice_hi, slice_lo]
theorem brk (y0 : EMask) (y1 : Cond) (y2 : Fin 6) (y3 : SReg) (y4 : SReg) (y5 : W32) : Statement (.brk y0 y1 y2 y3 y4 y5) :=
  of_raw rfl fun w => by simp (discharger := first | rfl | omega) [-BitVec.append_eq, Raw.cand, candX_06, x0, fn0, HAppend.hAppend, slice_hi, slice_lo]
theorem mode (y0 : Bool) : Statement (.mode y0) :=
  of_raw rfl fun w => by cases y0 <;> rfl
theorem rotset (y0 : EMask) (y1 : W32) : Statement (.rotset y0 y1) :=
  of_raw rfl fun w => by simp (discharger := first | rfl | omega) [-BitVec.append_eq, Raw.cand, candX_08, x0, fn0, HAppend.hAppend, slice_hi, slice_lo]
theorem sync (y0 : EMask) : Statement (.sync y0) :=
  of_raw rfl fun w => by simp (discharger := first | rfl | omega) [-BitVec.append_eq, Raw.cand, candX_09, x0, fn0, HAppend.hAppend, slice_hi, slice_lo]
theorem syncRetire (y0 : EMask) : Statement (.syncRetire y0) :=
  of_raw rfl fun w => by simp (discharger := first | rfl | omega) [-BitVec.append_eq, Raw.cand, candX_09, x0, fn0, HAppend.hAppend, slice_hi, slice_lo]
theorem evLoadResultArrive (y0 : SReg) : Statement (.evLoadResultArrive y0) := of_none rfl
theorem evWaitgeSatisfy : Statement .evWaitgeSatisfy := of_none rfl
theorem evBarDepart : Statement .evBarDepart := of_none rfl
theorem evDeferredPostEffect (y0 : Nat) : Statement (.evDeferredPostEffect y0) := of_none rfl
theorem evAwaitSuccess (y0 : Eng) : Statement (.evAwaitSuccess y0) := of_none rfl
theorem evWaitwpComplete : Statement .evWaitwpComplete := of_none rfl
theorem evResultLand (y0 : Nat) : Statement (.evResultLand y0) := of_none rfl
theorem evMatKstep : Statement .evMatKstep := of_none rfl
theorem evEpilogueTileStep : Statement .evEpilogueTileStep := of_none rfl
theorem evCopyStart (y0 : CopyEng) : Statement (.evCopyStart y0) := of_none rfl
theorem evCopyTileStep (y0 : CopyEng) : Statement (.evCopyTileStep y0) := of_none rfl
theorem evCopyRetire (y0 : CopyEng) : Statement (.evCopyRetire y0) := of_none rfl
theorem evCredApply (y0 : CopyEng) : Statement (.evCredApply y0) := of_none rfl
theorem evFollowOnIssue : Statement .evFollowOnIssue := of_none rfl
theorem evFeederToken (y0 : Fin 8) : Statement (.evFeederToken y0) := of_none rfl
theorem evStripFire (y0 : Fin 12) : Statement (.evStripFire y0) := of_none rfl
theorem evOutputPortToken (y0 : Fin 4) : Statement (.evOutputPortToken y0) := of_none rfl
theorem evPhaseDrain : Statement .evPhaseDrain := of_none rfl
theorem evLoopClose (y0 : Eng) : Statement (.evLoopClose y0) := of_none rfl
theorem evModeDrainDone : Statement .evModeDrainDone := of_none rfl
theorem evSeqReattach (y0 : Eng) : Statement (.evSeqReattach y0) := of_none rfl
theorem evTextFetch (y0 : Eng) : Statement (.evTextFetch y0) := of_none rfl
theorem evRuleInstanceIssue (y0 : Fin 32) : Statement (.evRuleInstanceIssue y0) := of_none rfl
theorem evRuleInstanceRetire (y0 : Fin 32) : Statement (.evRuleInstanceRetire y0) := of_none rfl
theorem evStreamItemArrive (y0 : Nat) (y1 : Nat) : Statement (.evStreamItemArrive y0 y1) := of_none rfl
theorem evStreamSlotReturn (y0 : Nat) : Statement (.evStreamSlotReturn y0) := of_none rfl
theorem evStreamMoveGrant (y0 : Nat) (y1 : Bool) : Statement (.evStreamMoveGrant y0 y1) := of_none rfl
theorem evSendEndReply (y0 : Nat) : Statement (.evSendEndReply y0) := of_none rfl
theorem evWaypointForward (y0 : Nat) : Statement (.evWaypointForward y0) := of_none rfl
theorem evWaypointRetire (y0 : Nat) (y1 : Bool) : Statement (.evWaypointRetire y0 y1) := of_none rfl
theorem evStreamLoss (y0 : Nat) (y1 : Bool) : Statement (.evStreamLoss y0 y1) := of_none rfl
theorem evSbindSliceWrite (y0 : Nat) : Statement (.evSbindSliceWrite y0) := of_none rfl
theorem evStreamCensus (y0 : Nat) : Statement (.evStreamCensus y0) := of_none rfl
theorem evLinkslotRepair (y0 : Nat) : Statement (.evLinkslotRepair y0) := of_none rfl
theorem evLaunchRecordRead (y0 : BitVec 9) : Statement (.evLaunchRecordRead y0) := of_none rfl
theorem evGangAdmit (y0 : BitVec 9) (y1 : BitVec 6) (y2 : List Nat) : Statement (.evGangAdmit y0 y1 y2) := of_none rfl
theorem evTaskEnd : Statement .evTaskEnd := of_none rfl
theorem evChartAbort (y0 : BitVec 9) : Statement (.evChartAbort y0) := of_none rfl
theorem evLaunchKillAbort (y0 : W16) : Statement (.evLaunchKillAbort y0) := of_none rfl
theorem evEscalationStop (y0 : W16) (y1 : Byte) : Statement (.evEscalationStop y0 y1) := of_none rfl
theorem evQueueEnable (y0 : BitVec 9) : Statement (.evQueueEnable y0) := of_none rfl
theorem evSliceExpiry (y0 : BitVec 9) : Statement (.evSliceExpiry y0) := of_none rfl
theorem evWaitGuardExpiry (y0 : BitVec 9) : Statement (.evWaitGuardExpiry y0) := of_none rfl
theorem evQueuePreempt (y0 : BitVec 9) (y1 : W16) : Statement (.evQueuePreempt y0 y1) := of_none rfl
theorem evQueueGrant (y0 : BitVec 9) : Statement (.evQueueGrant y0) := of_none rfl
theorem evPreemptRequest (y0 : W16) : Statement (.evPreemptRequest y0) := of_none rfl
theorem evHandlerPreemptTimeout : Statement .evHandlerPreemptTimeout := of_none rfl
theorem evContextSave (y0 : W16) : Statement (.evContextSave y0) := of_none rfl
theorem evContextRestore (y0 : W16) (y1 : BitVec 6) (y2 : List Nat) : Statement (.evContextRestore y0 y1 y2) := of_none rfl
theorem evTrapEntry : Statement .evTrapEntry := of_none rfl
theorem evEscalate (y0 : W16) : Statement (.evEscalate y0) := of_none rfl
theorem evDeadlock : Statement .evDeadlock := of_none rfl
theorem evDroop : Statement .evDroop := of_none rfl
theorem evEnergyRefill : Statement .evEnergyRefill := of_none rfl
theorem evTenantBudgetRefill : Statement .evTenantBudgetRefill := of_none rfl
theorem evThermalStep1 : Statement .evThermalStep1 := of_none rfl
theorem evThermalStep2 : Statement .evThermalStep2 := of_none rfl
theorem evThermalStep3 : Statement .evThermalStep3 := of_none rfl
theorem evModuleReset (y0 : W64) : Statement (.evModuleReset y0) := of_none rfl
theorem evLinkFlitReceive (y0 : Option LinkMsg) : Statement (.evLinkFlitReceive y0) := of_none rfl
theorem evRemoteWindowAccess : Statement .evRemoteWindowAccess := of_none rfl
theorem evHostMemAccess (y0 : Requester) (y1 : W64) (y2 : Option (List Byte)) (y3 : Nat) (y4 : Bool) : Statement (.evHostMemAccess y0 y1 y2 y3 y4) := of_none rfl
theorem evTailWrite (y0 : Requester) (y1 : BitVec 9) (y2 : W64) : Statement (.evTailWrite y0 y1 y2) := of_none rfl
theorem evMailboxWrite (y0 : Requester) (y1 : BitVec 5) (y2 : BitVec 4) (y3 : W64) (y4 : Bool) : Statement (.evMailboxWrite y0 y1 y2 y3 y4) := of_none rfl
theorem evCtxcmdPreempt (y0 : W16) : Statement (.evCtxcmdPreempt y0) := of_none rfl
theorem evCtxcmdKill (y0 : W16) : Statement (.evCtxcmdKill y0) := of_none rfl
theorem evInvalidate (y0 : BitVec 5) (y1 : W64) (y2 : W32) : Statement (.evInvalidate y0 y1 y2) := of_none rfl
theorem evKeyLoad (y0 : BitVec 10) : Statement (.evKeyLoad y0) := of_none rfl
theorem evKeyClear (y0 : BitVec 10) : Statement (.evKeyClear y0) := of_none rfl
theorem evKeycmdNop (y0 : BitVec 2) : Statement (.evKeycmdNop y0) := of_none rfl
theorem evEventRead (y0 : Requester) (y1 : W64) : Statement (.evEventRead y0 y1) := of_none rfl
theorem evIpendClear (y0 : Requester) (y1 : BitVec 5) (y2 : W16) : Statement (.evIpendClear y0 y1 y2) := of_none rfl
theorem evAttestRequest (y0 : Requester) (y1 : BitVec 5) (y2 : W64) : Statement (.evAttestRequest y0 y1 y2) := of_none rfl
theorem evHostRegWrite (y0 : Requester) (y1 : W64) (y2 : W64) : Statement (.evHostRegWrite y0 y1 y2) := of_none rfl
theorem evThermalStepEnd : Statement .evThermalStepEnd := of_none rfl
theorem evStorePerformed : Statement .evStorePerformed := of_none rfl
end Sys2Proof.Laws.RoundTrip
end

