-- ==== Sys2Proof/Tests/Slice0.lean ====
section
/-!
SUPPORT. Tests: words written out from the spec's encodings decode to the lines they stand for, malformed words and terms are refused; and
for each statement with hypotheses, states and operands that meet them.
-/
open Sys2Proof Sys2Proof.Machine

/-! ### Decoding -/

/-- 05 R92, header 0x0000 + OP * 0x40 + FN; the first is the worked word of 05. -/
theorem test_decode_ctl_arithmetic :
    decode 0x00002101000000000000000000000001 = .ok (.add 4 4 (.imm 1)) ∧
    decode 0x0040EAEC000000000000000000000000 = .ok (.sub 29 11 (.reg 22)) ∧
    decode 0x0080EAC1000000008000000000000001 = .ok (.mul 29 11 (.imm 0x8000000000000001)) ∧
    decode 0x00C0EAEC000000000000000000000000 = .ok (.mulh .ss 29 11 (.reg 22)) ∧
    decode 0x00C2EAEC000000000000000000000000 = .ok (.mulh .su 29 11 (.reg 22)) ∧
    decode 0x0100EAEC000000000000000000000000 = .ok (.div .s 29 11 (.reg 22)) ∧
    decode 0x0141EAC1000000008000000000000001 = .ok (.rem .u 29 11 (.imm 0x8000000000000001)) ∧
    decode 0x0180EAEC000000000000000000000000 = .ok (.and 29 11 (.reg 22)) ∧
    decode 0x01C0EAEC000000000000000000000000 = .ok (.or 29 11 (.reg 22)) ∧
    decode 0x0200EAEC000000000000000000000000 = .ok (.xor 29 11 (.reg 22)) ∧
    decode 0x0240EAEC000000000000000000000000 = .ok (.andn 29 11 (.reg 22)) ∧
    decode 0x0280EAEC000000000000000000000000 = .ok (.shl 29 11 (.reg 22)) ∧
    decode 0x02C0EAEC000000000000000000000000 = .ok (.shr 29 11 (.reg 22)) ∧
    decode 0x0300EAC1000000008000000000000001 = .ok (.sra 29 11 (.imm 0x8000000000000001)) ∧
    decode 0x0340EAEC000000000000000000000000 = .ok (.rotl 29 11 (.reg 22)) := by
  decide

/-- 05 R92: the rest of the integer group. -/
theorem test_decode_ctl_integer :
    decode 0x0380EAEC000000000000000000000000 = .ok (.min .s 29 11 (.reg 22)) ∧
    decode 0x03C1EAEC000000000000000000000000 = .ok (.max .u 29 11 (.reg 22)) ∧
    decode 0x0400EAC0000000000000000000000000 = .ok (.clz 29 11) ∧
    decode 0x0440EAC0000000000000000000000000 = .ok (.popc 29 11) ∧
    decode 0x0485EAEC000000000000000000000000 = .ok (.setc .geu 29 11 (.reg 22)) ∧
    decode 0x04C0EAEC000000130000000000000000 = .ok (.sel 29 19 11 (.reg 22)) ∧
    decode 0x05002800000000000000000000000003 = .ok (.movi 5 3) ∧
    decode 0x0540EAC0000000000000000000000000 = .ok (.mov 29 11) ∧
    decode 0x0580EAEC009400000000000000000000 = .ok (.lea 29 11 (.reg 22) 37) ∧
    decode 0x05C1EAC00014003B0000000000000000 = .ok (.extr .s 29 11 5 59) ∧
    decode 0x0600EAC000FC00010000000000000000 = .ok (.insr 29 11 63 1) := by
  decide

/-- Words of 11, 19 to 22 where the spec writes one; 05 R94, R95, 09 R191, 20 R327 for the rest. -/
theorem test_decode_ctl_memory :
    decode 0x08033980000000000000000000000000 = .ok (.ld .w64 7 6 0 none) ∧
    decode 0x0806EAC000024000000000000000000C = .ok (.ld .s32 29 11 12 (some .domain)) ∧
    decode 0x084302D2000220000000000000000000 = .ok (.st .b64 11 9 0 (some .domain)) ∧
    decode 0x0881EAC0000000000000000000000002 = .ok (.ldsp .u16 29 11 2 none) ∧
    decode 0x08C200020000000000000000007CF000 = .ok (.stsp .b32 0 1 0x7CF000 none) ∧
    decode 0x090002410001C0000000000000000004 = .ok (.waitge 0 9 (.imm 4) .device) ∧
    decode 0x0C032A410001A0000000000000000001 = .ok (.atadd .w64 5 9 (.imm 1) (.rel .device)) ∧
    decode 0x0C42EAEC000000000000000000000000 = .ok (.atand .w32 29 11 (.reg 22) .plain) ∧
    decode 0x0C83EAEC000000000000000000000000 = .ok (.ator .w64 29 11 (.reg 22) .plain) ∧
    decode 0x0CC3EAEC0000E0000000000000000000 = .ok (.atxor .w64 29 11 (.reg 22) (.acqrel .cluster)) ∧
    decode 0x0D02EAEC000000000000000000000000 = .ok (.atmin .w32 .s 29 11 (.reg 22) .plain) ∧
    decode 0x0D47EAEC000000000000000000000000 = .ok (.atmax .w64 .u 29 11 (.reg 22) .plain) ∧
    decode 0x0D83EAEC000000000000000000000000 = .ok (.atswp .w64 29 11 (.reg 22) .plain) ∧
    decode 0x0DC328410001C0060000000000000000 = .ok (.atcas .w64 5 1 6 (.imm 0) (.acq .device)) := by
  decide

/-- 20 R318, R325, R326; 02 R30: words the spec writes out. -/
theorem test_decode_ctl_order :
    decode 0x0E000000000000000000000000000000 = .ok (.mark) ∧
    decode 0x0E4000000001A0000000000000000000 = .ok (.fence .rel .device) ∧
    decode 0x0E4000000001F0000000000000000000 = .ok (.fence .sc .device) ∧
    decode 0x0E800000000000440000000000000000 = .ok (.fencex 4 2) ∧
    decode 0x0EC10000000000000000000000000000 = .ok (.bar 1) ∧
    decode 0x0ED000000000000000000000000011F8 = .ok (.barPart 4600) := by
  decide

/-- 05 R97, and the words of 19 and 26. -/
theorem test_decode_ctl_handles :
    decode 0x10000000960000000000000000000000 = .ok (.hmov 9 6) ∧
    decode 0x104002C0900000000000000000000020 = .ok (.hld 9 11 32) ∧
    decode 0x10800040200000000000000000000020 = .ok (.hst 2 1 32) ∧
    decode 0x10C1000E400000000000000000000000 = .ok (.hsetb .sp 4 (.reg 7)) ∧
    decode 0x11000001201000000000000000040010 = .ok (.hsetx 2 4 (.imm 0x40010)) ∧
    decode 0x1140002C900000000000000000000000 = .ok (.hsets 9 (.reg 22)) ∧
    decode 0x11800001200000000000000000000001 = .ok (.hsetf 2 (.imm 1)) ∧
    decode 0x11C0E800900000160000000000000000 = .ok (.hget 29 9 22) ∧
    decode 0x12000001201000000000000000000010 = .ok (.hoff 2 4 (.imm 16)) ∧
    decode 0x12400000200000000000000000000000 = .ok (.hclr 2) := by
  decide

/-- 07 R135; 16 R271, and the words of 17. -/
theorem test_decode_ctl_tags_and_rules :
    decode 0x1400EAC0000000000000000000000000 = .ok (.tlook 29 11) ∧
    decode 0x14400681000000000000000000000029 = .ok (.tset 26 (.imm 41)) ∧
    decode 0x1480002C000000000000000000000000 = .ok (.tclr (.reg 22)) ∧
    decode 0x14810000000000000000000000000000 = .ok (.tclrAll) ∧
    decode 0x14C0E8010000000000000000000003FF = .ok (.tinfo 29 (.imm 1023)) ∧
    decode 0x16000000900000000000000000000000 = .ok (.ropen 9) ∧
    decode 0x16400001200000000000000000000001 = .ok (.rslice 2 (.imm 1)) ∧
    decode 0x16800000900000000000000000000000 = .ok (.rclose 9) ∧
    decode 0x16C23801230408000000000000000000 = .ok (.inst 7 2 3 (.imm 0) false (some 1) true none) ∧
    decode 0x16C24001240808430000000000000000 = .ok (.inst 8 2 4 (.imm 0) false (some 2) true (some 3)) ∧
    decode 0x1700000100000000000000000000001F = .ok (.rvk (.imm 31)) ∧
    decode 0x17400201000000000000000000000003 = .ok (.rvkat 8 (.imm 3)) ∧
    decode 0x1780E82C000000000000000000000000 = .ok (.rqryRule 29 (.reg 22)) ∧
    decode 0x1781E82C000000000000000000000000 = .ok (.rqryRec 29 (.reg 22)) ∧
    decode 0x1782E82C000000000000000000000000 = .ok (.rqryCur 29 (.reg 22)) ∧
    decode 0x17C0002C000000000000000000000000 = .ok (.rres (.reg 22)) := by
  decide

/-- 18 R292, and the words of 18 and 19. -/
theorem test_decode_ctl_streams :
    decode 0x18000001230000000000000000000001 = .ok (.snew 2 3 (.imm 1)) ∧
    decode 0x184029812001A0000000000000000004 = .ok (.ssend false 5 2 6 (.imm 4) (some .device)) ∧
    decode 0x1881EAC19001C0000000000000000040 = .ok (.srecv true 29 9 11 (.imm 64) (some .device)) ∧
    decode 0x18C03800430000000000000000000000 = .ok (.ssendh false 7 4 3 none) ∧
    decode 0x19002800340000000000000000000000 = .ok (.srecvh false 5 3 4 none) ∧
    decode 0x1940002C960000000000000000000000 = .ok (.sbind 9 6 (.reg 22)) ∧
    decode 0x19410000900000000000000000000000 = .ok (.sbindOff 9) ∧
    decode 0x19800000900000000000000000000000 = .ok (.sclose 9) ∧
    decode 0x19C00000900000000000000000000000 = .ok (.sdrop 9) ∧
    decode 0x1A00E800900000000000000000000000 = .ok (.sstat 29 9) := by
  decide

/-- 05 R100, R104; 03 R48; the words of 05, 10 and 26. -/
theorem test_decode_ctl_system :
    decode 0x1C004800000000040000000000000000 = .ok (.srd 9 4) ∧
    decode 0x1C40002C000000350000000000000000 = .ok (.swr 0x35 (.reg 22)) ∧
    decode 0x1C80A0000001C0000000000000000000 = .ok (.mbxrd 20 0 (some .device)) ∧
    decode 0x1CC0000000000000FFFFFFFFFFFFFFFE = .ok (.trap 0xFFFFFFFFFFFFFFFE) ∧
    decode 0x1D000000000000000000000000000000 = .ok (.eret) ∧
    decode 0x1D010000000000000000000000000000 = .ok (.eretSkip) ∧
    decode 0x1D400000000000000000000000000000 = .ok (.yield) ∧
    decode 0x1D800000000000000000000000000000 = .ok (.exit) ∧
    decode 0x1F8000010000003F000000000000FFFF = .ok (.post .ctl 63 65535) ∧
    decode 0x1FC00001000000210000000000000001 = .ok (.await .ctl 33 1) := by
  decide

/-- 07 R139, and the words of 07 and 10; 03 R48. -/
theorem test_decode_acc :
    decode 0x20002000000000000000000000400000 = .ok (.aset 2 0x400000) ∧
    decode 0x20402200000000000000000000001000 = .ok (.aadd 2 2 0x1000) ∧
    decode 0x2041D690000000000000000000000000 = .ok (.aaddReg 13 6 9) ∧
    decode 0x2080D60000000000000000000000003F = .ok (.ashl 13 6 63) ∧
    decode 0x20C00200F00000040000000000000000 = .ok (.ard 0 2 15 4 0) ∧
    decode 0x2100060FF0FFFFFF0000000000000005 = .ok (.ardb 7 6 31 0xFFFFFF 5) ∧
    decode 0x21400000010000000000000000001000 = .ok (.waitwp 1 4096) ∧
    decode 0x2180D60A000000000000000000000009 = .ok (.aldi 13 6 5 9) ∧
    decode 0x3F800001000000060000000000000002 = .ok (.post .acc 6 2) ∧
    decode 0x3FC00001000000060000000000000002 = .ok (.await .acc 6 2) := by
  decide

/-- 08 R148, R151, R168; the worked word of 03; the word of 10. -/
theorem test_decode_vec_float :
    decode 0x40006101880000000000000000000000 = .ok (.vadd .f32 .rne (.z 0) (.pop 0) (.z 1) 0) ∧
    decode 0x40401321900340000000000000000000 = .ok (.vsub .bf16 .rtz (.t 9) (.peek 0) (.z 2) 0) ∧
    decode 0x408013219000C0000000000000000000 = .ok (.vmul .f32 .rup (.t 9) (.peek 0) (.z 2) 0) ∧
    decode 0x40C00701903000000000000000000000 = .ok (.vfma .f32 .rne (.t 3) (.pop 0) (.z 2) (.t 3) 0) ∧
    decode 0x41005F4403F080000000000700000000 = .ok (.vfms .f32 .rdn (.t 47) .immHi (.t 0) (.z 15) 0x700000000) ∧
    decode 0x41401340082300000000000000000007 = .ok (.vfnma .bf16 .rne (.t 9) .immLo (.t 1) (.t 2) 7) ∧
    decode 0x41801321900000000000000000000000 = .ok (.vmin .f32 .rne (.t 9) (.peek 0) (.z 2) 0) ∧
    decode 0x41C01321900000000000000000000000 = .ok (.vmax .f32 .rne (.t 9) (.peek 0) (.z 2) 0) ∧
    decode 0x42008F14000000000000000000000000 = .ok (.vabs .f32 .rne (.q 7) (.pop 5) 0) ∧
    decode 0x42408F14000380000000000000000000 = .ok (.vneg .bf16 .rdn (.q 7) (.pop 5) 0) ∧
    decode 0x428013219000C0000000000000000000 = .ok (.vdiv .f32 .rup (.t 9) (.peek 0) (.z 2) 0) ∧
    decode 0x42801321900200000000000000000000 = .ok (.vdiv .u32 .rne (.t 9) (.peek 0) (.z 2) 0) ∧
    decode 0x42811321900100000000000000000000 = .ok (.vdivRem .i32 (.t 9) (.peek 0) (.z 2) 0) ∧
    decode 0x42C00208184040000000000000000000 = .ok (.vfma16 .rtz (.t 1) (.t 2) (.t 3) (.t 4) 0) := by
  decide

/-- 08 R148, R153; the words of 17. -/
theorem test_decode_vec_integer :
    decode 0x44000C1C180100000000000000000000 = .ok (.viadd .i32 false (.t 6) (.t 7) (.t 3) 0) ∧
    decode 0x44401321900220000000000000000000 = .ok (.visub .u32 true (.t 9) (.peek 0) (.z 2) 0) ∧
    decode 0x44800A12800100000000000000000002 = .ok (.vimul .i32 false (.t 5) (.t 4) .immLo 2) ∧
    decode 0x44C01321900100000000000000000000 = .ok (.vimulh .i32 (.t 9) (.peek 0) (.z 2) 0) ∧
    decode 0x45001321900200000000000000000000 = .ok (.vimin .u32 (.t 9) (.peek 0) (.z 2) 0) ∧
    decode 0x45401321900100000000000000000000 = .ok (.vimax .i32 (.t 9) (.peek 0) (.z 2) 0) ∧
    decode 0x45801321900200000000000000000000 = .ok (.vand .u32 (.t 9) (.peek 0) (.z 2) 0) ∧
    decode 0x45C01321900100000000000000000000 = .ok (.vor .i32 (.t 9) (.peek 0) (.z 2) 0) ∧
    decode 0x46001321900200000000000000000000 = .ok (.vxor .u32 (.t 9) (.peek 0) (.z 2) 0) ∧
    decode 0x46401321900100000000000000000000 = .ok (.vshl .i32 (.t 9) (.peek 0) (.z 2) 0) ∧
    decode 0x46801321900200000000000000000000 = .ok (.vshr .u32 (.t 9) (.peek 0) (.z 2) 0) ∧
    decode 0x46C01321900100000000000000000000 = .ok (.vsra .i32 (.t 9) (.peek 0) (.z 2) 0) := by
  decide

/-- 08 R148, R154 to R157, R163; the words of 11 and 12. -/
theorem test_decode_vec_moving :
    decode 0x4802182E800200000000000080000000 = .ok (.vcmp .lt .u32 (.t 12) (.t 11) .immLo 0x80000000) ∧
    decode 0x484006081D00000000000000FF800000 = .ok (.vsel (.t 3) (.t 2) (.t 3) .immLo 0xFF800000) ∧
    decode 0x48818F140003C0000000000000000000 = .ok (.vcvt .i32 .bf16 .rup (.q 7) (.pop 5) 0) ∧
    decode 0x48C08F14000000000000000000000000 = .ok (.vmov  (.q 7) (.pop 5) 0) ∧
    decode 0x4900122000000F800000000D80000001 = .ok (.vseti (.t 9) (.t 8) 13 62 0x80000001) ∧
    decode 0x4942120000010000000000000000004D = .ok (.viota .row (.t 9) 77) ∧
    decode 0x49801628000000000000000080000100 = .ok (.vrngRaw (.t 11) (.t 10) 0x80000100) ∧
    decode 0x49810604000000000000000000000005 = .ok (.vrngUni (.t 3) (.t 1) 5) ∧
    decode 0x49C01204103200000000000000000000 = .ok (.vclamp .u32 (.t 9) (.t 1) (.t 2) (.t 3) 0) ∧
    decode 0x4C008F1400000FC00000000000000000 = .ok (.vrot .row 63 (.q 7) (.pop 5) 0) ∧
    decode 0x4C408F14000013C00000000000000000 = .ok (.vbcast .col 15 (.q 7) (.pop 5) 0) ∧
    decode 0x4E008F14000001400000000000000000 = .ok (.vshiftDn .row 5 (.q 7) (.pop 5) 0) ∧
    decode 0x4E018F14000011400000000000000000 = .ok (.vshiftUp .col 5 (.q 7) (.pop 5) 0) := by
  decide

/-- 08 R148, R158 to R160; the word of 11. -/
theorem test_decode_vec_groups :
    decode 0x4C808F14000040000000000000000000 = .ok (.vrsum .f32 .rtz false .row (.q 7) (.pop 5) 0) ∧
    decode 0x4DC08F14000120000000000000000000 = .ok (.vscanIncl .i32 .rne true .row (.q 7) (.pop 5) 0) ∧
    decode 0x4DC18F14000210000000000000000000 = .ok (.vscanExcl .u32 .rne false .col (.q 7) (.pop 5) 0) ∧
    decode 0x4CC08F14000010000000000000000000 = .ok (.vrmax .f32 .col (.q 7) (.pop 5) 0) ∧
    decode 0x4D008F14000100000000000000000000 = .ok (.vrmin .i32 .row (.q 7) (.pop 5) 0) ∧
    decode 0x4D402810000010000000000000000000 = .ok (.vrmaxi .f32 .col (.t 20) (.t 4) 0) ∧
    decode 0x4D807C04000200000000000000000000 = .ok (.vrmini .u32 .row (.z 14) (.t 1) 0) := by
  decide

/-- 08 R148, R161; the word of 26. -/
theorem test_decode_vec_special :
    decode 0x50008F14000040000000000000000000 = .ok (.vexp .f32 .rtz (.q 7) (.pop 5) 0) ∧
    decode 0x50408F14000380000000000000000000 = .ok (.vexp2 .bf16 .rdn (.q 7) (.pop 5) 0) ∧
    decode 0x50808F14000040000000000000000000 = .ok (.vln .f32 .rtz (.q 7) (.pop 5) 0) ∧
    decode 0x50C08F14000380000000000000000000 = .ok (.vlog2 .bf16 .rdn (.q 7) (.pop 5) 0) ∧
    decode 0x51008F14000040000000000000000000 = .ok (.vrcp .f32 .rtz (.q 7) (.pop 5) 0) ∧
    decode 0x51408F14000380000000000000000000 = .ok (.vrsqrt .bf16 .rdn (.q 7) (.pop 5) 0) ∧
    decode 0x51808F14000040000000000000000000 = .ok (.vsqrt .f32 .rtz (.q 7) (.pop 5) 0) ∧
    decode 0x51C08F14000380000000000000000000 = .ok (.vtanh .bf16 .rdn (.q 7) (.pop 5) 0) ∧
    decode 0x52008F14000040000000000000000000 = .ok (.vsigm .f32 .rtz (.q 7) (.pop 5) 0) ∧
    decode 0x52406100000300000000000000000000 = .ok (.vgelu .bf16 .rne (.z 0) (.pop 0) 0) ∧
    decode 0x52808F14000000000000000000000000 = .ok (.verf .f32 .rne (.q 7) (.pop 5) 0) := by
  decide

/-- 08 R148, R165 to R167; the worked word of 08; 03 R48. -/
theorem test_decode_vec_packing :
    decode 0x54018F14000345400000000000000000 = .ok (.vunpk true .bf16 .rtz 21 (.q 7) (.pop 5) 0) ∧
    decode 0x54422820000001400000000000000004 = .ok (.vpack .mxi4 false 5 4 (.t 20) (.t 8) (.t 0) (.t 0)) ∧
    decode 0x544B020800300180000000000000003C = .ok (.vpack .f8e4 true 6 60 (.t 1) (.t 2) (.t 0) (.t 3)) ∧
    decode 0x548013219000C0000000000000000000 = .ok (.vpkbf .rup (.t 9) (.peek 0) (.z 2) 0) ∧
    decode 0x54C18F14000000000000000000000000 = .ok (.vupbf true (.q 7) (.pop 5) 0) ∧
    decode 0x5F80000000000000000000000001FC00 = .ok (.postTail .vec { f := 63, n := 0 }) ∧
    decode 0x5FC0000000000000000000008BFE0000 = .ok (.awaitTail .vec { f := 5, n := 255 }) := by
  decide

/-- 13 R225, and the words of 13 and 14. -/
theorem test_decode_mat :
    decode 0x600241000F0200000000000000010804 = .ok (.mma .c8 1 0 16 15 0 true false { await := none, post := some { f := 2, n := 1 } }) ∧
    decode 0x6001EAAFFF0D00000000000000000000 = .ok (.mma .c6 3 21 10 4095 3 false true { await := none, post := none }) ∧
    decode 0x60408000000000000000000000000000 = .ok (.mclr 2 { await := none, post := none }) ∧
    decode 0x60808400001001000000000000010404 = .ok (.moutTile 2 2 .relu false true false false { await := none, post := some { f := 1, n := 1 } }) ∧
    decode 0x608140000042D2000000000000000000 = .ok (.moutHandle 1 13 .gelu true false true { await := none, post := none }) ∧
    decode 0x60C00000000001400000000082020000 = .ok (.mgate 0 0 .id .id true true { await := some { f := 1, n := 1 }, post := none }) ∧
    decode 0x60C04000000000260000000000000000 = .ok (.mgate 1 2 .sigm .tanh false false { await := none, post := none }) ∧
    decode 0x610000003F0004000000000000000000 = .ok (.mscan 0 63 0 false true { await := none, post := none }) ∧
    decode 0x61004000030000070000000000000000 = .ok (.mscan 1 3 3 true false { await := none, post := none }) ∧
    decode 0x61408000000000000000000000000000 = .ok (.mcarryZ 2 { await := none, post := none }) ∧
    decode 0x614180003E0000010000000000000000 = .ok (.mcarryLd 2 1 62 { await := none, post := none }) ∧
    decode 0x614280003E0000010000000000000000 = .ok (.mcarrySt 2 1 62 { await := none, post := none }) ∧
    decode 0x61802A001F0000000000000000000000 = .ok (.dclaim 21 31 { await := none, post := none }) ∧
    decode 0x61C02A00000000000000000000010C10 = .ok (.drel 21 0 { await := none, post := some { f := 3, n := 4 } }) ∧
    decode 0x620000000000D0000000000000000000 = .ok (.dqry 13 { await := none, post := none }) ∧
    decode 0x6282EAA0070200000000000000000000 = .ok (.mmah .c8 3 21 10 7 0 true false { await := none, post := none }) := by
  decide

/-- 09 R175, and the words of 09 and 14; 03 R48. -/
theorem test_decode_copies :
    decode 0x80003400000000000000000184030C04 = .ok (.cpy .cld false 3 4 none 1 { await := some { f := 2, n := 1 }, post := some { f := 3, n := 1 } }) ∧
    decode 0xA000567B000000010000000000000000 = .ok (.cpy .cst false 5 6 (some { hc := 7, csc := .device, cinc := 1 }) 0 { await := none, post := none }) ∧
    decode 0x80403400000000000000000086020000 = .ok (.cpyf false 3 4 none 0 { await := some { f := 3, n := 1 }, post := none }) ∧
    decode 0xA0808900000000000002050000000000 = .ok (.cred false 8 9 none 2 5 0 { await := none, post := none }) ∧
    decode 0x80C2090000000000BEEF000300000000 = .ok (.cfil .cld true 9 none 0xBEEF 3 { await := none, post := none }) ∧
    decode 0xA1029600000000000000000200000000 = .ok (.ctier .cst true 9 6 none 2 { await := none, post := none }) ∧
    decode 0xA14000DCFFFFFFFF0000000000000000 = .ok (.ccnt .cst (some { hc := 13, csc := .domain, cinc := 0xFFFFFFFF }) { await := none, post := none }) ∧
    decode 0x9F800000000000000000000000011408 = .ok (.postTail .cld { f := 5, n := 2 }) ∧
    decode 0xBFC00000000000000000000092000000 = .ok (.awaitTail .cst { f := 9, n := 0 }) := by
  decide

/-- 15, its words and its encoding table. -/
theorem test_decode_fab :
    decode 0xC0002000000000000000000000000000 = .ok (.fcfg 2 { await := none, post := none }) ∧
    decode 0xC0403000000000000000000000000000 = .ok (.fbind 3 0 0 { await := none, post := none }) ∧
    decode 0xC0409B00000003090000000000000000 = .ok (.fbind 9 11 777 { await := none, post := none }) ∧
    decode 0xC0414800000000000000000000000000 = .ok (.fbindC 4 0 0 { await := none, post := none }) ∧
    decode 0xC0800001000000000000000000000000 = .ok (.fgo 1 { await := none, post := none }) ∧
    decode 0xC0C000FF000000000000000000000000 = .ok (.fbar 255 { await := none, post := none }) ∧
    decode 0xC0C15001000000000000000000010804 = .ok (.fbarRec 5 1 { await := none, post := some { f := 2, n := 1 } }) ∧
    decode 0xC1000000000000000000000000000000 = .ok (.fstop { await := none, post := none }) ∧
    decode 0xC101D000000000000000000000000000 = .ok (.fstopRec 13 { await := none, post := none }) := by
  decide

/-- 04 R63, R64, and the words of 04, 10, 19 and 26. -/
theorem test_decode_mul :
    decode 0xE0000000000000000000000000000000 = .ok (.nop 0) ∧
    decode 0xE0408030000000000000000300000000 = .ok (.br 0x40 .eq 3 0 3) ∧
    decode 0xE080FE00000000000000000900000000 = .ok (.jmp 0x7F 9) ∧
    decode 0xE0812360000000000000000000000000 = .ok (.jmpIndirect 0x11 22) ∧
    decode 0xE0C082000000000000FFFFFF00000000 = .ok (.call 0x41 0xFFFFFF) ∧
    decode 0xE1008200000000000000000000000000 = .ok (.ret 0x41) ∧
    decode 0xE140E050008000000000000200000000 = .ok (.loop 0x70 0 5 true 2 0) ∧
    decode 0xE140E410000000000000000A00000000 = .ok (.loop 0x72 0 1 false 10 0) ∧
    decode 0xE180C165A50000000000000900000000 = .ok (.brk 0x60 .ltu 5 22 11 9) ∧
    decode 0xE1C1FE00000000000000000000000000 = .ok (.mode true) ∧
    decode 0xE200A000000000000000000000000004 = .ok (.rotset 0x50 4) ∧
    decode 0xE2403000000000000000000000000000 = .ok (.sync 0x18) ∧
    decode 0xE2413000000000000000000000000000 = .ok (.syncRetire 0x18) := by
  decide
/-- 03 R35, R47, R49: unassigned OP, among them LDQ, CPYF under CST and POST under MUL. -/
theorem test_refuses_seven :
    (decode 0x06400000000000000000000000000000).toOption = none ∧
    (decode 0x09400000000000000000000000000000).toOption = none ∧
    (decode 0x21C00000000000000000000000000000).toOption = none ∧
    (decode 0x43000000000000000000000000000000).toOption = none ∧
    (decode 0x62400000000000000000000000000000).toOption = none ∧
    (decode 0xA0401200000000000000000000000000).toOption = none ∧
    (decode 0x80800000000000000000000000000000).toOption = none ∧
    (decode 0xC1400000000000000000000000000000).toOption = none ∧
    (decode 0xFF800000000000000000000000000000).toOption = none ∧
    (decode 0xE2800000000000000000000000000000).toOption = none := by
  decide

/-- 03 R50: FN values that no word lists. -/
theorem test_refuses_fn :
    (decode 0x00010000000000000000000000000000).toOption = none ∧
    (decode 0x04880000000000000000000000000000).toOption = none ∧
    (decode 0x08070000000000000000000000000000).toOption = none ∧
    (decode 0x20010000000000000000000000000000).toOption = none ∧
    (decode 0x48070000000000000000000000000000).toOption = none ∧
    (decode 0x54460000000000000000000000000000).toOption = none ∧
    (decode 0x60030000000000000000000000000000).toOption = none ∧
    (decode 0x80020000000000000000000000000000).toOption = none ∧
    (decode 0xA0810000000000000000000000000000).toOption = none ∧
    (decode 0xC0420800000000000000000000000000).toOption = none ∧
    (decode 0xE0820200000000000000000000000000).toOption = none := by
  decide

/-- 03 R39 to R46, R50: reserved or out-of-range operand values. -/
theorem test_refuses_operand :
    (decode 0x080300000002C0000000000000000000).toOption = none ∧
    (decode 0x2180000C000000000000000000000000).toOption = none ∧
    (decode 0x21400000040000000000000000000000).toOption = none ∧
    (decode 0x40009000000000000000000000000000).toOption = none ∧
    (decode 0x40000148000000000000000000000000).toOption = none ∧
    (decode 0x40000000000100000000000000000000).toOption = none ∧
    (decode 0x40000118000000000000000000000000).toOption = none ∧
    (decode 0x60801800000000000000000000000000).toOption = none ∧
    (decode 0xC0400C00000000000000000000000000).toOption = none ∧
    (decode 0xE0400200480000000000000000000000).toOption = none ∧
    (decode 0xE1400200060000000000000000000000).toOption = none := by
  decide

/-- 03 R50: fields that a word does not use. -/
theorem test_refuses_reserved :
    (decode 0x00000003000000000000000000000000).toOption = none ∧
    (decode 0x05000040000000000000000000000000).toOption = none ∧
    (decode 0x080000000001A0000000000000000000).toOption = none ∧
    (decode 0x20000100000000000000000000000000).toOption = none ∧
    (decode 0x40000000001000000000000000000000).toOption = none ∧
    (decode 0x48400000000040000000000000000000).toOption = none ∧
    (decode 0x60400000010000000000000000000000).toOption = none ∧
    (decode 0x60400000000000000000000002000000).toOption = none ∧
    (decode 0x80000000000000000001000000000000).toOption = none ∧
    (decode 0xC0000100000000000000000000000000).toOption = none ∧
    (decode 0xE0800210000000000000000000000000).toOption = none := by
  decide

/-! ### Well-formedness -/

/-- 03 R50 and the checks of each chapter: one ill-formed term or more for each check. -/
theorem test_wellformed_refuses :
    ([
      .setc .al 1 2 (.imm 0), .extr .u 1 2 0 0, .extr .s 1 2 0 65, .insr 1 2 60 5, .fencex 0 1, .fencex 1 0, .hget 1 2 23, 
      .hsetx 1 6 (.imm 0), .hoff 1 6 (.imm 0), .tset 1 (.imm 1024), .tclr (.imm 1024), .tinfo 1 (.imm 1024), .rvk (.imm 32), 
      .rqryRule 1 (.imm 32), .rqryRec 1 (.imm 32), .rqryCur 1 (.imm 32), .rres (.imm 32), .rslice 1 (.imm 0), .rslice 1 (.imm 65536), .inst 1 2 3 (.imm 0) false none true (some 48), 
      .snew 1 1 (.imm 1), .snew 1 2 (.imm 0), .snew 1 2 (.imm 4097), .ssend false 1 2 3 (.imm 0) none, .srecv false 1 2 3 (.imm 65) none, 
      .sbind 1 2 (.imm 65), .ssendh false 1 2 2 none, .srd 1 0x006, .srd 1 0x044, .swr 0x002 (.imm 0), .post .vec 1 1, .post .ctl 1 0, 
      .await .acc 1 65536, .postTail .ctl { f := 1, n := 1 }, .awaitTail .acc { f := 1, n := 1 }, .vadd .f32 .rne (.t 0) (.t 1) (.t 2) 1, 
      .vfma .f32 .rne (.t 0) (.t 1) (.t 2) (.t 3) 1, .vabs .f32 .rne (.t 0) (.t 1) 1, .vdiv .i32 .rtz (.t 0) (.t 1) (.t 2) 0, 
      .vdivRem .i32 (.t 0) (.t 1) (.t 2) 1, .viadd .i32 true (.t 0) (.t 1) (.t 2) 1, .vand .u32 (.t 0) (.t 1) (.t 2) 1, 
      .vcmp .un .i32 (.t 0) (.t 1) (.t 2) 0, .vsel (.t 0) (.t 1) (.t 2) (.t 3) 1, .vmov (.t 0) (.t 1) 1, .vrot .col 16 (.t 0) (.t 1) 0, 
      .vrsum .f32 .rne true .row (.t 0) (.t 1) 0, .vscanIncl .i32 .rtz false .row (.t 0) (.t 1) 0, .vrmax .i32 .row (.t 0) (.t 1) 1, 
      .vrmaxi .i32 .row (.t 47) (.t 1) 0, .vrmini .i32 .row (.q 0) (.t 1) 0, .vexp .f32 .rne (.t 0) (.t 1) 1, 
      .vunpk false .f32 .rne 0 (.t 0) (.t 1) 1, .vpkbf .rne (.t 0) (.t 1) (.t 2) 1, .vpack .mxi8 false 0 61 (.t 0) (.t 1) (.t 0) (.t 0), 
      .vpack .mxi4 false 0 64 (.t 0) (.t 1) (.t 2) (.t 0), .vpack .mxi4 false 0 64 (.t 0) (.t 1) (.t 0) (.t 2), 
      .vpack .mxi4 false 0 64 (.q 0) (.t 1) (.t 0) (.t 0), .br 0 .eq 1 2 0, .br 1 .al 1 0 0, .jmp 0 0, .call 0 0, .ret 0, .sync 0, 
      .syncRetire 0, .jmpIndirect 1 0, .loop 1 0 1 false 0 1, .brk 1 .al 0 0 1 0, .rotset 1 1, .rotset 1 17, .rotset 0 2] : List Instr).all (fun i => !i.wf) = true := by
  decide

/-! ### Hypotheses that can be met -/

/-- A resident task of tenant 0 on core 0 that runs; a page table at address 0 maps virtual 2^30 on to physical 0, and 2^31 on to
physical 2^40. -/
def Sys2Proof.Tests.ready : State :=
  { State.reset with core := { Core.reset with task := some placedTask, halt := .run }, mem := [(0, 1), (8, 31), (16, 31), (21, 1)] }
/-- That core changed. -/
def Sys2Proof.Tests.with' (f : Core → Core) : State := Sys2Proof.Tests.ready.mapCore f
/-- That device changed. -/
def Sys2Proof.Tests.dev' (f : Device → Device) : State := Sys2Proof.Tests.ready.mapDev f
/-- A sequencer that waits at a word. -/
def Sys2Proof.Tests.stand (i : Instr) : State :=
  let w := (encode i).getD 0
  (Sys2Proof.Tests.ready.withFetchWord 128 w.toNat).mapSeq (takerOf w) fun q => { q with wait := some .external, tried := true }
/-- That word as the running one. -/
def Sys2Proof.Tests.running (i : Instr) : State :=
  let w := (encode i).getD 0
  { Sys2Proof.Tests.stand i with who := takerOf w, cur := { word := w, pc := 0, pos := 0, slot := 0 } }
section Witnesses
set_option Elab.async false
open Sys2Proof.Tests

theorem witness_CtlIntegerResults :
    ready.settled [31, 31, 31, 31] = true ∧ 1 ≤ (1 : BitVec 7).toNat ∧ (63 : BitVec 6).toNat + (1 : BitVec 7).toNat ≤ 64 ∧
      (0 : BitVec 6).toNat + (64 : BitVec 7).toNat ≤ 64 := by decide +kernel
theorem witness_DivideByCases :
    let s := (ready.setS 1 (BitVec.intMin 64)).setS 2 7
    s.settled [3, 1] = true ∧ s.op2 (.imm 0) = 0 ∧ (s.getS 1).toInt = -2 ^ 63 ∧ (s.op2 (.imm (-1))).toInt = -1 ∧
      s.op2 (.reg 2) ≠ 0 ∧ (s.getS 2).toInt ≠ -2 ^ 63 := by decide +kernel
theorem witness_RegisterWordFrames :
    (∃ t, exec (.add 31 0 (.imm 5)) ready = .next t) ∧ scalarDest (.add 31 0 (.imm 5)) = some 31 ∧
    (∃ t, exec (.hclr 15) ready = .next t) ∧ handleDest (.hclr 15) = some 15 ∧
    (∃ t, exec (.aset 15 7) ready = .next t) ∧ addrDest (.aset 15 7) = some 15 ∧ ready.core.s.length = 32 :=
  ⟨⟨_, rfl⟩, rfl, ⟨_, rfl⟩, rfl, ⟨_, rfl⟩, rfl, rfl⟩
theorem witness_ScalarAccesses :
    let s := ready
    let d : State := with' fun c => { c with det := true }
    let at' (x : Option (List Byte)) : State := { d.mapSeq .ctl (fun q => { q with dec := .timed 0 x }) with who := .ctl }
    s.settled [1, 2] = true ∧ s.scOpen = true ∧ s.lands (s.ea 0 0x7FFFFFF8) (ldSize .w64) .rd 0x3FFFFFF8 none ∧
      s.badMem 0x3FFFFFF8 8 = false ∧ s.ea 0 0x3FFFFF8 < 2 ^ 26 ∧ s.ea 0 0x3FFFFF8 % ldSize .w64 = 0 ∧
      s.badSpad (spadOff s.cnum (s.ea 0 0x3FFFFF8)) 8 = false ∧ s.lands (s.ea 0 0x40000000) 32 .rd 0 none ∧ s.badMem 0 32 = false ∧
      s.lands (s.ea 0 0x40000008) (stSize .b8) .wr 8 none ∧ s.ea 0 0x3FFFFFF % stSize .b8 = 0 ∧
      s.lands (s.ea 0 0x40000020) 32 .wr 0x20 none ∧ s.core.det = false ∧
      s.inTurn (s.loadLat false 0x3FFFFFF8) false = true ∧ d.inTurn (d.loadLat true 8) false = true ∧ d.inTurn (d.storeLat false 8) true = true ∧
      s.siblingOk (windowCore s.cnum (s.ea 0 0x3FFFFF8 / spadSize)) = true ∧ d.core.det = true ∧ d.seq.dec = .none ∧
      (at' none).seq.dec = .timed 0 none ∧ (at' none).core.loadsRead = true ∧ (at' (some [1])).seq.dec = .timed 0 (some [1]) ∧
      d.lands (d.ea 0 0x40000000) 32 .rd 0 none := by
  unfold State.lands; decide +kernel

/-- Some bytes put at places of others. -/
def Sys2Proof.Tests.puts (bs : List Byte) (l : List (Nat × Byte)) : List Byte := l.foldl (fun b x => b.set x.1 x.2) bs
/-- A launch of one task: VERSION 1, NLVL 1, one block of text at 2^30, COMPL at 2^30 + 0x20000, COUNT 1 (02 R18). -/
def Sys2Proof.Tests.launch0 : Launch :=
  { raw := Sys2Proof.Tests.puts (List.replicate 256 0) [(0, 1), (2, 1), (0xB, 0x40), (0x10, 1), (0x3A, 2), (0x3B, 0x40), (0x40, 1)], images := [], chart := [], reject := none }
/-- The context of that launch, resident in slot 0. -/
def Sys2Proof.Tests.ctx0 : Ctx :=
  { id := 0, tenant := 0, queue := 0, slot := some 0, launch := Sys2Proof.Tests.launch0, st := .resident, stop := none, gangs := 1, ended := 0,
    endedG := [], endAt := [], erefill := 0, epool := 0, eperiod := 0, saves := 0, saved := [], rank := 0, nranks := 1,
    born := 0, held := [], farReady := [], farBars := [], farEnded := [], cycles := 0 }
/-- The resident task with its context. -/
def Sys2Proof.Tests.inCtx : State := Sys2Proof.Tests.dev' fun d => { d with ctxs := [Sys2Proof.Tests.ctx0] }
/-- A handle of one element. -/
def Sys2Proof.Tests.handle (base spc fmt : Nat) : W256 :=
  BitVec.ofNat 256 (base + spc * 2 ^ 52 + fmt * 2 ^ 54 + 2 ^ 60 + ((List.range 6).map fun i => 2 ^ (64 + 16 * i)).sum)
theorem witness_ScalarAccessesLand :
    let l (d : SReg) (x : LdSrc) : LoadEnt := { d := d, src := x, val := 1, issued := 0, lat := 400 }
    let e (sp : Bool) : StoreEnt := { addr := 8, sp := sp, bytes := [1, 2], key := none, rels := [], pos := 0, slot := 0, issued := 0, due := 800 }
    let s (cyc : W64) (x : LdSrc) := with' fun c => { c with det := true, cycle := cyc, loads := [l 4 .done] ++ l 5 x :: [l 5 x] }
    let t (sp : Bool) := with' fun c => { c with det := true, cycle := 800, stores := [e sp], loads := [l 1 (.spad .w64 0 none)] }
    let m : LdSrc := .mem .w64 8 none none
    (s 800 .done).core.loads = [l 4 .done] ++ l 5 .done :: [l 5 .done] ∧ (∀ x ∈ [l 4 .done], x.d ≠ (l 5 .done).d) ∧
      (s 800 .done).core.reached ((l 5 .done).issued + 2 * (l 5 .done).lat) = true ∧ m ≠ .done ∧
      (s 400 m).core.reached ((l 5 m).issued + (l 5 m).lat) = true ∧ (s 400 m).core.loadTurn (l 5 m) [l 4 .done] = true ∧
      ∀ sp, (t sp).core.stores = [e sp] ∧ (t sp).core.pathOpen .sc (e sp).pos (e sp).slot = true ∧ (t sp).core.reached (e sp).due = true ∧
        ∀ x ∈ (t sp).core.loads, x.src ≠ .done → (e sp).issued ≤ x.issued := by decide +kernel
theorem witness_WaitgeSamples :
    let i : Instr := .waitge 1 2 (.imm 1) .core
    let s := (running i).setS 2 0x40000000
    let d : State := s.mapCore fun c => { c with det := true }
    let at' (n : Nat) (x : Option (List Byte)) : State := d.mapSeq .ctl fun q => { q with dec := .timed n x }
    (s.settled (1 :: 2 :: op2Regs (.imm 1)) = true ∧ s.scOpen = true ∧ s.lands (s.getS 2).toNat 8 .rd 0 none ∧ s.badMem 0 8 = false ∧
      leNat (s.loadPhys none 0 8) = 1 ∧ ((stand i).setS 2 0x40000000).standAt .ctl = some (i, s) ∧ s.seq.wait.isSome = true ∧
      s.core.det = false) ∧ d.core.det = true ∧ d.seq.dec = .none ∧ d.inTurn 400 false = true ∧ (at' 0 none).seq.dec = .timed 0 none ∧
      (at' 0 (some [1])).seq.dec = .timed 0 (some [1]) ∧ (at' 1 none).core.cycle.toNat < 1 :=
  ⟨⟨by decide, by decide, ⟨by decide, by decide⟩, by decide, by decide +kernel, rfl, by decide, rfl⟩, rfl, by decide +kernel, by decide +kernel,
    by decide +kernel, by decide +kernel, by decide +kernel⟩
theorem witness_Atomics :
    let s := ready.setS 2 0x40000010
    s.settled ((1 :: 2 :: [3]) ++ op2Regs (.imm 1)) = true ∧ s.scOpen = true ∧ s.core.storesOpen = true ∧
      s.scTarget (s.getS 2).toNat (atSize .w64) .rdwr = .ok { phys := 16, key := none, remote := none } ∧
      s.drainStores.memOk (atSize .w64) = true ∧ s.drainStores.badMem 16 (atSize .w64) = false ∧ s.core.det = false ∧
      (s.mapCore fun c => { c with det := true }).inTurn 800 true = true := by decide +kernel
theorem witness_OrderWords :
    let d : State := (with' fun c => { c with det := true, cycle := 32 }).mapSeq .ctl fun q => { q with dec := .timed 0 none }
    ready.drains = true ∧ ready.core.loadsRead = true ∧ ready.core.det = false ∧ ready.core.storesOpen = true ∧ d.core.det = true ∧
      d.seq.dec = .timed 0 none ∧ d.core.stores = [] ∧ d.core.loadsRead = true ∧ max 0 d.core.scDone + 32 ≤ d.core.cycle.toNat ∧
      (∀ c ∈ d.tasked, c.1 < d.cnum → c.2.task.map Task.ctx = d.core.task.map Task.ctx → c.2.fenceDue = false) ∧
      (∀ z ∈ ready.core.fences, z.pos = ready.cur.pos → z.slot = ready.cur.slot → z.x = 1 ∧ z.y = 2) ∧
      (2 : BitVec 5).getLsbD Machine.Path.cp.bit = true ∧ posLt 0 0 0 1 = true ∧
      (∃ t, exec (.fencex 1 2) ready = .next t ∧ t.core.pathOpen .sc 0 1 = true) := by
  refine ⟨by decide +kernel, by decide +kernel, by decide +kernel, by decide +kernel, by decide +kernel, by decide +kernel, by decide +kernel,
    by decide +kernel, by decide +kernel, by decide +kernel, by decide +kernel, by decide +kernel, by decide +kernel, _, rfl, by decide +kernel⟩
theorem witness_HandleWords :
    ready.settled (op2Regs (.imm 0)) = true ∧ hSpc (ready.core.getH 15) ≠ 3 ∧ (5 : BitVec 6).toNat ≤ 5 ∧
      hSpc ((with' fun c => c.setH 15 (3 <<< 52)).core.getH 15) = 3 := by decide +kernel
theorem witness_HgetSelectors : ready.settled [31] = true ∧ (22 : BitVec 12).toNat ≤ 22 ∧ 22 < (23 : BitVec 12).toNat := by decide +kernel
theorem witness_HoffMovesBase :
    let stuck (s : State) (k : BitVec 6) : Bool :=
      hSpc (s.core.getH 1) = 2 ∨ hSpc (s.core.getH 1) = 3 ∨ (k = 5 ∧ fmtSize (hFmt (s.core.getH 1)) = none)
    ready.settled (op2Regs (.imm 1)) = true ∧ stuck ready 4 = false ∧ stuck (with' fun c => c.setH 1 (2 <<< 52)) 0 = true ∧
      stuck (with' fun c => c.setH 1 (63 <<< 54)) 5 = true ∧ 5 < (6 : BitVec 6).toNat := by decide +kernel
theorem witness_TagWords :
    let held : State := with' fun c => { c with tags := { valid := true, key := 5 } :: c.tags.drop 1 }
    let pinned : State := ready.mapSeq .acc fun q => { q with dec := .rows [] [1023] }
    ready.settled (1 :: 2 :: op2Regs (.imm 1023)) = true ∧ ready.good 4 = true ∧ ready.core.tagLine 5 = none ∧
      held.core.tagLine 5 = some 0 ∧ (∀ n, ready.core.pins n = 0) ∧ pinned.core.pins 1023 ≠ 0 := by
  have hr : List.range 1024 = 0 :: (List.range 1023).map (· + 1) := List.range_succ_eq_map
  refine ⟨by decide, by decide, ?_, by unfold Core.tagLine; rw [hr, List.find?_cons_of_pos]; rfl, fun n => rfl, by decide +kernel⟩
  have ht : ∀ i, ready.core.tags.getD i TagEnt.reset = TagEnt.reset := fun i => by
    rw [List.getD_eq_getElem?_getD]
    show ((List.replicate 1024 TagEnt.reset)[i]?).getD TagEnt.reset = TagEnt.reset
    rw [List.getElem?_replicate]; split <;> rfl
  unfold Core.tagLine; simp only [ht]; simp [TagEnt.reset]
theorem witness_SystemRegisters :
    ready.settled [31] = true ∧ ready.core.task = some placedTask ∧ (256 : BitVec 9).toNat ≤ 256 ∧ 256 < (257 : BitVec 9).toNat ∧
      (0xFFFFFF : BitVec 24).toNat < ready.tlen ∧
      (with' fun c => { c with task := some { placedTask with tlen := 1 } }).tlen ≤ (1 : BitVec 24).toNat := by decide +kernel
theorem witness_TrapsTaken :
    let s := with' fun c => { c with trapEn := true }
    s.core.trapEn = true ∧ s.core.aside = none ∧ ready.core.trapEn = false ∧ (s.trapWith (s.info 1)).core.aside.isSome = true := by decide +kernel
theorem witness_TrapsReturn :
    let s := (with' fun c => { c with trapEn := true }).trapWith (ready.info 1)
    let b := s.mapCore fun c =>
      { c with cld := [CopyCmd.start (.ccnt .cld none { await := none, post := none }) At.none .own none]
               aside := c.aside.map fun w => { w with replies := w.replies.set .cld .asked } }
    s.who = .ctl ∧ (∃ w, s.core.aside = some w ∧ w.mulWord = false ∧ w.held = .word ∧ s.core.eretBusy w = false) ∧ ready.core.aside = none ∧
      (ready.mapSeq .ctl id).who = .ctl ∧ (∃ w, b.core.aside = some w ∧ b.core.eretBusy w = true) :=
  ⟨rfl, ⟨_, rfl, rfl, rfl, rfl⟩, rfl, rfl, _, rfl, rfl⟩
theorem witness_YieldAndExit :
    ready.core.task = some placedTask ∧ ready.yieldTaken = false ∧ ready.core.seqs.ctl.ended = false ∧
      ({ ready with who := .vec } : State).who ≠ .ctl := by decide +kernel
theorem witness_PostsAdd :
    let s := with' fun c => c.setFlag 63 65535
    s.core.f.length = 64 ∧ s.core.flag 63 + (0 : W64).toNat ≤ 65535 ∧ 65535 < s.core.flag 63 + (1 : W64).toNat ∧
      s.drains = true ∧ ({ s with who := .acc } : State).who = .acc ∧ ({ s with who := .acc } : State).who ≠ .ctl := by decide +kernel
theorem witness_PostsAdd_deferred :
    let p : DefPost := { eng := .mat, f := 63, n := 65535, before := 0, place := At.none }
    let s := with' fun c => { c with defPosts := p :: [{ p with f := 0, eng := .vec }] }
    s.core.defPosts = p :: [{ p with f := 0, eng := .vec }] ∧ (∀ g ∈ s.core.flights, g.eng = p.eng → g.owner = .own → p.before ≤ g.id) ∧
      (∀ x ∈ [({ p with f := 0, eng := .vec } : DefPost)], x.f = p.f → engNo p.eng ≤ engNo x.eng) ∧ s.core.flag p.f + p.n ≤ 65535 := by
  decide +kernel
theorem witness_AwaitsTake :
    let i : Instr := .await .acc 63 1
    let t := (running i).mapCore fun c => c.setFlag 63 1
    ready.core.awaitReady .ctl 63 0 = true ∧ ready.core.awaitReady .ctl 63 1 = false ∧
      ((stand i).mapCore fun c => c.setFlag 63 1).standAt .acc = some (i, t) ∧
      (t.core.seqs.get .acc).awaiting = some (63, 1) ∧ t.core.awaitReady .acc 63 1 = true ∧
      t.core.halt = .run ∧ t.core.heldByOthers .acc = false ∧ isAwait i = true :=
  ⟨rfl, rfl, rfl, rfl, rfl, rfl, rfl, rfl⟩
theorem witness_AddressWords :
    let i : Instr := .waitwp 3 1
    let s := running i
    s.copyAhead .cld 3 s.cur.pos s.cur.slot = false ∧ s.copyAhead .cst 3 s.cur.pos s.cur.slot = false ∧
      s.core.refCopy 3 s.cur.pos s.cur.slot = none ∧ (stand i).standAt .acc = some (i, s) ∧ s.seq.wait.isSome = true ∧
      s.core.heldByOthers .acc = false ∧
      ((s.mapCore fun c => { c with chans := c.chans.set 3 [{ pos := 0, slot := 0, delivered := some 1, retired := false }] }).core.refCopy 3 0 1 =
        some { pos := 0, slot := 0, delivered := some 1, retired := false }) := ⟨rfl, rfl, rfl, rfl, rfl, rfl, rfl⟩
theorem Sys2Proof.Tests.ardbRow_zero (c : Core) (h : c.tagLine 0 = some 0) : ardbRow c 0 0 = .ok ([0, 64, 128, 192], [0]) := by
  unfold ardbRow
  simp [h, List.range_succ, spadKey, lineSize]
theorem witness_RowsGather :
    let s : State := with' fun c => { c with tags := { valid := true, key := 0 } :: c.tags.drop 1 }
    s.good 4 = true ∧ s.seq.dec = .none ∧ judgeAll ((s.rowOffsets 0 0 0 0).map (ardbRow s.core 0)) = .ok [([0, 64, 128, 192], [0])] ∧
      judgeAll ((ready.rowOffsets 0 31 4 0).map ready.ardRow) = .ok ((List.range 32).map fun k => 256 * k) ∧
      (ready.core.queue 7).length + ready.core.pendingAppends 7 + (32 + 15) / 16 ≤ 8 ∧ ready.pathsOpen = true ∧
      (ready.core.interlocked && ready.runsBusy [(0, 64)]) = false ∧ ready.badSpad 0 64 = false ∧ ready.core.det = false := by
  have hr : List.range 1024 = 0 :: (List.range 1023).map (· + 1) := List.range_succ_eq_map
  refine ⟨by decide, rfl, ?_, by decide, by decide, by decide, by decide, by decide, by decide⟩
  rw [show State.rowOffsets _ 0 0 0 0 = [0] by decide, List.map_cons, ardbRow_zero]; rfl
  unfold Core.tagLine; rw [hr, List.find?_cons_of_pos]; rfl
theorem witness_VecWordsIssue :
    (∃ v qs, vecSem (.viota .lin (.t 47) 0) = some v ∧ ready.vecReady v [] qs ∧ (v.run []).bad = none ∧ (v.run []).nan = none) ∧
    (∃ v ts qs, vecSem (.vadd .f32 .rne (.t 0) .immLo .immHi 0xFF8000007F800000) = some v ∧
      (with' fun c => { c with nant := true }).vecReady v ts qs ∧ (v.run ts).bad = none ∧ (v.run ts).nan = some 0) ∧
    (∃ v ts qs, vecSem (.vunpk false .f32 .rne 0 (.t 0) .immLo 0x80) = some v ∧ ready.vecReady v ts qs ∧ (v.run ts).bad = some 0) ∧
    dstOk (ready.mapSeq .ctl fun q => { q with rotsz := 15 }).seq (.z 15) false = false := by
  unfold State.vecReady
  refine ⟨⟨_, _, rfl, ⟨rfl, rfl, by decide, rfl, rfl, rfl, rfl, rfl, rfl⟩, rfl, rfl⟩, ⟨_, _, _, rfl, ⟨rfl, rfl, by decide, rfl, rfl, rfl, rfl, rfl, rfl⟩, rfl, ?_⟩, 
   ⟨_, _, _, rfl, ⟨rfl, rfl, by decide, rfl, rfl, rfl, rfl, rfl, rfl⟩, ?_⟩, by decide⟩
  · decide +kernel
  · decide +kernel
theorem witness_VecLanes :
    (List.replicate 1024 (0xFFFFFFFF : W32)).length = 1024 ∧ 1023 < 1024 ∧ (15 : BitVec 6).toNat < 16 ∧ 15 < 16 ∧ 63 < 64 :=
  ⟨List.length_replicate, by decide, by decide, by decide, by decide⟩
theorem witness_VecFloatRounding :
    let fin (x : W32) : Bool := (x.extractLsb' 23 8).toNat ≠ 255
    (List.replicate 1024 (0x7F7FFFFF : W32)).length = 1024 ∧ fin 0 = true ∧ fin 1 = true ∧ fin 0x7F7FFFFF = true ∧ fin 0xFF7FFFFF = true ∧
      (0x7F7FFFFF : W32).extractLsb' 0 23 ≠ 0 := by
  refine ⟨List.length_replicate, by decide, by decide, by decide, by decide, by decide⟩
theorem witness_VecSpecialLanes :
    let ex (x : W32) : Nat := (x.extractLsb' 23 8).toNat
    let man (x : W32) : BitVec 23 := x.extractLsb' 0 23
    (List.replicate 1024 (0x7F800001 : W32)).length = 1024 ∧
      (ex 0x7F800001 = 255 ∧ man 0x7F800001 ≠ 0) ∧ (ex 0xFFFFFFFF = 255 ∧ man 0xFFFFFFFF ≠ 0) ∧
      (ex 0x7F800000 = 255 ∧ man 0x7F800000 = 0) ∧ (ex 0xFF800000 = 255 ∧ man 0xFF800000 = 0) ∧
      (0x80000000 : W32).extractLsb' 0 31 = 0 ∧ (ex 1 ≠ 255 ∧ (1 : W32).extractLsb' 0 31 ≠ 0) ∧
      (0x80000001 : W32).getLsbD 31 = true ∧ ex 0x3F800000 ≠ 255 ∧ (0x3F800000 : W32).extractLsb' 0 16 = 0 := by
  refine ⟨List.length_replicate, by decide, by decide, by decide, by decide, by decide, by decide, by decide, by decide, by decide⟩
theorem witness_ResultsLand :
    let f (e : Eff) (n : Nat) : Flight :=
      { id := 0, eng := .vec, rem := n, effs := [e], work := none, post := none, rls := [], pins := [], place := At.none, owner := .own }
    (with' fun c => { c with flights := [f (.run 0 [1]) 1] }).core.flights[0]? = some (f (.run 0 [1]) 1) ∧ (f (.run 0 [1]) 1).ready = false ∧
      (f (.run 0 [1]) 0).ready = true ∧ (f (.queue 7 []) 0).ready = true ∧ ready.core.queues.length = 8 := by decide
theorem witness_BarriersMeet :
    let s := inCtx.mapCore fun c => { c with arrived := some 0 }
    let i : Instr := .bar 0
    inCtx.core.task = some placedTask ∧ (0 : BitVec 3).toNat < placedTask.nlvl ∧ (0 : BitVec 3).toNat ≤ placedTask.gang ∧
      placedTask.nlvl ≤ (1 : BitVec 3).toNat ∧ placedTask.single = true ∧ s.mayDepart 0 = true ∧ inCtx.core.arrived = none ∧
      inCtx.core.storesOpen = true ∧ inCtx.ctx? = some ctx0 ∧ ready.mayDepart 0 = false ∧
      ((stand i).mapCore fun c => { c with arrived := some 0 }).standAt .ctl =
        some (i, (running i).mapCore fun c => { c with arrived := some 0 }) ∧
      ({ placedTask with single := false } : Task).single = false :=
  ⟨rfl, by decide, by decide, by decide, rfl, by decide +kernel, rfl, rfl, rfl, rfl, rfl, rfl⟩
theorem witness_Transfers :
    let l : LoopRec := { lvl := 5, n := 2, start := 0, exit := 0xFFFFFF, depth := 0, rot := false }
    let s : State := { (with' fun c => { c with view := PerEng.all { View.reset with depth := 1, loops := [l] } }) with
      cur := { At.none with pc := 48, slot := 3 } }
    let v : State := { ready with who := .vec, cur := { At.none with slot := 3 } }
    s.who = .ctl ∧ s.settled [1, 2] = true ∧ s.queuesRoom 0x7F = true ∧ (0xFFFFFF : W32).toNat < s.tlen ∧
      (s.getS 0).toNat % 64 = 0 ∧ s.cur.slot = 3 ∧ ((followers 0x7F).all fun e => decide ((s.core.view.get e).depth < 16)) = true ∧
      ((followers 0x7F).all fun e => (s.core.view.get e).depth != 0) = true ∧
      ((followers 0x7F).all fun e => (loopAt (s.core.view.get e).loops 0).isNone) = true ∧
      ((followers 0x7F).all fun e => (loopAt (s.core.view.get e).loops 5).any fun x => x.exit == 0xFFFFFF) = true ∧
      (s.mapSeq .ctl fun q => { q with pc := 48, rstack := [0] }).core.seqs.ctl.pc = s.cur.pc ∧
      v.who ≠ .ctl ∧ inMask 0x7F v.who = true ∧ v.seq.ctlq = [] ∧ v.cur.slot = 3 ∧ v.seq.rstack.length < 16 ∧
      (v.mapSeq .vec fun q => { q with ctlq := [.outcome true, .outcome false, .target 1, .trips 0, .trips 1] }).seq.ctlq ≠ [] := by
  decide +kernel
theorem witness_TransfersSkipped :
    let v : State := { ready with who := .vec }
    let u := (v.mapSeq .vec fun q => { q with detached := true, wait := some .external, skip := 0 }).mapCore fun c =>
      { c with trail := [(1, 0)], seqs := c.seqs.set .ctl { c.seqs.ctl with pos := 2 } }
    v.who ≠ .ctl ∧ inMask 0 v.who = false ∧ (u.core.seqs.get .vec).detached = true ∧ (u.core.seqs.get .vec).ended = false ∧
      (u.core.seqs.get .vec).wait.isSome = true ∧ u.core.rejoin (u.core.seqs.get .vec) = some 1 ∧ inMask 0x7F v.who = true := by
  decide +kernel
theorem witness_LoopClosesAndText :
    let l (k : Fin 6) (n : W32) : LoopRec := { lvl := k, n := n, start := 0, exit := 1, depth := 0, rot := true }
    let s (a b : W32) := ready.mapSeq .mat fun q => { q with closing := true, pc := 64, loops := [l 0 a, l 5 b] }
    let q (a b : W32) := (s a b).core.seqs.get .mat
    let f := ready.mapSeq .mat fun q => { q with entered := true, pc := 0x40000000 }
    (q 2 1).closing = true ∧ (q 2 1).loops = l 0 2 :: [l 5 1] ∧ (q 2 1).lidx.length = 6 ∧ (l 0 2).exit = (q 2 1).pc / 64 ∧
      (l 0 2).depth = (q 2 1).rstack.length ∧ ((q 2 1).lidx.getD 0 0 + 1).toNat < (2 : W32).toNat ∧
      (1 : W32).toNat ≤ ((q 1 2).lidx.getD 0 0 + 1).toNat ∧ ((q 1 2).lidx.getD 5 0 + 1).toNat < (l 5 2).n.toNat ∧ (l 5 2).lvl ≠ (l 0 1).lvl ∧
      (∀ x ∈ [l 5 1], x.exit ≠ 2 ∨ x.depth ≠ 0) ∧
      (f.core.seqs.get .mat).ended = false ∧ (f.core.seqs.get .mat).entered = true ∧ (f.core.seqs.get .mat).fetch = none ∧
      f.textTarget ((f.core.seqs.get .mat).pc / 64) = .ok { phys := 0, key := none, remote := none } ∧
      (∃ e, ready.textTarget 0 = .error e) := by
  refine ⟨by decide, by decide, by decide, by decide, by decide, by decide, by decide, by decide, by decide, by decide, by decide, by decide,
    by decide, by decide +kernel, _, rfl⟩
theorem witness_Rendezvous :
    let s : State := with' fun c => { c with seqs := PerEng.all { Seq.reset with atSync := true } }
    let i : Instr := .mode true
    let d (s : State) := s.mapCore fun c => { c with draining := true, seqs := c.seqs.mapE fun _ q => { q with atSync := true } }
    s.who = .ctl ∧ inMask 0x7F s.who = true ∧ s.arrive.allArrived engs = true ∧ s.arrive.allArrived (followers 0x7F) = true ∧
      ready.arrive.allArrived engs = false ∧ ready.arrive.allArrived (followers 0x7F) = false ∧
      ((followers 0x7F).all fun e => !inMask 0x7F e || !s.arrive.core.outstanding e) = true ∧ s.core.aside = none ∧
      s.arrive.core.quiet = true ∧ (s.mapCore fun c => { c with loads := [{ d := 1, src := .done, val := 0, issued := 0, lat := 0 }] }).arrive.core.quiet = false ∧
      (d (stand i)).standAt .ctl = some (i, d (running i)) ∧ (d (running i)).core.draining = true :=
  ⟨rfl, rfl, rfl, rfl, rfl, rfl, rfl, rfl, by decide +kernel, by decide +kernel, rfl, rfl⟩
/-- A tail without clauses. -/
def Sys2Proof.Tests.plain : Tail := { await := none, post := none }
theorem witness_MatWordsIssue :
    let s : State := { (with' fun c => { c with claimed := 0xFFFFFFFF }) with who := .mat }
    s.awaits plain = true ∧ s.awaits { await := some { f := 63, n := 1 }, post := none } = false ∧ s.matReady [3] [] ∧
      s.matReady [3] [3] ∧ s.core.ctlPassed s.cur.pos s.cur.slot = true ∧
      s.core.unclaimed (mmaDrawers (.mma .c4 3 0 31 0 0 false false plain)) = none ∧
      ready.core.unclaimed (mmaDrawers (.mma .c4 3 30 31 0 0 false false plain)) = some { cause := Cause.drawer, aux := 30 } ∧ s.who = .mat := by
  unfold State.matReady; decide +kernel
theorem witness_EpilogueIssues :
    let s : State := { (with' fun c => { c with queues := List.replicate 8 [List.replicate 1024 0] }) with who := .mat }
    s.awaits plain = true ∧ s.pathsOpen = true ∧ s.core.ctlPassed s.cur.pos s.cur.slot = true ∧ s.matReady [0, 3] [3] ∧
      (∃ x r, s.core.queue 6 = x :: r) ∧ (∃ x r, s.core.queue 7 = x :: r) ∧
      (s.core.interlocked && s.runBusy (slotKey s.cnum 44) (4 * 4096)) = false := by
  unfold State.matReady
  exact ⟨rfl, rfl, rfl, ⟨by decide, rfl, rfl, rfl, rfl, rfl⟩, ⟨_, _, rfl⟩, ⟨_, _, rfl⟩, rfl⟩
/-- A handle of 4096 FP32 elements of the scratchpad (13 R230). -/
def Sys2Proof.Tests.bankHandle : W256 := setHBits (setHBits (setHBits (handle 0 1 0) 60 3 2) 128 16 64) 144 16 64
theorem witness_EpilogueIssues_handle :
    let s := (with' fun c => { c with h := c.h.set 15 bankHandle, hbase := c.hbase.set 15 bankHandle, modex := true })
    let h := s.core.handleAt 15 0 0
    let o : Operand := { h := setHBits (setHBits h 63 1 1) 160 7 31, pages := [], tags := [], ring := true, slice := 0, count := 4096 }
    let r : State := (s.mapCore fun c => { c with recs := c.recs.set 31 { OpenRec.reset with st := .opened, cap := 1, w := 1 } }).mapSeq s.who
      fun q => { q with dec := .operand o }
    h = bankHandle ∧ moutHandleOk h = true ∧ handleAligned h = true ∧ hOpen h = false ∧ s.core.interlocked = false ∧
      s.seq.dec = .none ∧ s.seq.claim = none ∧
      ((s.core.matDest { h := h, pages := [], tags := [], ring := false, slice := 0, count := 4096 }).toOption.isSome = true) ∧
      r.seq.dec = .operand o ∧ r.core.mayWrite (hOtid o.h) o.slice = true := by
  decide +kernel
theorem witness_DrawerWords :
    let s : State := { (with' fun c => { c with claimed := 0x80000000, h := c.h.set 15 (handle 0 1 0), hbase := c.hbase.set 15 (handle 0 1 0), modex := true }) with who := .mat }
    let h := s.core.handleAt 15 s.cur.pos s.cur.slot
    s.awaits plain = true ∧ s.matReady [] [] ∧ drawerRange 31 2 = [31, 0] ∧ ready.core.claimed.getLsbD 31 = false ∧
      s.core.claimed.getLsbD 31 = true ∧ 31 ∉ s.core.pinnedDrawers ∧ s.core.claimed.getLsbD 0 = false ∧
      s.core.ctlPassed s.cur.pos s.cur.slot = true ∧ s.pathsOpen = true ∧ handleOk h [1] = true ∧ hFmt h = 0 ∧ handleAligned h = true ∧
      hOpen h = false ∧ min 1 (hCount h) = 1 ∧ s.core.interlocked = false ∧ s.seq.dec = .none ∧ s.seq.claim = none ∧
      ((s.core.matDest { h := h, pages := [], tags := [], ring := false, slice := 0, count := 1 }).toOption.map fun o =>
        (o.count, o.tags, o.spot 0 0)) = some (1, [], .sp 0) := by
  unfold State.matReady; decide +kernel
theorem witness_MatStepsRun :
    let m (i : Instr) : MatCmd := MatCmd.start i At.none .own false false
    let f (i : Instr) : Flight :=
      { id := 0, eng := .mat, rem := 4, effs := [], work := some (m i), post := none, rls := [], pins := [], place := At.none, owner := .own }
    let mma : Instr := .mma .c8 0 0 1 0 0 true false plain
    let out : Instr := .mscan 0 0 0 false false plain
    let s (i : Instr) (n : W32) := (with' fun c => { c with claimed := n, flights := [f i], ebudget := 1 })
    (s mma 3).core.asideFlights.find? Flight.midStep = none ∧ (s mma 3).core.nextK = some (f mma) ∧ (f mma).work = some (m mma) ∧
      (s mma 3).energyOut = false ∧ ((s mma 3).mapCore fun c => { c with ebudget := 0 }).energyOut = true ∧ (s mma 3).core.halt ≠ .stopped ∧
      (s mma 3).core.det = false ∧ (m mma).nant = false ∧ (m mma).k = 0 ∧ (∀ d ∈ mmaDrawers (m mma).i, (s mma 3).core.isClaimed d = true) ∧
      (s mma 3).core.badK 0 1 0 = none ∧
      (kCheck 0 1 ((s mma 3).core.drawerRows 0) ((s mma 3).core.drawerRows 1) Cost.c8.cycles).toOption.isSome = true ∧
      (((s mma 3).debit 1).core.kstep (m mma) .c8 0 0 1 true).toOption.isSome = true ∧
      (((s mma 0).debit 1).core.kstep (m mma) .c8 0 0 1 true).toOption.isSome = false ∧ (f mma).owner = .own ∧
      (s out 0).core.flights.find? Flight.epDue = some (f out) ∧ (m out).nant = false ∧ ((s out 0).epStep (m out)).toOption.isSome = true := by
  refine ⟨rfl, by decide +kernel, rfl, by decide +kernel, by decide +kernel, by decide +kernel, rfl, rfl, rfl, by decide +kernel, by decide +kernel,
    by decide +kernel, by decide +kernel, by decide +kernel, rfl, by decide +kernel, rfl, by decide +kernel⟩
theorem witness_AwaitsTake_tail :
    let i : Instr := .mclr 3 { await := some { f := 63, n := 1 }, post := none }
    let t := (running i).mapCore fun c => c.setFlag 63 1
    ((stand i).mapCore fun c => c.setFlag 63 1).standAt .mat = some (i, t) ∧ (t.core.seqs.get .mat).awaiting = some (63, 1) ∧
      t.core.awaitReady .mat 63 1 = true ∧ t.core.halt = .run ∧ t.core.heldByOthers .mat = false ∧ isAwait i = false :=
  ⟨rfl, rfl, rfl, rfl, rfl, rfl⟩
theorem witness_CopyWordsQueue :
    let put (a b : W256) : State := with' fun c => { c with h := (c.h.set 14 a).set 15 b, hbase := (c.hbase.set 14 a).set 15 b, claimed := 0x80000000 }
    let ok (s : State) (e : CopyEng) (i : Instr) (hs hd : Option HReg) : Bool :=
      let at' (r : HReg) : W256 := s.core.handleAt r s.cur.pos s.cur.slot
      ((s.awaited plain).resolveCopy e (CopyCmd.start i s.cur .own none) { hs := hs.map at', hd := hd.map at', hc := none } none).toOption.isSome
    let sp := handle 0x3FFFFC0 1 0
    let mem := handle 0x40010000 0 0
    let far := handle 0x80000000 0 0
    ready.seq.claim = none ∧ ready.core.ctlPassed ready.cur.pos ready.cur.slot = true ∧ ready.awaits plain = true ∧
      ok (put sp sp) .cst (.cpy .cst false 14 15 none 3 plain) (some 14) (some 15) = true ∧
      ok (put (handle 0 1 8) (handle 31 2 8)) .cld (.cpyf false 14 15 none 3 plain) (some 14) (some 15) = true ∧
      ok (put sp mem) .cst (.cred true 14 15 none 0 255 0 plain) (some 14) (some 15) = true ∧
      ok (put sp sp) .cst (.cfil .cst false 15 none 0 0 plain) none (some 15) = true ∧
      ok (put (setHBits mem 144 16 0) (setHBits far 144 16 0)) .cst (.ctier .cst false 14 15 none 0 plain) (some 14) (some 15) = true ∧
      ok ready .cld (.ccnt .cld none plain) none none = true := by
  decide +kernel
theorem witness_CopyWordsQueue_ends :
    let c := CopyCmd.start (.ccnt .cld none plain) At.none .own none
    let s : State := with' fun d => { d with cld := List.replicate 8 c }
    let ws : List W128 := [(encode (.cpyf false 14 15 none 3 plain)).getD 0, (encode (.mma .c4 0 0 1 0 0 false false plain)).getD 0, 0, 0]
    let f : State := { (ready.mapSeq .cld fun q => { q with fetch := some (0, ws) }) with who := .cld }
    8 ≤ (s.core.copies .cld).length ∧ (ready.core.copies .cst).length < 8 ∧ f.followOn.isSome = true := by
  decide +kernel
/-- A copy command of one element from the scratchpad to the scratchpad. -/
def Sys2Proof.Tests.copy1 (i : Instr) : CopyCmd :=
  let o : Operand := { h := handle 0x3FFFFC0 1 0, pages := [], tags := [], ring := false, slice := 0, count := 1 }
  { CopyCmd.start i At.none .own none with src := some o, dst := some { o with h := handle 0 1 0 } }
theorem witness_CopiesRun :
    let q := copy1 (.cpy .cld false 14 15 none 3 plain)
    let s (l : List CopyCmd) : State := with' fun c => { c with cld := l }
    let t (l : List CopyCmd) : State := (s l).mapCore fun c => { c with det := true }
    let post : CopyCmd := CopyCmd.start (.postTail .cld { f := 1, n := 1 }) At.none .own (some { f := 1, n := 1 })
    let q1 : CopyCmd := { q with started := true }
    let q2 : CopyCmd := { q1 with step := 1 }
    (s [q]).core.copies .cld = q :: [] ∧ q.started = false ∧ q.stopped = false ∧ (s [q]).core.halt = .run ∧ (s [q]).core.det = false ∧
      (s [q]).chanFree .cld q = true ∧ (s [q, q]).chanFree .cld { q with order := 1, place := { At.none with pos := 1 } } = false ∧ copyChan q.i = some 3 ∧
      q1.step < q1.steps ∧ q1.sending = none ∧ q1.isCred = false ∧ q1.buf = [] ∧ q1.stepRange 0 = (0, 1) ∧
      (s [q1]).core.slicesReady q1 0 1 = true ∧ (s [q1]).core.pathOpen .cp q1.place.pos q1.place.slot = true ∧ (s [q1]).memOk 0 = true ∧
      (q1.src.map fun y => farPieces y 0 0 1) = some [] ∧ (q1.dst.map fun y => farPieces y 0 0 1) = some [] ∧
      (q1.src.map fun y => devBytes y 0 0 1) = some 0 ∧
      (q1.src.any fun x => (List.range 1).any fun j => ((s [q1]).badSpot x j).isSome) = false ∧
      (q1.src.map fun x => ((s [q1]).gatherStep q1.look x 0 1 []).length) = some 4 ∧ (q1.dst.map fun o => hEsize o.h) = some 4 ∧
      (s [q1]).core.reached q1.due = true ∧ q1.busy = false ∧ q1.dst.isSome = true ∧ (t [post]).core.det = true ∧ post.count = 0 ∧
      (t [q1]).core.reached q1.due = true ∧ ({ q1 with busy := true } : CopyCmd).busy = true ∧
      q1.moved = false ∧ q2.moved = true ∧ q2.cnt = none ∧ q2.owner = .own ∧ (s [q2]).core.reached q2.due = true ∧
      copyCnt (.cpy .cld false 14 15 (some { hc := 0, csc := .core, cinc := 1 }) 3 plain) = some { hc := 0, csc := .core, cinc := 1 } ∧
      (s [q2]).badMem 0 8 = false ∧ (s [q2]).memOk 8 = true := by
  decide +kernel
theorem witness_ReductionsAndFollowOns :
    let i : Instr := .cred true 14 15 none 1 255 3 plain
    let q : CopyCmd := { copy1 i with started := true, step := 0, buf := [(0, [1, 0, 0, 0])] }
    let s : State := inCtx.mapCore fun c => { c with cst := [q] }
    let turn (n : Nat) : State := s.mapDev fun d => d.mapRed (s.redKey 255) fun r => { r with e := 1, done := n }
    let mma : Instr := .mma .c4 0 0 1 0 0 false false plain
    let p : CopyCmd := { copy1 (.cpyf false 14 15 none 3 plain) with started := true, step := 1, follow := some (mma, At.none) }
    let t : State := inCtx.mapCore fun c => { c with cld := [p], claimed := 3 }
    s.core.copies .cst = q :: [] ∧ q.i = i ∧ q.started = true ∧ q.stopped = false ∧ q.applied = false ∧ s.core.halt = .run ∧
      s.ctx? = some ctx0 ∧ (q.dst.map fun o => (o.spot 0 0, (s.badSpot o 0).isNone)) = some (.sp 0, true) ∧ q.credRank s.cnum = none ∧
      (s.core.det = true → q.steps ≤ q.next ∧ q.due ≤ s.core.cycle.toNat) ∧
      (s.dev.red (s.redKey 255)).e ≠ 1 ∧ ((turn 0).dev.red ((turn 0).redKey 255)).e = 1 ∧ ((turn 0).dev.red ((turn 0).redKey 255)).done ≤ q.step ∧
      q.step < ((turn 1).dev.red ((turn 1).redKey 255)).done ∧ ((turn 0).dev.red ((turn 0).redKey 255)).skips = [] ∧ q.steps ≤ q.step + 1 ∧ t.core.cld = p :: [] ∧ p.owner = .own ∧ p.followDone = false ∧ p.steps ≤ p.step ∧ t.core.arrayLent = false ∧
      t.core.arrayBusy = false ∧ t.core.inFlight .mat < 7 ∧ t.core.ctlPassed At.none.pos At.none.slot = true ∧ t.core.det = false ∧
      t.core.unclaimed (mmaDrawers mma) = none := by
  decide +kernel
/-- An open handle of record 31 with one slice of one element (16 R266). -/
def Sys2Proof.Tests.openH : W256 := setHBits (setHBits (handle 0 1 0) 63 1 1) 160 7 31
/-- Record 31 open, with a tensor of one slice. -/
def Sys2Proof.Tests.rec1 (w p : Nat) : OpenRec := { OpenRec.reset with st := .opened, cap := 1, w := w, p := p }
theorem witness_FabricWordsQueue :
    let put (v : W256) (f : Fabric → Fabric) : State := with' fun c => { c.mapFab f with h := c.h.set 15 v, hbase := c.hbase.set 15 v }
    let v (s : State) := s.core.handleAt 15 s.cur.pos s.cur.slot
    let sp := put (handle 0x3FFFFC0 1 0) id
    let rec4 := put (setHBits (handle 0x3FFFFC0 1 0) 144 16 4) fun f => { f with openPh := some 255 }
    let c : FabCmd := fabCmd (.fgo 0 plain) At.none none
    let bad := put (handle 2 1 0) id
    let op := (put openH id).mapCore fun c => { c with recs := c.recs.set 31 (rec1 1 1) }
    let out : Bind := { port := 8, compact := false, sees := 0,
                        opnd := { h := handle 0 1 0, pages := [], tags := [], ring := false, slice := 0, count := 1 } }
    ready.seq.claim = none ∧ ready.core.ctlPassed ready.cur.pos ready.cur.slot = true ∧ ready.awaits plain = true ∧
      handleOk (v sp) [0, 1] = true ∧ hRank (v sp) = 1 ∧ hFmt (v sp) = 0 ∧ sp.core.fabric.openPh = none ∧ hOpen (v sp) = false ∧
      (sp.fabOperand (fabPattern (v sp) 0) .rd).toOption.isSome = true ∧ (sp.fabOperand (fabPattern (v sp) 1) .wr).toOption.isSome = true ∧
      handleOk (v ready) [0, 1] = false ∧ recordOk (v rec4) = true ∧ handleAligned (v sp) = true ∧ handleAligned (v bad) = false ∧
      handleOk (v bad) [0, 1] = true ∧ sp.core.checkIfOpen (v sp) true = .ok () ∧ bindShape sp.seq (v sp) 0 (fabPattern (v sp) 0).count = true ∧
      bindClaims sp.seq (v sp) 0 = false ∧ bindClaims op.seq (v op) 7 = true ∧ bindShape op.seq (v op) 7 (fabPattern (v op) 1).count = true ∧
      bindShape op.seq (v op) 7 0 = false ∧ op.core.checkIfOpen (v op) true = .ok () ∧
      ((op.fabOperand { fabPattern (v op) 1 with ring := true, slice := (op.core.orec 31).rc } .rd).toOption.map fun o =>
        (op.core.claimBind o).toOption.isSome) = some true ∧
      ((put 0 fun f => { f with pendBinds := [{ out with opnd := { out.opnd with h := openH } }] }).core.fabric.pendBinds.any
        fun b => decide (8 ≤ b.port) && hOpen b.opnd.h) = true ∧
      (rec4.fabOperand (fabPattern (v rec4) 0) .wr).toOption.isSome = true ∧ rec4.core.fabric.openPh = some 255 ∧
      8 ≤ (put 0 fun f => { f with queue := List.replicate 8 c }).core.fabric.queue.length := by
  decide +kernel
/-- A configuration with strip 0 copying input 0 to output 0. -/
def Sys2Proof.Tests.cfg0 : FabCfg :=
  { outs := [0, 15, 15, 15], table := [],
    strips := { srcx := 0, srcy := 31, k := 0, prog := [0] } :: List.replicate 11 { srcx := 31, srcy := 31, k := 0, prog := [] } }
/-- A binding of a port to one element of the scratchpad. -/
def Sys2Proof.Tests.bind1 (p : Nat) : Bind :=
  { port := p, compact := false, sees := 0, opnd := { h := handle 0 1 0, pages := [], tags := [], ring := false, slice := 0, count := 1 } }
theorem witness_FabricTokensMove :
    let tk : Token := { lanes := [{ v := 7, ok := true }], last := true }
    let p0 := Phase.start [bind1 0, bind1 8] 0 0 At.none .own
    let ph : Phase := { p0 with
      ins := p0.ins.set 0 { fed := 1, last := true, skid := [tk], taken := [], far := [], due := none }
      strips := p0.strips.set 1 { Strip.start with out := [tk] } }
    let cfg1 : FabCfg := { cfg0 with outs := [1, 15, 15, 15] }
    let s (c : FabCfg) (p : Phase) : State := with' fun d => d.mapFab fun f => { f with cfg := some c, phase := some p }
    (s cfg0 p0).runningPhase = some (cfg0, p0) ∧ (s cfg0 p0).core.halt = .run ∧
      (s cfg0 p0).core.fbOpen p0 = true ∧ (s cfg0 p0).good 6 = true ∧ (s cfg0 p0).core.portBegin none (bind1 0).opnd 0 0 = none ∧
      ((s cfg0 p0).mapCore fun c => { c with det := true }).core.portBegin none (bind1 0).opnd 0 0 ≠ none ∧
      ((s cfg0 p0).mapCore fun c => { c with det := true }).core.portBegin (some 0) (bind1 0).opnd 0 0 = none ∧
      (some 0).all ((s cfg0 p0).mapCore fun c => { c with det := true }).core.reached = true ∧ p0.bind 0 = some (bind1 0) ∧ (p0.ins[0]?).map InPort.skid = some [] ∧
      cfg0.inPorts.contains 0 = true ∧ (s cfg0 p0).core.tokenReady (bind1 0).opnd 0 1 = true ∧
      (s cfg0 p0).memOk (devBytes (bind1 0).opnd 0 0 1) = true ∧ hEsize (bind1 0).opnd.h = 4 ∧ hSpc (bind1 0).opnd.h < 2 ∧
      ((s cfg0 p0).badSpot (bind1 0).opnd 0).isNone = true ∧ (bind1 0).opnd.spot 0 0 = .sp 0 ∧
      (s cfg0 ph).runningPhase = some (cfg0, ph) ∧ ph.headFor 0 0 = some tk ∧ (cfg0.strips[0]?).map StripCfg.prog = some [0] ∧
      (ph.strips[0]?).map (fun t => (t.lastX, t.lastY, t.out)) = some (false, false, []) ∧
      ph.bind 8 = some (bind1 8) ∧ (ph.outs[0]?).map OutPort.done = some false ∧ ph.headFor (cfg1.outs.getD 0 15 + 8) 100 = some tk := by
  decide +kernel
theorem witness_FabricUnitRuns :
    let ws : List W32 := [0x46420001, 28, 0xFFFF, 0] ++ List.replicate 12 0x3FF ++ List.replicate 12 0
    let o : Operand := { h := setHBits (handle 0 1 0) 144 16 28, pages := [], tags := [], ring := false, slice := 0, count := 28 }
    let s (q : FabCmd) (f : Fabric → Fabric) : State := { (with' fun d => d.mapFab fun g => { f g with queue := [q] }) with
      spad := writeRun [] 0 (bytesOf ws) }
    let fcfg : FabCmd := { fabCmd (.fcfg 15 plain) At.none none with opnd := some o }
    let fgo : FabCmd := { fabCmd (.fgo 255 plain) At.none none with binds := [bind1 0, bind1 8] }
    let p0 := Phase.start [bind1 0, bind1 8] 0 0 At.none .own
    let p1 : Phase := { p0 with ins := p0.ins.map fun x => { x with last := true }, outs := p0.outs.map fun x => { x with done := true } }
    let post : FabCmd := fabCmd (.postTail .fab { f := 63, n := 0 }) At.none (some { f := 63, n := 0 })
    let t := s fcfg id
    t.core.halt = .run ∧ t.core.fabric.queue = fcfg :: [] ∧ fcfg.stopped = false ∧ t.core.fabric.far = [] ∧ t.core.fabric.phase = none ∧
      t.memOk (devBytes o 0 0 28) = true ∧ ((List.range 28).all fun j => (t.badSpot o j).isNone) = true ∧
      cfgFaults (lanesOf (t.gatherStep none o 0 28 [])) 28 = [] ∧ cfgFaults [] 28 ≠ [] ∧
      (((s fgo fun f => { f with cfg := some cfg0 }).mapFab fun b => { b with endRec := none }).startPhase fgo.binds 0 fgo.place .own).toOption.isSome
        = true ∧ (fabCmd (.fstop plain) At.none none).ending = false ∧ ({ fabCmd (.fstop plain) At.none none with ending := true } : FabCmd).ending = true ∧
      p0.stopped = false ∧ (s post id).core.det = false ∧
      p0.drained cfg0 = false ∧ p1.drained cfg0 = true ∧ p0.owner = .own ∧ (fabCmd (.fbar 0 plain) At.none none).opnd = none ∧
      (fabCmd (.fstop plain) At.none none).live = true ∧ post.post = some { f := 63, n := 0 } ∧
      (s post id).core.flag 63 + tailCount 0 ≤ 65535 := by
  decide +kernel
/-- The state with that record, and with the handle in h15. -/
def Sys2Proof.Tests.recs' (r : OpenRec) : State :=
  with' fun c => { c with h := c.h.set 15 openH, recs := c.recs.set 31 r }
theorem witness_AlmanacWords :
    let v := (recs' OpenRec.reset).core.getH 15
    let s := recs' (rec1 0 0)
    v = openH ∧ s.settled (1 :: 2 :: op2Regs (.imm 1)) = true ∧ handleOk v [0, 1, 2] = true ∧ hOpen v = true ∧ handleAligned v = true ∧
      hExt v (hOuter v) = 1 ∧ hOtid v = 31 ∧ ((recs' OpenRec.reset).core.orec 31).st = .free ∧ (s.core.orec 31).st = .opened ∧
      (s.core.orec 31).cap = 1 ∧ (s.core.orec 31).prod ≠ .rule ∧ s.drains = true ∧ s.good 5 = true ∧ s.core.ruleList = [] ∧
      s.core.mayWrite 31 0 = true ∧ (recs' (rec1 1 0)).core.mayWrite 31 1 = false ∧
      ((recs' { rec1 0 0 with prod := .rule }).core.orec 31).prod = .rule ∧ (s.core.orec 31).readers = [] ∧
      ((recs' (rec1 1 0)).core.orec 31).p ≠ ((recs' (rec1 1 0)).core.orec 31).w := by
  decide +kernel
/-- An installed rule over record 31. -/
def Sys2Proof.Tests.rule1 (i : Instr) : Rule :=
  { st := .active, seqNo := 0, next := 0, n0 := 0, last := none, i := i, word := (encode i).getD 0, follow := none, place := At.none,
    hs := (List.replicate 16 openH).set 14 (handle 0x1000 1 0), trig := openH, outH := none, binds := [], nant := false, quiet := false,
    post := none, carry := none, cause := 0, tsdone := 0, inst := none, trigRec := some 31, outRec := none, reached := 0, retired := 0 }
/-- The state with that rule in an entry, and the slice present. -/
def Sys2Proof.Tests.ruled (k : Nat) (r : Rule) : State := (recs' (rec1 1 1)).mapCore fun c => { c with rules := c.rules.set k (some r) }
theorem witness_AlmanacWords_rules :
    let i : Instr := .inst 1 15 0 (.imm 0) false none false none
    let vec : Instr := .vmov (.t 0) (.t 1) 0
    let s := { (recs' (rec1 0 0)).mapSeq .ctl fun q => { q with fetch := some (0, [0, (encode vec).getD 0, 0, 0]) } with
      cur := { At.none with word := (encode i).getD 0 } }
    let t := ruled 31 { rule1 vec with st := .faulted }
    s.settled (1 :: 15 :: op2Regs (.imm 0)) = true ∧ s.sized = true ∧ s.good 5 = true ∧
      ((s.plan 15 0 false none).map fun p => ((s.planCheck p 0).toOption, p.reads.map fun h => (s.core.orec (hOtid h)).st)) =
        some (some 0, [.opened]) ∧ s.core.ruleList = [] ∧ isImm (.imm 0) = true ∧
      t.core.rules.getD 31 none = some { rule1 vec with st := .faulted } ∧ (t.getS 0).toNat < 32 ∧ (rule1 vec).st ≠ .faulted ∧
      ready.core.rules.getD 31 none = none ∧ 32 ≤ (32 : W64).toNat := by
  decide +kernel
theorem witness_RulesRun :
    let u (s : State) (r : Rule) := s.mapCore fun c => c.beginInst 31 r
    let cp := rule1 (.cpy .cld false 15 14 none 3 plain)
    let vc := rule1 (.vmov (.t 0) (.t 1) 0)
    let fg : Rule := { rule1 (.fgo 0 plain) with binds := [bind1 0, bind1 8] }
    let sc := ruled 31 cp
    let sv := ruled 31 vc
    let sf := (ruled 31 fg).mapCore fun c => c.mapFab fun f => { f with cfg := some cfg0 }
    let at' (x : HReg) : W256 := cp.hs.getD x.toNat 0
    let no : State := (recs' (rec1 0 0)).mapCore fun c => { c with rules := c.rules.set 31 (some vc) }
    let n : Inst := { Inst.start 0 with staged := true, finished := true, result := some [] }
    let ri : Rule := { vc with inst := some n, post := some 63 }
    let full := (ruled 31 ri).mapCore fun c => c.setFlag 63 65535
    sc.sized = true ∧ sc.good 5 = true ∧ sc.core.rules.getD 31 none = some cp ∧ cp.inst = none ∧ sc.core.ruleFirst 31 cp = true ∧ no.core.ruleFirst 31 vc = false ∧
      ruleEng cp.i = .cld ∧ (sc.core.copies .cld).length < 8 ∧
      ((u sc cp).resolveCopy .cld (CopyCmd.start (ruleCopy cp 0) cp.place (.rule 31) none)
        { hs := some (at' 15), hd := some (at' 14), hc := none } (some 0)).toOption.isSome = true ∧
      sv.core.ruleFirst 31 vc = true ∧ ruleEng vc.i = .vec ∧
      ((ruleVec vc.i).map fun v => (sv.vecFree vc v, v.run [List.replicate 1024 0] |>.bad, v.run [List.replicate 1024 0] |>.nan)) =
        some (true, none, none) ∧
      (((u sv vc).ruleOperands [(patternOf vc.trig (some 0), .rd)]).toOption.map fun l => l.map fun a =>
        (a.count, a.spot 0 0, ((u sv vc).badSpot a 0).isNone)) = some [(1, .sp 0, true)] ∧ (u sv vc).memOk 0 = true ∧
      sf.core.ruleFirst 31 fg = true ∧ ruleEng fg.i = .fab ∧
      (((u sf fg).ruleOperands (fg.binds.map fun b => ({ b.opnd with pages := [], tags := [] }, if b.isInput then .rd else .wr))).toOption.map
        fun l => ((u sf fg).startPhase ((fg.binds.zip l).map fun x => { x.1 with opnd := x.2 }) 0 fg.place (.rule 31)).toOption.isSome) =
          some true ∧
      ri.inst = some n ∧ (ruled 31 ri).core.halt ≠ .stopped ∧ n.out = none ∧ (n.staged && n.finished) = true ∧
      ((ruled 31 ri).core.postsOver ri).isNone = true ∧ (full.core.postsOver ri).isSome = true := by
  decide +kernel
/-- A stream of depth 64 with both ends at the task. -/
def Sys2Proof.Tests.home (sid : W32) : Home := { Home.create sid placedTask 0 64 1 2 with locS := .here 0 0 }
/-- Two streams: handles h12 to h15 hold the send and receive ends of the first and of the second. -/
def Sys2Proof.Tests.streams (h m : Home) : State :=
  (dev' fun d => { d with homes := [h, m] }).mapCore fun c =>
    { c with h := (((c.h.set 12 (h.handle false)).set 13 (h.handle true)).set 14 (m.handle false)).set 15 (m.handle true) }
/-- An item of data. -/
def Sys2Proof.Tests.item0 : Item := { bytes := List.replicate 64 1, carried := none, rel := none, due := 0 }
/-- An end of the second stream as it travels. -/
def Sys2Proof.Tests.carried0 (e : Bool) : Carried := (home 8).carry e
theorem witness_StreamsMadeAndEnded_snew :
    ready.settled (op2Regs (.imm 4096)) = true ∧ ready.sized = true ∧ ready.core.task = some placedTask ∧
      (ready.dev.homes.filter Home.mine).length < 8192 ∧ ready.liveEnds + 2 ≤ 64 ∧
      64 < (dev' fun d => { d with homes := List.replicate 32 (home 7) }).liveEnds + 2 := by decide +kernel
theorem witness_StreamsMadeAndEnded_full :
    8192 ≤ ((dev' fun d => { d with homes := List.replicate 8192 (home 7) }).dev.homes.filter Home.mine).length :=
  (List.length_replicate (n := 8192) (a := home 7)).symm.le.trans (le_of_eq (congrArg List.length (List.filter_replicate_of_pos rfl).symm))
theorem witness_StreamsMadeAndEnded :
    let s := streams (home 7) (home 8)
    let b (n : Option Nat) : SBinding := { sid := 7, hrank := 0, opnd := (bind1 0).opnd, k := 1, slice := n, stopped := false, asking := false,
                                           sent := [], place := At.none }
    let far : Home := { home 7 with mine := false, hrank := 1 }
    s.checkEnd (s.core.getH 13) (some true) = .ok (home 7, true, s) ∧ s.checkEnd (s.core.getH 12) (some false) = .ok (home 7, false, s) ∧
      s.checkEnd (s.core.getH 15) none = .ok (home 8, true, s) ∧ (home 7).bound = false ∧
      (let t := streams { home 7 with bound := true } (home 8); t.checkEnd (t.core.getH 13) (some true) = .ok ({ home 7 with bound := true }, true, t)) ∧
      s.core.pathOpen .st 0 0 = true ∧ (home 7).whole ∧ far.mine = false ∧ far.hrank ≠ far.own ∧
      (let t := streams far (home 8); t.checkEnd (t.core.getH 12) (some false) = .ok (far, false, t) ∧ t.checkEnd (t.core.getH 13) none = .ok (far, true, t)) ∧
      (home 7).depth ≤ 4096 ∧ s.sized = true ∧ (home 7).farR = none ∧
      (∀ x ∈ (s.mapCore fun c => { c with bindings := [b none] }).bindingsOf (home 7), x.2.slice = none) ∧
      (s.mapCore fun c => { c with bindings := [b (some 0)] }).core.bindings = [b (some 0)] ∧ (b none).slice = none := by
  unfold Home.whole
  exact ⟨rfl, rfl, rfl, rfl, rfl, rfl, ⟨rfl, rfl, fun e r => by cases e <;> nofun, rfl, rfl⟩, rfl, by decide, ⟨rfl, rfl⟩, by decide, by decide +kernel, rfl,
    by decide +kernel, rfl, rfl⟩
theorem witness_StreamsMadeAndEnded_placing :
    let u (k : Nat) : Home := { home 7 with locS := .unplaced 0 k }
    let s (h : Home) := streams h (home 8)
    let full := (dev' fun d => { d with homes := u 1 :: List.replicate 32 (home 9) }).mapCore fun c => { c with h := c.h.set 12 ((u 1).handle false) }
    (s (u 0)).settled [31] = true ∧ (s (u 0)).core.getH 12 = (u 0).handle false ∧
      (s (u 0)).home? (endSid ((u 0).handle false)) (endRank ((u 0).handle false)) = some (u 0) ∧ (u 0).locS = .unplaced (s (u 0)).taskCtx 0 ∧
      (u 0).mine = true ∧ (s (u 0)).cnum = 0 ∧ (s (u 1)).liveEnds + 1 ≤ 64 ∧ 1 ≠ (s (u 1)).cnum ∧ 64 < full.liveEnds + 1 := by decide +kernel
theorem witness_StreamsMadeAndEnded_sbind :
    let v := setHBits (setHBits (handle 0 1 0) 63 1 1) 144 16 16
    let w := setHBits (setHBits v 60 3 2) 128 16 1
    let s := with' fun c => { c with h := c.h.set 15 w, recs := c.recs.set 0 (rec1 0 0) }
    handleOk w [0, 1] = true ∧ hOpen w = true ∧ handleAligned w = true ∧ (s.core.checkOpen w false).toOption.isSome = true ∧
      (s.core.orec (hOtid w)).prod ≠ .rule ∧ hSlice w * hEsize w = 64 * 1 ∧
      (s.ruleOperands [(patternOf w none, .wr)]).toOption.isSome = true := by decide +kernel
theorem witness_ItemsSentAndReceived :
    let full : Home := { home 7 with buf := List.replicate 64 item0 }
    let s := streams (home 7) (home 8)
    let t := streams full (home 8)
    s.settled (1 :: 0 :: op2Regs (.imm 64)) = true ∧ (s.getS 0).toNat + 64 * 64 ≤ 2 ^ 23 ∧ (s.getS 0).toNat % 64 = 0 ∧
      s.checkEnd (s.core.getH 12) (some false) = .ok (home 7, false, s) ∧ s.drains = true ∧ (home 7).sendRank = none ∧
      (home 7).st ≠ 2 ∧ (home 7).paused = false ∧ 64 ≤ (home 7).free ∧ 64 ≤ (home 7).depth ∧ (home 7).window 64 = true ∧
      s.badSpad (spadKey 0 0) (64 * 64) = false ∧ ({ home 7 with free := 63 } : Home).free < 64 ∧
      ({ home 7 with sstar := some 0, farR := some 1, next := 1 } : Home).window 64 = false ∧
      t.checkEnd (t.core.getH 13) (some true) = .ok (full, true, t) ∧ full.bound = false ∧ 64 ≤ full.buf.length ∧
      (full.buf.all fun i => i.carried.isNone) = true ∧ (home 7).buf = [] ∧ (home 7).st = 0 ∧
      ((home 7).ends 0 1).final = some (home 7).head :=
  ⟨by decide, by decide, by decide, rfl, rfl, rfl, by decide, rfl, by decide, by decide, rfl, rfl, by decide, by decide, rfl, rfl,
    by decide, by decide, rfl, rfl, rfl⟩
theorem witness_EndsMove :
    let m : Home := { home 8 with locR := .transit }
    let h : Home := { home 7 with buf := [{ item0 with carried := some (carried0 true) }] }
    let s := streams (home 7) (home 8)
    let t := streams h m
    s.settled [1] = true ∧ s.sized = true ∧ (home 8).isOf 7 0 = false ∧ s.checkEnd (s.core.getH 12) (some false) = .ok (home 7, false, s) ∧
      s.checkEnd (s.core.getH 15) none = .ok (home 8, true, s) ∧ (home 7).free ≠ 0 ∧ (home 8).mayMove true = true ∧ (home 8).mine = true ∧
      ({ home 8 with grant := some false } : Home).grant = some false ∧ s.waypointsOn s.cnum < 256 ∧ s.drains = true ∧ (home 7).paused = false ∧
      ({ home 7 with free := 0 } : Home).free = 0 ∧ t.checkEnd (t.core.getH 13) (some true) = .ok (h, true, t) ∧
      (h.buf.head?.map Item.carried) = some (some (carried0 true)) ∧ endRecv (carried0 true).v = true ∧
      t.home? (endSid (carried0 true).v) (endRank (carried0 true).v) = some m ∧ t.liveEnds + 1 ≤ 64 ∧ m.whole := by
  unfold Home.whole
  exact ⟨rfl, by decide +kernel, rfl, rfl, rfl, by decide, by decide, rfl, rfl, by decide +kernel, by decide +kernel, rfl, rfl, rfl, rfl,
    by decide +kernel, by decide +kernel, by decide, rfl, rfl, fun e r => by cases e <;> nofun, rfl, rfl⟩
theorem witness_StreamEvents :
    let w : Waypoint := { items := [(3, item0)], core := 0, next := 3 }
    let s (h : Home) := streams h (home 8)
    let h : Home := { home 7 with flight := [(0, item0), (2, item0)], returns := [.slots 1], notice := some 0 }
    let v : Home := { home 7 with flight := [(3, item0), (9, item0)], wayR := some w, wayS := some 0, told := some 0, sstar := some 9 }
    let a : Home := { home 7 with asks := [(true, 0)] }
    let far : Home := { home 7 with locR := .away 1 }
    (s h).dev.homes[0]? = some h ∧ (s h).home? h.sid h.hrank = some h ∧ h.flight[0]? = some (0, item0) ∧ h.flight[1]? = some (2, item0) ∧
      (s h).homeReached h item0.due = true ∧ h.forWaypoint 0 = false ∧ v.forWaypoint 3 = true ∧ v.forWaypoint 9 = false ∧
      (0 : W32) = h.head + BitVec.ofNat 32 h.buf.length ∧ (2 : W32) ≠ h.head + BitVec.ofNat 32 h.buf.length ∧ h.locR = .here 0 0 ∧
      h.early = [] ∧ h.locS.isHere = true ∧ h.freed = [] ∧ ({ h with freed := [(1, 5)] } : Home).freed = [(1, 5)] ∧
      (s a).waypointsOn 0 < 256 ∧ a.grant = none ∧ a.mayMove true = true ∧ h.whole ∧ v.whole ∧
      w.items.find? (fun y => y.1 == w.next) = some (3, item0) ∧ h.locR ≠ .transit ∧
      ({ v with sstar := some 3 } : Home).sstar = some ({ w with items := [] } : Waypoint).next ∧
      (s far).home? 7 0 = some far ∧ far.mine = true ∧ far.farR = none ∧ (∀ e x, far.loc e = .away x → e = true) := by
  unfold Home.whole
  refine ⟨rfl, rfl, rfl, rfl, by decide, rfl, by decide, by decide, rfl, by decide, rfl, rfl, rfl, rfl, rfl, by decide, rfl, by decide,
    ⟨rfl, rfl, fun e r => by cases e <;> nofun, rfl, rfl⟩, ⟨rfl, rfl, fun e r => by cases e <;> nofun, rfl, rfl⟩, rfl, by decide, rfl, rfl, rfl, rfl, ?_⟩
  intro e x h; cases e
  · cases h
  · rfl
/-- Entries whose receive end is on another module, and whose home is. -/
theorem witness_StreamEvents_due :
    let s := (streams { home 7 with freed := [(1, 5)] } (home 8)).mapCore fun c => { c with det := true, cycle := 5 }
    let t (n : W64) := (inCtx.mapDev fun d => { d with homes := [{ home 7 with freed := [(1, 5)] }] }).mapCore fun c => { c with det := true, cycle := n }
    s.homeReached (home 7) 5 = true ∧ (t 5).homeReached (home 7) 5 = true ∧ (t 4).homeReached (home 7) 5 = false := by decide +kernel
theorem witness_StreamEvents_binding :
    let b : SBinding := { sid := 7, hrank := 0, opnd := { h := openH, pages := [], tags := [], ring := false, slice := 0, count := 1 }, k := 0,
                          slice := none, stopped := false, asking := false, sent := [], place := At.none }
    let s : State := { streams (home 7) (home 8) with core := (recs' (rec1 0 0)).core }.mapCore fun c => { c with bindings := [b] }
    let h : Home := { home 7 with report := some (0, 0xFFFFFFFF), paused := true, returns := [.report 0 0xFFFFFFFF] }
    let g : Home := { home 7 with mine := false, hrank := 1, locS := .away 2 }
    s.core.bindings.find? (fun b => b.isOf 7 0) = some b ∧ b.k ≤ (home 7).buf.length ∧ s.core.halt ≠ .stopped ∧
      s.core.pathOpen .st b.place.pos b.place.slot = true ∧ (s.core.orec (hOtid b.opnd.h)).st = .opened ∧
      ((s.core.claimWrite 31 1).toOption.map fun x => (x.1, x.2.mayWrite 31 x.1)) = some (0, true) ∧ b.opnd.spot 0 0 = .sp 0 ∧
      s.memOk 0 = true ∧ h.locS.isHere = true ∧ h.calm = true ∧ h.freed = [] ∧ h.free + (h.next - (0xFFFFFFFF + 1)).toNat + 0 = h.depth ∧
      g.locS = .away 2 ∧ 2 ≠ g.own ∧ g.locR = .here 0 0 ∧ g.mine = false ∧ g.hrank ≠ g.own ∧
      h.mine = true ∧ h.hrank = h.own ∧ (∀ e : Bool, (match h.loc e with | .away _ => true | _ => false) = false) ∧ h.farR = none ∧ h.farS = none ∧
      (streams h (home 8)).sized = true ∧ (streams h (home 8)).dev.events.length < 256 := by
  decide +kernel
/-- The machine without tasks: queue 0 serves records at 2^30 + 0x10000, its ring holds one; a save slot just large enough. -/
def Sys2Proof.Tests.idle (l : Launch) (f : Device → Device) : State :=
  let t : Tenant := { Tenant.reset with en := true }
  let q : LQueue := { LQueue.reset with en := true, base := 0x40010000, tail := 1 }
  let m := writeRun (writeRun ready.mem 0x10000 l.raw) 0x30000 [0, 0, 0, 1, 0, 0, 0, 0, 0, 0, 0x91, 0]
  ({ ready with core := Core.reset, mem := m }).mapDev fun d => f { d with tenants := d.tenants.set 0 t, queues := d.queues.set 0 q, stab := 0x30000 }
/-- Queue 0 with its record taken in. -/
def Sys2Proof.Tests.taken (id : Option W16) (l : Launch) (d : Device) : Device :=
  { d with queues := modAt d.queues 0 fun q => { q with cache := [(l, id)], taken := 1 } }
/-- A message of a launch from another module. -/
def Sys2Proof.Tests.tell (l : Launch) (k : LaunchMsg) : LinkMsg :=
  { rank := 1, launch := l.raw, tenant := 0, core := 0, port := .ctl, text := false, kind := .launch l.raw k }
theorem witness_LaunchesChosen :
    let s := idle launch0 id
    let x := s.dev.queue 0
    let e : List Byte := puts (List.replicate 32 0) [(2, 1), (3, 0x40), (8, 16), (9, 3), (10, 1), (12, 31), (13, 1)]
    let t := ({ s with mem := writeRun [] 0x20000 e }).mapDev fun d => { d with qtab := 0x20000 }
    let held : Ctx := { ctx0 with held := [0] }
    let on (b : Byte) := ({ s with mem := writeRun [] 0x20000 [b, 0, 0, 0, 0, 0, 0, 0, 0, 0, 0, 0, 0, b] }).mapDev fun d => { d with qtab := 0x20000 }
    let h := idle launch0 fun d => { d with ctxs := [held], inbox := [tell launch0 .abort] }
    let c := idle launch0 fun d => { taken none launch0 d with inbox := [tell launch0 .abort] }
    s.sized = true ∧ s.dev.served 0 = true ∧ x.covered = true ∧ x.cache = [] ∧ (s.readLaunch 0 0x40010000).raw = launch0.raw ∧
      launch0.raw ≠ [] ∧ (s.readLaunch 0 0x40010000).reject = none ∧
      ((idle { launch0 with raw := List.replicate 256 1 } id).readLaunch 0 0x40010000).reject.isSome = true ∧
      (ready.dev.served 0 && (ready.dev.queue 0).covered) = false ∧ (ready.dev.queue 511).en = false ∧
      queueEntryOk (t.readPhys none 0x20000 32) = true ∧ leAt (t.readPhys none 0x20000 32) 13 1 = 1 ∧ x.en = true ∧
      leAt ((on 0).readPhys none 0x20000 32) 13 1 % 2 = 0 ∧ leAt ((on 1).readPhys none 0x20000 32) 13 1 % 2 = 1 ∧
      queueEntryOk ((on 1).readPhys none 0x20000 32) = false ∧
      h.dev.ctxs.find? (fun c => c.queue == 0 && c.held.contains 0 && (h.takeLaunch c.tenant c.launch.raw .abort).isSome) = some held ∧
      (h.takeLaunch 0 launch0.raw .abort).isSome = true ∧ (c.dev.queue 0).cache = [(launch0, none)] ∧
      c.dev.ctxs = [] ∧ (c.takeLaunch 0 launch0.raw .abort).isSome = true := by
  decide +kernel
theorem Sys2Proof.Tests.idle_need (l : Launch) (r : BitVec 9) (h : r ≠ 0) : (idle l (taken none l)).need r = .none := by
  obtain ⟨k, hk⟩ : ∃ k, r.toNat = k + 1 := Nat.exists_eq_succ_of_ne_zero fun h0 => h (BitVec.eq_of_toNat_eq (by simpa using h0))
  have hq : (idle l (taken none l)).dev.queue r = LQueue.reset := by
    unfold Device.queue; rw [hk, List.getD_eq_getElem?_getD]
    show (((List.replicate 511 LQueue.reset)[k]?).getD LQueue.reset) = _
    rw [List.getElem?_replicate]; split <;> rfl
  unfold State.need
  rw [hq]; rfl
theorem witness_LaunchesChosen_queues :
    let wide : Launch := { launch0 with raw := puts launch0.raw [(2, 2), (0x40, 128), (0x48, 1), (0x4C, 0x33)] }
    let s := idle launch0 (taken none launch0)
    let r := inCtx.mapDev fun d => { d with queues := d.queues.set 0 { LQueue.reset with cls := 1 } }
    let w := r.mapDev fun d =>
      { d with tenants := d.tenants.set 0 { Tenant.reset with en := true }
               queues := d.queues.set 1 { LQueue.reset with en := true, tail := 1, taken := 1, cache := [(wide, none)] } }
    r.sized = true ∧ r.isRunning 0 = true ∧ r.isRunning 1 = false ∧ w.isWaiting 1 = true ∧ w.isRunning 1 = false ∧
      w.dev.ctx? 0 = some ctx0 ∧ w.eligible 1 ctx0 = true ∧ w.victimBefore ctx0 ctx0 = false ∧ w.needFits 1 (w.freeWith []) = false ∧
      w.needFits 1 (w.freeWith (w.dev.ctxs.filter fun y => w.eligible 1 y)) = true ∧ r.isWaiting 1 = false ∧
      s.needFits 0 s.freeCores = true ∧ s.dev.granted = none ∧ s.classOf 0 < 4 ∧
      ready.needFits 0 ready.freeCores = false := by
  decide +kernel
theorem witness_LaunchesChosen_first (r : BitVec 9) :
    let s := idle launch0 (taken none launch0)
    s.needFits r s.freeCores = true → s.classOf 0 < s.classOf r ∨ (s.classOf r = s.classOf 0 ∧ s.grantOrder 0 ≤ s.grantOrder r) := by
  intro s h
  by_cases h0 : r = 0
  · subst h0; exact .inr ⟨rfl, le_refl _⟩
  · unfold State.needFits at h; rw [idle_need _ _ h0] at h; cases h
theorem witness_GangsStartAndEnd :
    let s := idle launch0 fun d => { taken none launch0 d with granted := some 0 }
    let m := idle launch0 fun d => { taken (some 0) launch0 d with granted := some 0, ctxs := [ctx0] }
    let e := inCtx.mapCore fun c => { c with seqs := PerEng.all { Seq.reset with ended := true } }
    s.sized = true ∧ s.dev.granted = some 0 ∧ s.needFits 0 s.freeCores = true ∧ s.need 0 = .first launch0 ∧
      ([127].all fun c => s.freeCores.contains c) = true ∧ launch0.chrt = false ∧ s.dev.freeSlots.contains (0 : BitVec 6).toNat = true ∧
      launch0.placeOk (launch0.gangTasks 0 0) [127] = true ∧ 0x10000 + launch0.tmax 0 * 0x900000 ≤ (s.slotEntry 0).2.1 ∧
      (s.slotEntry 63).2.1 < 0x10000 + launch0.tmax 0 * 0x900000 ∧ (s.dev.queue 0).cache = [(launch0, none)] ∧ m.need 0 = .more ctx0 ∧
      m.needFits 0 m.freeCores = true ∧ ctx0.launch.placeOk (ctx0.launch.gangTasks ctx0.rank ctx0.gangs) [127] = true ∧
      e.core.task = some placedTask ∧ e.ctx? = some ctx0 ∧ (∀ e' ∈ engs, (e.core.seqs.get e').ended = true) ∧ e.core.quiet = true ∧
      e.core.aside.any Aside.busy = false ∧ e.core.pend = [] ∧ e.core.escal = none ∧ e.core.halt ≠ .stopped ∧ (inCtx.core.seqs.get .fab).ended = false := by
  decide +kernel
theorem witness_ContextsStop :
    let info : TrapInfo := (ready.info 0x08)
    let st (w : Option StopWhy) (f : Core → Core) : State := (dev' fun d => { d with ctxs := [{ ctx0 with st := .stopping, stop := w }] }).mapCore f
    let s := st (some .preempt) fun c => { c with halt := .stopping }
    let asked := st (some .preempt) fun c => { c with halt := .stopping, replies := c.replies.set .ctl .asked }
    let hnd := st none fun c => ({ c with trapEn := true }).takeTrap info .word false
    let far (k : LaunchMsg) := inCtx.mapDev fun d => { d with inbox := [tell launch0 k] }
    let esc := inCtx.mapCore fun c => { c with escal := some (8, false) }
    inCtx.dev.ctx? 0 = some ctx0 ∧ ctx0.st = .resident ∧ (inCtx.coreAt 0).task.map Task.ctx = some 0 ∧ (inCtx.coreAt 0).halt = .run ∧
      (s.coreAt 0).halt = .stopping ∧ (s.coreAt 0).atRest = true ∧
      (s.coreAt 0).allFlights.any Flight.midStep = false ∧ (asked.coreAt 0).atRest = false ∧ hnd.core.aside.isSome = true ∧
      hnd.core.halt = .run ∧ (hnd.ctx?.map Ctx.st) = some .stopping ∧ ((far .kill).takeLaunch 0 launch0.raw .kill).isSome = true ∧
      ((far (.escalate 8)).takeLaunch 0 launch0.raw (.escalate 8)).isSome = true ∧
      (esc.ctxCores 0).findSome? (fun c => c.2.escal) = some (8, false) ∧ ctx0.stop = none := by
  decide +kernel
theorem witness_single : inCtx.single := List.nodup_singleton 0
theorem witness_ContextsSavedAndRestored :
    let x : Ctx := { ctx0 with st := .stopping, stop := some .preempt }
    let s := (dev' fun d => { d with ctxs := [x] }).mapCore fun c => { c with halt := .stopped }
    let y : Ctx := { ctx0 with st := .saved, saved := [{ g := 0, core := 3, snap := ready.core }] }
    let r := idle launch0 fun d => { d with ctxs := [y], granted := some 0 }
    let good : State := { r with mem := writeRun r.mem 0x1000000 (leBytes 4 0x53414B43 ++ [1, 0]) }
    s.dev.ctx? 0 = some x ∧ x.slot = some 0 ∧ ((s.ctxCores 0).all fun c => c.2.halt == .stopped && c.2.escal.isNone) = true ∧
      y.held.contains (y.launch.gangOf 0) = false ∧
      ({ y with held := [0] } : Ctx).held.contains (y.launch.gangOf 0) = true ∧ r.dev.granted = some y.queue ∧ ([127].all fun c => r.freeCores.contains c) = true ∧ y.backOk [127] = true ∧
      (r.slotEntry 0).1 = 0x1000000 ∧ leAt (good.readPhys none 0x1000000 0x200) 0 4 = 0x53414B43 ∧
      leAt (good.readPhys none 0x1000000 0x200) 4 2 = 1 ∧ leAt (r.readPhys none 0x1000000 0x200) 0 4 ≠ 0x53414B43 ∧
      r.dev.ctx? 0 = some y :=
  ⟨by decide +kernel, rfl, by decide +kernel, by decide +kernel, by decide +kernel, by decide +kernel, by decide +kernel, by decide +kernel,
    by decide +kernel, by decide +kernel, by decide +kernel, by decide +kernel, rfl⟩
theorem witness_OwnEvents :
    let p (e : Eng) : Pending := { info := { ready.info 0x08 with eng := e }, held := .phase, inside := false }
    let s := with' fun c => { c with pend := [p .fab, p .acc] }
    let b := with' fun c => { c with seqs := PerEng.all { Seq.reset with wait := some .external } }
    let mma : Instr := .mma .c4 0 0 1 0 0 false false plain
    let f := with' fun c =>
      { c with pend := [{ p .mat with held := .command .mat }]
               cld := [{ CopyCmd.start (.cpyf false 14 15 none 3 plain) At.none .own none with
                         follow := some (mma, { At.none with pc := (p .mat).info.pc }), followDone := true }] }
    let d (n : Nat) := inCtx.mapCore fun c => { c with det := true, eperiod := n }
    ready.core.task = some placedTask ∧ ready.core.halt = .run ∧ ready.core.pend = [] ∧ (∃ x ∈ s.core.pend, s.core.followHeld x = false) ∧
      s.core.aside = none ∧ f.core.pend ≠ [] ∧ (∀ x ∈ f.core.pend, f.core.followHeld x = true) ∧
      engs.all b.seqBlocked = true ∧ b.somethingInFlight = false ∧ (b.core.seqs.get .ctl).ended = false ∧ engs.all ready.seqBlocked = false ∧
      (with' fun c => { c with fixt := true }).core.fixt = true ∧ (ready.core.fixt || ready.core.exch) = false ∧ ready.sized = true ∧
      (d 11500).ctx? = some ctx0 ∧ (d 11500).core.det = true ∧ 11500 ≤ (d 11500).core.eperiod ∧ (d 11499).core.eperiod < 11500 ∧
      ready.core.det = false ∧ ready.dev.events.length < 256 := by
  decide +kernel
theorem witness_MemoryFromOutside :
    let m (k : LinkKind) : LinkMsg := { rank := 1, launch := [], tenant := 0, core := 0, port := .cld, text := false, kind := k }
    let asked := with' fun c => { c with replies := c.replies.set .cld .asked }
    isGddr (0x2FFFFFFFFF + max 1 1 - 1) = true ∧ isLpddr 0x10000000000 = true ∧ isLpddr (0x1BFFFFFFFFF + max 0 1 - 1) = true ∧
      ready.badMem 0x2FFFFFFFFF 1 = false ∧ ready.virtPieces 0 none 0 1 .rd = none ∧ ready.virtPieces 0 none 0 1 .wr = none ∧
      (m (.data [1] [])).core = asked.cnum ∧ asked.cnum < 128 ∧ asked.core.replies.get .cld = .asked ∧ asked.core.asideAsks .cld = false ∧ ready.dev.inbox = [] ∧
      (dev' fun d => { d with inbox := [m (.read [(0x40000000, 8)])] }).dev.inbox = m (.read [(0x40000000, 8)]) :: [] ∧
      ready.arriving (m .refused) 0x40000000 8 .rd = some (0, none) ∧ ready.arriving (m .refused) 0x40000008 1 .wr = some (8, none) ∧
      (m .refused).core < 128 ∧ 128 ≤ ({ m .refused with core := 128 } : LinkMsg).core ∧ ready.arriving (m .refused) 0 8 .rd = none := by
  decide +kernel
theorem witness_HostWrites :
    let held := with' fun c => { c with loads := [{ d := 1, src := .mem .w64 0 none none, val := 0, issued := 0, lat := 0 }] }
    let busy := dev' fun d => { d with ctxcmd := goBit, inval1 := goBit, keycmd := goBit }
    let e := dev' fun d => { d with events := [1, 2], dropped := 3 }
    ready.sized = true ∧ (ready.dev.queue 511).tenant ≠ 31 ∧ (0xFFFF : W64).toNat < 0x10000 ∧ e.dev.events = 1 :: [2] ∧ e.dev.dropped ≠ 0 ∧
      ready.dev.dropped = 0 ∧ ready.dev.ctxcmd.getLsbD 63 = false ∧ inCtx.dev.ctx? 0 = some ctx0 ∧ ctx0.st = .resident ∧
      ctx0.launch.chrt = false ∧ busy.dev.ctxcmd.getLsbD 63 = true ∧ ready.dev.inval1.getLsbD 63 = false ∧ (0x10000 : W64).toNat % 65536 = 0 ∧
      ready.invalHeld 0 0x10000 1 = false ∧ held.invalHeld 0 0x10000 1 = true ∧ ready.dev.keycmd.getLsbD 63 = false ∧
      (ready.tasked.all fun c => c.2.pinnedPages.isEmpty) = true ∧ isGddr (0x2FFFFFFE00 + 511) = true ∧
      ((List.range 512).all fun j => !ready.badMem (0x2FFFFFFE00 + j) 1) = true := by
  decide +kernel
theorem witness_NoInstructionStops :
    turnCore (.clock 127) < 128 ∧ 128 ≤ turnCore (.clock 128) ∧
      ({ ready with agenda := [.clock 128] } : State).nextTurn = .clock 128 := by decide
theorem witness_StepRunsDecoded :
    let i : Instr := .add 1 2 (.imm 3)
    let s := ready.withFetchWord 128 ((encode i).getD 0).toNat
    let u := s.begin (.seq 0 .ctl)
    let q := u.core.seqs.get .ctl
    let bad := (ready.withFetchWord 128 0x00000003000000000000000000000000)
    let v := (ready.withFetchWord 128 ((encode (.post .ctl 1 1)).getD 0).toNat).begin (.seq 0 .ctl)
    let r := ruled 31 (rule1 (.vmov (.t 0) (.t 1) 0))
    s.nextTurn = .seq 0 .ctl ∧ u.dev.bootst = 0 ∧ u.mayAct .ctl = true ∧ q.entered = true ∧ q.closing = false ∧ q.detached = false ∧
      q.word? = encode i ∧ engTag ((encode i).getD 0) = engNo .ctl ∧ isInst q.before = false ∧ u.heldBack .ctl = false ∧
      q.due ≤ u.core.clockOf .ctl ∧ decode ((encode i).getD 0) = .ok i ∧
      u.flagWaits .ctl i = false ∧ u.lentFirst .vec = false ∧ v.flagWaits .acc (.await .acc 1 1) = true ∧ u.startsLater .ctl (.next u) = false ∧
      (r.lentFirst .vec) = true ∧
      ((bad.begin (.seq 0 .ctl)).core.seqs.get .ctl).word?.map (fun w => (decode w).toOption) = some none ∧
      ({ ready with agenda := [.event 127 .evDeadlock] } : State).nextTurn = .event 127 .evDeadlock ∧ Instr.isEvent .evDeadlock = true ∧
      (({ ready with agenda := [.event 127 .evDeadlock] } : State).begin (.event 127 .evDeadlock)).heldHot = false := by
  decide +kernel
theorem witness_EncodeDecodeRoundTrip :
    encode (.add 31 31 (.imm 0xFFFFFFFFFFFFFFFF)) ≠ none ∧ Instr.isEvent (.add 31 31 (.imm 0xFFFFFFFFFFFFFFFF)) = false ∧
      (Instr.add 31 31 (.imm 0xFFFFFFFFFFFFFFFF)).wf = true ∧
      decode 0x00002101000000000000000000000001 = .ok (.add 4 4 (.imm 1)) := by decide +kernel
theorem witness_StepKeeps :
    let s : State := { ready with agenda := [.event 0 .evThermalStep1] }
    s.canonical ∧ s.sized = true ∧ s.single ∧ ∃ t, step s = .next t :=
  ⟨⟨by decide, by decide⟩, by decide +kernel, List.nodup_singleton 0, _, rfl⟩

end Witnesses
end

section
/-!
What no step can spoil: a property of byte memories that the empty memory has and that writing a run and clearing a range keep. Every
instruction answers a next state, and that state's device memory and scratchpad have every such property that they had before. The canonical
form of log 3 is one; the property of every memory is another, and says that the instruction answers at all.
-/
namespace Sys2Proof.Machine

/-- Device memory and scratchpad (01 R10; 20 R315). -/
def State.bytes (s : State) : Cells × Cells := (s.mem, s.spad)

/-- A property of a byte memory that the empty memory has and that every write of a run and every clearing of a range keep. -/
structure ByteInv where
  ok : Cells → Prop
  nil : ok []
  write : ∀ m a bs, ok m → ok (writeRun m a bs)
  clear : ∀ m a b, ok m → ok (clearRange m a b)

/-- The canonical form of log 3 is such a property. -/
def ByteInv.canonical : ByteInv :=
  { ok := fun m => Memory.wf m = true, nil := Memory.wf_nil, write := writeRun_wf, clear := clearRange_wf }
/-- So is that of every memory. -/
def ByteInv.any : ByteInv := { ok := fun _ => True, nil := trivial, write := fun _ _ _ _ => trivial, clear := fun _ _ _ _ => trivial }

/-- Both memories have the property. -/
def ByteInv.holds (I : ByteInv) (b : Cells × Cells) : Prop := I.ok b.1 ∧ I.ok b.2
/-- The outcome is a next state, both of whose memories have the property. -/
def ByteInv.next (I : ByteInv) (o : Out) : Prop :=
  match o with
  | .next t => I.holds t.bytes
  | _ => False
/-- The meaning answers so from every state whose memories have the property. -/
def ByteInv.keeps (I : ByteInv) (k : State → Out) : Prop := ∀ s, I.holds s.bytes → I.next (k s)

theorem State.canonical_iff (s : State) : s.canonical ↔ ByteInv.canonical.holds s.bytes := Iff.rfl
theorem ByteInv.any_holds (s : State) : ByteInv.any.holds s.bytes := ⟨trivial, trivial⟩
@[simp] theorem ByteInv.next_next (I : ByteInv) (t : State) : I.next (.next t) ↔ I.holds t.bytes := Iff.rfl
theorem ByteInv.next_iff (I : ByteInv) (o : Out) : I.next o ↔ ∃ t, o = .next t ∧ I.holds t.bytes := by
  cases o <;> simp [ByteInv.next]

/-- A fold of updates that each keep a property of states keeps it. -/
theorem foldl_keeps {α : Type} {P : State → Prop} {f : State → α → State} (hf : ∀ t x, P t → P (f t x)) (l : List α) {s : State} (h : P s) :
    P (l.foldl f s) := by
  induction l generalizing s with
  | nil => exact h
  | cons x r ih => exact ih (hf s x h)
/-- So it keeps the property of its bytes, where each of the updates does. -/
theorem ByteInv.foldl_holds {α : Type} {f : State → α → State} {s : State} (I : ByteInv)
    (hf : ∀ t x, I.holds t.bytes → I.holds (f t x).bytes) (l : List α) (h : I.holds s.bytes) : I.holds (l.foldl f s).bytes :=
  foldl_keeps (P := fun t => I.holds t.bytes) hf l h
/-- A fold of updates that leave the bytes alone leaves them alone. -/
theorem foldl_bytes {α : Type} {f : State → α → State} (hf : ∀ t x, (f t x).bytes = t.bytes) (l : List α) (s : State) :
    (l.foldl f s).bytes = s.bytes :=
  foldl_keeps (P := fun t => t.bytes = s.bytes) (fun t x h => (hf t x).trans h) l rfl

/-! ### Updates that leave the bytes alone -/

@[simp] theorem State.mapCore_bytes (s : State) (f : Core → Core) : (s.mapCore f).bytes = s.bytes := by rfl
@[simp] theorem State.mapSeq_bytes (s : State) (e : Eng) (f : Seq → Seq) : (s.mapSeq e f).bytes = s.bytes := by rfl
@[simp] theorem State.mapDev_bytes (s : State) (f : Device → Device) : (s.mapDev f).bytes = s.bytes := by rfl
@[simp] theorem State.complete_bytes (s : State) (n : Nat) : (s.complete n).bytes = s.bytes := by rfl
@[simp] theorem State.setS_bytes (s : State) (r : SReg) (v : W64) : (s.setS r v).bytes = s.bytes := by simp [State.bytes]
@[simp] theorem State.putS_bytes (s : State) (d : SReg) (v : W64) : (s.putS d v).bytes = s.bytes := by simp [State.bytes]
@[simp] theorem State.putH_bytes (s : State) (h : HReg) (v : W256) : (s.putH h v).bytes = s.bytes := by rfl
@[simp] theorem State.memDebit_bytes (s : State) (n : Nat) : (s.memDebit n).bytes = s.bytes := by rfl
@[simp] theorem State.linkDebit_bytes (s : State) (n : Nat) : (s.linkDebit n).bytes = s.bytes := by rfl
@[simp] theorem State.wrote_bytes (s : State) : s.wrote.bytes = s.bytes := by rfl
@[simp] theorem State.pushLoad_bytes (s : State) (d : SReg) (v : W64) : (s.pushLoad d v).bytes = s.bytes := by rfl
@[simp] theorem State.pushStore_bytes (s : State) (sp : Bool) (a : Nat) (key : Option (BitVec 512)) (bs : List Byte) (rel : Option Scope) :
    (s.pushStore sp a key bs rel).bytes = s.bytes := by rfl
@[simp] theorem State.setFlight_bytes (s : State) (f : Flight) : (s.setFlight f).bytes = s.bytes := by rfl
@[simp] theorem State.mapCopy_bytes (s : State) (e : CopyEng) (f : CopyCmd → CopyCmd) : (s.mapCopy e f).bytes = s.bytes := by rfl
@[simp] theorem State.deliver_bytes (s : State) (e : CopyEng) (q : CopyCmd) (n : Nat) : (s.deliver e q n).bytes = s.bytes := by rfl
@[simp] theorem State.mapFab_bytes (s : State) (f : Fabric → Fabric) : (s.mapFab f).bytes = s.bytes := by rfl
@[simp] theorem State.mapPhase_bytes (s : State) (f : Phase → Phase) : (s.mapPhase f).bytes = s.bytes := by rfl
@[simp] theorem State.unitFault_bytes (s : State) (q : FabCmd) (f : Flt) : (s.unitFault q f).bytes = s.bytes := by rfl
@[simp] theorem State.unitDone_bytes (s : State) (q : FabCmd) : (s.unitDone q).bytes = s.bytes := by rfl
@[simp] theorem State.mapHome_bytes (s : State) (h : Home) (f : Home → Home) : (s.mapHome h f).bytes = s.bytes := by rfl
@[simp] theorem State.freeHomes_bytes (s : State) : s.freeHomes.bytes = s.bytes := by rfl
@[simp] theorem State.sendNote_bytes (s : State) (n : Note) : (s.sendNote n).bytes = s.bytes := by rfl
@[simp] theorem State.bridgeSt_bytes (s : State) : s.bridgeSt.bytes = s.bytes := by rfl
@[simp] theorem State.unbind_bytes (s : State) (h : Home) : (s.unbind h).bytes = s.bytes := by rfl
@[simp] theorem State.mapBinding_bytes (s : State) (b : SBinding) (f : SBinding → SBinding) : (s.mapBinding b f).bytes = s.bytes := by rfl
@[simp] theorem State.bindFault_bytes (s : State) (b : SBinding) (f : Flt) : (s.bindFault b f).bytes = s.bytes := by rfl
@[simp] theorem State.deviceRelease_bytes (s : State) (a : Nat) : (s.deviceRelease a).bytes = s.bytes := by rfl
@[simp] theorem State.tellLaunch_bytes (s : State) (t : BitVec 5) (l : Launch) (r : Option Nat) (m : LaunchMsg) :
    (s.tellLaunch t l r m).bytes = s.bytes := by rfl
@[simp] theorem State.mapQueue_bytes (s : State) (q : BitVec 9) (f : LQueue → LQueue) : (s.mapQueue q f).bytes = s.bytes := by rfl
@[simp] theorem State.answer_bytes (s : State) (m : LinkMsg) (k : LinkKind) : (s.answer m k).bytes = s.bytes := by rfl
@[simp] theorem State.writeBlock_bytes (s : State) (t : BitVec 5) (o : Nat) (v : W64) : (s.writeBlock t o v).bytes = s.bytes := by rfl
@[simp] theorem State.writeMbx_bytes (s : State) (t : BitVec 5) (n : Nat) (v : W64) (r : Bool) : (s.writeMbx t n v r).bytes = s.bytes := by rfl

@[simp] theorem State.setCoreAt_bytes (s : State) (n : Nat) (c : Core) : (s.setCoreAt n c).bytes = s.bytes := by
  unfold State.setCoreAt
  split <;> rfl
@[simp] theorem State.focus_bytes (s : State) (n : Nat) : (s.focus n).bytes = s.bytes := by
  unfold State.focus
  split
  · rfl
  · exact s.setCoreAt_bytes n Core.reset
@[simp] theorem State.begin_bytes (s : State) (t : Turn) : (s.begin t).bytes = s.bytes := State.focus_bytes ..
@[simp] theorem State.vacateCore_bytes (s : State) (n : Nat) : (s.vacateCore n).bytes = s.bytes := State.setCoreAt_bytes ..
@[simp] theorem State.acquireFrom_bytes (s : State) (sc : Scope) (ch : List (Party × Scope)) : (s.acquireFrom sc ch).bytes = s.bytes := by
  unfold State.acquireFrom
  dsimp only
  split <;> split <;> rfl
@[simp] theorem State.noteRead_bytes (s : State) (acq : Option Scope) (ch : List (Party × Scope)) : (s.noteRead acq ch).bytes = s.bytes := by
  unfold State.noteRead
  cases acq <;> dsimp only <;> split <;> simp
@[simp] theorem State.awaitShows_bytes (s : State) (e : Eng) : (s.awaitShows e).bytes = s.bytes := by
  unfold State.awaitShows
  split_ifs <;> rfl
@[simp] theorem State.takeScFence_bytes (s : State) (sc : Scope) : (s.takeScFence sc).bytes = s.bytes := by
  unfold State.takeScFence
  dsimp only
  split <;> rfl
@[simp] theorem State.closeFences_bytes (s : State) : s.closeFences.bytes = s.bytes :=
  foldl_bytes (by intros; rfl) _ s
@[simp] theorem State.closeLoops_bytes (s : State) (e : Eng) : (s.closeLoops e).bytes = s.bytes := by
  unfold State.closeLoops
  dsimp only
  split <;> rfl
@[simp] theorem State.enterBlock_bytes (s : State) (e : Eng) : (s.enterBlock e).bytes = s.bytes := by
  unfold State.enterBlock
  dsimp only
  split_ifs <;> rfl
@[simp] theorem State.debit_bytes (s : State) (n : Nat) : (s.debit n).bytes = s.bytes := by
  unfold State.debit
  dsimp only
  split <;> rfl
@[simp] theorem State.copyFault_bytes (s : State) (e : CopyEng) (q : CopyCmd) (f : Flt) : (s.copyFault e q f).bytes = s.bytes := by
  unfold State.copyFault
  split <;> rfl
@[simp] theorem State.noteDrain_bytes (s : State) : s.noteDrain.bytes = s.bytes := by
  unfold State.noteDrain
  split
  · split <;> rfl
  · rfl
@[simp] theorem State.phaseFault_bytes (s : State) (p : Phase) (f : Flt) (a b : Nat) : (s.phaseFault p f a b).bytes = s.bytes := by
  unfold State.phaseFault
  dsimp only
  split <;> rfl
@[simp] theorem State.passGroup_bytes (s : State) (q : CopyCmd) (i : Bool) (g : Nat) (sq : W16) : (s.passGroup q i g sq).bytes = s.bytes := by
  unfold State.passGroup
  split <;> rfl
@[simp] theorem State.passCred_bytes (s : State) (q : CopyCmd) : (s.passCred q).bytes = s.bytes := by
  unfold State.passCred
  split
  · split <;> simp
  · rfl
@[simp] theorem State.abandonCopy_bytes (s : State) (e : CopyEng) : (s.abandonCopy e).bytes = s.bytes := by
  unfold State.abandonCopy
  split
  · rfl
  · exact State.passCred_bytes ..
@[simp] theorem State.abandon_bytes (s : State) (e : Eng) : (s.abandon e).bytes = s.bytes := by
  unfold State.abandon
  split
  case h_1 | h_2 => exact State.abandonCopy_bytes ..
  case h_3 | h_4 => split <;> rfl
  case h_5 => rfl
@[simp] theorem State.leaveHandler_bytes (s : State) : s.leaveHandler.bytes = s.bytes := by
  unfold State.leaveHandler
  split <;> rfl
@[simp] theorem State.eret_bytes (s : State) (w : Aside) : (s.eret w).bytes = s.bytes := by
  unfold State.eret
  dsimp only
  split <;> simp
@[simp] theorem State.eretSkip_bytes (s : State) (w : Aside) : (s.eretSkip w).bytes = s.bytes := by
  unfold State.eretSkip
  dsimp only
  split
  case h_4 => split <;> simp
  all_goals simp
@[simp] theorem State.withEntry_bytes (s : State) (v : W256) : (s.withEntry v).bytes = s.bytes := by
  unfold State.withEntry
  split <;> rfl
@[simp] theorem State.putItem_bytes (s : State) (h : Home) (i : Item) : (s.putItem h i).bytes = s.bytes := by
  unfold State.putItem
  split
  · rfl
  · dsimp only
    split <;> rfl
@[simp] theorem State.runNotes_bytes (n : Nat) (ns : List Note) (s : State) : (s.runNotes n ns).bytes = s.bytes := by
  induction n generalizing ns s with
  | zero => rfl
  | succ n ih =>
    cases ns with
    | nil => rfl
    | cons x r =>
      unfold State.runNotes
      split
      · simp [ih]
      · split <;> simp [ih]
@[simp] theorem State.tell_bytes (s : State) (ns : List Note) : (s.tell ns).bytes = s.bytes := State.runNotes_bytes ..
@[simp] theorem State.unmove_bytes (s : State) (m : Home) (e : Bool) : (s.unmove m e).bytes = s.bytes := by
  unfold State.unmove
  split_ifs <;> simp
@[simp] theorem State.acquireItems_bytes (s : State) (a : Option Scope) (is : List Item) : (s.acquireItems a is).bytes = s.bytes := by
  cases a <;> simp [State.acquireItems]
@[simp] theorem State.dropEnd_bytes (s : State) (x : W32 × Nat × Bool) : (s.dropEnd x).bytes = s.bytes := by
  unfold State.dropEnd
  split
  · rfl
  · split_ifs <;> simp
@[simp] theorem State.dropEnds_bytes (s : State) (l : List (W32 × Nat × Bool)) : (s.dropEnds l).bytes = s.bytes :=
  foldl_bytes State.dropEnd_bytes l s
@[simp] theorem State.dropTaskEnds_bytes (s : State) (x : W16) (n : Nat) : (s.dropTaskEnds x n).bytes = s.bytes := State.dropEnds_bytes ..
@[simp] theorem State.streamAnswer_bytes (s : State) (r : Nat) (t : BitVec 5) (l : List Byte) (sid : W32) (n : Nat) (m : StreamMsg) :
    (s.streamAnswer r t l sid n m).2.bytes = s.bytes := by
  unfold State.streamAnswer
  split
  · rfl
  · cases m with
    | check v right room =>
      dsimp only
      split
      · rfl
      · split
        · split_ifs <;> simp
        · rfl
    | move e =>
      dsimp only
      split <;> rfl
    | _ => rfl
@[simp] theorem State.streamMsg_bytes (s : State) (r : Nat) (t : BitVec 5) (l : List Byte) (c : Nat) (sid : W32) (n : Nat) (m : StreamMsg) :
    (s.streamMsg r t l c sid n m).bytes = s.bytes := by
  unfold State.streamMsg
  split
  · rfl
  · exact State.tell_bytes ..
@[simp] theorem State.takeTold_bytes (s : State) (id : W16) : (s.takeTold id).bytes = s.bytes := by
  unfold State.takeTold
  split <;> rfl
@[simp] theorem State.repin_bytes (s : State) : s.repin.bytes = s.bytes := by
  unfold State.repin
  extract_lets
  refine (foldl_bytes (fun t r => ?_) _ _).trans rfl
  dsimp only
  split
  · rfl
  · split
    · split <;> rfl
    all_goals rfl
@[simp] theorem State.releasePieces_bytes (s : State) (ps : List (Nat × Option (BitVec 512) × Nat)) : (s.releasePieces ps).bytes = s.bytes :=
  foldl_bytes (by intros; rfl) ps s
@[simp] theorem State.takeAnswer_bytes (s : State) (m : LinkMsg) (r : Reply) : (s.takeAnswer m r).bytes = s.bytes := by
  unfold State.takeAnswer
  split <;> simp
@[simp] theorem State.writeInval0_bytes (s : State) (v : W64) : (s.writeInval0 v).bytes = s.bytes := by
  unfold State.writeInval0
  split <;> rfl
@[simp] theorem State.tryInval_bytes (s : State) : s.tryInval.bytes = s.bytes := by
  unfold State.tryInval
  dsimp only
  split <;> rfl
@[simp] theorem State.writeInval1_bytes (s : State) (v : W64) : (s.writeInval1 v).bytes = s.bytes := by
  unfold State.writeInval1
  split <;> simp
@[simp] theorem State.tryKeyClear_bytes (s : State) : s.tryKeyClear.bytes = s.bytes := by
  unfold State.tryKeyClear
  dsimp only
  split_ifs <;> rfl
@[simp] theorem State.writeKeycmd_bytes (s : State) (v : W64) : (s.writeKeycmd v).bytes = s.bytes := by
  unfold State.writeKeycmd
  dsimp only
  split_ifs <;> simp
@[simp] theorem State.softError_bytes (s : State) (c : BitVec 4) (a : Nat) : (s.softError c a).bytes = s.bytes := by
  unfold State.softError
  split_ifs
  case pos => rfl
  · split
    · rfl
    · split <;> simp
  all_goals rfl

/-! ### States that a judgement, a reading or a look at a word carries -/

theorem State.openFoot_bytes {s t : State} {f : Footprint} (h : s.openFoot f = .ok t) : t.bytes = s.bytes := by
  unfold State.openFoot at h
  split at h
  · cases h
    rfl
  · dsimp only at h
    split at h
    · cases h
      rfl
    · cases h
theorem State.startPhase_bytes {s t : State} {bs : List Bind} {n : Nat} {p : At} {o : Owner} (h : s.startPhase bs n p o = .ok t) :
    t.bytes = s.bytes := by
  unfold State.startPhase at h
  split at h
  · cases h
  · dsimp only at h
    split at h
    · cases h
    · rename_i ho
      have hb := State.openFoot_bytes ho
      cases h
      exact hb
theorem State.checkEnd_bytes {s : State} {v : W256} {w : Option Bool} {x : Home × Bool × State} (h : s.checkEnd v w = .ok x) :
    x.2.2.bytes = s.bytes := by
  unfold State.checkEnd at h
  extract_lets e sid at h
  split at h
  · cases h
  · split at h
    · cases h
    · split at h
      · cases h
      · extract_lets here at h
        split_ifs at h
        split at h
        · split_ifs at h
          cases h
          rfl
        · cases h
          rfl
theorem State.setSysReg_bytes {s t : State} {n : Nat} {v : W64} (h : s.setSysReg n v = some t) : t.bytes = s.bytes := by
  unfold State.setSysReg at h
  dsimp only at h
  split_ifs at h <;> cases h <;> rfl
theorem State.takeLaunch_bytes {s t : State} {n : BitVec 5} {r : List Byte} {m : LaunchMsg} (h : s.takeLaunch n r m = some t) :
    t.bytes = s.bytes := by
  unfold State.takeLaunch at h
  split at h
  · cases h
    rfl
  · cases h
theorem State.standAt_bytes {s : State} {e : Eng} {x : Instr × State} (h : s.standAt e = some x) : x.2.bytes = s.bytes := by
  unfold State.standAt at h
  dsimp only at h
  split at h
  · cases h
  · split at h
    · cases h
    · split at h <;> cases h
      rfl
theorem State.atWord_bytes {s : State} {e : Eng} {x : State × Reading} (h : s.atWord e = some x) : x.1.bytes = s.bytes := by
  unfold State.atWord at h
  dsimp only at h
  split at h
  · cases h
  · obtain ⟨w, -, rfl⟩ := Option.map_eq_some_iff.1 h
    rfl

end Sys2Proof.Machine
end

section
/-!
Writers: the updates that write runs of bytes or clear ranges keep every such property. Continuations: a word that waits, traps or goes on
answers a next state of that kind where its continuation does.
-/
namespace Sys2Proof.Machine

/-- Either branch of a conditional has a property, so the conditional has it. -/
theorem ite_of {α : Type} {P : α → Prop} {c : Prop} [Decidable c] {x y : α} (hx : P x) (hy : P y) : P (if c then x else y) := by
  split
  · exact hx
  · exact hy

variable {I : ByteInv} {s : State}

theorem ByteInv.next_ite {c : Prop} [Decidable c] {x y : Out} (I : ByteInv) (hx : I.next x) (hy : I.next y) : I.next (if c then x else y) :=
  ite_of hx hy
theorem ByteInv.holds_ite {c : Prop} [Decidable c] {t u : State} (I : ByteInv) (ht : I.holds t.bytes) (hu : I.holds u.bytes) :
    I.holds (if c then t else u).bytes := ite_of (P := fun t => I.holds (State.bytes t)) ht hu
/-- Two ways of going on, of which a condition chooses. -/
theorem ByteInv.next_choice {c : Prop} [Decidable c] {f g : (State → Out) → Out} {k : State → Out} (I : ByteInv)
    (hf : I.keeps k → I.next (f k)) (hg : I.keeps k → I.next (g k)) (hk : I.keeps k) : I.next ((if c then f else g) k) := by
  split
  · exact hf hk
  · exact hg hk

/-! ### Device memory and scratchpad -/

theorem State.rekey_holds (key : Option (BitVec 512)) (u : Nat) (h : I.holds s.bytes) : I.holds (s.rekey key u).bytes := by
  unfold State.rekey
  split
  · exact h
  · exact ⟨I.write _ _ _ h.1, h.2⟩
@[simp] theorem State.writePhys_holds (key : Option (BitVec 512)) (a : Nat) (bs : List Byte) (h : I.holds s.bytes) :
    I.holds (s.writePhys key a bs).bytes := by
  have hk := I.foldl_holds (fun t u => State.rekey_holds key u)
    ((List.range ((a + bs.length + 63) / 64 - a / 64)).map fun k => a / 64 + k) h
  exact ⟨I.write _ _ _ hk.1, hk.2⟩
@[simp] theorem State.writeSpad_holds (a : Nat) (bs : List Byte) (h : I.holds s.bytes) : I.holds (s.writeSpad a bs).bytes :=
  ⟨h.1, I.write _ _ _ h.2⟩
@[simp] theorem State.putPhys_holds (p : Path) (key : Option (BitVec 512)) (a : Nat) (bs : List Byte) (h : I.holds s.bytes) :
    I.holds (s.putPhys p key a bs).bytes := State.writePhys_holds key a bs h
@[simp] theorem State.putSpad_holds (p : Path) (a : Nat) (bs : List Byte) (h : I.holds s.bytes) :
    I.holds (s.putSpad p a bs).bytes := State.writeSpad_holds a bs h
@[simp] theorem State.performStore_holds (e : StoreEnt) (h : I.holds s.bytes) : I.holds (s.performStore e).bytes := by
  unfold State.performStore
  dsimp only
  cases e.sp <;> split <;> simp [h]
@[simp] theorem State.drainStores_holds (h : I.holds s.bytes) : I.holds s.drainStores.bytes :=
  I.foldl_holds (fun _ e => State.performStore_holds e) s.core.stores h
@[simp] theorem State.atomicAt_holds (p : Option Path) (key : Option (BitVec 512)) (pa : Nat) (op : AtOp) (w : AtW) (g : Sgn) (v c : W64)
    (rels : List (Party × Scope)) (h : I.holds s.bytes) : I.holds (s.atomicAt p key pa op w g v c rels).2.bytes := by
  unfold State.atomicAt
  dsimp only
  split
  · exact h
  · cases p <;> simp [h]
@[simp] theorem State.readLoad_holds (x : LdSrc) (h : I.holds s.bytes) : I.holds (s.readLoad x).2.bytes := by
  cases x <;> simp [State.readLoad, h]
@[simp] theorem State.startLoad_holds (d : SReg) (x : LdSrc) (n : Nat) (h : I.holds s.bytes) : I.holds (s.startLoad d x n).bytes := by
  unfold State.startLoad
  split
  · exact h
  · exact State.readLoad_holds x h
@[simp] theorem State.sampleLoad_holds (l : LoadEnt) (h : I.holds s.bytes) : I.holds (s.sampleLoad l).2.bytes :=
  State.readLoad_holds (s := s.mapCore _) l.src h
@[simp] theorem State.applyEff_holds (p : Option Path) (e : Eff) (h : I.holds s.bytes) : I.holds (State.applyEff p s e).bytes := by
  unfold State.applyEff
  cases e with
  | run k bs => cases p <;> simp [h]
  | _ => exact h
theorem State.applyEffs_holds (p : Option Path) (es : List Eff) (h : I.holds s.bytes) :
    I.holds (es.foldl (State.applyEff p) s).bytes :=
  I.foldl_holds (fun _ e => State.applyEff_holds p e) es h
@[simp] theorem State.land_holds (f : Flight) (h : I.holds s.bytes) : I.holds (s.land f).bytes := by
  have he : I.holds ((f.effs.foldl (State.applyEff (if f.eng = .mat then some .mx else none)) _).wrote).bytes :=
    State.applyEffs_holds (s := s.mapCore fun c => { c with flights := c.flights.filter fun g => g.id != f.id }.closeFoot f.eng f.id) _ f.effs h
  unfold State.land
  dsimp only
  split <;> exact he
theorem State.lands_holds (fs : List Flight) (h : I.holds s.bytes) : I.holds (fs.foldl State.land s).bytes :=
  I.foldl_holds (fun _ f => State.land_holds f) fs h
@[simp] theorem State.landDue_holds (h : I.holds s.bytes) : I.holds s.landDue.bytes := State.lands_holds _ (State.lands_holds _ h)
@[simp] theorem State.writeSpot_holds (p : Path) (x : Spot) (bs : List Byte) (h : I.holds s.bytes) : I.holds (s.writeSpot p x bs).bytes := by
  cases x with
  | phys a key => exact State.putPhys_holds p key a bs h
  | sp k => exact State.putSpad_holds p k bs h
  | _ => exact h
@[simp] theorem State.scatterStep_holds (p : Path) (o : Operand) (k : Nat) (bs : List Byte) (h : I.holds s.bytes) :
    I.holds (s.scatterStep p o k bs).bytes :=
  I.foldl_holds (fun _ _ ht => State.writeSpot_holds _ _ _ ht) _ h
@[simp] theorem State.credPiece_holds (int : Bool) (o : Operand) (k : Nat) (bs : List Byte) (h : I.holds s.bytes) :
    I.holds (s.credPiece int o k bs).bytes :=
  I.foldl_holds (fun _ _ ht => State.writeSpot_holds _ _ _ ht) _ h
@[simp] theorem State.writePieces_holds (bs : List Byte) (ps : List (Nat × Option (BitVec 512) × Nat)) (h : I.holds s.bytes) :
    I.holds (s.writePieces bs ps).bytes := by
  induction ps generalizing s bs with
  | nil => exact h
  | cons p r ih => exact ih _ (State.writePhys_holds _ _ _ h)
theorem State.writeVirt_holds {t : State} {n : BitVec 5} {own : Option Nat} {va : Nat} {bs : List Byte} (h : I.holds s.bytes)
    (ht : s.writeVirt n own va bs = some t) : I.holds t.bytes := by
  obtain ⟨ps, -, rfl⟩ := Option.map_eq_some_iff.1 ht
  exact State.writePieces_holds bs ps h

/-! ### Continuations -/

/-- An access of another module goes on from a state with the same bytes, answered, refused or waiting. -/
theorem State.askEngine_of {α : Type} {P : α → Prop} {e : Eng} {rank n : Nat} {k : LinkKind}
    {done : List Byte → List (Party × Scope) → State → α} {refused wait : State → α} (h : I.holds s.bytes)
    (hd : ∀ bs ch t, I.holds t.bytes → P (done bs ch t)) (hr : ∀ t, I.holds t.bytes → P (refused t))
    (hw : ∀ t, I.holds t.bytes → P (wait t)) : P (s.askEngine e rank n k done refused wait) := by
  unfold State.askEngine
  split
  · exact ite_of (hw _ h) (hw _ h)
  · exact hw _ h
  · exact hw _ h
  · exact hd _ _ _ h
  · exact hr _ h

/-- The same where the three ways on are updates. -/
theorem State.askEngine_holds {e : Eng} {rank n : Nat} {k : LinkKind} {done : List Byte → List (Party × Scope) → State → State}
    {refused wait : State → State} (h : I.holds s.bytes) (hd : ∀ bs ch t, I.holds t.bytes → I.holds (done bs ch t).bytes)
    (hr : ∀ t, I.holds t.bytes → I.holds (refused t).bytes) (hw : ∀ t, I.holds t.bytes → I.holds (wait t).bytes) :
    I.holds (s.askEngine e rank n k done refused wait).bytes :=
  State.askEngine_of (P := fun t => I.holds (State.bytes t)) h hd hr hw

variable {k : State → Out}

theorem State.complete_next {n : Nat} (h : I.holds s.bytes) : I.next (.next (s.complete n)) := h
theorem State.putS_next {d : SReg} {v : W64} (h : I.holds s.bytes) : I.next (.next (s.putS d v)) := by simpa using h
theorem State.timed_next {n : Nat} {got : Option (List Byte)} {w : Wait} (h : I.holds s.bytes) : I.next (s.timed n got w) := h
theorem State.fabQueue_next {q : FabCmd} (h : I.holds s.bytes) : I.next (s.fabQueue q) := by
  unfold State.fabQueue
  dsimp only
  split <;> exact h

theorem State.withPaths_next {ps : List Path} (h : I.holds s.bytes) (hk : I.keeps k) : I.next (s.withPaths ps k) := by
  unfold State.withPaths
  dsimp only
  split
  · exact hk _ h
  · exact h
theorem State.withDrained_next (h : I.holds s.bytes) (hk : I.keeps k) : I.next (s.withDrained k) := by
  unfold State.withDrained
  exact I.next_ite (I.next_ite (hk _ h) h) (I.next_ite (hk _ (State.drainStores_holds h)) h)
theorem State.inOrder_next {l : Nat} {b : Bool} (h : I.holds s.bytes) (hk : I.keeps k) : I.next (s.inOrder l b k) := I.next_ite h (hk _ h)
theorem State.withAwait_next {tl : Tail} (h : I.holds s.bytes) (hk : I.keeps k) : I.next (s.withAwait tl k) := by
  unfold State.withAwait
  split
  · exact hk _ h
  · exact I.next_ite (hk _ h) (I.next_ite (hk _ h) h)
theorem State.withRegs_next {rs : List SReg} (h : I.holds s.bytes) (hk : I.keeps k) : I.next (s.withRegs rs k) := I.next_ite h (hk _ h)
theorem State.withGood_next {c : BitVec 4} {p : Nat → Bool} (h : I.holds s.bytes) (hk : I.keeps k) : I.next (s.withGood c p k) := by
  unfold State.withGood
  split
  · exact h
  · exact hk _ h
theorem State.withSc_next (h : I.holds s.bytes) (hk : I.keeps k) : I.next (s.withSc k) := I.next_ite (hk _ h) h
theorem State.withBytes_next {n : Nat} (h : I.holds s.bytes) (hk : I.keeps k) : I.next (s.withBytes n k) := I.next_ite (hk _ h) h
theorem State.withUnpinned_next {l : Nat} (h : I.holds s.bytes) (hk : I.keeps k) : I.next (s.withUnpinned l k) := I.next_ite (hk _ h) h
theorem State.pushing_next {m : EMask} {x : CtlEntry} (h : I.holds s.bytes) (hk : I.keeps k) : I.next (s.pushing m x k) := I.next_ite (hk _ h) h
theorem State.withoutHazard_next {b : Bool} (h : I.holds s.bytes) (hk : I.keeps k) : I.next (s.withoutHazard b k) := I.next_ite h (hk _ h)
theorem State.fenceTimed_next (h : I.holds s.bytes) (hk : I.keeps k) : I.next (s.fenceTimed k) := I.next_ite (hk _ h) h
theorem State.withFoot_next {r w : List Nat} (h : I.holds s.bytes) (hk : I.keeps k) : I.next (s.withFoot r w k) := by
  unfold State.withFoot
  split
  · exact h
  · rename_i ho
    exact hk _ (State.openFoot_bytes ho ▸ h)
theorem State.matWord_next {tl : Tail} {bs cs : List BankNo} (h : I.holds s.bytes) (hk : I.keeps k) : I.next (s.matWord tl bs cs k) :=
  State.withAwait_next h fun _ ht => I.next_ite ht (State.withoutHazard_next ht hk)
theorem State.withBanks_next {bs cs : List BankNo} (h : I.holds s.bytes) (hk : I.keeps k) : I.next (s.withBanks bs cs k) := State.withGood_next h hk
theorem State.withTurn_next {o : Operand} (h : I.holds s.bytes) (hk : I.keeps k) : I.next (s.withTurn o k) := I.next_ite h (hk _ h)
theorem State.fabWord_next (h : I.holds s.bytes) (hk : I.keeps k) : I.next (s.fabWord k) := I.next_ite (I.next_ite h h) (hk _ h)
theorem State.withAligned_next {v : W256} (h : I.holds s.bytes) (hk : I.keeps k) : I.next (s.withAligned v k) := I.next_ite (hk _ h) h
theorem State.withStream_next (h : I.holds s.bytes) (hk : I.keeps k) : I.next (s.withStream k) := State.withPaths_next h hk
theorem State.withSt_next (h : I.holds s.bytes) (hk : I.keeps k) : I.next (s.withSt k) := State.withPaths_next h hk
theorem State.observed_next (h : I.holds s.bytes) (hk : I.keeps k) : I.next (s.observed k) := I.next_ite (hk _ h) h

theorem State.askRemote_next {k : List Byte → List (Party × Scope) → State → Out} {rank ea n : Nat} {w : Want} {m : LinkKind}
    (h : I.holds s.bytes) (hk : ∀ bs ch, I.keeps (k bs ch)) : I.next (s.askRemote rank ea n w m k) :=
  State.askEngine_of (P := I.next) h (fun bs ch t ht => hk bs ch t ht) (fun _ ht => ht) fun _ ht => ht
theorem State.askStream_next {k : List Byte → State → Out} {sid : W32} {a b : Nat} {m : StreamMsg} (h : I.holds s.bytes)
    (hk : ∀ bs, I.keeps (k bs)) : I.next (s.askStream sid a b m k) :=
  State.askEngine_of (P := I.next) h (fun bs _ t ht => hk bs t ht) (fun _ ht => ht) fun _ ht => ht
theorem State.withNant_next {k : Bool → State → Out} (h : I.holds s.bytes) (hk : ∀ x, I.keeps (k x)) : I.next (s.withNant k) :=
  I.next_ite (hk _ _ h) h
theorem State.withHO_next {k : W256 → State → Out} {r : HReg} (h : I.holds s.bytes) (hk : ∀ x, I.keeps (k x)) : I.next (s.withHO r k) :=
  I.next_ite (hk _ _ h) h
theorem State.withLine_next {k : Nat → State → Out} {o : Op2} (h : I.holds s.bytes) (hk : ∀ l, I.keeps (k l)) : I.next (s.withLine o k) :=
  I.next_ite h (hk _ _ h)
theorem State.withId_next {k : Nat → State → Out} {v : W64} (h : I.holds s.bytes) (hk : ∀ id, I.keeps (k id)) : I.next (s.withId v k) :=
  I.next_ite h (hk _ _ h)
theorem State.withOpen_next {k : W256 → State → Out} {r : HReg} (h : I.holds s.bytes) (hk : ∀ x, I.keeps (k x)) : I.next (s.withOpen r k) :=
  I.next_ite h (I.next_ite h (State.withGood_next h (hk _)))
theorem State.withRule_next {k : Nat → Rule → State → Out} {v : W64} (h : I.holds s.bytes) (hk : ∀ id r, I.keeps (k id r)) :
    I.next (s.withRule v k) := by
  refine State.withId_next h fun id t ht => State.withGood_next ht fun u hu => ?_
  split
  · exact hu
  · exact hk _ _ _ hu
theorem State.withPop_next {k : Option Tile → State → Out} {b : Bool} {q : QNo} {ws : List Nat} (h : I.holds s.bytes)
    (hk : ∀ t, I.keeps (k t)) : I.next (s.withPop b q ws k) := by
  unfold State.withPop
  split
  · exact State.withFoot_next h (hk _)
  · split
    · exact h
    · exact State.withGood_next h fun t ht => State.withFoot_next ht fun u hu => hk _ (u.mapCore _) hu
theorem State.withDest_next {k : Operand → State → Out} {v : W256} {o : Operand} {b : Bool} (h : I.holds s.bytes)
    (hk : ∀ o, I.keeps (k o)) : I.next (s.withDest v o b k) := by
  have tags (o : Operand) (t : State) (ht : I.holds t.bytes) : I.next (match t.core.matDest o with
      | .error f => .next (t.trap f)
      | .ok o => k o (t.resolved o)) := by
    split
    · exact ht
    · exact hk _ _ ht
  unfold State.withDest
  dsimp only
  split
  · exact hk _ _ h
  · exact tags _ _ h
  · split
    · exact h
    · refine I.next_ite (tags _ _ h) ?_
      split
      · exact h
      · exact tags _ _ h
theorem State.popping_next {k : CtlEntry → State → Out} (h : I.holds s.bytes) (hk : ∀ x, I.keeps (k x)) : I.next (s.popping k) := by
  unfold State.popping
  split
  · exact h
  · exact hk _ _ h
theorem State.mulWord_next {ctl other : State → Out} {m : EMask} {b : Bool} (h : I.holds s.bytes) (hc : I.keeps ctl) (ho : I.keeps other) :
    I.next (s.mulWord m b ctl other) := I.next_ite (hc _ h) (I.next_ite (ho _ h) h)
theorem State.withEnd_next {k : Home → Bool → State → Out} {r : HReg} {w : Option Bool} (h : I.holds s.bytes)
    (hk : ∀ x e, I.keeps (k x e)) : I.next (s.withEnd r w k) := by
  have go (t : State) (ht : I.holds t.bytes) : I.next (match t.checkEnd (s.core.getH r) w with
      | .error f => .next (t.trap f)
      | .ok x => k x.1 x.2.1 x.2.2) := by
    split
    · exact ht
    · rename_i hx
      exact hk _ _ _ (State.checkEnd_bytes hx ▸ ht)
  refine I.next_ite (State.askStream_next h fun bs t ht => ?_) (go s h)
  dsimp only
  split
  · refine go _ ?_
    split <;> simpa using ht
  · exact ht
  · exact ht
theorem State.withRecv_next {k : Home → State → Out} {r : HReg} (h : I.holds s.bytes) (hk : ∀ x, I.keeps (k x)) : I.next (s.withRecv r k) :=
  State.withEnd_next h fun x _ _ ht => I.next_ite ht (hk x _ ht)
theorem State.withItems_next {k : Nat → State → Out} {x : Home} {o : Op2} (h : I.holds s.bytes) (hk : ∀ n, I.keeps (k n)) :
    I.next (s.withItems x o k) := I.next_ite h (hk _ _ h)
theorem State.withItemBytes_next {k : Nat → State → Out} {a : SReg} {n : Nat} {b : Bool} (h : I.holds s.bytes) (hk : ∀ n, I.keeps (k n)) :
    I.next (s.withItemBytes a n b k) := I.next_ite h (I.next_ite h (hk _ _ h))

end Sys2Proof.Machine
end

section
/-!
The words of CTL, ACC and VEC, and shared control flow: each answers a next state that keeps every such property of the bytes.
-/
namespace Sys2Proof.Machine

variable {I : ByteInv} {s : State}

/-! ### CTL: integers and memory (05 R92 to R95; 09 R191; 20 R317 to R328) -/

theorem State.alu_next {d a o f} (h : I.holds s.bytes) : I.next (s.alu d a o f) := State.withRegs_next h fun _ ht => State.putS_next ht
/-- A word that waits for registers and then writes one. -/
theorem State.withRegs_putS_next {rs d} {v : State → W64} (h : I.holds s.bytes) :
    I.next (s.withRegs rs fun s => .next (s.putS d (v s))) := State.withRegs_next h fun _ ht => State.putS_next ht
theorem execLd_keeps {k d a off acq} : I.keeps (execLd k d a off acq) := by
  intro s h
  unfold execLd
  refine State.withRegs_next h fun s h => State.withSc_next h fun s h => ?_
  dsimp only
  split
  · exact h
  · split
    · exact State.askRemote_next h fun bs ch t ht => by simpa using ht
    · exact I.next_ite h (State.inOrder_next h fun t ht => State.withBytes_next ht fun u hu => by simp [hu])
theorem execSt_keeps {k a b off rel} : I.keeps (execSt k a b off rel) := by
  intro s h
  unfold execSt
  refine State.withRegs_next h fun s h => ?_
  dsimp only
  split
  · exact h
  · split
    · exact State.withSc_next h fun s h => State.withDrained_next h fun s h => State.askRemote_next h fun _ _ _ ht => ht
    · exact State.inOrder_next h fun s h => State.withBytes_next h fun _ ht => ht
theorem execLdsp_keeps {k d a off acq} : I.keeps (execLdsp k d a off acq) := by
  intro s h
  unfold execLdsp
  refine State.withRegs_next h fun s h => State.withSc_next h fun s h => ?_
  dsimp only
  split
  · exact h
  · exact I.next_ite h (State.inOrder_next h fun t ht => by simp [ht])
theorem execStsp_keeps {k a b off rel} : I.keeps (execStsp k a b off rel) := by
  intro s h
  unfold execStsp
  refine State.withRegs_next h fun s h => ?_
  dsimp only
  split
  · exact h
  · exact State.inOrder_next h fun _ ht => ht
theorem State.sampleTimed_next {d key pa v sc} (h : I.holds s.bytes) : I.next (s.sampleTimed d key pa v sc) := by
  unfold State.sampleTimed
  dsimp only
  split
  · exact I.next_ite h (State.putS_next h)
  · exact I.next_ite h (State.withBytes_next h fun t ht => I.next_ite (State.timed_next (by simpa using ht)) ht)
  · exact State.inOrder_next h fun _ ht => ht
theorem State.sampleGe_next {d a o sc} (h : I.holds s.bytes) : I.next (s.sampleGe d a o sc) := by
  refine State.withRegs_next h fun s h => State.withSc_next h fun s h => ?_
  dsimp only
  split
  · exact h
  · split
    · exact State.askRemote_next h fun bs ch t ht => I.next_ite (State.putS_next (by simpa using ht)) ht
    · exact I.next_ite h (I.next_ite (State.sampleTimed_next h)
        (State.withBytes_next h fun t ht => I.next_ite (State.putS_next (by simpa using ht)) ht))
theorem State.atomic_next {op w g d a cr o ord} (h : I.holds s.bytes) : I.next (s.atomic op w g d a cr o ord) := by
  refine State.withRegs_next h fun s h => State.withSc_next h fun s h => ?_
  dsimp only
  split
  · exact h
  · split
    · exact State.withDrained_next h fun s h => State.askRemote_next h fun bs ch t ht => by simpa using ht
    · exact I.next_choice (State.inOrder_next h) (State.withDrained_next h) fun t ht =>
        I.next_ite ht (State.withBytes_next ht fun u hu => by simp [hu])
theorem execMark_keeps : I.keeps execMark := by
  intro s h
  unfold execMark
  exact State.withDrained_next h fun _ ht => ht
theorem execFence_keeps {k sc} : I.keeps (execFence k sc) := by
  intro s h
  unfold execFence
  cases k with
  | acq | acqrel => exact I.next_ite (by simpa using h) h
  | rel => exact h
  | sc => exact I.next_choice (State.fenceTimed_next h) (State.withDrained_next h) fun t ht => by simpa using ht

/-! ### CTL: handles and tags (05 R96 to R99; 07 R133 to R137) -/

theorem State.hldTimed_next {r key pa} (h : I.holds s.bytes) : I.next (s.hldTimed r key pa) := by
  unfold State.hldTimed
  dsimp only
  split
  · exact I.next_ite h h
  · exact I.next_ite h (State.timed_next (by simpa using h))
  · exact State.inOrder_next h fun t ht => State.withBytes_next ht fun _ hu => hu
theorem execHld_keeps {r a off} : I.keeps (execHld r a off) := by
  intro s h
  unfold execHld
  refine State.withRegs_next h fun s h => State.withSc_next h fun s h => ?_
  dsimp only
  split
  · exact h
  · split
    · exact State.askRemote_next h fun bs ch t ht => by simpa using ht
    · exact I.next_ite h (I.next_ite (State.hldTimed_next h) (State.withBytes_next h fun t ht => by simpa using ht))
theorem execHst_keeps {r a off} : I.keeps (execHst r a off) := by
  intro s h
  unfold execHst
  refine State.withRegs_next h fun s h => ?_
  dsimp only
  split
  · exact h
  · split
    · exact State.withSc_next h fun s h => State.withDrained_next h fun s h => State.askRemote_next h fun _ _ _ ht => ht
    · exact State.inOrder_next h fun s h => State.withBytes_next h fun _ ht => by simpa using ht
theorem State.editH_next {r o f} (h : I.holds s.bytes) : I.next (s.editH r o f) :=
  State.withRegs_next h fun _ ht => I.next_ite ht ht
theorem execHoff_keeps {r k o} : I.keeps (execHoff r k o) := by
  intro s h
  unfold execHoff
  exact State.withRegs_next h fun _ ht => I.next_ite ht ht
theorem execTlook_keeps {d a} : I.keeps (execTlook d a) := by
  intro s h
  unfold execTlook
  exact State.withRegs_next h fun _ h => State.withGood_next h fun _ ht => State.putS_next ht
theorem execTset_keeps {a o} : I.keeps (execTset a o) := by
  intro s h
  unfold execTset
  refine State.withRegs_next h fun _ h => State.withLine_next h fun l _ h => State.withGood_next h ?_
  intro s h
  dsimp only
  split
  · exact h
  · exact State.withUnpinned_next h fun _ ht => ht
theorem execTclr_keeps {o} : I.keeps (execTclr o) := by
  intro s h
  unfold execTclr
  exact State.withRegs_next h fun _ h => State.withLine_next h fun _ _ h => State.withUnpinned_next h fun _ ht => ht
/-- Said by an equation, as the search over all 1,024 lines does not reduce. -/
theorem execTclrAll_next (s : State) : ∃ t, execTclrAll s = .next t ∧ t.bytes = s.bytes := by
  unfold execTclrAll
  split <;> exact ⟨_, rfl, rfl⟩
theorem execTinfo_keeps {d o} : I.keeps (execTinfo d o) := by
  intro s h
  unfold execTinfo
  exact State.withRegs_next h fun _ h => State.withLine_next h fun _ _ h => State.withGood_next h fun _ ht => State.putS_next ht

/-! ### CTL: system registers, traps, barriers (02 R30, R31; 05 R100 to R106) -/

theorem execSwr_keeps {n o} : I.keeps (execSwr n o) := by
  intro s h
  unfold execSwr
  refine State.withRegs_next h fun s h => ?_
  split
  · rename_i hr
    exact State.complete_next (State.setSysReg_bytes hr ▸ h)
  · exact h
theorem execMbxrd_keeps {d n acq} : I.keeps (execMbxrd d n acq) := by
  intro s h
  unfold execMbxrd
  refine State.withRegs_next h fun s h => ?_
  exact I.next_ite (by simpa using h) (State.putS_next (by simpa using h))
theorem execEret_keeps : I.keeps execEret := by
  intro s h
  unfold execEret
  refine State.observed_next h fun s h => ?_
  split
  · exact h
  · exact I.next_ite h (by simpa using h)
theorem execEretSkip_keeps : I.keeps execEretSkip := by
  intro s h
  unfold execEretSkip
  refine State.observed_next h fun s h => ?_
  split
  · exact h
  · exact I.next_ite h (I.next_ite h (by simpa using h))
theorem execExit_keeps : I.keeps execExit := by
  intro s h
  unfold execExit
  exact I.next_ite h (I.next_ite h h)
theorem State.barWord_next {k n} (h : I.holds s.bytes) : I.next (s.barWord k n) := by
  refine I.next_ite (I.next_ite h h) (State.withDrained_next h fun s h => ?_)
  have arrives (t : State) (ht : I.holds t.bytes) : I.next (if t.mayDepart k then .next (t.depart k n) else .next (t.waiting .internal)) :=
    I.next_ite ht ht
  refine arrives _ ?_
  split
  · exact I.holds_ite h h
  · exact h
theorem execBar_keeps {k} : I.keeps (execBar k) := by
  intro s h
  unfold execBar
  exact I.next_ite h (State.barWord_next h)
theorem execBarPart_keeps {n} : I.keeps (execBarPart n) := by
  intro s h
  unfold execBarPart
  exact I.next_ite h (State.barWord_next h)

/-! ### Flags (04 R84 to R87) -/

theorem execPost_keeps {e f n} : I.keeps (execPost e f n) := by
  intro s h
  unfold execPost
  exact I.next_ite (I.next_ite (State.withDrained_next h fun _ ht => ht) h) h
theorem execAwait_keeps {e f n} : I.keeps (execAwait e f n) := by
  intro s h
  unfold execAwait
  exact I.next_ite (by simpa using h) h
theorem State.postCopy_next {e i c} (h : I.holds s.bytes) : I.next (s.postCopy e i c) :=
  I.next_ite (I.next_ite h h) (I.next_ite h h)
theorem execPostTail_keeps {e c} : I.keeps (execPostTail e c) := by
  intro s h
  unfold execPostTail
  split
  · exact State.postCopy_next h
  · exact State.postCopy_next h
  · exact State.fabWord_next h fun _ ht => State.fabQueue_next ht
  · exact h
theorem execAwaitTail_keeps {e c} : I.keeps (execAwaitTail e c) := by
  intro s h
  unfold execAwaitTail
  exact I.next_ite (by simpa using h) h

/-! ### ACC and VEC (07 R138 to R144; 08 R146 to R168) -/

theorem State.gather_next {q rows pins} (h : I.holds s.bytes) : I.next (s.gather q rows pins) := by
  refine I.next_ite h (State.withPaths_next h fun s h => State.withoutHazard_next h fun s h => ?_)
  split
  · exact h
  · split
    · exact h
    · rename_i ho
      exact (State.openFoot_bytes ho ▸ h :)
theorem execArd_keeps {q a n r off} : I.keeps (execArd q a n r off) := by
  intro s h
  unfold execArd
  split
  · exact h
  · exact State.gather_next h
theorem execArdb_keeps {q a n r off} : I.keeps (execArdb q a n r off) := by
  intro s h
  unfold execArdb
  split
  · exact State.gather_next h
  · refine State.withGood_next h fun s h => ?_
    split
    · exact h
    · exact State.gather_next h
theorem State.tryWaitwp_next {c w} (h : I.holds s.bytes) : I.next (s.tryWaitwp c w) := by
  refine I.next_ite h ?_
  split
  · exact h
  · exact I.next_ite h h
theorem State.vecWord_next {v} (h : I.holds s.bytes) : I.next (s.vecWord v) := by
  refine I.next_ite h (I.next_ite h (State.withPaths_next h fun s h => State.withoutHazard_next h fun s h =>
    State.withNant_next h fun nant s h => ?_))
  split
  · exact h
  · refine I.next_ite h ?_
    split
    · exact h
    · dsimp only
      split <;> exact h

/-! ### Shared control flow (04 R56 to R76) -/

theorem execNop_keeps {m} : I.keeps (execNop m) := by
  intro s h
  unfold execNop
  exact I.next_ite h h
/-- A transfer taken, or the word completed. -/
theorem State.transfer_holds {taken : Bool} {f : Seq → Seq} (h : I.holds s.bytes) :
    I.holds (if taken then s.follow f else s.complete 1).bytes := I.holds_ite h h
/-- CTL's view of the followers changed, or not. -/
theorem State.viewed_holds {c : Prop} [Decidable c] {m : EMask} {f : View → View} (h : I.holds s.bytes) :
    I.holds (if c then s.mapView m f else s).bytes := I.holds_ite h h
theorem State.viewedNot_holds {c : Prop} [Decidable c] {m : EMask} {f : View → View} (h : I.holds s.bytes) :
    I.holds (if c then s else s.mapView m f).bytes := I.holds_ite h h
theorem execBr_keeps {m c sa sb tgt} : I.keeps (execBr m c sa sb tgt) := by
  intro s h
  unfold execBr
  refine State.mulWord_next h
    (fun s h => State.withRegs_next h fun s h => I.next_ite h (State.pushing_next h fun s h => State.transfer_holds (State.viewed_holds h)))
    fun s h => State.popping_next h fun x s h => ?_
  split
  · exact State.transfer_holds h
  · exact h
theorem execJmp_keeps {m tgt} : I.keeps (execJmp m tgt) := by
  intro s h
  unfold execJmp
  exact State.mulWord_next h (fun _ h => I.next_ite h h) fun _ h => I.next_ite h h
theorem execJmpIndirect_keeps {m sa} : I.keeps (execJmpIndirect m sa) := by
  intro s h
  unfold execJmpIndirect
  refine State.mulWord_next h
    (fun s h => State.withRegs_next h fun s h => I.next_ite h (State.pushing_next h fun _ ht => ht))
    fun s h => State.popping_next h fun x s h => ?_
  split <;> exact h
theorem execCall_keeps {m tgt} : I.keeps (execCall m tgt) := by
  intro s h
  unfold execCall
  exact State.mulWord_next h (fun _ h => I.next_ite h (I.next_ite h h)) fun _ h => I.next_ite h h
theorem execRet_keeps {m} : I.keeps (execRet m) := by
  intro s h
  unfold execRet
  refine State.mulWord_next h (fun s h => I.next_ite h ?_) fun s h => ?_
  · split
    · exact h
    · exact I.next_ite h h
  · split
    · exact h
    · exact I.next_ite h (I.next_ite h h)
theorem execLoop_keeps {m l sa rot tgt imm} : I.keeps (execLoop m l sa rot tgt imm) := by
  intro s h
  unfold execLoop
  refine State.mulWord_next h
    (fun s h => State.withRegs_next h fun s h => I.next_ite h (I.next_ite h (I.next_ite h (I.next_ite h (I.next_ite h
      (State.pushing_next h fun s h => State.viewedNot_holds h))))))
    fun s h => State.popping_next h fun x s h => ?_
  split <;> exact h
theorem execBrk_keeps {m c l sa sb tgt} : I.keeps (execBrk m c l sa sb tgt) := by
  intro s h
  unfold execBrk
  refine State.mulWord_next h
    (fun s h => State.withRegs_next h fun s h => I.next_ite h (I.next_ite h
      (State.pushing_next h fun s h => State.transfer_holds (State.viewed_holds h))))
    fun s h => State.popping_next h fun x s h => ?_
  split
  · exact State.transfer_holds h
  · exact h
theorem execRotset_keeps {m n} : I.keeps (execRotset m n) := by
  intro s h
  unfold execRotset
  exact State.mulWord_next h (fun _ ht => ht) fun _ ht => ht
theorem execSync_keeps {m} : I.keeps (execSync m) := by
  intro s h
  unfold execSync
  exact State.mulWord_next h (fun _ h => I.next_ite h h) fun _ h => I.next_ite h h
theorem execSyncRetire_keeps {m} : I.keeps (execSyncRetire m) := by
  intro s h
  unfold execSyncRetire
  exact State.mulWord_next h (fun _ h => I.next_ite h h) fun _ h => I.next_ite h h
theorem execMode_keeps {x} : I.keeps (execMode x) := by
  intro s h
  unfold execMode
  exact I.next_ite (I.next_ite h h) (I.next_ite (I.next_ite h h) h)

end Sys2Proof.Machine
end

section
/-!
The words of MAT, of the copy engines, of FAB, of the almanac and of streams: each answers a next state that keeps every such property of the
bytes.
-/
namespace Sys2Proof.Machine

variable {I : ByteInv} {s : State}

/-! ### MAT (13 R220 to R239) -/

theorem execMma_keeps {c bk da db ks ecl clr rls tl} : I.keeps (execMma c bk da db ks ecl clr rls tl) := by
  intro s h
  unfold execMma
  refine State.matWord_next h fun s h => State.withNant_next h fun nant s h => ?_
  split
  · exact h
  · exact State.withFoot_next h fun _ ht => ht
theorem execMclr_keeps {bk tl} : I.keeps (execMclr bk tl) := fun _ h => State.matWord_next h fun _ ht => ht
theorem execMoutTile_keeps {bk t4 epi clr bias scale bf tl} : I.keeps (execMoutTile bk t4 epi clr bias scale bf tl) := by
  intro s h
  unfold execMoutTile
  exact State.matWord_next h fun _ h => State.withPaths_next h fun _ h => State.withoutHazard_next h fun _ h =>
    State.withNant_next h fun _ _ h => State.withBanks_next h fun _ h => State.withPop_next h fun _ _ ht => ht
theorem execMoutHandle_keeps {bk ho epi clr bias scale tl} : I.keeps (execMoutHandle bk ho epi clr bias scale tl) := by
  intro s h
  unfold execMoutHandle
  exact State.withHO_next h fun _ _ h => I.next_ite h (I.next_ite h (State.withAwait_next h fun _ h => State.withDest_next h fun _ _ h =>
    State.matWord_next h fun _ h => State.withPaths_next h fun _ h => State.withTurn_next h fun _ h => State.withoutHazard_next h fun _ h =>
    State.withNant_next h fun _ _ h => State.withBanks_next h fun _ h => State.withPop_next h fun _ _ ht => ht))
theorem execMgate_keeps {bs bd aa ab cmp bias tl} : I.keeps (execMgate bs bd aa ab cmp bias tl) := by
  intro s h
  unfold execMgate
  exact State.matWord_next h fun _ h => State.withNant_next h fun _ _ h => State.withBanks_next h fun _ h =>
    State.withPop_next h fun _ _ ht => ht
theorem execMscan_keeps {bk n bc kc reset tl} : I.keeps (execMscan bk n bc kc reset tl) := by
  intro s h
  unfold execMscan
  exact State.matWord_next h fun _ h => State.withNant_next h fun _ _ h => State.withBanks_next h fun _ h =>
    State.withPop_next h fun _ _ ht => ht
theorem execMcarryZ_keeps {bk tl} : I.keeps (execMcarryZ bk tl) := fun _ h => State.matWord_next h fun _ ht => ht
theorem execMcarryLd_keeps {bk bx row tl} : I.keeps (execMcarryLd bk bx row tl) := by
  intro s h
  unfold execMcarryLd
  exact State.matWord_next h fun _ h => State.withBanks_next h fun _ ht => ht
theorem execMcarrySt_keeps {bk bx row tl} : I.keeps (execMcarrySt bk bx row tl) := by
  intro s h
  unfold execMcarrySt
  exact State.matWord_next h fun _ h => State.withNant_next h fun _ _ h => State.withBanks_next h fun _ ht => ht
theorem execDclaim_keeps {da n tl} : I.keeps (execDclaim da n tl) := by
  intro s h
  unfold execDclaim
  refine State.matWord_next h fun s h => ?_
  split <;> exact h
theorem execDrel_keeps {da n tl} : I.keeps (execDrel da n tl) := by
  intro s h
  unfold execDrel
  refine State.matWord_next h fun s h => ?_
  dsimp only
  split <;> exact h
theorem execDqry_keeps {ho tl} : I.keeps (execDqry ho tl) := by
  intro s h
  unfold execDqry
  exact State.withHO_next h fun _ _ h => I.next_ite h (I.next_ite h (State.withAwait_next h fun _ h => State.withDest_next h fun _ _ h =>
    State.matWord_next h fun _ h => State.withPaths_next h fun _ h => State.withoutHazard_next h fun _ h =>
    State.withFoot_next h fun _ ht => ht))

/-! ### Copies (09 R171 to R193) -/

theorem State.copyWord_next {e i tl hs hd f} (h : I.holds s.bytes) : I.next (s.copyWord e i tl hs hd f) := by
  refine I.next_ite (I.next_ite h h) (I.next_ite h (State.withAwait_next h fun s h => ?_))
  split
  · exact h
  · exact I.next_ite h h
theorem execCpyf_keeps {sl hs hd cnt ch tl} : I.keeps (execCpyf sl hs hd cnt ch tl) := by
  intro s h
  unfold execCpyf
  split
  · exact h
  · exact State.copyWord_next h

/-! ### FAB (15 R254 to R260) -/

theorem execFcfg_keeps {r tl} : I.keeps (execFcfg r tl) := by
  intro s h
  unfold execFcfg
  refine State.fabWord_next h fun _ h => State.withHO_next h fun _ _ h => I.next_ite h (State.withAligned_next h fun _ h =>
    State.withAwait_next h fun s h => ?_)
  split
  · exact h
  · split
    · exact h
    · exact State.fabQueue_next h
theorem State.bindPort_next {i r p c n tl} (h : I.holds s.bytes) : I.next (s.bindPort i r p c n tl) := by
  refine State.fabWord_next h fun _ h => State.withHO_next h fun _ _ h => I.next_ite h (State.withAligned_next h fun _ h =>
    State.withAwait_next h fun s h => ?_)
  split
  · exact h
  · dsimp only
    split
    · exact h
    · split
      · exact h
      · exact State.fabQueue_next h
theorem execFgo_keeps {n tl} : I.keeps (execFgo n tl) := by
  intro s h
  unfold execFgo
  exact State.fabWord_next h fun _ h => I.next_ite h (State.withAwait_next h fun _ h => State.fabQueue_next h)
theorem State.endPhase_next {i r bad tl} (h : I.holds s.bytes) : I.next (s.endPhase i r bad tl) := by
  unfold State.endPhase
  refine State.fabWord_next h fun s h => ?_
  split
  · exact I.next_ite h (State.withAwait_next h fun _ h => State.fabQueue_next h)
  · refine State.withHO_next h fun _ _ h => I.next_ite h (State.withAligned_next h fun _ h => State.withAwait_next h fun s h => ?_)
    split
    · exact h
    · split
      · exact h
      · exact State.fabQueue_next h

/-! ### Open axes and the almanac (16 R266 to R275) -/

theorem execRopen_keeps {r} : I.keeps (execRopen r) := by
  intro s h
  unfold execRopen
  exact State.withOpen_next h fun _ _ h => I.next_ite h (I.next_ite h h)
theorem execRslice_keeps {r o} : I.keeps (execRslice r o) := by
  intro s h
  unfold execRslice
  refine State.withRegs_next h fun _ h => State.withOpen_next h fun v s h => ?_
  dsimp only
  split
  · exact h
  · exact I.next_ite h (I.next_ite (I.holds_ite h h) (I.next_ite h (State.withDrained_next h fun _ h => I.next_ite h h)))
theorem execRclose_keeps {r} : I.keeps (execRclose r) := by
  intro s h
  unfold execRclose
  refine State.withOpen_next h fun _ s h => ?_
  split <;> exact h
theorem execInst_keeps {d ha hb o q p out c} : I.keeps (execInst d ha hb o q p out c) := by
  intro s h
  unfold execInst
  refine State.withRegs_next h fun s h => I.next_ite h ?_
  split
  · exact h
  · refine I.next_ite h ?_
    split
    · exact h
    · simpa using h
theorem execRvk_keeps {o} : I.keeps (execRvk o) := by
  intro s h
  unfold execRvk
  exact State.withRegs_next h fun _ h => State.withRule_next h fun _ _ _ ht => ht
theorem execRvkat_keeps {a o} : I.keeps (execRvkat a o) := by
  intro s h
  unfold execRvkat
  exact State.withRegs_next h fun _ h => State.withRule_next h fun _ _ _ ht => ht
theorem execRres_keeps {o} : I.keeps (execRres o) := by
  intro s h
  unfold execRres
  exact State.withRegs_next h fun _ h => State.withRule_next h fun _ _ _ h => I.next_ite h h
theorem execRqryRule_keeps {d o} : I.keeps (execRqryRule d o) := by
  intro s h
  unfold execRqryRule
  exact State.withRegs_next h fun _ h => State.withId_next h fun _ _ h => State.withGood_next h fun _ h => State.putS_next h
theorem execRqryRec_keeps {d o} : I.keeps (execRqryRec d o) := by
  intro s h
  unfold execRqryRec
  exact State.withRegs_next h fun _ h => State.withId_next h fun _ _ h => State.withGood_next h fun _ h => State.putS_next h
theorem execRqryCur_keeps {d o} : I.keeps (execRqryCur d o) := by
  intro s h
  unfold execRqryCur
  exact State.withRegs_next h fun _ h => State.withId_next h fun _ _ h => State.withGood_next h fun _ h => State.putS_next h

/-! ### Streams (18 R287 to R307; 19 R309 to R311) -/

theorem execSnew_keeps {ha hb o} : I.keeps (execSnew ha hb o) := by
  intro s h
  unfold execSnew
  refine State.withRegs_next h fun s h => ?_
  dsimp only
  split
  · exact h
  · exact I.next_ite h (I.next_ite h (I.next_ite h h))
/-- The bytes a send debits and bridges. -/
theorem State.sent_bytes {c d : Prop} [Decidable c] [Decidable d] (n : Nat) :
    (if d then (if c then s.linkDebit n else s).bridgeSt else if c then s.linkDebit n else s).bytes = s.bytes := by
  split_ifs <;> rfl
theorem execSsend_keeps {nb d r a o rel} : I.keeps (execSsend nb d r a o rel) := by
  intro s h
  unfold execSsend
  refine State.withRegs_next h fun _ h => State.withStream_next h fun _ h => State.withEnd_next h fun x _ _ h => State.withItems_next h
    fun k _ h => State.withItemBytes_next h fun off _ h => I.next_ite h (State.withDrained_next h fun s h => ?_)
  refine I.next_ite (State.putS_next h) (I.next_ite h (I.next_ite (I.next_ite (State.putS_next h) h) (I.next_ite h (I.next_ite h
    (State.putS_next ?_)))))
  rw [foldl_bytes (by simp), State.sent_bytes]
  exact h
theorem State.moveEnd_next {d rb x m e rel} (h : I.holds s.bytes) : I.next (s.moveEnd d rb x m e rel) := by
  unfold State.moveEnd
  dsimp only
  split_ifs <;> simpa using h
theorem execSsendh_keeps {nb d ra rb rel} : I.keeps (execSsendh nb d ra rb rel) := by
  intro s h
  unfold execSsendh
  refine State.withRegs_next h fun _ h => State.withSt_next h fun _ h => State.withEnd_next h fun x _ _ h => State.withEnd_next h
    fun m e s h => I.next_ite h (I.next_ite h (I.next_ite h (I.next_choice (State.withDrained_next h) (fun hk => hk _ h) fun s h => ?_)))
  have turned (t : State) (ht : I.holds t.bytes) : I.next (if nb then .next (t.putS d (streamResult 6 0))
      else if m.mine then (t.mapHome m fun x => { x with asks := (e, t.cnum) :: x.asks.filter fun a => a.1 != e }).waitEnd m (!e)
      else t.waitEnd m (!e)) := I.next_ite (State.putS_next ht) (I.next_ite ht ht)
  refine I.next_ite (State.putS_next (by simpa using h)) (I.next_ite h (I.next_ite (I.next_ite (State.putS_next (by simpa using h)) h)
    (I.next_ite h (I.next_ite (turned s h) (I.next_ite (State.moveEnd_next h) (I.next_ite (turned s h) (State.askStream_next h
      fun bs t ht => I.next_ite ht (turned t ht))))))))
theorem execSrecv_keeps {nb d r a o acq} : I.keeps (execSrecv nb d r a o acq) := by
  intro s h
  unfold execSrecv
  refine State.withRegs_next h fun _ h => State.withStream_next h fun _ h => State.withRecv_next h fun x _ h => State.withItems_next h
    fun k _ h => State.withItemBytes_next h fun off s h => I.next_ite (I.next_ite (State.putS_next h) h) (State.putS_next ?_)
  simp only [State.freeHomes_bytes, State.acquireItems_bytes, State.mapHome_bytes]
  rw [foldl_bytes (by simp)]
  exact h
theorem execSrecvh_keeps {nb d ra rb acq} : I.keeps (execSrecvh nb d ra rb acq) := by
  intro s h
  unfold execSrecvh
  refine State.withRegs_next h fun _ h => State.withSt_next h fun _ h => State.withRecv_next h fun x s h => ?_
  split
  · exact I.next_ite (State.putS_next h) (I.next_ite (State.putS_next h) h)
  · split
    · exact State.putS_next h
    · refine I.next_ite h ?_
      dsimp only
      split <;> simpa using h
theorem execSbind_keeps {ra rb o} : I.keeps (execSbind ra rb o) := by
  intro s h
  unfold execSbind
  refine State.withRegs_next h fun _ h => State.withEnd_next h fun x _ s h => I.next_ite h (I.next_ite h (I.next_ite h (I.next_ite h ?_)))
  split
  · exact h
  · refine I.next_ite h (I.next_ite h ?_)
    split
    · exact h
    · split <;> exact h
theorem execSbindOff_keeps {r} : I.keeps (execSbindOff r) := by
  intro s h
  unfold execSbindOff
  refine State.withEnd_next h fun x _ s h => ?_
  split <;> exact h
theorem execSclose_keeps {r} : I.keeps (execSclose r) := by
  intro s h
  unfold execSclose
  exact State.withSt_next h fun _ h => State.withEnd_next h fun x _ s h => by simpa using h
theorem execSdrop_keeps {r} : I.keeps (execSdrop r) := by
  intro s h
  unfold execSdrop
  refine State.withSt_next h fun _ h => State.withEnd_next h fun x e s h => ?_
  split
  · exact h
  · simpa using h
theorem execSstat_keeps {d r} : I.keeps (execSstat d r) := by
  intro s h
  unfold execSstat
  refine State.withRegs_next h fun _ h => State.withEnd_next h fun x e s h => ?_
  have last (held : Nat) (t : State) (ht : I.holds t.bytes) : I.next (if x.mine then
        .next (t.putS d (BitVec.ofNat 64 (x.map e x.st.toNat x.moving.isSome (x.way e) x.repair held)))
      else t.askStream x.sid x.hrank x.hrank (.stat e) fun bs t => .next (t.putS d (BitVec.ofNat 64
        (x.map e ((bs.getD 0 0).toNat % 4) ((bs.getD 1 0).toNat == 1) ((bs.getD 2 0).toNat == 1) (bs.getD 3 0).toNat held)))) :=
    I.next_ite (State.putS_next ht) (State.askStream_next ht fun _ _ hu => State.putS_next hu)
  dsimp only
  split
  · exact last _ s h
  · exact State.askStream_next h fun bs t ht => last _ _ ht
  · exact last _ s h

end Sys2Proof.Machine
end

section
/-!
The machine's own updates beside the words: each keeps every such property of the bytes.
-/
namespace Sys2Proof.Machine

variable {I : ByteInv} {s : State}

/-! ### MAT, copies, FAB, rules and bindings at work -/

@[simp] theorem State.matFault_holds {f m b} (h : I.holds s.bytes) : I.holds (s.matFault f m b).bytes := by
  have commit (p : Option Path) (bk : BankNo) (l : List W32) : I.holds (State.applyEff p s (.bank bk [(0, l)])).bytes := State.applyEff_holds _ _ h
  unfold State.matFault
  dsimp only
  split
  · exact h
  · simp only [State.mapCore_bytes, State.setFlight_bytes]
    split
    · exact I.holds_ite h (commit _ _ _)
    · exact State.applyEffs_holds _ _ h
@[simp] theorem State.sendStep_holds {e q k bs done} (h : I.holds s.bytes) : I.holds (s.sendStep e q k bs done).bytes := by
  unfold State.sendStep
  split
  · exact h
  · dsimp only
    split
    · simp [h]
    · exact State.askEngine_holds h (fun _ _ _ ht => ht) (fun _ ht => by simpa using ht) fun _ ht => ht
@[simp] theorem State.putStep_holds {e q k bs} (h : I.holds s.bytes) : I.holds (s.putStep e q k bs).bytes :=
  I.holds_ite h (State.sendStep_holds h)
@[simp] theorem State.readStep_holds {e q} (h : I.holds s.bytes) : I.holds (s.readStep e q).bytes := by
  unfold State.readStep
  dsimp only
  refine I.holds_ite h (I.holds_ite h (I.holds_ite h ?_))
  split
  · exact State.putStep_holds h
  · split
    · simpa using h
    · split
      · exact State.putStep_holds h
      · exact State.askEngine_holds h (fun _ _ _ ht => ht) (fun _ ht => by simpa using ht) fun _ ht => ht
theorem State.bumpCounter_holds {e q} {k : State → State} (h : I.holds s.bytes) (hk : ∀ t, I.holds t.bytes → I.holds (k t).bytes) :
    I.holds (s.bumpCounter e q k).bytes := by
  unfold State.bumpCounter
  split
  · dsimp only
    split
    · exact State.askEngine_holds h (fun _ _ t ht => hk t ht) (fun _ ht => by simpa using ht) fun _ ht => ht
    · refine I.holds_ite (by simpa using h) (I.holds_ite h (hk _ ?_))
      simp [h]
  · exact hk _ h
theorem State.askFab_holds {p r n m} {done : List Byte → State → State} {refused : State → State} (h : I.holds s.bytes)
    (hd : ∀ bs t, I.holds t.bytes → I.holds (done bs t).bytes) (hr : ∀ t, I.holds t.bytes → I.holds (refused t).bytes) :
    I.holds (s.askFab p r n m done refused).bytes := by
  have ask (t : State) (ht : I.holds t.bytes) : I.holds (t.askEngine .fab r n m (fun bs _ s => done bs s) refused id).bytes :=
    State.askEngine_holds ht (fun bs _ t ht => hd bs t ht) hr fun _ ht => ht
  unfold State.askFab
  split
  · exact ask _ h
  · exact I.holds_ite (ask s h) h
theorem State.unitRecord_holds {q outs} {k : State → State} (h : I.holds s.bytes) (hk : ∀ t, I.holds t.bytes → I.holds (k t).bytes) :
    I.holds (s.unitRecord q outs k).bytes := by
  unfold State.unitRecord
  split
  · exact hk _ h
  · refine I.holds_ite h ?_
    split
    · exact hk _ (by simp [h])
    · exact State.askFab_holds h (fun _ _ ht => ht) fun _ ht => ht
theorem State.unitRead_holds {q o} {k : List Byte → State → State} (h : I.holds s.bytes)
    (hk : ∀ bs t, I.holds t.bytes → I.holds (k bs t).bytes) : I.holds (s.unitRead q o k).bytes := by
  unfold State.unitRead
  refine I.holds_ite h ?_
  split
  · exact h
  · split
    · exact hk _ _ h
    · exact State.askFab_holds h (fun _ _ ht => ht) fun _ ht => ht
@[simp] theorem State.unitStep_holds {q} (h : I.holds s.bytes) : I.holds (s.unitStep q).bytes := by
  have finish (outs : List OutPort) : I.holds (s.unitRecord q outs fun s =>
      ((s.mapCore fun c => (c.fabric.phase.map c.endPhase).getD c).mapFab fun b => { b with endRec := none }).unitDone q).bytes :=
    State.unitRecord_holds h fun _ ht => by simpa using ht
  unfold State.unitStep
  dsimp only
  split
  · split
    · refine State.unitRead_holds h fun bs t ht => ?_
      split <;> simpa using ht
    · exact h
  · split
    · simpa using h
    · rename_i hs
      simpa [State.startPhase_bytes hs] using h
  case h_3 | h_4 => exact finish _
  case h_5 | h_6 =>
    refine I.holds_ite (by simpa using h) ?_
    split
    · exact I.holds_ite (finish _) (by simpa using h)
    · exact finish _
  case h_7 => simpa using h
theorem State.askInst_holds {id r rank n m f} {done : List Byte → State → State} (h : I.holds s.bytes)
    (hd : ∀ bs t, I.holds t.bytes → I.holds (done bs t).bytes) : I.holds (s.askInst id r rank n m f done).bytes :=
  I.holds_ite h
    (State.askEngine_holds h (fun bs _ _ ht => hd bs _ ht) (fun _ ht => ht) fun _ ht => ht)
@[simp] theorem State.vecRun_holds {id r v o far} (h : I.holds s.bytes) : I.holds (s.vecRun id r v o far).bytes := by
  unfold State.vecRun
  refine I.holds_ite h ?_
  split
  · exact h
  · have staged (a : Nat) (bs : List Byte) : I.holds ((s.memDebit (devBytes o s.cnum 0 o.count)).writeSpad a bs).bytes := State.writeSpad_holds a bs h
    dsimp only
    split
    · exact staged _ _
    · exact h
    · split <;> exact staged _ _
@[simp] theorem State.vecStage_holds {id r n} (h : I.holds s.bytes) : I.holds (s.vecStage id r n).bytes := by
  unfold State.vecStage
  split
  · dsimp only
    split
    · exact State.vecRun_holds h
    · exact State.askInst_holds h fun _ _ ht => ht
  · exact h
@[simp] theorem State.vecInst_holds {id r} (h : I.holds s.bytes) : I.holds (s.vecInst id r).bytes := by
  unfold State.vecInst
  split
  · exact h
  · refine I.holds_ite h ?_
    dsimp only
    split
    · exact h
    · exact State.vecStage_holds h
@[simp] theorem State.matInst_bytes (s : State) (id : Nat) (r : Rule) : (s.matInst id r).bytes = s.bytes := by
  unfold State.matInst
  refine ite_of (P := fun t => State.bytes t = s.bytes) rfl ?_
  dsimp only
  split
  · rfl
  · rfl
  · rfl
  · split
    · rfl
    · rename_i ho
      exact (State.openFoot_bytes ho :)
@[simp] theorem State.copyInst_bytes (s : State) (e : CopyEng) (id : Nat) (r : Rule) : (s.copyInst e id r).bytes = s.bytes := by
  unfold State.copyInst
  refine ite_of (P := fun t => State.bytes t = s.bytes) rfl ?_
  dsimp only
  split <;> rfl
@[simp] theorem State.fabInst_bytes (s : State) (id : Nat) (r : Rule) : (s.fabInst id r).bytes = s.bytes := by
  unfold State.fabInst
  dsimp only
  split
  · rfl
  · split
    · rfl
    · rename_i hs
      exact (State.startPhase_bytes hs :)
@[simp] theorem State.matCommit_holds {f} (h : I.holds s.bytes) : I.holds (s.matCommit f).bytes :=
  State.applyEffs_holds (s := s.mapCore _) _ f.effs h
@[simp] theorem State.vecCommit_holds {id r n t} (h : I.holds s.bytes) : I.holds (s.vecCommit id r n t).bytes := by
  have fin (bs : List Byte) (u : State) (hu : I.holds u.bytes) : I.holds ((match r.carry with
      | some k => u.writeSpad (slotKey u.cnum k) bs
      | none => u).mapCore fun c => c.endInst id r n.slice).bytes := by
    split
    · exact State.writeSpad_holds _ _ hu
    · exact hu
  unfold State.vecCommit
  dsimp only
  split
  · exact fin _ _ h
  · split
    · exact I.holds_ite (fin _ _ (by simp [h])) h
    · exact State.askInst_holds h fun _ _ ht => ht
@[simp] theorem State.copyCommit_holds {e id r n} (h : I.holds s.bytes) : I.holds (s.copyCommit e id r n).bytes := by
  unfold State.copyCommit
  split
  · exact h
  · refine I.holds_ite h ?_
    split
    · exact h
    · refine State.bumpCounter_holds h fun t ht => ?_
      dsimp only
      split <;> split <;> simp [ht]
@[simp] theorem State.bindWrite_holds {x b n} (h : I.holds s.bytes) : I.holds (s.bindWrite x b n).bytes := by
  unfold State.bindWrite
  extract_lets src o es bs m
  split
  · refine I.holds_ite h ?_
    have written : I.holds ((s.memDebit m).scatterStep .st o 0 bs).bytes := by simp [h]
    exact written
  · refine I.holds_ite h (State.askEngine_holds h ?_ ?_ ?_)
    · intro _ _ t ht
      simpa using ht
    · intro t ht
      simpa using ht
    · intro t ht
      simpa using ht

/-! ### Queues, contexts, the host and the links -/

@[simp] theorem State.writeCompletion_holds {q t l a b c o} (h : I.holds s.bytes) : I.holds (s.writeCompletion q t l a b c o).bytes := by
  unfold State.writeCompletion
  extract_lets bs s1 iv
  have written : I.holds s1.bytes := by
    dsimp only [s1]
    split <;> simp [h]
  split_ifs
  · exact written
  · split <;> exact written
@[simp] theorem State.popHead_holds {q p} (h : I.holds s.bytes) : I.holds (s.popHead q p).bytes := State.writePhys_holds _ _ _ h
@[simp] theorem State.rejectHead_holds {q l r b} (h : I.holds s.bytes) : I.holds (s.rejectHead q l r b).bytes := by
  unfold State.rejectHead
  dsimp only
  split <;> simp [h]
@[simp] theorem State.settleQueue_holds {q n} (h : I.holds s.bytes) : I.holds (s.settleQueue q n).bytes := by
  induction n generalizing s with
  | zero => exact h
  | succ n ih =>
    unfold State.settleQueue
    dsimp only
    split
    · split
      · exact ih (State.popHead_holds h)
      · split
        · exact ih (State.rejectHead_holds h)
        · exact h
    · exact h
@[simp] theorem State.endCtx_holds {x a b o} (h : I.holds s.bytes) : I.holds (s.endCtx x a b o).bytes := by
  unfold State.endCtx
  extract_lets s1 s2 s3 s4
  have hs1 : I.holds s1.bytes := I.foldl_holds (fun t c ht => by simpa using ht) _ h
  have hs2 : I.holds s2.bytes := I.foldl_holds (fun t v ht => by simpa using ht) _ hs1
  have hs4 : I.holds s4.bytes := State.writeCompletion_holds hs2
  split
  · exact I.holds_ite (State.settleQueue_holds (State.popHead_holds hs4)) hs4
  · exact hs4
@[simp] theorem State.finishStop_holds {x} (h : I.holds s.bytes) : I.holds (s.finishStop x).bytes := by
  unfold State.finishStop
  split
  · exact State.endCtx_holds h
  · exact State.endCtx_holds h
  · exact h
@[simp] theorem State.stopCtx_holds {id w} (h : I.holds s.bytes) : I.holds (s.stopCtx id w).bytes := by
  unfold State.stopCtx
  split
  · exact h
  · dsimp only
    split
    · exact h
    · exact h
    · exact State.finishStop_holds h
    · exact h
@[simp] theorem State.freeCore_holds {n} (h : I.holds s.bytes) : I.holds (s.freeCore n).bytes := by
  have hc := s.setCoreAt_bytes n { Core.reset with bad := (s.coreAt n).bad } ▸ h
  exact ⟨hc.1, I.clear _ _ _ hc.2⟩
@[simp] theorem State.preload_holds {x g n} (h : I.holds s.bytes) : I.holds (s.preload x g n).bytes := by
  refine I.foldl_holds (fun t e ht => ?_) _ h
  refine I.holds_ite ht ?_
  split
  · exact State.writeSpad_holds _ _ ht
  · exact ht
@[simp] theorem State.memImages_holds {x} (h : I.holds s.bytes) : I.holds (s.memImages x).bytes := by
  refine I.foldl_holds (fun t e ht => ?_) _ h
  refine I.holds_ite ht ?_
  split
  · cases hw : t.writeVirt x.tenant (t.ownIn x.launch) _ _ with
    | none => exact ht
    | some u => exact State.writeVirt_holds ht hw
  · exact ht
@[simp] theorem State.placeGang_holds {x gs cs} (h : I.holds s.bytes) : I.holds (s.placeGang x gs cs).bytes :=
  I.foldl_holds (fun t p ht => by simp [ht]) _ h
@[simp] theorem State.admitNext_holds {x cs} (h : I.holds s.bytes) : I.holds (s.admitNext x cs).bytes := by
  unfold State.admitNext
  extract_lets x1 s1 s2
  have placed : I.holds s1.bytes := State.placeGang_holds h
  have left : I.holds s2.bytes := I.holds_ite (State.settleQueue_holds (State.popHead_holds placed)) placed
  exact I.holds_ite (by simpa using left) left
@[simp] theorem State.writeSave_holds {x a k} (h : I.holds s.bytes) : I.holds (s.writeSave x a k).bytes := by
  unfold State.writeSave
  refine State.writePhys_holds _ _ _ (I.foldl_holds (fun t y ht => ?_) _ h)
  exact I.foldl_holds (fun _ _ => State.writePhys_holds _ _ _) _ ht
@[simp] theorem State.putBack_holds {x v n b k} (h : I.holds s.bytes) : I.holds (s.putBack x v n b k).bytes := by
  unfold State.putBack
  refine I.foldl_holds (fun t i ht => ?_) _ (by simp [h])
  exact ⟨ht.1, I.write _ _ _ ht.2⟩
theorem State.moduleReset_holds {b} : I.holds (s.moduleReset b).bytes := ⟨I.nil, I.nil⟩
@[simp] theorem State.attest_holds {p a} (h : I.holds s.bytes) : I.holds (s.attest p a).bytes := by
  unfold State.attest
  dsimp only
  split <;> simp [h]
@[simp] theorem State.writeCtxcmd_holds {v} (h : I.holds s.bytes) : I.holds (s.writeCtxcmd v).bytes := by
  unfold State.writeCtxcmd
  dsimp only
  refine I.holds_ite h (I.holds_ite h ?_)
  split
  · exact h
  · refine I.holds_ite (I.holds_ite h (State.stopCtx_holds h)) (I.holds_ite (State.stopCtx_holds (I.holds_ite h h)) h)
@[simp] theorem State.writeLow_holds {o v} (h : I.holds s.bytes) : I.holds (s.writeLow o v).bytes := by
  unfold State.writeLow
  dsimp only
  split_ifs <;> simp [h]
@[simp] theorem State.writePage_holds {t o v r} (h : I.holds s.bytes) : I.holds (s.writePage t o v r).bytes := by
  unfold State.writePage
  split_ifs <;> simp [h]
@[simp] theorem State.regWrite_holds {r o v b} (h : I.holds s.bytes) : I.holds (s.regWrite r o v b).bytes := by
  unfold State.regWrite
  split_ifs <;> simp [h]
theorem State.serve_holds {m t} (h : I.holds s.bytes) (ht : s.serve m = some t) : I.holds t.bytes := by
  unfold State.serve at ht
  extract_lets own at ht
  cases hm : m.kind with
  | read ps =>
    rw [hm] at ht
    dsimp only at ht
    split at ht <;> obtain rfl := Option.some.inj ht <;> exact h
  | write ps rels =>
    rw [hm] at ht
    dsimp only at ht
    split at ht
    · generalize hs1 : List.foldl _ _ _ = s1 at ht
      have written : I.holds s1.bytes := by
        rw [← hs1]
        exact I.foldl_holds (fun u x hu => by simp [hu]) _ h
      obtain rfl := Option.some.inj ht
      exact I.holds_ite (by simpa using written) written
    · obtain rfl := Option.some.inj ht
      exact I.holds_ite h h
  | atomic op w g off v c rels =>
    rw [hm] at ht
    dsimp only at ht
    split at ht <;> obtain rfl := Option.some.inj ht
    · exact State.atomicAt_holds none _ _ op w g v c _ h
    · exact h
  | contribute int grp sq step last ps =>
    rw [hm] at ht
    dsimp only at ht
    split at ht
    · obtain rfl := Option.some.inj ht
      exact I.holds_ite h h
    · split at ht
      · obtain rfl := Option.some.inj ht
        exact h
      · split at ht
        · obtain rfl := Option.some.inj ht
          exact I.holds_ite h h
        · split at ht
          · obtain rfl := Option.some.inj ht
            exact h
          · generalize hs1 : List.foldl _ _ _ = s1 at ht
            have added : I.holds s1.bytes := by
              rw [← hs1]
              exact I.foldl_holds (fun u x hu => by simp [hu]) _ h
            obtain rfl := Option.some.inj ht
            rw [State.answer_bytes]
            exact I.holds_ite added added
  | _ =>
    rw [hm] at ht
    cases ht

end Sys2Proof.Machine
end

section
/-!
What the events of the core do to the bytes: the stores, flights, steps and items that land write through the rules above; every other event
moves records alone.
-/
namespace Sys2Proof.Machine
variable {I : ByteInv} {s : State}

/-! ### Loads, stores, barriers and results -/

theorem execEvLoadResultArrive_keeps {d} : I.keeps (execEvLoadResultArrive d) := by
  intro s h
  unfold execEvLoadResultArrive
  dsimp only
  split
  · exact h
  · refine I.next_ite (I.next_ite ?_ h) (I.next_ite ?_ h)
    · exact State.sampleLoad_holds _ h
    · simpa using h
theorem execEvStorePerformed_keeps : I.keeps execEvStorePerformed := by
  intro s h
  unfold execEvStorePerformed
  split
  · exact h
  · exact I.next_ite (State.performStore_holds _ h) h
theorem execEvWaitgeSatisfy_keeps : I.keeps execEvWaitgeSatisfy := by
  intro s h
  unfold execEvWaitgeSatisfy
  split
  · rename_i ht
    exact I.next_ite (State.sampleGe_next (State.standAt_bytes ht ▸ h :)) h
  · exact h
theorem execEvLoopClose_keeps {e} : I.keeps (execEvLoopClose e) := by
  intro s h
  exact I.next_ite (by simpa using h) h
theorem execEvModeDrainDone_keeps : I.keeps execEvModeDrainDone := by
  intro s h
  unfold execEvModeDrainDone
  split
  · rename_i ht
    exact I.next_ite (State.standAt_bytes ht ▸ h :) h
  · exact h
theorem execEvSeqReattach_keeps {e} : I.keeps (execEvSeqReattach e) := by
  intro s h
  unfold execEvSeqReattach
  dsimp only
  split
  · exact I.next_ite h h
  · exact h
theorem execEvResultLand_keeps {i} : I.keeps (execEvResultLand i) := by
  intro s h
  unfold execEvResultLand
  split
  · exact I.next_ite (State.land_holds _ h) h
  · exact h
theorem execEvDeferredPostEffect_keeps {i} : I.keeps (execEvDeferredPostEffect i) := by
  intro s h
  unfold execEvDeferredPostEffect
  split
  · exact h
  · exact I.next_ite h h
theorem execEvTextFetch_keeps {e} : I.keeps (execEvTextFetch e) := by
  intro s h
  unfold execEvTextFetch
  refine I.next_ite h ?_
  dsimp only
  split
  · exact h
  · split
    · exact I.next_ite h h
    · split
      · exact I.next_ite h h
      all_goals exact h
theorem execEvWaitwpComplete_keeps : I.keeps execEvWaitwpComplete := by
  intro s h
  unfold execEvWaitwpComplete
  split
  · rename_i ht
    exact I.next_ite (State.tryWaitwp_next (State.standAt_bytes ht ▸ h :)) h
  · exact h
theorem execEvAwaitSuccess_keeps {e} : I.keeps (execEvAwaitSuccess e) := by
  intro s h
  unfold execEvAwaitSuccess
  split
  · exact h
  · rename_i ht
    split
    · exact h
    · have hb := State.standAt_bytes ht
      dsimp only at hb
      exact I.next_ite h (I.next_ite (by simpa [hb] using h) (by simpa [hb] using h))
theorem execEvBarDepart_keeps : I.keeps execEvBarDepart := by
  intro s h
  unfold execEvBarDepart
  split
  · rename_i ht
    exact I.next_ite (State.standAt_bytes ht ▸ h :) h
  · rename_i ht
    exact I.next_ite (State.standAt_bytes ht ▸ h :) h
  · exact h
theorem execYield_keeps : I.keeps execYield := by
  intro s h
  unfold execYield
  dsimp only
  split
  · exact I.next_ite (State.stopCtx_holds h) h
  · exact h

/-! ### The array, the copy engines and the fabric -/

theorem execEvMatKstep_keeps : I.keeps execEvMatKstep := by
  intro s h
  unfold execEvMatKstep
  dsimp only
  split
  · exact h
  · split
    · exact h
    · split
      · refine I.next_ite h (I.next_ite h ?_)
        split
        · exact State.matFault_holds (by simpa using h)
        · split
          · exact State.applyEff_holds none _ (by simpa using h)
          · simpa using h
      · exact h
theorem execEvEpilogueTileStep_keeps : I.keeps execEvEpilogueTileStep := by
  intro s h
  unfold execEvEpilogueTileStep
  split
  · exact h
  · split
    · exact h
    · refine I.next_ite h ?_
      split
      · exact State.matFault_holds h
      · exact h
theorem execEvCopyStart_keeps {e} : I.keeps (execEvCopyStart e) := by
  intro s h
  unfold execEvCopyStart
  split
  · exact h
  · refine I.next_ite h ?_
    dsimp only
    split
    · simpa using h
    · rename_i ho
      split at ho
      · cases ho
        exact h
      · exact (State.openFoot_bytes ho ▸ h :)
theorem execEvCopyTileStep_keeps {e} : I.keeps (execEvCopyTileStep e) := by
  intro s h
  unfold execEvCopyTileStep
  split
  · exact h
  · refine I.next_ite h ?_
    split
    · exact State.sendStep_holds h
    · exact I.next_ite h (State.readStep_holds h)
theorem execEvCredApply_keeps {e} : I.keeps (execEvCredApply e) := by
  intro s h
  unfold execEvCredApply
  split
  · exact h
  · split
    · refine I.next_ite h ?_
      dsimp only
      split
      · refine I.next_ite h (State.askEngine_holds h ?_ ?_ ?_)
        · exact fun _ _ t ht => I.holds_ite ht ht
        · intro t ht
          simpa using ht
        · exact fun t ht => I.holds_ite ht ht
      · refine I.next_ite h (I.next_ite h ?_)
        split
        · simpa using h
        · exact State.credPiece_holds _ _ _ _ h
      · refine I.next_ite h ?_
        exact I.holds_ite (by simpa using h) h
    · exact h
theorem execEvFollowOnIssue_keeps : I.keeps execEvFollowOnIssue := by
  intro s h
  unfold execEvFollowOnIssue
  split
  · exact h
  · split
    · exact h
    · refine I.next_ite h ?_
      dsimp only
      split
      · exact State.matFault_holds h
      · exact State.matFault_holds h
      · rename_i ho
        exact (State.openFoot_bytes ho ▸ h :)
      · exact h
      · exact h
theorem execEvCopyRetire_keeps {e} : I.keeps (execEvCopyRetire e) := by
  intro s h
  unfold execEvCopyRetire
  split
  · exact h
  · exact I.next_ite h (State.bumpCounter_holds h fun _ ht => ht)
theorem execEvFeederToken_keeps {p} : I.keeps (execEvFeederToken p) := by
  intro s h
  unfold execEvFeederToken
  split
  · exact h
  · split
    · dsimp only
      refine I.next_ite h ?_
      split
      · exact h
      · refine I.next_ite h ?_
        split
        · simpa using h
        · split
          · simpa using h
          · refine State.askFab_holds h (fun _ _ ht => ht) fun _ ht => ?_
            simpa using ht
    · exact h
theorem execEvStripFire_keeps {i} : I.keeps (execEvStripFire i) := by
  intro s h
  unfold execEvStripFire
  split
  · exact h
  · split
    · dsimp only
      refine I.next_ite h ?_
      split
      · simpa using h
      · refine I.next_ite ?_ ?_ <;> split <;> exact h
    · exact h
theorem execEvOutputPortToken_keeps {p} : I.keeps (execEvOutputPortToken p) := by
  intro s h
  unfold execEvOutputPortToken
  split
  · exact h
  · split
    · dsimp only
      refine I.next_ite h ?_
      split
      · exact h
      · refine I.next_ite h ?_
        split
        · refine State.askFab_holds h (fun _ _ ht => ht) fun _ ht => ?_
          simpa using ht
        · rw [ByteInv.next_next, State.noteDrain_bytes, State.mapPhase_bytes, State.wrote_bytes]
          exact I.foldl_holds (fun _ _ => State.writeSpot_holds _ _ _) _ h
    · exact h
theorem execEvPhaseDrain_keeps : I.keeps execEvPhaseDrain := by
  intro s h
  unfold execEvPhaseDrain
  refine I.next_ite h ?_
  split
  · exact I.next_ite h h
  · split
    · exact h
    · exact I.next_ite (State.unitStep_holds h) h

/-! ### Rules and streams -/

theorem execEvRuleInstanceIssue_keeps {i} : I.keeps (execEvRuleInstanceIssue i) := by
  intro s h
  unfold execEvRuleInstanceIssue
  split
  · exact h
  · split
    · exact I.next_ite (State.vecStage_holds h) h
    · refine I.next_ite h ?_
      split
      · exact h
      · split <;> simp [h]
theorem execEvRuleInstanceRetire_keeps {i} : I.keeps (execEvRuleInstanceRetire i) := by
  intro s h
  unfold execEvRuleInstanceRetire
  split
  · exact h
  · split
    · exact h
    · refine I.next_ite h ?_
      split
      · exact h
      · split
        · split <;> simp [h]
        · split <;> simp [h]
        · simp [h]
        · simp [h]
        · split <;> simp [h]
theorem execEvStreamMoveGrant_keeps {k r} : I.keeps (execEvStreamMoveGrant k r) := by
  intro s h
  unfold execEvStreamMoveGrant
  split
  · exact h
  · exact I.next_ite h h
theorem execEvStreamItemArrive_keeps {k j} : I.keeps (execEvStreamItemArrive k j) := by
  intro s h
  unfold execEvStreamItemArrive
  split
  · exact h
  · split
    · exact h
    · refine I.next_ite h (I.next_ite h ?_)
      split
      · exact I.next_ite h h
      · exact I.next_ite h h
      · simpa using h
      · exact h
theorem execEvStreamSlotReturn_keeps {k} : I.keeps (execEvStreamSlotReturn k) := by
  intro s h
  unfold execEvStreamSlotReturn
  split
  · exact h
  · split
    · exact I.next_ite h h
    · exact h
    · exact h
    · exact I.holds_ite h (by simpa using h)
theorem execEvSendEndReply_keeps {k} : I.keeps (execEvSendEndReply k) := by
  intro s h
  unfold execEvSendEndReply
  split
  · exact h
  · split
    · exact I.next_ite (by simpa using h) h
    · exact h
theorem execEvWaypointForward_keeps {k} : I.keeps (execEvWaypointForward k) := by
  intro s h
  unfold execEvWaypointForward
  split
  · exact h
  · split
    · exact I.next_ite (execEvStreamSlotReturn_keeps s h) h
    · dsimp only
      split
      · exact h
      · exact I.next_ite h h
      · exact h
theorem execEvWaypointRetire_keeps {k r} : I.keeps (execEvWaypointRetire k r) := by
  intro s h
  unfold execEvWaypointRetire
  split
  · exact h
  · split
    · exact I.next_ite (by simpa using h) h
    · simpa using h
    · exact h
theorem execEvStreamLoss_keeps {k r} : I.keeps (execEvStreamLoss k r) := by
  intro s h
  unfold execEvStreamLoss
  split
  · exact h
  · split
    · exact h
    · dsimp only
      refine I.next_ite (I.next_ite (by simpa using h) h) ?_
      exact I.holds_ite (by simpa using h) (by simpa using h)
theorem execEvSbindSliceWrite_keeps {k} : I.keeps (execEvSbindSliceWrite k) := by
  intro s h
  unfold execEvSbindSliceWrite
  split
  · exact h
  · split
    · exact h
    · dsimp only
      refine I.next_ite h ?_
      split
      · exact I.holds_ite (State.bindWrite_holds h) h
      · refine I.next_ite (by simpa using h) ?_
        split
        · simpa using h
        · exact I.holds_ite (State.bindWrite_holds h) h
theorem execEvStreamCensus_keeps {k} : I.keeps (execEvStreamCensus k) := by
  intro s h
  unfold execEvStreamCensus
  split
  · exact h
  · split
    · simpa using h
    · exact h

end Sys2Proof.Machine
end

section
/-!
What the events of contexts, queues, the host and the links do to the bytes: images, save areas, completion records, reports and the accesses of
others are written through the rules above, the clearing of a core's scratchpad and the module's reset among them.
-/
namespace Sys2Proof.Machine
variable {I : ByteInv} {s : State}

/-! ### Launches, contexts and queues -/

theorem execEvLaunchRecordRead_keeps {q} : I.keeps (execEvLaunchRecordRead q) := by
  intro s h
  unfold execEvLaunchRecordRead
  dsimp only
  exact I.next_ite h (State.settleQueue_holds h)
theorem execEvQueueEnable_keeps {q} : I.keeps (execEvQueueEnable q) := by
  intro s h
  unfold execEvQueueEnable
  extract_lets e x bit en
  clear_value e x bit en
  refine I.next_ite h (I.next_ite h ?_)
  extract_lets
  exact I.next_ite h h
theorem execEvQueueGrant_keeps {q} : I.keeps (execEvQueueGrant q) := by
  intro s h
  unfold execEvQueueGrant
  dsimp only
  exact I.next_ite h (I.holds_ite h h)
theorem execEvSliceExpiry_keeps {q} : I.keeps (execEvSliceExpiry q) := by
  intro s h
  exact I.next_ite h h
theorem execEvWaitGuardExpiry_keeps {q} : I.keeps (execEvWaitGuardExpiry q) := by
  intro s h
  exact I.next_ite h h
theorem execEvPreemptRequest_keeps {x} : I.keeps (execEvPreemptRequest x) := by
  intro s h
  unfold execEvPreemptRequest
  split
  · exact h
  · refine I.next_ite h ?_
    extract_lets s1 all
    have halted : I.holds s1.bytes :=
      I.foldl_holds (fun t c ht => I.holds_ite (by simpa using ht) ht) _ h
    exact I.holds_ite (State.finishStop_holds halted) halted
theorem execEvHandlerPreemptTimeout_keeps : I.keeps execEvHandlerPreemptTimeout := by
  intro s h
  unfold execEvHandlerPreemptTimeout
  split
  · exact I.next_ite h h
  · exact h
theorem execEvQueuePreempt_keeps {w x} : I.keeps (execEvQueuePreempt w x) := by
  intro s h
  unfold execEvQueuePreempt
  split
  · exact h
  · exact I.next_ite (State.stopCtx_holds h) h
theorem execEvGangAdmit_keeps {q sl cs} : I.keeps (execEvGangAdmit q sl cs) := by
  intro s h
  unfold execEvGangAdmit
  dsimp only
  refine I.next_ite h ?_
  split
  · exact I.next_ite (State.admitNext_holds h) h
  · refine I.next_ite h (I.next_ite ?_ ?_)
    · exact State.settleQueue_holds (State.rejectHead_holds h)
    · exact State.admitNext_holds (State.memImages_holds h)
  · exact h
theorem execEvTaskEnd_keeps : I.keeps execEvTaskEnd := by
  intro s h
  unfold execEvTaskEnd
  split
  · refine I.next_ite h ?_
    extract_lets s1 s2 s3
    have left : I.holds s3.bytes := I.holds_ite (by simpa [s2, s1] using h) (by simpa [s2, s1] using h)
    split
    · exact I.holds_ite (State.endCtx_holds left) left
    · exact left
  · exact h
theorem execEvChartAbort_keeps {q} : I.keeps (execEvChartAbort q) := by
  intro s h
  unfold execEvChartAbort
  dsimp only
  split
  · split
    · rename_i ht
      exact State.endCtx_holds (State.takeLaunch_bytes ht ▸ h :)
    · exact h
  · split
    · exact h
    · split
      · exact h
      · rename_i ht
        exact State.settleQueue_holds (State.takeLaunch_bytes ht ▸ h :)
theorem execEvLaunchKillAbort_keeps {x} : I.keeps (execEvLaunchKillAbort x) := by
  intro s h
  unfold execEvLaunchKillAbort
  split
  · exact h
  · split
    · rename_i ht
      exact State.stopCtx_holds (State.takeLaunch_bytes ht ▸ h :)
    · exact h
theorem execEvEscalationStop_keeps {x c} : I.keeps (execEvEscalationStop x c) := by
  intro s h
  unfold execEvEscalationStop
  split
  · exact h
  · split
    · rename_i ht
      exact State.stopCtx_holds (State.takeLaunch_bytes ht ▸ h :)
    · exact h
theorem execEvEscalate_keeps {x} : I.keeps (execEvEscalate x) := by
  intro s h
  unfold execEvEscalate
  split
  · refine I.next_ite h ?_
    exact I.holds_ite (by simpa using State.stopCtx_holds h) (State.stopCtx_holds h)
  · exact h
theorem execEvContextSave_keeps {x} : I.keeps (execEvContextSave x) := by
  intro s h
  unfold execEvContextSave
  split
  · exact h
  · dsimp only
    refine I.next_ite h ?_
    split
    · exact h
    · refine I.next_ite (State.finishStop_holds (State.writeSave_holds h)) ?_
      exact I.foldl_holds (fun t c ht => by simpa using ht) _ (State.writeSave_holds h)
theorem execEvContextRestore_keeps {x sl cs} : I.keeps (execEvContextRestore x sl cs) := by
  intro s h
  unfold execEvContextRestore
  split
  · exact h
  · refine I.next_ite h ?_
    extract_lets e key hd s0
    have ungranted : I.holds s0.bytes := h
    clear_value hd
    split
    · exact State.endCtx_holds ungranted
    rename_i ps to' s1 x1 s2 s3 front _
    have back : I.holds s1.bytes := I.foldl_holds (fun _ _ => State.putBack_holds) _ ungranted
    have marked : I.holds s3.bytes := State.writePhys_holds _ _ _ back
    rw [ByteInv.next_next, State.focus_bytes]
    exact I.foldl_holds (fun t c ht => by simpa using ht) _ marked

/-! ### Traps, refills and resets -/

theorem execEvTrapEntry_keeps : I.keeps execEvTrapEntry := by
  intro s h
  unfold execEvTrapEntry
  split
  · exact h
  · exact I.next_ite h h
theorem execEvDeadlock_keeps : I.keeps execEvDeadlock := by
  intro s h
  exact I.next_ite h h
theorem execEvDroop_keeps : I.keeps execEvDroop := by
  intro s h
  exact I.next_ite h h
theorem execEvEnergyRefill_keeps : I.keeps execEvEnergyRefill := by
  intro s h
  unfold execEvEnergyRefill
  split
  · exact I.next_ite (I.next_ite h h) h
  · exact h
theorem execEvModuleReset_keeps {b} : I.keeps (execEvModuleReset b) :=
  fun s _ => I.holds_ite (State.moduleReset_holds (s := s) (b := b)) (State.moduleReset_holds (s := s) (b := b))

/-! ### The host and the links -/

theorem execEvHostMemAccess_keeps {r a w n rel} : I.keeps (execEvHostMemAccess r a w n rel) := by
  intro s h
  unfold execEvHostMemAccess
  dsimp only
  split
  · split
    · exact h
    · exact I.holds_ite (by simp [h]) (State.writePieces_holds _ _ h)
  · split
    · exact h
    · split
      · exact h
      · exact h
theorem execEvInvalidate_keeps {t b p} : I.keeps (execEvInvalidate t b p) := by
  intro s h
  unfold execEvInvalidate
  dsimp only
  exact I.next_ite (by simpa using h) (by simp [h])
theorem execEvKeyClear_keeps {k} : I.keeps (execEvKeyClear k) := by
  intro s h
  unfold execEvKeyClear
  dsimp only
  exact I.next_ite (by simpa using h) (by simp [h])
theorem execEvEventRead_keeps {r o} : I.keeps (execEvEventRead r o) := by
  intro s h
  unfold execEvEventRead
  exact I.next_ite h (I.holds_ite h h)
theorem execEvLinkFlitReceive_keeps {m} : I.keeps (execEvLinkFlitReceive m) := by
  intro s h
  unfold execEvLinkFlitReceive
  split
  · exact h
  · dsimp only
    split
    · simpa using h
    · simpa using h
    · rename_i sid home k _
      cases k <;> simpa using h
    · exact I.foldl_holds (fun t c ht => by simpa using ht) _ h
    · exact h
theorem execEvRemoteWindowAccess_keeps : I.keeps execEvRemoteWindowAccess := by
  intro s h
  unfold execEvRemoteWindowAccess
  split
  · exact h
  · rename_i k t hk
    obtain ⟨x, -, hx⟩ := List.exists_of_findSome?_eq_some hk
    obtain ⟨u, hu, hut⟩ := Option.map_eq_some_iff.1 hx
    cases hut
    have served := State.serve_holds h hu
    exact served
theorem execEvLinkslotRepair_keeps {k} : I.keeps (execEvLinkslotRepair k) := by
  intro s h
  unfold execEvLinkslotRepair
  split
  · exact h
  · split
    · simpa using h
    · exact h

end Sys2Proof.Machine
end

section
/-!
Every instruction answers a next state, and neither it nor a step spoils a property of byte memories that writing and clearing keep: O57 is
this for the canonical form, O54 for the property of every memory.
-/
namespace Sys2Proof.Machine
variable {I : ByteInv} {s : State}

/-! ### Every instruction -/

/-- Words and events alike, by the shared operation that gives each its meaning. -/
theorem exec_keeps (i : Instr) : I.keeps (exec i) := by
  intro s h
  cases i with
  | add | sub | mul | mulh | div | rem | and | or | xor | andn | shl | shr | sra | rotl | min | max | setc | lea =>
    rw [exec]
    exact State.alu_next h
  | clz | popc | sel | movi | mov | extr | insr | hget | srd =>
    rw [exec]
    exact State.withRegs_putS_next h
  | waitge => exact State.sampleGe_next h
  | atadd | atand | ator | atxor | atmin | atmax | atswp | atcas => exact State.atomic_next h
  | hsetb | hsetx | hsets | hsetf =>
    rw [exec]
    exact State.editH_next h
  | waitwp => exact State.tryWaitwp_next h
  | vadd | vsub | vmul | vfma | vfms | vfnma | vmin | vmax | vabs | vneg | vdiv | vdivRem | vfma16 | viadd | visub | vimul | vimulh | vimin
  | vimax | vand | vor | vxor | vshl | vshr | vsra | vcmp | vsel | vcvt | vmov | vseti | viota | vrngRaw | vrngUni | vclamp | vrot | vbcast
  | vshiftDn | vshiftUp | vrsum | vscanIncl | vscanExcl | vrmax | vrmin | vrmaxi | vrmini | vexp | vexp2 | vln | vlog2 | vrcp | vrsqrt
  | vsqrt | vtanh | vsigm | vgelu | verf | vunpk | vpack | vpkbf | vupbf => exact State.vecWord_next h
  | cpy | cred | cfil | ctier | ccnt => exact State.copyWord_next h
  | fbind | fbindC => exact State.bindPort_next h
  | fbar | fbarRec | fstop | fstopRec =>
    rw [exec]
    exact State.endPhase_next h
  | evTailWrite | evMailboxWrite | evCtxcmdPreempt | evCtxcmdKill | evKeyLoad | evKeycmdNop | evIpendClear | evAttestRequest
  | evHostRegWrite => exact State.regWrite_holds h
  | evThermalStep3 => exact State.moduleReset_holds (s := s) (b := 0)
  | fencex | hmov | hclr | trap | aset | aadd | aaddReg | ashl | aldi | mmah | evTenantBudgetRefill | evThermalStep1 | evThermalStep2
  | evThermalStepEnd => exact h
  | ld => exact execLd_keeps s h
  | st => exact execSt_keeps s h
  | ldsp => exact execLdsp_keeps s h
  | stsp => exact execStsp_keeps s h
  | mark => exact execMark_keeps s h
  | fence => exact execFence_keeps s h
  | bar => exact execBar_keeps s h
  | barPart => exact execBarPart_keeps s h
  | hld => exact execHld_keeps s h
  | hst => exact execHst_keeps s h
  | hoff => exact execHoff_keeps s h
  | tlook => exact execTlook_keeps s h
  | tset => exact execTset_keeps s h
  | tclr => exact execTclr_keeps s h
  | tclrAll =>
    rw [ByteInv.next_iff]
    obtain ⟨t, ht, hb⟩ := execTclrAll_next s
    exact ⟨t, ht, hb ▸ h⟩
  | tinfo => exact execTinfo_keeps s h
  | ropen => exact execRopen_keeps s h
  | rslice => exact execRslice_keeps s h
  | rclose => exact execRclose_keeps s h
  | inst => exact execInst_keeps s h
  | rvk => exact execRvk_keeps s h
  | rvkat => exact execRvkat_keeps s h
  | rqryRule => exact execRqryRule_keeps s h
  | rqryRec => exact execRqryRec_keeps s h
  | rqryCur => exact execRqryCur_keeps s h
  | rres => exact execRres_keeps s h
  | snew => exact execSnew_keeps s h
  | ssend => exact execSsend_keeps s h
  | srecv => exact execSrecv_keeps s h
  | ssendh => exact execSsendh_keeps s h
  | srecvh => exact execSrecvh_keeps s h
  | sbind => exact execSbind_keeps s h
  | sbindOff => exact execSbindOff_keeps s h
  | sclose => exact execSclose_keeps s h
  | sdrop => exact execSdrop_keeps s h
  | sstat => exact execSstat_keeps s h
  | swr => exact execSwr_keeps s h
  | mbxrd => exact execMbxrd_keeps s h
  | eret => exact execEret_keeps s h
  | eretSkip => exact execEretSkip_keeps s h
  | yield => exact execYield_keeps s h
  | exit => exact execExit_keeps s h
  | post e => exact execPost_keeps (e := e) s h
  | await e => exact execAwait_keeps (e := e) s h
  | postTail => exact execPostTail_keeps s h
  | awaitTail => exact execAwaitTail_keeps s h
  | ard => exact execArd_keeps s h
  | ardb => exact execArdb_keeps s h
  | mma => exact execMma_keeps s h
  | mclr => exact execMclr_keeps s h
  | moutTile => exact execMoutTile_keeps s h
  | moutHandle => exact execMoutHandle_keeps s h
  | mgate => exact execMgate_keeps s h
  | mscan => exact execMscan_keeps s h
  | mcarryZ => exact execMcarryZ_keeps s h
  | mcarryLd => exact execMcarryLd_keeps s h
  | mcarrySt => exact execMcarrySt_keeps s h
  | dclaim => exact execDclaim_keeps s h
  | drel => exact execDrel_keeps s h
  | dqry => exact execDqry_keeps s h
  | cpyf => exact execCpyf_keeps s h
  | fcfg => exact execFcfg_keeps s h
  | fgo => exact execFgo_keeps s h
  | nop => exact execNop_keeps s h
  | br => exact execBr_keeps s h
  | jmp => exact execJmp_keeps s h
  | jmpIndirect => exact execJmpIndirect_keeps s h
  | call => exact execCall_keeps s h
  | ret => exact execRet_keeps s h
  | loop => exact execLoop_keeps s h
  | brk => exact execBrk_keeps s h
  | mode => exact execMode_keeps s h
  | rotset => exact execRotset_keeps s h
  | sync => exact execSync_keeps s h
  | syncRetire => exact execSyncRetire_keeps s h
  | evLoadResultArrive => exact execEvLoadResultArrive_keeps s h
  | evWaitgeSatisfy => exact execEvWaitgeSatisfy_keeps s h
  | evBarDepart => exact execEvBarDepart_keeps s h
  | evDeferredPostEffect => exact execEvDeferredPostEffect_keeps s h
  | evAwaitSuccess => exact execEvAwaitSuccess_keeps s h
  | evWaitwpComplete => exact execEvWaitwpComplete_keeps s h
  | evResultLand => exact execEvResultLand_keeps s h
  | evMatKstep => exact execEvMatKstep_keeps s h
  | evEpilogueTileStep => exact execEvEpilogueTileStep_keeps s h
  | evCopyStart => exact execEvCopyStart_keeps s h
  | evCopyTileStep => exact execEvCopyTileStep_keeps s h
  | evCopyRetire => exact execEvCopyRetire_keeps s h
  | evCredApply => exact execEvCredApply_keeps s h
  | evFollowOnIssue => exact execEvFollowOnIssue_keeps s h
  | evFeederToken => exact execEvFeederToken_keeps s h
  | evStripFire => exact execEvStripFire_keeps s h
  | evOutputPortToken => exact execEvOutputPortToken_keeps s h
  | evPhaseDrain => exact execEvPhaseDrain_keeps s h
  | evLoopClose => exact execEvLoopClose_keeps s h
  | evModeDrainDone => exact execEvModeDrainDone_keeps s h
  | evSeqReattach => exact execEvSeqReattach_keeps s h
  | evTextFetch => exact execEvTextFetch_keeps s h
  | evRuleInstanceIssue => exact execEvRuleInstanceIssue_keeps s h
  | evRuleInstanceRetire => exact execEvRuleInstanceRetire_keeps s h
  | evStreamItemArrive => exact execEvStreamItemArrive_keeps s h
  | evStreamSlotReturn => exact execEvStreamSlotReturn_keeps s h
  | evStreamMoveGrant => exact execEvStreamMoveGrant_keeps s h
  | evSendEndReply => exact execEvSendEndReply_keeps s h
  | evWaypointForward => exact execEvWaypointForward_keeps s h
  | evWaypointRetire => exact execEvWaypointRetire_keeps s h
  | evStreamLoss => exact execEvStreamLoss_keeps s h
  | evSbindSliceWrite => exact execEvSbindSliceWrite_keeps s h
  | evStreamCensus => exact execEvStreamCensus_keeps s h
  | evLinkslotRepair => exact execEvLinkslotRepair_keeps s h
  | evLaunchRecordRead => exact execEvLaunchRecordRead_keeps s h
  | evGangAdmit => exact execEvGangAdmit_keeps s h
  | evTaskEnd => exact execEvTaskEnd_keeps s h
  | evChartAbort => exact execEvChartAbort_keeps s h
  | evLaunchKillAbort => exact execEvLaunchKillAbort_keeps s h
  | evEscalationStop => exact execEvEscalationStop_keeps s h
  | evQueueEnable => exact execEvQueueEnable_keeps s h
  | evSliceExpiry => exact execEvSliceExpiry_keeps s h
  | evWaitGuardExpiry => exact execEvWaitGuardExpiry_keeps s h
  | evQueuePreempt => exact execEvQueuePreempt_keeps s h
  | evQueueGrant => exact execEvQueueGrant_keeps s h
  | evPreemptRequest => exact execEvPreemptRequest_keeps s h
  | evHandlerPreemptTimeout => exact execEvHandlerPreemptTimeout_keeps s h
  | evContextSave => exact execEvContextSave_keeps s h
  | evContextRestore => exact execEvContextRestore_keeps s h
  | evTrapEntry => exact execEvTrapEntry_keeps s h
  | evEscalate => exact execEvEscalate_keeps s h
  | evDeadlock => exact execEvDeadlock_keeps s h
  | evDroop => exact execEvDroop_keeps s h
  | evEnergyRefill => exact execEvEnergyRefill_keeps s h
  | evModuleReset => exact execEvModuleReset_keeps s h
  | evLinkFlitReceive => exact execEvLinkFlitReceive_keeps s h
  | evRemoteWindowAccess => exact execEvRemoteWindowAccess_keeps s h
  | evHostMemAccess => exact execEvHostMemAccess_keeps s h
  | evInvalidate => exact execEvInvalidate_keeps s h
  | evKeyClear => exact execEvKeyClear_keeps s h
  | evEventRead => exact execEvEventRead_keeps s h
  | evStorePerformed => exact execEvStorePerformed_keeps s h

/-! ### Turns and steps -/

theorem State.ownWord_next {i} (h : I.holds s.bytes) : I.next (s.ownWord i) := by
  unfold State.ownWord
  split
  · exact exec_keeps _ s h
  · exact I.next_ite h h
theorem State.takeWord_next {r} (h : I.holds s.bytes) : I.next (s.takeWord r) := by
  unfold State.takeWord
  split
  · exact h
  · exact execExit_keeps s h
  · exact h
  · exact h
  · exact I.next_ite h (I.next_ite (State.ownWord_next h) h)
theorem State.wordTurn_next {e} (h : I.holds s.bytes) : I.next (s.wordTurn e) := by
  unfold State.wordTurn
  split
  · exact h
  · rename_i t i ht
    have taken : I.next (t.takeWord (.own i)) := State.takeWord_next (State.atWord_bytes ht ▸ h :)
    refine I.next_ite h (I.next_ite ?_ taken)
    split
    · rename_i u hu
      rw [hu] at taken
      exact I.next_ite taken h
    · exact h
  · rename_i ht
    exact State.takeWord_next (State.atWord_bytes ht ▸ h :)
theorem State.seqTurn_next {e} (h : I.holds s.bytes) : I.next (s.seqTurn e) := by
  unfold State.seqTurn
  refine I.next_ite h (I.next_ite ?_ (I.next_ite ?_ (State.wordTurn_next h)))
  · simpa using h
  · simpa using h
theorem State.eventTurn_next {i} (h : I.holds s.bytes) : I.next (s.eventTurn i) := by
  unfold State.eventTurn
  refine I.next_ite h (I.next_ite h ?_)
  split
  · exact I.next_ite h (exec_keeps _ s h)
  · exact I.next_ite h (exec_keeps _ s h)
  · exact exec_keeps _ s h
@[simp] theorem State.clock_holds (h : I.holds s.bytes) : I.holds s.clock.bytes := by
  unfold State.clock
  refine I.holds_ite h ?_
  dsimp only
  rw [State.closeFences_bytes]
  exact State.landDue_holds (I.holds_ite h h)
theorem State.detClock_holds (h : I.holds s.bytes) : I.holds s.detClock.bytes := by
  refine I.holds_ite ?_ h
  rw [State.focus_bytes]
  exact I.foldl_holds (fun t n ht => State.clock_holds (by simpa using ht)) _ h
theorem State.takeTurn_next {t} (h : I.holds s.bytes) : I.next (s.takeTurn t) := by
  cases t with
  | seq n e => exact I.next_ite (State.seqTurn_next h) h
  | clock n => exact I.holds_ite h (I.holds_ite (State.detClock_holds h) (State.clock_holds h))
  | event n i => exact I.next_ite h (State.eventTurn_next h)
  | softError n c a => simpa [State.takeTurn] using h

theorem step_of_noSuchCore (h : 128 ≤ turnCore s.nextTurn) : step s = .fault .noSuchCore := if_pos h
theorem step_of_core (h : turnCore s.nextTurn < 128) : step s = (s.begin s.nextTurn).takeTurn s.nextTurn := if_neg (Nat.not_le.2 h)
/-- The turn of a core that the module has. -/
theorem step_next (h : I.holds s.bytes) (hc : turnCore s.nextTurn < 128) : I.next (step s) := by
  rw [step_of_core hc]
  exact State.takeTurn_next (by simpa using h)

end Sys2Proof.Machine

namespace Sys2Proof.Machine

/-- Settles O57: a step either stops, or its turn keeps the canonical form as every writer of bytes does. -/
theorem stepKeepsMemoryCanonical : Obligations.StepKeepsMemoryCanonical := by
  intro s t hs ht
  rcases Nat.lt_or_ge (turnCore s.nextTurn) 128 with hc | hc
  · have hn := step_next ((State.canonical_iff s).1 hs) hc
    rw [ht] at hn
    exact (State.canonical_iff t).2 hn
  · rw [step_of_noSuchCore hc] at ht
    cases ht
/-- Settles O54: the same for the property that every memory has. -/
theorem noInstructionStops : Obligations.NoInstructionStops := by
  refine ⟨fun i s => ?_, fun s => ⟨fun hc => ?_, step_of_noSuchCore⟩⟩
  · obtain ⟨t, ht, -⟩ := (ByteInv.any.next_iff _).1 (exec_keeps i s (ByteInv.any_holds s))
    exact ⟨t, ht⟩
  · obtain ⟨t, ht, -⟩ := (ByteInv.any.next_iff _).1 (step_next (ByteInv.any_holds s) hc)
    exact ⟨t, ht⟩

end Sys2Proof.Machine
end

section
/-!
The cores of the module: which core a number names after an update, and what a run of updates over several cores leaves of one of them. Every
core may be held once only (`State.single`), so the core that a number names is the one listed under it.
-/
namespace Sys2Proof.Machine

/-! ### A core by its number -/

@[simp] theorem Core.reset_task : Core.reset.task = none := rfl
theorem State.coreAt_cnum (s : State) : s.coreAt s.cnum = s.core := if_pos rfl
/-- Cores are found by what stands in front and what is listed beside it. -/
theorem State.coreAt_congr {s t : State} (hc : t.core = s.core) (hn : t.cnum = s.cnum) (ho : t.others = s.others) (n : Nat) :
    t.coreAt n = s.coreAt n := by
  unfold State.coreAt
  rw [hc, hn, ho]
@[simp] theorem State.setCoreAt_cnum (s : State) (n : Nat) (c : Core) : (s.setCoreAt n c).cnum = s.cnum := by
  unfold State.setCoreAt
  split <;> rfl
@[simp] theorem State.setCoreAt_dev (s : State) (n : Nat) (c : Core) : (s.setCoreAt n c).dev = s.dev := by
  unfold State.setCoreAt
  split <;> rfl
@[simp] theorem State.setCoreAt_mem (s : State) (n : Nat) (c : Core) : (s.setCoreAt n c).mem = s.mem :=
  congrArg Prod.fst (s.setCoreAt_bytes n c)
@[simp] theorem State.setCoreAt_spad (s : State) (n : Nat) (c : Core) : (s.setCoreAt n c).spad = s.spad :=
  congrArg Prod.snd (s.setCoreAt_bytes n c)
/-- The core replaced reads as put there, every other as before. -/
theorem State.coreAt_setCoreAt (s : State) (n m : Nat) (c : Core) : (s.setCoreAt n c).coreAt m = if m = n then c else s.coreAt m := by
  by_cases hn : n = s.cnum
  · subst hn
    simp only [State.setCoreAt, if_pos, State.coreAt]
    split_ifs <;> rfl
  · by_cases hm : m = s.cnum
    · subst hm
      simp only [State.setCoreAt, if_neg hn, State.coreAt, if_pos, if_neg (Ne.symm hn)]
    · simp only [State.setCoreAt, if_neg hn, State.coreAt, if_neg hm]
      by_cases hc : c = Core.reset
      · rw [if_pos hc]
        split_ifs with h
        · rw [h, find_filter_ne _ _ _ (by simp), hc]
        · rw [find_filter_eq _ _ _ fun _ => by simpa using h]
      · rw [if_neg hc, find_put]
        split_ifs <;> rfl
@[simp] theorem State.coreAt_setCoreAt_same (s : State) (n : Nat) (c : Core) : (s.setCoreAt n c).coreAt n = c := by
  rw [State.coreAt_setCoreAt, if_pos rfl]
theorem State.coreAt_setCoreAt_ne (s : State) {n m : Nat} (c : Core) (h : m ≠ n) : (s.setCoreAt n c).coreAt m = s.coreAt m := by
  rw [State.coreAt_setCoreAt, if_neg h]
/-- A function over every core reaches the core of a number, where it leaves an unlisted core alone. -/
theorem State.coreAt_mapCores (s : State) {f : Nat → Core → Core} (n : Nat) (hf : f n Core.reset = Core.reset) :
    (s.mapCores f).coreAt n = f n (s.coreAt n) := by
  unfold State.coreAt State.mapCores
  dsimp only
  split_ifs with h
  · rw [h]
  · rw [List.find?_map]
    have hp : ((fun c : Nat × Core => c.1 == n) ∘ fun c : Nat × Core => (c.1, f c.1 c.2)) = fun c => c.1 == n := rfl
    rw [hp]
    cases hx : s.others.find? fun c => c.1 == n with
    | none => exact hf.symm
    | some c =>
      have hc : c.1 = n := by simpa using List.find?_some hx
      simp only [Option.map_some, hc]

/-! ### Every core is held once -/

/-- The core in front is not listed beside it. -/
def State.apart (s : State) : Prop := s.cnum ∉ s.others.map Prod.fst

theorem State.single.apart {s : State} (h : s.single) : s.apart := (List.nodup_cons.1 h).1
theorem State.apart_congr {s t : State} (hn : t.cnum = s.cnum) (ho : t.others = s.others) (h : s.apart) : t.apart := by
  unfold State.apart
  rw [hn, ho]
  exact h
theorem State.setCoreAt_others_key {s : State} {n m : Nat} {c : Core} (h : m ∈ (s.setCoreAt n c).others.map Prod.fst) :
    m ∈ s.others.map Prod.fst ∨ (m = n ∧ n ≠ s.cnum ∧ c ≠ Core.reset) := by
  unfold State.setCoreAt at h
  split at h
  · exact .inl h
  · rename_i hn
    dsimp only at h
    split at h
    · simp only [List.mem_map, List.mem_filter] at h
      obtain ⟨x, ⟨hx, -⟩, rfl⟩ := h
      exact .inl (List.mem_map_of_mem hx)
    · rename_i hc
      simp only [List.map_append, List.map_cons, List.mem_append, List.mem_cons, List.mem_map, List.mem_filter] at h
      rcases h with ⟨x, ⟨⟨hx, -⟩, -⟩, rfl⟩ | rfl | ⟨x, ⟨⟨hx, -⟩, -⟩, rfl⟩
      · exact .inl (List.mem_map_of_mem hx)
      · exact .inr ⟨rfl, hn, hc⟩
      · exact .inl (List.mem_map_of_mem hx)
theorem State.setCoreAt_apart {s : State} {n : Nat} {c : Core} (h : s.apart) : (s.setCoreAt n c).apart := by
  intro hm
  rw [State.setCoreAt_cnum] at hm
  rcases State.setCoreAt_others_key hm with hm | ⟨rfl, hn, -⟩
  · exact h hm
  · exact hn rfl
/-- A core put back at reset is not listed. -/
theorem State.setCoreAt_reset_others (s : State) {n : Nat} (h : n ≠ s.cnum) :
    (s.setCoreAt n Core.reset).others = s.others.filter fun x => x.1 != n := by
  simp only [State.setCoreAt, if_neg h, if_pos]
/-- Core `n` in front is the core taken out of the list, and the one that stood in front put back there. -/
theorem State.focus_eq {s : State} (h : s.apart) {n : Nat} (hn : n ≠ s.cnum) :
    s.focus n = ({ s.setCoreAt n Core.reset with core := s.coreAt n, cnum := n } : State).setCoreAt s.cnum s.core := by
  have hf : (s.others.filter fun x => x.1 != n).filter (fun x => x.1 != s.cnum) = s.others.filter fun x => x.1 != n := by
    rw [List.filter_eq_self]
    intro x hx
    simp only [bne_iff_ne]
    exact fun e => h (List.mem_map.2 ⟨x, List.mem_of_mem_filter hx, e⟩)
  simp only [State.focus, if_neg hn]
  conv_rhs => rw [State.setCoreAt, if_neg (Ne.symm hn)]
  simp only [State.setCoreAt_reset_others s hn, hf]
/-- Another core in front is the same core. -/
theorem State.coreAt_focus {s : State} (h : s.apart) (n m : Nat) : (s.focus n).coreAt m = s.coreAt m := by
  by_cases hn : n = s.cnum
  · rw [State.focus, if_pos hn]
  · rw [State.focus_eq h hn, State.coreAt_setCoreAt]
    split_ifs with hm
    · rw [hm, State.coreAt_cnum]
    · by_cases hmn : m = n
      · rw [hmn]
        exact if_pos rfl
      · rw [← State.coreAt_setCoreAt_ne s Core.reset hmn]
        simp only [State.coreAt, if_neg hmn, State.setCoreAt_cnum, if_neg hm]
theorem State.focus_apart {s : State} {n : Nat} (h : s.apart) : (s.focus n).apart := by
  by_cases hn : n = s.cnum
  · rwa [State.focus, if_pos hn]
  · rw [State.focus_eq h hn]
    refine State.setCoreAt_apart ?_
    simp [State.apart, State.setCoreAt_reset_others s hn]
@[simp] theorem State.focus_dev (s : State) (n : Nat) : (s.focus n).dev = s.dev := by
  unfold State.focus
  split
  · rfl
  · exact s.setCoreAt_dev ..

/-! ### The cores of a context -/

/-- A core that holds a task of a context is the core of its number. -/
theorem State.mem_ctxCores {s : State} (h : s.single) {id : W16} {x : Nat × Core} :
    x ∈ s.ctxCores id ↔ x.2 = s.coreAt x.1 ∧ ∃ k, x.2.task = some k ∧ k.ctx = id := by
  have hk : (x.2.task.isSome = true ∧ (x.2.task.map Task.ctx == some id) = true) ↔ ∃ k, x.2.task = some k ∧ k.ctx = id := by
    cases x.2.task <;> simp
  have hc : x.2.task.isSome = true → (x ∈ (s.cnum, s.core) :: s.others ↔ x.2 = s.coreAt x.1) := by
    intro ht
    obtain ⟨n, c⟩ := x
    rw [List.mem_cons]
    by_cases hn : n = s.cnum
    · subst hn
      rw [State.coreAt_cnum]
      refine ⟨fun hx => ?_, fun hx => .inl (by rw [← hx])⟩
      rcases hx with hx | hx
      · exact congrArg Prod.snd hx
      · exact absurd (List.mem_map_of_mem hx) h.apart
    · simp only [State.coreAt, Prod.mk.injEq, hn, false_and, false_or, if_false]
      cases hf : s.others.find? fun y => y.1 == n with
      | none =>
        dsimp only
        refine ⟨fun hx => absurd (List.find?_eq_none.1 hf _ hx) (by simp), fun e => ?_⟩
        rw [e] at ht
        cases ht
      | some y =>
        have hy : y.1 = n := by simpa using List.find?_some hf
        have hym := List.mem_of_find?_eq_some hf
        dsimp only
        refine ⟨fun hx => ?_, fun e => by rw [e, ← hy]; exact hym⟩
        have := List.inj_on_of_nodup_map (List.nodup_cons.1 h).2 hx hym hy.symm
        rw [← this]
  unfold State.ctxCores State.tasked
  rw [List.mem_filter, List.mem_filter, ← hk]
  constructor
  · rintro ⟨⟨hx, ht⟩, hi⟩
    exact ⟨(hc ht).1 hx, ht, hi⟩
  · rintro ⟨hx, ht, hi⟩
    exact ⟨⟨(hc ht).2 hx, ht⟩, hi⟩
theorem State.ctxCores_nodup {s : State} (h : s.single) (id : W16) : ((s.ctxCores id).map Prod.fst).Nodup := by
  have hs : ((s.ctxCores id).map Prod.fst).Sublist (s.cnum :: s.others.map Prod.fst) := by
    unfold State.ctxCores State.tasked
    exact ((List.filter_sublist).trans List.filter_sublist).map Prod.fst
  exact hs.nodup h

/-! ### One core among many that are updated -/

/-- A run of updates, each of one core, leaves a core that none of them is of as it was. -/
theorem foldl_coreAt_ne {α : Type} {f : State → α → State} {key : α → Nat}
    (hf : ∀ t p n, n ≠ key p → (f t p).coreAt n = t.coreAt n) {n : Nat} (l : List α) (hn : n ∉ l.map key) (s : State) :
    (l.foldl f s).coreAt n = s.coreAt n := by
  induction l generalizing s with
  | nil => rfl
  | cons p r ih =>
    rw [List.map_cons, List.mem_cons, not_or] at hn
    rw [List.foldl_cons, ih hn.2, hf _ _ _ hn.1]
/-- A run of updates of different cores leaves of each what its own update makes of it, in a state that has a property the updates keep. -/
theorem foldl_coreAt {α : Type} {P : State → Prop} {f : State → α → State} {key : α → Nat} (hP : ∀ t p, P t → P (f t p))
    (hf : ∀ t p n, n ≠ key p → (f t p).coreAt n = t.coreAt n) {l : List α} (hl : (l.map key).Nodup) {p : α} (hp : p ∈ l) {s : State}
    (hs : P s) : ∃ t, P t ∧ t.coreAt (key p) = s.coreAt (key p) ∧ (l.foldl f s).coreAt (key p) = (f t p).coreAt (key p) := by
  induction l generalizing s with
  | nil => cases hp
  | cons q r ih =>
    rw [List.map_cons, List.nodup_cons] at hl
    rw [List.foldl_cons]
    rcases List.mem_cons.1 hp with rfl | hp
    · exact ⟨s, hs, rfl, foldl_coreAt_ne hf r hl.1 _⟩
    · obtain ⟨t, ht, hts, htf⟩ := ih hl.2 hp (hP _ _ hs)
      refine ⟨t, ht, hts.trans (hf _ _ _ ?_), htf⟩
      rintro e
      exact hl.1 (e ▸ List.mem_map_of_mem hp)

end Sys2Proof.Machine
end

section
/-!
What the dispatcher's records leave as it was: the completion records, messages and queue heads that LAUNCH_RECORD_READ, GANG_ADMIT, TASK_END and
their like write change device memory and the queues, and no core, context or grant; a stream end dropped takes its binding from the cores.
-/
namespace Sys2Proof.Machine

/-! ### Updates that leave cores, contexts and the grant alone -/

/-- The cores, their scratchpad, the contexts and the grant stand as before. -/
structure SameCores (s t : State) : Prop where
  core : t.core = s.core
  cnum : t.cnum = s.cnum
  others : t.others = s.others
  spad : t.spad = s.spad
  ctxs : t.dev.ctxs = s.dev.ctxs
  granted : t.dev.granted = s.dev.granted
/-- So do the launch queues. -/
structure SameQueues (s t : State) : Prop extends SameCores s t where
  queues : t.dev.queues = s.dev.queues

theorem SameCores.refl (s : State) : SameCores s s := ⟨rfl, rfl, rfl, rfl, rfl, rfl⟩
theorem SameCores.trans {s t u : State} (h : SameCores s t) (k : SameCores t u) : SameCores s u :=
  ⟨k.core.trans h.core, k.cnum.trans h.cnum, k.others.trans h.others, k.spad.trans h.spad, k.ctxs.trans h.ctxs, k.granted.trans h.granted⟩
theorem SameCores.coreAt {s t : State} (h : SameCores s t) (n : Nat) : t.coreAt n = s.coreAt n :=
  State.coreAt_congr h.core h.cnum h.others n
theorem SameQueues.refl (s : State) : SameQueues s s := ⟨.refl s, rfl⟩
theorem SameQueues.trans {s t u : State} (h : SameQueues s t) (k : SameQueues t u) : SameQueues s u :=
  ⟨h.toSameCores.trans k.toSameCores, k.queues.trans h.queues⟩
theorem SameQueues.queue {s t : State} (h : SameQueues s t) (q : BitVec 9) : t.dev.queue q = s.dev.queue q := by
  rw [Device.queue, h.queues, Device.queue]

theorem State.writePhys_sameQueues (s : State) (key : Option (BitVec 512)) (a : Nat) (bs : List Byte) :
    SameQueues s (s.writePhys key a bs) := by
  obtain ⟨m, k, r, w, h⟩ := s.writePhys_frame key a bs
  rw [h]
  exact ⟨⟨rfl, rfl, rfl, rfl, rfl, rfl⟩, rfl⟩
theorem State.writePieces_sameQueues (s : State) (bs : List Byte) (ps : List (Nat × Option (BitVec 512) × Nat)) :
    SameQueues s (s.writePieces bs ps) := by
  induction ps generalizing s bs with
  | nil => exact .refl s
  | cons p r ih => exact (s.writePhys_sameQueues ..).trans (ih _ _)
theorem State.deviceRelease_sameQueues (s : State) (a : Nat) : SameQueues s (s.deviceRelease a) := ⟨⟨rfl, rfl, rfl, rfl, rfl, rfl⟩, rfl⟩
theorem State.tellLaunch_sameQueues (s : State) (t : BitVec 5) (l : Launch) (r : Option Nat) (m : LaunchMsg) :
    SameQueues s (s.tellLaunch t l r m) := ⟨⟨rfl, rfl, rfl, rfl, rfl, rfl⟩, rfl⟩
theorem State.raise_sameQueues (s : State) (t : BitVec 5) (v : Nat) : SameQueues s (s.mapDev fun d => d.raise t v) := by
  unfold State.mapDev Device.raise
  dsimp only
  split <;> exact ⟨⟨rfl, rfl, rfl, rfl, rfl, rfl⟩, rfl⟩
theorem State.logEvent_sameQueues (s : State) (e : W64) : SameQueues s (s.mapDev fun d => d.logEvent e) := by
  unfold State.mapDev Device.logEvent
  dsimp only
  split <;> exact ⟨⟨rfl, rfl, rfl, rfl, rfl, rfl⟩, rfl⟩
theorem State.writeCompletion_sameQueues (s : State) (q : BitVec 9) (t : BitVec 5) (l : Launch) (a b c : Nat) (o : Option Nat) :
    SameQueues s (s.writeCompletion q t l a b c o) := by
  unfold State.writeCompletion
  extract_lets bs s1 iv
  have hs1 : SameQueues s s1 := by
    dsimp only [s1]
    split
    · exact ((s.writePieces_sameQueues ..).trans (State.deviceRelease_sameQueues ..)).trans (State.deviceRelease_sameQueues ..)
    · exact ⟨⟨rfl, rfl, rfl, rfl, rfl, rfl⟩, rfl⟩
    · exact s.logEvent_sameQueues _
  split
  · exact hs1.trans (s1.raise_sameQueues ..)
  · split
    · exact hs1.trans (s1.raise_sameQueues ..)
    · exact hs1

/-! ### Heads of queues -/

/-- The device's files of a state of its sizes. -/
theorem State.sized_files {s : State} (h : s.sized = true) :
    s.dev.tenants.length = 32 ∧ s.dev.queues.length = 512 ∧ s.dev.grant.length = 4 ∧ s.dev.thermal.length = 3 := by
  simp only [State.sized, Bool.and_eq_true, beq_iff_eq] at h
  obtain ⟨⟨⟨⟨-, hten⟩, hq⟩, hg⟩, hth⟩ := h
  exact ⟨hten, hq, hg, hth⟩
theorem modAt_length {α : Type} (l : List α) (i : Nat) (f : α → α) : (modAt l i f).length = l.length := by
  induction l generalizing i with
  | nil => rfl
  | cons x r ih =>
    cases i with
    | zero => rfl
    | succ i => simp [modAt, ih]
theorem modAt_getElem? {α : Type} (l : List α) (i j : Nat) (f : α → α) : (modAt l i f)[j]? = if j = i then l[j]?.map f else l[j]? := by
  induction l generalizing i j with
  | nil => simp [modAt]
  | cons x r ih =>
    cases i with
    | zero => cases j <;> simp [modAt]
    | succ i => cases j <;> simp [modAt, ih]
/-- A queue changed reads as changed, where the table of queues is whole. -/
theorem State.queue_mapQueue {s : State} (h : s.dev.queues.length = 512) (q : BitVec 9) (f : LQueue → LQueue) :
    (s.mapQueue q f).dev.queue q = f (s.dev.queue q) := by
  have hq : q.toNat < s.dev.queues.length := by have := q.isLt; omega
  simp only [State.mapQueue, State.mapDev, Device.queue, List.getD_eq_getElem?_getD, modAt_getElem?, if_pos, List.getElem?_eq_getElem hq,
    Option.map_some, Option.getD_some]
theorem State.mapQueue_sameCores (s : State) (q : BitVec 9) (f : LQueue → LQueue) : SameCores s (s.mapQueue q f) :=
  ⟨rfl, rfl, rfl, rfl, rfl, rfl⟩
@[simp] theorem State.mapQueue_queues_length (s : State) (q : BitVec 9) (f : LQueue → LQueue) :
    (s.mapQueue q f).dev.queues.length = s.dev.queues.length := modAt_length ..
theorem State.popHead_sameCores (s : State) (q : BitVec 9) (p : Option W16) : SameCores s (s.popHead q p) :=
  (s.mapQueue_sameCores ..).trans (State.writePhys_sameQueues ..).toSameCores
/-- HEAD has moved past the record at the head (24 R352). -/
theorem State.queue_popHead {s : State} (h : s.dev.queues.length = 512) (q : BitVec 9) (p : Option W16) :
    (s.popHead q p).dev.queue q =
      { s.dev.queue q with cache := dropHead (s.dev.queue q).cache, head := (s.dev.queue q).head + 1, prev := p } :=
  ((State.writePhys_sameQueues ..).queue q).trans (State.queue_mapQueue h q _)
theorem State.rejectHead_sameCores (s : State) (q : BitVec 9) (l : Launch) (r : Nat) (b : Bool) : SameCores s (s.rejectHead q l r b) := by
  unfold State.rejectHead
  dsimp only
  have hw := (s.writeCompletion_sameQueues q (s.dev.queue q).tenant l 1 r 0 none).toSameCores
  split
  · exact (hw.trans (State.tellLaunch_sameQueues ..).toSameCores).trans (State.popHead_sameCores ..)
  · exact hw.trans (State.popHead_sameCores ..)
/-- A record rejected leaves the queue as one taken does (02 R29; 24 R352). -/
theorem State.queue_rejectHead {s : State} (h : s.dev.queues.length = 512) (q : BitVec 9) (l : Launch) (r : Nat) (b : Bool) :
    (s.rejectHead q l r b).dev.queue q =
      { s.dev.queue q with cache := dropHead (s.dev.queue q).cache, head := (s.dev.queue q).head + 1, prev := none } := by
  unfold State.rejectHead
  dsimp only
  have hw := s.writeCompletion_sameQueues q (s.dev.queue q).tenant l 1 r 0 none
  have told {t : State} (ht : SameQueues s t) : (t.popHead q none).dev.queue q =
      { s.dev.queue q with cache := dropHead (s.dev.queue q).cache, head := (s.dev.queue q).head + 1, prev := none } := by
    rw [State.queue_popHead (by rw [ht.queues, h]), ht.queue]
  split
  · exact told (hw.trans (State.tellLaunch_sameQueues ..))
  · exact told hw
theorem State.settleQueue_sameCores (s : State) (q : BitVec 9) (n : Nat) : SameCores s (s.settleQueue q n) := by
  induction n generalizing s with
  | zero => exact .refl s
  | succ n ih =>
    unfold State.settleQueue
    dsimp only
    split
    · split
      · exact (s.logEvent_sameQueues _).toSameCores.trans ((State.popHead_sameCores ..).trans (ih _))
      · split
        · exact (s.rejectHead_sameCores ..).trans (ih _)
        · exact .refl s
    · exact .refl s
/-- A queue without a record stays as it is. -/
theorem State.settleQueue_nil {s : State} {q : BitVec 9} (n : Nat) (h : (s.dev.queue q).cache = []) : s.settleQueue q n = s := by
  cases n with
  | zero => rfl
  | succ n =>
    unfold State.settleQueue
    dsimp only
    rw [h]
/-- So does one whose head record is readable and sound. -/
theorem State.settleQueue_sound {s : State} {q : BitVec 9} {l : Launch} {r : List (Launch × Option W16)} (n : Nat)
    (h : (s.dev.queue q).cache = (l, none) :: r) (hl : l.raw ≠ []) (hr : l.reject = none) : s.settleQueue q n = s := by
  cases n with
  | zero => rfl
  | succ n =>
    unfold State.settleQueue
    dsimp only
    rw [h]
    dsimp only
    rw [if_neg hl, hr]
/-- A queue's only record, unreadable or to be rejected, leaves it (02 R29; 24 R352). -/
theorem State.queue_settleQueue_bad {s : State} {q : BitVec 9} {l : Launch} (n : Nat) (hs : s.dev.queues.length = 512)
    (h : (s.dev.queue q).cache = [(l, none)]) (hl : l.raw = [] ∨ l.reject.isSome = true) :
    (s.settleQueue q (n + 1)).dev.queue q = { s.dev.queue q with cache := [], head := (s.dev.queue q).head + 1, prev := none } := by
  have gone {t : State} (ht : t.dev.queue q =
      { s.dev.queue q with cache := dropHead (s.dev.queue q).cache, head := (s.dev.queue q).head + 1, prev := none }) :
      (t.settleQueue q n).dev.queue q = { s.dev.queue q with cache := [], head := (s.dev.queue q).head + 1, prev := none } := by
    rw [h] at ht
    rw [State.settleQueue_nil n (by rw [ht]; rfl), ht]
    rfl
  unfold State.settleQueue
  dsimp only
  rw [h]
  dsimp only
  split_ifs with hraw
  · have he := s.logEvent_sameQueues (eventWord 6 (q.toNat + fld (s.dev.queue q).tenant.toNat 32))
    exact gone (by rw [State.queue_popHead (by rw [he.queues, hs]), he.queue])
  · obtain ⟨r, hr⟩ := Option.isSome_iff_exists.1 (hl.resolve_left hraw)
    rw [hr]
    exact gone (State.queue_rejectHead hs ..)

/-! ### Stream ends dropped -/

/-- Bindings alone have left the core in front, and its scratchpad is as before. -/
structure Unbinds (s t : State) : Prop where
  cnum : t.cnum = s.cnum
  spad : t.spad = s.spad
  core : ∃ p, t.core = { s.core with bindings := s.core.bindings.filter p }

theorem Unbinds.of_core {s t : State} (hn : t.cnum = s.cnum) (hs : t.spad = s.spad) (hc : t.core = s.core) : Unbinds s t :=
  ⟨hn, hs, fun _ => true, by rw [List.filter_true, hc]⟩
theorem Unbinds.refl (s : State) : Unbinds s s := .of_core rfl rfl rfl
theorem Unbinds.trans {s t u : State} (h : Unbinds s t) (k : Unbinds t u) : Unbinds s u := by
  obtain ⟨p, hp⟩ := h.core
  obtain ⟨q, hq⟩ := k.core
  refine ⟨k.cnum.trans h.cnum, k.spad.trans h.spad, fun b => q b && p b, ?_⟩
  rw [hq, hp]
  simp only [List.filter_filter]
/-- A core without bindings stays as it is. -/
theorem Unbinds.core_eq {s t : State} (h : Unbinds s t) (hb : s.core.bindings = []) : t.core = s.core := by
  obtain ⟨p, hp⟩ := h.core
  rw [hp, hb, List.filter_nil]
  rw [← hb]
/-- A core that its task leaves has no bindings, whatever it had. -/
theorem Unbinds.vacate {s t : State} (h : Unbinds s t) : t.core.vacate = s.core.vacate := by
  obtain ⟨p, hp⟩ := h.core
  rw [hp]
  rfl
theorem State.sendNote_unbinds (s : State) (n : Note) : Unbinds s (s.sendNote n) := .of_core rfl rfl rfl
theorem State.mapHome_unbinds (s : State) (h : Home) (f : Home → Home) : Unbinds s (s.mapHome h f) := .of_core rfl rfl rfl
theorem State.runNotes_unbinds (n : Nat) (ns : List Note) (s : State) : Unbinds s (s.runNotes n ns) := by
  induction n generalizing ns s with
  | zero => exact .refl s
  | succ n ih =>
    cases ns with
    | nil => exact .refl s
    | cons x r =>
      unfold State.runNotes
      split
      · exact (s.sendNote_unbinds x).trans (ih ..)
      · split
        · exact (s.mapHome_unbinds ..).trans (ih ..)
        · exact ih _ s
theorem State.tell_unbinds (s : State) (ns : List Note) : Unbinds s (s.tell ns) :=
  (State.runNotes_unbinds _ ns s).trans (.of_core rfl rfl rfl)
theorem State.dropEnd_unbinds (s : State) (x : W32 × Nat × Bool) : Unbinds s (s.dropEnd x) := by
  unfold State.dropEnd
  split
  · exact .refl s
  · rename_i h _
    split_ifs
    · exact .refl s
    · have unbound (f : Home → Home) : Unbinds s ((s.unbind h).mapHome h f) := ⟨rfl, rfl, fun b => !b.isOf h.sid h.hrank, rfl⟩
      exact (unbound _).trans (State.tell_unbinds ..)
    · exact (s.mapHome_unbinds ..).trans (State.tell_unbinds ..)
theorem State.dropTaskEnds_unbinds (s : State) (id : W16) (n : Nat) : Unbinds s (s.dropTaskEnds id n) :=
  foldl_keeps (P := Unbinds s) (fun t x h => h.trans (t.dropEnd_unbinds x)) _ (.refl s)

end Sys2Proof.Machine
end

section
/-!
O48: a gang's tasks are placed on their cores, and a task leaves its core as it is (02 R23 to R27; 24 R352, R359, R366).
-/
namespace Sys2Proof.Machine

/-! ### Placing a gang -/

/-- A core as a task of a context starts on it (02 R25, R26). -/
def Core.startedAs (c : Core) (x : Ctx) (g : Nat) : Prop :=
  (∃ k, c.task = some k ∧ k.ctx = x.id ∧ k.g = g ∧ k.tenant = x.tenant) ∧ c.seqs.ctl.pc = x.launch.num 0x14 4 * 64 ∧
    (∀ i < 8, c.s.getD (1 + i) 0 = BitVec.ofNat 64 (x.launch.num (0x80 + 8 * i) 8)) ∧ c.f = List.replicate 64 0 ∧
    c.modex = x.launch.mode 2

theorem Core.start_startedAs (c : Core) (x : Ctx) (g : Nat) : (c.start x g).startedAs x g := by
  refine ⟨⟨_, rfl, rfl, rfl, rfl⟩, rfl, fun i hi => ?_, rfl, rfl⟩
  simp only [Core.start, List.cons_append, Nat.add_comm 1 i, List.getD_cons_succ]
  rw [List.getD_append _ _ _ _ (by simpa using hi)]
  simp [hi]
/-- Neither a later release of a held gang nor anything else that sets how a core is stopped changes how its task has started. -/
theorem Core.startedAs.halted {c : Core} {x : Ctx} {g : Nat} (h : c.startedAs x g) (a : Halt) : { c with halt := a }.startedAs x g := h

theorem State.freeCore_coreAt_ne (s : State) {n m : Nat} (h : m ≠ n) : (s.freeCore n).coreAt m = s.coreAt m :=
  State.coreAt_setCoreAt_ne s _ h
theorem State.preload_keeps (s : State) (x : Ctx) (g n : Nat) :
    (s.preload x g n).core = s.core ∧ (s.preload x g n).cnum = s.cnum ∧ (s.preload x g n).others = s.others ∧
      (s.preload x g n).dev.granted = s.dev.granted ∧ (s.preload x g n).dev.ctxs = s.dev.ctxs := by
  refine foldl_keeps (P := fun t => t.core = s.core ∧ t.cnum = s.cnum ∧ t.others = s.others ∧ t.dev.granted = s.dev.granted ∧
    t.dev.ctxs = s.dev.ctxs) (fun t e ht => ?_) _ ⟨rfl, rfl, rfl, rfl, rfl⟩
  dsimp only
  split
  · exact ht
  · split
    · exact ht
    · exact ht
theorem State.preload_coreAt (s : State) (x : Ctx) (g n m : Nat) : (s.preload x g n).coreAt m = s.coreAt m := by
  obtain ⟨hc, hn, ho, -, -⟩ := s.preload_keeps x g n
  exact State.coreAt_congr hc hn ho m
theorem State.placeGang_dev (s : State) (x : Ctx) (gs cores : List Nat) :
    (s.placeGang x gs cores).dev.granted = s.dev.granted ∧ (s.placeGang x gs cores).dev.ctxs = s.dev.ctxs := by
  refine foldl_keeps (P := fun t => t.dev.granted = s.dev.granted ∧ t.dev.ctxs = s.dev.ctxs) (fun t p ht => ?_) _ ⟨rfl, rfl⟩
  obtain ⟨-, -, -, hg, hx⟩ := State.preload_keeps ((t.freeCore p.2).setCoreAt p.2 (((t.freeCore p.2).coreAt p.2).start x p.1)) x p.1 p.2
  dsimp only
  rw [hg, hx, State.setCoreAt_dev]
  simp only [State.freeCore, State.setCoreAt_dev]
  exact ht
/-- Every task of a gang starts on its own core (02 R23, R26). -/
theorem State.placeGang_coreAt (s : State) (x : Ctx) {gs cores : List Nat} (hl : gs.length = cores.length) (hc : cores.Nodup) {g n : Nat}
    (h : (g, n) ∈ gs.zip cores) :
    ((s.placeGang x gs cores).coreAt n).startedAs x g := by
  have hz : ((gs.zip cores).map Prod.snd).Nodup := by
    rw [List.map_snd_zip hl.ge]
    exact hc
  have placed (t : State) (p : Nat × Nat) (m : Nat) : (((t.freeCore p.2).setCoreAt p.2 (((t.freeCore p.2).coreAt p.2).start x p.1)).preload
      x p.1 p.2).coreAt m = if m = p.2 then ((t.freeCore p.2).coreAt p.2).start x p.1 else t.coreAt m := by
    rw [State.preload_coreAt, State.coreAt_setCoreAt]
    split_ifs with hm
    · rfl
    · exact t.freeCore_coreAt_ne hm
  obtain ⟨t, -, -, ht⟩ := foldl_coreAt (P := fun _ => True) (key := Prod.snd) (fun _ _ _ => trivial)
    (fun t p m hm => (placed t p m).trans (if_neg hm)) hz h (s := s) trivial
  rw [State.placeGang, ht, placed, if_pos rfl]
  exact Core.start_startedAs ..
/-- Messages taken by a context let held tasks go, and change nothing else of a core. -/
theorem State.takeTold_coreAt (s : State) (id : W16) (n : Nat) : ∃ a, (s.takeTold id).coreAt n = { s.coreAt n with halt := a } := by
  unfold State.takeTold
  split
  · exact ⟨_, rfl⟩
  · dsimp only
    rw [State.coreAt_mapCores]
    · split
      · exact ⟨_, rfl⟩
      · exact ⟨_, rfl⟩
    · simp
theorem State.takeTold_granted (s : State) (id : W16) : (s.takeTold id).dev.granted = s.dev.granted := by
  unfold State.takeTold
  split <;> rfl

/-- The context once its next gang has been admitted (02 R23, R32). -/
def State.nextGang (s : State) (x : Ctx) : Ctx :=
  { x with gangs := x.gangs + 1, cycles := s.ctxCycles x, held := if x.launch.chrt then x.gangs :: x.held else x.held }
/-- The gang's tasks on their cores, the grant used (02 R23). -/
def State.gangPlaced (s : State) (x : Ctx) (cores : List Nat) : State :=
  (s.mapDev fun d => { d with granted := none, ctxs := d.ctxs.map fun y => if y.id == x.id then s.nextGang x else y }).placeGang (s.nextGang x)
    (x.launch.gangTasks x.rank x.gangs) cores
/-- Once the gang stands on its cores, its record leaves the queue or not, and where there is a chart the other modules are told. -/
theorem State.admitNext_placed (s : State) (x : Ctx) (cores : List Nat) :
    ∃ u, SameCores (s.gangPlaced x cores) u ∧ s.admitNext x cores = if x.launch.chrt then u.takeTold x.id else u := by
  unfold State.admitNext
  extract_lets x1 s1 s2
  have left : SameCores (s.gangPlaced x cores) s2 := by
    have hs1 : s1 = s.gangPlaced x cores := rfl
    rw [← hs1]
    exact ite_of (P := SameCores s1) ((s1.popHead_sameCores ..).trans (State.settleQueue_sameCores ..)) (s1.mapQueue_sameCores ..)
  by_cases hc : x.launch.chrt = true
  · rw [if_pos hc]
    exact ⟨_, left.trans (s2.tellLaunch_sameQueues ..).toSameCores, by rw [if_pos hc]⟩
  · rw [if_neg hc]
    exact ⟨s2, left, by rw [if_neg hc]⟩
/-- The granted gang's tasks start on the cores named for them (02 R23, R26). -/
theorem State.admitNext_starts (s : State) (x : Ctx) {cores : List Nat} (hp : x.launch.placeOk (x.launch.gangTasks x.rank x.gangs) cores = true)
    {j n g : Nat} (hn : cores[j]? = some n) (hg : (x.launch.gangTasks x.rank x.gangs)[j]? = some g) :
    ((s.admitNext x cores).coreAt n).startedAs x g := by
  obtain ⟨hl, hc⟩ : (x.launch.gangTasks x.rank x.gangs).length = cores.length ∧ cores.Nodup := by
    simp only [Launch.placeOk, Bool.and_eq_true, decide_eq_true_eq] at hp
    obtain ⟨⟨hplace, -⟩, -⟩ := hp
    exact hplace
  have hz : (g, n) ∈ (x.launch.gangTasks x.rank x.gangs).zip cores :=
    List.mem_of_getElem? (List.getElem?_zip_eq_some.2 ⟨hg, hn⟩)
  obtain ⟨u, hu, ha⟩ := s.admitNext_placed x cores
  have started : (u.coreAt n).startedAs x g := by
    rw [hu.coreAt]
    exact State.placeGang_coreAt _ (s.nextGang x) hl hc hz
  rw [ha]
  split
  · obtain ⟨a, hh⟩ := u.takeTold_coreAt x.id n
    rw [hh]
    exact started.halted a
  · exact started
theorem State.admitNext_granted (s : State) (x : Ctx) (cores : List Nat) : (s.admitNext x cores).dev.granted = none := by
  obtain ⟨u, hu, ha⟩ := s.admitNext_placed x cores
  have used : u.dev.granted = none := hu.granted.trans (State.placeGang_dev ..).1
  rw [ha]
  split
  · rw [State.takeTold_granted, used]
  · exact used
/-- A context of one module's launch counts the gang it has admitted. -/
theorem State.admitNext_ctx {s : State} {x : Ctx} (hx : x ∈ s.dev.ctxs) (hc : x.launch.chrt = false) (cores : List Nat) :
    s.nextGang x ∈ (s.admitNext x cores).dev.ctxs := by
  obtain ⟨u, hu, ha⟩ := s.admitNext_placed x cores
  rw [ha, hc, if_neg Bool.false_ne_true, hu.ctxs, State.gangPlaced, (State.placeGang_dev ..).2]
  exact List.mem_map.2 ⟨x, hx, if_pos (beq_self_eq_true _)⟩

/-! ### A first gang -/

theorem State.createCtx_mem (s : State) (q : BitVec 9) (slot : BitVec 6) (l : Launch) :
    (s.createCtx q slot l).1 ∈ (s.createCtx q slot l).2.dev.ctxs :=
  List.mem_map.2 ⟨_, List.mem_append_right _ (List.mem_singleton_self _), if_pos (beq_self_eq_true _)⟩
theorem State.memImages_sameQueues (s : State) (x : Ctx) : SameQueues s (s.memImages x) := by
  refine foldl_keeps (P := SameQueues s) (fun t e ht => ?_) _ (.refl s)
  dsimp only
  split
  · exact ht
  · split
    · cases hw : t.writeVirt x.tenant (t.ownIn x.launch) _ _ with
      | none => exact ht
      | some u =>
        obtain ⟨ps, -, rfl⟩ := Option.map_eq_some_iff.1 hw
        exact ht.trans (t.writePieces_sameQueues ..)
    · exact ht

/-! ### A task leaves its core -/

theorem State.vacateCore_core (s : State) : (s.vacateCore s.cnum).core = s.core.vacate := by
  rw [State.vacateCore, State.coreAt_cnum]
  simp [State.setCoreAt]
theorem State.vacateCore_spad (s : State) (n : Nat) : (s.vacateCore n).spad = s.spad := congrArg Prod.snd (s.vacateCore_bytes n)
theorem Core.vacate_orec (c : Core) {k : Nat} (h : k < 32) : (c.vacate.orec k).st = .free := by
  show ((List.replicate 32 OpenRec.reset).getD k OpenRec.reset).st = .free
  rw [List.getD_eq_getElem?_getD, List.getElem?_replicate_of_lt h]
  rfl
/-- A context that holds no core ends without touching the core in front, where no stream end is bound. -/
theorem State.endCtx_front {s : State} {x : Ctx} (hx : s.ctxCores x.id = []) (hb : s.core.bindings = []) (a b : Nat) (o : Option Nat) :
    (s.endCtx x a b o).core = s.core ∧ (s.endCtx x a b o).spad = s.spad := by
  unfold State.endCtx
  extract_lets s1 s2 s3 s4
  have hs1 : s1 = s := by
    dsimp only [s1]
    rw [hx]
    rfl
  have hs2 : Unbinds s s2 := by
    rw [← hs1]
    exact foldl_keeps (P := Unbinds s1) (fun t v ht => ht.trans (t.dropTaskEnds_unbinds ..)) x.saved (.refl s1)
  have hw := (s2.writeCompletion_sameQueues x.queue x.tenant x.launch a b x.ended o).toSameCores
  have hs4 : s4.core = s.core ∧ s4.spad = s.spad := ⟨hw.core.trans (hs2.core_eq hb), hw.spad.trans hs2.spad⟩
  have hp := (s4.popHead_sameCores x.queue none).trans (State.settleQueue_sameCores _ x.queue 17)
  split
  · split
    · exact ⟨hp.core.trans hs4.1, hp.spad.trans hs4.2⟩
    · exact hs4
  · exact hs4

/-! ### What the two events do -/

theorem execEvGangAdmit_more {s : State} {q : BitVec 9} {slot : BitVec 6} {cores : List Nat} {x : Ctx} (hg : s.dev.granted = some q)
    (hf : s.needFits q s.freeCores = true) (hn : s.need q = .more x) (hc : (cores.all fun c => s.freeCores.contains c) = true)
    (hp : x.launch.placeOk (x.launch.gangTasks x.rank x.gangs) cores = true) :
    execEvGangAdmit q slot cores s = .next (s.admitNext x cores) := by
  unfold execEvGangAdmit
  dsimp only
  rw [if_neg (by simp [hg, hf]), hn]
  dsimp only
  rw [if_pos (by rw [hc, hp]; rfl)]
/-- A first gang of one module's launch with a free slot: the launch's save region fits the slot's, or the launch is rejected (24 R359). -/
theorem execEvGangAdmit_first {s : State} {q : BitVec 9} {slot : BitVec 6} {cores : List Nat} {l : Launch} (hg : s.dev.granted = some q)
    (hf : s.needFits q s.freeCores = true) (hn : s.need q = .first l) (hc : (cores.all fun c => s.freeCores.contains c) = true)
    (hl : l.chrt = false) (hs : s.dev.freeSlots.contains slot.toNat = true) (hp : l.placeOk (l.gangTasks 0 0) cores = true) :
    execEvGangAdmit q slot cores s =
      if (s.slotEntry slot).2.1 < 0x10000 + l.tmax 0 * 0x900000 then
        .next (((s.mapDev fun d => { d with granted := none }).rejectHead q l 0x03 true).settleQueue q 17)
      else .next (((s.createCtx q slot l).2.memImages (s.createCtx q slot l).1).admitNext (s.createCtx q slot l).1 cores) := by
  have hr : l.rankOf s.dev.modid = 0 := by rw [Launch.rankOf, hl, if_neg Bool.false_ne_true]
  unfold execEvGangAdmit
  dsimp only
  rw [if_neg (by simp [hg, hf]), hn]
  dsimp only
  rw [hr, if_neg (by rw [hc, hs, hp]; decide)]
/-- The launch rejected leaves its queue, and the grant is used. -/
theorem State.rejected_same {s : State} (hq : s.dev.queues.length = 512) {q : BitVec 9} {l : Launch} (hc : (s.dev.queue q).cache = [(l, none)])
    (r : Nat) (b : Bool) (n : Nat) :
    let t := (s.rejectHead q l r b).settleQueue q n
    t.core = s.core ∧ t.dev.granted = s.dev.granted ∧ (t.dev.queue q).head = (s.dev.queue q).head + 1 := by
  have hr := s.rejectHead_sameCores q l r b
  have hk := State.queue_rejectHead hq q l r b
  rw [hc] at hk
  dsimp only
  rw [State.settleQueue_nil n (by rw [hk]; rfl), hr.core, hr.granted, hk]
  exact ⟨rfl, rfl, rfl⟩
/-- A finished task leaves its core, and its context may end with it. -/
theorem execEvTaskEnd_front {s t : State} {k : Task} {x : Ctx} (hk : s.core.task = some k) (hx : s.ctx? = some x)
    (he : ∀ e, (s.core.seqs.get e).ended = true) (hq : s.core.quiet = true) (ha : s.core.aside.any Aside.busy = false) (hp : s.core.pend = [])
    (hesc : s.core.escal = none) (hh : s.core.halt ≠ .stopped) (h : execEvTaskEnd s = .next t) :
    t.core = s.core.vacate ∧ t.spad = s.spad := by
  unfold execEvTaskEnd at h
  split at h
  case h_2 hno => exact absurd hx (hno k x hk)
  case h_1 k' x' _ _ =>
    extract_lets c s1 s2 s3 at h
    have hgo : (!(engs.all fun e => (c.seqs.get e).ended) || !c.quiet || c.aside.any Aside.busy || !c.pend.isEmpty || c.escal.isSome ||
        c.halt == .stopped) = false := by
      dsimp only [c]
      rw [hq, ha, hp, hesc]
      simp [he, hh]
    rw [hgo, if_neg Bool.false_ne_true] at h
    have hu : Unbinds s s1 := (s.dropTaskEnds_unbinds k'.ctx s.cnum).trans (.of_core rfl rfl rfl)
    have hs2 : s2.core = s.core.vacate ∧ s2.spad = s.spad := by
      have hv : s2 = s1.vacateCore s1.cnum := by rw [hu.cnum]
      rw [hv, State.vacateCore_core, State.vacateCore_spad, hu.vacate, hu.spad]
      exact ⟨rfl, rfl⟩
    have hs3 : s3.core = s.core.vacate ∧ s3.spad = s.spad :=
      ite_of (P := fun u : State => u.core = s.core.vacate ∧ u.spad = s.spad) hs2 hs2
    split at h
    · obtain rfl := Host.Outcome.next.inj h
      split
      · rename_i hend
        simp only [Bool.and_eq_true, List.isEmpty_iff] at hend
        obtain ⟨⟨-, hnone⟩, -⟩ := hend
        obtain ⟨hc, hsp⟩ := State.endCtx_front hnone (by rw [hs3.1]; rfl) 0 0 none
        exact ⟨hc.trans hs3.1, hsp.trans hs3.2⟩
      · exact hs3
    · obtain rfl := Host.Outcome.next.inj h
      exact hs3
theorem execEvTaskEnd_idle {s : State} (h : (∃ e, (s.core.seqs.get e).ended = false) ∨ s.core.quiet = false) : execEvTaskEnd s = .next s := by
  have hno : ((engs.all fun e => (s.core.seqs.get e).ended) && s.core.quiet) = false := by
    rcases h with ⟨e, he⟩ | hq
    · rw [Bool.and_eq_false_iff]
      left
      rw [List.all_eq_false]
      exact ⟨e, by cases e <;> decide, by simp [he]⟩
    · rw [hq, Bool.and_false]
  unfold execEvTaskEnd
  split
  · dsimp only
    rw [if_pos]
    rw [← Bool.not_and, hno]
    rfl
  · rfl

/-- Settles O48: an admitted gang is placed core by core, and a task leaves its core by `Core.vacate` alone. -/
theorem gangsStartAndEnd : Obligations.GangsStartAndEnd := by
  intro s q slot cores hsz
  obtain ⟨-, hqs, -, -⟩ := State.sized_files hsz
  refine ⟨fun x hg hf hn hc hp => ?_, fun l hg hf hn hc hl hs hp => ⟨fun hfit => ?_, fun hfit hcache => ?_⟩,
    fun k x hk hx he hq ha hp hesc hh => ?_, execEvTaskEnd_idle⟩
  · exact ⟨_, execEvGangAdmit_more hg hf hn hc hp, s.admitNext_granted .., fun j n g hj hgj => s.admitNext_starts x hp hj hgj⟩
  · have hx := s.createCtx_mem q slot l
    have hgo := execEvGangAdmit_first hg hf hn hc hl hs hp
    rw [if_neg (Nat.not_lt.2 hfit)] at hgo
    have hr : (s.createCtx q slot l).1.rank = 0 := by
      show l.rankOf s.dev.modid = 0
      rw [Launch.rankOf, hl, if_neg Bool.false_ne_true]
    have hm := (s.createCtx q slot l).2.memImages_sameQueues (s.createCtx q slot l).1
    refine ⟨_, _, hgo, State.admitNext_ctx (hm.ctxs ▸ hx) hl cores, rfl, rfl, rfl, rfl, rfl, fun j n g hj hgj => ?_⟩
    refine State.admitNext_starts _ (s.createCtx q slot l).1 ?_ hj ?_
    · rw [hr]
      exact hp
    · rw [hr]
      exact hgj
  · have hgo := execEvGangAdmit_first hg hf hn hc hl hs hp
    rw [if_pos hfit] at hgo
    exact ⟨_, hgo, State.rejected_same (s := s.mapDev fun d => { d with granted := none }) hqs hcache ..⟩
  · obtain ⟨t, ht⟩ := noInstructionStops.1 .evTaskEnd s
    obtain ⟨hv, hsp⟩ := execEvTaskEnd_front hk hx he hq ha hp hesc hh ht
    refine ⟨t, ht, hv, ?_⟩
    rw [hv]
    exact ⟨rfl, rfl, rfl, rfl, rfl, rfl, rfl, rfl, rfl, rfl, rfl, fun k hk => s.core.vacate_orec hk, hsp⟩

end Sys2Proof.Machine
end

section
/-!
O50: a context's save area and its return from it (02 R32; 24 R358 to R363; 09 R192).
-/
namespace Sys2Proof.Machine

/-! ### Bytes of the save area -/

/-- A slice of bytes read is the bytes read there. -/
theorem State.readPhys_slice (s : State) (key : Option (BitVec 512)) (a : Nat) {n i m : Nat} (h : i + m ≤ n) :
    ((s.readPhys key a n).drop i).take m = s.readPhys key (a + i) m := by
  unfold State.readPhys
  apply List.ext_getElem
  · simp
    omega
  · intro j h1 h2
    simp [Nat.add_assoc]
theorem State.leAt_readPhys (s : State) (key : Option (BitVec 512)) (a : Nat) {n i m : Nat} (h : i + m ≤ n) :
    leAt (s.readPhys key a n) i m = leNat (s.readPhys key (a + i) m) := by
  rw [leAt, s.readPhys_slice key a h]
theorem State.readPhys_congr {s t : State} (hm : t.mem = s.mem) (hk : t.dev.unitKey = s.dev.unitKey) (key : Option (BitVec 512)) (a n : Nat) :
    t.readPhys key a n = s.readPhys key a n := by
  unfold State.readPhys
  exact List.map_congr_left fun j _ => State.physByte_congr hm hk key (a + j)
/-- A slice of a run just written reads as that slice. -/
theorem State.readPhys_written (s : State) (key : Option (BitVec 512)) (a : Nat) {bs : List Byte} {i m : Nat} (h : i + m ≤ bs.length) :
    (s.writePhys key a bs).readPhys key (a + i) m = (bs.drop i).take m := by
  rw [← State.readPhys_slice (n := bs.length) _ key a h, State.readPhys_writePhys]
theorem leNat_take_leBytes (n v : Nat) (r : List Byte) : leNat ((leBytes n v ++ r).take n) = v % 256 ^ n := by
  rw [List.take_left' (leBytes_length n v), leNat_leBytes]
/-- MAGIC, VERSION and STATE of a header (24 R360). -/
theorem Ctx.headerBytes_fields (x : Ctx) (state n e : Nat) : ∃ r,
    x.headerBytes state n e = leBytes 4 0x53414B43 ++ (leBytes 2 1 ++ (leBytes 2 state ++ r)) := by
  unfold Ctx.headerBytes
  simp only [List.append_assoc]
  exact ⟨_, rfl⟩

/-! ### A context by its identifier -/

theorem Device.ctx?_id {d : Device} {id : W16} {x : Ctx} (h : d.ctx? id = some x) : x.id = id := by
  simpa using List.find?_some h
/-- A context changed reads as changed, where it keeps its identifier. -/
theorem Device.ctx?_mapCtx (d : Device) (id : W16) {f : Ctx → Ctx} (hf : ∀ y, y.id = id → (f y).id = id) :
    (d.mapCtx id f).ctx? id = (d.ctx? id).map f := by
  unfold Device.ctx? Device.mapCtx
  dsimp only
  rw [List.find?_map]
  have hp : ((fun x : Ctx => x.id == id) ∘ fun c => if c.id == id then f c else c) = fun x => x.id == id := by
    funext y
    by_cases hy : y.id = id <;> simp [hy, hf]
  rw [hp]
  cases hx : d.ctxs.find? fun x => x.id == id with
  | none => rfl
  | some x =>
    have := List.find?_some hx
    simp only [Option.map_some, this, if_pos]
theorem Device.ctxcmdDone_frame (d : Device) (op : Nat) (id : W16) : ∃ v, d.ctxcmdDone op id = { d with ctxcmd := v } := by
  unfold Device.ctxcmdDone
  split
  · exact ⟨_, rfl⟩
  · exact ⟨d.ctxcmd, rfl⟩

/-! ### CONTEXT_SAVE -/

theorem State.writeSave_header (s : State) (x : Ctx) (a : Nat) (key : Option (BitVec 512)) :
    ∃ u n e, SameCores s u ∧ s.writeSave x a key = (u.writePhys key a (x.headerBytes 2 n e)).deviceRelease a := by
  unfold State.writeSave
  extract_lets ts ep s1
  refine ⟨s1, ts.length, ep, ?_, rfl⟩
  refine foldl_keeps (P := SameCores s) (fun t y ht => ?_) _ (.refl s)
  refine foldl_keeps (P := SameCores s) (fun u p hu => ?_) _ ht
  exact hu.trans (u.writePhys_sameQueues ..).toSameCores
theorem State.writeSave_sameCores (s : State) (x : Ctx) (a : Nat) (key : Option (BitVec 512)) : SameCores s (s.writeSave x a key) := by
  obtain ⟨u, n, e, hu, h⟩ := s.writeSave_header x a key
  rw [h]
  exact (hu.trans (u.writePhys_sameQueues ..).toSameCores).trans (State.deviceRelease_sameQueues ..).toSameCores
/-- The header that a save area begins with (24 R360, R362). -/
theorem State.writeSave_fields (s : State) (x : Ctx) (a : Nat) (key : Option (BitVec 512)) :
    leNat ((s.writeSave x a key).readPhys key a 4) = 0x53414B43 ∧ leNat ((s.writeSave x a key).readPhys key (a + 4) 2) = 1 ∧
      leNat ((s.writeSave x a key).readPhys key (a + 6) 2) = 2 := by
  obtain ⟨u, n, e, -, h⟩ := s.writeSave_header x a key
  obtain ⟨r, hr⟩ := x.headerBytes_fields 2 n e
  have field (i m : Nat) (hm : i + m ≤ 8) : (s.writeSave x a key).readPhys key (a + i) m = ((x.headerBytes 2 n e).drop i).take m := by
    rw [h]
    refine (State.readPhys_congr (s := u.writePhys key a (x.headerBytes 2 n e)) rfl rfl key (a + i) m).trans (u.readPhys_written key a ?_)
    rw [hr]
    simp only [List.length_append, leBytes_length]
    omega
  have h0 := field 0 4 (by omega)
  rw [Nat.add_zero, List.drop_zero] at h0
  have d4 (v : Nat) (r : List Byte) : (leBytes 4 v ++ r).drop 4 = r := List.drop_left' (leBytes_length 4 v)
  have d2 (v : Nat) (r : List Byte) : (leBytes 2 v ++ r).drop 2 = r := List.drop_left' (leBytes_length 2 v)
  rw [h0, field 4 2 (by omega), field 6 2 (by omega), hr, show 6 = 4 + 2 from rfl, ← List.drop_drop, d4, d2, leNat_take_leBytes,
    leNat_take_leBytes, leNat_take_leBytes]
  decide
theorem State.ctxTasks_length (s : State) (id : W16) : (s.ctxTasks id).length = (s.ctxCores id).length := by
  simp [State.ctxTasks]
theorem State.vacateCore_coreAt (s : State) (n m : Nat) : (s.vacateCore n).coreAt m = if m = n then (s.coreAt n).vacate else s.coreAt m :=
  s.coreAt_setCoreAt n m _
/-- Every task of a context has left its core. -/
theorem State.vacateCores_coreAt {s u : State} (h1 : s.single) (hu : ∀ n, u.coreAt n = s.coreAt n) {id : W16} {c : Nat × Core}
    (hc : c ∈ s.ctxCores id) : ((s.ctxCores id).foldl (fun (t : State) c => t.vacateCore c.1) u).coreAt c.1 = c.2.vacate := by
  obtain ⟨t, -, htu, ht⟩ := foldl_coreAt (P := fun _ => True) (f := fun (t : State) (c : Nat × Core) => t.vacateCore c.1) (key := Prod.fst)
    (fun _ _ _ => trivial) (fun t p n hn => (t.vacateCore_coreAt ..).trans (if_neg hn)) (State.ctxCores_nodup h1 id) hc (s := u) trivial
  rw [ht, State.vacateCore_coreAt, if_pos rfl, htu, hu, ← ((State.mem_ctxCores h1).1 hc).1]
theorem State.vacateCores_frame (u : State) (l : List (Nat × Core)) :
    let t := l.foldl (fun (t : State) c => t.vacateCore c.1) u
    t.mem = u.mem ∧ t.dev.unitKey = u.dev.unitKey ∧ t.dev.ctxs = u.dev.ctxs := by
  refine foldl_keeps (P := fun t => t.mem = u.mem ∧ t.dev.unitKey = u.dev.unitKey ∧ t.dev.ctxs = u.dev.ctxs) (fun t c ht => ?_) l
    ⟨rfl, rfl, rfl⟩
  simpa [State.vacateCore] using ht
/-- A pre-empted context whose cores stand still is saved, and its tasks leave their cores (24 R358, R362). -/
theorem execEvContextSave_saved {s t : State} {ctx : W16} {x : Ctx} {slot : BitVec 6} (h1 : s.single) (hx : s.dev.ctx? ctx = some x)
    (hsl : x.slot = some slot) (hst : x.st = .stopping) (hwhy : x.stop = some .preempt)
    (hcs : ∀ c ∈ s.ctxCores ctx, c.2.halt = .stopped ∧ c.2.escal = none) (h : execEvContextSave ctx s = .next t) :
    (∃ x1, let w := s.writeSave x1 (s.slotEntry slot).1 (s.dev.key (s.slotEntry slot).2.2)
      t.mem = w.mem ∧ t.dev.unitKey = w.dev.unitKey) ∧
      (∃ y, t.dev.ctx? ctx = some y ∧ y.st = .saved ∧ y.stop = none ∧ y.saved.length = (s.ctxCores ctx).length) ∧
      ∀ c ∈ s.ctxCores ctx, t.coreAt c.1 = c.2.vacate := by
  unfold execEvContextSave at h
  split at h
  case h_1 hno => exact absurd (hx.symm.trans hno) (by simp)
  case h_2 x' hx' =>
  obtain rfl : x = x' := Option.some.inj (hx.symm.trans hx')
  extract_lets cs dead x1 saved at h
  have hdead : dead = false := by
    dsimp only [dead]
    rw [hwhy]
    rfl
  have hgo : (x.st != .stopping || x.stop == some .kill || !(cs.all fun c => c.2.halt == .stopped) ||
      (!dead && cs.any fun c => c.2.escal.isSome)) = false := by
    have hall : (cs.all fun c => c.2.halt == .stopped) = true := List.all_eq_true.2 fun c hc => by simp [(hcs c hc).1]
    have hnone : (cs.any fun c => c.2.escal.isSome) = false := List.any_eq_false.2 fun c hc => by simp [(hcs c hc).2]
    rw [hst, hwhy, hall, hnone]
    simp
  rw [hgo, if_neg Bool.false_ne_true] at h
  split at h
  case h_1 hno => exact absurd (hsl.symm.trans hno) (by simp)
  case h_2 sl hsl' =>
  obtain rfl : slot = sl := Option.some.inj (hsl.symm.trans hsl')
  extract_lets e s1 s2 at h
  rw [hdead, if_neg Bool.false_ne_true] at h
  obtain rfl := Host.Outcome.next.inj h
  have hs1 : SameCores s s1 := s.writeSave_sameCores x1 e.1 (s.dev.key e.2.2)
  obtain ⟨hm, hk, hc⟩ := State.vacateCores_frame s1 cs
  obtain ⟨v, hv⟩ := s2.dev.ctxcmdDone_frame 1 ctx
  have hdev : ((s2.dev.ctxcmdDone 1 ctx).ctx? ctx) = some x := by
    rw [hv]
    exact (congrArg (List.find? fun y : Ctx => y.id == ctx) (hc.trans hs1.ctxs)).trans hx
  obtain ⟨y, hy⟩ : ∃ y : Ctx, y = { x1 with st := .saved, stop := none, saved := saved } := ⟨_, rfl⟩
  rw [← hy]
  have hid : y.id = ctx := by
    rw [hy]
    exact (Device.ctx?_id hx : x.id = ctx)
  refine ⟨⟨x1, hm, ?_⟩, ⟨y, ?_, by rw [hy], by rw [hy], ?_⟩,
    fun c hc => State.vacateCores_coreAt h1 hs1.coreAt hc⟩
  · show (s2.dev.ctxcmdDone 1 ctx).unitKey = _
    rw [hv]
    exact hk
  · refine (Device.ctx?_mapCtx (f := fun _ => y) _ _ fun _ _ => hid).trans ?_
    rw [hdev]
    rfl
  · rw [hy]
    show saved.length = _
    rw [List.length_map, State.ctxTasks_length]

/-! ### A task put back -/

/-- The task that a core holds, how it is stopped and its scalar registers. -/
structure SameTask (c d : Core) : Prop where
  task : d.task = c.task
  halt : d.halt = c.halt
  regs : d.s = c.s

theorem SameTask.refl (c : Core) : SameTask c c := ⟨rfl, rfl, rfl⟩
theorem SameTask.trans {c d e : Core} (h : SameTask c d) (k : SameTask d e) : SameTask c e :=
  ⟨k.task.trans h.task, k.halt.trans h.halt, k.regs.trans h.regs⟩
theorem Core.closeFeet_sameTask (l : List (Eng × Nat)) (c : Core) : SameTask c (l.foldl (fun d x => d.closeFoot x.1 x.2) c) := by
  induction l generalizing c with
  | nil => exact .refl c
  | cons x r ih =>
    have h := ih (c.closeFoot x.1 x.2)
    exact ⟨h.task, h.halt, h.regs⟩
theorem Core.dropInst_sameTask (c : Core) (id : Nat) : SameTask c (c.dropInst id) := by
  unfold Core.dropInst
  extract_lets fl cs ct ph c1 asks d
  have hd : SameTask c d :=
    (Core.closeFeet_sameTask ((fl.map fun f => (f.eng, f.id)) ++ cs ++ ct ++ ph) c).trans (ite_of (P := SameTask c1) ⟨rfl, rfl, rfl⟩ (.refl c1))
  exact hd.trans ⟨rfl, rfl, rfl⟩
theorem Core.ruleFault_sameTask (c : Core) (id : Nat) (e : Eng) (f : Flt) (a b k n : Nat) : SameTask c (c.ruleFault id e f a b k n) := by
  unfold Core.ruleFault
  split
  · exact c.dropInst_sameTask id
  · exact (c.dropInst_sameTask id).trans ⟨rfl, rfl, rfl⟩
/-- Pins taken again change the core in front alone, and not what its task is or holds in its registers. -/
theorem State.repin_core (s : State) : ∃ c, s.repin = { s with core := c } ∧ SameTask s.core c := by
  unfold State.repin
  extract_lets
  refine foldl_keeps (P := fun t => ∃ c, t = { s with core := c } ∧ SameTask s.core c) (fun t r ht => ?_) _
    ⟨_, rfl, rfl, rfl, rfl⟩
  obtain ⟨d, rfl, hd⟩ := ht
  dsimp only
  split
  · exact ⟨d, rfl, hd⟩
  · split
    · split
      · exact ⟨_, rfl, hd.trans ⟨rfl, rfl, rfl⟩⟩
      · exact ⟨_, rfl, hd.trans ⟨rfl, rfl, rfl⟩⟩
    · exact ⟨_, rfl, hd.trans (Core.ruleFault_sameTask ..)⟩
    · exact ⟨_, rfl, hd.trans (Core.ruleFault_sameTask ..)⟩
/-- Every core keeps its task while pins are taken again on one core after another (24 R363). -/
theorem State.repinAll_sameTask {s : State} (h : s.apart) (cores : List Nat) (front : Nat) :
    let t := (cores.foldl (fun (t : State) c => (t.focus c).repin) s).focus front
    t.dev = s.dev ∧ ∀ n, SameTask (s.coreAt n) (t.coreAt n) := by
  have step : ∀ t : State, ∀ c : Nat, t.apart → (t.focus c).repin.apart ∧ (t.focus c).repin.dev = t.dev ∧
      ∀ n, SameTask (t.coreAt n) ((t.focus c).repin.coreAt n) := by
    intro t c ht
    obtain ⟨d, hr, hd⟩ := (t.focus c).repin_core
    rw [hr]
    refine ⟨State.apart_congr rfl rfl (State.focus_apart ht), t.focus_dev c, fun n => ?_⟩
    rw [← State.coreAt_focus ht c n]
    by_cases hn : n = (t.focus c).cnum
    · rw [hn, State.coreAt_cnum, State.coreAt, if_pos rfl]
      exact hd
    · simp only [State.coreAt, if_neg hn]
      exact .refl _
  obtain ⟨ha, hdev, hk⟩ := foldl_keeps (P := fun t => t.apart ∧ t.dev = s.dev ∧ ∀ n, SameTask (s.coreAt n) (t.coreAt n))
    (fun t c ⟨ht, hdev, hk⟩ => by
      obtain ⟨ha', hdev', hk'⟩ := step t c ht
      exact ⟨ha', hdev'.trans hdev, fun n => (hk n).trans (hk' n)⟩) cores
    ⟨h, rfl, fun n => .refl _⟩
  dsimp only
  refine ⟨(State.focus_dev ..).trans hdev, fun n => ?_⟩
  rw [State.coreAt_focus ha]
  exact hk n

/-- What a core cleared and a task's return on it leave of the rest. -/
structure SameRest (s t : State) : Prop where
  apart : s.apart → t.apart
  cnum : t.cnum = s.cnum
  mem : t.mem = s.mem
  keys : t.dev.unitKey = s.dev.unitKey
  ctxs : t.dev.ctxs = s.dev.ctxs
  granted : t.dev.granted = s.dev.granted
theorem SameRest.refl (s : State) : SameRest s s := ⟨id, rfl, rfl, rfl, rfl, rfl⟩
theorem SameRest.trans {s t u : State} (h : SameRest s t) (k : SameRest t u) : SameRest s u :=
  ⟨k.apart ∘ h.apart, k.cnum.trans h.cnum, k.mem.trans h.mem, k.keys.trans h.keys, k.ctxs.trans h.ctxs, k.granted.trans h.granted⟩
theorem State.setCoreAt_sameRest (s : State) (n : Nat) (c : Core) : SameRest s (s.setCoreAt n c) := by
  refine ⟨State.setCoreAt_apart, s.setCoreAt_cnum .., s.setCoreAt_mem .., ?_, ?_, ?_⟩ <;> rw [State.setCoreAt_dev]
theorem State.freeCore_sameRest (s : State) (n : Nat) : SameRest s (s.freeCore n) :=
  have h := s.setCoreAt_sameRest n { Core.reset with bad := (s.coreAt n).bad }
  ⟨h.apart, h.cnum, h.mem, h.keys, h.ctxs, h.granted⟩
/-- The scalar registers of a record's REGS region (24 R361). -/
theorem Core.unpackTask_s (c : Core) (task regs tags hs banks carries drawers : List Byte) {k : Nat} (hk : k < 32) :
    (c.unpackTask task regs tags hs banks carries drawers).s.getD k 0 = BitVec.ofNat 64 (leAt regs (8 * k) 8) := by
  simp [Core.unpackTask, wordAt, hk]
/-- What a task put back on a core holds (24 R363; 02 R32). -/
def Core.backAs (c : Core) (s : State) (x : Ctx) (v : Saved) (base : Nat) (key : Option (BitVec 512)) : Prop :=
  c.task = v.snap.task ∧ c.halt = (if x.held.contains (x.launch.gangOf v.g) then .stopped else .run) ∧
    ∀ k < 32, c.s.getD k 0 = BitVec.ofNat 64 (leNat (s.readPhys key (base + 0x3000 + 8 * k) 8))
theorem Core.backAs.of_same {c d : Core} {s : State} {x : Ctx} {v : Saved} {base : Nat} {key : Option (BitVec 512)}
    (h : c.backAs s x v base key) (hcd : SameTask c d) : d.backAs s x v base key := by
  obtain ⟨htask, hhalt, hregs⟩ := h
  exact ⟨hcd.task.trans htask, hcd.halt.trans hhalt, fun k hk => by rw [hcd.regs, hregs k hk]⟩
theorem Core.backAs.of_mem {c : Core} {s t : State} {x : Ctx} {v : Saved} {base : Nat} {key : Option (BitVec 512)} (h : c.backAs t x v base key)
    (hm : t.mem = s.mem) (hk : t.dev.unitKey = s.dev.unitKey) : c.backAs s x v base key := by
  obtain ⟨htask, hhalt, hregs⟩ := h
  exact ⟨htask, hhalt, fun k hlt => by rw [hregs k hlt, State.readPhys_congr hm hk]⟩
theorem State.putBack_eq (s : State) (x : Ctx) (v : Saved) (n base : Nat) (key : Option (BitVec 512)) :
    ∃ c m, s.putBack x v n base key = { (s.freeCore n).setCoreAt n c with spad := m } ∧ c.backAs s x v base key := by
  unfold State.putBack
  extract_lets rd c moved c1 s1 live
  obtain ⟨m, hm⟩ := foldl_keeps (P := fun t => ∃ m, t = { s1 with spad := m })
    (f := fun (t : State) (i : Nat) => { t with
      spad := writeRun t.spad (spadKey n (i * 0x20000)) (s.readPhys key (base + 0x100000 + i * 0x20000) 0x20000) })
    (fun t i ht => by
      obtain ⟨m, rfl⟩ := ht
      exact ⟨_, rfl⟩) live ⟨s1.spad, rfl⟩
  have hs : c1.s = c.s := rfl
  refine ⟨c1, m, hm, rfl, rfl, fun k hk => ?_⟩
  rw [hs, Core.unpackTask_s _ _ _ _ _ _ _ _ hk]
  exact congrArg (BitVec.ofNat 64) (s.leAt_readPhys key (base + 0x3000) (n := 0x1000) (by omega))
theorem State.putBack_coreAt_ne (s : State) (x : Ctx) (v : Saved) {n m : Nat} (base : Nat) (key : Option (BitVec 512)) (h : m ≠ n) :
    (s.putBack x v n base key).coreAt m = s.coreAt m := by
  obtain ⟨c, sp, hp, -⟩ := s.putBack_eq x v n base key
  rw [hp]
  exact (State.coreAt_setCoreAt_ne _ c h).trans (s.freeCore_coreAt_ne h)
theorem State.putBack_coreAt (s : State) (x : Ctx) (v : Saved) (n base : Nat) (key : Option (BitVec 512)) :
    ((s.putBack x v n base key).coreAt n).backAs s x v base key := by
  obtain ⟨c, sp, hp, hc⟩ := s.putBack_eq x v n base key
  rw [hp]
  exact (State.coreAt_setCoreAt_same _ n c).symm ▸ hc
theorem State.putBack_sameRest (s : State) (x : Ctx) (v : Saved) (n base : Nat) (key : Option (BitVec 512)) :
    SameRest s (s.putBack x v n base key) := by
  obtain ⟨c, sp, hp, -⟩ := s.putBack_eq x v n base key
  have h := (s.freeCore_sameRest n).trans ((s.freeCore n).setCoreAt_sameRest n c)
  rw [hp]
  exact ⟨h.apart, h.cnum, h.mem, h.keys, h.ctxs, h.granted⟩

/-! ### CONTEXT_RESTORE -/

/-- The tasks of a saved context put back on the cores named for them, in order (24 R363). -/
def State.putAllBack (s : State) (x : Ctx) (cores : List Nat) (addr : Nat) (key : Option (BitVec 512)) : State :=
  (x.saved.zip cores).zipIdx.foldl (fun t p => t.putBack x p.1.1 p.1.2 (recordBase addr p.2) key) s
theorem State.putAllBack_sameRest (s : State) (x : Ctx) (cores : List Nat) (addr : Nat) (key : Option (BitVec 512)) :
    SameRest s (s.putAllBack x cores addr key) :=
  foldl_keeps (P := SameRest s) (fun t _ ht => ht.trans (t.putBack_sameRest ..)) _ (.refl s)
theorem State.putAllBack_coreAt (s : State) {x : Ctx} {cores : List Nat} (hb : x.backOk cores = true) (addr : Nat) (key : Option (BitVec 512))
    {j n : Nat} {v : Saved} (hv : x.saved[j]? = some v) (hn : cores[j]? = some n) :
    ((s.putAllBack x cores addr key).coreAt n).backAs s x v (recordBase addr j) key := by
  obtain ⟨hl, hc⟩ : x.saved.length = cores.length ∧ cores.Nodup := by
    simp only [Ctx.backOk, Launch.placeOk, Bool.and_eq_true, decide_eq_true_eq, List.length_map] at hb
    obtain ⟨⟨⟨hplace, -⟩, -⟩, -⟩ := hb
    exact hplace
  have hz : (((x.saved.zip cores).zipIdx).map fun p => p.1.2).Nodup := by
    have hz := List.map_map (f := Prod.fst) (g := Prod.snd) (l := (x.saved.zip cores).zipIdx)
    rw [List.zipIdx_map_fst, List.map_snd_zip hl.ge] at hz
    exact hz ▸ hc
  have hm : ((v, n), j) ∈ (x.saved.zip cores).zipIdx :=
    List.mk_mem_zipIdx_iff_getElem?.2 (List.getElem?_zip_eq_some.2 ⟨hv, hn⟩)
  have other (t : State) (p : (Saved × Nat) × Nat) (m : Nat) (hne : m ≠ p.1.2) :
      (t.putBack x p.1.1 p.1.2 (recordBase addr p.2) key).coreAt m = t.coreAt m := t.putBack_coreAt_ne x p.1.1 _ key hne
  obtain ⟨t, ht, -, hf⟩ := foldl_coreAt (P := SameRest s) (fun t _ ht => ht.trans (t.putBack_sameRest ..)) other hz hm (.refl s)
  rw [State.putAllBack, hf]
  exact (t.putBack_coreAt x v n (recordBase addr j) key).of_mem ht.mem ht.keys

/-- A context as it returns, with what its header holds (24 R360, R363). -/
def Ctx.returned (x : Ctx) (head : List Byte) : Ctx :=
  { x with st := .resident, stop := none, saved := [], saves := leAt head 0x10 8, epool := BitVec.ofNat 32 (leAt head 0x18 8),
           eperiod := leAt head 0x20 8, ended := leAt head 0x28 8 }
/-- The context among the others again, its stream ends at its tasks' new cores. -/
def Device.takeBack (d : Device) (x : Ctx) (cores : List Nat) (head : List Byte) : Device :=
  let to' (k : Nat) : Nat := (((x.saved.zip cores).find? fun p => p.1.core == k).map Prod.snd).getD k
  { (d.mapCtx x.id fun _ => x.returned head) with
    homes := d.homes.map fun h => { h with locS := h.locS.moved x.id to', locR := h.locR.moved x.id to' } }
theorem Device.takeBack_ctx? (d : Device) (x : Ctx) (cores : List Nat) (head : List Byte) :
    (d.takeBack x cores head).ctx? x.id = (d.ctx? x.id).map fun _ => x.returned head :=
  Device.ctx?_mapCtx (f := fun _ => x.returned head) d x.id fun _ _ => rfl

variable {s : State} {ctx : W16} {x : Ctx} {slot : BitVec 6} {cores : List Nat}

/-- A granted context returns where its header is sound, and is killed where it is not (24 R362, R363). -/
theorem execEvContextRestore_granted (hx : s.dev.ctx? ctx = some x) (hsl : x.slot = some slot) (hst : x.st = .saved)
    (hg : s.dev.granted = some x.queue) (hf : (cores.all fun c => s.freeCores.contains c) = true) (hb : x.backOk cores = true) :
    let e := s.slotEntry slot
    let key := s.dev.key e.2.2
    let head := s.readPhys key e.1 0x200
    let s0 := s.mapDev fun d => { d with granted := none }
    let s1 := s0.putAllBack x cores e.1 key
    let s3 := (s1.mapDev fun d => d.takeBack x cores head).writePhys key (e.1 + 6) (leBytes 2 4)
    execEvContextRestore ctx slot cores s = .next (if leAt head 0 4 ≠ 0x53414B43 ∨ leAt head 4 2 ≠ 1 then s0.endCtx x 3 0 none
      else (cores.foldl (fun (t : State) c => (t.focus c).repin) s3).focus s3.cnum) := by
  extract_lets e key head s0 s1 s3
  have hgo : (x.st != .saved || x.slot != some slot || s.dev.granted != some x.queue || !(cores.all fun c => s.freeCores.contains c) ||
      !x.backOk cores) = false := by
    rw [hst, hsl, hg, hf, hb]
    simp
  have hid : ctx = x.id := (Device.ctx?_id hx).symm
  unfold execEvContextRestore
  rw [hx]
  dsimp only
  rw [hgo, if_neg Bool.false_ne_true, hid]
  split
  · rfl
  · rfl
/-- A granted context with a sound header is resident again, each of its tasks on its core (24 R363). -/
theorem execEvContextRestore_back (h1 : s.single) (hx : s.dev.ctx? ctx = some x) (hsl : x.slot = some slot) (hst : x.st = .saved)
    (hg : s.dev.granted = some x.queue) (hf : (cores.all fun c => s.freeCores.contains c) = true) (hb : x.backOk cores = true)
    (hmagic : leAt (s.readPhys (s.dev.key (s.slotEntry slot).2.2) (s.slotEntry slot).1 0x200) 0 4 = 0x53414B43)
    (hver : leAt (s.readPhys (s.dev.key (s.slotEntry slot).2.2) (s.slotEntry slot).1 0x200) 4 2 = 1) :
    ∃ t, execEvContextRestore ctx slot cores s = .next t ∧ t.dev.granted = none ∧
      (∃ y, t.dev.ctx? ctx = some y ∧ y.st = .resident ∧ y.saved = []) ∧
      ∀ (j n : Nat) (v : Saved), x.saved[j]? = some v → cores[j]? = some n →
        (t.coreAt n).backAs s x v (recordBase (s.slotEntry slot).1 j) (s.dev.key (s.slotEntry slot).2.2) := by
  have hgo := execEvContextRestore_granted hx hsl hst hg hf hb
  extract_lets e key head s0 s1 s3 at hgo
  rw [if_neg fun h => h.elim (fun h => h hmagic) fun h => h hver] at hgo
  have hs1 : SameRest s0 s1 := s0.putAllBack_sameRest x cores e.1 key
  have hs3 : SameQueues (s1.mapDev fun d => d.takeBack x cores head) s3 := State.writePhys_sameQueues ..
  have hap : s3.apart := State.apart_congr hs3.cnum hs3.others (hs1.apart (State.apart_congr rfl rfl h1.apart))
  obtain ⟨hdev, hk⟩ := State.repinAll_sameTask hap cores s3.cnum
  refine ⟨_, hgo, ?_, ⟨x.returned head, ?_, rfl, rfl⟩, fun j n v hv hn => ?_⟩
  · rw [hdev, hs3.granted]
    exact hs1.granted
  · have hid : ctx = x.id := (Device.ctx?_id hx).symm
    have hc : s3.dev.ctx? x.id = (s1.dev.takeBack x cores head).ctx? x.id := congrArg (List.find? fun y : Ctx => y.id == x.id) hs3.ctxs
    have hc1 : s1.dev.ctx? x.id = some x := (congrArg (List.find? fun y : Ctx => y.id == x.id) hs1.ctxs).trans (hid ▸ hx)
    rw [hdev, hid, hc, Device.takeBack_ctx?, hc1]
    rfl
  · have hput : (s3.coreAt n).backAs s0 x v (recordBase e.1 j) key := by
      rw [hs3.coreAt]
      exact s0.putAllBack_coreAt hb e.1 key hv hn
    exact (hput.of_same (hk n)).of_mem rfl rfl

/-- Settles O50: the header is the last thing that the save area gets, and each task returns on its own core from its own record. -/
theorem contextsSavedAndRestored : Obligations.ContextsSavedAndRestored := by
  intro s ctx x slot cores h1 hx hsl e key
  refine ⟨fun hst hwhy hcs => ?_, fun hst hg hf hb => ⟨fun hmagic hver => ?_, fun hbad => ?_⟩⟩
  · obtain ⟨t, ht⟩ := noInstructionStops.1 (.evContextSave ctx) s
    obtain ⟨⟨x1, hm, hk⟩, hy, hc⟩ := execEvContextSave_saved h1 hx hsl hst hwhy hcs ht
    obtain ⟨h0, h4, h6⟩ := s.writeSave_fields x1 e.1 key
    refine ⟨t, ht, ?_, ?_, ?_, hy, hc⟩
    · rw [State.readPhys_congr hm hk]
      exact h0
    · rw [State.readPhys_congr hm hk]
      exact h4
    · rw [State.readPhys_congr hm hk]
      exact h6
  · exact execEvContextRestore_back h1 hx hsl hst hg hf hb hmagic hver
  · have hgo := execEvContextRestore_granted hx hsl hst hg hf hb
    dsimp only at hgo
    rw [if_pos hbad] at hgo
    exact hgo

end Sys2Proof.Machine
end

section
/-!
O26: barriers (02 R30, R31).
-/
namespace Sys2Proof.Machine

theorem Seq.advance_pc (q : Seq) : q.advance.pc = q.pc + 16 := by
  unfold Seq.advance
  split <;> rfl
/-- A departure frees the barrier, turns a superstep's phase, and completes the word (02 R30, R31). -/
theorem State.depart_core (s : State) (lv : Nat) (n : W32) : ∃ e d o, (s.depart lv n).core =
    { s.core with exch := e, declared := d, opened := o, arrived := none,
                  seqs := s.core.seqs.set s.who { s.seq.advance with due := s.core.clockOf s.who + 1 } } := by
  unfold State.depart
  extract_lets step
  have hstep : ∃ e d o, step s.core = { s.core with exch := e, declared := d, opened := o } := by
    dsimp only [step]
    split
    · split
      · exact ⟨_, _, _, rfl⟩
      · exact ⟨_, _, _, rfl⟩
    · exact ⟨_, _, _, rfl⟩
  obtain ⟨e, d, o, h⟩ := hstep
  refine ⟨e, d, o, ?_⟩
  rw [State.mapCore, h]
  rfl

section
variable {s : State} {lv : Nat} {n : W32}

/-- CTL has arrived: it goes on when no task is missing, else it waits. -/
theorem State.barWord_arrived (h : s.core.arrived.isSome = true) :
    s.barWord lv n = if s.mayDepart lv = true then .next (s.depart lv n) else .next (s.waiting .internal) := if_pos h
/-- The first arrival counts once, performs CTL's older stores, and goes on or waits (02 R30). -/
theorem State.barWord_arrives (h : s.core.arrived = none) (hd : s.drains = true) : ∃ u, s.barWord lv n = .next u ∧ u.core.stores = [] ∧
    u.core.bars = s.core.bars.set lv (s.core.bars.getD lv 0 + 1) ∧ u.core.s = s.core.s ∧
    (u.core.arrived = some lv ∧ u.core.seqs.ctl.pc = s.core.seqs.ctl.pc ∨
      u.core.arrived = none ∧ (s.who = .ctl → u.core.seqs.ctl.pc = s.core.seqs.ctl.pc + 16)) := by
  unfold State.barWord
  rw [if_neg (by simp [h]), State.withDrained_go hd]
  have hdr : s.drainStores.core = { s.core with stores := [] } ∧ s.drainStores.who = s.who := by
    obtain ⟨m, p, k, r, w, i, hu⟩ := s.drainStores_frame
    rw [hu]
    exact ⟨rfl, rfl⟩
  revert hdr
  generalize s.drainStores = u
  rintro ⟨hcore, hwho⟩
  extract_lets b s1 s2
  have hs2 : s2.core = s1.core ∧ s2.who = u.who := by
    dsimp only [s2]
    split
    · exact ite_of (P := fun v : State => v.core = s1.core ∧ v.who = u.who) ⟨rfl, rfl⟩ ⟨rfl, rfl⟩
    · exact ⟨rfl, rfl⟩
  have hs1 : ∃ a, s1.core = { s.core with
      stores := [], bars := s.core.bars.set lv (s.core.bars.getD lv 0 + 1), arrived := some lv, arrAt := a } := by
    refine ⟨u.core.arrAt.set lv (u.core.later 0), ?_⟩
    dsimp only [s1, b, State.mapCore]
    rw [hcore]
  obtain ⟨at', hs1⟩ := hs1
  obtain ⟨hc, hw⟩ := hs2
  rw [hs1] at hc
  rw [hwho] at hw
  clear_value s2
  have hseq : s2.seq = s.seq := by rw [State.seq, hc, hw]; rfl
  split
  · obtain ⟨e, d, o, hu⟩ := s2.depart_core lv n
    refine ⟨_, rfl, ?_⟩
    rw [hu, hc]
    refine ⟨rfl, rfl, rfl, .inr ⟨rfl, fun hctl => ?_⟩⟩
    rw [hseq, hw, hctl, State.seq, hctl]
    exact Seq.advance_pc _
  · refine ⟨_, rfl, ?_⟩
    rw [State.waiting_core, hc, hseq, hw]
    refine ⟨rfl, rfl, rfl, .inl ⟨rfl, ?_⟩⟩
    cases hwho : s.who <;> simp only [State.seq, hwho] <;> rfl
/-- The three ways of a barrier's word, and of the event that ends CTL's wait at it (02 R30). -/
theorem barWord_meets {s0 : State} {i : Instr} (hi : exec i s = s.barWord lv n)
    (he : s0.standAt .ctl = some (i, s) → execEvBarDepart s0 =
      if s.core.arrived.isSome && s.core.halt == .run && s.mayDepart lv then .next (s.depart lv n) else .next s0) :
    (s.core.arrived.isSome = true → s.mayDepart lv = true → Goes i s (s.depart lv n) ∧
      (s0.standAt .ctl = some (i, s) → s.core.halt = .run → Goes .evBarDepart s0 (s.depart lv n))) ∧
    (s.core.arrived.isSome = true → s.mayDepart lv = false → Goes i s (s.waiting .internal)) ∧
    (s.core.arrived = none → s.drains = true → ∃ u, Goes i s u ∧ u.core.stores = [] ∧
      u.core.bars = s.core.bars.set lv (s.core.bars.getD lv 0 + 1) ∧ u.core.s = s.core.s ∧
      (u.core.arrived = some lv ∧ u.core.seqs.ctl.pc = s.core.seqs.ctl.pc ∨
        u.core.arrived = none ∧ (s.who = .ctl → u.core.seqs.ctl.pc = s.core.seqs.ctl.pc + 16))) := by
  unfold Goes
  rw [hi]
  refine ⟨fun ha hm => ⟨?_, fun hs hh => ?_⟩, fun ha hm => ?_, State.barWord_arrives⟩
  · rw [State.barWord_arrived ha, if_pos hm]
  · exact (he hs).trans (if_pos (by rw [ha, hh, hm]; rfl))
  · rw [State.barWord_arrived ha, hm, if_neg Bool.false_ne_true]
/-- Where CTL may depart, every task of the level has arrived as often or has ended (02 R30). -/
theorem State.mayDepart_all {t : Task} {x : Ctx} (ht : s.core.task = some t) (hx : s.ctx? = some x) (h : s.mayDepart lv = true) :
    ∀ g ∈ x.launch.members t.g lv, g = t.g ∨ s.core.bars.getD lv 0 ≤ s.barCount x g lv ∨ g ∈ x.endedG ∨ g ∈ x.farEnded := by
  unfold State.mayDepart at h
  rw [ht, hx] at h
  simp only [Bool.and_eq_true, List.isEmpty_iff, State.missing, List.filter_eq_nil_iff] at h
  obtain ⟨⟨hmissing, -⟩, -⟩ := h
  intro g hg
  simpa [or_iff_not_imp_left] using hmissing g hg
end

/-- Settles O26: `State.barWord` is the word of both, and the event departs as the word does. -/
theorem barriersMeet : Obligations.BarriersMeet := by
  intro s s0 k n t ht
  refine ⟨fun hl hg => barWord_meets ?_ fun hs => ?_, fun h => ?_, fun h => barWord_meets ?_ fun hs => ?_, fun h => ?_,
    fun x lv hx hm => State.mayDepart_all ht hx hm⟩
  · show execBar k s = _
    unfold execBar
    rw [ht]
    exact if_neg (by simpa using ⟨hl, hg⟩)
  · unfold execEvBarDepart
    rw [hs]
  · show execBar k s = _
    unfold execBar
    rw [ht]
    exact if_pos (by simpa using h)
  · show execBarPart n s = _
    unfold execBarPart
    rw [ht]
    exact if_neg (by simpa using h)
  · unfold execEvBarDepart
    rw [hs]
  · show execBarPart n s = _
    unfold execBarPart
    rw [ht]
    exact if_pos (by simpa using h)

end Sys2Proof.Machine
end

section
/-!
O59: what module reset leaves (02 R25, 24 R366).
-/
namespace Sys2Proof.Machine

/-- A file of one value throughout, whose missing entries read as that value too, reads as it everywhere. -/
theorem getD_replicate_self {α : Type} (d : α) (k n : Nat) : (List.replicate k d).getD n d = d := by
  rw [List.getD_eq_getElem?_getD, List.getElem?_getD_replicate_default_eq]
theorem getD_getD_replicate {α : Type} {k n b j : Nat} (x y : α) (hb : b < k) (hj : j < n) :
    ((List.replicate k (List.replicate n x)).getD b []).getD j y = x := by
  rw [List.getD_replicate _ hb, List.getD_replicate _ hj]
/-- Every core of a module just reset is at reset: the one held, and those that are not. -/
theorem State.coreAt_reset (n : Nat) : State.reset.coreAt n = Core.reset := by
  unfold State.coreAt
  split <;> rfl
theorem State.reset_getS (r : SReg) : State.reset.getS r = 0 :=
  ite_of (P := (· = (0 : W64))) rfl (getD_replicate_self 0 32 _)
theorem Core.reset_ruleList : Core.reset.ruleList = [] :=
  List.filterMap_eq_nil_iff.2 fun k _ => congrArg (Option.map fun r => (k, r)) (getD_replicate_self none 32 k)
theorem Core.reset_seq (e : Eng) : Core.reset.seqs.get e = Seq.reset := PerEng.get_all Seq.reset e
theorem State.reset_sized : State.reset.sized = true := by
  have hc : Core.reset.sized = true := by
    unfold Core.sized
    simp only [Core.reset, List.length_replicate]
    rfl
  unfold State.sized
  simp only [State.reset, Device.reset, List.length_replicate, List.map_nil, List.all_cons, List.all_nil, hc]
  rfl

/-- Settles O59: every file is the list of its reset value, read entry by entry. -/
theorem resetHolds : Obligations.ResetHolds := by
  refine ⟨⟨rfl, rfl⟩, State.reset_sized, List.nodup_singleton _, rfl, State.coreAt_reset, fun _ => rfl, State.reset_getS,
    fun r => getD_replicate_self 0 16 _, fun h => getD_replicate_self 0 16 _,
    fun f => congrArg BitVec.toNat (getD_replicate_self 0 64 _), rfl, rfl,
    fun e => ?_, rfl, fun b hb j hj => getD_getD_replicate 0 1 hb hj, fun b hb j hj => getD_getD_replicate _ _ hb hj,
    fun d hd j hj => getD_getD_replicate 0 1 hd hj, fun q => getD_replicate_self [] 8 _,
    fun k _ => congrArg OpenRec.st (getD_replicate_self OpenRec.reset 32 k), Core.reset_ruleList,
    fun l hl => List.getD_replicate _ hl, rfl, rfl, rfl, fun k => rfl, fun k hk => List.getD_replicate _ hk⟩
  show (Core.reset.seqs.get e).rbase = 0 ∧ (Core.reset.seqs.get e).rotsz = 16 ∧ ∀ l < 6, (Core.reset.seqs.get e).lidx.getD l 1 = 0
  rw [Core.reset_seq]
  exact ⟨rfl, rfl, fun l hl => List.getD_replicate _ hl⟩

end Sys2Proof.Machine
end

section
/-!
O51, first half: traps that no word raises, and the bits of their records (25 R369 to R372, R378; 23 R341; 02 R34).
-/
namespace Sys2Proof.Machine

/-- Taking a trap writes the record and LASTC, and leaves the pending traps (25 R371). -/
theorem Core.takeTrap_frame (c : Core) (i : TrapInfo) (h : Held) (m : Bool) :
    (c.takeTrap i h m).traprec = i.words c.aside.isSome ∧ (c.takeTrap i h m).lastc = i.cause ∧ (c.takeTrap i h m).pend = c.pend :=
  ite_of (P := fun d : Core => d.traprec = i.words c.aside.isSome ∧ d.lastc = i.cause ∧ d.pend = c.pend) ⟨rfl, rfl, rfl⟩ ⟨rfl, rfl, rfl⟩

/-! ### The bits of a record -/

theorem getLsbD_ofNat_div (n i : Nat) (h : i < 64) : (BitVec.ofNat 64 n).getLsbD i = decide (n / 2 ^ i % 2 = 1) := by
  rw [BitVec.getLsbD_ofNat, decide_eq_true h, Bool.true_and, Nat.testBit_eq_decide_div_mod_eq]
theorem engNo_lt (e : Eng) : engNo e < 8 := e.code.isLt
theorem engNo_values : engNo .ctl = 0 ∧ engNo .acc = 1 ∧ engNo .vec = 2 ∧ engNo .mat = 3 ∧ engNo .cld = 4 ∧ engNo .cst = 5 ∧
    engNo .fab = 6 := by decide
/-- A record's first word, below bit 16: the engine, RULEI and ASYNC (25 R371). -/
theorem TrapInfo.words_head (i : TrapInfo) (h : Bool) : ∃ m, (i.words h).getD 0 0 =
    BitVec.ofNat 64 (65536 * m + 32768 * i.async.toNat + 16384 * i.rulei.toNat + 256 * engNo i.eng) := by
  have harith (r c a n y u e : Nat) : fld r 40 + fld c 32 + fld a 17 + fld n 16 + fld y 15 + fld u 14 + fld e 8 =
      65536 * (16777216 * r + 65536 * c + 2 * a + n) + 32768 * y + 16384 * u + 256 * e := by
    simp only [fld]
    omega
  exact ⟨_, congrArg (BitVec.ofNat 64) (harith _ _ _ _ _ _ _)⟩
/-- Bits 10:8 of a record's first word name the engine (25 R371). -/
theorem TrapInfo.words_eng (i : TrapInfo) (h : Bool) : ((i.words h).getD 0 0).extractLsb' 8 3 = i.eng.code := by
  obtain ⟨m, hm⟩ := i.words_head h
  have he := engNo_lt i.eng
  have hr := Bool.toNat_le i.rulei
  refine BitVec.eq_of_toNat_eq ?_
  rw [hm, BitVec.extractLsb'_toNat, BitVec.toNat_ofNat, Nat.shiftRight_eq_div_pow, ← engNo]
  omega
/-- Bit 15 of a record's first word says whether the trap is asynchronous (25 R371). -/
theorem TrapInfo.words_async (i : TrapInfo) (h : Bool) : ((i.words h).getD 0 0).getLsbD 15 = i.async := by
  obtain ⟨m, hm⟩ := i.words_head h
  have he := engNo_lt i.eng
  have hr := Bool.toNat_le i.rulei
  have hb : decide (i.async.toNat = 1) = i.async := by cases i.async <;> rfl
  have ha := Bool.toNat_le i.async
  rw [hm, getLsbD_ofNat_div _ _ (by decide), ← hb]
  refine decide_eq_decide.2 ?_
  rw [hb]
  omega
theorem engBits_eq (p : Eng → Bool) : engBits p = (p .ctl).toNat + 2 * (p .acc).toNat + 4 * (p .vec).toNat + 8 * (p .mat).toNat +
    16 * (p .cld).toNat + 32 * (p .cst).toNat + 64 * (p .fab).toNat := by
  have h : ∀ (b : Bool) (n : Nat), (if b = true then n else 0) = n * b.toNat := by
    intro b n
    cases b
    · rfl
    · exact (Nat.mul_one n).symm
  simp only [engBits, engs, List.map_cons, List.map_nil, List.sum_cons, List.sum_nil, h]
  show 2 ^ 0 * _ + (2 ^ 1 * _ + (2 ^ 2 * _ + (2 ^ 3 * _ + (2 ^ 4 * _ + (2 ^ 5 * _ + (2 ^ 6 * _ + 0)))))) = _
  omega
/-- Two sets of sequencers in the two low bytes of a word: each sequencer's bit of each byte. -/
theorem getLsbD_engBits (p q : Eng → Bool) (e : Eng) :
    (BitVec.ofNat 64 (engBits p + fld (engBits q) 8)).getLsbD (engNo e) = p e ∧
      (BitVec.ofNat 64 (engBits p + fld (engBits q) 8)).getLsbD (8 + engNo e) = q e := by
  have hb : ∀ b : Bool, b = decide (b.toNat = 1) := by decide
  have he := engNo_lt e
  have h : ∀ g, (p g).toNat ≤ 1 ∧ (q g).toNat ≤ 1 := fun g => ⟨Bool.toNat_le _, Bool.toNat_le _⟩
  have h0 := h .ctl
  have h1 := h .acc
  have h2 := h .vec
  have h3 := h .mat
  have h4 := h .cld
  have h5 := h .cst
  have h6 := h .fab
  rw [getLsbD_ofNat_div _ _ (by omega), getLsbD_ofNat_div _ _ (by omega), engBits_eq, engBits_eq, hb (p e), hb (q e), fld]
  constructor <;> refine decide_eq_decide.2 ?_ <;> cases e <;> simp only [engNo_values, Nat.reduceAdd, Nat.reducePow] <;> omega

/-! ### The pending trap of the lowest engine tag -/

theorem engs_mem (e : Eng) : e ∈ engs := by cases e <;> decide
/-- Searching the engines in ENG order finds an entry of the lowest tag. -/
theorem findSome_engs {α : Type} (f : α → Eng) {ps : List α} (h : ps ≠ []) :
    ∃ p ∈ ps, (engs.findSome? fun e => ps.find? fun x => f x == e) = some p ∧ ∀ x ∈ ps, engNo (f p) ≤ engNo (f x) := by
  have hsome : (engs.findSome? fun e => ps.find? fun x => f x == e).isSome = true := by
    obtain ⟨x, hx⟩ := List.exists_mem_of_ne_nil ps h
    refine List.findSome?_isSome_iff.2 ⟨f x, engs_mem _, ?_⟩
    exact List.find?_isSome.2 ⟨x, hx, beq_self_eq_true (f x)⟩
  obtain ⟨p, hp⟩ := Option.isSome_iff_exists.1 hsome
  obtain ⟨l, e, r, hl, he, hn⟩ := List.findSome?_eq_some_iff.1 hp
  have hpe : f p = e := by simpa using List.find?_some he
  refine ⟨p, List.mem_of_find?_eq_some he, hp, fun x hx => Nat.le_of_not_lt fun hlt => ?_⟩
  have hs : engs.Pairwise fun a b => engNo a < engNo b := by decide
  rw [hl, List.pairwise_append] at hs
  obtain ⟨-, hr, -⟩ := hs
  have hxl : f x ∈ l := by
    have hm := hl ▸ engs_mem (f x)
    rcases List.mem_append.1 hm with hm | hm
    · exact hm
    · rcases List.mem_cons.1 hm with rfl | hm
      · exact absurd hlt (by rw [hpe]; exact Nat.lt_irrefl _)
      · exact absurd ((List.pairwise_cons.1 hr).1 _ hm) (by rw [← hpe]; exact Nat.lt_asymm hlt)
  exact absurd (beq_self_eq_true (f x)) (List.find?_eq_none.1 (hn _ hxl) x hx)

section
variable {c : Core}

theorem Core.nextPending_none (h : ∀ x ∈ c.pend, c.followHeld x = true) : c.nextPending = none := by
  have hps : (c.pend.zipIdx.filter fun p => (c.aside.isNone || p.1.inside) && !c.followHeld p.1) = [] :=
    List.filter_eq_nil_iff.2 fun x hx => by simp [h x.1 (List.fst_mem_of_mem_zipIdx hx)]
  unfold Core.nextPending
  rw [hps]
  rfl
/-- Outside the handler: the pending trap of the lowest tag among those not held for their CPYF (25 R372, 09 R181). -/
theorem Core.nextPending_some (ha : c.aside = none) (h : ∃ x ∈ c.pend, c.followHeld x = false) : ∃ k p, c.nextPending = some (k, p) ∧
    c.pend[k]? = some p ∧ c.followHeld p = false ∧ ∀ x ∈ c.pend, c.followHeld x = false → engNo p.info.eng ≤ engNo x.info.eng := by
  have hmem : ∀ x, x ∈ (c.pend.zipIdx.filter fun p => (c.aside.isNone || p.1.inside) && !c.followHeld p.1) ↔
      c.pend[x.2]? = some x.1 ∧ c.followHeld x.1 = false := by
    intro x
    rw [List.mem_filter, List.mem_zipIdx_iff_getElem?, ha]
    simp
  have hidx : ∀ x ∈ c.pend, c.followHeld x = false → ∃ k, (x, k) ∈ c.pend.zipIdx.filter fun p =>
      (c.aside.isNone || p.1.inside) && !c.followHeld p.1 := by
    intro x hx hf
    obtain ⟨k, hk⟩ := List.mem_iff_getElem?.1 hx
    exact ⟨k, (hmem (x, k)).2 ⟨hk, hf⟩⟩
  unfold Core.nextPending
  extract_lets ps
  obtain ⟨x, hx, hf⟩ := h
  obtain ⟨k, hk⟩ := hidx x hx hf
  obtain ⟨p, hp, hfind, hmin⟩ := findSome_engs (fun x : Pending × Nat => x.1.info.eng) (List.ne_nil_of_mem hk)
  obtain ⟨hpk, hpf⟩ := (hmem p).1 hp
  refine ⟨p.2, p.1, ?_, hpk, hpf, fun y hy hyf => ?_⟩
  · rw [hfind]
    rfl
  · obtain ⟨j, hj⟩ := hidx y hy hyf
    exact hmin _ hj
end

theorem split_at_getElem {α : Type} {l : List α} {k : Nat} {x : α} (h : l[k]? = some x) : l = l.take k ++ x :: l.drop (k + 1) := by
  obtain ⟨hk, rfl⟩ := List.getElem?_eq_some_iff.1 h
  rw [← List.drop_eq_getElem_cons hk, List.take_append_drop]

/-! ### Traps between words -/

/-- A trap taken between words leaves every byte. -/
theorem State.takeTrap_bytes (s : State) (i : TrapInfo) (h : Held) (m : Bool) : SameBytes s (s.mapCore fun c => c.takeTrap i h m) :=
  ⟨fun _ => rfl, fun _ => rfl⟩

section
variable {s : State} {k : Task}

theorem trapEntry_waits (h : ∀ x ∈ s.core.pend, s.core.followHeld x = true) : Goes .evTrapEntry s s := by
  show execEvTrapEntry s = _
  unfold execEvTrapEntry
  rw [Core.nextPending_none h]
/-- The core without the pending trap of a number. -/
def Core.withoutPending (c : Core) (n : Nat) : Core := { c with pend := c.pend.take n ++ c.pend.drop (n + 1) }
/-- TRAP_ENTRY outside the handler (25 R369, R372). -/
theorem trapEntry_takes (hk : s.core.task = some k) (hh : s.core.halt = .run) (ha : s.core.aside = none)
    (h : ∃ x ∈ s.core.pend, s.core.followHeld x = false) : ∃ t p a b, s.core.pend = a ++ p :: b ∧
      s.core.followHeld p = false ∧ (∀ x ∈ s.core.pend, s.core.followHeld x = false → engNo p.info.eng ≤ engNo x.info.eng) ∧
      Goes .evTrapEntry s t ∧ t.core.lastc = p.info.cause ∧ t.core.pend = a ++ b ∧
      (t.core.traprec.getD 0 0).extractLsb' 8 3 = p.info.eng.code ∧ SameBytes s t := by
  obtain ⟨n, p, hn, hp, hf, hmin⟩ := Core.nextPending_some ha h
  obtain ⟨hrec, hlast, hpend⟩ := (s.core.withoutPending n).takeTrap_frame p.info p.held false
  refine ⟨s.mapCore fun c : Core => (c.withoutPending n).takeTrap p.info p.held false, p, _, _, split_at_getElem hp, hf, hmin,
    ?_, hlast, hpend, ?_, ⟨fun _ => rfl, fun _ => rfl⟩⟩
  · show execEvTrapEntry s = _
    unfold execEvTrapEntry
    rw [hn]
    exact if_neg (by simp [hk, hh])
  · show ((Core.takeTrap _ _ _ _).traprec.getD 0 0).extractLsb' 8 3 = _
    rw [hrec, TrapInfo.words_eng]
/-- DEADLOCK names CTL's word, and in AUX which sequencers are blocked and which ended (25 R378, 02 R34). -/
theorem deadlock_traps (hk : s.core.task = some k) (hh : s.core.halt = .run) (hb : engs.all s.seqBlocked = true)
    (hf : s.somethingInFlight = false) (he : ∃ e, (s.core.seqs.get e).ended = false) : ∃ t, Goes .evDeadlock s t ∧ t.core.lastc = 0x10 ∧
      (t.core.traprec.getD 0 0).extractLsb' 8 3 = 0 ∧ (t.core.traprec.getD 0 0).getLsbD 15 = false ∧
      t.core.traprec.getD 1 0 = BitVec.ofNat 64 (s.core.seqs.ctl.pc % 2 ^ 30) ∧ SameBytes s t ∧
      ∀ e, ((t.core.traprec.getD 5 0).getLsbD (engNo e) = !(s.core.seqs.get e).ended) ∧
        (t.core.traprec.getD 5 0).getLsbD (8 + engNo e) = (s.core.seqs.get e).ended := by
  have hall : (engs.all fun e => (s.core.seqs.get e).ended) = false := by
    obtain ⟨e, he⟩ := he
    exact List.all_eq_false.2 ⟨e, engs_mem e, by simp [he]⟩
  obtain ⟨t, ht⟩ := noInstructionStops.1 .evDeadlock s
  have hx : execEvDeadlock s = .next t := ht
  unfold execEvDeadlock at hx
  rw [if_neg (by simp [hk, hh, hb, hf, hall])] at hx
  obtain rfl := Host.Outcome.next.inj hx
  refine ⟨_, ht, ?_⟩
  rw [State.mapCore_core]
  obtain ⟨hrec, hlast, -⟩ := Core.takeTrap_frame s.core _ _ _
  rw [hrec, hlast]
  exact ⟨rfl, TrapInfo.words_eng _ _, TrapInfo.words_async _ _, rfl, s.takeTrap_bytes _ _ _, getLsbD_engBits _ _⟩
theorem deadlock_waits (h : engs.all s.seqBlocked = false ∨ s.somethingInFlight = true) : Goes .evDeadlock s s := by
  show execEvDeadlock s = _
  unfold execEvDeadlock
  refine if_pos ?_
  rcases h with h | h <;> simp [h]
/-- DROOP names CTL's next word and, in AUX, CYCLE (23 R341). -/
theorem droop_traps (hk : s.core.task = some k) (hh : s.core.halt = .run) (hx : (s.core.fixt || s.core.exch) = true) :
    ∃ t, Goes .evDroop s t ∧ t.core.lastc = 0x13 ∧ t.core.traprec.getD 5 0 = s.core.cycle ∧
      t.core.traprec.getD 1 0 = BitVec.ofNat 64 ((s.ctlNext (2 ^ 64) s.core.seqs.ctl).pc % 2 ^ 30) ∧ SameBytes s t := by
  obtain ⟨t, ht⟩ := noInstructionStops.1 .evDroop s
  have he : execEvDroop s = .next t := ht
  unfold execEvDroop at he
  rw [if_neg (by simp [hk, hh, hx])] at he
  revert he
  generalize s.ctlNext (2 ^ 64) s.core.seqs.ctl = q
  intro he
  obtain rfl := Host.Outcome.next.inj he
  refine ⟨_, ht, ?_⟩
  rw [State.mapCore_core]
  obtain ⟨hrec, hlast, -⟩ := Core.takeTrap_frame s.core _ _ _
  rw [hrec, hlast]
  exact ⟨rfl, rfl, rfl, s.takeTrap_bytes _ _ _⟩
theorem droop_waits (h : (s.core.fixt || s.core.exch) = false) : Goes .evDroop s s := by
  show execEvDroop s = _
  unfold execEvDroop
  exact if_pos (by simp [h])
end

end Sys2Proof.Machine
end

section
/-!
O51, second half: the ends of periods, thermal steps and module reset (23 R346 to R349; 27 R394, R397, R398; 01 R16).
-/
namespace Sys2Proof.Machine

/-! ### The log of events -/

/-- The top byte of an event is its kind (27 R394). -/
theorem eventWord_kind (kind n : Nat) : (eventWord kind n).extractLsb' 56 8 = BitVec.ofNat 8 kind := by
  have hd : n % 2 ^ 56 < 2 ^ 56 := Nat.mod_lt _ (by decide)
  refine BitVec.eq_of_toNat_eq ?_
  rw [eventWord, fld, BitVec.extractLsb'_toNat, BitVec.toNat_ofNat, BitVec.toNat_ofNat, Nat.shiftRight_eq_div_pow]
  omega
theorem Device.logEvent_events {d : Device} (e : W64) (h : d.events.length < 256) : (d.logEvent e).events = d.events ++ [e] := by
  rw [Device.logEvent, if_pos h]
theorem Device.logEvent_thermal (d : Device) (e : W64) : (d.logEvent e).thermal = d.thermal :=
  ite_of (P := fun x : Device => x.thermal = d.thermal) rfl rfl
theorem State.thermalStep_events {s : State} (n : Nat) (h : s.dev.events.length < 256) :
    (s.thermalStep n).dev.events = s.dev.events ++ [eventWord 5 n] := Device.logEvent_events _ h
theorem State.thermalStep_thermal (s : State) (n : Nat) : (s.thermalStep n).dev.thermal = s.dev.thermal.set (n - 1) true :=
  Device.logEvent_thermal _ _

/-! ### Periods -/

section
variable {s : State}

/-- A deterministic task's share comes again at the end of its own period (23 R346, R347). -/
theorem energyRefill_det {k : Task} {x : Ctx} (hk : s.core.task = some k) (hx : s.ctx? = some x) (hd : s.core.det = true) :
    (11500 ≤ s.core.eperiod → Goes .evEnergyRefill s (s.mapCore fun c =>
      { c with ebudget := BitVec.ofNat 32 (x.detShare k.g), eperiod := c.eperiod - 11500 })) ∧
    (s.core.eperiod < 11500 → Goes .evEnergyRefill s s) := by
  have he : execEvEnergyRefill s = if s.core.eperiod < 11500 then .next s else .next (s.mapCore fun c =>
      { c with ebudget := BitVec.ofNat 32 (x.detShare k.g), eperiod := c.eperiod - 11500 }) := by
    unfold execEvEnergyRefill
    rw [hk, hx]
    exact if_pos hd
  exact ⟨fun h => he.trans (if_neg (Nat.not_lt.2 h)), fun h => he.trans (if_pos h)⟩
/-- What the module's tick gives a context (23 R346, R348). -/
def Ctx.refilled (d : Device) (x : Ctx) : Ctx :=
  if (x.st == .resident || x.st == .stopping) && !x.launch.mode 0 then { x with epool := BitVec.ofNat 32 (d.granting x) } else x
theorem energyRefill_pool (hd : s.core.det = false) :
    Goes .evEnergyRefill s (s.mapDev fun d => { d with ctxs := d.ctxs.map (Ctx.refilled d) }) := by
  show execEvEnergyRefill s = _
  unfold execEvEnergyRefill
  split
  · exact if_neg (by simp [hd])
  · rfl
/-- A tenant's budgets at the start of a period (23 R349). -/
def Tenant.refilled (t : Tenant) : Tenant :=
  { t with eleft := if t.ebud = 0 then none else some t.ebud.toNat, mleft := budgetOf t.mbud, lleft := budgetOf t.lbud }
theorem Device.tenant_map (d : Device) (f : Tenant → Tenant) (n : BitVec 5) (h : d.tenants.length = 32) :
    ({ d with tenants := d.tenants.map f } : Device).tenant n = f (d.tenant n) := by
  have hn : n.toNat < d.tenants.length := h ▸ n.isLt
  simp only [Device.tenant]
  rw [List.getD_eq_getElem _ _ hn, List.getD_eq_getElem _ _ (by rwa [List.length_map]), List.getElem_map]

/-! ### Heat -/

theorem State.seqTurn_heldHot (h : s.heldHot = true) (e : Eng) : s.seqTurn e = .next s := by
  unfold State.seqTurn
  exact if_pos (by simp [State.mayAct, h])
/-- The first thermal step halves the module grant (27 R397). -/
theorem thermalStep_grant (h : s.dev.thermal.length = 3) : (s.thermalStep 1).dev.moduleGrant = 131072 := by
  rw [Device.moduleGrant, State.thermalStep_thermal, List.getD_eq_getElem _ _ (by simp [h]), List.getElem_set_self]
  rfl
/-- The second holds every context (27 R397). -/
theorem thermalStep_heldHot (h : s.dev.thermal.length = 3) : (s.thermalStep 2).heldHot = true := by
  rw [State.heldHot, State.thermalStep_thermal, List.getD_eq_getElem _ _ (by simp [h]), List.getElem_set_self]
/-- The highest step that holds ends (27 R397). -/
theorem thermalStepEnd_ends (h : s.dev.thermal.length = 3) : ∃ t, Goes .evThermalStepEnd s t ∧ t.core = s.core ∧ t.heldHot = false ∧
    (s.heldHot = true → t.dev.moduleGrant = s.dev.moduleGrant) ∧ (s.heldHot = false → t.dev.moduleGrant = 262144) := by
  refine ⟨_, rfl, rfl, ?_⟩
  obtain ⟨a, b, c, ht⟩ := List.length_eq_three.1 h
  simp only [State.heldHot, Device.moduleGrant, State.mapDev_dev, ht]
  cases b <;> exact ⟨rfl, by simp, by simp⟩

/-! ### Reset -/

theorem State.takeTurn_unbooted (h : s.dev.bootst ≠ 0) (n : Nat) (e : Eng) : s.takeTurn (.seq n e) = .next s := if_neg fun hb => h hb.1
/-- A module whose firmware failed logs the failure and takes no sequencer's turn (27 R394, R398). -/
theorem moduleReset_leaves (b : W64) : ∃ t, Goes (.evModuleReset b) s t ∧ t.core = Core.reset ∧ t.others = [] ∧ t.mem = [] ∧ t.spad = [] ∧
    t.dev.homes = [] ∧ t.dev.keys = [] ∧ t.dev.tenants = List.replicate 32 Tenant.reset ∧ t.dev.bootst = b ∧ t.dev.modid = s.dev.modid ∧
    (b = 0 → t.dev.events = []) ∧ (b ≠ 0 → (∃ e, t.dev.events = [e] ∧ e.extractLsb' 56 8 = 4) ∧
      ∀ n e, t.takeTurn (.seq n e) = .next t) := by
  by_cases hb : b = 0
  · exact ⟨s.moduleReset b, congrArg Host.Outcome.next (if_pos hb), rfl, rfl, rfl, rfl, rfl, rfl, rfl, rfl, rfl,
      fun _ => rfl, fun h => absurd hb h⟩
  · refine ⟨_, congrArg Host.Outcome.next (if_neg hb), rfl, rfl, rfl, rfl, rfl, rfl, rfl, rfl, rfl, fun h => absurd h hb,
      fun _ => ⟨⟨_, rfl, eventWord_kind _ _⟩, State.takeTurn_unbooted hb⟩⟩
end

/-- Settles O51: each event by the lemma of its own above. -/
theorem ownEvents : Obligations.OwnEvents := by
  refine ⟨fun s k hk hh => ⟨trapEntry_waits, fun h ha => trapEntry_takes hk hh ha h, deadlock_traps hk hh, deadlock_waits,
    droop_traps hk hh, droop_waits⟩, fun s hs => ?_⟩
  obtain ⟨hten, -, -, hth⟩ := State.sized_files hs
  refine ⟨fun k x hk hx hd => energyRefill_det hk hx hd, fun hd => ⟨_, energyRefill_pool hd, rfl, ⟨fun _ => rfl, fun _ => rfl⟩,
    fun j x hj => ?_⟩, ⟨_, rfl, rfl, ⟨fun _ => rfl, fun _ => rfl⟩, fun n => ?_⟩, fun he => ⟨?_, ?_⟩, ?_, thermalStepEnd_ends hth,
    moduleReset_leaves⟩
  · rw [State.mapDev_dev, List.getElem?_map, hj, Option.map_some, Ctx.refilled]
    simp only [Bool.and_eq_true, Bool.or_eq_true, beq_iff_eq, Bool.not_eq_true']
  · have ht := s.dev.tenant_map Tenant.refilled n hten
    exact ⟨congrArg Tenant.eleft ht, congrArg Tenant.mleft ht, congrArg Tenant.lleft ht⟩
  · exact ⟨_, rfl, rfl, thermalStep_grant hth, _, State.thermalStep_events 1 he, rfl⟩
  · exact ⟨_, rfl, rfl, ⟨_, State.thermalStep_events 2 he, rfl⟩, State.seqTurn_heldHot (thermalStep_heldHot hth)⟩
  · exact ⟨_, rfl, rfl, rfl, rfl, rfl, rfl, rfl, rfl, rfl⟩

end Sys2Proof.Machine
end

section
/-!
O47: launch records and the dispatcher's choices (24 R351 to R356; 02 R28, R29, R32).
-/
namespace Sys2Proof.Machine

/-! ### Fields of an entry of the queue table -/

theorem leNat_lt : ∀ bs : List Byte, leNat bs < 256 ^ bs.length
  | [] => Nat.one_pos
  | b :: bs => by
    have hb := b.isLt
    have hr := leNat_lt bs
    rw [leNat, List.length_cons, Nat.pow_succ]
    omega
theorem leAt_lt (bs : List Byte) (off n : Nat) : leAt bs off n < 256 ^ n :=
  (leNat_lt _).trans_le (Nat.pow_le_pow_right (by decide) (List.length_take_le ..))

/-! ### Records taken in -/

section
variable {s : State} {q : BitVec 9}

/-- The record that LAUNCH_RECORD_READ reads. -/
def State.nextRecord (s : State) (q : BitVec 9) : Launch :=
  s.readLaunch (s.dev.queue q).tenant ((s.dev.queue q).base + 256 * ((s.dev.queue q).taken.toNat % 2 ^ (s.dev.queue q).log2n))
/-- The state with that record taken in. -/
def State.takeRecord (s : State) (q : BitVec 9) : State :=
  s.mapQueue q fun y => { y with cache := y.cache ++ [(s.nextRecord q, none)], taken := y.taken + 1 }
/-- The next covered record of a served queue is read and judged (24 R352). -/
theorem launchRecordRead_takes (hv : s.dev.served q = true) (hc : (s.dev.queue q).covered = true) (he : (s.dev.queue q).cache = []) :
    Goes (.evLaunchRecordRead q) s ((s.takeRecord q).settleQueue q 17) := if_neg (by simp [hv, hc, he])
theorem State.queue_takeRecord (hs : s.dev.queues.length = 512) (he : (s.dev.queue q).cache = []) :
    (s.takeRecord q).dev.queue q = { s.dev.queue q with cache := [(s.nextRecord q, none)], taken := (s.dev.queue q).taken + 1 } := by
  rw [State.takeRecord, State.queue_mapQueue hs, he, List.nil_append]
theorem State.takeRecord_queues_length (s : State) (q : BitVec 9) : (s.takeRecord q).dev.queues.length = s.dev.queues.length :=
  State.mapQueue_queues_length ..
theorem launchRecordRead_waits (h : (s.dev.served q && (s.dev.queue q).covered) = false) : Goes (.evLaunchRecordRead q) s s := by
  refine if_pos ?_
  rcases Bool.and_eq_false_iff.1 h with h | h <;> simp [h]
/-- EN becomes 1: the entry's fields are the queue's (24 R351). -/
theorem queueEnable_enables (hs : s.dev.queues.length = 512) (hen : (s.dev.queue q).en = false)
    (hok : queueEntryOk (s.readPhys none (s.dev.qtab.toNat + 32 * q.toNat) 32) = true)
    (hbit : leAt (s.readPhys none (s.dev.qtab.toNat + 32 * q.toNat) 32) 13 1 = 1) : ∃ t, Goes (.evQueueEnable q) s t ∧ SameBytes s t ∧
      t.core = s.core ∧ let y := t.dev.queue q
        let e := s.readPhys none (s.dev.qtab.toNat + 32 * q.toNat) 32
        y.en = true ∧ y.base = leAt e 0 8 ∧ y.log2n = leAt e 8 1 ∧ y.cls = leAt e 9 1 ∧ y.weight = leAt e 10 2 ∧
          y.tenant.toNat = leAt e 12 1 ∧ y.head.toNat = leAt e 16 4 ∧ y.tail = (s.dev.queue q).tail := by
  have hq (y : LQueue) : (s.mapQueue q fun _ => y).dev.queue q = y := State.queue_mapQueue hs q _
  show ∃ t, execEvQueueEnable q s = .next t ∧ _
  unfold execEvQueueEnable
  dsimp only
  generalize s.readPhys none (s.dev.qtab.toNat + 32 * q.toNat) 32 = e at hok hbit ⊢
  have hten : (BitVec.ofNat 5 (leAt e 12 1)).toNat = leAt e 12 1 := by
    simp only [queueEntryOk, decide_eq_true_eq] at hok
    rw [BitVec.toNat_ofNat]
    omega
  have hhead : (BitVec.ofNat 32 (leAt e 16 4)).toNat = leAt e 16 4 := by
    rw [BitVec.toNat_ofNat]
    exact Nat.mod_eq_of_lt (leAt_lt e 16 4)
  rw [hbit, hok, hen, if_neg (by decide), if_neg (by decide)]
  split
  all_goals
    refine ⟨_, rfl, ⟨fun _ => rfl, fun _ => rfl⟩, rfl, ?_⟩
    rw [hq]
    exact ⟨rfl, rfl, rfl, rfl, rfl, hten, hhead, rfl⟩
/-- EN becomes 0. -/
theorem queueEnable_disables (hen : (s.dev.queue q).en = true)
    (hbit : leAt (s.readPhys none (s.dev.qtab.toNat + 32 * q.toNat) 32) 13 1 % 2 = 0) :
    Goes (.evQueueEnable q) s (s.mapQueue q fun y => { y with en := false }) := by
  show execEvQueueEnable q s = _
  unfold execEvQueueEnable
  dsimp only
  rw [hbit, hen]
  rfl
/-- EN stays, or becomes 1 in an entry out of range. -/
theorem queueEnable_ignores (h : (s.dev.queue q).en = true ∧ leAt (s.readPhys none (s.dev.qtab.toNat + 32 * q.toNat) 32) 13 1 % 2 = 1 ∨
    (s.dev.queue q).en = false ∧ (leAt (s.readPhys none (s.dev.qtab.toNat + 32 * q.toNat) 32) 13 1 % 2 = 0 ∨
      queueEntryOk (s.readPhys none (s.dev.qtab.toNat + 32 * q.toNat) 32) = false)) : Goes (.evQueueEnable q) s s := by
  show execEvQueueEnable q s = _
  unfold execEvQueueEnable
  dsimp only
  refine if_pos ?_
  rcases h with ⟨hen, hbit⟩ | ⟨hen, hbit | hok⟩
  · rw [hen, hbit]
    rfl
  · rw [hen, hbit]
    rfl
  · rw [hen, hok]
    simp

/-! ### A chart launch aborted elsewhere -/

theorem State.takeLaunch_sameQueues {t : BitVec 5} {raw : List Byte} {m : LaunchMsg} {u : State} (h : s.takeLaunch t raw m = some u) :
    SameQueues s u := by
  unfold State.takeLaunch at h
  split at h
  · obtain rfl := Option.some.inj h
    exact ⟨⟨rfl, rfl, rfl, rfl, rfl, rfl⟩, rfl⟩
  · cases h
/-- A launch still in its queue leaves it as one rejected (02 R28, R32). -/
theorem chartAbort_rejects (hs : s.dev.queues.length = 512) {r : Launch}
    (hf : s.dev.ctxs.find? (fun c => c.queue == q && c.held.contains 0 && (s.takeLaunch c.tenant c.launch.raw .abort).isSome) = none)
    (hc : (s.dev.queue q).cache = [(r, none)]) (ht : (s.takeLaunch (s.dev.queue q).tenant r.raw .abort).isSome = true) :
    ∃ t, Goes (.evChartAbort q) s t ∧ t.core = s.core ∧ (t.dev.queue q).cache = [] ∧ (t.dev.queue q).head = (s.dev.queue q).head + 1 := by
  obtain ⟨u, hu⟩ := Option.isSome_iff_exists.1 ht
  have hsu := State.takeLaunch_sameQueues hu
  have hlen : u.dev.queues.length = 512 := by rw [hsu.queues, hs]
  show ∃ t, execEvChartAbort q s = .next t ∧ _
  unfold execEvChartAbort
  dsimp only
  rw [hf]
  have hidx : ([(r, none)] : List (Launch × Option W16)).findIdx? (fun y => y.2.isNone &&
      (s.takeLaunch (s.dev.queue q).tenant y.1.raw .abort).isSome) = some 0 := by
    simp [List.findIdx?_cons, ht]
  dsimp only
  rw [hc, hidx]
  simp only [List.getD_cons_zero]
  rw [hu]
  refine ⟨_, rfl, ?_⟩
  have hq := State.queue_mapQueue hlen q fun y : LQueue => { y with cache := modAt y.cache 0 fun c =>
    ({ c.1 with reject := some (c.1.reject.getD aborted) }, c.2) }
  rw [hsu.queue, hc] at hq
  refine ⟨((State.mapQueue_sameCores ..).trans (State.settleQueue_sameCores ..)).core.trans hsu.core, ?_⟩
  rw [State.queue_settleQueue_bad 16 (by rw [State.mapQueue_queues_length, hlen]) (congrArg LQueue.cache hq) (.inr rfl), hq]
  exact ⟨rfl, rfl⟩

/-! ### The dispatcher's choices -/

theorem mem_allQueues (q : BitVec 9) : q ∈ allQueues :=
  List.mem_map.2 ⟨q.toNat, List.mem_range.2 q.isLt, by simp⟩
/-- A slice ends where a queue of the same or a higher class waits (24 R354). -/
theorem sliceExpiry_ends (hs : s.dev.queues.length = 512) (h : s.isRunning q = true) : ∃ t, Goes (.evSliceExpiry q) s t ∧ t.core = s.core ∧
    (t.dev.queue q).guarded = false ∧
    ((t.dev.queue q).sliceEnd = true ↔ ∃ r, r ≠ q ∧ s.isWaiting r = true ∧ s.classOf r ≤ s.classOf q) := by
  show ∃ t, execEvSliceExpiry q s = .next t ∧ _
  unfold execEvSliceExpiry
  rw [if_neg (by simp [h])]
  refine ⟨_, rfl, rfl, ?_⟩
  have hq := State.queue_mapQueue hs q fun x : LQueue =>
    let wanted := allQueues.any fun r => r != q && s.isWaiting r && decide (s.classOf r ≤ s.classOf q)
    { x with sliceEnd := wanted, guarded := false, ended := if wanted then s.dev.born else x.ended }
  refine ⟨congrArg LQueue.guarded hq, ?_⟩
  refine (Bool.eq_iff_iff.1 (congrArg LQueue.sliceEnd hq)).trans ?_
  simp [List.any_eq_true, mem_allQueues, and_assoc]
theorem waitGuardExpiry_guards (hs : s.dev.queues.length = 512) (hw : s.isWaiting q = true) (hr : s.isRunning q = false) :
    ∃ t, Goes (.evWaitGuardExpiry q) s t ∧ t.core = s.core ∧ t.classOf q = 0 := by
  refine ⟨_, if_pos (by rw [hw, hr]; rfl), rfl, ?_⟩
  rw [State.classOf, State.queue_mapQueue hs]
  rfl
/-- The next victim is stopped where the waiting queue's gang does not fit and would with the victims (24 R355). -/
theorem queuePreempt_stops {ctx : W16} {x : Ctx} (hx : s.dev.ctx? ctx = some x) (hw : s.isWaiting q = true) (he : s.eligible q x = true)
    (hv : ∀ y ∈ s.dev.ctxs, s.eligible q y = true → s.victimBefore y x = false) (hn : s.needFits q (s.freeWith []) = false)
    (hf : s.needFits q (s.freeWith (s.dev.ctxs.filter fun y => s.eligible q y)) = true) :
    Goes (.evQueuePreempt q ctx) s (s.stopCtx ctx .preempt) := by
  have hfirst : ((s.dev.ctxs.filter fun y => s.eligible q y).any fun y => s.victimBefore y x) = false := by
    refine List.any_eq_false.2 fun y hy => ?_
    obtain ⟨hmem, hel⟩ := List.mem_filter.1 hy
    simp [hv y hmem hel]
  show execEvQueuePreempt q ctx s = _
  unfold execEvQueuePreempt
  rw [hx]
  exact if_pos (by simp only [hw, he, hfirst, hn, hf]; rfl)
theorem queuePreempt_waits {ctx : W16} {x : Ctx} (hx : s.dev.ctx? ctx = some x) (h : s.eligible q x = false ∨ s.isWaiting q = false) :
    Goes (.evQueuePreempt q ctx) s s := by
  show execEvQueuePreempt q ctx s = _
  unfold execEvQueuePreempt
  rw [hx]
  refine if_neg ?_
  rcases h with h | h <;> simp [h]
/-- The first queue that fits, in class and pointer order, takes the grant (24 R356). -/
theorem queueGrant_grants (hg : s.dev.grant.length = 4) (hf : s.needFits q s.freeCores = true) (hn : s.dev.granted = none)
    (hc : s.classOf q < 4) (hfirst : ∀ r, s.needFits r s.freeCores = true →
      s.classOf q < s.classOf r ∨ (s.classOf r = s.classOf q ∧ s.grantOrder q ≤ s.grantOrder r)) :
    ∃ t, Goes (.evQueueGrant q) s t ∧ t.core = s.core ∧ t.dev.granted = some q ∧ t.dev.grant.getD (s.classOf q) 0 = q := by
  have hahead : (allQueues.any fun r => s.needFits r s.freeCores && (decide (s.classOf r < s.classOf q) ||
      (s.classOf r == s.classOf q && decide (s.grantOrder r < s.grantOrder q)))) = false := by
    refine List.any_eq_false.2 fun r _ => ?_
    simp only [Bool.and_eq_true, Bool.or_eq_true, decide_eq_true_eq, beq_iff_eq]
    rintro ⟨hr, hlt⟩
    have := hfirst r hr
    omega
  have hgrant : (s.dev.grant.set (s.classOf q) q).getD (s.classOf q) 0 = q := by
    rw [List.getD_eq_getElem _ _ (by rwa [List.length_set, hg]), List.getElem_set_self]
  show ∃ t, execEvQueueGrant q s = .next t ∧ _
  unfold execEvQueueGrant
  rw [if_neg (by simp [hf, hahead, hn])]
  split
  all_goals exact ⟨_, rfl, rfl, rfl, hgrant⟩
end

/-- Settles O47: each event by the lemmas of its own above. -/
theorem launchesChosen : Obligations.LaunchesChosen := by
  refine ⟨fun s q hs => ?_, fun s q ctx x hs => ?_⟩
  · obtain ⟨-, hqs, -, -⟩ := State.sized_files hs
    refine ⟨fun hv hc he => ⟨fun hraw hrej => ?_, fun hbad => ?_⟩, launchRecordRead_waits, queueEnable_enables hqs, queueEnable_disables,
      queueEnable_ignores, fun c u hf hu => ?_, fun r hf hc ht => chartAbort_rejects hqs hf hc ht⟩
    · refine ⟨s.takeRecord q, ?_, ⟨fun _ => rfl, fun _ => rfl⟩, rfl, State.queue_takeRecord hqs he⟩
      have hgo := launchRecordRead_takes hv hc he
      rwa [State.settleQueue_sound 17 (congrArg LQueue.cache (State.queue_takeRecord hqs he)) hraw hrej] at hgo
    · refine ⟨_, launchRecordRead_takes hv hc he,
        ((State.mapQueue_sameCores ..).trans (State.settleQueue_sameCores ..)).core, ?_⟩
      have hq := State.queue_takeRecord hqs he
      rw [State.queue_settleQueue_bad 16 ((s.takeRecord_queues_length q).trans hqs) (congrArg LQueue.cache hq) hbad, hq]
    · show execEvChartAbort q s = _
      unfold execEvChartAbort
      rw [hf]
      dsimp only
      rw [hu]
  · obtain ⟨-, hqs, hg, -⟩ := State.sized_files hs
    refine ⟨sliceExpiry_ends hqs, fun h => if_pos (by rw [h]; rfl), waitGuardExpiry_guards hqs,
      fun hx => ⟨fun hw he hv hn hf => ?_, fun h => ?_⟩,
      queueGrant_grants hg, fun h => if_pos (by simp [h])⟩
    · exact queuePreempt_stops hx hw he hv hn hf
    · exact queuePreempt_waits hx h

end Sys2Proof.Machine
end

section
/-!
O49: how a context stops (24 R357, R367; 25 R376, R377; 02 R28).
-/
namespace Sys2Proof.Machine

/-! ### The request -/

/-- A context marked to stop. -/
def Ctx.asked (w : StopWhy) (y : Ctx) : Ctx := { y with st := .stopping, stop := some w }
/-- What a core is told when its context is to stop (24 R357). -/
def Core.told (id : W16) (c : Core) : Core :=
  if c.task.map Task.ctx == some id && c.halt == .run && c.aside.isNone then { c with halt := .stopping } else c

theorem Core.told_reset (id : W16) : Core.reset.told id = Core.reset := if_neg (by simp)
theorem Core.told_seqs (c : Core) (id : W16) : (c.told id).seqs = c.seqs :=
  ite_of (P := fun d : Core => d.seqs = c.seqs) rfl rfl
/-- A running core of the context stops, but for one in its handler. -/
theorem Core.told_halt {c : Core} {id : W16} {k : Task} (hk : c.task = some k) (hc : k.ctx = id) (hr : c.halt = .run) :
    (c.told id).halt = if c.aside.isNone then .stopping else .run := by
  unfold Core.told
  rw [hk, ← hc]
  cases ha : c.aside.isNone
  · rw [if_neg (by simp)]
    exact hr
  · rw [if_pos (by simp [hr])]
    rfl

section
variable {s : State} {ctx : W16} {x : Ctx}

/-- A resident context is marked, and each of its cores told. -/
theorem State.stopCtx_resident (hx : s.dev.ctx? ctx = some x) (hr : x.st = .resident) (why : StopWhy) : s.stopCtx ctx why =
    (s.mapDev fun d => d.mapCtx ctx (Ctx.asked (joinWhy x.stop why))).mapCores fun _ c => c.told ctx := by
  unfold State.stopCtx
  rw [hx]
  dsimp only
  rw [hr]
  rfl
theorem stopCtx_tells (hx : s.dev.ctx? ctx = some x) (hr : x.st = .resident) (why : StopWhy) :
    (∃ y, (s.stopCtx ctx why).dev.ctx? ctx = some y ∧ y.st = .stopping ∧ y.stop.isSome = true) ∧ (s.stopCtx ctx why).mem = s.mem ∧
      (s.stopCtx ctx why).spad = s.spad ∧ ∀ n, (∃ k, (s.coreAt n).task = some k ∧ k.ctx = ctx) → (s.coreAt n).halt = .run →
        ((s.stopCtx ctx why).coreAt n).halt = (if (s.coreAt n).aside.isNone then .stopping else .run) ∧
        ((s.stopCtx ctx why).coreAt n).seqs = (s.coreAt n).seqs := by
  rw [State.stopCtx_resident hx hr]
  refine ⟨⟨Ctx.asked (joinWhy x.stop why) x, ?_, rfl, rfl⟩, rfl, rfl, ?_⟩
  · exact (Device.ctx?_mapCtx s.dev ctx (f := Ctx.asked _) fun _ h => h).trans (congrArg (Option.map _) hx)
  · rintro n ⟨k, hk, hc⟩ hrun
    rw [State.coreAt_mapCores _ n (Core.told_reset ctx)]
    exact ⟨Core.told_halt hk hc hrun, Core.told_seqs _ _⟩

/-! ### Coming to rest -/

/-- What PREEMPT_REQUEST does with one core of the context (24 R357). -/
def State.restCore (t : State) (c : Nat × Core) : State :=
  if c.2.halt == .stopping && c.2.atRest && (!(c.2.allFlights.any Flight.midStep) || (t.focus c.1).energyOut) then
    t.setCoreAt c.1 c.2.haltNow
  else t

theorem State.restCore_ne (t : State) (c : Nat × Core) (n : Nat) (h : n ≠ c.1) : (t.restCore c).coreAt n = t.coreAt n :=
  ite_of (P := fun u : State => u.coreAt n = t.coreAt n) (State.coreAt_setCoreAt_ne _ _ h) rfl
theorem State.restCore_bytes (t : State) (c : Nat × Core) : (t.restCore c).bytes = t.bytes :=
  ite_of (P := fun u : State => u.bytes = t.bytes) (t.setCoreAt_bytes _ _) rfl
/-- A core in the middle of an access goes on. -/
theorem State.restCore_busy {t : State} {n : Nat} {c : Core} (h : c.atRest = false) : t.restCore (n, c) = t := if_neg (by simp [h])
theorem State.restCore_rests {t : State} {n : Nat} {c : Core} (hh : c.halt = .stopping) (hr : c.atRest = true)
    (hm : c.allFlights.any Flight.midStep = false) : t.restCore (n, c) = t.setCoreAt n c.haltNow := if_pos (by rw [hh, hr, hm]; rfl)
/-- A context asked to give way: each of its cores by `State.restCore`. -/
theorem preemptRequest_rests (hx : s.dev.ctx? ctx = some x) (hst : x.st = .stopping) (hstop : x.stop = some .preempt) :
    Goes (.evPreemptRequest ctx) s ((s.ctxCores ctx).foldl State.restCore s) := by
  show execEvPreemptRequest ctx s = _
  unfold execEvPreemptRequest
  rw [hx]
  dsimp only
  rw [hst, hstop, if_neg (by decide)]
  exact congrArg Host.Outcome.next (if_neg (by simp))
theorem State.restCores_bytes (l : List (Nat × Core)) : (l.foldl State.restCore s).bytes = s.bytes :=
  foldl_keeps (P := fun t : State => t.bytes = s.bytes) (fun t c h => (t.restCore_bytes c).trans h) l rfl
/-- Each core of the context is left by its own update. -/
theorem State.restCores_coreAt (hs : s.single) {n : Nat} (hn : ∃ k, (s.coreAt n).task = some k ∧ k.ctx = ctx) :
    ∃ t : State, t.coreAt n = s.coreAt n ∧ ((s.ctxCores ctx).foldl State.restCore s).coreAt n = (t.restCore (n, s.coreAt n)).coreAt n := by
  have hmem : (n, s.coreAt n) ∈ s.ctxCores ctx := (State.mem_ctxCores hs).2 ⟨rfl, hn⟩
  obtain ⟨t, -, ht, hf⟩ := foldl_coreAt (P := fun _ => True) (f := State.restCore) (key := Prod.fst) (fun _ _ h => h) State.restCore_ne
    (State.ctxCores_nodup hs ctx) hmem (s := s) trivial
  exact ⟨t, ht, hf⟩

/-! ### The other ways to stop -/

theorem handlerPreemptTimeout_stops (hx : s.ctx? = some x) (hst : x.st = .stopping) (ha : s.core.aside.isSome = true)
    (hr : s.core.halt = .run) : Goes .evHandlerPreemptTimeout s (s.mapCore fun c => { c with halt := .stopping }) := by
  show execEvHandlerPreemptTimeout s = _
  unfold execEvHandlerPreemptTimeout
  rw [hx]
  exact if_pos (by rw [hst, ha, hr]; rfl)
theorem launchKillAbort_stops (hx : s.dev.ctx? ctx = some x) {u : State} (hu : s.takeLaunch x.tenant x.launch.raw .kill = some u) :
    Goes (.evLaunchKillAbort ctx) s (u.stopCtx ctx .kill) := by
  show execEvLaunchKillAbort ctx s = _
  unfold execEvLaunchKillAbort
  rw [hx]
  dsimp only
  rw [hu]
theorem escalationStop_stops (hx : s.dev.ctx? ctx = some x) {u : State} {cause : Byte}
    (hu : s.takeLaunch x.tenant x.launch.raw (.escalate cause) = some u) :
    Goes (.evEscalationStop ctx cause) s (u.stopCtx ctx (.escalate cause false)) := by
  show execEvEscalationStop ctx cause s = _
  unfold execEvEscalationStop
  rw [hx]
  dsimp only
  rw [hu]
/-- An escalation of this module stops the context, and tells the other modules of a chart (25 R377). -/
theorem escalate_stops (hx : s.dev.ctx? ctx = some x) {cause : Byte} {hnd : Bool}
    (he : (s.ctxCores ctx).findSome? (fun c => c.2.escal) = some (cause, hnd)) (hw : ∀ w, x.stop = some w → w = .preempt) :
    let u := s.stopCtx ctx (.escalate cause hnd)
    Goes (.evEscalate ctx) s (if x.launch.chrt then u.tellLaunch x.tenant x.launch (some x.rank) (.escalate cause) else u) := by
  have hstop : (x.stop.any fun w => w != .preempt) = false := by
    cases hs : x.stop with
    | none => rfl
    | some w =>
      rw [hw w hs]
      rfl
  show execEvEscalate ctx s = _
  unfold execEvEscalate
  rw [hx, he]
  dsimp only
  rw [hstop]
  rfl
end

/-- Settles O49: the request by `State.stopCtx_resident`, the rest of each core by `State.restCores_coreAt`. -/
theorem contextsStop : Obligations.ContextsStop := by
  intro s ctx x cause hs hx
  refine ⟨fun why hr => stopCtx_tells hx hr why, fun hst hstop => ?_, handlerPreemptTimeout_stops, fun u => launchKillAbort_stops hx,
    fun u => escalationStop_stops hx, fun hnd => escalate_stops hx⟩
  have hb := State.restCores_bytes (s := s) (s.ctxCores ctx)
  refine ⟨_, preemptRequest_rests hx hst hstop, ⟨fun a => congrArg (fun m => readByte m a) (congrArg Prod.fst hb),
    fun a => congrArg (fun m => readByte m a) (congrArg Prod.snd hb)⟩, fun n hn hh => ?_⟩
  obtain ⟨t, ht, hf⟩ := State.restCores_coreAt hs hn
  rw [hf]
  refine ⟨fun hr hm => ?_, fun hr => ?_⟩
  · rw [State.restCore_rests hh hr hm, State.coreAt_setCoreAt_same]
    exact ⟨rfl, rfl, rfl⟩
  · rw [State.restCore_busy hr, ht]

end Sys2Proof.Machine
end

section
/-!
O56 and O60: decode and encode agree. A word is accepted when it is the word of what its fields name (`Raw.decode`), so two facts settle it: a
record of the format its OP selects is read back from its word, and the fields of each instruction name that instruction.
-/
namespace Sys2Proof.Laws.RoundTrip
open Sys2Proof

/-- The OP of a record is one that its format has: the tail and ACC's form of C have POST and AWAIT, and A, V, M, K and F every other OP (03
R35, R48). -/
def Raw.formatOk : Raw → Bool
  | .c false _ | .x _ => true
  | .c true r => r.op == 0x7E#7 || r.op == 0x7F#7
  | .t e r => (e != .ctl && e != .acc) && (r.op == 0x7E#7 || r.op == 0x7F#7)
  | .a r => r.op != 0x7E#7 && r.op != 0x7F#7
  | .v r => r.op != 0x7E#7 && r.op != 0x7F#7
  | .m r => r.op != 0x7E#7 && r.op != 0x7F#7
  | .k _ r => r.op != 0x7E#7 && r.op != 0x7F#7
  | .f r => r.op != 0x7E#7 && r.op != 0x7F#7

theorem tailOp_iff (o : BitVec 7) : (o == 0x7E#7 || o == 0x7F#7) = true ↔ o = 0x7E#7 ∨ o = 0x7F#7 := by simp
theorem plainOp_iff (o : BitVec 7) : (o != 0x7E#7 && o != 0x7F#7) = true ↔ o ≠ 0x7E#7 ∧ o ≠ 0x7F#7 := by simp

/-- A record whose OP is of its format is read back from its word. -/
theorem unpack_pack {r : Raw} (h : Raw.formatOk r = true) : Raw.unpack r.pack = r := by
  match r with
  | .c false r => exact unpack_pack_c r
  | .c true r => exact unpack_pack_acc r ((tailOp_iff _).1 h)
  | .a r => exact unpack_pack_a r ((plainOp_iff _).1 h).1 ((plainOp_iff _).1 h).2
  | .v r => exact unpack_pack_v r ((plainOp_iff _).1 h).1 ((plainOp_iff _).1 h).2
  | .m r => exact unpack_pack_m r ((plainOp_iff _).1 h).1 ((plainOp_iff _).1 h).2
  | .k e r => exact unpack_pack_k e r ((plainOp_iff _).1 h).1 ((plainOp_iff _).1 h).2
  | .f r => exact unpack_pack_f r ((plainOp_iff _).1 h).1 ((plainOp_iff _).1 h).2
  | .x r => exact unpack_pack_x r
  | .t e r =>
    obtain ⟨he, ho⟩ := Bool.and_eq_true_iff.1 h
    exact unpack_pack_t e r (by simpa using he) ((tailOp_iff _).1 ho)

/-- The table gives every well-formed instruction a record whose OP is of its format. -/
theorem raw_formatOk {i : Instr} (hw : i.wf = true) : i.raw.all Raw.formatOk = true := by
  cases i with
  | post e | await e => cases e <;> rfl
  | postTail | awaitTail => exact (Bool.and_true _).trans hw
  | cpy | cpyf | cred | cfil | ctier | ccnt => cases ‹Option CntClause› <;> rfl
  | _ => rfl
/-- Every instruction but the events has a word (log 2). -/
theorem raw_isSome (i : Instr) : i.raw.isSome = !i.isEvent := by cases i <;> rfl

/-- Every instruction is what its own fields name. -/
theorem statement (i : Instr) : Statement i := by
  cases i with
  | add => exact add _ _ _ | sub => exact sub _ _ _ | mul => exact mul _ _ _ | mulh => exact mulh _ _ _ _
  | div => exact div _ _ _ _ | rem => exact rem _ _ _ _ | and => exact and _ _ _ | or => exact or _ _ _ | xor => exact xor _ _ _
  | andn => exact andn _ _ _ | shl => exact shl _ _ _ | shr => exact shr _ _ _ | sra => exact sra _ _ _ | rotl => exact rotl _ _ _
  | min => exact min _ _ _ _ | max => exact max _ _ _ _ | clz => exact clz _ _ | popc => exact popc _ _
  | setc => exact setc _ _ _ _ | sel => exact sel _ _ _ _ | movi => exact movi _ _ | mov => exact mov _ _
  | lea => exact lea _ _ _ _ | extr => exact extr _ _ _ _ _ | insr => exact insr _ _ _ _ | ld => exact ld _ _ _ _ _
  | st => exact st _ _ _ _ _ | ldsp => exact ldsp _ _ _ _ _ | stsp => exact stsp _ _ _ _ _ | waitge => exact waitge _ _ _ _
  | atadd => exact atadd _ _ _ _ _ | atand => exact atand _ _ _ _ _ | ator => exact ator _ _ _ _ _ | atxor => exact atxor _ _ _ _ _
  | atmin => exact atmin _ _ _ _ _ _ | atmax => exact atmax _ _ _ _ _ _ | atswp => exact atswp _ _ _ _ _
  | atcas => exact atcas _ _ _ _ _ _ | mark => exact mark | fence => exact fence _ _ | fencex => exact fencex _ _
  | bar => exact bar _ | barPart => exact barPart _ | hmov => exact hmov _ _ | hld => exact hld _ _ _ | hst => exact hst _ _ _
  | hsetb => exact hsetb _ _ _ | hsetx => exact hsetx _ _ _ | hsets => exact hsets _ _ | hsetf => exact hsetf _ _
  | hget => exact hget _ _ _ | hoff => exact hoff _ _ _ | hclr => exact hclr _ | tlook => exact tlook _ _ | tset => exact tset _ _
  | tclr => exact tclr _ | tclrAll => exact tclrAll | tinfo => exact tinfo _ _ | ropen => exact ropen _
  | rslice => exact rslice _ _ | rclose => exact rclose _ | inst => exact inst _ _ _ _ _ _ _ _ | rvk => exact rvk _
  | rvkat => exact rvkat _ _ | rqryRule => exact rqryRule _ _ | rqryRec => exact rqryRec _ _ | rqryCur => exact rqryCur _ _
  | rres => exact rres _ | snew => exact snew _ _ _ | ssend => exact ssend _ _ _ _ _ _ | srecv => exact srecv _ _ _ _ _ _
  | ssendh => exact ssendh _ _ _ _ _ | srecvh => exact srecvh _ _ _ _ _ | sbind => exact sbind _ _ _ | sbindOff => exact sbindOff _
  | sclose => exact sclose _ | sdrop => exact sdrop _ | sstat => exact sstat _ _ | srd => exact srd _ _ | swr => exact swr _ _
  | mbxrd => exact mbxrd _ _ _ | trap => exact trap _ | eret => exact eret | eretSkip => exact eretSkip | yield => exact yield
  | exit => exact exit | post => exact post _ _ _ | await => exact await _ _ _ | postTail => exact postTail _ _
  | awaitTail => exact awaitTail _ _ | aset => exact aset _ _ | aadd => exact aadd _ _ _ | aaddReg => exact aaddReg _ _ _
  | ashl => exact ashl _ _ _ | ard => exact ard _ _ _ _ _ | ardb => exact ardb _ _ _ _ _ | waitwp => exact waitwp _ _
  | aldi => exact aldi _ _ _ _ | vadd => exact vadd _ _ _ _ _ _ | vsub => exact vsub _ _ _ _ _ _ | vmul => exact vmul _ _ _ _ _ _
  | vfma => exact vfma _ _ _ _ _ _ _ | vfms => exact vfms _ _ _ _ _ _ _ | vfnma => exact vfnma _ _ _ _ _ _ _
  | vmin => exact vmin _ _ _ _ _ _ | vmax => exact vmax _ _ _ _ _ _ | vabs => exact vabs _ _ _ _ _ | vneg => exact vneg _ _ _ _ _
  | vdiv => exact vdiv _ _ _ _ _ _ | vdivRem => exact vdivRem _ _ _ _ _ | vfma16 => exact vfma16 _ _ _ _ _ _
  | viadd => exact viadd _ _ _ _ _ _ | visub => exact visub _ _ _ _ _ _ | vimul => exact vimul _ _ _ _ _ _
  | vimulh => exact vimulh _ _ _ _ _ | vimin => exact vimin _ _ _ _ _ | vimax => exact vimax _ _ _ _ _
  | vand => exact vand _ _ _ _ _ | vor => exact vor _ _ _ _ _ | vxor => exact vxor _ _ _ _ _ | vshl => exact vshl _ _ _ _ _
  | vshr => exact vshr _ _ _ _ _ | vsra => exact vsra _ _ _ _ _ | vcmp => exact vcmp _ _ _ _ _ _ | vsel => exact vsel _ _ _ _ _
  | vcvt => exact vcvt _ _ _ _ _ _ | vmov => exact vmov _ _ _ | vseti => exact vseti _ _ _ _ _ | viota => exact viota _ _ _
  | vrngRaw => exact vrngRaw _ _ _ | vrngUni => exact vrngUni _ _ _ | vclamp => exact vclamp _ _ _ _ _ _
  | vrot => exact vrot _ _ _ _ _ | vbcast => exact vbcast _ _ _ _ _ | vshiftDn => exact vshiftDn _ _ _ _ _
  | vshiftUp => exact vshiftUp _ _ _ _ _ | vrsum => exact vrsum _ _ _ _ _ _ _ | vscanIncl => exact vscanIncl _ _ _ _ _ _ _
  | vscanExcl => exact vscanExcl _ _ _ _ _ _ _ | vrmax => exact vrmax _ _ _ _ _ | vrmin => exact vrmin _ _ _ _ _
  | vrmaxi => exact vrmaxi _ _ _ _ _ | vrmini => exact vrmini _ _ _ _ _ | vexp => exact vexp _ _ _ _ _
  | vexp2 => exact vexp2 _ _ _ _ _ | vln => exact vln _ _ _ _ _ | vlog2 => exact vlog2 _ _ _ _ _ | vrcp => exact vrcp _ _ _ _ _
  | vrsqrt => exact vrsqrt _ _ _ _ _ | vsqrt => exact vsqrt _ _ _ _ _ | vtanh => exact vtanh _ _ _ _ _
  | vsigm => exact vsigm _ _ _ _ _ | vgelu => exact vgelu _ _ _ _ _ | verf => exact verf _ _ _ _ _
  | vunpk => exact vunpk _ _ _ _ _ _ _ | vpack => exact vpack _ _ _ _ _ _ _ _ | vpkbf => exact vpkbf _ _ _ _ _
  | vupbf => exact vupbf _ _ _ _ | mma => exact mma _ _ _ _ _ _ _ _ _ | mclr => exact mclr _ _
  | moutTile => exact moutTile _ _ _ _ _ _ _ _ | moutHandle => exact moutHandle _ _ _ _ _ _ _ | mgate => exact mgate _ _ _ _ _ _ _
  | mscan => exact mscan _ _ _ _ _ _ | mcarryZ => exact mcarryZ _ _ | mcarryLd => exact mcarryLd _ _ _ _
  | mcarrySt => exact mcarrySt _ _ _ _ | dclaim => exact dclaim _ _ _ | drel => exact drel _ _ _ | dqry => exact dqry _ _
  | mmah => exact mmah _ _ _ _ _ _ _ _ _ | cpy => exact cpy _ _ _ _ _ _ _ | cpyf => exact cpyf _ _ _ _ _ _
  | cred => exact cred _ _ _ _ _ _ _ _ | cfil => exact cfil _ _ _ _ _ _ _ | ctier => exact ctier _ _ _ _ _ _ _
  | ccnt => exact ccnt _ _ _ | fcfg => exact fcfg _ _ | fbind => exact fbind _ _ _ _ | fbindC => exact fbindC _ _ _ _
  | fgo => exact fgo _ _ | fbar => exact fbar _ _ | fbarRec => exact fbarRec _ _ _ | fstop => exact fstop _
  | fstopRec => exact fstopRec _ _ | nop => exact nop _ | br => exact br _ _ _ _ _ | jmp => exact jmp _ _
  | jmpIndirect => exact jmpIndirect _ _ | call => exact call _ _ | ret => exact ret _ | loop => exact loop _ _ _ _ _ _
  | brk => exact brk _ _ _ _ _ _ | mode => exact mode _ | rotset => exact rotset _ _ | sync => exact sync _
  | syncRetire => exact syncRetire _
  | _ => exact of_none rfl

theorem decode_eq_ok_iff (w : W128) (i : Instr) :
    decode w = .ok i ↔ (Raw.unpack w).cand = .ok i ∧ i.raw = some (Raw.unpack w) ∧ i.wf = true := by
  unfold decode Raw.decode
  cases hc : (Raw.unpack w).cand with
  | error x => simp
  | ok j => simp only; grind
theorem encode_eq_some_iff (i : Instr) (w : W128) : encode i = some w ↔ i.wf = true ∧ ∃ r, i.raw = some r ∧ r.pack = w := by
  unfold encode
  cases i.wf <;> simp
theorem decode_of_encode {i : Instr} {w : W128} (h : encode i = some w) : decode w = .ok i := by
  obtain ⟨hw, r, hr, rfl⟩ := (encode_eq_some_iff i w).1 h
  have hu : Raw.unpack r.pack = r := unpack_pack (by simpa [hr] using raw_formatOk hw)
  exact (decode_eq_ok_iff _ i).2 ⟨by rw [hu]; exact statement i r hr hw, by rw [hu, hr], hw⟩
theorem encode_of_decode {i : Instr} {w : W128} (h : decode w = .ok i) : encode i = some w := by
  obtain ⟨-, hr, hw⟩ := (decode_eq_ok_iff w i).1 h
  exact (encode_eq_some_iff i w).2 ⟨hw, _, hr, pack_unpack w⟩
theorem encode_isSome {i : Instr} (he : i.isEvent = false) (hw : i.wf = true) : ∃ w, encode i = some w := by
  obtain ⟨r, hr⟩ := Option.isSome_iff_exists.1 ((raw_isSome i).trans (by rw [he]; rfl))
  exact ⟨r.pack, (encode_eq_some_iff i _).2 ⟨hw, r, hr, rfl⟩⟩

/-- Settles O56: by `decode_of_encode`, `encode_of_decode` and `encode_isSome`. -/
theorem encodeDecodeRoundTrip : Obligations.EncodeDecodeRoundTrip :=
  ⟨fun _ _ => decode_of_encode, fun _ _ => encode_of_decode, fun _ => encode_isSome⟩

/-- Settles O60: each line's own word is the one written (`decode_of_encode`). -/
theorem decodeSanityWords : Obligations.DecodeSanityWords := by
  refine ⟨?_, ?_, ?_, ?_, ?_, ?_, ?_, ?_, ?_, ?_, ?_, ?_, ?_⟩ <;> exact decode_of_encode rfl

end Sys2Proof.Laws.RoundTrip
end

section
/-!
O18: AWAIT at its word and when it comes to hold (03 R46; 04 R86, R87; 07 R142).
-/
namespace Sys2Proof.Machine

theorem Core.awaitReady_iff {c : Core} {e : Eng} {f : FlagNo} {n : Nat} : c.awaitReady e f n = true ↔ n ≤ c.flagSeen f ∧ f ∉ c.took ∧
    ∀ g, engNo g < engNo e → ∀ m, (c.seqs.get g).awaiting = some (f, m) → c.flagSeen f < m := by
  have hother (g : Eng) : (decide (engNo e ≤ engNo g) || (match (c.seqs.get g).awaiting with
      | some (f', n') => f' != f || decide (c.flagSeen f < n')
      | none => true)) = true ↔ (engNo g < engNo e → ∀ m, (c.seqs.get g).awaiting = some (f, m) → c.flagSeen f < m) := by
    rw [Bool.or_eq_true, decide_eq_true_iff, ← Nat.not_lt, ← imp_iff_not_or]
    refine imp_congr_right fun _ => ?_
    cases (c.seqs.get g).awaiting with
    | none => simp
    | some x => obtain ⟨f', n'⟩ := x; simp; grind
  unfold Core.awaitReady
  rw [Bool.and_eq_true, Bool.and_eq_true, decide_eq_true_iff, List.all_eq_true, and_assoc]
  refine and_congr Iff.rfl (and_congr (by simp) ⟨fun h g => (hother g).1 (h g (engs_mem g)), fun h g _ => (hother g).2 (h g)⟩)
theorem Core.flagSeen_le (c : Core) (f : FlagNo) : c.flagSeen f ≤ c.flag f := Nat.sub_le _ _
/-- No second await on a flag succeeds in a cycle (04 R87). -/
theorem Core.awaitReady_takeFlag (c : Core) (e : Eng) (f : FlagNo) (n k : Nat) : (c.takeFlag f n).awaitReady e f k = false := by
  rw [Bool.eq_false_iff, Ne, Core.awaitReady_iff]
  rintro ⟨-, hf, -⟩
  exact hf (List.mem_append_right _ (List.mem_singleton_self f))

section
variable {s t : State} {e : Eng} {f : FlagNo} {n : Nat} {i : Instr}

theorem State.awaitShows_vec : s.awaitShows .vec = s.showTo 32#7 fun _ => true := rfl
/-- A write that is shown to a reader is hidden from it no more (07 R142). -/
theorem State.showTo_hide {m : BitVec 7} {j : Nat} (hm : m.getLsbD j = true) {r : Stale}
    (hr : r ∈ (s.showTo m fun _ => true).dev.stale) (hc : r.core = s.cnum) : r.hide.getLsbD j = false := by
  obtain ⟨x, -, hx⟩ := List.mem_map.1 (List.mem_filter.1 hr).1
  split at hx
  · subst hx
    simp [hm]
  · next h =>
    subst hx
    exact absurd (by simp [hc]) h
/-- The event takes the count of the await that it finds holding (03 R46; 04 R86). -/
theorem execEvAwaitSuccess_takes (hs : s.standAt e = some (i, t)) (ha : (s.core.seqs.get e).awaiting = some (f, n))
    (hr : t.core.awaitReady e f n = true) (hh : t.core.halt = .run) (ho : t.core.heldByOthers e = false) :
    let t1 := (t.mapCore fun d => d.takeFlag f n).awaitShows e
    execEvAwaitSuccess e s = if isAwait i then .next (t1.complete (plainInterval e))
      else .next (t1.mapSeq e fun q => { q with awd := true, wait := none, tried := false }) := by
  unfold execEvAwaitSuccess
  rw [hs, ha]
  exact if_neg (by rw [hr, hh, ho]; decide)
end

/-- Settles O18: when an await holds by `Core.awaitReady_iff`, what a tile access sees after it by `State.showTo_hide`. -/
theorem awaitsTake : Obligations.AwaitsTake := by
  refine ⟨fun s e f n c => ?_, fun s t e i f n hs ha hr hh ho => ?_⟩
  · intro takes
    refine ⟨fun h => if_pos h, fun h => if_neg (by simp [h]), fun h => if_pos h, fun h => if_neg (by simp [h]), fun h => ?_,
      Core.awaitReady_takeFlag .., rfl, fun r hr hc => State.showTo_hide (j := 5) rfl hr hc⟩
    obtain ⟨hn, hf, hlow⟩ := Core.awaitReady_iff.1 h
    exact ⟨hn.trans (Core.flagSeen_le _ _), hf, hlow⟩
  · intro t1
    have htake := execEvAwaitSuccess_takes hs ha hr hh ho
    exact ⟨fun hi => htake.trans (if_pos hi), fun hi => htake.trans (if_neg (by simp [hi]))⟩

end Sys2Proof.Machine
end

section
/-!
O29: loop closes (04 R70) and the fetch of text (03 R36, R38; 25 R383).
-/
namespace Sys2Proof.Machine

/-! ### Loop closes -/

section
variable {q : Seq} {l m : LoopRec} {r pre : List LoopRec}

/-- The loop closes at the block of a walk: it has that exit and depth (04 R70). -/
def Seq.closes (q : Seq) (l : LoopRec) : Prop := l.exit = q.pc / 64 ∧ l.depth = q.rstack.length
/-- A loop close counts the index on and rotates where the loop says so (04 R70). -/
def Seq.counted (q : Seq) (l : LoopRec) : Seq :=
  { q with lidx := q.lidx.set l.lvl.val (q.lidx.getD l.lvl.val 0 + 1), rbase := if l.rot then rotated q else q.rbase }
/-- With no trips left those loops stay active that are not its own. -/
def Seq.left (q : Seq) (l : LoopRec) (ls : List LoopRec) : Seq := { q.counted l with loops := ls }

theorem Seq.closes_iff : (l.exit != blkOf q.pc || l.depth != q.rstack.length) = true ↔ ¬q.closes l := by
  simp [Seq.closes, blkOf]
  tauto
theorem Seq.closeFrom_stop (h : ∀ x, r.head? = some x → ¬q.closes x) : q.closeFrom pre r = (q, []) := by
  cases r with
  | nil => rfl
  | cons x r => exact if_pos (Seq.closes_iff.2 (h x rfl))
theorem Seq.closeFrom_closes (h : q.closes l) : q.closeFrom pre (l :: r) =
    if (q.lidx.getD l.lvl.val 0 + 1).toNat < l.n.toNat then ({ q.counted l with pc := l.start * 64 }, [])
    else (((q.left l (pre ++ r)).closeFrom pre r).1, l :: ((q.left l (pre ++ r)).closeFrom pre r).2) :=
  if_neg (mt Seq.closes_iff.1 (not_not.2 h))
/-- With trips left the sequencer goes back to the body. -/
theorem Seq.closeFrom_back (h : q.closes l) (hn : (q.lidx.getD l.lvl.val 0 + 1).toNat < l.n.toNat) :
    q.closeFrom pre (l :: r) = ({ q.counted l with pc := l.start * 64 }, []) := (Seq.closeFrom_closes h).trans (if_pos hn)
/-- With none left the loop is left, and the next one out closes. -/
theorem Seq.closeFrom_out (h : q.closes l) (hn : l.n.toNat ≤ (q.lidx.getD l.lvl.val 0 + 1).toNat) :
    (q.closeFrom pre (l :: r)).1 = ((q.left l (pre ++ r)).closeFrom pre r).1 := by
  rw [Seq.closeFrom_closes h, if_neg (Nat.not_lt.2 hn)]
theorem Seq.closeFrom_pos (q : Seq) (pre r : List LoopRec) : (q.closeFrom pre r).1.pos = q.pos := by
  induction r generalizing q with
  | nil => rfl
  | cons l r ih =>
    by_cases h : q.closes l
    · rw [Seq.closeFrom_closes h]
      split
      · rfl
      · exact ih _
    · rw [Seq.closeFrom_stop (by rintro x ⟨⟩; exact h)]
theorem Seq.close_pos (q : Seq) : q.close.1.pos = q.pos := Seq.closeFrom_pos ..
/-- Where no active loop closes at the block, nothing changes. -/
theorem Seq.close_stop (h : ∀ x ∈ q.loops, ¬q.closes x) : q.close = (q, []) := by
  refine Seq.closeFrom_stop fun x hx => h x ?_
  exact List.dropWhile_subset _ (List.mem_of_mem_head? hx)
/-- The cascade begins at the innermost loop where that has the exit of the block. -/
theorem Seq.close_cons (hq : q.loops = l :: r) (h : q.closes l) : q.close = q.closeFrom [] (l :: r) := by
  unfold Seq.close
  rw [hq]
  simp [h.1, blkOf]
end

/-- What a loop close leaves of the core and the bytes: the walk is closed, and all else but CTL's view stands (04 R70). -/
theorem State.closeLoops_frame (s : State) (e : Eng) :
    (s.closeLoops e).core.seqs.get e = { (s.core.seqs.get e).close.1 with closing := false } ∧ (s.closeLoops e).core.s = s.core.s ∧
      SameBytes s (s.closeLoops e) := by
  unfold State.closeLoops
  extract_lets q r
  let s1 := s.mapSeq e fun _ => { r.1 with closing := false }
  have h1 : s1.core.seqs.get e = { r.1 with closing := false } := PerEng.get_set ..
  split
  · exact ⟨h1, rfl, fun _ => rfl, fun _ => rfl⟩
  · exact ⟨h1, rfl, fun _ => rfl, fun _ => rfl⟩

/-! ### Text -/

section
variable {s : State} {e : Eng}

theorem blockWords_length (bs : List Byte) : (blockWords bs).length = 4 := by simp [blockWords]
theorem blockWords_getD (bs : List Byte) {k : Nat} (h : k < 4) :
    (blockWords bs).getD k 0 = BitVec.ofNat 128 (leNat ((bs.drop (16 * k)).take 16)) := by
  simp [blockWords, List.getD_eq_getElem?_getD, h]
/-- A part of the bytes read from an address on. -/
theorem State.readPhys_drop_take (s : State) (key : Option (BitVec 512)) (a : Nat) {i n m : Nat} (h : i + n ≤ m) :
    ((s.readPhys key a m).drop i).take n = s.readPhys key (a + i) n := by
  refine List.ext_getElem ?_ fun j h1 h2 => ?_
  · simp [State.readPhys]
    omega
  · simp [State.readPhys, Nat.add_assoc]
/-- TEXT_FETCH of a sequencer that stands in a block it has not fetched (03 R38). -/
theorem execEvTextFetch_ok {pa : Nat} {key : Option (BitVec 512)} (hn : (s.core.seqs.get e).ended = false)
    (he : (s.core.seqs.get e).entered = true) (hf : (s.core.seqs.get e).fetch = none)
    (ht : s.textTarget ((s.core.seqs.get e).pc / 64) = .ok { phys := pa, key := key, remote := none }) (hb : s.badMem pa 64 = false) :
    Goes (.evTextFetch e) s (s.fillFetch e ((s.core.seqs.get e).pc / 64) (s.readPhys key pa 64)) := by
  show execEvTextFetch e s = _
  unfold execEvTextFetch
  simp only [hn, he, hf, blkOf, ht, hb, Bool.not_true, Bool.or_false, Option.isSome_none, Bool.false_eq_true, if_false]
theorem execEvTextFetch_error {f : Flt} (hn : (s.core.seqs.get e).ended = false)
    (he : (s.core.seqs.get e).entered = true) (hf : (s.core.seqs.get e).fetch = none)
    (ht : s.textTarget ((s.core.seqs.get e).pc / 64) = .error f) : Goes (.evTextFetch e) s
    (({ s with who := e, cur := { word := 0, pc := 64 * ((s.core.seqs.get e).pc / 64), pos := (s.core.seqs.get e).pos, slot := 0 } } : State).trap f) := by
  show execEvTextFetch e s = _
  unfold execEvTextFetch
  simp only [hn, he, hf, blkOf, ht, Bool.not_true, Bool.or_false, Option.isSome_none, Bool.false_eq_true, if_false]
/-- A precise trap's record names its cause, the running word's place and the sequencer (25 R371). -/
theorem State.trap_record (s : State) (f : Flt) : (s.trap f).core.lastc = f.cause ∧
    (s.trap f).core.traprec.getD 1 0 = BitVec.ofNat 64 (s.cur.pc % 2 ^ 30) ∧
    ((s.trap f).core.traprec.getD 0 0).extractLsb' 8 3 = s.who.code := by
  unfold State.trap State.trapWith
  rw [State.mapCore_core]
  obtain ⟨hrec, hlast, -⟩ := Core.takeTrap_frame s.core _ _ _
  rw [hrec, hlast]
  exact ⟨rfl, rfl, TrapInfo.words_eng _ _⟩
end

/-- Settles O29: the cascade by the equations of `Seq.closeFrom`, the fetch by those of `execEvTextFetch`. -/
theorem loopClosesAndText : Obligations.LoopClosesAndText := by
  refine ⟨fun s e l r => ?_, fun s e => ?_⟩
  · intro q turned hq
    obtain ⟨hseq, hregs, hbytes⟩ := s.closeLoops_frame e
    refine ⟨s.closeLoops e, if_pos hq, ?_⟩
    rw [hseq]
    refine ⟨rfl, q.close_pos, hbytes, hregs, fun hnone => ?_, fun hl hlen hx hd => ?_⟩
    · rw [Seq.close_stop fun x hx hc => (hnone x hx).elim (· hc.1) (· hc.2)]
      exact ⟨rfl, rfl, rfl⟩
    · have hc : q.closes l := ⟨hx, hd⟩
      rw [Seq.close_cons hl hc]
      refine ⟨fun hn => ?_, fun hn hr => ?_, fun m r' hn hr hmx hmd hlv hm => ?_⟩
      · rw [Seq.closeFrom_back hc hn]
        exact ⟨rfl, hl, rfl, rfl⟩
      · rw [Seq.closeFrom_out hc hn, List.nil_append, Seq.closeFrom_stop (q := q.left l r) fun x hx hc => (hr x hx).elim (· hc.1) (· hc.2)]
        exact ⟨rfl, rfl, rfl, rfl⟩
      · subst hr
        have hidx : (q.lidx.set l.lvl.val (q.lidx.getD l.lvl.val 0 + 1)).getD m.lvl.val 0 = q.lidx.getD m.lvl.val 0 := by
          have : l.lvl.val ≠ m.lvl.val := fun h => hlv (Fin.ext h.symm)
          simp [List.getD_eq_getElem?_getD, this]
        rw [Seq.closeFrom_out hc hn, List.nil_append, Seq.closeFrom_back (q := q.left l (m :: r')) ⟨hmx, hmd⟩ (hidx.symm ▸ hm)]
        refine ⟨rfl, rfl, ?_⟩
        show ((q.left l (m :: r')).lidx.set m.lvl.val ((q.left l (m :: r')).lidx.getD m.lvl.val 0 + 1)).getD m.lvl.val 0 = _
        have hlt : m.lvl.val < (q.left l (m :: r')).lidx.length := by
          have := m.lvl.isLt
          simp only [Seq.left, Seq.counted, List.length_set]
          omega
        rw [List.getD_eq_getElem?_getD, List.getElem?_set_self hlt]
        exact congrArg (· + 1) hidx
  · intro q hn he hf
    refine ⟨fun pa key ht hb => ⟨_, blockWords (s.readPhys key pa 64), execEvTextFetch_ok hn he hf ht hb, ?_, blockWords_length _,
      ⟨fun _ => rfl, fun _ => rfl⟩, rfl, fun k hk => ?_⟩, fun f ht => ?_⟩
    · exact congrArg Seq.fetch (PerEng.get_set ..)
    · rw [blockWords_getD _ hk, State.readPhys_drop_take s key pa (by omega)]
    · exact ⟨_, execEvTextFetch_error hn he hf ht, State.trap_record _ f⟩

end Sys2Proof.Machine
end

section
/-!
O21 fails: its clause of the latency reads `∀ r, v.dst ≠ .q r → f.rem = …`. For a word whose destination is queue 0 the premise holds at
queue 1, so the clause claims the latency of the class for every destination, and in interlocked mode an append lands after every earlier
append to its queue (04 R81; 07 R143).
-/
namespace Sys2Proof.Machine

section
variable {s : State} {v : VSem} {ts : List Tile} {qs : List (List Tile)} {i : Instr}

/-- An operation word of VEC runs as what it means. -/
theorem exec_vecSem (h : vecSem i = some v) : exec i s = s.vecWord v := by
  unfold vecSem at h
  split at h <;> cases h <;> rfl

/-- The virtual cycles until a word's result lands: those of its class, and an append waits for the earlier ones to its queue (04 R79, R81; 08
R162). -/
def State.vecLatency (s : State) (v : VSem) (qs : List (List Tile)) : Nat :=
  match v.dst with
  | .q r => { s.core with queues := qs, legacycnt := if v.legacy then s.core.legacycnt + 1 else s.core.legacycnt }.appendRem .vec r
      (s.core.latency v.cls s.tick)
  | _ => s.core.latency v.cls s.tick
/-- The state after a word's result has been issued: its queues popped, LEGACYCNT counted (08 R146, R149). -/
def State.vecIssued (s : State) (v : VSem) (ts : List Tile) (qs : List (List Tile)) : State :=
  (s.mapCore fun c => { c with queues := qs, legacycnt := if v.legacy then c.legacycnt + 1 else c.legacycnt }.issue
    (s.flight (s.vecLatency v qs) ((v.run ts).effs s.cnum s.seq v.dst) .own)).complete 2
/-- A word that nothing holds and that finds no fault issues its result (08 R146). -/
theorem State.vecWord_issues (h : s.vecReady v ts qs) (hb : (v.run ts).bad = none)
    (hn : s.core.nantAt s.cur.pos s.cur.slot = true → (v.run ts).nan = none) : s.vecWord v = .next (s.vecIssued v ts qs) := by
  obtain ⟨hsrc, hdst, hroom, hpaths, hhaz, hctl, hread, hq, hbad⟩ := h
  have hnan : (if s.core.nantAt s.cur.pos s.cur.slot then (v.run ts).nan else none) = none := by
    split
    · next h => exact hn h
    · rfl
  unfold State.vecWord State.withPaths State.withoutHazard State.withNant
  rw [State.pathsOpen] at hpaths
  simp only [hsrc, hdst, Nat.not_lt.2 hroom, hpaths, hhaz, hctl, hread, hq, hbad, hb, hnan, Bool.and_true, Bool.not_true, Bool.false_eq_true,
    if_true, if_false]
  rfl
end

/-- A result of VEC on its way to queue 0, twelve virtual cycles from landing, as one of the column axis is when it issues. -/
def appendInFlight : Flight :=
  { id := 0, eng := .vec, rem := 12, effs := [.queue 0 (List.replicate laneCount 0)], work := none, post := none, rls := [], pins := [],
    place := At.none, owner := .own }
/-- A core in interlocked mode at a word of VEC, with that result in flight. -/
def appendAhead : State :=
  { State.reset with who := .vec, core := { Core.reset with flights := [appendInFlight], nextId := 1 } }

/-- VIOTA to queue 0 is ready behind that result; its class lands after four cycles, its append after twelve. -/
theorem appendAhead_ready : appendAhead.vecReady (semViota .lin (.q 0) 0) [] appendAhead.core.queues :=
  ⟨rfl, rfl, by decide, rfl, rfl, rfl, rfl, rfl, rfl⟩
theorem appendAhead_latency : appendAhead.core.latency (semViota .lin (.q 0) 0).cls appendAhead.tick = 4 ∧
    appendAhead.vecLatency (semViota .lin (.q 0) 0) appendAhead.core.queues = 12 := ⟨rfl, rfl⟩

/-- Refutes O21: VIOTA to queue 0 behind an append of twelve cycles lands after twelve, not after the four of its class. -/
theorem not_vecWordsIssue : ¬ Obligations.VecWordsIssue := by
  rintro ⟨h, -, -⟩
  obtain ⟨t, f, hgo, hflights, -, -, -, -, hrem, -⟩ :=
    h appendAhead (.viota .lin (.q 0) 0) _ [] _ rfl appendAhead_ready rfl (fun _ => rfl)
  have hrun := (exec_vecSem (i := .viota .lin (.q 0) 0) rfl).trans (State.vecWord_issues appendAhead_ready rfl fun _ => rfl)
  obtain rfl := Host.Outcome.next.inj (hgo.symm.trans hrun)
  obtain rfl := List.singleton_inj.1 (List.append_cancel_left (as := appendAhead.core.flights) hflights)
  obtain ⟨hclass, happend⟩ := appendAhead_latency
  exact absurd (happend.symm.trans ((hrem 1 (by decide)).trans hclass)) (by decide)

end Sys2Proof.Machine
end

section
/-!
O38: FAB words enter the queue of their unit (03 R54; 15 R254, R255, R259, R260; 16 R270).
-/
namespace Sys2Proof.Machine

/-! ### Updates of the records and the almanac -/

/-- Two cores that differ in their records and their almanac alone. -/
def Core.SameButRecords (c d : Core) : Prop := ∃ rs rl, d = { c with recs := rs, rules := rl }

section
variable {c d e : Core}

theorem Core.SameButRecords.refl (c : Core) : c.SameButRecords c := ⟨c.recs, c.rules, rfl⟩
theorem Core.SameButRecords.trans (h : c.SameButRecords d) (h' : d.SameButRecords e) : c.SameButRecords e := by
  obtain ⟨rs, rl, rfl⟩ := h
  obtain ⟨rs', rl', rfl⟩ := h'
  exact ⟨rs', rl', rfl⟩
theorem Core.SameButRecords.foldl {α : Type} {f : Core → α → Core} (hf : ∀ (c : Core) x, c.SameButRecords (f c x)) (l : List α) (c : Core) :
    c.SameButRecords (l.foldl f c) := by
  induction l generalizing c with
  | nil => exact .refl c
  | cons x r ih => exact (hf c x).trans (ih _)
theorem Core.mapRec_records (c : Core) (n : Nat) (f : OpenRec → OpenRec) : c.SameButRecords (c.mapRec n f) := ⟨_, c.rules, rfl⟩
theorem Core.freeRecs_records (c : Core) : c.SameButRecords c.freeRecs := ⟨_, c.rules, rfl⟩
theorem Core.freeRule_records (c : Core) (id : Nat) (b : Bool) : c.SameButRecords (c.freeRule id b) := by
  unfold Core.freeRule
  split
  · exact .refl c
  · exact (Core.SameButRecords.foldl (fun c o => c.mapRec_records o _) _ c).trans ⟨_, _, rfl⟩
theorem Core.sweepRules_records (c : Core) (k : Nat) : c.SameButRecords (c.sweepRules k) := by
  induction k generalizing c with
  | zero => exact c.freeRecs_records
  | succ k ih =>
    unfold Core.sweepRules
    split
    · exact c.freeRecs_records
    · exact (c.freeRule_records _ _).trans (ih _)
theorem Core.dropReader_records (c : Core) (o n m : Nat) : c.SameButRecords (c.dropReader o n m) :=
  (c.mapRec_records o _).trans (Core.sweepRules_records _ 32)
theorem Core.dropBind_records (c : Core) (b : Bind) : c.SameButRecords (c.dropBind b) := by
  unfold Core.dropBind
  dsimp only
  split
  · exact c.dropReader_records _ _ _
  · exact .refl c
theorem Core.claimRead_records {o m : Nat} {x : Nat × Core} (h : c.claimRead o m = .ok x) : c.SameButRecords x.2 := by
  unfold Core.claimRead at h
  dsimp only at h
  split at h
  · cases h
  · split at h
    · cases h
    · cases h
      exact c.mapRec_records _ _
theorem Core.claimBind_records {o r : Operand} (h : c.claimBind o = .ok (d, r)) : c.SameButRecords d := by
  unfold Core.claimBind at h
  split at h
  · split at h
    · cases h
    · next hx =>
      cases h
      exact Core.claimRead_records hx
  · cases h
    exact .refl c
end

/-! ### The await clause of a tail -/

section
variable {s : State} {tl : Tail} {k : State → Out}

/-- A word whose await clause finds its count goes on with the count taken (03 R46). -/
theorem State.withAwait_go (h : s.awaits tl = true) : s.withAwait tl k = k (s.awaited tl) := by
  unfold State.awaits at h
  unfold State.withAwait State.awaited
  cases ha : tl.await with
  | none => rfl
  | some a =>
    rw [ha] at h
    dsimp only at h ⊢
    split
    · rfl
    · next hd =>
      rw [Bool.eq_false_iff.2 hd, Bool.false_or] at h
      exact if_pos h
/-- The await clause changes a flag, the marks of the cycle's awaits and of the sequencer's alone. -/
theorem State.awaited_frame (s : State) (tl : Tail) : ∃ f m q b, q.get s.who = { s.seq with awd := b } ∧
    s.awaited tl = { s with core := { s.core with f := f, took := m, seqs := q } } := by
  have hrefl : ∃ f m q b, q.get s.who = { s.seq with awd := b } ∧ s = { s with core := { s.core with f := f, took := m, seqs := q } } :=
    ⟨s.core.f, s.core.took, s.core.seqs, s.seq.awd, rfl, rfl⟩
  unfold State.awaited
  split
  · exact hrefl
  · split
    · exact hrefl
    · exact ⟨_, _, _, true, PerEng.get_set .., rfl⟩
theorem State.awaited_seq (s : State) (tl : Tail) : ∃ b, (s.awaited tl).seq = { s.seq with awd := b } := by
  obtain ⟨f, m, q, b, hq, hu⟩ := s.awaited_frame tl
  exact ⟨b, by rw [hu]; exact hq⟩
@[simp] theorem State.awaited_fabric (s : State) (tl : Tail) : (s.awaited tl).core.fabric = s.core.fabric := by
  obtain ⟨f, m, q, b, -, hu⟩ := s.awaited_frame tl
  rw [hu]
@[simp] theorem State.awaited_cur (s : State) (tl : Tail) : (s.awaited tl).cur = s.cur := by
  obtain ⟨f, m, q, b, -, hu⟩ := s.awaited_frame tl
  rw [hu]
theorem State.awaited_checkIfOpen (s : State) (tl : Tail) (v : W256) (r : Bool) :
    (s.awaited tl).core.checkIfOpen v r = s.core.checkIfOpen v r := by
  obtain ⟨f, m, q, b, -, hu⟩ := s.awaited_frame tl
  rw [hu]
  rfl
theorem State.awaited_bindClaims (s : State) (tl : Tail) (v : W256) (p : Nat) :
    bindClaims (s.awaited tl).seq v p = bindClaims s.seq v p := by
  obtain ⟨b, hb⟩ := s.awaited_seq tl
  rw [hb]
  rfl
end

/-! ### The queue of the unit -/

section
variable {s u : State} {rs : List OpenRec} {g : Fabric} {i : Instr} {x : FabCmd}

/-- Two states that differ, as far as a queued word's statement says, in nothing but records and the fabric. -/
structure State.Before (s : State) (rs : List OpenRec) (g : Fabric) (u : State) : Prop where
  fabric : u.core.fabric = g
  bytes : SameBytes s u
  regs : u.core.s = s.core.s
  recs : u.core.recs = rs
  pc : u.seq.pc = s.seq.pc

theorem State.awaited_before (s : State) (tl : Tail) : s.Before s.core.recs s.core.fabric (s.awaited tl) := by
  obtain ⟨f, m, q, b, hq, hu⟩ := s.awaited_frame tl
  have hpc : (q.get s.who).pc = s.seq.pc := by rw [hq]
  rw [hu]
  exact ⟨rfl, ⟨fun _ => rfl, fun _ => rfl⟩, rfl, rfl, hpc⟩
theorem State.Before.mapFab (h : s.Before rs g u) (f : Fabric → Fabric) : s.Before rs (f g) (u.mapFab f) :=
  ⟨congrArg f h.fabric, h.bytes, h.regs, h.recs, h.pc⟩
/-- A word that goes into the queue of the unit: it stands there, and a ninth waits at it (15 R254). -/
theorem State.Before.queued (h : s.Before rs g u) (hi : exec i s = u.fabQueue x) : ∃ t, Goes i s t ∧
    t.core.fabric = { g with queue := g.queue ++ [x] } ∧ SameBytes s t ∧ t.core.s = s.core.s ∧ t.core.recs = rs ∧
    (g.queue.length < 8 → t.seq.pc = s.seq.pc + 16) ∧ (8 ≤ g.queue.length → t.seq.pc = s.seq.pc ∧ t.seq.wait = some .internal) := by
  obtain ⟨rfl, hb, hs, rfl, hpc⟩ := h
  have hlen : (u.core.fabric.queue ++ [x]).length = u.core.fabric.queue.length + 1 := List.length_append
  unfold State.fabQueue at hi
  extract_lets s1 at hi
  have h1 : s1.core.fabric.queue.length = u.core.fabric.queue.length + 1 := hlen
  by_cases hn : s1.core.fabric.queue.length ≤ 8
  · rw [if_pos hn] at hi
    refine ⟨_, hi, rfl, hb, hs, rfl, fun _ => ?_, fun h8 => by omega⟩
    exact (congrArg Seq.pc (PerEng.get_set ..)).trans ((Seq.advance_pc u.seq).trans (congrArg (· + 16) hpc))
  · rw [if_neg hn] at hi
    refine ⟨_, hi, rfl, hb, hs, rfl, fun h8 => by omega, fun _ => ⟨?_, congrArg Seq.wait (PerEng.get_set ..)⟩⟩
    refine (congrArg Seq.pc (PerEng.get_set ..)).trans ?_
    exact (congrArg Seq.pc (PerEng.get_set ..)).trans hpc
end

/-! ### The words -/

section
variable {s : State} {bad : Bool} {v : W256} {tl : Tail} {k : State → Out}

/-- The checks of a word with a handle, at its sequencer: what is refused at decode, its alignment, its await clause (03 R46, R50, R54). -/
def State.fabChecks (s : State) (bad : Bool) (v : W256) (tl : Tail) (k : State → Out) : Out :=
  if bad then .next (s.trap fIllop) else s.withAligned v fun s => s.withAwait tl k

theorem State.fabChecks_illop (h : bad = true) : s.fabChecks bad v tl k = .next (s.trap fIllop) := if_pos h
theorem State.fabChecks_misaligned (h : bad = false) (ha : handleAligned v = false) :
    s.fabChecks bad v tl k = .next (s.trap { cause := 0x02, addr := hBase v }) := by
  rw [State.fabChecks, h, State.withAligned, ha]
  rfl
theorem State.fabChecks_go (h : bad = false) (ha : handleAligned v = true) (hw : s.awaits tl = true) :
    s.fabChecks bad v tl k = k (s.awaited tl) := by
  rw [State.fabChecks, h, State.withAligned, ha]
  exact State.withAwait_go hw
end

/-! ### What a word does once its checks are done -/

/-- FCFG: the pattern is resolved and the word queued (15 R256). -/
def State.fcfgGo (h : HReg) (tl : Tail) (v : W256) (u : State) : Out :=
  match u.core.checkIfOpen v true with
  | .error f => .next (u.trap f)
  | .ok _ => match u.fabOperand (fabPattern v 0) .rd with
    | .error f => .next (u.trap f)
    | .ok o => u.fabQueue { fabCmd (.fcfg h tl) u.cur tl.post with opnd := some o }
/-- The pattern of a binding, one that claims from its record's read cursor on (16 R270). -/
def State.bindPattern (s : State) (v : W256) (cnt : W32) (port : Nat) : Operand :=
  if bindClaims s.seq v port then { fabPattern v cnt with ring := true, slice := (s.core.orec (hOtid v)).rc } else fabPattern v cnt
/-- A binding in place of an earlier one of its port, which gives its claim back (15 R255; 16 R269). -/
def State.rebound (u : State) (c : Core) (b : Bind) : State :=
  let c1 := (c.fabric.pendBinds.filter fun y => y.port == b.port).foldl Core.dropBind c
  { u with core := c1.mapFab fun x => { x with pendBinds := x.pendBinds.filter (fun (y : Bind) => y.port != b.port) ++ [b] } }
/-- FBIND and FBIND.C: the pattern is resolved and its slices claimed (15 R255; 16 R270). -/
def State.bindGo (i : Instr) (port : Nat) (compact : Bool) (cnt : W32) (tl : Tail) (v : W256) (u : State) : Out :=
  match u.core.checkIfOpen v (port < 8) with
  | .error f => .next (u.trap f)
  | .ok _ => match u.fabOperand (u.bindPattern v cnt port) (if port < 8 then .rd else .wr) with
    | .error f => .next (u.trap f)
    | .ok o2 => match u.core.claimBind o2 with
      | .error f => .next (u.trap f)
      | .ok (c, o) => (u.rebound c { port := port, compact := compact, opnd := o, sees := u.tailSees tl }).fabQueue (fabCmd i u.cur tl.post)
/-- The end of a phase goes into the queue, with its record's operand if it has one (15 R259, R260). -/
def State.endGo (i : Instr) (tl : Tail) (o : Option Operand) (u : State) : Out :=
  (u.mapFab fun x => { x with openPh := none }).fabQueue { fabCmd i u.cur tl.post with opnd := o, live := u.core.fabric.openPh.isSome }
/-- FBAR.REC and FSTOP.REC: the record's operand is resolved (15 R259). -/
def State.recordGo (i : Instr) (tl : Tail) (v : W256) (u : State) : Out :=
  match u.core.checkIfOpen v false with
  | .error f => .next (u.trap f)
  | .ok _ => match u.fabOperand (fabPattern v 0) .wr with
    | .error f => .next (u.trap f)
    | .ok o => u.endGo i tl (some o)

section
variable {s : State} {tl : Tail} {v : W256} {o : Operand}

theorem State.fcfgGo_queues {h : HReg} (hk : s.core.checkIfOpen v true = .ok ())
    (ho : (s.awaited tl).fabOperand (fabPattern v 0) .rd = .ok o) : State.fcfgGo h tl v (s.awaited tl) =
      (s.awaited tl).fabQueue { fabCmd (.fcfg h tl) s.cur tl.post with opnd := some o } := by
  unfold State.fcfgGo
  rw [State.awaited_checkIfOpen, hk]
  dsimp only
  rw [ho, State.awaited_cur]
theorem State.recordGo_queues {i : Instr} (hk : s.core.checkIfOpen v false = .ok ())
    (ho : (s.awaited tl).fabOperand (fabPattern v 0) .wr = .ok o) :
    State.recordGo i tl v (s.awaited tl) = (s.awaited tl).endGo i tl (some o) := by
  unfold State.recordGo
  rw [State.awaited_checkIfOpen, hk]
  dsimp only
  rw [ho]
theorem State.awaited_bindPattern (cnt : W32) (p : Nat) : (s.awaited tl).bindPattern v cnt p = s.bindPattern v cnt p := by
  obtain ⟨f, m, q, b, -, hu⟩ := s.awaited_frame tl
  have hr : (s.awaited tl).core.orec (hOtid v) = s.core.orec (hOtid v) := by
    rw [hu]
    rfl
  unfold State.bindPattern
  rw [State.awaited_bindClaims, hr]
theorem State.bindGo_queues {i : Instr} {port : Nat} {x : Bool} {cnt : W32} {c : Core} {r : Operand}
    (hk : s.core.checkIfOpen v (decide (port < 8)) = .ok ())
    (ho : (s.awaited tl).fabOperand (s.bindPattern v cnt port) (if port < 8 then .rd else .wr) = .ok o)
    (hr : (s.awaited tl).core.claimBind o = .ok (c, r)) : State.bindGo i port x cnt tl v (s.awaited tl) =
      ((s.awaited tl).rebound c { port := port, compact := x, opnd := r, sees := (s.awaited tl).tailSees tl }).fabQueue
        (fabCmd i s.cur tl.post) := by
  unfold State.bindGo
  rw [State.awaited_checkIfOpen, hk, State.awaited_bindPattern]
  dsimp only
  rw [ho]
  dsimp only
  rw [hr, State.awaited_cur]
/-- A claim and the claims given back change the records and the almanac alone. -/
theorem State.Before.rebound {u : State} {rs : List OpenRec} {g : Fabric} {c : Core} {b : Bind} (h : s.Before rs g u)
    (hc : u.core.SameButRecords c) : s.Before ((g.pendBinds.filter fun y => y.port == b.port).foldl Core.dropBind c).recs
      { g with pendBinds := g.pendBinds.filter (fun y => y.port != b.port) ++ [b] } (u.rebound c b) := by
  obtain ⟨rfl, hb, hs, -, hpc⟩ := h
  have hf : c.fabric = u.core.fabric := by
    obtain ⟨rs, rl, rfl⟩ := hc
    rfl
  have hall := hc.trans (.foldl Core.dropBind_records (c.fabric.pendBinds.filter fun y => y.port == b.port) c)
  unfold State.rebound
  rw [hf] at hall ⊢
  revert hall
  generalize (u.core.fabric.pendBinds.filter fun y => y.port == b.port).foldl Core.dropBind c = d
  rintro ⟨rs, rl, rfl⟩
  exact ⟨rfl, hb, hs, rfl, hpc⟩
end

/-! ### The words at their sequencer -/

/-- What R254 and R256 refuse of FCFG at decode. -/
def fcfgBad (v : W256) (f : Fabric) : Bool := !(handleOk v [0, 1] && hRank v == 1 && hFmt v == 0) || f.openPh.isSome
/-- What R254, R255 and 16 R270 refuse of a binding at decode. -/
def bindBad (q : Seq) (v : W256) (port : Nat) (cnt : W32) : Bool :=
  !(handleOk v [0, 1] && (hFmt v == 0 || hFmt v == 1) && bindShape q v port (fabPattern v cnt).count)
theorem fcfgBad_eq_false_iff {v : W256} {f : Fabric} :
    fcfgBad v f = false ↔ handleOk v [0, 1] = true ∧ hRank v = 1 ∧ hFmt v = 0 ∧ f.openPh = none := by
  simp [fcfgBad, and_assoc]
theorem bindBad_eq_false_iff {q : Seq} {v : W256} {port : Nat} {cnt : W32} : bindBad q v port cnt = false ↔
    handleOk v [0, 1] = true ∧ (hFmt v = 0 ∨ hFmt v = 1) ∧ bindShape q v port (fabPattern v cnt).count = true := by
  simp [bindBad, and_assoc, or_iff_not_imp_left]

section
variable {s : State} (hc : s.seq.claim = none) (hp : s.core.ctlPassed s.cur.pos s.cur.slot = true)
include hc

theorem State.fabWord_go {k : State → Out} : s.fabWord k = k s := if_neg (by rw [hc]; decide)
theorem exec_fgo (n : BitVec 8) (tl : Tail) : exec (.fgo n tl) s =
    if s.core.fabric.openPh.isSome || s.core.fabric.pendBinds.any fun b => !b.isInput && hOpen b.opnd.h then .next (s.trap fIllop)
    else s.withAwait tl fun u => (u.mapFab fun x => { x with pendBinds := [], openPh := some n }).fabQueue
      { fabCmd (.fgo n tl) u.cur tl.post with binds := s.core.fabric.pendBinds, sees := u.tailSees tl } := by
  show execFgo n tl s = _
  exact State.fabWord_go hc
theorem State.endPhase_plain (i : Instr) (bad : State → Bool) (tl : Tail) :
    s.endPhase i none bad tl = if bad s then .next (s.trap fIllop) else s.withAwait tl (State.endGo i tl none) := by
  unfold State.endPhase
  exact State.fabWord_go hc

include hp
theorem State.withHandle_go {h : HReg} {k : W256 → State → Out} :
    (s.fabWord fun s => s.withHO h k) = k (s.core.handleAt h s.cur.pos s.cur.slot) s :=
  (State.fabWord_go hc).trans (if_pos hp)
theorem exec_fcfg (h : HReg) (tl : Tail) : let v := s.core.handleAt h s.cur.pos s.cur.slot
    exec (.fcfg h tl) s = s.fabChecks (fcfgBad v s.core.fabric) v tl (State.fcfgGo h tl v) := State.withHandle_go hc hp
theorem State.bindPort_checks (i : Instr) (h : HReg) (port : Nat) (x : Bool) (cnt : W32) (tl : Tail) :
    let v := s.core.handleAt h s.cur.pos s.cur.slot
    s.bindPort i h port x cnt tl = s.fabChecks (bindBad s.seq v port cnt) v tl (State.bindGo i port x cnt tl v) := State.withHandle_go hc hp
theorem State.endPhase_checks (i : Instr) (h : HReg) (bad : State → Bool) (tl : Tail) : let v := s.core.handleAt h s.cur.pos s.cur.slot
    s.endPhase i (some h) bad tl = s.fabChecks (bad s || !recordOk v) v tl (State.recordGo i tl v) := State.withHandle_go hc hp
end

/-- Settles O38: each word by its equation, what it queues by `State.Before.queued`. -/
theorem fabricWordsQueue : Obligations.FabricWordsQueue := by
  intro s h port out cnt n tl clause o hc hp v u f queuedAt queued plain formed config pattern binds recorded
  have hf : f = s.core.fabric := s.awaited_fabric tl
  have hu : s.Before s.core.recs f u := hf ▸ s.awaited_before tl
  have hconfig : config ↔ fcfgBad v s.core.fabric = false := by rw [fcfgBad_eq_false_iff, ← hf]
  have hformed (p : Nat) : formed p ↔ bindBad s.seq v p cnt = false := bindBad_eq_false_iff.symm
  have hbad (m : BitVec 8) : fbarBad m s = true ↔ f.openPh ≠ some m := by simp [fbarBad, hf]
  have hbind (i : Instr) (p : Nat) (x : Bool) (hi : exec i s = s.bindPort i h p x cnt tl) (hw : s.awaits tl = true)
      (hok : formed p) (ha : handleAligned v = true) : binds i p x := fun c r hk ho hr =>
    (hu.rebound (Core.claimBind_records hr)).queued (hi.trans ((State.bindPort_checks hc hp ..).trans
      ((State.fabChecks_go ((hformed p).1 hok) ha hw).trans (State.bindGo_queues hk ho hr))))
  have hend (i : Instr) (y : Option Operand) (hi : exec i s = u.endGo i tl y) :
      queued i { f with openPh := none } { plain i with opnd := y, live := f.openPh.isSome } :=
    (hu.mapFab fun x => { x with openPh := none }).queued (by rw [hi, State.endGo, State.awaited_cur])
  have hrec (i : Instr) (bad : State → Bool) (hi : exec i s = s.endPhase i (some h) bad tl) (hb : bad s = false)
      (hw : s.awaits tl = true) (ha : handleAligned v = true) (hr : recorded) :
      queued i { f with openPh := none } { plain i with opnd := some o, live := f.openPh.isSome } := by
    obtain ⟨hok, hk, ho⟩ := hr
    exact hend i _ (hi.trans ((State.endPhase_checks hc hp ..).trans
      ((State.fabChecks_go (by rw [hb, hok]; rfl) ha hw).trans (State.recordGo_queues hk ho))))
  refine ⟨fun hw => ⟨fun hok ha hk ho => ?_, hbind _ _ _ rfl hw, hbind _ _ _ rfl hw, fun hopen hports => ?_, fun hopen => ⟨?_, fun ha hr => ?_⟩,
    ?_, hrec _ _ rfl rfl hw⟩, fun hn => ?_, fun hn => ?_, fun hn => ?_, fun hn => ?_, fun hn => ?_, fun hn => ?_, fun hn => ?_, fun ha => ?_, ?_⟩
  · exact hu.queued ((exec_fcfg hc hp h tl).trans ((State.fabChecks_go (hconfig.1 hok) ha hw).trans (State.fcfgGo_queues hk ho)))
  · refine (hu.mapFab fun x => { x with pendBinds := [], openPh := some n }).queued ?_
    rw [exec_fgo hc, State.withAwait_go hw, if_neg, State.awaited_cur, ← hf]
    rw [← hf, hopen]
    simpa [Bind.isInput, or_iff_not_imp_left] using hports
  · have := hend (.fbar n tl) none ((State.endPhase_plain hc ..).trans ((if_neg (mt (hbad n).1 (not_not.2 hopen))).trans
      (State.withAwait_go hw)))
    rwa [hopen] at this
  · have := hrec (.fbarRec h n tl) _ rfl (Bool.eq_false_iff.2 (mt (hbad n).1 (not_not.2 hopen))) hw ha hr
    rwa [hopen] at this
  · exact hend (.fstop tl) none ((State.endPhase_plain hc (.fstop tl) (fun _ => false) tl).trans (State.withAwait_go hw))
  · exact (exec_fcfg hc hp h tl).trans (State.fabChecks_illop (by simpa using mt hconfig.2 hn))
  · refine (exec_fgo hc n tl).trans (if_pos ?_)
    rw [← hf]
    simpa [Bind.isInput] using hn
  · exact (State.bindPort_checks hc hp ..).trans (State.fabChecks_illop (by simpa using mt (hformed _).2 hn))
  · exact (State.bindPort_checks hc hp ..).trans (State.fabChecks_illop (by simpa using mt (hformed _).2 hn))
  · exact (State.endPhase_plain hc ..).trans (if_pos ((hbad n).2 hn))
  · refine (State.endPhase_checks hc hp ..).trans (State.fabChecks_illop ?_)
    rw [Bool.or_eq_true, hbad, Bool.not_eq_true']
    exact hn
  · exact (State.endPhase_checks hc hp ..).trans (State.fabChecks_illop (by rw [hn]; rfl))
  · intro misaligned
    refine ⟨fun hok => (exec_fcfg hc hp h tl).trans (State.fabChecks_misaligned (hconfig.1 hok) ha),
      fun hok => (State.bindPort_checks hc hp ..).trans (State.fabChecks_misaligned ((hformed _).1 hok) ha),
      fun hok => (State.bindPort_checks hc hp ..).trans (State.fabChecks_misaligned ((hformed _).1 hok) ha), fun hok => ⟨?_, fun hopen => ?_⟩⟩
    · exact (State.endPhase_checks hc hp ..).trans (State.fabChecks_misaligned (by rw [hok]; rfl) ha)
    · refine (State.endPhase_checks hc hp ..).trans (State.fabChecks_misaligned ?_ ha)
      rw [hok, Bool.eq_false_iff.2 (mt (hbad n).1 (not_not.2 hopen))]
      rfl
  · exact (State.Before.mk rfl ⟨fun _ => rfl, fun _ => rfl⟩ rfl rfl rfl).queued
      (State.fabWord_go hc (k := fun s => s.fabQueue (fabCmd (.postTail .fab clause) s.cur (some clause))))

end Sys2Proof.Machine
end

section
/-!
O43 fails at its clause of SCLOSE away from the home (18 R300; 19 R311): the word tells every entry of the stream's name to leave, and an
entry leaves for `.gone` or for the home's module by its own `mine`. The statement's premises do not say that a stream has one entry: with
a second one of the same SID and home rank, the home's, that one is found after the close, and its send end is gone and not away.
-/
namespace Sys2Proof.Machine

section
variable {s : State} {r : HReg} {want : Option Bool} {h : Home} {e : Bool} {k : Home → Bool → State → Out}

/-- Where this module knows the end, a word over it goes on without asking the home (18 R290). -/
theorem State.withEnd_go (ha : s.asksHome (s.core.getH r) = false) (hc : s.checkEnd (s.core.getH r) want = .ok (h, e, s)) :
    s.withEnd r want k = k h e s := by
  unfold State.withEnd
  refine (if_neg (by rw [ha]; decide)).trans ?_
  dsimp only
  rw [hc]
theorem State.withSt_go {k : State → Out} (hp : s.core.pathOpen .st s.cur.pos s.cur.slot = true) : s.withSt k = k s :=
  if_pos (by rw [List.all_cons, hp]; rfl)
/-- The state after SCLOSE: the entries of the stream have left, the home is told, the handle is cleared (18 R300). -/
def State.closedEnd (s : State) (r : HReg) (h : Home) : State :=
  (((s.mapHome h fun x => { x.leave false with notice := none }).tell [h.toHome (.closed h.next)]).mapCore fun c => c.setH r 0).complete 1
theorem sclose_closes (hp : s.core.pathOpen .st s.cur.pos s.cur.slot = true) (ha : s.asksHome (s.core.getH r) = false)
    (hc : s.checkEnd (s.core.getH r) (some false) = .ok (h, e, s)) : Goes (.sclose r) s (s.closedEnd r h) := by
  show execSclose r s = _
  unfold execSclose
  rw [State.withSt_go hp, State.withEnd_go ha hc]
  rfl
end

/-- An entry at rank 1 of stream 0, whose home is rank 0: its send end is here. -/
def sendEndAway : Home := { Home.foreign 0 0 1 [] 0 with locS := .here 0 0 }
/-- A second entry of that name, as the home has it: both ends are here. -/
def sendEndHome : Home := { sendEndAway with mine := true, locR := .here 0 0 }
/-- A task of rank 1 that holds the handle of that send end, on a module with both entries. -/
def twoEntries : State :=
  { State.reset with
    core := { Core.reset with task := some { placedTask with rank := 1, nranks := 2 }, h := Core.reset.h.set 0 (sendEndAway.handle false) }
    dev := { Device.reset with homes := [sendEndAway, sendEndHome] } }

theorem twoEntries_sized : twoEntries.sized = true := State.reset_sized
theorem twoEntries_asksHome : twoEntries.asksHome (twoEntries.core.getH 0) = false := rfl
theorem twoEntries_checkEnd : twoEntries.checkEnd (twoEntries.core.getH 0) (some false) = .ok (sendEndAway, false, twoEntries) := rfl
/-- The entry at rank 1 is of no more use after the close, and is freed; the home's is found, its send end gone. -/
theorem twoEntries_closed : (twoEntries.closedEnd 0 sendEndAway).home? sendEndAway.sid sendEndAway.hrank = some { sendEndHome with locS := .gone } := rfl

/-- Refutes O43: SCLOSE over the send end of `twoEntries` leaves an entry of the stream whose send end is gone. -/
theorem not_streamsMadeAndEnded : ¬ Obligations.StreamsMadeAndEnded := by
  rintro ⟨-, -, h⟩
  obtain ⟨-, hsclose, -⟩ := h twoEntries 0 0 0 (.imm 0) sendEndAway false rfl twoEntries_sized
  obtain ⟨-, haway⟩ := hsclose twoEntries_checkEnd rfl
  obtain ⟨t, hgo, -, -, -, hloc⟩ := haway rfl (by decide)
  obtain rfl := Host.Outcome.next.inj (hgo.symm.trans (sclose_closes rfl twoEntries_asksHome twoEntries_checkEnd))
  exact absurd (hloc _ twoEntries_closed) (by decide)

end Sys2Proof.Machine
end

section
/-!
O55: a turn runs the instruction that its word decodes to (03 R35, R50, R51; log 2).
-/
namespace Sys2Proof.Machine

/-! ### A sequencer's own word -/

theorem engNo_eq_zero_iff (e : Eng) : engNo e = 0 ↔ e = .ctl := by cases e <;> decide
/-- The top of a slice of a word is a slice of the word. -/
theorem slice_slice {n : Nat} (w : BitVec n) (k l m : Nat) :
    (w.extractLsb' k (l + m)).extractLsb' l m = w.extractLsb' (k + l) m := by
  ext j hj
  simp [hj, Nat.add_assoc]
/-- A word whose header is CTL's has CTL's tag. -/
theorem engTag_of_isExit {w : W128} (h : isExit w = true) : engTag w = 0 := by
  have hw : w.extractLsb' 112 16 = 0x1D80#16 := by simpa [isExit] using h
  rw [engTag, ← slice_slice w 112 13 3, hw]
  rfl
theorem engTag_of_isEret {w : W128} (h : isEret w = true) : engTag w = 0 := by
  have hw : w.extractLsb' 113 15 = 0x0E80#15 := by simpa [isEret] using h
  rw [engTag, ← slice_slice w 113 12 3, hw]
  rfl
/-- The word is a sequencer's own: of its tag, and neither installed nor a follow-on, or a MUL word that names it (R51, R56). -/
def ownWordOf (e : Eng) (prev w : W128) : Prop :=
  if engTag w = 7 then e = .ctl ∨ inMask (emaskOf w) e = true
  else engTag w = engNo e ∧ isInst prev = false ∧ (e = .mat → isCpyf prev = false)
theorem readWord_own {e : Eng} {handler : Bool} {prev w : W128} (h : ownWordOf e prev w) :
    readWord e handler prev w = .own (decode w).toOption := by
  have hctl : engTag w = 0 → e = .ctl := fun h0 => by
    rw [ownWordOf, h0, if_neg (by decide)] at h
    exact (engNo_eq_zero_iff e).1 h.1.symm
  have hx : (e != .ctl && isExit w) = false := by
    cases hw : isExit w with
    | false => exact Bool.and_false _
    | true => rw [hctl (engTag_of_isExit hw)]; rfl
  have hr : (e != .ctl && handler && isEret w) = false := by
    cases hw : isEret w with
    | false => exact Bool.and_false _
    | true => rw [hctl (engTag_of_isEret hw)]; rfl
  unfold readWord
  simp only [hx, hr, Bool.false_eq_true, if_false]
  unfold ownWordOf at h
  split at h
  · next h7 =>
    rw [if_pos h7, if_pos (by simpa using h)]
  · next h7 =>
    obtain ⟨ht, hi, hf⟩ := h
    rw [if_neg h7, if_neg (by simp [ht]), if_neg (by simp [hi]), if_neg]
    rw [Bool.and_eq_true, beq_iff_eq]
    rintro ⟨rfl, hc⟩
    simp [hf rfl] at hc

section
variable {u : State} {e : Eng} {w : W128}

/-- The state in which a sequencer's word runs. -/
def State.running (u : State) (e : Eng) (w : W128) : State :=
  let q := u.core.seqs.get e
  { u with who := e, cur := { word := w, pc := q.pc, pos := q.pos, slot := slotOf q.pc } }
/-- A rule's ready work or a follow-on goes ahead of an engine's own word (09 R181; 16 R277). -/
def State.lentAhead (u : State) (e : Eng) (w : W128) : Bool :=
  engTag w == engNo e && [Eng.vec, .mat, .cld, .cst].contains e && u.lentFirst e
theorem State.lentAhead_iff : u.lentAhead e w = true ↔
    engTag w = engNo e ∧ (e = .vec ∨ e = .mat ∨ e = .cld ∨ e = .cst) ∧ u.lentFirst e = true := by
  simp [State.lentAhead, and_assoc]
/-- A sequencer that may act stands in a block at its own word, due and not held back. -/
structure State.AtOwn (u : State) (e : Eng) (w : W128) : Prop where
  act : u.mayAct e = true
  entered : (u.core.seqs.get e).entered = true
  closing : (u.core.seqs.get e).closing = false
  detached : (u.core.seqs.get e).detached = false
  word : (u.core.seqs.get e).word? = some w
  own : ownWordOf e (u.core.seqs.get e).before w
  free : u.heldBack e = false
  due : (u.core.seqs.get e).due ≤ u.core.clockOf e

theorem State.not_ended_of_mayAct (h : u.mayAct e = true) : (u.core.seqs.get e).ended = false := by
  simp only [State.mayAct, Bool.and_eq_true, Bool.not_eq_true'] at h
  exact h.1.1.2
theorem State.AtOwn.atWord (h : u.AtOwn e w) : u.atWord e = some (u.running e w, .own (decode w).toOption) := by
  unfold State.atWord
  simp only [State.not_ended_of_mayAct h.act, h.closing, h.entered, h.word, Option.map_some, readWord_own h.own]
  rfl
theorem State.AtOwn.takeWord (h : u.AtOwn e w) (i : Option Instr) : (u.running e w).takeWord (.own i) = (u.running e w).ownWord i := by
  show (if (u.core.seqs.get e).detached then _ else if (u.core.seqs.get e).due ≤ u.core.clockOf e then _ else _) = _
  rw [h.detached, if_neg Bool.false_ne_true, if_pos h.due]
/-- The turn of a sequencer at its own word: it changes nothing where others go first, else the word is taken. -/
theorem State.AtOwn.seqTurn (h : u.AtOwn e w) : u.seqTurn e =
    if (decode w).toOption.any (u.flagWaits e) || u.lentAhead e w then .next u
    else (u.running e w).ownWord (decode w).toOption := by
  unfold State.seqTurn State.wordTurn
  simp only [h.act, h.closing, h.entered, h.atWord, h.free, h.takeWord, Bool.not_true, Bool.false_eq_true, if_false]
  rfl
/-- The words of R51: one that decodes is executed, one that does not raises ILLOP but for a MUL word away from CTL. -/
theorem State.ownWord_running_error : (u.running e w).ownWord none =
    if engTag w = 7 ∧ e ≠ .ctl then .next ((u.running e w).waiting .external) else .next ((u.running e w).trap fIllop) := by
  have hm : (u.running e w).isMul = decide (engTag w = 7) := by
    rw [Bool.eq_iff_iff]
    show (w.extractLsb' 125 3 == 7#3) = true ↔ decide (engTag w = 7) = true
    rw [beq_iff_eq, decide_eq_true_iff, engTag, BitVec.toNat_eq]
    rfl
  show (if (u.running e w).isMul && e != .ctl then _ else _) = _
  rw [hm]
  refine if_congr ?_ rfl rfl
  simp

/-- A sequencer's turn on a module that is up: what it does, but that an access which starts later in the cycle changes nothing yet. -/
theorem State.takeTurn_seq {n : Nat} (hb : u.dev.bootst = 0) :
    u.takeTurn (.seq n e) = if u.startsLater e (u.seqTurn e) then .next u else u.seqTurn e := by
  show (if u.dev.bootst = 0 ∧ (!u.startsLater e (u.seqTurn e)) = true then _ else _) = _
  cases u.startsLater e (u.seqTurn e) <;> simp [hb]
/-- A turn at an own word whose outcome, once no other goes first, is `o`. -/
theorem State.AtOwn.takeTurn {n : Nat} {i : Option Instr} {o : Out} (h : u.AtOwn e w) (hb : u.dev.bootst = 0)
    (hi : (decode w).toOption = i) (ho : (u.running e w).ownWord i = o) : u.takeTurn (.seq n e) =
      if i.any (u.flagWaits e) || u.lentAhead e w || u.startsLater e o then .next u else o := by
  rw [State.takeTurn_seq hb, h.seqTurn, hi, ho]
  cases i.any (u.flagWaits e) || u.lentAhead e w with
  | true => exact ite_self _
  | false => rfl
end

/-! ### Events -/

section
variable {u : State} {i : Instr}

theorem State.eventTurn_held (hi : i.isEvent = true) (hb : u.dev.bootst = 0) (hh : u.heldHot = false)
    (hd : i = .evDeadlock ∧ engs.any u.couldGoOn = true) : u.eventTurn i = .next u := by
  unfold State.eventTurn
  rw [if_neg (by simp [hi, hb, hh]), if_pos hd]
/-- The two events that let another turn of the cycle go first. -/
def State.eventWaits (u : State) (i : Instr) : Bool :=
  match i with
  | .evPhaseDrain => u.lentFirst .fab
  | .evAwaitSuccess g => (u.standAt g).any fun x => u.flagWaits g x.1
  | _ => false
theorem State.eventWaits_iff : u.eventWaits i = true ↔ (i = .evPhaseDrain ∧ u.lentFirst .fab = true) ∨
    ∃ g, i = .evAwaitSuccess g ∧ (u.standAt g).any (fun x => u.flagWaits g x.1) = true := by
  unfold State.eventWaits
  split <;> simp_all
theorem State.eventTurn_runs (hi : i.isEvent = true) (hb : u.dev.bootst = 0) (hh : u.heldHot = false)
    (hd : ¬(i = .evDeadlock ∧ engs.any u.couldGoOn = true)) : u.eventTurn i = if u.eventWaits i then .next u else exec i u := by
  unfold State.eventTurn
  rw [if_neg (by simp [hi, hb, hh]), if_neg hd]
  unfold State.eventWaits
  split <;> simp
end

/-- A choice between a state unchanged and an outcome, as two implications. -/
theorem ite_next_iff {b : Bool} {Q : Prop} {u : State} {o r : Out} (hr : r = if b then .next u else o) (hQ : Q ↔ b = true) :
    (¬Q → r = o) ∧ (Q → r = .next u) :=
  ⟨fun h => by rw [hr, if_neg (mt hQ.2 h)], fun h => by rw [hr, if_pos (hQ.1 h)]⟩

/-- Settles O55: a sequencer's turn by `State.AtOwn.takeTurn`, an event's by `State.eventTurn_runs`. -/
theorem stepRunsDecoded : Obligations.StepRunsDecoded := by
  intro s n e i w hn
  refine ⟨fun ht => ?_, fun ht hi => ?_⟩
  · intro u q v own early hb hact hent hcl hdet hw hown hfree hdue
    have hu : u.AtOwn e w := ⟨hact, hent, hcl, hdet, hw, hown, hfree, hdue⟩
    have hstep : step s = u.takeTurn (.seq n e) := by rw [step_of_core (by rw [ht]; exact hn), ht]
    have hearly (o : Out) : early o ↔ (u.lentAhead e w || u.startsLater e o) = true := by
      rw [Bool.or_eq_true, State.lentAhead_iff]
    refine ⟨fun hd => ?_, fun x hd => ?_⟩
    · have hturn := hu.takeTurn (n := n) hb (congrArg Except.toOption hd) (o := exec i v) rfl
      rw [← hstep, Bool.or_assoc] at hturn
      obtain ⟨hrun, hwait⟩ := ite_next_iff (Q := u.flagWaits e i = true ∨ early (exec i v)) hturn (by
        rw [hearly, ← Bool.or_eq_true]
        rfl)
      exact ⟨fun h1 h2 => hrun (by simp [h1, h2]), fun h => hwait h.symm⟩
    · intro o
      exact ite_next_iff (hstep.trans (hu.takeTurn hb (congrArg Except.toOption hd) State.ownWord_running_error)) (hearly o)
  · intro u early hb hh
    have hstep : step s = if u.startsLater (u.startEng i) (u.eventTurn i) then .next u else u.eventTurn i := by
      rw [step_of_core (by rw [ht]; exact hn), ht]
      rfl
    refine ⟨fun hd => ?_, fun hd => ?_⟩
    · rw [hstep, State.eventTurn_held hi hb hh hd]
      exact ite_self _
    · refine ite_next_iff (b := u.eventWaits i || u.startsLater (u.startEng i) (exec i u)) ?_ ?_
      · rw [hstep, State.eventTurn_runs hi hb hh hd]
        cases u.eventWaits i with
        | true => exact ite_self _
        | false => rfl
      · rw [Bool.or_eq_true, State.eventWaits_iff, or_assoc]

end Sys2Proof.Machine
end

section
/-!
O58: the sizes of the files, and each core once, as one property of a state and of an outcome.
-/
namespace Sys2Proof.Machine

/-- The loop indices of every sequencer (04 R73). -/
def walkSized (p : PerEng Seq) : Bool := engs.all fun e => (p.get e).lidx.length == 6
/-- The cores that a context has saved have their files (24 R356). -/
def Ctx.filed (x : Ctx) : Prop := ∀ v ∈ x.saved, v.snap.sized = true
/-- The files of the device, and of every saved task, are of their sizes (24 R351, R356; 27 R390, R397). -/
def Device.filed (d : Device) : Prop :=
  (∀ x ∈ d.ctxs, x.filed) ∧ d.tenants.length = 32 ∧ d.queues.length = 512 ∧ d.grant.length = 4 ∧
    d.thermal.length = 3
/-- Every file is of its size and every core is held once: what O58 says of a state, part by part. -/
def State.filed (s : State) : Prop :=
  s.core.sized = true ∧ (∀ x ∈ s.others, x.2.sized = true) ∧ s.dev.filed ∧ (s.cnum :: s.others.map Prod.fst).Nodup
/-- The outcome, where it is a next state, has its files. -/
def FiledOut (o : Out) : Prop :=
  match o with
  | .next t => t.filed
  | _ => True
/-- From a state with its files the meaning leads to none without. -/
def KeepsFiles (k : State → Out) : Prop := ∀ s, s.filed → FiledOut (k s)

theorem State.filed_iff (s : State) : s.filed ↔ s.sized = true ∧ s.single := by
  simp only [State.filed, Device.filed, Ctx.filed, State.sized, State.single, List.all_cons, List.all_map, Bool.and_eq_true, List.all_eq_true, beq_iff_eq,
    Function.comp_apply]
  tauto
theorem Core.sized_iff (c : Core) : c.sized = true ↔ c.s.length = 32 ∧ c.a.length = 16 ∧ c.h.length = 16 ∧ c.f.length = 64 ∧
    c.wptr.length = 4 ∧ c.queues.length = 8 ∧ c.rules.length = 32 ∧ c.recs.length = 32 ∧ walkSized c.seqs = true ∧
    ∀ a, c.aside = some a → a.insts.length = 32 ∧ walkSized a.seqs = true := by
  simp only [Core.sized, walkSized, Bool.and_eq_true, beq_iff_eq, Option.all_eq_true, and_assoc]
end Sys2Proof.Machine
end

section
/-!
What changes one core leaves its files of their sizes: an equation for each update, an implication where the update needs the files.
-/
namespace Sys2Proof.Machine

variable {c : Core}

/-! ### Walks -/

theorem walkSized_set {p : PerEng Seq} {q : Seq} (e : Eng) (h : q.lidx.length = (p.get e).lidx.length) :
    walkSized (p.set e q) = walkSized p := by
  cases e <;> simp only [PerEng.get] at h <;> simp [walkSized, engs, PerEng.get, PerEng.set, h]
theorem walkSized_mapE {p : PerEng Seq} {f : Eng → Seq → Seq} (h : ∀ e q, (f e q).lidx.length = q.lidx.length) :
    walkSized (p.mapE f) = walkSized p := by
  simp [walkSized, engs, PerEng.get, PerEng.mapE, h]

/-! ### Cores -/

/-- A core with other walks of the same sizes. -/
theorem Core.sized_seqs {p : PerEng Seq} (h : walkSized p = walkSized c.seqs) : ({ c with seqs := p } : Core).sized = c.sized := by
  unfold walkSized at h
  simp [Core.sized, h]
/-- A fold of updates that each keep the sizes of a core keeps them. -/
theorem Core.foldl_sized {α : Type} {f : Core → α → Core} (hf : ∀ c x, (f c x).sized = c.sized) (l : List α) (c : Core) :
    (l.foldl f c).sized = c.sized := by
  induction l generalizing c with
  | nil => rfl
  | cons x r ih => exact (ih _).trans (hf c x)
@[simp] theorem Core.reset_sized : Core.reset.sized = true := by decide +kernel
@[simp] theorem Core.setFlag_sized (f : FlagNo) (n : Nat) : (c.setFlag f n).sized = c.sized := by simp [Core.sized, Core.setFlag]
@[simp] theorem Core.addFlag_sized (f : FlagNo) (n : Nat) : (c.addFlag f n).sized = c.sized := Core.setFlag_sized (c := c) f (c.flag f + n)
@[simp] theorem Core.takeFlag_sized (f : FlagNo) (n : Nat) : (c.takeFlag f n).sized = c.sized := Core.setFlag_sized (c := c) f (c.flag f - n)
@[simp] theorem Core.postDeferred_sized (e : Eng) (f : FlagNo) (n : Nat) (p : At) : (c.postDeferred e f n p).sized = c.sized := by
  unfold Core.postDeferred
  split
  · exact Core.addFlag_sized f n
  · rfl
@[simp] theorem Core.postClause_sized (e : Eng) (t : Option TailClause) (p : At) : (c.postClause e t p).sized = c.sized := by
  cases t with
  | none => rfl
  | some x => exact Core.postDeferred_sized ..
@[simp] theorem Core.setH_sized (h : HReg) (v : W256) : (c.setH h v).sized = c.sized := by simp [Core.sized, Core.setH, Core.pruneHist]
@[simp] theorem Core.setQueue_sized (q : QNo) (l : List Tile) : (c.setQueue q l).sized = c.sized := by simp [Core.sized, Core.setQueue]
@[simp] theorem Core.mapRec_sized (n : Nat) (f : OpenRec → OpenRec) : (c.mapRec n f).sized = c.sized := by
  simp [Core.sized, Core.mapRec, modAt_length]
@[simp] theorem Core.mapRule_sized (n : Nat) (f : Rule → Rule) : (c.mapRule n f).sized = c.sized := by
  simp [Core.sized, Core.mapRule, modAt_length]
@[simp] theorem Core.setWptr_sized (q : CopyCmd) (n : Nat) : (c.setWptr q n).sized = c.sized := by
  unfold Core.setWptr
  split
  · simp [Core.sized]
  · rfl

/-- The handler's walk has the indices of the interrupted one, which is set aside whole (25 R373). -/
theorem Core.enterHandler_sized (held : Held) (e : Eng) (m : Bool) (h : c.sized = true) : (c.enterHandler held e m).sized = true := by
  obtain ⟨hs, ha, hh, hf, hw, hq, hr, ho, hwalk, -⟩ := c.sized_iff.1 h
  refine (Core.sized_iff _).2 ⟨hs, ha, hh, hf, hw, hq, ?_, ho, ?_, fun a haside => ?_⟩
  · simpa [Core.enterHandler] using hr
  · rw [← hwalk]
    exact walkSized_mapE fun _ _ => rfl
  · obtain rfl : c.setAside held e m = a := Option.some.inj haside
    exact ⟨by simpa [Core.setAside] using hr, hwalk⟩
@[simp] theorem Core.takeTrap_sized (t : TrapInfo) (held : Held) (m : Bool) (h : c.sized = true) : (c.takeTrap t held m).sized = true := by
  unfold Core.takeTrap
  dsimp only
  split
  · exact Core.enterHandler_sized _ _ _ h
  · exact h
/-- What was set aside has its sizes, so the walk restored from it has them (25 R374). -/
theorem Core.restoreWalk_sized {w : Aside} (h : c.sized = true) (hw : c.aside = some w) : (c.restoreWalk w).sized = true := by
  obtain ⟨hs, ha, hh, hf, hp, hq, hr, ho, -, hwalk⟩ := c.sized_iff.1 h
  obtain ⟨hi, hws⟩ := hwalk w hw
  refine (Core.sized_iff _).2 ⟨hs, ha, hh, hf, hp, hq, ?_, ho, ?_, fun a haside => by cases haside⟩
  · simp [Core.restoreWalk, hr, hi]
  · rw [← hws]
    exact walkSized_mapE fun _ _ => rfl

/-! ### Records and rules -/

@[simp] theorem Core.freeRecs_sized : c.freeRecs.sized = c.sized := by simp [Core.sized, Core.freeRecs]
@[simp] theorem Core.freeRule_sized (id : Nat) (close : Bool) : (c.freeRule id close).sized = c.sized := by
  unfold Core.freeRule
  split
  · rfl
  · extract_lets c1
    have h1 : c1.sized = c.sized := Core.foldl_sized (fun _ _ => Core.mapRec_sized _ _) _ c
    rw [← h1]
    simp [Core.sized]
theorem Core.sweepRules_sized (n : Nat) (c : Core) : (c.sweepRules n).sized = c.sized := by
  induction n generalizing c with
  | zero => exact Core.freeRecs_sized
  | succ n ih =>
    unfold Core.sweepRules
    split
    · exact Core.freeRecs_sized
    · exact (ih _).trans (Core.freeRule_sized ..)
@[simp] theorem Core.sweep_sized : c.sweep.sized = c.sized := Core.sweepRules_sized 32 c
@[simp] theorem Core.completeSlice_sized (o n : Nat) : (c.completeSlice o n).sized = c.sized :=
  Core.sweep_sized.trans (Core.mapRec_sized ..)
@[simp] theorem Core.dropReader_sized (o n m : Nat) : (c.dropReader o n m).sized = c.sized :=
  Core.sweep_sized.trans (Core.mapRec_sized ..)
theorem Core.claimRead_sized {o m : Nat} {x : Nat × Core} (h : c.claimRead o m = .ok x) : x.2.sized = c.sized := by
  unfold Core.claimRead at h
  dsimp only at h
  split_ifs at h
  cases h
  exact Core.mapRec_sized ..
theorem Core.claimWrite_sized {o m : Nat} {x : Nat × Core} (h : c.claimWrite o m = .ok x) : x.2.sized = c.sized := by
  unfold Core.claimWrite at h
  dsimp only at h
  split_ifs at h
  cases h
  exact Core.mapRec_sized ..
theorem Core.claimSlices_sized {a b : Option Operand} {n : Nat} {x : Core × Option Operand × Option Operand}
    (h : c.claimSlices a b n = .ok x) : x.1.sized = c.sized := by
  unfold Core.claimSlices at h
  extract_lets m ring r at h
  have hr : ∀ y, r = .ok y → y.1.sized = c.sized := by
    intro y hy
    dsimp only [r] at hy
    split at hy
    · split at hy
      · split at hy <;> cases hy
        exact Core.claimRead_sized ‹_›
      · cases hy
        rfl
    · cases hy
      rfl
  clear_value r
  cases r with
  | error f => cases h
  | ok y =>
    have hy := hr y rfl
    dsimp only at h
    split at h
    · split at h
      · split at h <;> cases h
        exact (Core.claimWrite_sized ‹_›).trans hy
      · cases h
        exact hy
    · cases h
      exact hy
theorem Core.claimBind_sized {o : Operand} {x : Core × Operand} (h : c.claimBind o = .ok x) : x.1.sized = c.sized := by
  unfold Core.claimBind at h
  split at h
  · split at h <;> cases h
    exact Core.claimRead_sized ‹_›
  · cases h
    rfl
@[simp] theorem Core.dropBind_sized (b : Bind) : (c.dropBind b).sized = c.sized := by
  unfold Core.dropBind
  dsimp only
  split
  · exact Core.dropReader_sized ..
  · rfl
@[simp] theorem Core.dropBinds_sized (l : List Bind) : (c.dropBinds l).sized = c.sized :=
  Core.foldl_sized (fun _ b => Core.dropBind_sized b) l c
@[simp] theorem Core.endPhase_sized (p : Phase) : (c.endPhase p).sized = c.sized := by
  unfold Core.endPhase
  extract_lets c1
  have h1 : c1.sized = c.sized := rfl
  split
  · exact (Core.dropBinds_sized _).trans h1
  · exact h1
theorem Core.closeFeet_eq (l : List (Eng × Nat)) (c : Core) : ∃ fs, l.foldl (fun d x => d.closeFoot x.1 x.2) c = { c with feet := fs } := by
  induction l generalizing c with
  | nil => exact ⟨_, rfl⟩
  | cons x r ih => exact ih (c.closeFoot x.1 x.2)
/-- With what is set aside changed, but not the sizes of its indices and instances. -/
theorem Core.sized_aside {f : Aside → Aside} (hi : ∀ a, (f a).insts.length = a.insts.length) (hs : ∀ a, (f a).seqs = a.seqs) :
    ({ c with aside := c.aside.map f } : Core).sized = c.sized := by
  cases h : c.aside <;> simp [Core.sized, h, hi, hs]
@[simp] theorem Core.dropInst_sized (id : Nat) : (c.dropInst id).sized = c.sized := by
  unfold Core.dropInst
  extract_lets fl cs ct ph c1 asks d f
  have hd : ∃ fs rs, d = { c with feet := fs, replies := rs } := by
    obtain ⟨fs, h1⟩ := Core.closeFeet_eq ((fl.map fun f => (f.eng, f.id)) ++ cs ++ ct ++ ph) c
    dsimp only [d, c1]
    rw [h1]
    split
    · exact ⟨fs, _, rfl⟩
    · exact ⟨fs, _, rfl⟩
  clear_value d
  obtain ⟨fs, rs, rfl⟩ := hd
  refine Eq.trans ?_ (Core.mapRule_sized id fun x => { x with inst := none })
  exact Core.sized_aside (c := c.mapRule id fun x => { x with inst := none }) (fun a => by simp [modAt_length]) fun _ => rfl
@[simp] theorem Core.finishInst_sized (id : Nat) : (c.finishInst id).sized = c.sized := Core.mapRule_sized id fun _ => _
@[simp] theorem Core.ruleFault_sized (id : Nat) (e : Eng) (f : Flt) (a b d k : Nat) : (c.ruleFault id e f a b d k).sized = c.sized := by
  unfold Core.ruleFault
  split
  · exact Core.dropInst_sized id
  · rw [← Core.dropInst_sized (c := c) id]
    simp [Core.sized]
@[simp] theorem Core.completeOut_sized (f : Flight) : (c.completeOut f).sized = c.sized := by
  unfold Core.completeOut
  split
  · split
    · exact Core.completeSlice_sized ..
    · rfl
  · rfl
@[simp] theorem Core.beginInst_sized (id : Nat) (r : Rule) : (c.beginInst id r).sized = c.sized := by
  unfold Core.beginInst
  rw [Core.mapRule_sized, Core.foldl_sized fun _ _ => Core.mapRec_sized _ _]
  split
  · exact Core.takeFlag_sized ..
  · rfl
@[simp] theorem Core.putInst_sized (id : Nat) (n : Inst) : (c.putInst id n).sized = c.sized := Core.mapRule_sized ..
@[simp] theorem Core.endInst_sized (id : Nat) (r : Rule) (n : Nat) : (c.endInst id r n).sized = c.sized := by
  unfold Core.endInst
  extract_lets c1 c2 c3
  have h3 : c3.sized = c.sized := by
    dsimp only [c3, c2, c1]
    rw [Core.foldl_sized fun _ _ => Core.addFlag_sized _ _, Core.foldl_sized fun _ _ => Core.completeSlice_sized _ _, Core.mapRule_sized]
  rw [Core.sweep_sized, ← h3]
  split
  · exact Core.freeRule_sized ..
  · rfl
@[simp] theorem Core.exitRules_sized : c.exitRules.sized = c.sized := by
  unfold Core.exitRules
  extract_lets d held
  have hd : d.sized = c.sized := Core.foldl_sized (fun _ _ => by split <;> simp) _ c
  rw [← hd]
  simp only [Core.sized]
  split <;> simp
@[simp] theorem Core.unclaim_sized (b : Bind) : (c.unclaim b).sized = c.sized := by
  unfold Core.unclaim
  dsimp only
  split
  · exact (Core.dropReader_sized ..).trans (Core.mapRec_sized ..)
  · rfl
@[simp] theorem Core.leaveBinds_sized (e : Eng) (b : Bool) (pos slot : Nat) : (c.leaveBinds e b pos slot).sized = c.sized := by
  unfold Core.leaveBinds
  split
  · exact Core.foldl_sized (fun _ b => Core.unclaim_sized b) _ c
  · rfl

/-! ### Copies, walks and traps -/

@[simp] theorem Core.setCopies_sized (e : CopyEng) (l : List CopyCmd) : (c.setCopies e l).sized = c.sized := by cases e <;> rfl
@[simp] theorem Core.mapHead_sized (e : CopyEng) (f : CopyCmd → CopyCmd) : (c.mapHead e f).sized = c.sized := Core.setCopies_sized ..
@[simp] theorem Core.enqueue_sized (e : CopyEng) (q : CopyCmd) : (c.enqueue e q).sized = c.sized := Core.setCopies_sized e _
@[simp] theorem Core.mapChan_sized (q : CopyCmd) (f : ChanCopy → ChanCopy) : (c.mapChan q f).sized = c.sized := by
  unfold Core.mapChan
  split <;> rfl
@[simp] theorem Core.leaveCopies_sized (e : CopyEng) (q : CopyCmd) : (c.leaveCopies e q).sized = c.sized := by
  unfold Core.leaveCopies
  extract_lets c1
  have h1 : c1.sized = c.sized := (Core.mapChan_sized ..).trans (Core.setCopies_sized ..)
  split
  · split
    · exact (Core.dropReader_sized ..).trans h1
    · exact h1
  · exact h1
@[simp] theorem Core.addFence_sized (x : XFence) : (c.addFence x).sized = c.sized := by
  unfold Core.addFence
  split <;> rfl
@[simp] theorem Core.noteExit_sized (pos slot : Nat) : (c.noteExit pos slot).sized = c.sized := by
  unfold Core.noteExit
  split <;> rfl
@[simp] theorem Core.noteEntry_sized (pos blk : Nat) : (c.noteEntry pos blk).sized = c.sized := by
  unfold Core.noteEntry
  split <;> rfl
@[simp] theorem Core.noteText_sized (blk : Nat) (bs : List Byte) : (c.noteText blk bs).sized = c.sized := by
  unfold Core.noteText
  split <;> rfl
@[simp] theorem Core.resume_sized (e : Eng) : (c.resume e).sized = c.sized := by cases e <;> rfl
@[simp] theorem Core.phaseAgain_sized (b : Bool) : (c.phaseAgain b).sized = c.sized := by
  unfold Core.phaseAgain
  split
  · rfl
  · split_ifs
    · rfl
    · exact Core.endPhase_sized _
    · rfl
theorem Seq.advance_lidx (q : Seq) : q.advance.lidx = q.lidx := by
  unfold Seq.advance
  split <;> rfl
@[simp] theorem Core.skipWord_sized (e : Eng) : (c.skipWord e).sized = c.sized :=
  Core.sized_seqs (walkSized_set e (by rw [Seq.advance_lidx]))

/-! ### Cores that tasks leave and come to -/

theorem Core.vacate_sized (h : c.sized = true) : c.vacate.sized = true := by
  obtain ⟨hs, ha, hh, hf, hw, hq, hr, ho, hwalk, -⟩ := c.sized_iff.1 h
  exact (Core.sized_iff _).2 ⟨hs, ha, hh, hf, hw, hq, List.length_replicate, List.length_replicate, hwalk, fun a haside => by cases haside⟩
theorem Core.start_sized (x : Ctx) (g : Nat) : (c.start x g).sized = true := by
  have hr := (Core.sized_iff _).1 Core.reset_sized
  obtain ⟨-, ha, hh, hf, hw, hq, hr, ho, hwalk, -⟩ := hr
  refine (Core.sized_iff _).2 ⟨by simp [Core.start], ha, hh, hf, hw, hq, hr, ho, ?_, fun a haside => by cases haside⟩
  rfl
@[simp] theorem Core.haltNow_sized : c.haltNow.sized = c.sized := by
  cases h : c.aside <;> simp [Core.sized, Core.haltNow, h]
@[simp] theorem Core.move_sized (m n : Nat) : (c.move m n).sized = c.sized :=
  Core.sized_aside (f := fun a => { a with flights := _ }) (fun _ => rfl) fun _ => rfl
theorem Core.unpackTask_sized (t r g h b k d : List Byte) (hc : c.sized = true) : (c.unpackTask t r g h b k d).sized = true := by
  obtain ⟨-, -, -, -, -, hq, hr, ho, hwalk, haside⟩ := c.sized_iff.1 hc
  exact (Core.sized_iff _).2 ⟨by simp [Core.unpackTask], by simp [Core.unpackTask], by simp [Core.unpackTask], by simp [Core.unpackTask],
    by simp [Core.unpackTask], hq, hr, ho, hwalk, haside⟩
end Sys2Proof.Machine
end

section
/-!
Updates of a state keep its files: of a core, of a sequencer, of the device, and what the operations are built from.
-/
namespace Sys2Proof.Machine

variable {s : State}

@[simp] theorem FiledOut.next (t : State) : FiledOut (.next t) ↔ t.filed := Iff.rfl
theorem FiledOut.ite {c : Prop} [Decidable c] {x y : Out} (hx : FiledOut x) (hy : FiledOut y) : FiledOut (if c then x else y) := ite_of hx hy
theorem State.filed_ite {c : Prop} [Decidable c] {t u : State} (ht : t.filed) (hu : u.filed) : (if c then t else u).filed :=
  ite_of (P := State.filed) ht hu
/-- Two ways of going on, of which a condition chooses. -/
theorem FiledOut.choice {c : Prop} [Decidable c] {f g : (State → Out) → Out} {k : State → Out} (hf : KeepsFiles k → FiledOut (f k))
    (hg : KeepsFiles k → FiledOut (g k)) (hk : KeepsFiles k) : FiledOut ((if c then f else g) k) := by
  split
  · exact hf hk
  · exact hg hk
theorem State.filed.foldl {α : Type} {f : State → α → State} (hf : ∀ t x, t.filed → (f t x).filed) (l : List α) (h : s.filed) :
    (l.foldl f s).filed := foldl_keeps (P := State.filed) hf l h

/-! ### The core in front, its sequencers, and the device -/

theorem State.filed.mapCore (h : s.filed) {f : Core → Core} (hf : ∀ c, (f c).sized = c.sized) : (s.mapCore f).filed :=
  ⟨(hf _).trans h.1, h.2⟩
theorem State.filed.mapSeq (h : s.filed) (e : Eng) {f : Seq → Seq} (hf : ∀ q, (f q).lidx.length = q.lidx.length) : (s.mapSeq e f).filed :=
  ⟨(Core.sized_seqs (walkSized_set e (hf _))).trans h.1, h.2⟩
theorem State.filed.mapDev (h : s.filed) {f : Device → Device} (hf : s.dev.filed → (f s.dev).filed) : (s.mapDev f).filed :=
  ⟨h.1, h.2.1, hf h.2.2.1, h.2.2.2⟩
theorem Device.filed.mapTenant {d : Device} (h : d.filed) (t : BitVec 5) (f : Tenant → Tenant) : (d.mapTenant t f).filed :=
  ⟨h.1, (modAt_length ..).trans h.2.1, h.2.2⟩
theorem Device.filed.mapCtxs {d : Device} (h : d.filed) {f : Ctx → Ctx} (hf : ∀ x ∈ d.ctxs, (f x).filed) :
    ({ d with ctxs := d.ctxs.map f } : Device).filed := by
  refine ⟨fun y hy v hv => ?_, h.2⟩
  obtain ⟨x, hx, rfl⟩ := List.mem_map.1 hy
  exact hf x hx v hv
theorem Device.filed.logEvent {d : Device} (h : d.filed) (e : W64) : (d.logEvent e).filed := by
  unfold Device.logEvent
  split <;> exact h
theorem Device.filed.raise {d : Device} (h : d.filed) (t : BitVec 5) (v : Nat) : (d.raise t v).filed := by
  unfold Device.raise
  dsimp only
  split <;> exact h.mapTenant t _
theorem Device.filed.ctxcmdDone {d : Device} (h : d.filed) (op : Nat) (id : W16) : (d.ctxcmdDone op id).filed := by
  unfold Device.ctxcmdDone
  split <;> exact h

theorem State.filed.complete (h : s.filed) (n : Nat) : (s.complete n).filed := h.mapSeq _ fun _ => congrArg _ (Seq.advance_lidx _)
theorem State.filed.passOver (h : s.filed) : s.passOver.filed := h.mapSeq _ fun _ => congrArg _ (Seq.advance_lidx _)
theorem State.filed.waiting (h : s.filed) (w : Wait) : (s.waiting w).filed := h.mapSeq _ fun _ => rfl
theorem State.filed.arrive (h : s.filed) : s.arrive.filed := h.mapSeq _ fun _ => rfl
theorem State.filed.skipMul (h : s.filed) (b : Bool) : (s.skipMul b).filed := by
  refine h.mapSeq _ fun _ => ?_
  dsimp only
  split <;> exact congrArg _ (Seq.advance_lidx _)
theorem State.filed.setS (h : s.filed) (r : SReg) (v : W64) : (s.setS r v).filed := by
  unfold State.setS
  split
  · exact h
  · exact h.mapCore (f := fun c => { c with s := c.s.set r.toNat v }) fun _ => by simp [Core.sized]
theorem State.filed.putS (h : s.filed) (d : SReg) (v : W64) : (s.putS d v).filed := (h.setS d v).complete 1
theorem State.filed.setA (h : s.filed) (r : AReg) (v : W64) : (s.setA r v).filed :=
  h.mapCore (f := fun c => { c with a := c.a.set r.toNat v }) fun _ => by simp [Core.sized]
theorem State.filed.putH (h : s.filed) (r : HReg) (v : W256) : (s.putH r v).filed := (h.mapCore (fun _ => Core.setH_sized r v)).complete 1
theorem State.filed.takeTrap (h : s.filed) (t : TrapInfo) (held : Held) (m : Bool) : (s.mapCore fun c => c.takeTrap t held m).filed :=
  ⟨Core.takeTrap_sized t held m h.1, h.2⟩
theorem State.filed.trap (h : s.filed) (f : Flt) : (s.trap f).filed := h.takeTrap ..
theorem State.filed.pushCtl (h : s.filed) (m : EMask) (x : CtlEntry) : (s.pushCtl m x).filed :=
  h.mapCore (fun _ => Core.sized_seqs (walkSized_mapE fun _ _ => by split <;> rfl))
theorem State.filed.departAll (h : s.filed) (es : List Eng) : (s.departAll es).filed := by
  refine h.mapCore fun _ => Core.sized_seqs (walkSized_mapE fun _ _ => ?_)
  dsimp only
  split
  · exact congrArg _ (Seq.advance_lidx _)
  · rfl
theorem State.filed.follow (h : s.filed) {f : Seq → Seq} (hf : ∀ q, (f q).lidx.length = q.lidx.length) : (s.follow f).filed :=
  State.filed.mapCore (h.mapSeq s.who (f := fun q => { f q with due := s.core.clockOf s.who + 1 }) hf) fun _ => Core.noteExit_sized ..
theorem State.filed.memDebit (h : s.filed) (n : Nat) : (s.memDebit n).filed := h.mapDev fun hd => hd.mapTenant ..
theorem State.filed.linkDebit (h : s.filed) (n : Nat) : (s.linkDebit n).filed := h.mapDev fun hd => hd.mapTenant ..
theorem State.filed.debit (h : s.filed) (n : Nat) : (s.debit n).filed := by
  unfold State.debit
  extract_lets s1
  have h1 : s1.filed := h.mapDev fun hd => hd.mapTenant ..
  split
  · exact h1.mapDev fun hd => hd.mapCtxs fun x hx => by split <;> exact hd.1 x hx
  · exact h1
theorem State.filed.setFlight (h : s.filed) (f : Flight) : (s.setFlight f).filed :=
  h.mapCore (fun _ => Core.sized_aside (f := fun a => { a with flights := _ }) (fun _ => rfl) fun _ => rfl)
theorem State.filed.mapCopy (h : s.filed) (e : CopyEng) (f : CopyCmd → CopyCmd) : (s.mapCopy e f).filed := h.mapCore (fun _ => Core.mapHead_sized ..)
theorem Core.passSlices_sized (c : Core) (q : CopyCmd) (n : Nat) : (c.passSlices q n).1.sized = c.sized := by
  unfold Core.passSlices
  split
  · split
    · rfl
    · exact Core.foldl_sized (fun _ _ => Core.completeSlice_sized ..) _ c
  · rfl
theorem State.filed.deliver (h : s.filed) (e : CopyEng) (q : CopyCmd) (n : Nat) : (s.deliver e q n).filed := by
  refine h.mapCore fun c => ?_
  rw [Core.mapHead_sized, Core.mapChan_sized, Core.setWptr_sized, Core.passSlices_sized]
theorem State.filed.mapFab (h : s.filed) (f : Fabric → Fabric) : (s.mapFab f).filed := h
theorem State.filed.unitDone (h : s.filed) (q : FabCmd) : (s.unitDone q).filed :=
  (h.mapFab fun b => { b with queue := dropHead b.queue, far := [] }).mapCore fun _ => Core.postClause_sized ..
theorem State.filed.mapInst (h : s.filed) (id : Nat) (f : Inst → Inst) : (s.mapInst id f).filed := h.mapCore (fun _ => Core.mapRule_sized ..)
theorem State.filed.instFault (h : s.filed) (id : Nat) (r : Rule) (f : Flt) (a b : Nat) : (s.instFault id r f a b).filed :=
  h.mapCore (fun _ => Core.ruleFault_sized ..)
theorem State.filed.copyFault (h : s.filed) (e : CopyEng) (q : CopyCmd) (f : Flt) : (s.copyFault e q f).filed := by
  unfold State.copyFault
  split
  · exact h.mapCore (fun _ => Core.ruleFault_sized ..)
  · exact h.mapCore (fun _ => Core.mapHead_sized e fun _ => _)
theorem State.filed.noteDrain (h : s.filed) : s.noteDrain.filed := by
  unfold State.noteDrain
  split
  · exact State.filed_ite (h.mapCore fun _ => rfl) h
  · exact h
theorem State.filed.phaseFault (h : s.filed) (p : Phase) (f : Flt) (a b : Nat) : (s.phaseFault p f a b).filed := by
  unfold State.phaseFault
  dsimp only
  split
  · exact h.mapCore fun _ => Core.ruleFault_sized ..
  · exact (h.mapFab _).mapCore fun _ => rfl
theorem State.filed.passGroup (h : s.filed) (q : CopyCmd) (i : Bool) (g : Nat) (sq : W16) : (s.passGroup q i g sq).filed := by
  unfold State.passGroup
  split <;> exact h
theorem State.filed.passCred (h : s.filed) (q : CopyCmd) : (s.passCred q).filed := by
  unfold State.passCred
  split
  · exact State.filed_ite h (h.passGroup ..)
  · exact h
theorem State.filed.abandonCopy (h : s.filed) (e : CopyEng) : (s.abandonCopy e).filed := by
  unfold State.abandonCopy
  split
  · exact h
  · exact (h.passCred _).mapCore fun _ => ((Core.leaveCopies_sized ..).trans (Core.setCopies_sized ..))
theorem State.filed.abandon (h : s.filed) (e : Eng) : (s.abandon e).filed := by
  unfold State.abandon
  split
  case h_1 | h_2 => exact h.abandonCopy _
  case h_3 => split <;> exact h
  case h_4 =>
    split
    · exact h.mapCore (fun _ => Core.dropBinds_sized _)
    · exact h
  case h_5 => exact h
theorem State.filed.leaveHandler (h : s.filed) : s.leaveHandler.filed := by
  unfold State.leaveHandler
  split <;> exact h
/-- The walk that is set aside restored, where it has its sizes. -/
theorem State.filed.restoreWalk (h : s.filed) {w : Aside} (hw : s.core.aside = some w) : (s.mapCore fun c => c.restoreWalk w).filed :=
  ⟨Core.restoreWalk_sized h.1 hw, h.2⟩
theorem State.filed.eret (h : s.filed) {w : Aside} (hw : s.core.aside = some w) : (s.eret w).filed := by
  have h1 := h.restoreWalk hw
  unfold State.eret
  dsimp only
  split
  · exact (h1.mapCore (fun _ => Core.resume_sized _)).leaveHandler
  · exact (h1.mapCore (fun _ => Core.phaseAgain_sized _)).leaveHandler
  · exact h1.leaveHandler
theorem State.filed.eretSkip (h : s.filed) {w : Aside} (hw : s.core.aside = some w) : (s.eretSkip w).filed := by
  have h1 := h.restoreWalk hw
  unfold State.eretSkip
  dsimp only
  split
  · exact (h1.mapCore (fun _ => Core.skipWord_sized _)).leaveHandler
  · exact (h1.abandon _).leaveHandler
  · exact (h1.mapCore (fun _ => Core.phaseAgain_sized _)).leaveHandler
  · exact (State.filed_ite h1 (h1.mapCore (fun _ => Core.skipWord_sized _))).leaveHandler
  · exact h1.leaveHandler

/-! ### The cores listed -/

theorem State.filed.coreAt (h : s.filed) (n : Nat) : (s.coreAt n).sized = true := by
  unfold State.coreAt
  split
  · exact h.1
  · split
    · exact h.2.1 _ (List.mem_of_find?_eq_some ‹_›)
    · exact Core.reset_sized
/-- A core listed by its number among others of different numbers. -/
theorem nodup_put {α : Type} {l : List (Nat × α)} (h : (l.map Prod.fst).Nodup) (n : Nat) (x : α) :
    (((l.filter fun y => decide (y.1 < n)) ++ (n, x) :: (l.filter fun y => decide (n < y.1))).map Prod.fst).Nodup := by
  have below {m} (hm : m ∈ (l.filter fun y => decide (y.1 < n)).map Prod.fst) : m < n := by
    obtain ⟨y, hy, rfl⟩ := List.mem_map.1 hm
    exact of_decide_eq_true (List.mem_filter.1 hy).2
  have above {m} (hm : m ∈ (l.filter fun y => decide (n < y.1)).map Prod.fst) : n < m := by
    obtain ⟨y, hy, rfl⟩ := List.mem_map.1 hm
    exact of_decide_eq_true (List.mem_filter.1 hy).2
  rw [List.map_append, List.map_cons, List.nodup_append]
  refine ⟨(List.filter_sublist.map _).nodup h, List.nodup_cons.2 ⟨fun hm => Nat.lt_irrefl _ (above hm), (List.filter_sublist.map _).nodup h⟩, ?_⟩
  rintro a ha b hb rfl
  rcases List.mem_cons.1 hb with rfl | hb
  · exact Nat.lt_irrefl _ (below ha)
  · exact Nat.lt_asymm (below ha) (above hb)
theorem State.filed.setCoreAt (h : s.filed) (n : Nat) {c : Core} (hc : c.sized = true) : (s.setCoreAt n c).filed := by
  obtain ⟨hcore, hothers, hdev, hnodup⟩ := h
  obtain ⟨hfront, hkeys⟩ := List.nodup_cons.1 hnodup
  have hrest (x) (hx : x ∈ s.others.filter fun x => x.1 != n) : x ∈ s.others := List.mem_of_mem_filter hx
  have hkept : ((s.others.filter fun x => x.1 != n).map Prod.fst).Nodup := (List.filter_sublist.map _).nodup hkeys
  have hapart := State.setCoreAt_apart (n := n) (c := c) (s := s) hfront
  unfold State.apart at hapart
  by_cases hn : n = s.cnum
  · simp only [State.setCoreAt, if_pos hn]
    exact ⟨hc, hothers, hdev, hnodup⟩
  · simp only [State.setCoreAt, if_neg hn] at hapart ⊢
    refine ⟨hcore, ?_, hdev, List.nodup_cons.2 ⟨hapart, ?_⟩⟩
    · dsimp only
      intro x hx
      split at hx
      · exact hothers x (hrest x hx)
      · rcases List.mem_append.1 hx with hx | hx
        · exact hothers x (hrest x (List.mem_of_mem_filter hx))
        · rcases List.mem_cons.1 hx with rfl | hx
          · exact hc
          · exact hothers x (hrest x (List.mem_of_mem_filter hx))
    · dsimp only
      split
      · exact hkept
      · exact nodup_put hkept n c
theorem State.filed.focus (h : s.filed) (n : Nat) : (s.focus n).filed := by
  by_cases hn : n = s.cnum
  · rwa [State.focus, if_pos hn]
  · rw [State.focus_eq (List.nodup_cons.1 h.2.2.2).1 hn]
    obtain ⟨-, hothers, hdev, hnodup⟩ := h.setCoreAt n Core.reset_sized
    refine State.filed.setCoreAt (s := { s.setCoreAt n Core.reset with core := s.coreAt n, cnum := n }) ⟨h.coreAt n, hothers, hdev, ?_⟩ _ h.1
    refine List.nodup_cons.2 ⟨?_, (List.nodup_cons.1 hnodup).2⟩
    simp [State.setCoreAt_reset_others s hn]
theorem State.filed.vacateCore (h : s.filed) (n : Nat) : (s.vacateCore n).filed := h.setCoreAt n (Core.vacate_sized (h.coreAt n))
theorem State.filed.begin (h : s.filed) (t : Turn) : (s.begin t).filed := by
  exact State.filed.focus (s := { s with agenda := dropHead s.agenda, tick := s.tick + 1 }) h (turnCore t)
theorem State.filed.mapCores (h : s.filed) {f : Nat → Core → Core} (hf : ∀ n c, (f n c).sized = c.sized) : (s.mapCores f).filed := by
  obtain ⟨hc, ho, hd, hn⟩ := h
  refine ⟨(hf ..).trans hc, fun y hy => ?_, hd, ?_⟩
  · obtain ⟨x, hx, rfl⟩ := List.mem_map.1 hy
    exact (hf ..).trans (ho x hx)
  · simpa [State.mapCores, Function.comp_def] using hn

/-! ### Fences, reads, streams and control registers -/

theorem State.filed.acquireFrom (h : s.filed) (sc : Scope) (ch : List (Party × Scope)) : (s.acquireFrom sc ch).filed := by
  unfold State.acquireFrom
  dsimp only
  split <;> split <;> exact h
theorem State.filed.noteRead (h : s.filed) (acq : Option Scope) (ch : List (Party × Scope)) : (s.noteRead acq ch).filed := by
  unfold State.noteRead
  cases acq with
  | none => exact State.filed_ite h h
  | some sc => exact State.filed_ite (h.acquireFrom sc ch) (h.acquireFrom sc ch)
theorem State.filed.awaitShows (h : s.filed) (e : Eng) : (s.awaitShows e).filed := State.filed_ite h (State.filed_ite h h)
theorem State.filed.takeScFence (h : s.filed) (sc : Scope) : (s.takeScFence sc).filed := by
  unfold State.takeScFence
  dsimp only
  split <;> exact h
theorem State.filed.closeFences (h : s.filed) : s.closeFences.filed := State.filed.mapCore (State.filed.foldl (fun _ _ ht => ht.mapDev id) _ h) fun _ => rfl
theorem State.filed.freeHomes (h : s.filed) : s.freeHomes.filed := h.mapDev id
theorem State.filed.mapHome (h : s.filed) (m : Home) (f : Home → Home) : (s.mapHome m f).filed := h.mapDev id
theorem State.filed.sendNote (h : s.filed) (n : Note) : (s.sendNote n).filed := h.mapDev id
theorem State.filed.withEntry (h : s.filed) (v : W256) : (s.withEntry v).filed := State.filed_ite h h
theorem State.filed.putItem (h : s.filed) (m : Home) (i : Item) : (s.putItem m i).filed := by
  unfold State.putItem
  split
  · exact h
  · dsimp only
    split
    · exact (h.mapHome ..).sendNote _
    · exact (h.mapHome ..).mapHome ..
theorem State.filed.runNotes (h : s.filed) (n : Nat) (ns : List Note) : (s.runNotes n ns).filed := by
  induction n generalizing ns s with
  | zero => exact h
  | succ n ih =>
    cases ns with
    | nil => exact h
    | cons x r =>
      unfold State.runNotes
      split
      · exact ih (h.sendNote x) _
      · split
        · exact ih (h.mapHome ..) _
        · exact ih h _
theorem State.filed.tell (h : s.filed) (ns : List Note) : (s.tell ns).filed := (h.runNotes ..).freeHomes
theorem State.filed.unmove (h : s.filed) (m : Home) (e : Bool) : (s.unmove m e).filed := by
  unfold State.unmove
  split_ifs
  · exact h.mapHome ..
  · exact (h.mapHome ..).tell _
  · exact h
theorem State.filed.acquireItems (h : s.filed) (a : Option Scope) (is : List Item) : (s.acquireItems a is).filed := by
  cases a with
  | none => exact h
  | some sc => exact State.filed.acquireFrom (s := s.bridgeSt) h sc _
theorem State.filed.unbind (h : s.filed) (m : Home) : (s.unbind m).filed :=
  State.filed.mapHome (h.mapCores (f := fun _ c => { c with bindings := c.bindings.filter fun b => !b.isOf m.sid m.hrank }) fun _ _ => rfl) m _
theorem State.filed.dropEnd (h : s.filed) (x : W32 × Nat × Bool) : (s.dropEnd x).filed := by
  unfold State.dropEnd
  split
  · exact h
  · refine State.filed_ite h (State.filed_ite ?_ ?_)
    · exact ((h.unbind _).mapHome ..).tell _
    · exact (h.mapHome ..).tell _
theorem State.filed.dropTaskEnds (h : s.filed) (x : W16) (n : Nat) : (s.dropTaskEnds x n).filed :=
  State.filed.foldl (fun _ x ht => ht.dropEnd x) _ h
theorem State.filed.streamAnswer (h : s.filed) (r : Nat) (t : BitVec 5) (l : List Byte) (sid : W32) (n : Nat) (m : StreamMsg) :
    (s.streamAnswer r t l sid n m).2.filed := by
  unfold State.streamAnswer
  split
  · exact h
  · cases m with
    | check v right room =>
      dsimp only
      split
      · exact h
      · split
        · split_ifs
          · exact h
          · exact h
          · exact h
          all_goals exact (h.mapHome ..).tell _
        · exact h
    | move e =>
      dsimp only
      split <;> exact h
    | _ => exact h
theorem State.filed.streamMsg (h : s.filed) (r : Nat) (t : BitVec 5) (l : List Byte) (c : Nat) (sid : W32) (n : Nat) (m : StreamMsg) :
    (s.streamMsg r t l c sid n m).filed := by
  unfold State.streamMsg
  split
  · exact h
  · exact h.tell _
theorem State.filed.takeAnswer (h : s.filed) (m : LinkMsg) (r : Reply) : (s.takeAnswer m r).filed := by
  unfold State.takeAnswer
  refine State.filed_ite h ?_
  dsimp only
  have hc := h.coreAt m.core
  refine h.setCoreAt _ ?_
  split
  · exact hc
  · split
    · exact (Core.sized_aside (c := s.coreAt m.core) (f := fun a => { a with replies := a.replies.set m.port ((a.replies.get m.port).answered r) }) (fun _ => rfl) fun _ => rfl).trans hc
    · exact hc
theorem Device.filed.refuse {d : Device} (h : d.filed) (r : Requester) (off : Nat) : (d.refuse r off).filed := h.logEvent _
theorem State.filed.refuse (h : s.filed) (r : Requester) (off : Nat) : (s.mapDev fun d => d.refuse r off).filed :=
  h.mapDev fun hd => hd.logEvent _
theorem State.filed.writeInval0 (h : s.filed) (v : W64) : (s.writeInval0 v).filed := State.filed_ite (h.refuse ..) h
theorem State.filed.tryInval (h : s.filed) : s.tryInval.filed :=
  State.filed_ite (h.mapDev fun hd => Device.filed.mapTenant (d := { s.dev with inval1 := _ }) hd ..) h
theorem State.filed.writeInval1 (h : s.filed) (v : W64) : (s.writeInval1 v).filed :=
  State.filed_ite (h.refuse ..) (h.mapDev id).tryInval
theorem State.filed.tryKeyClear (h : s.filed) : s.tryKeyClear.filed := State.filed_ite h h
theorem State.filed.writeKeycmd (h : s.filed) (v : W64) : (s.writeKeycmd v).filed := by
  refine State.filed_ite (h.refuse ..) ?_
  dsimp only
  exact State.filed_ite h (State.filed_ite h (State.filed_ite (h.mapDev id).tryKeyClear (h.mapDev fun hd => Device.filed.refuse (d := { s.dev with keycmd := doneCmd (v &&& 0x80000300000003FF#64) }) hd ..)))
theorem State.filed.writeBlock (h : s.filed) (t : BitVec 5) (o : Nat) (v : W64) : (s.writeBlock t o v).filed :=
  h.mapDev fun hd => hd.mapTenant ..
theorem State.filed.writeMbx (h : s.filed) (t : BitVec 5) (n : Nat) (v : W64) (r : Bool) : (s.writeMbx t n v r).filed :=
  h.mapDev (f := fun d => d.mapTenant t _) fun hd => hd.mapTenant ..
theorem State.filed.mapQueue (h : s.filed) (q : BitVec 9) (f : LQueue → LQueue) : (s.mapQueue q f).filed :=
  h.mapDev fun hd => ⟨hd.1, hd.2.1, (modAt_length ..).trans hd.2.2.1, hd.2.2.2⟩
theorem State.filed.softError (h : s.filed) (c : BitVec 4) (a : Nat) : (s.softError c a).filed := by
  unfold State.softError
  refine State.filed_ite h (State.filed_ite ?_ (State.filed_ite (State.filed_ite ?_ h) h))
  · split
    · exact h
    · exact State.filed_ite ((h.tell _).mapDev fun hd => hd.logEvent _) h
  · exact (h.mapQueue ..).mapDev fun hd => hd.logEvent _
end Sys2Proof.Machine
end

section
/-!
Writers, judgements and continuations: a word that waits, traps or goes on answers a next state with its files where its continuation does.
-/
namespace Sys2Proof.Machine
variable {s : State}

/-! ### Device memory and scratchpad -/

theorem State.filed.rekey (key : Option (BitVec 512)) (u : Nat) (h : s.filed) : (s.rekey key u).filed := by
  unfold State.rekey
  split
  · exact h
  · exact h
theorem State.filed.writePhys (key : Option (BitVec 512)) (a : Nat) (bs : List Byte) (h : s.filed) :
    (s.writePhys key a bs).filed := by
  have hk := State.filed.foldl (fun t u => State.filed.rekey key u)
    ((List.range ((a + bs.length + 63) / 64 - a / 64)).map fun k => a / 64 + k) h
  exact hk
theorem State.filed.writeSpad (a : Nat) (bs : List Byte) (h : s.filed) : (s.writeSpad a bs).filed :=
  h
theorem State.filed.putPhys (p : Path) (key : Option (BitVec 512)) (a : Nat) (bs : List Byte) (h : s.filed) :
    (s.putPhys p key a bs).filed := (h.writePhys key a bs).mapDev id
theorem State.filed.putSpad (p : Path) (a : Nat) (bs : List Byte) (h : s.filed) :
    (s.putSpad p a bs).filed := (h.writeSpad a bs).mapDev id
theorem State.filed.performStore (e : StoreEnt) (h : s.filed) : (s.performStore e).filed := by
  have hw : (if e.sp then s.putSpad .sc e.addr e.bytes else s.putPhys .sc e.key e.addr e.bytes).filed :=
    State.filed_ite (h.putSpad ..) (h.putPhys ..)
  exact State.filed.mapDev (f := fun d => { d with writeNo := d.writeNo + 1 }) (State.filed_ite hw (hw.mapDev id)) id
theorem State.filed.drainStores (h : s.filed) : s.drainStores.filed :=
  (State.filed.foldl (fun _ e ht => ht.performStore e) s.core.stores h).mapCore fun _ => rfl
theorem State.filed.atomicAt (p : Option Path) (key : Option (BitVec 512)) (pa : Nat) (op : AtOp) (w : AtW) (g : Sgn) (v c : W64)
    (rels : List (Party × Scope)) (h : s.filed) : (s.atomicAt p key pa op w g v c rels).2.filed := by
  unfold State.atomicAt
  dsimp only
  split
  · exact h
  · refine State.filed.mapDev ?_ id
    cases p with
    | none => exact h.writePhys ..
    | some p => exact (h.putPhys ..).mapDev (f := fun d => { d with writeNo := d.writeNo + 1 }) id
theorem State.filed.readLoad (x : LdSrc) (h : s.filed) : (s.readLoad x).2.filed := by
  cases x with
  | done => exact h
  | mem => exact h.noteRead ..
  | spad => exact h.noteRead ..
  | atomic => exact (h.atomicAt ..).noteRead ..
theorem State.filed.startLoad (d : SReg) (x : LdSrc) (n : Nat) (h : s.filed) : (s.startLoad d x n).filed :=
  State.filed_ite h ((h.readLoad x).mapCore fun _ => rfl)
theorem State.filed.sampleLoad (l : LoadEnt) (h : s.filed) : (s.sampleLoad l).2.filed :=
  State.filed.mapCore (State.filed.readLoad (s := s.mapCore fun c => { c with stores := c.stores.filter fun e => decide (e.issued < l.issued) })
    l.src h) fun _ => rfl
theorem State.filed.applyEff (p : Option Path) (e : Eff) (h : s.filed) : (State.applyEff p s e).filed := by
  unfold State.applyEff
  cases e with
  | run k bs =>
    cases p with
    | none => exact h.writeSpad ..
    | some p => exact h.putSpad ..
  | queue q t => exact h.mapCore fun _ => Core.setQueue_sized ..
  | _ => exact h
theorem State.filed.applyEffs (p : Option Path) (es : List Eff) (h : s.filed) :
    (es.foldl (State.applyEff p) s).filed :=
  State.filed.foldl (fun _ e ht => ht.applyEff p e) es h
theorem State.filed.land (f : Flight) (h : s.filed) : (s.land f).filed := by
  have h1 : (s.mapCore fun c => { c with flights := c.flights.filter fun g => g.id != f.id }.closeFoot f.eng f.id).filed := h.mapCore fun _ => rfl
  have he := (h1.applyEffs (if f.eng = .mat then some .mx else none) f.effs).mapDev (f := fun d => { d with writeNo := d.writeNo + 1 }) id
  unfold State.land
  dsimp only
  split
  · exact he.mapCore fun _ => Core.finishInst_sized ..
  · exact he.mapCore fun c => (Core.postClause_sized ..).trans (Core.completeOut_sized ..)
theorem State.filed.lands (fs : List Flight) (h : s.filed) : (fs.foldl State.land s).filed :=
  State.filed.foldl (fun _ f ht => ht.land f) fs h
theorem State.filed.landDue (h : s.filed) : s.landDue.filed := (h.lands _).lands _
theorem State.filed.writeSpot (p : Path) (x : Spot) (bs : List Byte) (h : s.filed) : (s.writeSpot p x bs).filed := by
  cases x with
  | phys a key => exact h.putPhys ..
  | sp k => exact h.putSpad ..
  | _ => exact h
theorem State.filed.scatterStep (p : Path) (o : Operand) (k : Nat) (bs : List Byte) (h : s.filed) :
    (s.scatterStep p o k bs).filed :=
  State.filed.mapDev (State.filed.foldl (fun _ _ ht => ht.writeSpot ..) _ h) id
theorem State.filed.credPiece (int : Bool) (o : Operand) (k : Nat) (bs : List Byte) (h : s.filed) :
    (s.credPiece int o k bs).filed :=
  State.filed.mapDev (State.filed.foldl (fun _ _ ht => ht.writeSpot ..) _ h) id
theorem State.filed.writePieces (bs : List Byte) (ps : List (Nat × Option (BitVec 512) × Nat)) (h : s.filed) :
    (s.writePieces bs ps).filed := by
  induction ps generalizing s bs with
  | nil => exact h
  | cons p r ih => exact ih _ (h.writePhys _ _ _)
theorem State.filed.writeVirt {t : State} {n : BitVec 5} {own : Option Nat} {va : Nat} {bs : List Byte} (h : s.filed)
    (ht : s.writeVirt n own va bs = some t) : t.filed := by
  obtain ⟨ps, -, rfl⟩ := Option.map_eq_some_iff.1 ht
  exact h.writePieces bs ps

/-! ### States that a judgement, a reading or a look at a word carries -/

theorem State.filed.openFoot (h : s.filed) {t : State} {f : Footprint} (ho : s.openFoot f = .ok t) : t.filed := by
  unfold State.openFoot at ho
  split at ho
  · cases ho
    exact h
  · dsimp only at ho
    split at ho
    · cases ho
      exact h
    · cases ho
theorem State.filed.startPhase (h : s.filed) {t : State} {bs : List Bind} {n : Nat} {p : At} {o : Owner} (ho : s.startPhase bs n p o = .ok t) :
    t.filed := by
  unfold State.startPhase at ho
  split at ho
  · cases ho
  · dsimp only at ho
    split at ho
    · cases ho
    · rename_i hf
      cases ho
      exact (h.openFoot hf).mapCore fun c => ite_of (P := fun x : Core => x.sized = c.sized) (Core.dropBinds_sized ..) rfl
theorem State.filed.checkEnd (h : s.filed) {v : W256} {w : Option Bool} {x : Home × Bool × State} (hx : s.checkEnd v w = .ok x) :
    x.2.2.filed := by
  unfold State.checkEnd at hx
  extract_lets e sid at hx
  split at hx
  · cases hx
  · split at hx
    · cases hx
    · split at hx
      · cases hx
      · extract_lets here at hx
        split_ifs at hx
        split at hx
        · split_ifs at hx
          cases hx
          exact h.mapHome ..
        · cases hx
          exact h
theorem State.filed.setSysReg (h : s.filed) {t : State} {n : Nat} {v : W64} (ht : s.setSysReg n v = some t) : t.filed := by
  unfold State.setSysReg at ht
  dsimp only at ht
  split_ifs at ht <;> cases ht <;> exact h
theorem State.filed.takeLaunch (h : s.filed) {t : State} {n : BitVec 5} {r : List Byte} {m : LaunchMsg} (ht : s.takeLaunch n r m = some t) :
    t.filed := by
  unfold State.takeLaunch at ht
  split at ht
  · cases ht
    exact h
  · cases ht
theorem State.filed.standAt (h : s.filed) {e : Eng} {i : Instr} {t : State} (hx : s.standAt e = some (i, t)) : t.filed := by
  unfold State.standAt at hx
  dsimp only at hx
  split at hx
  · cases hx
  · split at hx
    · cases hx
    · split at hx <;> cases hx
      exact h
theorem State.filed.atWord (h : s.filed) {e : Eng} {t : State} {r : Reading} (hx : s.atWord e = some (t, r)) : t.filed := by
  unfold State.atWord at hx
  dsimp only at hx
  split at hx
  · cases hx
  · obtain ⟨w, -, hw⟩ := Option.map_eq_some_iff.1 hx
    cases hw
    exact h

/-! ### Continuations -/

/-- An access of another module goes on from a state with its files, answered, refused or waiting. -/
theorem State.filed.ask {α : Type} {P : α → Prop} {e : Eng} {rank n : Nat} {k : LinkKind}
    {done : List Byte → List (Party × Scope) → State → α} {refused wait : State → α} (h : s.filed)
    (hd : ∀ bs ch t, t.filed → P (done bs ch t)) (hr : ∀ t, t.filed → P (refused t)) (hw : ∀ t, t.filed → P (wait t)) :
    P (s.askEngine e rank n k done refused wait) := by
  have hs (r : Reply) : (s.setReply e r).filed := h
  unfold State.askEngine
  split
  · exact ite_of (hw _ (State.filed.mapCore ((h.linkDebit n).mapDev id) fun _ => rfl)) (hw _ h)
  · exact hw _ h
  · exact hw _ h
  · exact hd _ _ _ (hs _)
  · exact hr _ (hs _)
/-- The same where the three ways on are updates. -/
theorem State.filed.askEngine {e : Eng} {rank n : Nat} {k : LinkKind} {done : List Byte → List (Party × Scope) → State → State}
    {refused wait : State → State} (h : s.filed) (hd : ∀ bs ch t, t.filed → (done bs ch t).filed)
    (hr : ∀ t, t.filed → (refused t).filed) (hw : ∀ t, t.filed → (wait t).filed) :
    (s.askEngine e rank n k done refused wait).filed := h.ask (P := State.filed) hd hr hw

variable {k : State → Out}

theorem State.filed.waits (h : s.filed) (w : Wait) : FiledOut (.next (s.waiting w)) := h.waiting w
theorem State.filed.traps (h : s.filed) (f : Flt) : FiledOut (.next (s.trap f)) := h.trap f
theorem State.filed.trapWith (h : s.filed) (t : TrapInfo) : (s.trapWith t).filed := h.takeTrap ..
theorem State.filed.trapRule (h : s.filed) (r : Byte) (v id : Nat) : FiledOut (.next (s.trapRule r v id)) := h.trapWith _
theorem State.filed.completes (h : s.filed) (n : Nat) : FiledOut (.next (s.complete n)) := h.complete n
theorem State.filed.puts (h : s.filed) (d : SReg) (v : W64) : FiledOut (.next (s.putS d v)) := h.putS d v
theorem State.filed.skips (h : s.filed) (b : Bool) : FiledOut (.next (s.skipMul b)) := h.skipMul b
theorem State.timed_filed {n : Nat} {got : Option (List Byte)} {w : Wait} (h : s.filed) : FiledOut (s.timed n got w) :=
  State.filed.waiting (h.mapSeq (f := fun q => { q with dec := .timed n got }) _ fun _ => rfl) _
theorem State.fabQueue_filed {q : FabCmd} (h : s.filed) : FiledOut (s.fabQueue q) :=
  .ite (State.filed.complete (h.mapFab _) 1)
    (State.filed.waiting (State.filed.mapSeq (h.mapFab _) _ (f := fun q => { q with claim := some 0 }) fun _ => rfl) _)

theorem State.withPaths_filed {ps : List Path} (h : s.filed) (hk : KeepsFiles k) : FiledOut (s.withPaths ps k) := by
  unfold State.withPaths
  dsimp only
  split
  · exact hk _ h
  · exact h.waits _
theorem State.withDrained_filed (h : s.filed) (hk : KeepsFiles k) : FiledOut (s.withDrained k) := by
  unfold State.withDrained
  exact .ite (.ite (hk _ h) (h.waits _)) (.ite (hk _ h.drainStores) (h.waits _))
theorem State.inOrder_filed {l : Nat} {b : Bool} (h : s.filed) (hk : KeepsFiles k) : FiledOut (s.inOrder l b k) := .ite (h.waits _) (hk _ h)
theorem State.withAwait_filed {tl : Tail} (h : s.filed) (hk : KeepsFiles k) : FiledOut (s.withAwait tl k) := by
  unfold State.withAwait
  split
  · exact hk _ h
  · refine .ite (hk _ h) (.ite (hk _ ?_) (h.waits _))
    exact State.filed.mapSeq (h.mapCore fun _ => Core.takeFlag_sized ..) _ fun _ => rfl
theorem State.withRegs_filed {rs : List SReg} (h : s.filed) (hk : KeepsFiles k) : FiledOut (s.withRegs rs k) := .ite (h.waits _) (hk _ h)
theorem State.withGood_filed {c : BitVec 4} {p : Nat → Bool} (h : s.filed) (hk : KeepsFiles k) : FiledOut (s.withGood c p k) := by
  unfold State.withGood
  split
  · exact h.traps _
  · exact hk _ h
theorem State.withSc_filed (h : s.filed) (hk : KeepsFiles k) : FiledOut (s.withSc k) := .ite (hk _ h) (h.waits _)
theorem State.withBytes_filed {n : Nat} (h : s.filed) (hk : KeepsFiles k) : FiledOut (s.withBytes n k) := .ite (hk _ (h.memDebit n)) (h.waits _)
theorem State.withUnpinned_filed {l : Nat} (h : s.filed) (hk : KeepsFiles k) : FiledOut (s.withUnpinned l k) := .ite (hk _ h) (h.waits _)
theorem State.pushing_filed {m : EMask} {x : CtlEntry} (h : s.filed) (hk : KeepsFiles k) : FiledOut (s.pushing m x k) := .ite (hk _ (h.pushCtl m x)) (h.waits _)
theorem State.withoutHazard_filed {b : Bool} (h : s.filed) (hk : KeepsFiles k) : FiledOut (s.withoutHazard b k) := .ite (h.waits _) (hk _ h)
theorem State.fenceTimed_filed (h : s.filed) (hk : KeepsFiles k) : FiledOut (s.fenceTimed k) := .ite (hk _ h) (State.timed_filed h)
theorem State.withFoot_filed {r w : List Nat} (h : s.filed) (hk : KeepsFiles k) : FiledOut (s.withFoot r w k) := by
  unfold State.withFoot
  split
  · exact h.traps _
  · rename_i ho
    exact hk _ (h.openFoot ho)
theorem State.matWord_filed {tl : Tail} {bs cs : List BankNo} (h : s.filed) (hk : KeepsFiles k) : FiledOut (s.matWord tl bs cs k) :=
  State.withAwait_filed h fun _ ht => .ite (ht.waits _) (State.withoutHazard_filed ht hk)
theorem State.withBanks_filed {bs cs : List BankNo} (h : s.filed) (hk : KeepsFiles k) : FiledOut (s.withBanks bs cs k) := State.withGood_filed h hk
theorem State.withTurn_filed {o : Operand} (h : s.filed) (hk : KeepsFiles k) : FiledOut (s.withTurn o k) := .ite (h.waits _) (hk _ h)
theorem State.fabWord_filed (h : s.filed) (hk : KeepsFiles k) : FiledOut (s.fabWord k) :=
  .ite (.ite (h.waits _) (h.completes 1)) (hk _ h)
theorem State.withAligned_filed {v : W256} (h : s.filed) (hk : KeepsFiles k) : FiledOut (s.withAligned v k) := .ite (hk _ h) (h.traps _)
theorem State.withStream_filed (h : s.filed) (hk : KeepsFiles k) : FiledOut (s.withStream k) := State.withPaths_filed h hk
theorem State.withSt_filed (h : s.filed) (hk : KeepsFiles k) : FiledOut (s.withSt k) := State.withPaths_filed h hk
theorem State.observed_filed (h : s.filed) (hk : KeepsFiles k) : FiledOut (s.observed k) := .ite (hk _ h) (h.waits _)

theorem State.askRemote_filed {k : List Byte → List (Party × Scope) → State → Out} {rank ea n : Nat} {w : Want} {m : LinkKind}
    (h : s.filed) (hk : ∀ bs ch, KeepsFiles (k bs ch)) : FiledOut (s.askRemote rank ea n w m k) :=
  h.ask (P := FiledOut) (fun bs ch t ht => hk bs ch t ht) (fun _ ht => ht.traps _) fun _ ht => ht.waits _
theorem State.askStream_filed {k : List Byte → State → Out} {sid : W32} {a b : Nat} {m : StreamMsg} (h : s.filed)
    (hk : ∀ bs, KeepsFiles (k bs)) : FiledOut (s.askStream sid a b m k) :=
  h.ask (P := FiledOut) (fun bs _ t ht => hk bs t ht) (fun _ ht => ht.traps _) fun _ ht => ht.waits _
theorem State.withNant_filed {k : Bool → State → Out} (h : s.filed) (hk : ∀ x, KeepsFiles (k x)) : FiledOut (s.withNant k) :=
  .ite (hk _ _ h) (h.waits _)
theorem State.withHO_filed {k : W256 → State → Out} {r : HReg} (h : s.filed) (hk : ∀ x, KeepsFiles (k x)) : FiledOut (s.withHO r k) :=
  .ite (hk _ _ h) (h.waits _)
theorem State.withLine_filed {k : Nat → State → Out} {o : Op2} (h : s.filed) (hk : ∀ l, KeepsFiles (k l)) : FiledOut (s.withLine o k) :=
  .ite (h.traps _) (hk _ _ h)
theorem State.withId_filed {k : Nat → State → Out} {v : W64} (h : s.filed) (hk : ∀ id, KeepsFiles (k id)) : FiledOut (s.withId v k) :=
  .ite (h.trapRule ..) (hk _ _ h)
theorem State.withOpen_filed {k : W256 → State → Out} {r : HReg} (h : s.filed) (hk : ∀ x, KeepsFiles (k x)) : FiledOut (s.withOpen r k) :=
  .ite (h.traps _) (.ite (h.traps _) (State.withGood_filed h (hk _)))
theorem State.withRule_filed {k : Nat → Rule → State → Out} {v : W64} (h : s.filed) (hk : ∀ id r, KeepsFiles (k id r)) :
    FiledOut (s.withRule v k) := by
  refine State.withId_filed h fun id t ht => State.withGood_filed ht fun u hu => ?_
  split
  · exact hu.trapRule ..
  · exact hk _ _ _ hu
theorem State.withPop_filed {k : Option Tile → State → Out} {b : Bool} {q : QNo} {ws : List Nat} (h : s.filed)
    (hk : ∀ t, KeepsFiles (k t)) : FiledOut (s.withPop b q ws k) := by
  unfold State.withPop
  split
  · exact State.withFoot_filed h (hk _)
  · split
    · exact h.waits _
    · exact State.withGood_filed h fun t ht => State.withFoot_filed ht fun u hu =>
        hk _ _ (hu.mapCore fun _ => Core.setQueue_sized ..)
theorem State.withDest_filed {k : Operand → State → Out} {v : W256} {o : Operand} {b : Bool} (h : s.filed)
    (hk : ∀ o, KeepsFiles (k o)) : FiledOut (s.withDest v o b k) := by
  have tags (o : Operand) (t : State) (ht : t.filed) : FiledOut (match t.core.matDest o with
      | .error f => .next (t.trap f)
      | .ok o => k o (t.resolved o)) := by
    split
    · exact ht.traps _
    · exact hk _ _ (ht.mapSeq _ fun _ => rfl)
  unfold State.withDest
  dsimp only
  split
  · exact hk _ _ h
  · exact tags _ _ h
  · split
    · exact h.traps _
    · refine .ite (tags _ _ h) ?_
      split
      · exact h.traps _
      · rename_i n c hc
        exact tags _ _ (State.filed.mapSeq (s := { s with core := c }) ⟨(Core.claimWrite_sized hc).trans h.1, h.2⟩ _ fun _ => rfl)
theorem State.popping_filed {k : CtlEntry → State → Out} (h : s.filed) (hk : ∀ x, KeepsFiles (k x)) : FiledOut (s.popping k) := by
  unfold State.popping
  split
  · exact h.waits _
  · exact hk _ _ (h.mapSeq _ fun _ => rfl)
theorem State.mulWord_filed {ctl other : State → Out} {m : EMask} {b : Bool} (h : s.filed) (hc : KeepsFiles ctl) (ho : KeepsFiles other) :
    FiledOut (s.mulWord m b ctl other) := 
  .ite (hc _ h) (.ite (ho _ h) (h.skips _))
theorem State.withEnd_filed {k : Home → Bool → State → Out} {r : HReg} {w : Option Bool} (h : s.filed)
    (hk : ∀ x e, KeepsFiles (k x e)) : FiledOut (s.withEnd r w k) := by
  have go (t : State) (ht : t.filed) : FiledOut (match t.checkEnd (s.core.getH r) w with
      | .error f => .next (t.trap f)
      | .ok x => k x.1 x.2.1 x.2.2) := by
    split
    · exact ht.traps _
    · rename_i hx
      exact hk _ _ _ (ht.checkEnd hx)
  refine .ite (State.askStream_filed h fun bs t ht => ?_) (go s h)
  dsimp only
  split
  · refine go _ ?_
    split
    · exact (ht.withEntry _).mapHome ..
    · exact ht.withEntry _
  · exact ht.traps _
  · exact ht.traps _
theorem State.withRecv_filed {k : Home → State → Out} {r : HReg} (h : s.filed) (hk : ∀ x, KeepsFiles (k x)) : FiledOut (s.withRecv r k) :=
  State.withEnd_filed h fun x _ _ ht => .ite (ht.traps _) (hk x _ ht)
theorem State.withItems_filed {k : Nat → State → Out} {x : Home} {o : Op2} (h : s.filed) (hk : ∀ n, KeepsFiles (k n)) :
    FiledOut (s.withItems x o k) := .ite (h.traps _) (hk _ _ h)
theorem State.withItemBytes_filed {k : Nat → State → Out} {a : SReg} {n : Nat} {b : Bool} (h : s.filed) (hk : ∀ n, KeepsFiles (k n)) :
    FiledOut (s.withItemBytes a n b k) := .ite (h.traps _) (.ite (h.traps _) (hk _ _ h))

end Sys2Proof.Machine
end

section
/-!
The words of CTL, ACC and VEC, and shared control flow: each answers a next state with its files.
-/
namespace Sys2Proof.Machine

variable {s : State}

/-! ### Updates that touch no file -/

theorem State.filed.pushLoad (h : s.filed) (d : SReg) (v : W64) : (s.pushLoad d v).filed := h.mapCore fun _ => rfl
theorem State.filed.pushStore (h : s.filed) (sp : Bool) (pa : Nat) (key : Option (BitVec 512)) (bs : List Byte) (r : Option Scope) :
    (s.pushStore sp pa key bs r).filed := h.mapCore fun _ => rfl
theorem State.filed.showTo (h : s.filed) (x : BitVec 7) (p : Stale → Bool) : (s.showTo x p).filed := h.mapDev id
theorem State.filed.mapView (h : s.filed) (m : EMask) (f : View → View) : (s.mapView m f).filed := h.mapCore fun _ => rfl
theorem State.filed.send (h : s.filed) (r : Nat) (e : Eng) (w : Bool) (k : LinkKind) : (s.send r e w k).filed := h.mapDev id

/-! ### CTL: integers and memory (05 R92 to R95; 09 R191; 20 R317 to R328) -/

theorem State.alu_filed {d a o f} (h : s.filed) : FiledOut (s.alu d a o f) := State.withRegs_filed h fun _ ht => ht.puts ..
/-- A word that waits for registers and then writes one. -/
theorem State.withRegs_putS_filed {rs d} {v : State → W64} (h : s.filed) :
    FiledOut (s.withRegs rs fun s => .next (s.putS d (v s))) := State.withRegs_filed h fun _ ht => ht.puts ..
theorem execLd_files {k d a off acq} : KeepsFiles (execLd k d a off acq) := by
  intro s h
  unfold execLd
  refine State.withRegs_filed h fun s h => State.withSc_filed h fun s h => ?_
  dsimp only
  split
  · exact h.traps _
  · split
    · exact State.askRemote_filed h fun bs ch t ht => ((ht.noteRead ..).pushLoad ..).completes 1
    · exact .ite (h.traps _) (State.inOrder_filed h fun t ht => State.withBytes_filed ht fun u hu => (hu.startLoad ..).completes 1)
theorem execSt_files {k a b off rel} : KeepsFiles (execSt k a b off rel) := by
  intro s h
  unfold execSt
  refine State.withRegs_filed h fun s h => ?_
  dsimp only
  split
  · exact h.traps _
  · split
    · exact State.withSc_filed h fun s h => State.withDrained_filed h fun s h => State.askRemote_filed h fun _ _ _ ht => ht.completes 1
    · exact State.inOrder_filed h fun s h => State.withBytes_filed h fun _ ht => (ht.pushStore ..).completes 1
theorem execLdsp_files {k d a off acq} : KeepsFiles (execLdsp k d a off acq) := by
  intro s h
  unfold execLdsp
  refine State.withRegs_filed h fun s h => State.withSc_filed h fun s h => ?_
  dsimp only
  split
  · exact h.traps _
  · exact .ite (h.traps _) (State.inOrder_filed h fun t ht => (ht.startLoad ..).completes 1)
theorem execStsp_files {k a b off rel} : KeepsFiles (execStsp k a b off rel) := by
  intro s h
  unfold execStsp
  refine State.withRegs_filed h fun s h => ?_
  dsimp only
  split
  · exact h.traps _
  · exact State.inOrder_filed h fun _ ht => (ht.pushStore ..).completes 1
theorem State.sampleTimed_filed {d key pa v sc} (h : s.filed) : FiledOut (s.sampleTimed d key pa v sc) := by
  unfold State.sampleTimed
  dsimp only
  split
  · exact .ite (h.waits _) (h.puts ..)
  · exact .ite (h.waits _) (State.withBytes_filed h fun t ht => .ite (State.timed_filed (ht.noteRead ..)) (State.timed_filed ht))
  · exact State.inOrder_filed h fun _ ht => State.timed_filed ht
theorem State.sampleGe_filed {d a o sc} (h : s.filed) : FiledOut (s.sampleGe d a o sc) := by
  refine State.withRegs_filed h fun s h => State.withSc_filed h fun s h => ?_
  dsimp only
  split
  · exact h.traps _
  · split
    · exact State.askRemote_filed h fun bs ch t ht => .ite ((ht.noteRead ..).puts ..) (ht.waits _)
    · exact .ite (h.traps _) (.ite (State.sampleTimed_filed h)
        (State.withBytes_filed h fun t ht => .ite ((ht.noteRead ..).puts ..) (ht.waits _)))
theorem State.atomic_filed {op w g d a cr o ord} (h : s.filed) : FiledOut (s.atomic op w g d a cr o ord) := by
  refine State.withRegs_filed h fun s h => State.withSc_filed h fun s h => ?_
  dsimp only
  split
  · exact h.traps _
  · split
    · exact State.withDrained_filed h fun s h => State.askRemote_filed h fun bs ch t ht => ((ht.noteRead ..).pushLoad ..).completes 1
    · exact .choice (State.inOrder_filed h) (State.withDrained_filed h) fun t ht =>
        .ite (ht.traps _) (State.withBytes_filed ht fun u hu => (hu.startLoad ..).completes 1)
theorem execMark_files : KeepsFiles execMark := by
  intro s h
  unfold execMark
  exact State.withDrained_filed h fun _ ht => ht.completes 1
theorem execFence_files {k sc} : KeepsFiles (execFence k sc) := by
  intro s h
  have rel (t : State) (ht : t.filed) : (t.mapCore fun c => { c with fenceRel := (sc :: c.fenceRel).dedup }).filed := ht.mapCore fun _ => rfl
  unfold execFence
  cases k with
  | acq => exact .ite ((h.acquireFrom ..).completes 1) (h.waits _)
  | rel => exact (rel _ h).completes 1
  | acqrel => exact .ite ((rel _ (h.acquireFrom ..)).completes 1) (h.waits _)
  | sc =>
    exact .choice (State.fenceTimed_filed h) (State.withDrained_filed h) fun t ht =>
      (rel _ ((ht.acquireFrom ..).takeScFence _)).completes 1

/-! ### CTL: handles and tags (05 R96 to R99; 07 R133 to R137) -/

theorem State.filed.putsH (h : s.filed) (r : HReg) (v : W256) : FiledOut (.next (s.putH r v)) := h.putH r v
theorem State.hldTimed_filed {r key pa} (h : s.filed) : FiledOut (s.hldTimed r key pa) := by
  unfold State.hldTimed
  dsimp only
  split
  · exact .ite (h.waits _) (h.putsH ..)
  · refine .ite (h.waits _) (State.timed_filed ?_)
    exact (h.noteRead ..).mapCore fun _ => rfl
  · exact State.inOrder_filed h fun t ht => State.withBytes_filed ht fun _ hu => State.timed_filed hu
theorem execHld_files {r a off} : KeepsFiles (execHld r a off) := by
  intro s h
  unfold execHld
  refine State.withRegs_filed h fun s h => State.withSc_filed h fun s h => ?_
  dsimp only
  split
  · exact h.traps _
  · split
    · exact State.askRemote_filed h fun bs ch t ht => (ht.noteRead ..).putsH ..
    · exact .ite (h.traps _) (.ite (State.hldTimed_filed h) (State.withBytes_filed h fun t ht => (ht.noteRead ..).putsH ..))
theorem execHst_files {r a off} : KeepsFiles (execHst r a off) := by
  intro s h
  unfold execHst
  refine State.withRegs_filed h fun s h => ?_
  dsimp only
  split
  · exact h.traps _
  · split
    · exact State.withSc_filed h fun s h => State.withDrained_filed h fun s h => State.askRemote_filed h fun _ _ _ ht => ht.completes 1
    · exact State.inOrder_filed h fun s h => State.withBytes_filed h fun _ ht =>
        ((((ht.pushStore ..).pushStore ..).pushStore ..).pushStore ..).completes 1
theorem State.editH_filed {r o f} (h : s.filed) : FiledOut (s.editH r o f) :=
  State.withRegs_filed h fun _ ht => .ite (ht.traps _) (ht.putsH ..)
theorem execHoff_files {r k o} : KeepsFiles (execHoff r k o) := by
  intro s h
  unfold execHoff
  exact State.withRegs_filed h fun _ ht => .ite (ht.traps _) (ht.putsH ..)
theorem execTlook_files {d a} : KeepsFiles (execTlook d a) := by
  intro s h
  unfold execTlook
  exact State.withRegs_filed h fun _ h => State.withGood_filed h fun _ ht => ht.puts ..
theorem State.filed.setTags (h : s.filed) (f : Core → List TagEnt) : (s.mapCore fun c => { c with tags := f c }).filed := h.mapCore fun _ => rfl
theorem execTset_files {a o} : KeepsFiles (execTset a o) := by
  intro s h
  unfold execTset
  refine State.withRegs_filed h fun _ h => State.withLine_filed h fun l _ h => State.withGood_filed h ?_
  intro s h
  dsimp only
  split
  · exact h.traps _
  · exact State.withUnpinned_filed h fun _ ht => (ht.setTags _).completes 1
theorem execTclr_files {o} : KeepsFiles (execTclr o) := by
  intro s h
  unfold execTclr
  exact State.withRegs_filed h fun _ h => State.withLine_filed h fun _ _ h => State.withUnpinned_filed h fun _ ht => (ht.setTags _).completes 1
/-- Said by an equation, as the search over all 1,024 lines does not reduce. -/
theorem execTclrAll_filed (h : s.filed) : ∃ t, execTclrAll s = .next t ∧ t.filed := by
  unfold execTclrAll
  generalize (List.range 1024).find? (fun l => s.core.pins l != 0) = m
  cases m with
  | none => exact ⟨_, rfl, (h.setTags _).complete 1⟩
  | some m => exact ⟨_, rfl, (h.setTags _).waiting _⟩
theorem execTinfo_files {d o} : KeepsFiles (execTinfo d o) := by
  intro s h
  unfold execTinfo
  exact State.withRegs_filed h fun _ h => State.withLine_filed h fun _ _ h => State.withGood_filed h fun _ ht => ht.puts ..

/-! ### CTL: system registers, traps, barriers (02 R30, R31; 05 R100 to R106) -/

theorem execSwr_files {n o} : KeepsFiles (execSwr n o) := by
  intro s h
  unfold execSwr
  refine State.withRegs_filed h fun s h => ?_
  split
  · rename_i hr
    exact (h.setSysReg hr).completes 1
  · exact h.traps _
theorem execMbxrd_files {d n acq} : KeepsFiles (execMbxrd d n acq) := by
  intro s h
  unfold execMbxrd
  refine State.withRegs_filed h fun s h => .ite ?_ ((h.noteRead ..).puts ..)
  exact State.filed.completes ((h.noteRead ..).mapCore fun _ => rfl) 1
theorem execEret_files : KeepsFiles execEret := by
  intro s h
  unfold execEret
  refine State.observed_filed h fun s h => ?_
  split
  · exact h.traps _
  · rename_i w hw
    exact .ite (h.waits _) (h.eret hw)
theorem execEretSkip_files : KeepsFiles execEretSkip := by
  intro s h
  unfold execEretSkip
  refine State.observed_filed h fun s h => ?_
  split
  · exact h.traps _
  · rename_i w hw
    exact .ite (h.traps _) (.ite (h.waits _) (h.eretSkip hw))
theorem execExit_files : KeepsFiles execExit := by
  intro s h
  have ended (e : Eng) : (s.mapSeq e fun q => { q with ended := true, wait := none, tried := false }).filed := h.mapSeq _ fun _ => rfl
  unfold execExit
  exact .ite ((ended .ctl).mapCore fun _ => Core.exitRules_sized) (.ite (ended s.who) (h.waits _))
theorem State.filed.depart (h : s.filed) (k : Nat) (n : W32) : (s.depart k n).filed := by
  refine State.filed.complete (State.filed.showTo (State.filed.mapCore h fun c => ?_) _ _) 1
  exact ite_of (P := fun x : Core => x.sized = c.sized) (ite_of (P := fun x : Core => x.sized = c.sized) rfl rfl) rfl
theorem State.filed.tellLaunch (h : s.filed) (t : BitVec 5) (l : Launch) (r : Option Nat) (m : LaunchMsg) :
    (s.tellLaunch t l r m).filed := h.mapDev id
theorem State.barWord_filed {k n} (h : s.filed) : FiledOut (s.barWord k n) := by
  have go (t : State) (ht : t.filed) : FiledOut (if t.mayDepart k then .next (t.depart k n) else .next (t.waiting .internal)) :=
    .ite (ht.depart k n) (ht.waits _)
  refine .ite (go _ h) (State.withDrained_filed h fun s h => go _ ?_)
  have ha : (s.mapCore fun c => { c with bars := c.bars.set k (s.core.bars.getD k 0 + 1), arrived := some k, arrAt := c.arrAt.set k (c.later 0) }).filed :=
    h.mapCore fun _ => rfl
  split
  · exact State.filed_ite (ha.tellLaunch ..) ha
  · exact ha
theorem execBar_files {k} : KeepsFiles (execBar k) := by
  intro s h
  unfold execBar
  exact .ite (h.traps _) (State.barWord_filed h)
theorem execBarPart_files {n} : KeepsFiles (execBarPart n) := by
  intro s h
  unfold execBarPart
  exact .ite (h.traps _) (State.barWord_filed h)

/-! ### Flags (04 R84 to R87) -/

theorem execPost_files {e f n} : KeepsFiles (execPost e f n) := by
  intro s h
  have post : KeepsFiles fun t => .next ((t.mapCore fun c => c.addFlag f n.toNat).complete 1) := fun t ht =>
    State.filed.completes (ht.mapCore fun _ => Core.addFlag_sized ..) 1
  unfold execPost
  exact .ite (.ite (State.withDrained_filed h post) (post _ h)) (h.traps _)
theorem State.filed.takeFlag (h : s.filed) (f : FlagNo) (n : Nat) : (s.mapCore fun c => c.takeFlag f n).filed :=
  h.mapCore fun _ => Core.takeFlag_sized ..
theorem execAwait_files {e f n} : KeepsFiles (execAwait e f n) := by
  intro s h
  unfold execAwait
  exact .ite (((h.takeFlag ..).awaitShows _).completes 1) (h.waits _)
theorem State.filed.setClaim (h : s.filed) (n : Nat) : (s.mapSeq s.who fun q => { q with claim := some n }).filed := h.mapSeq _ fun _ => rfl
theorem State.filed.queueCopy (h : s.filed) (e : CopyEng) (q : CopyCmd) : (s.mapCore fun d => d.enqueue e q).filed :=
  h.mapCore fun _ => Core.enqueue_sized ..
theorem State.postCopy_filed {e i c} (h : s.filed) : FiledOut (s.postCopy e i c) :=
  .ite (.ite (h.waits _) (h.completes 1)) (.ite (((h.queueCopy ..).setClaim 0).waits _) ((h.queueCopy ..).completes 1))
theorem execPostTail_files {e c} : KeepsFiles (execPostTail e c) := by
  intro s h
  unfold execPostTail
  split
  · exact State.postCopy_filed h
  · exact State.postCopy_filed h
  · exact State.fabWord_filed h fun _ ht => State.fabQueue_filed ht
  · exact State.filed.completes (h.mapCore fun _ => rfl) _
theorem execAwaitTail_files {e c} : KeepsFiles (execAwaitTail e c) := by
  intro s h
  unfold execAwaitTail
  exact .ite (((h.takeFlag ..).awaitShows _).completes _) (h.waits _)

/-! ### ACC and VEC (07 R138 to R144; 08 R146 to R168) -/

theorem State.filed.issue (h : s.filed) (f : Core → Flight) : (s.mapCore fun c => c.issue (f c)).filed := h.mapCore fun _ => rfl
theorem State.gather_filed {q rows pins} (h : s.filed) : FiledOut (s.gather q rows pins) := by
  refine .ite (h.waits _) (State.withPaths_filed h fun s h => State.withoutHazard_filed h fun s h => ?_)
  split
  · exact h.traps _
  · split
    · exact h.traps _
    · rename_i t ho
      exact ((h.openFoot ho).issue _).completes 1
theorem execArd_files {q a n r off} : KeepsFiles (execArd q a n r off) := by
  intro s h
  unfold execArd
  split
  · exact h.traps _
  · exact State.gather_filed h
theorem execArdb_files {q a n r off} : KeepsFiles (execArdb q a n r off) := by
  intro s h
  unfold execArdb
  split
  · exact State.gather_filed h
  · refine State.withGood_filed h fun s h => ?_
    split
    · exact h.traps _
    · exact State.gather_filed (h.mapSeq _ fun _ => rfl)
theorem State.tryWaitwp_filed {ch w} (h : s.filed) : FiledOut (s.tryWaitwp ch w) := by
  refine .ite (h.waits _) ?_
  split
  · exact h.completes 1
  · rename_i x _
    have hd : (s.mapCore fun c => { c with wpDone := c.wpDone ++ [(ch, x.pos, x.slot, w.toNat)] }).filed := h.mapCore fun _ => rfl
    exact .ite ((hd.showTo ..).completes 1) (h.waits _)
theorem State.filed.nanTrap (h : s.filed) (d : VDst) (l : Nat) : (s.nanTrap d l).filed := h.takeTrap ..
theorem State.readSrcs_length {v : W64} {ss : List VSrc} {qs : List (List Tile)} {x : List Tile × List (List Tile)}
    (h : s.readSrcs v ss qs = some x) : x.2.length = qs.length := by
  induction ss generalizing qs x with
  | nil =>
    cases h
    rfl
  | cons y r ih =>
    have one {t : Tile} {l : List (List Tile)} (hl : (s.readSrcs v r l).map (fun x => (t :: x.1, x.2)) = some x) : x.2.length = l.length := by
      obtain ⟨z, hz, hx⟩ := Option.map_eq_some_iff.1 hl
      exact hx ▸ ih (x := z) hz
    unfold State.readSrcs at h
    cases y with
    | peek q =>
      dsimp only at h
      split at h
      · cases h
      · exact one h
    | pop q =>
      dsimp only at h
      split at h
      · cases h
      · exact (one h).trans List.length_set
    | _ => exact one h
theorem State.filed.readQueues (h : s.filed) {v : W64} {ss : List VSrc} {ts : List Tile} {qs : List (List Tile)}
    (hr : s.readSrcs v ss s.core.queues = some (ts, qs)) (n : W64) :
    State.filed { s with core := { s.core with queues := qs, legacycnt := n } } := by
  refine ⟨Eq.trans ?_ h.1, h.2⟩
  simp [Core.sized, State.readSrcs_length hr]
theorem State.vecWord_filed {v} (h : s.filed) : FiledOut (s.vecWord v) := by
  refine .ite (h.traps _) (.ite (h.waits _) (State.withPaths_filed h fun s h => State.withoutHazard_filed h fun s h =>
    State.withNant_filed h fun nant s h => ?_))
  split
  · exact h.waits _
  · rename_i ts qs hr
    refine .ite (h.waits _) ?_
    split
    · exact h.traps _
    · dsimp only
      split
      · exact h.traps _
      · exact h.nanTrap ..
      · exact ((h.readQueues hr _).issue _).completes 2

/-! ### Shared control flow (04 R56 to R76) -/

theorem execNop_files {m} : KeepsFiles (execNop m) := by
  intro s h
  unfold execNop
  exact .ite (h.completes 1) h.passOver
/-- A transfer taken, or the word completed. -/
theorem State.filed.transfer {taken : Bool} {f : Seq → Seq} (h : s.filed) (hf : ∀ q, (f q).lidx.length = q.lidx.length) :
    (if taken then s.follow f else s.complete 1).filed := State.filed_ite (h.follow hf) (h.complete 1)
theorem State.filed.jumpTo (h : s.filed) (b : Nat) : (s.jumpTo b).filed := h.follow fun _ => rfl
/-- CTL's view of the followers changed, or not. -/
theorem State.filed.viewed {c : Prop} [Decidable c] {m : EMask} {f : View → View} (h : s.filed) :
    (if c then s.mapView m f else s).filed := State.filed_ite (h.mapView ..) h
theorem State.filed.viewedNot {c : Prop} [Decidable c] {m : EMask} {f : View → View} (h : s.filed) :
    (if c then s else s.mapView m f).filed := State.filed_ite h (h.mapView ..)
theorem execBr_files {m c sa sb tgt} : KeepsFiles (execBr m c sa sb tgt) := by
  intro s h
  have go (taken : Bool) (t : State) (ht : t.filed) :
      (if taken then t.follow fun q => { q.jump tgt.toNat with loops := keepLoops q.loops tgt.toNat } else t.complete 1).filed :=
    ht.transfer fun _ => rfl
  unfold execBr
  refine State.mulWord_filed h
    (fun s h => State.withRegs_filed h fun s h => .ite (h.traps _) (State.pushing_filed h fun s h => go _ _ h.viewed))
    fun s h => State.popping_filed h fun x s h => ?_
  split
  · exact go _ _ h
  · exact h.waits _
theorem execJmp_files {m tgt} : KeepsFiles (execJmp m tgt) := by
  intro s h
  unfold execJmp
  exact State.mulWord_filed h (fun _ h => .ite (h.traps _) ((h.mapView ..).jumpTo _)) fun _ h => .ite (h.waits _) (h.jumpTo _)
theorem execJmpIndirect_files {m sa} : KeepsFiles (execJmpIndirect m sa) := by
  intro s h
  unfold execJmpIndirect
  refine State.mulWord_filed h
    (fun s h => State.withRegs_filed h fun s h => .ite (h.traps _) (State.pushing_filed h fun _ ht => (ht.mapView ..).jumpTo _))
    fun s h => State.popping_filed h fun x s h => ?_
  split
  · exact h.jumpTo _
  · exact h.waits _
theorem execCall_files {m tgt} : KeepsFiles (execCall m tgt) := by
  intro s h
  have go (t : State) (ht : t.filed) : (t.follow fun q => { q.jump tgt.toNat with rstack := (blkOf q.pc + 1) :: q.rstack }).filed :=
    ht.follow fun _ => rfl
  unfold execCall
  exact State.mulWord_filed h (fun _ h => .ite (h.traps _) (.ite (h.traps _) (go _ (h.mapView ..)))) fun _ h => .ite (h.waits _) (go _ h)
theorem execRet_files {m} : KeepsFiles (execRet m) := by
  intro s h
  have go (b : Nat) (r : List Nat) (f : List LoopRec → List LoopRec) (t : State) (ht : t.filed) :
      (t.follow fun q => { q.jump b with rstack := r, loops := f q.loops }).filed := ht.follow fun _ => rfl
  unfold execRet
  refine State.mulWord_filed h (fun s h => .ite (h.traps _) ?_) fun s h => ?_
  · split
    · exact h.traps _
    · exact .ite (h.traps _) (go _ _ _ _ (h.mapView ..))
  · split
    · exact h.waits _
    · exact .ite (go _ _ _ _ h) (.ite (h.traps _) (h.waits _))
theorem execLoop_files {m l sa rot tgt imm} : KeepsFiles (execLoop m l sa rot tgt imm) := by
  intro s h
  have go (n : W32) (f : Seq → List LoopRec) (t : State) (ht : t.filed) : (t.follow fun q =>
      if n = 0 then { q with lidx := q.lidx.set l.val 0 }.jump tgt.toNat
      else { { q with lidx := q.lidx.set l.val 0 }.jump (blkOf q.pc + 1) with loops := f q }).filed :=
    ht.follow fun q => by split <;> exact List.length_set
  unfold execLoop
  refine State.mulWord_filed h
    (fun s h => State.withRegs_filed h fun s h => .ite (h.traps _) (.ite (h.traps _) (.ite (h.traps _) (.ite (h.traps _) (.ite (h.traps _)
      (State.pushing_filed h fun s h => go _ _ _ h.viewedNot))))))
    fun s h => State.popping_filed h fun x s h => ?_
  split
  · exact go _ _ _ h
  · exact h.waits _
theorem execBrk_files {m c l sa sb tgt} : KeepsFiles (execBrk m c l sa sb tgt) := by
  intro s h
  unfold execBrk
  refine State.mulWord_filed h
    (fun s h => State.withRegs_filed h fun s h => .ite (h.traps _) (.ite (h.traps _) (State.pushing_filed h fun s h =>
      State.filed.transfer h.viewed fun _ => rfl)))
    fun s h => State.popping_filed h fun x s h => ?_
  split
  · exact State.filed.transfer h fun _ => rfl
  · exact h.waits _
theorem execRotset_files {m n} : KeepsFiles (execRotset m n) := by
  intro s h
  have go : KeepsFiles fun s => .next ((s.mapSeq s.who fun q => { q with rotsz := n.setWidth 5, rbase := 0 }).complete 1) := by
    intro t ht
    have hr : (t.mapSeq t.who fun q => { q with rotsz := n.setWidth 5, rbase := 0 }).filed := ht.mapSeq _ fun _ => rfl
    exact hr.completes 1
  unfold execRotset
  exact State.mulWord_filed h go go
theorem execSync_files {m} : KeepsFiles (execSync m) := by
  intro s h
  have go : KeepsFiles fun s => if s.arrive.allArrived (followers m) then .next (s.arrive.departAll (followers m)) else .next s.arrive :=
    fun t ht => .ite (ht.arrive.departAll _) ht.arrive
  unfold execSync
  exact State.mulWord_filed h go go
theorem execSyncRetire_files {m} : KeepsFiles (execSyncRetire m) := by
  intro s h
  have go : KeepsFiles fun s => if s.arrive.allArrived (followers m) &&
        (followers m).all (fun e => !inMask m e || !s.arrive.core.outstanding e) then .next (s.arrive.departAll (followers m)) else .next s.arrive :=
    fun t ht => .ite (ht.arrive.departAll _) ht.arrive
  unfold execSyncRetire
  exact State.mulWord_filed h go go
theorem State.filed.modeDone (h : s.filed) (x : Bool) : (s.modeDone x).filed := State.filed.departAll (h.mapCore fun _ => rfl) _
theorem execMode_files {x} : KeepsFiles (execMode x) := by
  intro s h
  unfold execMode
  exact .ite (.ite (h.traps _) (h.waits _)) (.ite (.ite (h.arrive.modeDone x) (h.arrive.mapCore fun _ => rfl)) h.arrive)

end Sys2Proof.Machine
end

section
/-!
The words of MAT, of the copy engines, of FAB, of the almanac and of streams: each answers a next state with its files.
-/
namespace Sys2Proof.Machine

variable {s : State}

/-! ### MAT (13 R220 to R239) -/

theorem State.matIssue_filed {f n} (h : s.filed) : FiledOut (s.matIssue f n) := (h.issue _).completes n
theorem State.matShort_filed {tl effs ps} (h : s.filed) : FiledOut (s.matShort tl effs ps) := State.matIssue_filed h
theorem State.epIssue_filed {i tl nant bk cs t o} (h : s.filed) : FiledOut (s.epIssue i tl nant bk cs t o) := State.matIssue_filed h
theorem execMma_files {c bk da db ks ecl clr rls tl} : KeepsFiles (execMma c bk da db ks ecl clr rls tl) := by
  intro s h
  unfold execMma
  refine State.matWord_filed h fun s h => State.withNant_filed h fun nant s h => ?_
  split
  · exact h.traps _
  · exact State.withFoot_filed h fun _ ht => State.matIssue_filed ht
theorem execMclr_files {bk tl} : KeepsFiles (execMclr bk tl) := fun _ h => State.matWord_filed h fun _ ht => State.matShort_filed ht
theorem execMoutTile_files {bk t4 epi clr bias scale bf tl} : KeepsFiles (execMoutTile bk t4 epi clr bias scale bf tl) := by
  intro s h
  unfold execMoutTile
  exact State.matWord_filed h fun _ h => State.withPaths_filed h fun _ h => State.withoutHazard_filed h fun _ h =>
    State.withNant_filed h fun _ _ h => State.withBanks_filed h fun _ h => State.withPop_filed h fun _ _ ht => State.epIssue_filed ht
theorem execMoutHandle_files {bk ho epi clr bias scale tl} : KeepsFiles (execMoutHandle bk ho epi clr bias scale tl) := by
  intro s h
  unfold execMoutHandle
  exact State.withHO_filed h fun _ _ h => .ite (h.traps _) (.ite (h.traps _) (State.withAwait_filed h fun _ h => State.withDest_filed h
    fun _ _ h => State.matWord_filed h fun _ h => State.withPaths_filed h fun _ h => State.withTurn_filed h fun _ h =>
    State.withoutHazard_filed h fun _ h => State.withNant_filed h fun _ _ h => State.withBanks_filed h fun _ h => State.withPop_filed h
    fun _ _ ht => State.epIssue_filed ht))
theorem execMgate_files {bs bd aa ab cmp bias tl} : KeepsFiles (execMgate bs bd aa ab cmp bias tl) := by
  intro s h
  unfold execMgate
  exact State.matWord_filed h fun _ h => State.withNant_filed h fun _ _ h => State.withBanks_filed h fun _ h =>
    State.withPop_filed h fun _ _ ht => State.epIssue_filed ht
theorem execMscan_files {bk n bc kc reset tl} : KeepsFiles (execMscan bk n bc kc reset tl) := by
  intro s h
  unfold execMscan
  exact State.matWord_filed h fun _ h => State.withNant_filed h fun _ _ h => State.withBanks_filed h fun _ h =>
    State.withPop_filed h fun _ _ ht => State.epIssue_filed ht
theorem execMcarryZ_files {bk tl} : KeepsFiles (execMcarryZ bk tl) := fun _ h => State.matWord_filed h fun _ ht => State.matShort_filed ht
theorem execMcarryLd_files {bk bx row tl} : KeepsFiles (execMcarryLd bk bx row tl) := by
  intro s h
  unfold execMcarryLd
  exact State.matWord_filed h fun _ h => State.withBanks_filed h fun _ ht => State.matShort_filed ht
theorem execMcarrySt_files {bk bx row tl} : KeepsFiles (execMcarrySt bk bx row tl) := by
  intro s h
  unfold execMcarrySt
  exact State.matWord_filed h fun _ h => State.withNant_filed h fun _ _ h => State.withBanks_filed h fun _ ht => State.epIssue_filed ht
theorem execDclaim_files {da n tl} : KeepsFiles (execDclaim da n tl) := by
  intro s h
  unfold execDclaim
  refine State.matWord_filed h fun s h => ?_
  split
  · exact h.traps _
  · exact State.matShort_filed (h.mapCore fun _ => rfl)
theorem execDrel_files {da n tl} : KeepsFiles (execDrel da n tl) := by
  intro s h
  unfold execDrel
  refine State.matWord_filed h fun s h => ?_
  dsimp only
  split
  · exact h.traps _
  · exact State.matShort_filed (h.mapCore fun _ => rfl)
theorem execDqry_files {ho tl} : KeepsFiles (execDqry ho tl) := by
  intro s h
  unfold execDqry
  exact State.withHO_filed h fun _ _ h => .ite (h.traps _) (.ite (h.traps _) (State.withAwait_filed h fun _ h => State.withDest_filed h
    fun _ _ h => State.matWord_filed h fun _ h => State.withPaths_filed h fun _ h => State.withoutHazard_filed h fun _ h =>
    State.withFoot_filed h fun _ ht => State.matShort_filed ht))

/-! ### Copies (09 R171 to R193) -/

theorem State.filed.setCore (h : s.filed) {c : Core} (hc : c.sized = s.core.sized) : State.filed { s with core := c } := ⟨hc.trans h.1, h.2⟩
/-- What a copy claims as it is resolved leaves every file of its size. -/
theorem State.resolveCopy_sized {e q x n} {y : Core × CopyCmd} (h : s.resolveCopy e q x n = .ok y) : y.1.sized = s.core.sized := by
  unfold State.resolveCopy at h
  split at h
  · cases h
  · extract_lets handles at h
    split at h
    · cases h
    · cases h
    · split at h
      · cases h
      · split at h
        · cases h
        · extract_lets src1 dst1 at h
          split at h
          · cases h
          · cases h
          · split at h
            · cases h
            · rename_i hc
              cases h
              split at hc
              · cases hc
                rfl
              · have hs := Core.claimSlices_sized hc
                exact hs
theorem State.copyWord_filed {e i tl hs hd f} (h : s.filed) : FiledOut (s.copyWord e i tl hs hd f) := by
  refine .ite (.ite (h.waits _) (h.completes 1)) (.ite (h.waits _) (State.withAwait_filed h fun s h => ?_))
  split
  · exact h.traps _
  · rename_i c q hr
    have hc := State.resolveCopy_sized hr
    have hq : State.filed { s with core := c.enqueue e q } := h.setCore ((Core.enqueue_sized e q).trans hc)
    have hw : (State.mapSeq { s with core := c.enqueue e q } s.who fun q => { q with claim := some 0 }).filed := hq.mapSeq _ fun _ => rfl
    exact .ite (hw.waits _) (hq.completes 1)
theorem execCpyf_files {sl hs hd cnt ch tl} : KeepsFiles (execCpyf sl hs hd cnt ch tl) := by
  intro s h
  unfold execCpyf
  split
  · exact h.traps _
  · exact State.copyWord_filed h

/-! ### FAB (15 R254 to R260) -/

theorem execFcfg_files {r tl} : KeepsFiles (execFcfg r tl) := by
  intro s h
  unfold execFcfg
  refine State.fabWord_filed h fun _ h => State.withHO_filed h fun _ _ h => .ite (h.traps _) (State.withAligned_filed h fun _ h =>
    State.withAwait_filed h fun s h => ?_)
  split
  · exact h.traps _
  · split
    · exact h.traps _
    · exact State.fabQueue_filed h
theorem State.bindPort_filed {i r p c n tl} (h : s.filed) : FiledOut (s.bindPort i r p c n tl) := by
  refine State.fabWord_filed h fun _ h => State.withHO_filed h fun _ _ h => .ite (h.traps _) (State.withAligned_filed h fun _ h =>
    State.withAwait_filed h fun s h => ?_)
  split
  · exact h.traps _
  · dsimp only
    split
    · exact h.traps _
    · split
      · exact h.traps _
      · rename_i c _ hc
        have hs := Core.claimBind_sized hc
        refine State.fabQueue_filed (h.setCore ?_)
        exact (Core.foldl_sized (fun d b => Core.dropBind_sized b) _ c).trans hs
theorem execFgo_files {n tl} : KeepsFiles (execFgo n tl) := by
  intro s h
  unfold execFgo
  exact State.fabWord_filed h fun _ h => .ite (h.traps _) (State.withAwait_filed h fun _ h => State.fabQueue_filed (h.mapFab _))
theorem State.endPhase_filed {i r bad tl} (h : s.filed) : FiledOut (s.endPhase i r bad tl) := by
  unfold State.endPhase
  refine State.fabWord_filed h fun s h => ?_
  split
  · exact .ite (h.traps _) (State.withAwait_filed h fun _ h => State.fabQueue_filed (h.mapFab _))
  · refine State.withHO_filed h fun _ _ h => .ite (h.traps _) (State.withAligned_filed h fun _ h => State.withAwait_filed h fun s h => ?_)
    split
    · exact h.traps _
    · split
      · exact h.traps _
      · exact State.fabQueue_filed (h.mapFab _)

/-! ### Open axes and the almanac (16 R266 to R275) -/

theorem execRopen_files {r} : KeepsFiles (execRopen r) := by
  intro s h
  unfold execRopen
  exact State.withOpen_filed h fun _ _ h => .ite (h.traps _) (.ite (h.trapRule ..)
    (State.filed.completes (h.mapCore fun _ => Core.mapRec_sized ..) 1))
theorem execRslice_files {r o} : KeepsFiles (execRslice r o) := by
  intro s h
  unfold execRslice
  refine State.withRegs_filed h fun _ h => State.withOpen_filed h fun v s h => ?_
  dsimp only
  split
  · exact h.traps _
  · refine .ite (h.trapRule ..) (.ite (State.filed_ite (h.trap _) (h.trapWith _)) (.ite (h.trapRule ..)
      (State.withDrained_filed h fun t h => .ite (h.waits _) (State.filed.completes (h.mapCore fun c => ?_) 1))))
    exact (Core.foldl_sized (fun d j => Core.completeSlice_sized ..) _ _).trans (Core.mapRec_sized ..)
theorem execRclose_files {r} : KeepsFiles (execRclose r) := by
  intro s h
  unfold execRclose
  refine State.withOpen_filed h fun _ s h => ?_
  split
  · exact h.traps _
  · exact State.filed.completes (h.mapCore fun _ => (Core.sweep_sized ..).trans (Core.mapRec_sized ..)) 1
theorem execInst_files {d ha hb o q p out c} : KeepsFiles (execInst d ha hb o q p out c) := by
  intro s h
  unfold execInst
  refine State.withRegs_filed h fun s h => .ite (h.waits _) ?_
  split
  · exact h.traps _
  · refine .ite (h.traps _) ?_
    split
    · exact h.traps _
    · refine State.filed.mapCore (State.filed.putS (h.mapCore fun c => ?_) ..) fun _ => Core.sweep_sized
      refine (Core.foldl_sized (fun d h => Core.mapRec_sized ..) _ _).trans ?_
      simp [Core.sized]
theorem State.filed.sweeps (h : s.filed) {f : Core → Core} (hf : ∀ c, (f c).sized = c.sized) :
    FiledOut (.next ((s.mapCore fun c => (f c).sweep).complete 1)) :=
  State.filed.completes (h.mapCore fun c => Core.sweep_sized.trans (hf c)) 1
theorem execRvk_files {o} : KeepsFiles (execRvk o) := by
  intro s h
  unfold execRvk
  refine State.withRegs_filed h fun _ h => State.withRule_filed h fun _ r _ ht => ht.sweeps fun c => ?_
  split_ifs
  · exact (Core.freeRule_sized ..).trans (Core.foldl_sized (fun d o => Core.mapRec_sized ..) _ _)
  · exact Core.freeRule_sized ..
  · exact Core.mapRule_sized ..
theorem execRvkat_files {a o} : KeepsFiles (execRvkat a o) := by
  intro s h
  unfold execRvkat
  exact State.withRegs_filed h fun _ h => State.withRule_filed h fun _ _ _ ht => ht.sweeps fun _ => Core.mapRule_sized ..
theorem execRres_files {o} : KeepsFiles (execRres o) := by
  intro s h
  unfold execRres
  exact State.withRegs_filed h fun _ h => State.withRule_filed h fun _ _ _ h => .ite (h.trapRule ..) (h.sweeps fun _ => Core.mapRule_sized ..)
theorem execRqryRule_files {d o} : KeepsFiles (execRqryRule d o) := by
  intro s h
  unfold execRqryRule
  exact State.withRegs_filed h fun _ h => State.withId_filed h fun _ _ h => State.withGood_filed h fun _ h => h.puts ..
theorem execRqryRec_files {d o} : KeepsFiles (execRqryRec d o) := by
  intro s h
  unfold execRqryRec
  exact State.withRegs_filed h fun _ h => State.withId_filed h fun _ _ h => State.withGood_filed h fun _ h => h.puts ..
theorem execRqryCur_files {d o} : KeepsFiles (execRqryCur d o) := by
  intro s h
  unfold execRqryCur
  exact State.withRegs_filed h fun _ h => State.withId_filed h fun _ _ h => State.withGood_filed h fun _ h => h.puts ..

/-! ### Streams (18 R287 to R307; 19 R309 to R311) -/

theorem State.waitEnd_filed {x b} (h : s.filed) : FiledOut (s.waitEnd x b) := h.waits _
theorem State.filed.bridgeSt (h : s.filed) : s.bridgeSt.filed := (h.showTo ..).showTo ..
/-- The bytes a send debits and bridges. -/
theorem State.filed.sent {c d : Prop} [Decidable c] [Decidable d] (h : s.filed) (n : Nat) :
    (if d then (if c then s.linkDebit n else s).bridgeSt else if c then s.linkDebit n else s).filed := by
  have hl : (if c then s.linkDebit n else s).filed := State.filed_ite (h.linkDebit n) h
  exact State.filed_ite hl.bridgeSt hl
theorem State.filed.clearH (h : s.filed) (r : HReg) (v : W256) : (s.mapCore fun c => c.setH r v).filed := h.mapCore fun _ => Core.setH_sized ..
theorem execSnew_files {ha hb o} : KeepsFiles (execSnew ha hb o) := by
  intro s h
  unfold execSnew
  refine State.withRegs_filed h fun s h => ?_
  dsimp only
  split
  · exact h.traps _
  · refine .ite (h.traps _) (.ite (h.traps _) (.ite (h.traps _) (State.filed.completes (State.filed.mapCore (h.mapDev id) fun c => ?_) 1)))
    exact (Core.setH_sized ..).trans (Core.setH_sized ..)
theorem execSsend_files {nb d r a o rel} : KeepsFiles (execSsend nb d r a o rel) := by
  intro s h
  unfold execSsend
  refine State.withRegs_filed h fun _ h => State.withStream_filed h fun _ h => State.withEnd_filed h fun x _ _ h => State.withItems_filed h
    fun k _ h => State.withItemBytes_filed h fun off _ h => .ite (h.traps _) (State.withDrained_filed h fun s h => ?_)
  exact .ite (h.puts ..) (.ite (State.waitEnd_filed h) (.ite (.ite (h.puts ..) (State.waitEnd_filed h)) (.ite (h.traps _) (.ite (h.waits _)
    (State.filed.puts (State.filed.foldl (fun t j ht => ht.putItem ..) _ (h.sent _)) ..)))))
theorem State.moveEnd_filed {d rb x m e rel} (h : s.filed) : FiledOut (s.moveEnd d rb x m e rel) := by
  unfold State.moveEnd
  extract_lets s0 s1 gone src c s2 s3
  have h2 : s2.filed := ((h.sent 64).mapHome ..).putItem ..
  have h3 : s3.filed := State.filed_ite h2 (h2.tell _)
  exact ((h3.clearH ..).setS ..).completes 1
theorem execSsendh_files {nb d ra rb rel} : KeepsFiles (execSsendh nb d ra rb rel) := by
  intro s h
  unfold execSsendh
  refine State.withRegs_filed h fun _ h => State.withSt_filed h fun _ h => State.withEnd_filed h fun x _ _ h => State.withEnd_filed h
    fun m e s h => .ite (h.traps _) (.ite (h.traps _) (.ite (h.traps _) (.choice (State.withDrained_filed h) (fun hk => hk _ h) fun s h => ?_)))
  have turned (t : State) (ht : t.filed) : FiledOut (if nb then .next (t.putS d (streamResult 6 0))
      else if m.mine then (t.mapHome m fun x => { x with asks := (e, t.cnum) :: x.asks.filter fun a => a.1 != e }).waitEnd m (!e)
      else t.waitEnd m (!e)) := .ite (ht.puts ..) (.ite (State.waitEnd_filed (ht.mapHome ..)) (State.waitEnd_filed ht))
  exact .ite ((h.unmove ..).puts ..) (.ite (State.waitEnd_filed h) (.ite (.ite ((h.unmove ..).puts ..) (State.waitEnd_filed h))
    (.ite (h.waits _) (.ite (turned s h) (.ite (State.moveEnd_filed h) (.ite (turned s h) (State.askStream_filed h
      fun bs t ht => .ite ((ht.mapHome ..).waits _) (turned t ht))))))))
theorem execSrecv_files {nb d r a o acq} : KeepsFiles (execSrecv nb d r a o acq) := by
  intro s h
  unfold execSrecv
  exact State.withRegs_filed h fun _ h => State.withStream_filed h fun _ h => State.withRecv_filed h fun x _ h => State.withItems_filed h
    fun k _ h => State.withItemBytes_filed h fun off s h => .ite (.ite (h.puts ..) (State.waitEnd_filed h))
    (State.filed.puts (State.filed.freeHomes (State.filed.acquireItems (State.filed.mapHome
      (State.filed.foldl (fun t x ht => ht.pushStore ..) _ h) ..) ..)) ..)
theorem execSrecvh_files {nb d ra rb acq} : KeepsFiles (execSrecvh nb d ra rb acq) := by
  intro s h
  unfold execSrecvh
  refine State.withRegs_filed h fun _ h => State.withSt_filed h fun _ h => State.withRecv_filed h fun x s h => ?_
  split
  · exact .ite (h.puts ..) (.ite (h.puts ..) (State.waitEnd_filed h))
  · split
    · exact h.puts ..
    · refine .ite (h.traps _) ?_
      rename_i c _
      have h1 : ((s.mapHome x fun x => x.takeItems 1 (s.core.later 800)).withEntry c.v).filed := (h.mapHome ..).withEntry _
      dsimp only
      split
      · exact ((((h1.clearH ..).acquireItems ..).setS ..).freeHomes).completes 1
      · exact (((((h1.mapHome ..).tell _).clearH ..).acquireItems ..).setS ..).freeHomes.completes 1
theorem execSbind_files {ra rb o} : KeepsFiles (execSbind ra rb o) := by
  intro s h
  unfold execSbind
  refine State.withRegs_filed h fun _ h => State.withEnd_filed h fun x _ s h => .ite (h.traps _) (.ite (h.traps _) (.ite (h.traps _)
    (.ite (h.traps _) ?_)))
  split
  · exact h.traps _
  · refine .ite (h.trapRule ..) (.ite (h.traps _) ?_)
    split
    · exact h.traps _
    · split
      · exact h.traps _
      · exact State.filed.completes (State.filed.mapCore (h.mapHome ..) fun _ => rfl) 1
theorem execSbindOff_files {r} : KeepsFiles (execSbindOff r) := by
  intro s h
  unfold execSbindOff
  refine State.withEnd_filed h fun x _ s h => ?_
  split
  · exact h.waits _
  · exact (h.unbind _).completes 1
theorem execSclose_files {r} : KeepsFiles (execSclose r) := by
  intro s h
  unfold execSclose
  exact State.withSt_filed h fun _ h => State.withEnd_filed h fun x _ s h => (((h.mapHome ..).tell _).clearH ..).completes 1
theorem execSdrop_files {r} : KeepsFiles (execSdrop r) := by
  intro s h
  unfold execSdrop
  refine State.withSt_filed h fun _ h => State.withEnd_filed h fun x e s h => ?_
  split
  · exact h.waits _
  · exact ((h.dropEnd _).clearH ..).completes 1
theorem execSstat_files {d r} : KeepsFiles (execSstat d r) := by
  intro s h
  unfold execSstat
  refine State.withRegs_filed h fun _ h => State.withEnd_filed h fun x e s h => ?_
  have last (held : Nat) (t : State) (ht : t.filed) : FiledOut (if x.mine then
        .next (t.putS d (BitVec.ofNat 64 (x.map e x.st.toNat x.moving.isSome (x.way e) x.repair held)))
      else t.askStream x.sid x.hrank x.hrank (.stat e) fun bs t => .next (t.putS d (BitVec.ofNat 64
        (x.map e ((bs.getD 0 0).toNat % 4) ((bs.getD 1 0).toNat == 1) ((bs.getD 2 0).toNat == 1) (bs.getD 3 0).toNat held)))) :=
    .ite (ht.puts ..) (State.askStream_filed ht fun _ _ hu => hu.puts ..)
  dsimp only
  split
  · exact last _ s h
  · exact State.askStream_filed h fun bs t ht => last _ _ (ht.mapSeq _ fun _ => rfl)
  · exact last _ s h

end Sys2Proof.Machine
end

section
/-!
The machine's own updates beside the words keep the files.
-/
namespace Sys2Proof.Machine

variable {s : State}

/-! ### MAT, copies, FAB, rules and bindings at work -/

theorem State.filed.wrote (h : s.filed) : s.wrote.filed := h.mapDev id
theorem State.filed.matFault {f m b} (h : s.filed) : (s.matFault f m b).filed := by
  unfold State.matFault
  dsimp only
  split
  · exact h.mapCore fun _ => Core.ruleFault_sized ..
  · refine State.filed.mapCore (State.filed.setFlight ?_ _) fun _ => rfl
    split
    · exact State.filed_ite h (h.applyEff ..)
    · exact (h.applyEffs ..).wrote
theorem State.filed.sendStep {e q k bs done} (h : s.filed) : (s.sendStep e q k bs done).filed := by
  unfold State.sendStep
  split
  · exact h
  · dsimp only
    split
    · exact ((h.scatterStep ..).deliver ..).mapCopy ..
    · exact h.askEngine (fun _ _ _ ht => ht.mapCopy ..) (fun _ ht => ht.copyFault ..) fun _ ht => ht.mapCopy ..
theorem State.filed.putStep {e q k bs} (h : s.filed) : (s.putStep e q k bs).filed := State.filed_ite (h.mapCopy ..) h.sendStep
theorem State.filed.readStep {e q} (h : s.filed) : (s.readStep e q).filed := by
  unfold State.readStep
  dsimp only
  refine State.filed_ite h (State.filed_ite h (State.filed_ite ((h.memDebit _).mapCopy ..) ?_))
  split
  · exact (h.memDebit _).putStep
  · split
    · exact h.copyFault ..
    · split
      · exact (h.memDebit _).putStep
      · exact h.askEngine (fun _ _ _ ht => ht.mapCopy ..) (fun _ ht => ht.copyFault ..) fun _ ht => ht
theorem State.filed.bumpCounter {e q} {k : State → State} (h : s.filed) (hk : ∀ t, t.filed → (k t).filed) : (s.bumpCounter e q k).filed := by
  unfold State.bumpCounter
  split
  · dsimp only
    split
    · exact h.askEngine (fun _ _ t ht => hk t ht) (fun _ ht => ht.copyFault ..) fun _ ht => ht
    · exact State.filed_ite (h.copyFault ..) (State.filed_ite h (hk _ ((h.memDebit _).atomicAt ..)))
  · exact hk _ h
theorem State.filed.askFab {p r n m} {done : List Byte → State → State} {refused : State → State} (h : s.filed)
    (hd : ∀ bs t, t.filed → (done bs t).filed) (hr : ∀ t, t.filed → (refused t).filed) : (s.askFab p r n m done refused).filed := by
  have ask (t : State) (ht : t.filed) : (t.askEngine .fab r n m (fun bs _ s => done bs s) refused id).filed :=
    ht.askEngine (fun bs _ t ht => hd bs t ht) hr fun _ ht => ht
  unfold State.askFab
  split
  · exact ask _ (h.mapFab _)
  · exact State.filed_ite (ask s h) h
theorem State.filed.unitFault (h : s.filed) (q : FabCmd) (f : Flt) : (s.unitFault q f).filed :=
  State.filed.mapCore (h.mapFab _) fun _ => rfl
theorem State.filed.unitRecord {q outs} {k : State → State} (h : s.filed) (hk : ∀ t, t.filed → (k t).filed) : (s.unitRecord q outs k).filed := by
  unfold State.unitRecord
  split
  · exact hk _ h
  · refine State.filed_ite h ?_
    split
    · exact hk _ ((h.memDebit _).scatterStep ..)
    · exact h.askFab (fun _ _ ht => ht.mapFab _) fun _ ht => ht.unitFault ..
theorem State.filed.unitRead {q o} {k : List Byte → State → State} (h : s.filed) (hk : ∀ bs t, t.filed → (k bs t).filed) :
    (s.unitRead q o k).filed := by
  unfold State.unitRead
  refine State.filed_ite h ?_
  split
  · exact h.unitFault ..
  · split
    · exact hk _ _ (h.memDebit _)
    · exact h.askFab (fun _ _ ht => ht.mapFab _) fun _ ht => ht.unitFault ..
theorem Core.phaseEnded_sized (c : Core) : ((c.fabric.phase.map c.endPhase).getD c).sized = c.sized := by
  cases c.fabric.phase with
  | none => rfl
  | some p => exact Core.endPhase_sized p
theorem Core.dropReply_sized (c : Core) (e : Eng) : (c.dropReply e).sized = c.sized := rfl
theorem Core.mapFab_sized (c : Core) (f : Fabric → Fabric) : (c.mapFab f).sized = c.sized := rfl
theorem State.filed.unitStep {q} (h : s.filed) : (s.unitStep q).filed := by
  have finish (outs : List OutPort) : (s.unitRecord q outs fun s =>
      ((s.mapCore fun c => (c.fabric.phase.map c.endPhase).getD c).mapFab fun b => { b with endRec := none }).unitDone q).filed :=
    h.unitRecord fun t ht => State.filed.unitDone (State.filed.mapFab (ht.mapCore Core.phaseEnded_sized) _) q
  have ended : (s.mapFab fun b => { b with endRec := none }).filed := h.mapFab _
  unfold State.unitStep
  dsimp only
  split
  · split
    · refine h.unitRead fun bs t ht => ?_
      split
      · exact ht.unitFault ..
      · exact State.filed.unitDone (ht.mapFab _) q
    · exact h
  · split
    · exact ended.unitFault ..
    · rename_i hs
      exact (ended.startPhase hs).unitDone q
  case h_3 | h_4 => exact finish _
  case h_5 | h_6 =>
    refine State.filed_ite (h.unitDone q) ?_
    split
    · refine State.filed_ite (finish _) ?_
      have hp : (s.mapPhase fun x => { x with stopped := true }).filed := h.mapFab _
      exact hp.mapCore fun c => (Core.mapFab_sized ..).trans (Core.dropReply_sized ..)
    · exact finish _
  case h_7 => exact h.unitDone q
theorem State.filed.askInst {id r rank n m f} {done : List Byte → State → State} (h : s.filed)
    (hd : ∀ bs t, t.filed → (done bs t).filed) : (s.askInst id r rank n m f done).filed :=
  State.filed_ite h
    (h.askEngine (fun bs _ _ ht => hd bs _ (ht.mapInst ..)) (fun _ ht => ht.instFault ..) fun _ ht => ht.mapInst ..)
theorem State.filed.vecRun {id r v o far} (h : s.filed) : (s.vecRun id r v o far).filed := by
  unfold State.vecRun
  refine State.filed_ite h ?_
  split
  · exact h.instFault ..
  · have staged (a : Nat) (bs : List Byte) : ((s.memDebit (devBytes o s.cnum 0 o.count)).writeSpad a bs).filed := (h.memDebit _).writeSpad ..
    dsimp only
    split
    · exact (staged _ _).instFault ..
    · exact h
    · split
      · exact (staged _ _).instFault ..
      · exact (staged _ _).instFault ..
      · refine State.filed.mapInst (State.filed.mapSeq (State.filed.mapCore (staged _ _) fun _ => ?_) .vec fun _ => ?_) ..
        all_goals rfl
theorem State.filed.vecStage {id r n} (h : s.filed) : (s.vecStage id r n).filed := by
  unfold State.vecStage
  split
  · dsimp only
    split
    · exact h.vecRun
    · exact h.askInst fun _ _ ht => ht.mapInst ..
  · exact h
theorem State.filed.begins (h : s.filed) (id : Nat) (r : Rule) : (s.mapCore fun c => c.beginInst id r).filed :=
  h.mapCore fun _ => Core.beginInst_sized ..
theorem State.filed.vecInst {id r} (h : s.filed) : (s.vecInst id r).filed := by
  unfold State.vecInst
  split
  · exact h
  · refine State.filed_ite h ?_
    dsimp only
    split
    · exact (h.begins ..).instFault ..
    · exact State.filed.vecStage (State.filed.mapCore (h.begins ..) fun _ => Core.putInst_sized ..)
theorem State.filed.matInst (h : s.filed) (id : Nat) (r : Rule) : (s.matInst id r).filed := by
  have hb := h.begins id r
  unfold State.matInst
  refine State.filed_ite h ?_
  dsimp only
  split
  · exact hb.instFault ..
  · exact hb.instFault ..
  · exact hb.instFault ..
  · split
    · exact hb.instFault ..
    · rename_i ho
      refine (hb.openFoot ho).mapCore fun c => (Core.putInst_sized ..).trans ?_
      cases ruleQueue (ruleMma r r.next) with
      | none => rfl
      | some q => exact Core.setQueue_sized (c := c) q (dropHead (c.queue q))
theorem State.filed.copyInst (h : s.filed) (e : CopyEng) (id : Nat) (r : Rule) : (s.copyInst e id r).filed := by
  have hb := h.begins id r
  unfold State.copyInst
  refine State.filed_ite h ?_
  dsimp only
  split
  · exact hb.instFault ..
  · rename_i hr
    have hc := State.resolveCopy_sized hr
    exact hb.setCore ((Core.putInst_sized ..).trans ((Core.enqueue_sized ..).trans hc))
theorem State.filed.fabInst (h : s.filed) (id : Nat) (r : Rule) : (s.fabInst id r).filed := by
  have hb := h.begins id r
  unfold State.fabInst
  dsimp only
  split
  · exact hb.instFault ..
  · split
    · exact hb.instFault ..
    · rename_i hs
      exact (hb.startPhase hs).mapCore fun _ => Core.putInst_sized ..
theorem State.filed.matCommit {f} (h : s.filed) : (s.matCommit f).filed := by
  have h1 : (s.mapCore fun c => { c with flights := c.flights.filter fun g => g.id != f.id }.closeFoot f.eng f.id).filed := h.mapCore fun _ => rfl
  exact (h1.applyEffs (some .mx) f.effs).wrote.mapCore fun _ => rfl
theorem State.filed.vecCommit {id r n t} (h : s.filed) : (s.vecCommit id r n t).filed := by
  have fin (bs : List Byte) (u : State) (hu : u.filed) : ((match r.carry with
      | some k => u.writeSpad (slotKey u.cnum k) bs
      | none => u).mapCore fun c => c.endInst id r n.slice).filed := by
    refine State.filed.mapCore ?_ fun _ => Core.endInst_sized ..
    split
    · exact hu.writeSpad ..
    · exact hu
  unfold State.vecCommit
  dsimp only
  split
  · exact fin _ _ h
  · split
    · exact State.filed_ite (fin _ _ ((h.memDebit _).scatterStep ..)) h
    · exact h.askInst fun _ _ ht => ht.mapInst ..
theorem State.filed.copyCommit {e id r n} (h : s.filed) : (s.copyCommit e id r n).filed := by
  unfold State.copyCommit
  split
  · exact h
  · refine State.filed_ite h ?_
    split
    · exact h
    · refine h.bumpCounter fun t ht => State.filed.mapCore ?_ fun _ => (Core.endInst_sized ..).trans (Core.leaveCopies_sized ..)
      have h1 (f : Option Flight) : (match f with | some x => t.matCommit x | none => t).filed := by
        split
        · exact ht.matCommit
        · exact ht
      split
      · exact (h1 _).passGroup ..
      · exact h1 _
theorem State.filed.mapBinding (h : s.filed) (b : SBinding) (f : SBinding → SBinding) : (s.mapBinding b f).filed := h.mapCore fun _ => rfl
theorem State.filed.bindFault (h : s.filed) (b : SBinding) (f : Flt) : (s.bindFault b f).filed :=
  State.filed.mapCore (h.mapBinding b _) fun _ => rfl
theorem State.filed.bindWrite {x b n} (h : s.filed) : (s.bindWrite x b n).filed := by
  unfold State.bindWrite
  extract_lets src o es bs m
  split
  · refine State.filed_ite h ?_
    exact State.filed.mapCore (((((h.memDebit m).scatterStep .st o 0 bs).mapHome ..).mapBinding ..)) fun _ => Core.completeSlice_sized ..
  · exact State.filed_ite h (h.askEngine (fun _ _ _ ht => ht.mapBinding ..) (fun _ ht => (ht.mapBinding ..).bindFault ..)
      fun _ ht => ht.mapBinding ..)

/-! ### What the other modules have told, operands found again -/

theorem Device.filed.ctx {d : Device} (h : d.filed) {id : W16} {x : Ctx} (hx : d.ctx? id = some x) : x.filed := h.1 x (List.mem_of_find?_eq_some hx)
/-- What another module has told a context leaves its saved cores. -/
theorem Ctx.told_saved (x : Ctx) (r : Nat) (m : LaunchMsg) : (x.told r m).saved = x.saved := by
  cases m <;> rfl
theorem Ctx.foldTold_saved {f : Ctx → LinkMsg → Ctx} (hf : ∀ x m, (f x m).saved = x.saved) (l : List LinkMsg) (x : Ctx) :
    (l.foldl f x).saved = x.saved := by
  induction l generalizing x with
  | nil => rfl
  | cons m r ih => exact (ih _).trans (hf x m)
theorem State.filed.takeTold (h : s.filed) (id : W16) : (s.takeTold id).filed := by
  unfold State.takeTold
  split
  · exact h
  · rename_i x hx
    have hxf := h.2.2.1.ctx hx
    extract_lets mine x1 go s1
    have h1 : x1.saved = x.saved := Ctx.foldTold_saved (fun y m => by
      split
      · exact Ctx.told_saved ..
      · rfl) _ x
    have hs1 : s1.filed := by
      refine h.mapDev fun hd => Device.filed.mapCtxs (d := { s.dev with inbox := _ }) hd fun y hy => ?_
      split
      · exact fun v hv => hxf v (h1 ▸ hv)
      · exact hd.1 y hy
    refine hs1.mapCores fun n c => ?_
    split <;> rfl
theorem State.filed.repin (h : s.filed) : s.repin.filed := by
  unfold State.repin
  extract_lets c cld cst unit ph pk pend aside binds src c1 s1
  have hc : c1.sized = c.sized := by
    refine Eq.trans (b := Core.sized { c with aside := c.aside.map fun a =>
      { a with cld := (s.againCopies .cld a.cld).1 } }) ?_ (Core.sized_aside (fun _ => rfl) fun _ => rfl)
    cases ha : c.aside <;> simp [c1, aside, Core.sized, ha]
  have hs1 : s1.filed := h.setCore hc
  refine State.filed.foldl (fun t r ht => ?_) _ hs1
  extract_lets put
  have hput (i : Inst) : (put i).filed := by
    refine ht.mapCore fun c => ?_
    split
    · exact Core.mapRule_sized ..
    · exact Core.sized_aside (fun _ => modAt_length ..) fun _ => rfl
  split
  · exact ht
  · split
    · exact hput _
    · exact ht.instFault ..
    · exact ht.instFault ..
theorem State.filed.releasePieces (h : s.filed) (ps : List (Nat × Option (BitVec 512) × Nat)) : (s.releasePieces ps).filed :=
  State.filed.foldl (fun _ _ ht => ht.mapDev id) ps h
end Sys2Proof.Machine
end

section
/-!
Queues, contexts, the host and the links: each update keeps the files.
-/
namespace Sys2Proof.Machine

variable {s : State}

theorem State.filed.deviceRelease (h : s.filed) (pa : Nat) : (s.deviceRelease pa).filed := h.mapDev id
theorem State.filed.writeCompletion {q t l a b c o} (h : s.filed) : (s.writeCompletion q t l a b c o).filed := by
  unfold State.writeCompletion
  extract_lets bs s1 iv
  have written : s1.filed := by
    dsimp only [s1]
    split
    · exact ((h.writePieces ..).deviceRelease _).deviceRelease _
    · exact h.mapDev id
    · exact h.mapDev fun hd => hd.logEvent _
  split_ifs
  · exact written.mapDev fun hd => hd.raise ..
  · split
    · exact written.mapDev fun hd => hd.raise ..
    · exact written
theorem State.filed.popHead {q p} (h : s.filed) : (s.popHead q p).filed := (h.mapQueue ..).writePhys ..
theorem State.filed.rejectHead {q l r b} (h : s.filed) : (s.rejectHead q l r b).filed := by
  have hw := h.writeCompletion (q := q) (t := (s.dev.queue q).tenant) (l := l) (a := 1) (b := r) (c := 0) (o := none)
  exact State.filed.popHead (State.filed_ite (hw.tellLaunch ..) hw)
theorem State.filed.settleQueue {q n} (h : s.filed) : (s.settleQueue q n).filed := by
  induction n generalizing s with
  | zero => exact h
  | succ n ih =>
    unfold State.settleQueue
    dsimp only
    split
    · split
      · exact ih (State.filed.popHead (h.mapDev fun hd => hd.logEvent _))
      · split
        · exact ih h.rejectHead
        · exact h
    · exact h
theorem State.filed.endCtx {x a b o} (h : s.filed) : (s.endCtx x a b o).filed := by
  unfold State.endCtx
  extract_lets s1 s2 s3 s4
  have hs1 : s1.filed := State.filed.foldl (fun t c ht => (ht.dropTaskEnds ..).vacateCore _) _ h
  have hs2 : s2.filed := State.filed.foldl (fun t v ht => ht.dropTaskEnds ..) _ hs1
  have hs3 : s3.filed := hs2.writeCompletion
  have hs4 : s4.filed := hs3.mapDev fun hd => by
    have hdone := (hd.ctxcmdDone 1 x.id).ctxcmdDone 2 x.id
    exact ⟨fun y hy => hd.1 y (List.mem_filter.1 hy).1, hdone.2⟩
  split
  · exact State.filed_ite hs4.popHead.settleQueue hs4
  · exact hs4
theorem State.filed.finishStop {x} (h : s.filed) : (s.finishStop x).filed := by
  unfold State.finishStop
  split
  · exact h.endCtx
  · exact h.endCtx
  · exact h
theorem Device.filed.mapCtx {d : Device} (h : d.filed) (i : W16) {f : Ctx → Ctx} (hf : ∀ x, (f x).saved = x.saved) : (d.mapCtx i f).filed := by
  refine h.mapCtxs fun x hx => ?_
  split
  · exact fun v hv => h.1 x hx v (hf x ▸ hv)
  · exact h.1 x hx
theorem State.filed.stopCtx {i w} (h : s.filed) : (s.stopCtx i w).filed := by
  have halt (x : Ctx) : (s.mapDev fun d => d.mapCtx i fun y => { y with st := .stopping, stop := some (joinWhy x.stop w) }).filed :=
    h.mapDev fun hd => hd.mapCtx i fun _ => rfl
  have stopping (n : Nat) (c : Core) : (if c.task.map Task.ctx == some i && c.halt == .run && c.aside.isNone
      then { c with halt := .stopping } else c).sized = c.sized := by split <;> rfl
  unfold State.stopCtx
  split
  · exact h
  · dsimp only
    split
    · exact (halt _).mapCores stopping
    · exact (halt _).mapCores stopping
    · exact h.finishStop
    · exact h
theorem Core.sized_placed (c : Core) (t : Halt) (l : List (BitVec 4 × Nat)) (o : Option (BitVec 5)) :
    ({ c with halt := t, bad := l, spOwner := o } : Core).sized = c.sized := rfl
theorem State.filed.freeCore {n} (h : s.filed) : (s.freeCore n).filed :=
  h.setCoreAt n (c := { Core.reset with bad := (s.coreAt n).bad }) Core.reset_sized
theorem State.filed.preload {x g n} (h : s.filed) : (s.preload x g n).filed := by
  refine State.filed.foldl (fun t e ht => ?_) _ h
  refine State.filed_ite ht ?_
  split
  · exact ht.writeSpad ..
  · exact ht
theorem State.filed.memImages {x} (h : s.filed) : (s.memImages x).filed := by
  refine State.filed.foldl (fun t e ht => ?_) _ h
  refine State.filed_ite ht ?_
  split
  · cases hw : t.writeVirt x.tenant (t.ownIn x.launch) _ _ with
    | none => exact ht
    | some u => exact ht.writeVirt hw
  · exact ht
theorem State.filed.placeGang {x gs cs} (h : s.filed) : (s.placeGang x gs cs).filed :=
  State.filed.foldl (fun _ _ ht => State.filed.preload (ht.freeCore.setCoreAt _ (Core.start_sized ..))) _ h
theorem State.filed.admitNext {x cs} (h : s.filed) (hx : x.filed) : (s.admitNext x cs).filed := by
  unfold State.admitNext
  extract_lets x1 s1 s2
  have placed : s1.filed := by
    refine State.filed.placeGang (h.mapDev fun hd => Device.filed.mapCtxs (d := { s.dev with granted := none }) hd fun y hy => ?_)
    split
    · exact hx
    · exact hd.1 y hy
  have left : s2.filed := State.filed_ite placed.popHead.settleQueue (placed.mapQueue ..)
  exact State.filed_ite ((left.tellLaunch ..).takeTold _) left
theorem State.filed.writeSave {x a k} (h : s.filed) : (s.writeSave x a k).filed := by
  unfold State.writeSave
  refine State.filed.deviceRelease (State.filed.writePhys _ _ _ (State.filed.foldl (fun t y ht => ?_) _ h)) _
  exact State.filed.foldl (fun u p hu => hu.writePhys ..) _ ht
theorem State.filed.putBack {x v n b k} (h : s.filed) (hv : v.snap.sized = true) : (s.putBack x v n b k).filed := by
  unfold State.putBack
  extract_lets rd c src c1 s1 live
  have hc : c.sized = true := Core.unpackTask_sized _ _ _ _ _ _ _ hv
  have hc1 : c1.sized = src.sized :=
    Core.sized_placed src (if x.held.contains (x.launch.gangOf v.g) then .stopped else .run) (s.coreAt n).bad (v.snap.task.map Task.tenant)
  have hs1 : s1.filed := h.freeCore.setCoreAt n (hc1.trans ((Core.move_sized ..).trans hc))
  refine State.filed.foldl (fun t i ht => ?_) _ hs1
  exact ht
theorem Device.reset_filed : Device.reset.filed :=
  ⟨fun _ hx => absurd hx List.not_mem_nil, List.length_replicate, List.length_replicate, List.length_replicate, rfl⟩
theorem State.filed.moduleReset {b} : (s.moduleReset b).filed := by
  exact ⟨Core.reset_sized, fun _ hx => absurd hx List.not_mem_nil, Device.reset_filed, List.nodup_singleton _⟩
theorem State.filed.attest {p a} (h : s.filed) : (s.attest p a).filed := by
  have zero (d : Device) (hd : d.filed) : (match p with
      | .hyp => { d with attaddr := 0 }
      | .tenant t => d.mapTenant t fun x => { x with attaddr := 0 }).filed := by
    cases p with
    | hyp => exact hd
    | tenant t => exact hd.mapTenant ..
  unfold State.attest
  dsimp only
  split
  · exact h.mapDev fun hd => (zero _ hd).logEvent _
  · exact ((h.writePieces ..).releasePieces _).mapDev (zero _)
theorem State.filed.writeCtxcmd {v} (h : s.filed) : (s.writeCtxcmd v).filed := by
  have cmd (w : W64) : (s.mapDev fun d => { d with ctxcmd := w }).filed := h.mapDev id
  unfold State.writeCtxcmd
  dsimp only
  refine State.filed_ite (h.refuse ..) (State.filed_ite (cmd _) ?_)
  split
  · exact (cmd _).refuse ..
  · exact State.filed_ite (State.filed_ite (cmd _) (cmd _).stopCtx)
      (State.filed_ite (State.filed.stopCtx (State.filed_ite ((cmd _).tellLaunch ..) (cmd _))) ((cmd _).refuse ..))
theorem State.filed.writeLow {o v} (h : s.filed) : (s.writeLow o v).filed := by
  unfold State.writeLow
  extract_lets table
  refine State.filed_ite (h.mapDev id) (State.filed_ite (h.mapDev id) (State.filed_ite h.writeCtxcmd (State.filed_ite (h.writeInval0 v)
    (State.filed_ite (h.writeInval1 v) (State.filed_ite (h.writeKeycmd v) (State.filed_ite (h.mapDev id) (State.filed_ite ?_
    (State.filed_ite (h.mapDev id) h))))))))
  exact State.filed.attest (h.mapDev (f := fun d => { d with attaddr := v }) id)
theorem State.filed.writePage {t o v r} (h : s.filed) : (s.writePage t o v r).filed :=
  State.filed_ite (h.writeMbx ..) (State.filed_ite (h.mapDev fun hd => hd.mapTenant ..)
    (State.filed_ite (State.filed.attest (h.mapDev fun hd => hd.mapTenant ..)) h))
theorem State.filed.regWrite {r o v b} (h : s.filed) : (s.regWrite r o v b).filed :=
  State.filed_ite (h.refuse ..) (State.filed_ite h (State.filed_ite h.writeLow (State.filed_ite (h.writeBlock ..)
    (State.filed_ite h.writePage (State.filed_ite (h.mapQueue ..) h)))))
theorem State.filed.answer (h : s.filed) (m : LinkMsg) (k : LinkKind) : (s.answer m k).filed := h.mapDev id
theorem State.filed.mapRed (h : s.filed) (k : Red) (f : Red → Red) : (s.mapDev fun d => d.mapRed k f).filed := h.mapDev id
theorem State.filed.serve {m t} (h : s.filed) (ht : s.serve m = some t) : t.filed := by
  unfold State.serve at ht
  extract_lets own at ht
  cases hm : m.kind with
  | read ps =>
    rw [hm] at ht
    dsimp only at ht
    split at ht <;> obtain rfl := Option.some.inj ht <;> exact h.answer ..
  | write ps rels =>
    rw [hm] at ht
    dsimp only at ht
    split at ht
    · generalize hs1 : List.foldl _ _ _ = s1 at ht
      have written : s1.filed := by
        rw [← hs1]
        exact State.filed.foldl (fun u x hu => State.filed.mapDev (hu.writePhys ..) id) _ h
      obtain rfl := Option.some.inj ht
      exact State.filed_ite (written.answer ..) written
    · obtain rfl := Option.some.inj ht
      exact State.filed_ite (h.answer ..) h
  | atomic op w g off v c rels =>
    rw [hm] at ht
    dsimp only at ht
    split at ht <;> obtain rfl := Option.some.inj ht
    · exact (h.atomicAt ..).answer ..
    · exact h.answer ..
  | contribute int grp sq step last ps =>
    rw [hm] at ht
    dsimp only at ht
    split at ht
    · obtain rfl := Option.some.inj ht
      exact State.filed_ite (h.mapRed ..) h
    · split at ht
      · obtain rfl := Option.some.inj ht
        exact h.answer ..
      · split at ht
        · obtain rfl := Option.some.inj ht
          exact State.filed.answer (State.filed_ite (h.mapRed ..) h) ..
        · split at ht
          · obtain rfl := Option.some.inj ht
            exact h.answer ..
          · generalize hs1 : List.foldl _ _ _ = s1 at ht
            have added : s1.filed := by
              rw [← hs1]
              exact State.filed.foldl (fun u x hu => hu.writePhys ..) _ h
            obtain rfl := Option.some.inj ht
            exact State.filed.answer (State.filed_ite (added.mapRed ..) (added.mapRed ..)) ..
  | _ =>
    rw [hm] at ht
    cases ht

end Sys2Proof.Machine
end

section
/-!
The events of the core keep the files.
-/
namespace Sys2Proof.Machine
variable {s : State}

/-! ### Loads, stores, barriers and results -/

theorem execEvLoadResultArrive_files {d} : KeepsFiles (execEvLoadResultArrive d) := by
  intro s h
  have loads (t : State) (ht : t.filed) (l : List LoadEnt) : (t.mapCore fun c => { c with loads := l }).filed := ht.mapCore fun _ => rfl
  unfold execEvLoadResultArrive
  dsimp only
  split
  · exact h
  · exact .ite (.ite (loads _ (h.sampleLoad _) _) h) (.ite (loads _ (h.setS ..) _) h)
theorem execEvStorePerformed_files : KeepsFiles execEvStorePerformed := by
  intro s h
  unfold execEvStorePerformed
  split
  · exact h
  · rename_i e r _
    have hp := h.performStore e
    exact .ite (hp.mapCore (f := fun c => { c with stores := r, scDone := if c.det then c.cycle.toNat else c.scDone }) fun _ => rfl) h
theorem execEvWaitgeSatisfy_files : KeepsFiles execEvWaitgeSatisfy := by
  intro s h
  unfold execEvWaitgeSatisfy
  split
  · rename_i ht
    exact .ite (State.sampleGe_filed (h.standAt ht)) h
  · exact h
/-- Loop closes set indices in place (04 R70). -/
theorem Seq.closeFrom_lidx (q : Seq) (pre ls : List LoopRec) : (q.closeFrom pre ls).1.lidx.length = q.lidx.length := by
  induction ls generalizing q with
  | nil => rfl
  | cons l ls ih =>
    unfold Seq.closeFrom
    split
    · rfl
    · dsimp only
      split
      · exact List.length_set
      · exact (ih _).trans List.length_set
theorem Seq.close_lidx (q : Seq) : q.close.1.lidx.length = q.lidx.length := Seq.closeFrom_lidx ..
theorem State.filed.closeLoops (h : s.filed) (e : Eng) : (s.closeLoops e).filed := by
  have hs : (s.mapSeq e fun _ => { (s.core.seqs.get e).close.1 with closing := false }).filed :=
    ⟨(Core.sized_seqs (walkSized_set (q := { (s.core.seqs.get e).close.1 with closing := false }) e (Seq.close_lidx _))).trans h.1, h.2⟩
  exact State.filed_ite (hs.mapCore fun _ => rfl) hs
theorem execEvLoopClose_files {e} : KeepsFiles (execEvLoopClose e) := fun _ h => .ite (h.closeLoops e) h
theorem execEvModeDrainDone_files : KeepsFiles execEvModeDrainDone := by
  intro s h
  unfold execEvModeDrainDone
  split
  · rename_i x t ht
    have hs : t.filed := h.standAt ht
    exact .ite (hs.modeDone x) h
  · exact h
theorem execEvSeqReattach_files {e} : KeepsFiles (execEvSeqReattach e) := by
  intro s h
  unfold execEvSeqReattach
  dsimp only
  split
  · rename_i p _
    exact .ite (h.mapSeq e (f := fun q => { q with detached := false, pos := p, entered := true, wait := none, tried := false }) fun _ => rfl) h
  · exact h
theorem execEvResultLand_files {i} : KeepsFiles (execEvResultLand i) := by
  intro s h
  unfold execEvResultLand
  split
  · exact .ite (h.land _) h
  · exact h
theorem execEvDeferredPostEffect_files {i} : KeepsFiles (execEvDeferredPostEffect i) := by
  intro s h
  unfold execEvDeferredPostEffect
  split
  · exact h
  · refine .ite (State.filed.mapCore h fun c => ?_) h
    exact Core.postDeferred_sized ..
theorem State.filed.fillFetch (h : s.filed) (e : Eng) (b : Nat) (bs : List Byte) : (s.fillFetch e b bs).filed := h.mapSeq _ fun _ => rfl
theorem execEvTextFetch_files {e} : KeepsFiles (execEvTextFetch e) := by
  intro s h
  unfold execEvTextFetch
  refine .ite h ?_
  extract_lets blk s1
  have hs1 : s1.filed := h
  have put (t : State) (ht : t.filed) (r : Reply) : (t.mapCore fun c => { c with freplies := c.freplies.set e r }).filed := ht.mapCore fun _ => rfl
  split
  · exact hs1.traps _
  · split
    · exact .ite (hs1.traps _) (h.fillFetch ..)
    · split
      · exact .ite (put _ ((h.linkDebit _).send ..) _) h
      · exact h
      · exact h
      · exact State.filed.fillFetch (State.filed.mapCore (put _ h _) fun _ => Core.noteText_sized ..) ..
      · exact (put _ hs1 _).traps _
theorem execEvWaitwpComplete_files : KeepsFiles execEvWaitwpComplete := by
  intro s h
  unfold execEvWaitwpComplete
  split
  · rename_i ht
    exact .ite (State.tryWaitwp_filed (h.standAt ht)) h
  · exact h
theorem execEvAwaitSuccess_files {e} : KeepsFiles (execEvAwaitSuccess e) := by
  intro s h
  unfold execEvAwaitSuccess
  split
  · exact h
  · rename_i i t ht
    have hs : t.filed := h.standAt ht
    split
    · exact h
    · rename_i f n _
      have taken := (hs.takeFlag f n).awaitShows e
      exact .ite h (.ite (taken.completes _)
        (taken.mapSeq e (f := fun q => { q with awd := true, wait := none, tried := false }) fun _ => rfl))
theorem execEvBarDepart_files : KeepsFiles execEvBarDepart := by
  intro s h
  unfold execEvBarDepart
  split
  · rename_i k t ht
    have hs : t.filed := h.standAt ht
    exact .ite (hs.depart ..) h
  · rename_i n t ht
    have hs : t.filed := h.standAt ht
    exact .ite (hs.depart ..) h
  · exact h
theorem execYield_files : KeepsFiles execYield := by
  intro s h
  unfold execYield
  dsimp only
  split
  · exact .ite (h.complete 1).stopCtx (h.complete 1)
  · exact h.complete 1

/-! ### The array, the copy engines and the fabric -/

theorem execEvMatKstep_files : KeepsFiles execEvMatKstep := by
  intro s h
  unfold execEvMatKstep
  dsimp only
  split
  · exact h
  · split
    · exact h
    · split
      · refine .ite (h.setFlight _) (.ite h ?_)
        split
        · exact (h.debit _).matFault
        · exact State.filed.setFlight (State.filed_ite ((h.debit _).applyEff ..) (h.debit _)) _
      · exact h
theorem execEvEpilogueTileStep_files : KeepsFiles execEvEpilogueTileStep := by
  intro s h
  unfold execEvEpilogueTileStep
  split
  · exact h
  · split
    · exact h
    · refine .ite h ?_
      split
      · exact h.matFault
      · exact h.setFlight _
theorem execEvCopyStart_files {e} : KeepsFiles (execEvCopyStart e) := by
  intro s h
  unfold execEvCopyStart
  split
  · exact h
  · refine .ite h ?_
    dsimp only
    split
    · exact h.copyFault ..
    · rename_i ho
      refine State.filed.mapCore ?_ fun _ => (Core.mapChan_sized ..).trans ((Core.setWptr_sized ..).trans (Core.mapHead_sized ..))
      split at ho
      · cases ho
        exact h
      · exact h.openFoot ho
theorem execEvCopyTileStep_files {e} : KeepsFiles (execEvCopyTileStep e) := by
  intro s h
  unfold execEvCopyTileStep
  split
  · exact h
  · refine .ite h ?_
    split
    · exact h.sendStep
    · exact .ite h h.readStep
theorem State.filed.credStep (h : s.filed) (e : CopyEng) (q : CopyCmd) (n : Nat) : (s.credStep e q n).filed := (h.deliver ..).mapCopy ..
theorem execEvCredApply_files {e} : KeepsFiles (execEvCredApply e) := by
  intro s h
  unfold execEvCredApply
  split
  · exact h
  · split
    · refine .ite h ?_
      dsimp only
      split
      · exact .ite h (h.askEngine (fun _ _ t ht => State.filed_ite (ht.credStep ..) ht) (fun t ht => ht.copyFault ..)
          fun t ht => State.filed_ite (ht.mapCopy ..) ht)
      · refine .ite h (.ite (h.credStep ..) ?_)
        split
        · exact h.copyFault ..
        · exact State.filed.mapRed ((h.credPiece ..).credStep ..) ..
      · exact .ite h (State.filed_ite ((h.mapCopy ..).passGroup ..) (h.mapCopy ..))
    · exact h
theorem execEvFollowOnIssue_files : KeepsFiles execEvFollowOnIssue := by
  intro s h
  unfold execEvFollowOnIssue
  split
  · exact h
  · split
    · exact h
    · refine .ite h ?_
      dsimp only
      have issued (f : Flight) (g : CopyCmd → CopyCmd) : (s.mapCore fun c => (c.issue f).mapHead .cld g).filed :=
        h.mapCore fun _ => Core.mapHead_sized ..
      split
      · exact (issued _ _).matFault
      · exact (issued _ _).matFault
      · rename_i ho
        exact (issued _ _).openFoot ho
      · exact issued _ _
      · exact issued _ _
theorem execEvCopyRetire_files {e} : KeepsFiles (execEvCopyRetire e) := by
  intro s h
  unfold execEvCopyRetire
  split
  · exact h
  · exact .ite h (h.bumpCounter fun _ ht => ht.mapCore fun _ => (Core.postClause_sized ..).trans (Core.leaveCopies_sized ..))
theorem State.filed.mapPhase (h : s.filed) (f : Phase → Phase) : (s.mapPhase f).filed := h.mapFab _
theorem execEvFeederToken_files {p} : KeepsFiles (execEvFeederToken p) := by
  intro s h
  unfold execEvFeederToken
  split
  · exact h
  · split
    · dsimp only
      refine .ite h ?_
      split
      · exact h.mapPhase _
      · refine .ite h ?_
        split
        · exact h.phaseFault ..
        · split
          · exact State.filed.noteDrain ((h.memDebit _).mapPhase _)
          · exact h.askFab (fun _ _ ht => ht.mapPhase _) fun _ ht => ht.phaseFault ..
    · exact h
theorem execEvStripFire_files {i} : KeepsFiles (execEvStripFire i) := by
  intro s h
  unfold execEvStripFire
  split
  · exact h
  · split
    · dsimp only
      refine .ite h ?_
      split
      · exact h.phaseFault ..
      · refine .ite ?_ ?_
        · split
          · exact h.mapPhase _
          · exact h.mapPhase _
          · exact h
        · split
          · exact h.mapPhase _
          · exact h
    · exact h
theorem execEvOutputPortToken_files {p} : KeepsFiles (execEvOutputPortToken p) := by
  intro s h
  unfold execEvOutputPortToken
  split
  · exact h
  · split
    · dsimp only
      refine .ite h ?_
      split
      · exact h.mapPhase _
      · refine .ite h ?_
        split
        · exact h.askFab (fun _ _ ht => ht.mapPhase _) fun _ ht => ht.phaseFault ..
        · exact State.filed.noteDrain (State.filed.mapPhase (State.filed.wrote (State.filed.foldl (fun _ _ ht => ht.writeSpot ..) _ (h.memDebit _))) _)
    · exact h
theorem execEvPhaseDrain_files : KeepsFiles execEvPhaseDrain := by
  intro s h
  unfold execEvPhaseDrain
  refine .ite h ?_
  split
  · exact .ite (State.filed.mapCore h fun _ => Core.finishInst_sized ..) h
  · split
    · exact h
    · exact .ite h.unitStep h

/-! ### Rules and streams -/

theorem execEvRuleInstanceIssue_files {i} : KeepsFiles (execEvRuleInstanceIssue i) := by
  intro s h
  unfold execEvRuleInstanceIssue
  split
  · exact h
  · split
    · exact .ite h.vecStage h
    · refine .ite h ?_
      split
      · exact (h.begins ..).instFault ..
      · split
        · exact h.vecInst
        · exact h.matInst ..
        · exact h.copyInst ..
        · exact h.copyInst ..
        · exact h.fabInst ..
        · exact h
        · exact h
theorem State.filed.endInst (h : s.filed) (i : Nat) (r : Rule) (n : Nat) : (s.mapCore fun c => c.endInst i r n).filed :=
  h.mapCore fun _ => Core.endInst_sized ..
theorem execEvRuleInstanceRetire_files {i} : KeepsFiles (execEvRuleInstanceRetire i) := by
  intro s h
  unfold execEvRuleInstanceRetire
  split
  · exact h
  · split
    · exact h
    · refine .ite h ?_
      split
      · exact State.filed.mapCore h fun _ => Core.ruleFault_sized ..
      · split
        · split
          · exact h.vecCommit
          · exact h
        · split
          · exact h.matCommit.endInst ..
          · exact h
        · exact h.copyCommit
        · exact h.copyCommit
        · split
          · exact State.filed.mapCore h fun _ => (Core.endInst_sized ..).trans (Core.endPhase_sized ..)
          · exact h
theorem execEvStreamMoveGrant_files {k r} : KeepsFiles (execEvStreamMoveGrant k r) := by
  intro s h
  unfold execEvStreamMoveGrant
  split
  · exact h
  · exact .ite (h.mapHome ..) h
theorem State.filed.linkDebitOf (h : s.filed) (t : BitVec 5) (n : Nat) : (s.linkDebitOf t n).filed := h.mapDev fun hd => hd.mapTenant ..
theorem execEvStreamItemArrive_files {k j} : KeepsFiles (execEvStreamItemArrive k j) := by
  intro s h
  unfold execEvStreamItemArrive
  split
  · exact h
  · split
    · exact h
    · refine .ite h (.ite ((h.mapHome ..).mapHome ..) ?_)
      split
      · exact .ite h ((h.mapHome ..).mapHome ..)
      · exact .ite h (((h.mapHome ..).linkDebitOf ..).sendNote _).freeHomes
      · exact ((h.mapHome ..).mapHome ..).tell _
      · exact h
theorem execEvStreamSlotReturn_files {k} : KeepsFiles (execEvStreamSlotReturn k) := by
  intro s h
  unfold execEvStreamSlotReturn
  split
  · exact h
  · split
    · exact .ite (h.mapHome ..).freeHomes h
    · exact h
    · exact h
    · exact State.filed_ite (h.mapHome ..).freeHomes ((h.mapHome ..).tell _)
theorem execEvSendEndReply_files {k} : KeepsFiles (execEvSendEndReply k) := by
  intro s h
  unfold execEvSendEndReply
  split
  · exact h
  · split
    · exact .ite ((h.mapHome ..).tell _) h
    · exact h
theorem execEvWaypointForward_files {k} : KeepsFiles (execEvWaypointForward k) := by
  intro s h
  unfold execEvWaypointForward
  split
  · exact h
  · split
    · exact .ite (execEvStreamSlotReturn_files s h) h
    · dsimp only
      split
      · exact (h.mapHome ..).mapHome ..
      · exact .ite (((h.mapHome ..).linkDebitOf ..).sendNote _) h
      · exact h
theorem execEvWaypointRetire_files {k r} : KeepsFiles (execEvWaypointRetire k r) := by
  intro s h
  unfold execEvWaypointRetire
  split
  · exact h
  · split
    · exact .ite (h.tell _) h
    · exact (h.mapHome ..).tell _
    · exact h
theorem execEvStreamLoss_files {k r} : KeepsFiles (execEvStreamLoss k r) := by
  intro s h
  unfold execEvStreamLoss
  split
  · exact h
  · split
    · exact h
    · dsimp only
      refine .ite (.ite (h.tell _) h) ?_
      exact State.filed_ite ((h.tell _).mapHome ..).freeHomes (h.tell _)
theorem execEvSbindSliceWrite_files {k} : KeepsFiles (execEvSbindSliceWrite k) := by
  intro s h
  unfold execEvSbindSliceWrite
  split
  · exact h
  · split
    · exact h
    · rename_i b _
      dsimp only
      refine .ite h ?_
      split
      · exact State.filed_ite h.bindWrite h
      · refine .ite (h.bindFault ..) ?_
        split
        · exact h.bindFault ..
        · rename_i n c hc
          have hs := Core.claimWrite_sized hc
          have hb : (State.mapBinding { s with core := c } b fun x => { x with slice := some n }).filed := (h.setCore hs).mapBinding _ _
          exact State.filed_ite hb.bindWrite hb
theorem execEvStreamCensus_files {k} : KeepsFiles (execEvStreamCensus k) := by
  intro s h
  unfold execEvStreamCensus
  split
  · exact h
  · split
    · exact (h.mapHome ..).tell _
    · exact h

end Sys2Proof.Machine
end

section
/-!
The events of contexts, queues, the host and the links keep the files.
-/
namespace Sys2Proof.Machine
variable {s : State}

/-- As `State.filed.foldl`, where the update keeps the files for the members of the list. -/
theorem State.filed.foldlMem {α : Type} {f : State → α → State} {l : List α} (h : s.filed) (hf : ∀ t, ∀ x ∈ l, t.filed → (f t x).filed) :
    (l.foldl f s).filed := by
  induction l generalizing s with
  | nil => exact h
  | cons x r ih => exact ih (hf _ x List.mem_cons_self h) fun t y hy => hf t y (List.mem_cons_of_mem _ hy)

/-! ### Launches, contexts and queues -/

theorem execEvLaunchRecordRead_files {q} : KeepsFiles (execEvLaunchRecordRead q) := by
  intro s h
  unfold execEvLaunchRecordRead
  dsimp only
  exact .ite h (h.mapQueue ..).settleQueue
theorem execEvQueueEnable_files {q} : KeepsFiles (execEvQueueEnable q) := by
  intro s h
  unfold execEvQueueEnable
  extract_lets e x bit en
  clear_value e x bit en
  refine .ite h (.ite (h.mapQueue ..) ?_)
  extract_lets
  exact .ite (h.mapQueue ..) (h.mapQueue ..)
theorem execEvQueueGrant_files {q} : KeepsFiles (execEvQueueGrant q) := by
  intro s h
  have granted : (s.mapDev fun d => { d with grant := d.grant.set (s.classOf q) q, granted := some q }).filed :=
    h.mapDev fun hd => ⟨hd.1, hd.2.1, hd.2.2.1, List.length_set.trans hd.2.2.2.1, hd.2.2.2.2⟩
  unfold execEvQueueGrant
  dsimp only
  exact .ite h (State.filed_ite granted (granted.mapQueue ..))
theorem execEvSliceExpiry_files {q} : KeepsFiles (execEvSliceExpiry q) := by
  intro s h
  exact .ite h (State.filed.mapDev (h.mapQueue ..) (f := fun d => { d with born := d.born + 1 }) id)
theorem execEvWaitGuardExpiry_files {q} : KeepsFiles (execEvWaitGuardExpiry q) := fun _ h => .ite (h.mapQueue ..) h
/-- A core among those of a context is one of the module's. -/
theorem State.filed.ctxCores (h : s.filed) {x : W16} {c : Nat × Core} (hc : c ∈ s.ctxCores x) : c.2.sized = true := by
  have hmem : c ∈ (s.cnum, s.core) :: s.others := (List.mem_filter.1 (List.mem_filter.1 hc).1).1
  rcases List.mem_cons.1 hmem with rfl | ho
  · exact h.1
  · exact h.2.1 c ho
theorem execEvPreemptRequest_files {x} : KeepsFiles (execEvPreemptRequest x) := by
  intro s h
  unfold execEvPreemptRequest
  split
  · exact h
  · refine .ite h ?_
    extract_lets s1 all
    have halted : s1.filed := h.foldlMem fun t c hc ht =>
      State.filed_ite (ht.setCoreAt _ (Core.haltNow_sized.trans (h.ctxCores hc))) ht
    exact State.filed_ite halted.finishStop halted
theorem execEvHandlerPreemptTimeout_files : KeepsFiles execEvHandlerPreemptTimeout := by
  intro s h
  unfold execEvHandlerPreemptTimeout
  split
  · exact .ite (h.mapCore (f := fun c => { c with halt := .stopping }) fun _ => rfl) h
  · exact h
theorem execEvQueuePreempt_files {w x} : KeepsFiles (execEvQueuePreempt w x) := by
  intro s h
  unfold execEvQueuePreempt
  split
  · exact h
  · exact .ite h.stopCtx h
/-- A context of which a queue places a further gang is one of the device's. -/
theorem State.need_more {q : BitVec 9} {x : Ctx} (h : s.need q = .more x) : x ∈ s.dev.ctxs := by
  unfold State.need at h
  dsimp only at h
  split at h
  · cases h
  · split at h
    · split at h
      · rename_i hx
        split_ifs at h
        cases h
        exact List.mem_of_find?_eq_some hx
      · cases h
    · split_ifs at h
    · cases h
theorem State.filed.createCtx (h : s.filed) (q : BitVec 9) (sl : BitVec 6) (l : Launch) : (s.createCtx q sl l).2.filed := by
  refine ⟨h.1, h.2.1, ⟨fun y hy => ?_, h.2.2.1.2⟩, h.2.2.2⟩
  obtain ⟨z, hz, rfl⟩ := List.mem_map.1 hy
  split
  · exact fun v hv => absurd hv List.not_mem_nil
  · rcases List.mem_append.1 hz with hold | hnew
    · exact h.2.2.1.1 z hold
    · cases List.mem_singleton.1 hnew
      exact fun v hv => absurd hv List.not_mem_nil
theorem State.createCtx_saved (s : State) (q : BitVec 9) (sl : BitVec 6) (l : Launch) : (s.createCtx q sl l).1.filed := fun _ hv => absurd hv List.not_mem_nil
theorem execEvGangAdmit_files {q sl cs} : KeepsFiles (execEvGangAdmit q sl cs) := by
  intro s h
  unfold execEvGangAdmit
  dsimp only
  refine .ite h ?_
  split
  · rename_i x hx
    exact .ite (h.admitNext (h.2.2.1.1 x (State.need_more hx))) h
  · refine .ite h (.ite ?_ ?_)
    · have hg : (s.mapDev fun d => { d with granted := none }).filed := h.mapDev id
      exact hg.rejectHead.settleQueue
    · exact (h.createCtx ..).memImages.admitNext (s.createCtx_saved q sl _)
  · exact h
theorem execEvTaskEnd_files : KeepsFiles execEvTaskEnd := by
  intro s h
  unfold execEvTaskEnd
  split
  · refine .ite h ?_
    extract_lets s1 s2 s3
    have h1 : s1.filed := (h.dropTaskEnds ..).mapDev fun hd => hd.mapCtx _ fun _ => rfl
    have h2 : s2.filed := h1.vacateCore _
    have left : s3.filed := State.filed_ite (h2.tellLaunch ..) h2
    split
    · exact State.filed_ite left.endCtx left
    · exact left
  · exact h
theorem execEvChartAbort_files {q} : KeepsFiles (execEvChartAbort q) := by
  intro s h
  unfold execEvChartAbort
  dsimp only
  split
  · split
    · rename_i ht
      exact (h.takeLaunch ht).endCtx
    · exact h
  · split
    · exact h
    · split
      · exact h
      · rename_i ht
        exact State.filed.settleQueue ((h.takeLaunch ht).mapQueue ..)
theorem execEvLaunchKillAbort_files {x} : KeepsFiles (execEvLaunchKillAbort x) := by
  intro s h
  unfold execEvLaunchKillAbort
  split
  · exact h
  · split
    · rename_i ht
      exact (h.takeLaunch ht).stopCtx
    · exact h
theorem execEvEscalationStop_files {x c} : KeepsFiles (execEvEscalationStop x c) := by
  intro s h
  unfold execEvEscalationStop
  split
  · exact h
  · split
    · rename_i ht
      exact (h.takeLaunch ht).stopCtx
    · exact h
theorem execEvEscalate_files {x} : KeepsFiles (execEvEscalate x) := by
  intro s h
  unfold execEvEscalate
  split
  · exact .ite h (State.filed_ite (h.stopCtx.tellLaunch ..) h.stopCtx)
  · exact h
theorem execEvContextSave_files {x} : KeepsFiles (execEvContextSave x) := by
  intro s h
  unfold execEvContextSave
  split
  · exact h
  · dsimp only
    refine .ite h ?_
    split
    · exact h
    · refine .ite h.writeSave.finishStop ?_
      refine State.filed.mapDev (State.filed.foldl (fun t c ht => ht.vacateCore _) _ h.writeSave) fun hd => ?_
      refine (hd.ctxcmdDone 1 x).mapCtxs fun y hy => ?_
      split
      · intro v hv
        obtain ⟨t, -, rfl⟩ := List.mem_map.1 hv
        exact h.coreAt _
      · exact (hd.ctxcmdDone 1 x).1 y hy
theorem execEvContextRestore_files {x sl cs} : KeepsFiles (execEvContextRestore x sl cs) := by
  intro s h
  unfold execEvContextRestore
  split
  · exact h
  · rename_i y hy
    refine .ite h ?_
    extract_lets e key hd s0
    have ungranted : s0.filed := h.mapDev id
    clear_value hd
    split
    · exact ungranted.endCtx
    rename_i ps to' s1 x1 s2 s3 front _
    have back : s1.filed := ungranted.foldlMem fun t p hp ht => by
      have hzip : p.1 ∈ ps := by simpa using List.mem_map_of_mem (f := Prod.fst) hp
      exact ht.putBack (h.2.2.1.ctx hy p.1.1 (List.of_mem_zip hzip).1)
    have marked : s2.filed := back.mapDev fun hd => Device.filed.mapCtxs hd fun z hz => by
      split
      · exact fun v hv => absurd hv List.not_mem_nil
      · exact hd.1 z hz
    exact State.filed.focus (State.filed.foldl (fun t c ht => (ht.focus _).repin) _ (marked.writePhys ..)) _

/-! ### Traps, refills and resets -/

theorem execEvTrapEntry_files : KeepsFiles execEvTrapEntry := by
  intro s h
  unfold execEvTrapEntry
  split
  · exact h
  · rename_i k p _
    have hp : (s.mapCore fun c => { c with pend := c.pend.take k ++ c.pend.drop (k + 1) }).filed := h.mapCore fun _ => rfl
    exact .ite h (hp.takeTrap ..)
theorem execEvDeadlock_files : KeepsFiles execEvDeadlock := fun _ h => .ite h (h.takeTrap ..)
theorem execEvDroop_files : KeepsFiles execEvDroop := fun _ h => .ite h (h.takeTrap ..)
theorem execEvEnergyRefill_files : KeepsFiles execEvEnergyRefill := by
  intro s h
  have pools : (s.mapDev fun d => { d with ctxs := d.ctxs.map fun y =>
      if (y.st == .resident || y.st == .stopping) && !y.launch.mode 0 then { y with epool := BitVec.ofNat 32 (d.granting y) } else y }).filed :=
    h.mapDev fun hd => hd.mapCtxs fun y hy => by
      split <;> exact hd.1 y hy
  unfold execEvEnergyRefill
  split
  · rename_i t x _ _
    refine .ite (.ite h ?_) pools
    exact h.mapCore (f := fun c => { c with ebudget := BitVec.ofNat 32 (x.detShare t.g), eperiod := c.eperiod - detPeriod }) fun _ => rfl
  · exact pools
theorem execEvModuleReset_files {b} : KeepsFiles (execEvModuleReset b) := fun _ _ =>
  State.filed_ite State.filed.moduleReset (State.filed.moduleReset.mapDev fun hd => hd.logEvent _)

/-! ### The host and the links -/

theorem execEvHostMemAccess_files {r a w n rel} : KeepsFiles (execEvHostMemAccess r a w n rel) := by
  intro s h
  unfold execEvHostMemAccess
  extract_lets refused
  have hr (z : List Byte) (k : Bool) : FiledOut (refused z k) := h.mapDev fun hd => hd.refuse ..
  split
  · split
    · exact hr ..
    · exact State.filed_ite ((h.writePieces ..).releasePieces _) (h.writePieces ..)
  · split
    · exact hr ..
    · have hread (l : List Byte) : (s.mapDev fun d => { d with hostRead := l }).filed := h.mapDev id
      extract_lets s1
      split
      · exact (hread _).mapDev fun hd => hd.logEvent _
      · exact hread _
theorem execEvInvalidate_files {t b p} : KeepsFiles (execEvInvalidate t b p) := by
  intro s h
  unfold execEvInvalidate
  dsimp only
  exact .ite h.tryInval h.regWrite.regWrite
theorem execEvKeyClear_files {k} : KeepsFiles (execEvKeyClear k) := by
  intro s h
  unfold execEvKeyClear
  dsimp only
  exact .ite h.tryKeyClear h.regWrite
theorem Device.filed.popEvent {d : Device} (h : d.filed) : d.popEvent.filed := by
  unfold Device.popEvent
  split
  · exact h
  · split <;> exact h
theorem Device.filed.setRead {d : Device} (h : d.filed) (l : List Byte) : ({ d with hostRead := l } : Device).filed := h
theorem execEvEventRead_files {r o} : KeepsFiles (execEvEventRead r o) := by
  intro s h
  unfold execEvEventRead
  extract_lets o s1
  have hs1 : s1.filed := h.mapDev fun hd => hd.setRead _
  exact .ite (h.mapDev fun hd => (hd.refuse r o).setRead _) (State.filed_ite (hs1.mapDev Device.filed.popEvent) hs1)
theorem execEvLinkFlitReceive_files {m} : KeepsFiles (execEvLinkFlitReceive m) := by
  intro s h
  unfold execEvLinkFlitReceive
  split
  · exact h
  · rename_i m
    extract_lets wait
    have hwait : wait.filed := h.mapDev id
    split
    · exact h.takeAnswer ..
    · exact h.takeAnswer ..
    · rename_i sid home k _
      cases k with
      | check | move | stat | held => exact (h.streamAnswer ..).answer ..
      | _ => exact h.streamMsg ..
    · exact State.filed.foldl (fun t c ht => ht.takeTold _) _ hwait
    · exact hwait
theorem execEvRemoteWindowAccess_files : KeepsFiles execEvRemoteWindowAccess := by
  intro s h
  unfold execEvRemoteWindowAccess
  split
  · exact h
  · rename_i k t hk
    obtain ⟨x, -, hx⟩ := List.exists_of_findSome?_eq_some hk
    obtain ⟨u, hu, hut⟩ := Option.map_eq_some_iff.1 hx
    cases hut
    exact (h.serve hu).mapDev (f := fun d => { d with inbox := d.inbox.take x.2 ++ d.inbox.drop (x.2 + 1) }) id
theorem execEvLinkslotRepair_files {k} : KeepsFiles (execEvLinkslotRepair k) := by
  intro s h
  unfold execEvLinkslotRepair
  split
  · exact h
  · split
    · exact State.filed.mapDev ((h.mapHome ..).tell _) fun hd => (hd.logEvent _).raise ..
    · exact h

end Sys2Proof.Machine
end

section
/-!
Every instruction, every turn and every step keep the files: O58.
-/
namespace Sys2Proof.Machine
variable {s : State}

theorem execFencex_files {x y} : KeepsFiles (execFencex x y) := fun _ h => State.filed.completes (h.mapCore fun _ => Core.addFence_sized _) 1
theorem Device.filed.setThermal {d : Device} (h : d.filed) (n : Nat) (b : Bool) : ({ d with thermal := d.thermal.set n b } : Device).filed :=
  ⟨h.1, h.2.1, h.2.2.1, h.2.2.2.1, List.length_set.trans h.2.2.2.2⟩
theorem State.filed.thermalStep (h : s.filed) (n : Nat) : (s.thermalStep n).filed :=
  h.mapDev fun hd => (hd.setThermal ..).logEvent _

/-! ### Every instruction -/

/-- Words and events alike, by the shared operation that gives each its meaning. -/
theorem exec_files (i : Instr) : KeepsFiles (exec i) := by
  intro s h
  cases i with
  | add | sub | mul | mulh | div | rem | and | or | xor | andn | shl | shr | sra | rotl | min | max | setc | lea =>
    rw [exec]
    exact State.alu_filed h
  | clz | popc | sel | movi | mov | extr | insr | hget | srd =>
    rw [exec]
    exact State.withRegs_putS_filed h
  | waitge => exact State.sampleGe_filed h
  | atadd | atand | ator | atxor | atmin | atmax | atswp | atcas => exact State.atomic_filed h
  | hsetb | hsetx | hsets | hsetf =>
    rw [exec]
    exact State.editH_filed h
  | waitwp => exact State.tryWaitwp_filed h
  | vadd | vsub | vmul | vfma | vfms | vfnma | vmin | vmax | vabs | vneg | vdiv | vdivRem | vfma16 | viadd | visub | vimul | vimulh | vimin
  | vimax | vand | vor | vxor | vshl | vshr | vsra | vcmp | vsel | vcvt | vmov | vseti | viota | vrngRaw | vrngUni | vclamp | vrot | vbcast
  | vshiftDn | vshiftUp | vrsum | vscanIncl | vscanExcl | vrmax | vrmin | vrmaxi | vrmini | vexp | vexp2 | vln | vlog2 | vrcp | vrsqrt
  | vsqrt | vtanh | vsigm | vgelu | verf | vunpk | vpack | vpkbf | vupbf => exact State.vecWord_filed h
  | cpy | cred | cfil | ctier | ccnt => exact State.copyWord_filed h
  | fbind | fbindC => exact State.bindPort_filed h
  | fbar | fbarRec | fstop | fstopRec =>
    rw [exec]
    exact State.endPhase_filed h
  | fencex => exact execFencex_files s h
  | evTailWrite | evMailboxWrite | evCtxcmdPreempt | evCtxcmdKill | evKeyLoad | evKeycmdNop | evIpendClear | evAttestRequest
  | evHostRegWrite => exact h.regWrite
  | evThermalStep3 => exact State.filed.moduleReset.mapDev fun hd => hd.logEvent _
  | hmov | hclr => exact h.putsH ..
  | trap => exact h.trapWith _
  | aset | aadd | aaddReg | ashl | aldi => exact (h.setA ..).completes 1
  | mmah => exact State.filed.traps (s := s.mapCore fun c => { c with legacycnt := c.legacycnt + 1 }) (h.mapCore fun _ => rfl) _
  | evTenantBudgetRefill => exact h.mapDev fun hd => ⟨hd.1, List.length_map .. |>.trans hd.2.1, hd.2.2⟩
  | evThermalStep1 | evThermalStep2 => exact h.thermalStep _
  | evThermalStepEnd => exact h.mapDev fun hd => hd.setThermal ..
  | ld => exact execLd_files s h
  | st => exact execSt_files s h
  | ldsp => exact execLdsp_files s h
  | stsp => exact execStsp_files s h
  | mark => exact execMark_files s h
  | fence => exact execFence_files s h
  | bar => exact execBar_files s h
  | barPart => exact execBarPart_files s h
  | hld => exact execHld_files s h
  | hst => exact execHst_files s h
  | hoff => exact execHoff_files s h
  | tlook => exact execTlook_files s h
  | tset => exact execTset_files s h
  | tclr => exact execTclr_files s h
  | tclrAll =>
    rw [exec]
    have hnext := execTclrAll_filed h
    generalize execTclrAll s = o at hnext ⊢
    obtain ⟨t, rfl, hf⟩ := hnext
    exact hf
  | tinfo => exact execTinfo_files s h
  | ropen => exact execRopen_files s h
  | rslice => exact execRslice_files s h
  | rclose => exact execRclose_files s h
  | inst => exact execInst_files s h
  | rvk => exact execRvk_files s h
  | rvkat => exact execRvkat_files s h
  | rqryRule => exact execRqryRule_files s h
  | rqryRec => exact execRqryRec_files s h
  | rqryCur => exact execRqryCur_files s h
  | rres => exact execRres_files s h
  | snew => exact execSnew_files s h
  | ssend => exact execSsend_files s h
  | srecv => exact execSrecv_files s h
  | ssendh => exact execSsendh_files s h
  | srecvh => exact execSrecvh_files s h
  | sbind => exact execSbind_files s h
  | sbindOff => exact execSbindOff_files s h
  | sclose => exact execSclose_files s h
  | sdrop => exact execSdrop_files s h
  | sstat => exact execSstat_files s h
  | swr => exact execSwr_files s h
  | mbxrd => exact execMbxrd_files s h
  | eret => exact execEret_files s h
  | eretSkip => exact execEretSkip_files s h
  | yield => exact execYield_files s h
  | exit => exact execExit_files s h
  | post e => exact execPost_files (e := e) s h
  | await e => exact execAwait_files (e := e) s h
  | postTail => exact execPostTail_files s h
  | awaitTail => exact execAwaitTail_files s h
  | ard => exact execArd_files s h
  | ardb => exact execArdb_files s h
  | mma => exact execMma_files s h
  | mclr => exact execMclr_files s h
  | moutTile => exact execMoutTile_files s h
  | moutHandle => exact execMoutHandle_files s h
  | mgate => exact execMgate_files s h
  | mscan => exact execMscan_files s h
  | mcarryZ => exact execMcarryZ_files s h
  | mcarryLd => exact execMcarryLd_files s h
  | mcarrySt => exact execMcarrySt_files s h
  | dclaim => exact execDclaim_files s h
  | drel => exact execDrel_files s h
  | dqry => exact execDqry_files s h
  | cpyf => exact execCpyf_files s h
  | fcfg => exact execFcfg_files s h
  | fgo => exact execFgo_files s h
  | nop => exact execNop_files s h
  | br => exact execBr_files s h
  | jmp => exact execJmp_files s h
  | jmpIndirect => exact execJmpIndirect_files s h
  | call => exact execCall_files s h
  | ret => exact execRet_files s h
  | loop => exact execLoop_files s h
  | brk => exact execBrk_files s h
  | mode => exact execMode_files s h
  | rotset => exact execRotset_files s h
  | sync => exact execSync_files s h
  | syncRetire => exact execSyncRetire_files s h
  | evLoadResultArrive => exact execEvLoadResultArrive_files s h
  | evWaitgeSatisfy => exact execEvWaitgeSatisfy_files s h
  | evBarDepart => exact execEvBarDepart_files s h
  | evDeferredPostEffect => exact execEvDeferredPostEffect_files s h
  | evAwaitSuccess => exact execEvAwaitSuccess_files s h
  | evWaitwpComplete => exact execEvWaitwpComplete_files s h
  | evResultLand => exact execEvResultLand_files s h
  | evMatKstep => exact execEvMatKstep_files s h
  | evEpilogueTileStep => exact execEvEpilogueTileStep_files s h
  | evCopyStart => exact execEvCopyStart_files s h
  | evCopyTileStep => exact execEvCopyTileStep_files s h
  | evCopyRetire => exact execEvCopyRetire_files s h
  | evCredApply => exact execEvCredApply_files s h
  | evFollowOnIssue => exact execEvFollowOnIssue_files s h
  | evFeederToken => exact execEvFeederToken_files s h
  | evStripFire => exact execEvStripFire_files s h
  | evOutputPortToken => exact execEvOutputPortToken_files s h
  | evPhaseDrain => exact execEvPhaseDrain_files s h
  | evLoopClose => exact execEvLoopClose_files s h
  | evModeDrainDone => exact execEvModeDrainDone_files s h
  | evSeqReattach => exact execEvSeqReattach_files s h
  | evTextFetch => exact execEvTextFetch_files s h
  | evRuleInstanceIssue => exact execEvRuleInstanceIssue_files s h
  | evRuleInstanceRetire => exact execEvRuleInstanceRetire_files s h
  | evStreamItemArrive => exact execEvStreamItemArrive_files s h
  | evStreamSlotReturn => exact execEvStreamSlotReturn_files s h
  | evStreamMoveGrant => exact execEvStreamMoveGrant_files s h
  | evSendEndReply => exact execEvSendEndReply_files s h
  | evWaypointForward => exact execEvWaypointForward_files s h
  | evWaypointRetire => exact execEvWaypointRetire_files s h
  | evStreamLoss => exact execEvStreamLoss_files s h
  | evSbindSliceWrite => exact execEvSbindSliceWrite_files s h
  | evStreamCensus => exact execEvStreamCensus_files s h
  | evLinkslotRepair => exact execEvLinkslotRepair_files s h
  | evLaunchRecordRead => exact execEvLaunchRecordRead_files s h
  | evGangAdmit => exact execEvGangAdmit_files s h
  | evTaskEnd => exact execEvTaskEnd_files s h
  | evChartAbort => exact execEvChartAbort_files s h
  | evLaunchKillAbort => exact execEvLaunchKillAbort_files s h
  | evEscalationStop => exact execEvEscalationStop_files s h
  | evQueueEnable => exact execEvQueueEnable_files s h
  | evSliceExpiry => exact execEvSliceExpiry_files s h
  | evWaitGuardExpiry => exact execEvWaitGuardExpiry_files s h
  | evQueuePreempt => exact execEvQueuePreempt_files s h
  | evQueueGrant => exact execEvQueueGrant_files s h
  | evPreemptRequest => exact execEvPreemptRequest_files s h
  | evHandlerPreemptTimeout => exact execEvHandlerPreemptTimeout_files s h
  | evContextSave => exact execEvContextSave_files s h
  | evContextRestore => exact execEvContextRestore_files s h
  | evTrapEntry => exact execEvTrapEntry_files s h
  | evEscalate => exact execEvEscalate_files s h
  | evDeadlock => exact execEvDeadlock_files s h
  | evDroop => exact execEvDroop_files s h
  | evEnergyRefill => exact execEvEnergyRefill_files s h
  | evModuleReset => exact execEvModuleReset_files s h
  | evLinkFlitReceive => exact execEvLinkFlitReceive_files s h
  | evRemoteWindowAccess => exact execEvRemoteWindowAccess_files s h
  | evHostMemAccess => exact execEvHostMemAccess_files s h
  | evInvalidate => exact execEvInvalidate_files s h
  | evKeyClear => exact execEvKeyClear_files s h
  | evEventRead => exact execEvEventRead_files s h
  | evStorePerformed => exact execEvStorePerformed_files s h


/-! ### Turns and steps -/

theorem State.ownWord_filed {i} (h : s.filed) : FiledOut (s.ownWord i) := by
  unfold State.ownWord
  split
  · exact exec_files _ s h
  · exact .ite (h.waits _) (h.traps _)
theorem State.takeWord_filed {r} (h : s.filed) : FiledOut (s.takeWord r) := by
  unfold State.takeWord
  split
  · refine State.filed.passOver (h.mapCore fun c => ?_)
    split
    · exact (Core.addFence_sized _).trans (Core.leaveBinds_sized ..)
    · exact Core.leaveBinds_sized ..
  · exact execExit_files s h
  · exact h.waits _
  · exact h.skips _
  · exact .ite (h.waits _) (.ite (State.ownWord_filed h) h)
theorem State.wordTurn_filed {e} (h : s.filed) : FiledOut (s.wordTurn e) := by
  unfold State.wordTurn
  split
  · exact h.mapSeq e (f := fun q => { q with wait := some .external, tried := true }) fun _ => rfl
  · rename_i t i ht
    have taken : FiledOut (t.takeWord (.own i)) := State.takeWord_filed (h.atWord ht)
    refine .ite h (.ite ?_ taken)
    split
    · rename_i u hu
      rw [hu] at taken
      exact .ite taken h
    · exact h
  · rename_i ht
    exact State.takeWord_filed (h.atWord ht)
theorem State.filed.enterBlock (h : s.filed) (e : Eng) : (s.enterBlock e).filed := by
  unfold State.enterBlock
  dsimp only
  have entered : (s.mapSeq e fun q => { q with entered := true, fetch := none, wait := none, tried := false }).filed := h.mapSeq _ fun _ => rfl
  refine State.filed_ite ?_ (State.filed_ite (h.mapSeq _ fun _ => rfl) (State.filed_ite entered (entered.mapCore fun _ => Core.noteEntry_sized ..)))
  exact State.filed.trap (s := { s with who := e, cur := { word := 0, pc := (s.core.seqs.get e).pc, pos := (s.core.seqs.get e).pos, slot := 0 } }) h _
theorem State.seqTurn_filed {e} (h : s.filed) : FiledOut (s.seqTurn e) :=
  .ite h (.ite (h.closeLoops e) (.ite (h.enterBlock e) (State.wordTurn_filed h)))
theorem State.eventTurn_filed {i} (h : s.filed) : FiledOut (s.eventTurn i) := by
  unfold State.eventTurn
  refine .ite h (.ite h ?_)
  split
  · exact .ite h (exec_files _ s h)
  · exact .ite h (exec_files _ s h)
  · exact exec_files _ s h
/-- Counts, flights and when a sequencer acts next are no files. -/
theorem Core.sized_clock (c : Core) (a v : W64) (n : Nat) (l : List Flight) {f : Eng → Seq → Seq}
    (hf : ∀ e q, (f e q).lidx.length = q.lidx.length) : ({ c with cycle := a, vcyc := v, eperiod := n, took := [], posted := [], flights := l, seqs := c.seqs.mapE f } : Core).sized = c.sized :=
  Core.sized_seqs (walkSized_mapE hf)
theorem State.filed.clock (h : s.filed) : s.clock.filed := by
  unfold State.clock
  refine State.filed_ite h ?_
  extract_lets fr held still tick again s1 s2
  have h1 : s1.filed := h.mapCore fun c => Core.sized_clock c _ _ _ _ fun e q => by
    dsimp only [again]
    split <;> rfl
  exact (State.filed.landDue (State.filed_ite (h1.mapDev id) h1)).closeFences
theorem State.filed.detClock (h : s.filed) : s.detClock.filed :=
  State.filed_ite (State.filed.focus (State.filed.foldl (fun _ _ ht => (ht.focus _).clock) _ h) _) h
theorem State.takeTurn_filed {t} (h : s.filed) : FiledOut (s.takeTurn t) := by
  cases t with
  | seq n e => exact .ite (State.seqTurn_filed h) h
  | clock n => exact State.filed_ite h (State.filed_ite h.detClock h.clock)
  | event n i => exact .ite h (State.eventTurn_filed h)
  | softError n c a => exact h.softError ..
/-- The turn of a core that the module has. -/
theorem step_filed (h : s.filed) (hc : turnCore s.nextTurn < 128) : FiledOut (step s) := by
  rw [step_of_core hc]
  exact State.takeTurn_filed (h.begin _)
/-- Settles O58: every file and the numbers of the cores are one invariant, which each instruction, each turn and each step keeps. -/
theorem stepKeepsFiles : Obligations.StepKeepsFiles := by
  unfold Obligations.StepKeepsFiles
  intro s t hs h1 ht
  have hf : s.filed := s.filed_iff.2 ⟨hs, h1⟩
  by_cases hc : turnCore s.nextTurn < 128
  · have h := step_filed hf hc
    rw [ht] at h
    exact t.filed_iff.1 h
  · rw [step_of_noSuchCore (Nat.not_lt.1 hc)] at ht
    cases ht

end Sys2Proof.Machine
end

section
/-!
O1: the values of the integer, move and select words of CTL, as numbers.
-/
namespace Sys2Proof.Machine

/-! ### Values of the integer words as numbers -/

section
variable (x y : W64)

theorem add_eq_ofNat : x + y = BitVec.ofNat 64 (x.toNat + y.toNat) := BitVec.eq_of_toNat_eq (by simp)
theorem sub_eq_ofInt : x - y = BitVec.ofInt 64 (x.toNat - y.toNat) := by
  refine BitVec.eq_of_toNat_eq ?_
  rw [BitVec.toNat_sub, BitVec.toNat_ofInt]
  omega
theorem mul_eq_ofNat : x * y = BitVec.ofNat 64 (x.toNat * y.toNat) := BitVec.eq_of_toNat_eq (by simp)
theorem mulhWord_uu : mulhWord .uu x y = BitVec.ofNat 64 (x.toNat * y.toNat / 2 ^ 64) := by
  rw [← BitVec.ofInt_natCast]
  rfl
theorem shiftLeft_eq_ofNat (k : Nat) : x <<< k = BitVec.ofNat 64 (x.toNat * 2 ^ k) :=
  BitVec.eq_of_toNat_eq (by simp [Nat.shiftLeft_eq])
theorem shiftRight_eq_ofNat (k : Nat) : x >>> k = BitVec.ofNat 64 (x.toNat / 2 ^ k) := by
  refine BitVec.eq_of_toNat_eq ?_
  rw [BitVec.toNat_ushiftRight, Nat.shiftRight_eq_div_pow, BitVec.toNat_ofNat, Nat.mod_eq_of_lt]
  exact (Nat.div_le_self ..).trans_lt x.isLt
theorem sshiftRight_eq_ofInt (k : Nat) : x.sshiftRight k = BitVec.ofInt 64 (x.toInt / 2 ^ k) := by
  rw [BitVec.sshiftRight, Int.shiftRight_eq_div_pow]
  norm_cast
/-- The bits shifted out on the left come in on the right, where the shift left zeros: the two parts share no bit. -/
theorem rotateLeft_eq_ofNat {k : Nat} (hk : k < 64) : x.rotateLeft k = BitVec.ofNat 64 (x.toNat * 2 ^ k + x.toNat / 2 ^ (64 - k)) := by
  have hpow : 2 ^ (64 - k) * 2 ^ k = 2 ^ 64 := by rw [← pow_add, Nat.sub_add_cancel hk.le]
  have hhigh : x.toNat / 2 ^ (64 - k) < 2 ^ k := Nat.div_lt_of_lt_mul (hpow ▸ x.isLt)
  have hlow : x.toNat * 2 ^ k % 2 ^ 64 = (x.toNat % 2 ^ (64 - k)) * 2 ^ k := by rw [← hpow, Nat.mul_mod_mul_right]
  have hsum : (x.toNat % 2 ^ (64 - k)) * 2 ^ k + x.toNat / 2 ^ (64 - k) < 2 ^ 64 := by
    have hl : (x.toNat % 2 ^ (64 - k) + 1) * 2 ^ k ≤ 2 ^ (64 - k) * 2 ^ k := Nat.mul_le_mul_right _ (Nat.mod_lt _ (by positivity))
    rw [Nat.succ_mul, hpow] at hl
    exact (Nat.add_lt_add_left hhigh _).trans_le hl
  refine BitVec.eq_of_toNat_eq ?_
  rw [BitVec.toNat_rotateLeft, Nat.mod_eq_of_lt hk, BitVec.toNat_ofNat, Nat.shiftLeft_eq, Nat.shiftRight_eq_div_pow, hlow, ← Nat.shiftLeft_eq,
    ← Nat.shiftLeft_add_eq_or_of_lt hhigh, Nat.shiftLeft_eq, ← Nat.mod_eq_of_lt hsum, ← hlow, Nat.mod_add_mod]
theorem lea_eq_ofNat (k : Nat) : x + y <<< k = BitVec.ofNat 64 (x.toNat + y.toNat * 2 ^ k) := by
  rw [shiftLeft_eq_ofNat, add_eq_ofNat]
  exact BitVec.eq_of_toNat_eq (by simp)

/-! ### Orders and conditions (04 R64) -/

variable {x y}

theorem ltWord_s : ltWord .s x y = true ↔ x.toInt < y.toInt := BitVec.slt_iff_toInt_lt
theorem ltWord_u : ltWord .u x y = true ↔ x.toNat < y.toNat := BitVec.ult_iff_lt
/-- MIN takes s[a] where the two are equal, MAX op2. -/
theorem minWord_s : (if ltWord .s y x then y else x) = if x.toInt ≤ y.toInt then x else y := by
  simp only [ltWord_s, ← not_le, ite_not]
theorem minWord_u : (if ltWord .u y x then y else x) = if x.toNat ≤ y.toNat then x else y := by
  simp only [ltWord_u, ← not_le, ite_not]
theorem maxWord_s : (if ltWord .s x y then y else x) = if x.toInt ≤ y.toInt then y else x := by
  rcases lt_trichotomy x.toInt y.toInt with h | h | h
  · simp [ltWord_s, h, h.le]
  · simp [ltWord_s, BitVec.eq_of_toInt_eq h]
  · simp [ltWord_s, h.not_gt, h.not_ge]
theorem maxWord_u : (if ltWord .u x y then y else x) = if x.toNat ≤ y.toNat then y else x := by
  rcases lt_trichotomy x.toNat y.toNat with h | h | h
  · simp [ltWord_u, h, h.le]
  · simp [ltWord_u, BitVec.eq_of_toNat_eq h]
  · simp [ltWord_u, h.not_gt, h.not_ge]
theorem condHolds_eq : condHolds .eq x y = true ↔ x = y := beq_iff_eq
theorem condHolds_ne : condHolds .ne x y = true ↔ x ≠ y := bne_iff_ne
theorem condHolds_lt : condHolds .lt x y = true ↔ x.toInt < y.toInt := BitVec.slt_iff_toInt_lt
theorem condHolds_ge : condHolds .ge x y = true ↔ y.toInt ≤ x.toInt := BitVec.sle_iff_toInt_le
theorem condHolds_ltu : condHolds .ltu x y = true ↔ x.toNat < y.toNat := BitVec.ult_iff_lt
theorem condHolds_geu : condHolds .geu x y = true ↔ y.toNat ≤ x.toNat := BitVec.ule_iff_le
theorem condHolds_any : condHolds .any x y = true ↔ x &&& y ≠ 0 := bne_iff_ne
theorem condHolds_none : condHolds .none x y = true ↔ x &&& y = 0 := beq_iff_eq

/-! ### Counts and fields -/

theorem toNat_ne_zero (h : x ≠ 0) : x.toNat ≠ 0 := fun h0 => h (BitVec.eq_of_toNat_eq h0)
theorem log2_lt (h : x ≠ 0) : Nat.log2 x.toNat < 64 := (Nat.log2_lt (toNat_ne_zero h)).2 x.isLt
theorem clzNat_le : clzNat x ≤ 64 := by
  unfold clzNat
  split <;> omega
theorem clzNat_high : x.toNat < 2 ^ (64 - clzNat x) := by
  by_cases h : x = 0
  · simp [clzNat, h]
  · have hl := log2_lt h
    rw [clzNat, if_neg h, show 64 - (63 - Nat.log2 x.toNat) = Nat.log2 x.toNat + 1 by omega]
    exact Nat.lt_log2_self
theorem clzNat_bit (h : clzNat x < 64) : 2 ^ (63 - clzNat x) ≤ x.toNat := by
  have h0 : x ≠ 0 := fun h0 => by simp [clzNat, h0] at h
  have hl := log2_lt h0
  rw [clzNat, if_neg h0, show 63 - (63 - Nat.log2 x.toNat) = Nat.log2 x.toNat by omega]
  exact Nat.log2_self_le (toNat_ne_zero h0)
theorem popNat_eq : popNat x = (List.range 64).countP fun j => x.getLsbD j := (List.countP_eq_length_filter ..).symm

variable {pos w : Nat}

theorem lowOnes_getLsbD {j : Nat} (hj : j < 64) : (lowOnes w).getLsbD j = decide (j < w) := by
  rw [lowOnes, BitVec.getLsbD_ofNat, Nat.testBit_two_pow_sub_one, decide_eq_true hj, Bool.true_and]
theorem lowOnes_toNat (hw : w ≤ 64) : (lowOnes w).toNat = 2 ^ w - 1 := by
  have h : 2 ^ w ≤ 2 ^ 64 := Nat.pow_le_pow_right (by decide) hw
  have h1 : 0 < 2 ^ w := by positivity
  rw [lowOnes, BitVec.toNat_ofNat, Nat.mod_eq_of_lt (by omega)]
/-- The field of a word, as a number. -/
theorem field_toNat (hw : w ≤ 64) : ((x >>> pos) &&& lowOnes w).toNat = x.toNat / 2 ^ pos % 2 ^ w := by
  rw [BitVec.toNat_and, lowOnes_toNat hw, Nat.and_two_pow_sub_one_eq_mod, BitVec.toNat_ushiftRight, Nat.shiftRight_eq_div_pow]
theorem extrWord_u (hw : w ≤ 64) : extrWord .u x pos w = BitVec.ofNat 64 (x.toNat / 2 ^ pos % 2 ^ w) :=
  BitVec.eq_of_toNat_eq (by rw [← field_toNat hw, BitVec.ofNat_toNat, BitVec.setWidth_eq]; rfl)
/-- The top bit of a field is set where it is at least half the field's range. -/
theorem field_top (h1 : 1 ≤ w) (hw : w ≤ 64) :
    ((x >>> pos) &&& lowOnes w).getLsbD (w - 1) = true ↔ ¬x.toNat / 2 ^ pos % 2 ^ w < 2 ^ (w - 1) := by
  rw [← BitVec.testBit_toNat, field_toNat hw]
  generalize hf : x.toNat / 2 ^ pos % 2 ^ w = f
  have hpow : 2 ^ w = 2 ^ (w - 1) * 2 := by rw [← pow_succ, Nat.sub_add_cancel h1]
  have hlt : f < 2 ^ (w - 1) * 2 := by
    rw [← hpow, ← hf]
    exact Nat.mod_lt _ (by positivity)
  have hdiv : f / 2 ^ (w - 1) < 2 := Nat.div_lt_of_lt_mul hlt
  have hone : 1 ≤ f / 2 ^ (w - 1) ↔ 2 ^ (w - 1) ≤ f := by simp [Nat.le_div_iff_mul_le]
  rw [Nat.testBit_eq_decide_div_mod_eq, decide_eq_true_iff, not_lt, ← hone]
  generalize f / 2 ^ (w - 1) = d at hdiv ⊢
  omega
theorem extrWord_s (h1 : 1 ≤ w) (hw : w ≤ 64) : extrWord .s x pos w = BitVec.ofInt 64 (if x.toNat / 2 ^ pos % 2 ^ w < 2 ^ (w - 1)
    then ((x.toNat / 2 ^ pos % 2 ^ w : Nat) : Int) else ((x.toNat / 2 ^ pos % 2 ^ w : Nat) : Int) - 2 ^ w) := by
  have hv := field_toNat (x := x) (pos := pos) hw
  have htop := field_top (x := x) (pos := pos) h1 hw
  have hones := lowOnes_toNat hw
  have hpow : 2 ^ w ≤ 2 ^ 64 := Nat.pow_le_pow_right (by decide) hw
  have hpos : 0 < 2 ^ w := by positivity
  have hdis : (x >>> pos) &&& lowOnes w &&& ~~~ lowOnes w = 0 := by
    rw [BitVec.and_assoc, BitVec.and_not_self]
    exact BitVec.and_zero
  unfold extrWord
  rw [← hv] at htop ⊢
  generalize (x >>> pos) &&& lowOnes w = v at *
  dsimp only
  by_cases hb : v.getLsbD (w - 1) = true
  · rw [if_pos hb, if_neg (htop.1 hb), ← BitVec.add_eq_or_of_and_eq_zero _ _ hdis]
    refine BitVec.eq_of_toNat_eq ?_
    have hcast : (2 : Int) ^ w = ((2 ^ w : Nat) : Int) := by norm_cast
    rw [BitVec.toNat_add, BitVec.toNat_not, hones, BitVec.toNat_ofInt, hcast]
    generalize 2 ^ w = p at hpow hpos ⊢
    omega
  · rw [if_neg hb, if_pos (not_not.1 fun h => hb (htop.2 h)), BitVec.ofInt_natCast, BitVec.ofNat_toNat, BitVec.setWidth_eq]
theorem insrWord_getLsbD {j : Nat} (hw : pos + w ≤ 64) (hj : j < 64) : (insrWord y x pos w).getLsbD j =
    if pos ≤ j ∧ j < pos + w then x.getLsbD (j - pos) else y.getLsbD j := by
  have hsub : j - pos < 64 := by omega
  simp only [insrWord, BitVec.getLsbD_or, BitVec.getLsbD_and, BitVec.getLsbD_not, BitVec.getLsbD_shiftLeft, lowOnes_getLsbD hsub, hj,
    decide_true, Bool.true_and]
  by_cases hp : pos ≤ j
  · by_cases hin : j < pos + w
    · have : j - pos < w := by omega
      simp [hp, hin, this, Nat.not_lt.2 hp]
    · have : ¬j - pos < w := by omega
      simp [hin, this]
  · simp [hp, Nat.not_le.1 hp]

end
/-! ### The words -/

/-- A word of the form s[d] := f(s[a], op2) puts the value it computes. -/
theorem puts_of_alu {i : Instr} {s : State} {d a : SReg} {o : Op2} {v : W64} (f : W64 → W64 → W64) (hi : exec i s = s.alu d a o f)
    (h : s.settled (d :: a :: op2Regs o) = true) (hv : f (s.getS a) (s.op2 o) = v) : Puts i s d v :=
  hi.trans (hv ▸ State.alu_go h)
/-- A word that waits for its registers puts the value it computes. -/
theorem puts_of_withRegs {i : Instr} {s : State} {d : SReg} {rs qs : List SReg} {v : W64} (f : State → W64)
    (hi : exec i s = s.withRegs rs fun s => .next (s.putS d (f s))) (h : s.settled qs = true) (hsub : ∀ r ∈ rs, r ∈ qs) (hv : f s = v) :
    Puts i s d v := hi.trans (hv ▸ State.withRegs_go (State.settled_sub h hsub))

theorem min_puts {s : State} {d a : SReg} {o : Op2} {g : Sgn} {v : W64} (h : s.settled (d :: a :: op2Regs o) = true)
    (hv : (if ltWord g (s.op2 o) (s.getS a) then s.op2 o else s.getS a) = v) : Puts (.min g d a o) s d v :=
  puts_of_alu (fun x y => if ltWord g y x then y else x) rfl h hv
theorem max_puts {s : State} {d a : SReg} {o : Op2} {g : Sgn} {v : W64} (h : s.settled (d :: a :: op2Regs o) = true)
    (hv : (if ltWord g (s.getS a) (s.op2 o) then s.op2 o else s.getS a) = v) : Puts (.max g d a o) s d v :=
  puts_of_alu (fun x y => if ltWord g x y then y else x) rfl h hv
theorem extr_puts {s : State} {d a : SReg} {g : Sgn} {pos : BitVec 6} {w : BitVec 7} {qs : List SReg} {v : W64} (h : s.settled qs = true)
    (hsub : ∀ r ∈ [d, a], r ∈ qs) (hv : extrWord g (s.getS a) pos.toNat w.toNat = v) : Puts (.extr g d a pos w) s d v :=
  puts_of_withRegs (fun s => extrWord g (s.getS a) pos.toNat w.toNat) rfl h hsub hv

/-- Arithmetic, logic, shifts and address words. -/
theorem alu_results (s : State) (d a : SReg) (o : Op2) (sh : BitVec 6) (h : s.settled (d :: a :: op2Regs o) = true) :
    let x := s.getS a
    let y := s.op2 o
    let k := y.toNat % 64
    Puts (.add d a o) s d (BitVec.ofNat 64 (x.toNat + y.toNat)) ∧
    Puts (.sub d a o) s d (BitVec.ofInt 64 (x.toNat - y.toNat)) ∧
    Puts (.mul d a o) s d (BitVec.ofNat 64 (x.toNat * y.toNat)) ∧
    Puts (.mulh .ss d a o) s d (BitVec.ofInt 64 (x.toInt * y.toInt / 2 ^ 64)) ∧
    Puts (.mulh .uu d a o) s d (BitVec.ofNat 64 (x.toNat * y.toNat / 2 ^ 64)) ∧
    Puts (.mulh .su d a o) s d (BitVec.ofInt 64 (x.toInt * y.toNat / 2 ^ 64)) ∧
    Puts (.and d a o) s d (x &&& y) ∧ Puts (.or d a o) s d (x ||| y) ∧ Puts (.xor d a o) s d (x ^^^ y) ∧ Puts (.andn d a o) s d (x &&& ~~~y) ∧
    Puts (.shl d a o) s d (BitVec.ofNat 64 (x.toNat * 2 ^ k)) ∧
    Puts (.shr d a o) s d (BitVec.ofNat 64 (x.toNat / 2 ^ k)) ∧
    Puts (.sra d a o) s d (BitVec.ofInt 64 (x.toInt / 2 ^ k)) ∧
    Puts (.rotl d a o) s d (BitVec.ofNat 64 (x.toNat * 2 ^ k + x.toNat / 2 ^ (64 - k))) ∧
    Puts (.min .s d a o) s d (if x.toInt ≤ y.toInt then x else y) ∧ Puts (.min .u d a o) s d (if x.toNat ≤ y.toNat then x else y) ∧
    Puts (.max .s d a o) s d (if x.toInt ≤ y.toInt then y else x) ∧ Puts (.max .u d a o) s d (if x.toNat ≤ y.toNat then y else x) ∧
    Puts (.lea d a o sh) s d (BitVec.ofNat 64 (x.toNat + y.toNat * 2 ^ sh.toNat)) := by
  exact ⟨puts_of_alu (· + ·) rfl h (add_eq_ofNat ..), puts_of_alu (· - ·) rfl h (sub_eq_ofInt ..), puts_of_alu (· * ·) rfl h (mul_eq_ofNat ..),
    puts_of_alu (mulhWord .ss) rfl h rfl, puts_of_alu (mulhWord .uu) rfl h (mulhWord_uu ..), puts_of_alu (mulhWord .su) rfl h rfl,
    puts_of_alu (· &&& ·) rfl h rfl, puts_of_alu (· ||| ·) rfl h rfl, puts_of_alu (· ^^^ ·) rfl h rfl, puts_of_alu (fun x y => x &&& ~~~y) rfl h rfl,
    puts_of_alu (fun x y => x <<< shAmt y) rfl h (shiftLeft_eq_ofNat ..), puts_of_alu (fun x y => x >>> shAmt y) rfl h (shiftRight_eq_ofNat ..),
    puts_of_alu (fun x y => x.sshiftRight (shAmt y)) rfl h (sshiftRight_eq_ofInt ..),
    puts_of_alu (fun x y => x.rotateLeft (shAmt y)) rfl h (rotateLeft_eq_ofNat _ (Nat.mod_lt _ (by decide))),
    min_puts h minWord_s, min_puts h minWord_u, max_puts h maxWord_s, max_puts h maxWord_u,
    puts_of_alu (fun x y => x + y <<< sh.toNat) rfl h (lea_eq_ofNat ..)⟩
/-- SETC puts one where the condition of 04 R64 holds, else zero. -/
theorem setc_puts {s : State} {d a : SReg} {o : Op2} {c : Cond} {p : Prop} [Decidable p] (h : s.settled (d :: a :: op2Regs o) = true)
    (hc : condHolds c (s.getS a) (s.op2 o) = true ↔ p) : Puts (.setc c d a o) s d (if p then 1 else 0) := by
  refine puts_of_alu (fun x y => if condHolds c x y then 1 else 0) rfl h ?_
  simp only [hc]
/-- Settles O1: each word puts its value once its registers are settled, and the value is the number the rule names. -/
theorem ctlIntegerResults : Obligations.CtlIntegerResults := by
  unfold Obligations.CtlIntegerResults
  refine ⟨alu_results, fun s d a c o v pos w h h1 hw => ?_⟩
  have ha : s.settled (d :: a :: op2Regs o) = true := State.settled_sub h fun r hr => by
    simp only [List.mem_cons] at hr ⊢
    tauto
  have sub1 : ∀ r ∈ [d], r ∈ d :: a :: op2Regs o := fun r hr => by simp_all
  have sub2 : ∀ r ∈ [d, a], r ∈ d :: a :: op2Regs o := fun r hr => by
    simp only [List.mem_cons, List.not_mem_nil, or_false] at hr ⊢
    tauto
  have hw64 : w.toNat ≤ 64 := by omega
  exact ⟨⟨clzNat (s.getS a), puts_of_withRegs (fun s => BitVec.ofNat 64 (clzNat (s.getS a))) rfl ha sub2 rfl, clzNat_high, clzNat_le, clzNat_bit⟩,
    puts_of_withRegs (fun s => BitVec.ofNat 64 (popNat (s.getS a))) rfl ha sub2 (congrArg (BitVec.ofNat 64) popNat_eq),
    setc_puts ha condHolds_eq, setc_puts ha condHolds_ne, setc_puts ha condHolds_lt, setc_puts ha condHolds_ge, setc_puts ha condHolds_ltu,
    setc_puts ha condHolds_geu, setc_puts ha condHolds_any, setc_puts ha condHolds_none,
    puts_of_withRegs (fun s => if s.getS c ≠ 0 then s.getS a else s.op2 o) rfl h (fun _ hr => hr) rfl,
    puts_of_withRegs (fun _ => v) rfl ha sub1 rfl, puts_of_withRegs (fun s => s.getS a) rfl ha sub2 rfl,
    extr_puts ha sub2 (extrWord_u hw64), extr_puts ha sub2 (extrWord_s h1 hw64), insrWord (s.getS d) (s.getS a) pos.toNat w.toNat,
    puts_of_withRegs (fun s => insrWord (s.getS d) (s.getS a) pos.toNat w.toNat) rfl ha sub2 rfl, fun j hj => insrWord_getLsbD hw hj⟩

end Sys2Proof.Machine
end

section
/-!
What the words of this family share: where a sequencer's walk stands after a word, words for several sequencers (04 R57, R58), and the states that differ from one another in the marks of a running word alone (03 R46).
-/
namespace Sys2Proof.Machine

/-! ### Where a walk stands after a word (04 R58, R62) -/

section
variable (q : Seq)

@[simp] theorem Seq.advance_detached : q.advance.detached = q.detached := by unfold Seq.advance; split <;> rfl
@[simp] theorem Seq.advance_skip : q.advance.skip = q.skip := by unfold Seq.advance; split <;> rfl
@[simp] theorem Seq.advance_ctlq : q.advance.ctlq = q.ctlq := by unfold Seq.advance; split <;> rfl
@[simp] theorem Seq.advance_rotsz : q.advance.rotsz = q.rotsz := by unfold Seq.advance; split <;> rfl
@[simp] theorem Seq.advance_rbase : q.advance.rbase = q.rbase := by unfold Seq.advance; split <;> rfl

end

section
variable {s : State}

@[simp] theorem State.mapSeq_seq (f : Seq → Seq) : (s.mapSeq s.who f).seq = f s.seq := PerEng.get_set ..
@[simp] theorem State.complete_seq (n : Nat) : (s.complete n).seq = { s.seq.advance with due := s.core.clockOf s.who + n } := PerEng.get_set ..
theorem sameBytes_of_eq {t : State} (hm : t.mem = s.mem) (hs : t.spad = s.spad) : SameBytes s t :=
  ⟨fun _ => by rw [hm], fun _ => by rw [hs]⟩

/-! ### Words for several sequencers (04 R57, R58) -/

variable {m : EMask} {b : Bool} {ctl other : State → Out}

theorem State.mulWord_ctl (h : s.who = .ctl) : s.mulWord m b ctl other = ctl s := if_pos h
theorem State.mulWord_follower (h : s.who ≠ .ctl) (hm : inMask m s.who = true) : s.mulWord m b ctl other = other s :=
  (if_neg h).trans (if_pos hm)
theorem State.mulWord_skipped (h : s.who ≠ .ctl) (hm : inMask m s.who = false) : s.mulWord m b ctl other = .next (s.skipMul b) :=
  (if_neg h).trans (if_neg (by simp [hm]))

/-- A word that is the same at CTL and at every masked sequencer. -/
theorem State.mulWord_meets {go : State → Out} (h : s.who = .ctl ∨ inMask m s.who = true) : s.mulWord m b go go = go s := by
  by_cases hc : s.who = .ctl
  · exact State.mulWord_ctl hc
  · exact State.mulWord_follower hc (h.resolve_left hc)
end
end Sys2Proof.Machine
namespace Sys2Proof.Machine

/-! ### The running word on its way: what its await, its operand and its pops change (03 R46; 07 R143) -/

/-- A walk but for its marks of a done await and of a resolved operand. -/
def Seq.Like (q r : Seq) : Prop := ∃ b d, r = { q with awd := b, dec := d }
/-- A state but for a flag's count, the cycle's awaits, the tile queues and the marks of the walks. -/
def State.Like (s u : State) : Prop := ∃ f m ws qs, u = { s with core := { s.core with f := f, took := m, seqs := ws, queues := qs } } ∧
  ∀ e, (s.core.seqs.get e).Like (ws.get e)

section
variable {s u : State} (h : s.Like u)

theorem Seq.Like.rfl {q : Seq} : q.Like q := ⟨_, _, Eq.refl q⟩
/-- Marks of the running sequencer alone. -/
theorem walksLike_set {ws : PerEng Seq} {w : Eng} {r : Seq} (hr : (ws.get w).Like r) (e : Eng) : (ws.get e).Like ((ws.set w r).get e) := by
  by_cases he : e = w
  · rw [he, PerEng.get_set]
    exact hr
  · rw [PerEng.get_set_ne _ _ he]
    exact .rfl
theorem State.Like.rfl : s.Like s := ⟨_, _, _, _, Eq.refl s, fun _ => .rfl⟩
theorem State.Like.awaited {tl : Tail} : s.Like (s.awaited tl) := by
  unfold State.awaited
  split
  · exact .rfl
  · split
    · exact .rfl
    · exact ⟨_, _, _, _, Eq.refl _, walksLike_set ⟨true, _, Eq.refl _⟩⟩
include h

theorem State.Like.resolved {o : Operand} : s.Like (u.resolved o) := by
  obtain ⟨f, m, ws, qs, rfl, hws⟩ := h
  refine ⟨f, m, _, qs, Eq.refl _, fun e => ?_⟩
  obtain ⟨b, d, hb⟩ := hws e
  by_cases he : e = s.who
  · subst he
    exact ⟨b, .operand o, by rw [PerEng.get_set, hb]⟩
  · exact ⟨b, d, by rw [PerEng.get_set_ne _ _ he, hb]⟩
theorem State.Like.setQueue {q : QNo} {r : List Tile} : s.Like (u.mapCore fun c => c.setQueue q r) := by
  obtain ⟨f, m, ws, qs, rfl, hws⟩ := h
  exact ⟨f, m, ws, _, Eq.refl _, hws⟩

theorem State.Like.cur : u.cur = s.cur := by obtain ⟨f, m, ws, qs, rfl, -⟩ := h; rfl
theorem State.Like.cnum : u.cnum = s.cnum := by obtain ⟨f, m, ws, qs, rfl, -⟩ := h; rfl
theorem State.Like.who : u.who = s.who := by obtain ⟨f, m, ws, qs, rfl, -⟩ := h; rfl
theorem State.Like.flights : u.core.flights = s.core.flights := by obtain ⟨f, m, ws, qs, rfl, -⟩ := h; rfl
theorem State.Like.banks : u.core.banks = s.core.banks := by obtain ⟨f, m, ws, qs, rfl, -⟩ := h; rfl
theorem State.Like.carries : u.core.carries = s.core.carries := by obtain ⟨f, m, ws, qs, rfl, -⟩ := h; rfl
theorem State.Like.claimed : u.core.claimed = s.core.claimed := by obtain ⟨f, m, ws, qs, rfl, -⟩ := h; rfl
theorem State.Like.interlocked : u.core.interlocked = s.core.interlocked := by obtain ⟨f, m, ws, qs, rfl, -⟩ := h; rfl
theorem State.Like.nantAt (pos slot : Nat) : u.core.nantAt pos slot = s.core.nantAt pos slot := by obtain ⟨f, m, ws, qs, rfl, -⟩ := h; rfl
theorem State.Like.passed (pos slot : Nat) (e : Eng) : u.core.passed pos slot e = s.core.passed pos slot e := by
  obtain ⟨f, m, ws, qs, rfl, hws⟩ := h
  obtain ⟨b, d, hb⟩ := hws e
  simp only [Core.passed, hb]
theorem State.Like.ctlPassed (pos slot : Nat) : u.core.ctlPassed pos slot = s.core.ctlPassed pos slot := by
  obtain ⟨f, m, ws, qs, rfl, hws⟩ := h
  obtain ⟨b, d, hb⟩ := hws .ctl
  have hctl : ws.ctl = { s.core.seqs.ctl with awd := b, dec := d } := hb
  simp only [Core.ctlPassed, hctl]
theorem State.Like.pathsOpen : u.pathsOpen = s.pathsOpen := by
  have hall (pos slot : Nat) : u.core.allPassed pos slot = s.core.allPassed pos slot := congrArg engs.all (funext fun e => h.passed pos slot e)
  simp only [State.pathsOpen, Core.pathOpen, hall]
  obtain ⟨f, m, ws, qs, rfl, -⟩ := h
  rfl
theorem State.Like.bad (n : Nat) : (u.coreAt n).bad = (s.coreAt n).bad := by
  obtain ⟨f, m, ws, qs, rfl, -⟩ := h
  unfold State.coreAt
  dsimp only
  split
  · rfl
  · rfl
theorem State.Like.badSpad (k n : Nat) : u.badSpad k n = s.badSpad k n := by
  unfold State.badSpad
  rw [h.bad]

/-- A word that issues its result in such a state issues it at the end of those in flight. -/
theorem issues_of_matIssue {i : Instr} {f : Flight} {n : Nat} (hgo : exec i s = u.matIssue f n) : ∃ t, Issues i s t s.core.flights f := by
  obtain ⟨k, m, ws, qs, rfl, -⟩ := h
  exact ⟨_, hgo, ⟨_, rfl⟩, sameBytes_of_eq rfl rfl, rfl, rfl, rfl, rfl⟩

end

/-! ### Gates of MAT words that hold nothing (13 R236, R237) -/

section
variable {s : State} {k : State → Out}

theorem State.matWord_go {tl : Tail} {banks carries : List BankNo} (ha : s.awaits tl = true) (hr : (s.awaited tl).matReady banks carries) :
    s.matWord tl banks carries k = k (s.awaited tl) := by
  obtain ⟨hfl, hbusy, hz, -, -, -⟩ := hr
  have hfull : ¬(decide (7 ≤ (s.awaited tl).core.inFlight .mat) || (s.awaited tl).core.arrayBusy) = true := by simp [hbusy, hfl]
  rw [State.matWord, State.withAwait_go ha]
  exact (if_neg hfull).trans (if_neg (ne_true_of_eq_false hz))
theorem State.matReady.det {banks carries : List BankNo} (h : s.matReady banks carries) : s.core.det = false := by
  obtain ⟨-, -, -, hdet, -, -⟩ := h
  exact hdet
theorem State.matReady.goodQueues {banks carries : List BankNo} (h : s.matReady banks carries) : s.good 1 = true := by
  obtain ⟨-, -, -, -, hq, -⟩ := h
  exact hq
theorem State.matReady.goodBanks {banks carries : List BankNo} (h : s.matReady banks carries) : s.good 3 = true := by
  obtain ⟨-, -, -, -, -, hb⟩ := h
  exact hb
theorem State.withNant_go {g : Bool → State → Out} (h : s.core.ctlPassed s.cur.pos s.cur.slot = true) :
    s.withNant g = g (s.core.nantAt s.cur.pos s.cur.slot) s := if_pos h
theorem State.withFoot_go {r w : List Nat} (hd : s.core.det = false) : s.withFoot r w k = k s := by
  have hfoot (f : Footprint) : s.openFoot f = .ok s := if_pos (by simp [hd])
  rw [State.withFoot, hfoot]
theorem State.withBanks_go {bs cs : List BankNo} (hg : s.good 3 = true) : s.withBanks bs cs k = k s := State.withGood_go hg

end
end Sys2Proof.Machine
end

section
/-!
O28: transfers that a mask leaves out, NOP and ROTSET (04 R58, R65, R73).
-/
namespace Sys2Proof.Machine

section
variable {s : State}

/-- What a skipped transfer leaves: the sequencer stands at the next word, detached, and remembers the position it was detached at. -/
theorem State.skipMul_transfer : (s.skipMul true).seq.pc = s.seq.pc + 16 ∧ (s.skipMul true).seq.detached = true ∧
    (s.seq.detached = false → (s.skipMul true).seq.skip = s.seq.pos) ∧ (s.skipMul true).seq.ctlq = s.seq.ctlq := by
  rw [State.skipMul, State.mapSeq_seq]
  cases hd : s.seq.detached <;> simp [hd, Seq.advance_pc]
/-- A skipped word that is no transfer. -/
theorem State.skipMul_plain : (s.skipMul false).seq = s.seq.advance := State.mapSeq_seq _
/-- A transfer whose mask leaves the sequencer out falls through to the next word. -/
theorem falls_of_mulWord {i : Instr} {m : EMask} {ctl other : State → Out} (hi : exec i s = s.mulWord m true ctl other) (hw : s.who ≠ .ctl)
    (hm : inMask m s.who = false) : ∃ t, Goes i s t ∧ t.seq.pc = s.seq.pc + 16 ∧ t.seq.detached = true ∧
      (s.seq.detached = false → t.seq.skip = s.seq.pos) ∧ t.seq.ctlq = s.seq.ctlq ∧ SameBytes s t := by
  obtain ⟨hpc, hd, hskip, hq⟩ := s.skipMul_transfer
  exact ⟨s.skipMul true, hi.trans (State.mulWord_skipped hw hm), hpc, hd, hskip, hq, sameBytes_of_eq rfl rfl⟩
/-- A detached sequencer that waits at a block CTL has visited since takes up the position CTL visited it at. -/
theorem reattach_goes {e : Eng} {p : Nat} (hd : (s.core.seqs.get e).detached = true) (hn : (s.core.seqs.get e).ended = false)
    (hw : (s.core.seqs.get e).wait.isSome = true) (hp : s.core.rejoin (s.core.seqs.get e) = some p) :
    Goes (.evSeqReattach e) s
      (s.mapSeq e fun q => { q with detached := false, pos := p, entered := true, wait := none, tried := false }) := by
  change execEvSeqReattach e s = _
  simp only [execEvSeqReattach, hp, hd, hn, hw, Bool.not_false, Bool.and_self, if_true]
/-- What ROTSET does where its mask holds the sequencer, and at CTL. -/
theorem rotset_goes {m : EMask} (n : W32) (h : s.who = .ctl ∨ inMask m s.who = true) :
    Goes (.rotset m n) s ((s.mapSeq s.who fun q => { q with rotsz := n.setWidth 5, rbase := 0 }).complete 1) :=
  (execRotset.eq_def ..).trans (State.mulWord_meets h)
/-- Settles O28: outside its mask a transfer falls through and detaches, ROTSET and NOP are passed over; inside it they count as they say. -/
theorem transfersSkipped : Obligations.TransfersSkipped := by
  unfold Obligations.TransfersSkipped
  constructor
  · intro s m c l sa sb rot tgt imm n e p hw hm
    refine ⟨falls_of_mulWord (execBr.eq_def ..) hw hm, falls_of_mulWord (execJmp.eq_def ..) hw hm, falls_of_mulWord (execJmpIndirect.eq_def ..) hw hm,
      falls_of_mulWord (execCall.eq_def ..) hw hm, falls_of_mulWord (execRet.eq_def ..) hw hm, falls_of_mulWord (execLoop.eq_def ..) hw hm,
      falls_of_mulWord (execBrk.eq_def ..) hw hm, ⟨s.skipMul false, (execRotset.eq_def ..).trans (State.mulWord_skipped hw hm), ?_⟩, if_neg (by simp [hm]), fun hd hn hwt hp => ⟨_, reattach_goes hd hn hwt hp, ?_⟩⟩
    · simp [State.skipMul_plain, Seq.advance_pc]
    · simp
  · intro s m n h
    refine ⟨fun hm => if_pos hm, _, rotset_goes n h, ?_⟩
    rw [State.complete_seq, State.mapSeq_who, State.mapSeq_seq]
    exact ⟨by simp, by simp, by simp [Seq.advance_pc], rfl, rfl, sameBytes_of_eq rfl rfl, fun e he => by simp [PerEng.get_set_ne _ _ he]⟩

end
end Sys2Proof.Machine
end

section
/-!
O27: the transfers of CTL, what they hand to the followers, and where these go (04 R62 to R72).
-/
namespace Sys2Proof.Machine

/-! ### Transfers: where the running sequencer goes (04 R62) -/

section
variable {s t : State} {f : Seq → Seq}

@[simp] theorem Core.noteExit_seqs (c : Core) (pos slot : Nat) : (c.noteExit pos slot).seqs = c.seqs := by
  unfold Core.noteExit
  split <;> rfl
theorem State.follow_seqs : (s.follow f).core.seqs = s.core.seqs.set s.who { f s.seq with due := s.core.clockOf s.who + 1 } :=
  Core.noteExit_seqs ..
@[simp] theorem State.follow_seq : (s.follow f).seq = { f s.seq with due := s.core.clockOf s.who + 1 } := by
  rw [State.seq, State.follow_seqs]
  exact PerEng.get_set ..
theorem State.follow_ctl {q : Seq} (hw : s.who = .ctl) (hq : s.core.seqs.ctl = q) :
    (s.follow f).core.seqs.ctl = { f q with due := s.core.cycle.toNat + 1 } := by
  rw [State.follow_seqs, State.seq, hw, ← hq]
  rfl
theorem complete_ctl_pc {q : Seq} (hw : s.who = .ctl) (hq : s.core.seqs.ctl = q) {n : Nat} : (s.complete n).core.seqs.ctl.pc = q.pc + 16 := by
  rw [State.complete_core, State.seq, hw, ← hq]
  exact Seq.advance_pc _
theorem complete_ctl_lidx {q : Seq} (hw : s.who = .ctl) (hq : s.core.seqs.ctl = q) {n : Nat} :
    (s.complete n).core.seqs.ctl.lidx = q.lidx := by
  rw [State.complete_core, State.seq, hw, ← hq]
  exact Seq.advance_lidx _
/-- CTL stands at a block, one position on. -/
def StandsAt (blk : Nat) (s t : State) : Prop := t.core.seqs.ctl.pc = blk * 64 ∧ t.core.seqs.ctl.pos = s.core.seqs.ctl.pos + 1 ∧
  t.core.seqs.ctl.entered = false ∧ t.core.seqs.ctl.due = s.core.cycle.toNat + 1
theorem standsAt_follow {blk : Nat} (hw : t.who = .ctl) (hq : t.core.seqs.ctl = s.core.seqs.ctl) (hc : t.core.cycle = s.core.cycle)
    (hf : (f s.core.seqs.ctl).pc = blk * 64 ∧ (f s.core.seqs.ctl).pos = s.core.seqs.ctl.pos + 1 ∧ (f s.core.seqs.ctl).entered = false) :
    StandsAt blk s (t.follow f) := by
  rw [StandsAt, State.follow_ctl hw hq, hc]
  exact ⟨hf.1, hf.2.1, hf.2.2, rfl⟩

/-! ### What CTL hands to its followers (04 R66) -/

variable {m : EMask} {x : CtlEntry} {xs : List CtlEntry} {k : State → Out}

/-- Every control queue that the mask names holds these entries more, and every other one is as it was. -/
def Handed (m : EMask) (xs : List CtlEntry) (s t : State) : Prop :=
  ∀ e, e ≠ .ctl → (t.core.seqs.get e).ctlq = (s.core.seqs.get e).ctlq ++ if inMask m e then xs else []

theorem Handed.nil : Handed m [] s s := fun e _ => by split <;> exact (List.append_nil _).symm
theorem Handed.pushCtl : Handed m [x] s (s.pushCtl m x) := fun e he => by
  cases hm : inMask m e <;> simp [State.pushCtl, hm, he]
theorem Handed.mapView {g : View → View} (h : Handed m xs s t) : Handed m xs s (t.mapView m g) := h
theorem Handed.follow (h : Handed m xs s t) (hw : t.who = .ctl) : Handed m xs s (t.follow f) := fun e he => by
  rw [State.follow_seqs, PerEng.get_set_ne _ _ (by rwa [hw]), h e he]
theorem Handed.complete (h : Handed m xs s t) (hw : t.who = .ctl) (n : Nat) : Handed m xs s (t.complete n) := fun e he => by
  rw [State.complete_core, PerEng.get_set_ne _ _ (by rwa [hw]), h e he]
theorem State.pushing_go (h : s.queuesRoom m = true) : s.pushing m x k = k (s.pushCtl m x) := if_pos h
theorem State.popping_nil {g : CtlEntry → State → Out} (h : s.seq.ctlq = []) : s.popping g = .next (s.waiting .external) := by
  rw [State.popping, h]
theorem State.popping_cons {g : CtlEntry → State → Out} {r : List CtlEntry} (h : s.seq.ctlq = x :: r) :
    s.popping g = g x (s.mapSeq s.who fun q => { q with ctlq := r }) := by
  rw [State.popping, h]

end

/-! ### Loops that LOOP opens and BREAK leaves (04 R69 to R71) -/

section
variable (m : EMask) (l : Fin 6) (rot : Bool) (tgt n : W32)

/-- The trips a LOOP runs: the register's, or the immediate where none is named. -/
def tripsOf (s : State) (sa : SReg) (imm : W32) : W32 := if sa = 0 then imm else (s.getS sa).setWidth 32
/-- Where LOOP takes a sequencer with n trips: past the loop where there is none, else into its body with the loop on its list. -/
def loopInto (q : Seq) : Seq :=
  if n = 0 then { q with lidx := q.lidx.set l.val 0 }.jump tgt.toNat
  else { { q with lidx := q.lidx.set l.val 0 }.jump (blkOf q.pc + 1) with
    loops := { lvl := l, n := n, start := blkOf q.pc + 1, exit := tgt.toNat, depth := q.rstack.length, rot := rot } :: q.loops }
/-- The view of the masked sequencers once LOOP has passed CTL. -/
def loopViewed (u : State) : State :=
  if n = 0 then u
  else u.mapView m fun w =>
    { w with loops := { lvl := l, n := n, start := blkOf u.seq.pc + 1, exit := tgt.toNat, depth := w.depth, rot := rot } :: w.loops }

theorem loopViewed_who (u : State) : (loopViewed m l rot tgt n u).who = u.who := by unfold loopViewed; split <;> rfl
theorem loopViewed_seqs (u : State) : (loopViewed m l rot tgt n u).core.seqs = u.core.seqs := by unfold loopViewed; split <;> rfl
theorem loopViewed_cycle (u : State) : (loopViewed m l rot tgt n u).core.cycle = u.core.cycle := by unfold loopViewed; split <;> rfl

variable {l rot tgt n} {q : Seq}

theorem loopInto_past (hn : n = 0) : (loopInto l rot tgt n q).pc = tgt.toNat * 64 ∧ (loopInto l rot tgt n q).pos = q.pos + 1 ∧
    (loopInto l rot tgt n q).entered = false := by
  rw [loopInto, if_pos hn]
  exact ⟨rfl, rfl, rfl⟩
theorem loopInto_body (hn : n ≠ 0) : (loopInto l rot tgt n q).pc = (q.pc / 64 + 1) * 64 ∧ (loopInto l rot tgt n q).pos = q.pos + 1 ∧
    (loopInto l rot tgt n q).entered = false := by
  rw [loopInto, if_neg hn]
  exact ⟨rfl, rfl, rfl⟩
theorem loopInto_loops (hn : n ≠ 0) : (loopInto l rot tgt n q).loops =
    { lvl := l, n := n, start := q.pc / 64 + 1, exit := tgt.toNat, depth := q.rstack.length, rot := rot } :: q.loops := by
  rw [loopInto, if_neg hn]
  rfl
theorem loopInto_lidx : (loopInto l rot tgt n q).lidx = q.lidx.set l.val 0 := by
  unfold loopInto
  split <;> rfl

theorem loopInto_ctlq : (loopInto l rot tgt n q).ctlq = q.ctlq := by
  unfold loopInto
  split <;> rfl

/-- The loops BREAK leaves active: those of the target's block that are not inside the loop it leaves. -/
def brkLeft (l : Fin 6) (tgt : W32) (ls : List LoopRec) : List LoopRec :=
  match loopAt ls l with
  | some r => keepLoops (breakLoops ls r) tgt.toNat
  | none => keepLoops ls tgt.toNat
/-- Where BREAK takes the running sequencer. -/
def brkOut (l : Fin 6) (tgt : W32) (taken : Bool) (u : State) : State :=
  if taken then u.follow fun q => { q.jump tgt.toNat with loops := brkLeft l tgt q.loops } else u.complete 1
/-- The view of the masked sequencers once BREAK has passed CTL. -/
def brkViewed (m : EMask) (l : Fin 6) (tgt : W32) (taken : Bool) (u : State) : State :=
  if taken then u.mapView m fun v => { v with loops := brkLeft l tgt v.loops } else u

end

/-! ### The transfers of CTL (04 R62 to R72) -/

section
variable {s : State} {m : EMask} {c : Cond} {l : Fin 6} {sa sb : SReg} {rot : Bool} {tgt imm : W32} (hw : s.who = .ctl)
  (hset : s.settled [sa, sb] = true) (hroom : s.queuesRoom m = true) (hlen : tgt.toNat < s.tlen)
include hw

theorem ret_goes {b : Nat} {r : List Nat} (hr : s.core.seqs.ctl.rstack = b :: r) (hb : b < s.tlen)
    (hd : ((followers m).all fun e => (s.core.view.get e).depth != 0) = true) :
    Goes (.ret m) s ((s.mapView m fun v => { loops := v.loops.filter fun l => decide (l.depth ≤ v.depth - 1), depth := v.depth - 1 }).follow
      fun q => { q.jump b with rstack := r, loops := q.loops.filter fun l => decide (l.depth ≤ r.length) }) := by
  have hseq : s.seq.rstack = b :: r := by
    rw [State.seq, hw]
    exact hr
  have hdeep : ¬((followers m).any fun e => (s.core.view.get e).depth == 0) = true := by simpa using hd
  change execRet m s = _
  simp only [execRet, State.mulWord_ctl hw, hseq, if_neg hdeep, if_neg (Nat.not_le.2 hb)]
theorem ret_ctl {b : Nat} {r : List Nat} (hr : s.core.seqs.ctl.rstack = b :: r) (hb : b < s.tlen)
    (hd : ((followers m).all fun e => (s.core.view.get e).depth != 0) = true) :
    ∃ t, Goes (.ret m) s t ∧ Handed m [] s t ∧ StandsAt b s t ∧ t.core.seqs.ctl.rstack = r :=
  ⟨_, ret_goes hw hr hb hd, Handed.nil.mapView.follow hw, standsAt_follow hw rfl rfl ⟨rfl, rfl, rfl⟩,
    congrArg Seq.rstack (State.follow_ctl (s := s.mapView m _) hw rfl)⟩

theorem jmpIndirect_goes (hroom : s.queuesRoom m = true) (hset : s.settled [sa] = true) (ha : (s.getS sa).toNat % 64 = 0) (hl : (s.getS sa).toNat / 64 < s.tlen) :
    Goes (.jmpIndirect m sa) s
    (((s.pushCtl m (.target ((s.getS sa).toNat / 64))).mapView m fun v => { v with loops := keepLoops v.loops ((s.getS sa).toNat / 64) }).jumpTo
      ((s.getS sa).toNat / 64)) := by
  change execJmpIndirect m sa s = _
  simp only [execJmpIndirect, State.mulWord_ctl hw, State.withRegs_go hset, State.pushing_go hroom, ha, ne_eq, not_true, false_or,
    if_neg (Nat.not_le.2 hl)]
theorem jmpIndirect_ctl (hroom : s.queuesRoom m = true) (hset : s.settled [sa] = true) (ha : (s.getS sa).toNat % 64 = 0) (hl : (s.getS sa).toNat / 64 < s.tlen) :
    ∃ t, Goes (.jmpIndirect m sa) s t ∧ Handed m [.target ((s.getS sa).toNat / 64)] s t ∧ StandsAt ((s.getS sa).toNat / 64) s t :=
  ⟨_, jmpIndirect_goes hw hroom hset ha hl, Handed.pushCtl.mapView.follow hw, standsAt_follow hw rfl rfl ⟨rfl, rfl, rfl⟩⟩

include hlen

theorem jmp_goes : Goes (.jmp m tgt) s ((s.mapView m fun v => { v with loops := keepLoops v.loops tgt.toNat }).jumpTo tgt.toNat) := by
  change execJmp m tgt s = _
  simp only [execJmp, State.mulWord_ctl hw, if_neg (Nat.not_le.2 hlen)]
theorem jmp_ctl : ∃ t, Goes (.jmp m tgt) s t ∧ Handed m [] s t ∧ StandsAt tgt.toNat s t ∧
    t.core.seqs.ctl.loops = s.core.seqs.ctl.loops.filter fun x => x.has tgt.toNat :=
  ⟨_, jmp_goes hw hlen, Handed.nil.mapView.follow hw, standsAt_follow hw rfl rfl ⟨rfl, rfl, rfl⟩,
    congrArg Seq.loops (State.follow_ctl (s := s.mapView m _) hw rfl)⟩

theorem call_goes (h3 : s.cur.slot = 3) (hd : ((followers m).all fun e => decide ((s.core.view.get e).depth < 16)) = true) :
    Goes (.call m tgt) s ((s.mapView m fun v => { v with depth := v.depth + 1 }).follow
      fun q => { q.jump tgt.toNat with rstack := (blkOf q.pc + 1) :: q.rstack }) := by
  have hdeep : ¬(s.cur.slot ≠ 3 ∨ (followers m).any (fun e => decide (16 ≤ (s.core.view.get e).depth)) = true) := by
    simpa [h3] using hd
  change execCall m tgt s = _
  simp only [execCall, State.mulWord_ctl hw, if_neg hdeep, if_neg (Nat.not_le.2 hlen)]
theorem call_ctl (h3 : s.cur.slot = 3) (hd : ((followers m).all fun e => decide ((s.core.view.get e).depth < 16)) = true) :
    ∃ t, Goes (.call m tgt) s t ∧ Handed m [] s t ∧ StandsAt tgt.toNat s t ∧
      t.core.seqs.ctl.rstack = (s.core.seqs.ctl.pc / 64 + 1) :: s.core.seqs.ctl.rstack :=
  ⟨_, call_goes hw hlen h3 hd, Handed.nil.mapView.follow hw, standsAt_follow hw rfl rfl ⟨rfl, rfl, rfl⟩,
    congrArg Seq.rstack (State.follow_ctl (s := s.mapView m _) hw rfl)⟩

include hset hroom

theorem br_taken (hc : condHolds c (s.getS sa) (s.getS sb) = true) : Goes (.br m c sa sb tgt) s
    (((s.pushCtl m (.outcome true)).mapView m fun v => { v with loops := keepLoops v.loops tgt.toNat }).follow
      fun q => { q.jump tgt.toNat with loops := keepLoops q.loops tgt.toNat }) := by
  change execBr m c sa sb tgt s = _
  simp only [execBr, State.mulWord_ctl hw, State.withRegs_go hset, if_neg (Nat.not_le.2 hlen), State.pushing_go hroom, hc, if_true]
theorem br_not_taken (hc : condHolds c (s.getS sa) (s.getS sb) = false) :
    Goes (.br m c sa sb tgt) s ((s.pushCtl m (.outcome false)).complete 1) := by
  change execBr m c sa sb tgt s = _
  simp only [execBr, State.mulWord_ctl hw, State.withRegs_go hset, if_neg (Nat.not_le.2 hlen), State.pushing_go hroom, hc,
    Bool.false_eq_true, if_false]
theorem br_ctl : ∃ t, Goes (.br m c sa sb tgt) s t ∧ Handed m [.outcome (condHolds c (s.getS sa) (s.getS sb))] s t ∧
    (condHolds c (s.getS sa) (s.getS sb) = false → t.core.seqs.ctl.pc = s.core.seqs.ctl.pc + 16) ∧
    (condHolds c (s.getS sa) (s.getS sb) = true → StandsAt tgt.toNat s t ∧
      t.core.seqs.ctl.loops = s.core.seqs.ctl.loops.filter fun x => x.has tgt.toNat) := by
  cases hc : condHolds c (s.getS sa) (s.getS sb)
  · exact ⟨_, br_not_taken hw hset hroom hlen hc, Handed.pushCtl.complete hw 1, fun _ => complete_ctl_pc (s := s.pushCtl m _) hw rfl, nofun⟩
  · exact ⟨_, br_taken hw hset hroom hlen hc, Handed.pushCtl.mapView.follow hw, nofun, fun _ => ⟨standsAt_follow hw rfl rfl ⟨rfl, rfl, rfl⟩,
      congrArg Seq.loops (State.follow_ctl (s := (s.pushCtl m _).mapView m _) hw rfl)⟩⟩

theorem loop_goes (h3 : s.cur.slot = 3) (hpc : s.cur.pc = s.core.seqs.ctl.pc) (hreg : (s.getS sa).toNat < 2 ^ 32)
    (hexit : s.core.seqs.ctl.pc / 64 + 1 < tgt.toNat) (hfree : ((followers m).all fun e => (loopAt (s.core.view.get e).loops l).isNone) = true) :
    Goes (.loop m l sa rot tgt imm) s ((loopViewed m l rot tgt (tripsOf s sa imm) (s.pushCtl m (.trips (tripsOf s sa imm)))).follow
      (loopInto l rot tgt (tripsOf s sa imm))) := by
  have hset : s.settled [sa] = true := State.settled_sub hset (by simp)
  have htrip : ¬(sa ≠ 0 ∧ (s.getS sa).toNat / 2 ^ 32 ≠ 0) := fun h => h.2 (Nat.div_eq_of_lt hreg)
  have hback : ¬tgt.toNat ≤ blkOf s.cur.pc + 1 := by
    rw [hpc]
    exact Nat.not_le.2 hexit
  have hused : ¬((followers m).any fun e => (loopAt (s.core.view.get e).loops l).isSome) = true := by simpa using hfree
  have hn : (if sa ≠ 0 then (s.getS sa).setWidth 32 else imm) = tripsOf s sa imm := ite_not ..
  change execLoop m l sa rot tgt imm s = _
  unfold execLoop
  rw [State.mulWord_ctl hw, State.withRegs_go hset]
  simp only [h3, ne_eq, not_true, if_false, if_neg htrip, if_neg hback, if_neg hused, if_neg (Nat.not_le.2 hlen)]
  rw [State.pushing_go hroom]
  simp only [← ne_eq, hn]
  rfl
theorem loop_ctl (h3 : s.cur.slot = 3) (hpc : s.cur.pc = s.core.seqs.ctl.pc) (hreg : (s.getS sa).toNat < 2 ^ 32)
    (hexit : s.core.seqs.ctl.pc / 64 + 1 < tgt.toNat) (hfree : ((followers m).all fun e => (loopAt (s.core.view.get e).loops l).isNone) = true) :
    ∃ t, Goes (.loop m l sa rot tgt imm) s t ∧ Handed m [.trips (tripsOf s sa imm)] s t ∧ (tripsOf s sa imm = 0 → StandsAt tgt.toNat s t) ∧
      (tripsOf s sa imm ≠ 0 → StandsAt (s.core.seqs.ctl.pc / 64 + 1) s t ∧ t.core.seqs.ctl.loops =
        { lvl := l, n := tripsOf s sa imm, start := s.core.seqs.ctl.pc / 64 + 1, exit := tgt.toNat, depth := s.core.seqs.ctl.rstack.length,
          rot := rot } :: s.core.seqs.ctl.loops) ∧
      t.core.seqs.ctl.lidx = s.core.seqs.ctl.lidx.set l.val 0 := by
  refine ⟨_, loop_goes hw hset hroom hlen h3 hpc hreg hexit hfree, ?_⟩
  generalize tripsOf s sa imm = n
  have hwho : (loopViewed m l rot tgt n (s.pushCtl m (.trips n))).who = .ctl := (loopViewed_who ..).trans hw
  have hseq := congrArg PerEng.ctl (loopViewed_seqs m l rot tgt n (s.pushCtl m (.trips n)))
  have hcyc := loopViewed_cycle m l rot tgt n (s.pushCtl m (.trips n))
  have hstep := State.follow_ctl (f := loopInto l rot tgt n) hwho hseq
  refine ⟨Handed.follow (fun e he => ?_) hwho, fun h0 => standsAt_follow hwho hseq hcyc (loopInto_past h0),
    fun h0 => ⟨standsAt_follow hwho hseq hcyc (loopInto_body h0), ?_⟩, ?_⟩
  · rw [loopViewed_seqs]
    exact Handed.pushCtl e he
  · exact (congrArg Seq.loops hstep).trans (loopInto_loops h0)
  · exact (congrArg Seq.lidx hstep).trans loopInto_lidx

theorem brk_goes (hin : ((followers m).all fun e => (loopAt (s.core.view.get e).loops l).any fun x => x.exit == tgt.toNat) = true) :
    Goes (.brk m c l sa sb tgt) s (brkOut l tgt (condHolds c (s.getS sa) (s.getS sb)) (brkViewed m l tgt (condHolds c (s.getS sa) (s.getS sb))
      (s.pushCtl m (.outcome (condHolds c (s.getS sa) (s.getS sb)))))) := by
  have hnot : ¬((followers m).any fun e => match loopAt (s.core.view.get e).loops l with
      | some r => r.exit != tgt.toNat
      | none => true) = true := by
    rw [List.any_eq_true]
    rintro ⟨e, he, hx⟩
    have hin := List.all_eq_true.1 hin e he
    cases hl : loopAt (s.core.view.get e).loops l <;> simp_all
  change execBrk m c l sa sb tgt s = _
  unfold execBrk
  rw [State.mulWord_ctl hw, State.withRegs_go hset]
  simp only [if_neg (Nat.not_le.2 hlen)]
  exact (if_neg hnot).trans (State.pushing_go hroom)
theorem brk_ctl (hin : ((followers m).all fun e => (loopAt (s.core.view.get e).loops l).any fun x => x.exit == tgt.toNat) = true) :
    ∃ t, Goes (.brk m c l sa sb tgt) s t ∧ Handed m [.outcome (condHolds c (s.getS sa) (s.getS sb))] s t ∧
      (condHolds c (s.getS sa) (s.getS sb) = true → StandsAt tgt.toNat s t) ∧
      (condHolds c (s.getS sa) (s.getS sb) = false → t.core.seqs.ctl.pc = s.core.seqs.ctl.pc + 16) ∧
      t.core.seqs.ctl.lidx = s.core.seqs.ctl.lidx := by
  refine ⟨_, brk_goes hw hset hroom hlen hin, ?_⟩
  cases condHolds c (s.getS sa) (s.getS sb) <;> simp only [brkOut, brkViewed, Bool.false_eq_true, if_false, if_true]
  · exact ⟨Handed.pushCtl.complete hw 1, nofun, fun _ => complete_ctl_pc (s := s.pushCtl m _) hw rfl,
      complete_ctl_lidx (s := s.pushCtl m _) hw rfl⟩
  · exact ⟨Handed.pushCtl.mapView.follow hw, fun _ => standsAt_follow (t := (s.pushCtl m _).mapView m _) hw rfl rfl ⟨rfl, rfl, rfl⟩, nofun,
      (congrArg Seq.lidx (State.follow_ctl (s := (s.pushCtl m _).mapView m _) hw rfl)).trans rfl⟩

end
/-! ### The sequencers that follow (04 R66) -/

/-- The running sequencer with what is left of its control queue. -/
def State.popped (s : State) (r : List CtlEntry) : State := s.mapSeq s.who fun q => { q with ctlq := r }
/-- The running sequencer stands at a block, one position on. -/
def SeqStandsAt (blk : Nat) (s t : State) : Prop := t.seq.pc = blk * 64 ∧ t.seq.pos = s.seq.pos + 1 ∧ t.seq.entered = false

section
variable {s u : State} {f : Seq → Seq} {r : List CtlEntry}

@[simp] theorem State.popped_seq : (s.popped r).seq = { s.seq with ctlq := r } := State.mapSeq_seq _
theorem follow_seq_of {q : Seq} (hq : u.seq = q) : (u.follow f).seq = { f q with due := u.core.clockOf u.who + 1 } := by
  rw [State.follow_seq, hq]
theorem seqStandsAt_follow {q : Seq} {blk : Nat} (hq : u.seq = q) (hp : q.pos = s.seq.pos)
    (hf : (f q).pc = blk * 64 ∧ (f q).pos = q.pos + 1 ∧ (f q).entered = false) : SeqStandsAt blk s (u.follow f) := by
  rw [SeqStandsAt, follow_seq_of hq, ← hp]
  exact hf

variable {m : EMask} {c : Cond} {l : Fin 6} {sa sb : SReg} {rot : Bool} {tgt imm : W32} (hw : s.who ≠ .ctl) (hm : inMask m s.who = true)
include hw hm

/-- Words that pop CTL's entry wait while there is none. -/
theorem follower_waits (h : s.seq.ctlq = []) : Goes (.br m c sa sb tgt) s (s.waiting .external) ∧ Goes (.jmpIndirect m sa) s (s.waiting .external) ∧
    Goes (.loop m l sa rot tgt imm) s (s.waiting .external) ∧ Goes (.brk m c l sa sb tgt) s (s.waiting .external) :=
  ⟨(execBr.eq_def ..).trans <| (State.mulWord_follower hw hm).trans (State.popping_nil h),
    (execJmpIndirect.eq_def ..).trans <| (State.mulWord_follower hw hm).trans (State.popping_nil h),
    (execLoop.eq_def ..).trans <| (State.mulWord_follower hw hm).trans (State.popping_nil h),
    (execBrk.eq_def ..).trans <| (State.mulWord_follower hw hm).trans (State.popping_nil h)⟩
theorem br_follower {b : Bool} (h : s.seq.ctlq = .outcome b :: r) : Goes (.br m c sa sb tgt) s
    (if b then (s.popped r).follow fun q => { q.jump tgt.toNat with loops := keepLoops q.loops tgt.toNat } else (s.popped r).complete 1) :=
  (execBr.eq_def ..).trans <| (State.mulWord_follower hw hm).trans (State.popping_cons h)
theorem brk_follower {b : Bool} (h : s.seq.ctlq = .outcome b :: r) : Goes (.brk m c l sa sb tgt) s (brkOut l tgt b (s.popped r)) :=
  (execBrk.eq_def ..).trans <| (State.mulWord_follower hw hm).trans (State.popping_cons h)
theorem jmpIndirect_follower {b : Nat} (h : s.seq.ctlq = .target b :: r) : Goes (.jmpIndirect m sa) s ((s.popped r).jumpTo b) :=
  (execJmpIndirect.eq_def ..).trans <| (State.mulWord_follower hw hm).trans (State.popping_cons h)
theorem loop_follower {n : W32} (h : s.seq.ctlq = .trips n :: r) :
    Goes (.loop m l sa rot tgt imm) s ((s.popped r).follow (loopInto l rot tgt n)) :=
  (execLoop.eq_def ..).trans <| (State.mulWord_follower hw hm).trans (State.popping_cons h)
theorem jmp_follower (hl : tgt.toNat < s.tlen) : Goes (.jmp m tgt) s (s.jumpTo tgt.toNat) :=
  (execJmp.eq_def ..).trans <| (State.mulWord_follower hw hm).trans (if_neg (Nat.not_le.2 hl))
theorem call_follower (hl : tgt.toNat < s.tlen) (h3 : s.cur.slot = 3) (hd : s.seq.rstack.length < 16) :
    Goes (.call m tgt) s (s.follow fun q => { q.jump tgt.toNat with rstack := (blkOf q.pc + 1) :: q.rstack }) :=
  (execCall.eq_def ..).trans <| (State.mulWord_follower hw hm).trans <| if_neg (by
    rintro (h | h | h)
    · exact h h3
    · exact absurd hl (Nat.not_lt.2 h)
    · exact absurd hd (Nat.not_lt.2 h))
theorem ret_follower {b : Nat} {rs : List Nat} (hr : s.seq.rstack = b :: rs) (hb : b < s.tlen) :
    Goes (.ret m) s (s.follow fun q => { q.jump b with rstack := rs, loops := q.loops.filter fun l => decide (l.depth ≤ rs.length) }) := by
  change execRet m s = _
  rw [execRet, State.mulWord_follower hw hm]
  simp only [hr, if_pos hb]

end

/-- Settles O27: at CTL each transfer hands its entry to the queues its mask names and takes CTL on; a follower pops the entry and goes the
same way, or waits for it. -/
theorem transfers : Obligations.Transfers := by
  unfold Obligations.Transfers
  constructor
  · intro s m c l sa sb rot tgt imm hw hset hroom hlen
    have hset1 : s.settled [sa] = true := State.settled_sub hset (by simp)
    exact ⟨br_ctl hw hset hroom hlen, jmp_ctl hw hlen, jmpIndirect_ctl hw hroom hset1, call_ctl hw hlen, fun b r => ret_ctl hw,
      loop_ctl hw hset hroom hlen, brk_ctl hw hset hroom hlen⟩
  · intro s m c l sa sb rot tgt imm hw hm
    refine ⟨follower_waits hw hm, fun r h => ⟨⟨_, br_follower hw hm h, ?_⟩, _, brk_follower hw hm h, ?_⟩,
      fun r h => ⟨_, br_follower hw hm h, brk_follower hw hm h, ?_⟩, fun b r h => ⟨_, jmpIndirect_follower hw hm h, ?_⟩,
      fun n r h => ⟨_, loop_follower hw hm h, ?_⟩, fun hl => ⟨⟨_, jmp_follower hw hm hl, ?_⟩, fun h3 hd => ⟨_, call_follower hw hm hl h3 hd, ?_⟩⟩,
      fun b r hr hb => ⟨_, ret_follower hw hm hr hb, ?_⟩⟩
    · exact ⟨congrArg Seq.ctlq (follow_seq_of State.popped_seq), seqStandsAt_follow State.popped_seq rfl ⟨rfl, rfl, rfl⟩⟩
    · exact ⟨congrArg Seq.ctlq (follow_seq_of State.popped_seq), seqStandsAt_follow State.popped_seq rfl ⟨rfl, rfl, rfl⟩,
        (congrArg Seq.lidx (follow_seq_of State.popped_seq)).trans rfl⟩
    · have hseq := State.complete_seq (s := s.popped r) 1
      rw [State.popped_seq] at hseq
      exact ⟨(congrArg Seq.ctlq hseq).trans (Seq.advance_ctlq _), (congrArg Seq.pc hseq).trans (Seq.advance_pc _)⟩
    · exact ⟨congrArg Seq.ctlq (follow_seq_of State.popped_seq), seqStandsAt_follow State.popped_seq rfl ⟨rfl, rfl, rfl⟩⟩
    · exact ⟨(congrArg Seq.ctlq (follow_seq_of State.popped_seq)).trans loopInto_ctlq,
        fun h0 => seqStandsAt_follow State.popped_seq rfl (loopInto_past h0),
        fun h0 => ⟨seqStandsAt_follow State.popped_seq rfl (loopInto_body h0),
          (congrArg Seq.loops (follow_seq_of State.popped_seq)).trans (loopInto_loops h0)⟩⟩
    · exact seqStandsAt_follow rfl rfl ⟨rfl, rfl, rfl⟩
    · exact ⟨seqStandsAt_follow rfl rfl ⟨rfl, rfl, rfl⟩, congrArg Seq.rstack (follow_seq_of rfl)⟩
    · exact ⟨seqStandsAt_follow rfl rfl ⟨rfl, rfl, rfl⟩, congrArg Seq.rstack (follow_seq_of rfl)⟩

end Sys2Proof.Machine
end

section
/-!
O30: the meetings of SYNC, SYNC.RETIRE and MODE (04 R75, R76).
-/
namespace Sys2Proof.Machine

section
variable {s s0 : State} {m : EMask} {x : Bool}

/-- Whether nothing is outstanding at the masked sequencers (04 R75). -/
def State.retired (s : State) (m : EMask) : Bool := (followers m).all fun e => !inMask m e || !s.core.outstanding e
theorem sync_meets (h : s.who = .ctl ∨ inMask m s.who = true) : exec (.sync m) s =
    if s.arrive.allArrived (followers m) then .next (s.arrive.departAll (followers m)) else .next s.arrive :=
  (execSync.eq_def ..).trans (State.mulWord_meets h)
theorem syncRetire_meets (h : s.who = .ctl ∨ inMask m s.who = true) : exec (.syncRetire m) s =
    if s.arrive.allArrived (followers m) && s.arrive.retired m then .next (s.arrive.departAll (followers m)) else .next s.arrive :=
  (execSyncRetire.eq_def ..).trans (State.mulWord_meets h)
theorem mode_meets (h : s.core.aside = none) : exec (.mode x) s =
    if s.arrive.allArrived engs then
      if s.arrive.core.quiet then .next (s.arrive.modeDone x) else .next (s.arrive.mapCore fun c => { c with draining := true })
    else .next s.arrive := if_neg (by simp [h])
theorem mode_in_handler (h : s.core.aside.isSome = true) (hw : s.who = .ctl) : Goes (.mode x) s (s.trap fIllop) :=
  (if_pos h).trans (if_pos hw)
/-- MODE takes every sequencer past its word. -/
theorem State.modeDone_pc (e : Eng) : ((s.modeDone x).core.seqs.get e).pc = (s.core.seqs.get e).pc + 16 := by
  have hin : engs.contains e = true := by cases e <;> rfl
  simp only [State.modeDone, State.departAll, State.mapCore_core, PerEng.get_mapE, hin, if_true, Seq.advance_pc]
theorem modeDrainDone_goes (h : s0.standAt .ctl = some (.mode x, s)) (hd : s.core.draining = true) (ha : s.allArrived engs = true)
    (hq : s.core.quiet = true) : Goes .evModeDrainDone s0 (s.modeDone x) := by
  change execEvModeDrainDone s0 = _
  simp only [execEvModeDrainDone, h, hd, ha, hq, Bool.and_self, if_true]

end

/-- Settles O30: each word of a meeting by whether all have arrived, and whether what it waits for is over. -/
theorem rendezvous : Obligations.Rendezvous := by
  unfold Obligations.Rendezvous
  intro s s0 m x h u
  refine ⟨fun hall => ⟨(sync_meets h).trans (if_pos hall), fun hret => (syncRetire_meets h).trans (if_pos ?_)⟩,
    fun hnot => ⟨(sync_meets h).trans (if_neg ?_), (syncRetire_meets h).trans (if_neg ?_)⟩,
    fun ha => ⟨fun hnot => (mode_meets ha).trans (if_neg ?_), fun hall hq => ⟨_, (mode_meets ha).trans ((if_pos hall).trans (if_pos hq)), rfl,
      State.modeDone_pc⟩, fun hall hq => ⟨_, (mode_meets ha).trans ((if_pos hall).trans (if_neg ?_)), rfl, rfl⟩⟩,
    mode_in_handler, fun h0 hd hall hq => ⟨_, modeDrainDone_goes h0 hd hall hq, rfl, rfl⟩⟩
  · rw [hall]
    exact hret
  · exact ne_true_of_eq_false hnot
  · rw [hnot]
    exact Bool.false_ne_true
  · exact ne_true_of_eq_false hnot
  · exact ne_true_of_eq_false hq
end Sys2Proof.Machine
end

section
/-!
O17: POST, and the deferred posts of VEC and MAT (04 R85).
-/
namespace Sys2Proof.Machine

section
variable {s : State} {f : FlagNo}

/-! ### Counts of flags (04 R84) -/

theorem Core.flag_setFlag {c : Core} {k : Nat} (hl : c.f.length = 64) (hk : k ≤ 65535) : (c.setFlag f k).flag f = k := by
  have hf : f.toNat < c.f.length := hl ▸ f.isLt
  rw [Core.flag, Core.setFlag_f, List.getD_eq_getElem _ _ (by simpa using hf), List.getElem_set_self, BitVec.toNat_ofNat]
  omega
theorem Core.flag_setFlag_ne {c : Core} {g : FlagNo} {k : Nat} (hg : g ≠ f) : (c.setFlag f k).flag g = c.flag g := by
  have hne : f.toNat ≠ g.toNat := fun h => hg (BitVec.eq_of_toNat_eq h.symm)
  simp only [Core.flag, Core.setFlag_f, List.getD_eq_getElem?_getD, List.getElem?_set_ne hne]
theorem State.trap_f (x : Flt) : (s.trap x).core.f = s.core.f := by
  rw [State.trap, State.trapWith, State.mapCore_core]
  exact ite_of (P := fun d : Core => d.f = s.core.f) rfl rfl
theorem State.drainStores_f : s.drainStores.core.f = s.core.f := by
  obtain ⟨m, p, k, r, w, n, h⟩ := s.drainStores_frame
  rw [h]
theorem State.drainStores_det : s.drainStores.core.det = s.core.det := by
  obtain ⟨m, p, k, r, w, n, h⟩ := s.drainStores_frame
  rw [h]
theorem State.drainStores_posted : s.drainStores.core.posted = s.core.posted := by
  obtain ⟨m, p, k, r, w, n, h⟩ := s.drainStores_frame
  rw [h]

/-! ### POST (04 R85) -/

/-- The state after a POST that fits. -/
def State.postAdds (s : State) (f : FlagNo) (n : W64) : State := (s.mapCore fun c => c.addFlag f n.toNat).complete 1
theorem post_fits {e : Eng} {n : W64} (h : s.core.flag f + n.toNat ≤ 65535) : exec (.post e f n) s =
    if s.who = .ctl then s.withDrained fun t => .next (t.postAdds f n) else .next (s.postAdds f n) := if_pos (decide_eq_true h)
theorem post_overflows {e : Eng} {n : W64} (h : 65535 < s.core.flag f + n.toNat) : Goes (.post e f n) s
    (s.trap { cause := Cause.flagovf, aux := flagAux f (s.core.flag f) n.toNat }) := if_neg fun hd => Nat.not_le.2 h (of_decide_eq_true hd)

/-! ### Deferred posts (04 R85) -/

theorem deferredPost_due {p : DefPost} {r : List DefPost} (hp : s.core.defPosts = p :: r)
    (hdue : ∀ g ∈ s.core.flights, g.eng = p.eng → g.owner = .own → p.before ≤ g.id)
    (hfirst : ∀ x ∈ r, x.f = p.f → engNo p.eng ≤ engNo x.eng) : Goes (.evDeferredPostEffect 0) s
      (s.mapCore fun c => ({ c with defPosts := r }).postDeferred p.eng p.f p.n p.place) := by
  have hd : s.core.postDue p = true := by
    simp only [Core.postDue, List.all_eq_true, Bool.or_eq_true, bne_iff_ne, decide_eq_true_eq]
    exact fun g hg => or_iff_not_imp_left.2 fun h => hdue g hg (by tauto) (by tauto)
  have ho : ((p :: r).any fun x => x.f == p.f && decide (engNo x.eng < engNo p.eng) && s.core.postDue x) = false := by
    simp only [List.any_eq_false, Bool.and_eq_true, beq_iff_eq, decide_eq_true_eq, List.mem_cons]
    rintro x (rfl | hx) ⟨⟨hf, hlt⟩, -⟩
    · exact lt_irrefl _ hlt
    · exact Nat.not_lt.2 (hfirst x hx hf) hlt
  change execEvDeferredPostEffect 0 s = _
  simp only [execEvDeferredPostEffect, hp, List.getElem?_cons_zero, hd, ho, List.take_zero, List.any_nil, Bool.not_false, Bool.and_self, if_true,
    State.mapCore]
  rfl

/-- Settles O17: a POST that fits adds its count, one that would overflow traps; a POST of VEC or MAT stands behind the results issued before
it, and adds its count once they have landed. -/
theorem postsAdd : Obligations.PostsAdd := by
  unfold Obligations.PostsAdd
  constructor
  · intro s f n hl adds
    refine ⟨fun h => ⟨fun hw hd => ?_, fun hw => ?_, fun t ht hw => ?_⟩, fun h e => ⟨_, post_overflows h, ?_, State.trap_f _⟩⟩
    · refine (post_fits h).trans ((if_pos hw).trans ((State.withDrained_go hd).trans ?_))
      simp only [adds, State.postAdds, State.mapCore, Core.addFlag, Core.flag, State.drainStores_f, State.drainStores_det,
        State.drainStores_posted]
    · exact (post_fits h).trans (if_neg hw)
    · rw [post_fits h, if_neg (by simp [hw])] at ht
      cases ht
      exact ⟨Core.flag_setFlag hl h, fun g hg => Core.flag_setFlag_ne hg, sameBytes_of_eq rfl rfl⟩
    · exact (State.trap_record ..).1
  · intro s e c p r he
    refine ⟨?_, fun hp hdue hfirst hfit => (deferredPost_due hp hdue hfirst).trans ?_⟩
    · rcases he with rfl | rfl <;> rfl
    · exact congrArg Host.Outcome.next (congrArg (fun d => ({ s with core := d } : State)) (if_pos (decide_eq_true hfit)))

end
end Sys2Proof.Machine
end

section
/-!
O25: what a landing result leaves (04 R78, R79).
-/
namespace Sys2Proof.Machine

section
variable {s : State} {i : Nat} {f : Flight} (hi : s.core.flights[i]? = some f)

/-- A post clause changes flags and pending faults alone. -/
theorem Core.postClause_frame (c : Core) (e : Eng) (t : Option TailClause) (p : At) : (c.postClause e t p).flights = c.flights ∧
    (c.postClause e t p).s = c.s ∧ (c.postClause e t p).queues = c.queues := by
  cases t with
  | none => exact ⟨rfl, rfl, rfl⟩
  | some x => exact ite_of (P := fun d : Core => d.flights = c.flights ∧ d.s = c.s ∧ d.queues = c.queues) ⟨rfl, rfl, rfl⟩ ⟨rfl, rfl, rfl⟩
/-- The results of a core without one that lands, and without its footprint. -/
def State.unflown (s : State) (f : Flight) : State :=
  s.mapCore fun c => { c with flights := c.flights.filter fun g => g.id != f.id }.closeFoot f.eng f.id
/-- What a result of the core's own program that is no word of MAT with work leaves, once its one effect has been performed: bytes
and registers as the effect left them. -/
theorem State.land_own {e : Eff} (ho : f.owner = .own) (hwk : f.work = none) (he : f.effs = [e]) : ∃ p u, State.applyEff p (s.unflown f) e = u ∧
    (s.land f).spad = u.spad ∧ (s.land f).mem = u.mem ∧ (s.land f).core.flights = u.core.flights ∧ (s.land f).core.s = u.core.s ∧
      (s.land f).core.queues = u.core.queues := by
  obtain ⟨p, hp⟩ : ∃ p, (if f.eng = .mat then some Path.mx else none) = p := ⟨_, rfl⟩
  refine ⟨p, _, rfl, ?_⟩
  generalize hu : State.applyEff p (s.unflown f) e = u
  have hland : s.land f = u.wrote.mapCore fun c => (c.releaseDrawers f.rls).postClause f.eng f.post f.place := by
    rw [State.land, ho, he, hp, List.foldl_cons, List.foldl_nil, ← hu]
    simp only [Core.completeOut, hwk, Option.bind_none]
    rfl
  obtain ⟨hfl, hs, hq⟩ := (u.wrote.core.releaseDrawers f.rls).postClause_frame f.eng f.post f.place
  rw [hland]
  exact ⟨rfl, rfl, hfl, hs, hq⟩
/-- A run of bytes is written to scratchpad, and nothing else but the state of unread writes. -/
theorem State.applyEff_run (p : Option Path) (k : Nat) (bs : List Byte) : (State.applyEff p s (.run k bs)).spad = writeRun s.spad k bs ∧
    (State.applyEff p s (.run k bs)).mem = s.mem ∧ (State.applyEff p s (.run k bs)).core = s.core := by
  cases p <;> exact ⟨rfl, rfl, rfl⟩
theorem Core.queue_setQueue {c : Core} {q : QNo} {ts : List Tile} (hl : c.queues.length = 8) : (c.setQueue q ts).queue q = ts := by
  have hq : q.toNat < c.queues.length := hl ▸ q.isLt
  rw [Core.queue, Core.setQueue, List.getD_eq_getElem _ _ (by simpa using hq), List.getElem_set_self]

include hi

theorem resultLand_not_ready (h : f.ready = false) : Goes (.evResultLand i) s s := by
  change execEvResultLand i s = _
  simp only [execEvResultLand, hi, h, Bool.false_eq_true, if_false]
theorem resultLand_ready (h : f.ready = true) : Goes (.evResultLand i) s (s.land f) := by
  change execEvResultLand i s = _
  simp only [execEvResultLand, hi, h, if_true]

end

/-- Settles O25: a due result performs its effects and leaves the results in flight; one that is not due changes nothing. -/
theorem resultsLand : Obligations.ResultsLand := by
  unfold Obligations.ResultsLand
  intro s i f hi
  refine ⟨resultLand_not_ready hi, fun k bs hr ho he hwk => ⟨_, resultLand_ready hi hr, ?_⟩, fun q x hr ho he hwk hl => ⟨_, resultLand_ready hi hr, ?_⟩⟩
  · obtain ⟨p, u, hu, hspad, hmem, hfl, hs, hq⟩ := State.land_own (s := s) ho hwk he
    obtain ⟨hrun, hrmem, hrcore⟩ := State.applyEff_run (s := s.unflown f) p k bs
    rw [hu] at hrun hrmem hrcore
    rw [hspad, hmem, hfl, hs, hq, hrun, hrmem, hrcore]
    exact ⟨fun j => readByte_writeRun_in _ _ _ j, fun y => readByte_writeRun_out _ _ _ y, rfl, rfl, rfl, rfl⟩
  · obtain ⟨p, u, rfl, hspad, hmem, -, -, hq⟩ := State.land_own (s := s) ho hwk he
    refine ⟨?_, hspad, hmem⟩
    rw [Core.queue, hq]
    exact Core.queue_setQueue hl
end Sys2Proof.Machine
end

section
/-!
O20: rows gathered into tiles (07 R134, R140, R142).
-/
namespace Sys2Proof.Machine

/-! ### Rows cut into lanes (03 R43; 07 R129) -/

/-- A piece of one of several chunks of one length, found in all of them together. -/
theorem flatten_slice {α : Type} {m x n : Nat} (hx : x + n ≤ m) : ∀ (L : List (List α)) (g : Nat), (∀ r ∈ L, r.length = m) → g < L.length →
    (L.flatten.drop (m * g + x)).take n = ((L.getD g []).drop x).take n
  | [], _, _, hg => absurd hg (Nat.not_lt_zero _)
  | r :: L, 0, hL, _ => by
    have hr : r.length = m := hL r (by simp)
    have hlen : (r.drop x).length = m - x := by rw [List.length_drop, hr]
    rw [List.flatten_cons, Nat.mul_zero, Nat.zero_add, List.drop_append_of_le_length (by omega), List.take_append_of_le_length (by omega)]
    rfl
  | r :: L, g + 1, hL, hg => by
    have hr : r.length = m := hL r (by simp)
    have ih := flatten_slice hx L g (fun q hq => hL q (by simp [hq])) (Nat.lt_of_succ_lt_succ hg)
    have hat : m * (g + 1) + x = r.length + (m * g + x) := by
      rw [hr]
      ring
    rw [List.flatten_cons, hat, List.drop_append, Nat.add_sub_cancel_left, List.drop_eq_nil_of_le (by omega), List.nil_append, ih]
    rfl
theorem flatten_length {α : Type} {m : Nat} : ∀ L : List (List α), (∀ r ∈ L, r.length = m) → L.flatten.length = m * L.length
  | [], _ => rfl
  | r :: L, h => by
    rw [List.flatten_cons, List.length_append, h r (by simp), flatten_length L fun q hq => h q (by simp [hq]), List.length_cons]
    ring
theorem lanesOf_getD : ∀ (i : Nat) (bs : List Byte), 4 * i + 4 ≤ bs.length →
    (lanesOf bs).getD i 0 = BitVec.ofNat 32 (leNat ((bs.drop (4 * i)).take 4))
  | 0, a :: b :: c :: d :: r, _ => rfl
  | i + 1, a :: b :: c :: d :: r, h => by
    have ih := lanesOf_getD i r (by simp only [List.length_cons] at h; omega)
    rw [show 4 * (i + 1) = 4 * i + 4 by ring]
    exact ih
  | _, [], h | _, [_], h | _, [_, _], h | _, [_, _, _], h => by simp at h

/-- The rows of a gather, with those that fill its last tile. -/
def padRows (rs : List (List Byte)) : List (List Byte) := rs ++ List.replicate ((16 - rs.length % 16) % 16) (List.replicate 256 0)

section
variable {rs : List (List Byte)}

theorem padRows_length : (padRows rs).length = 16 * ((rs.length + 15) / 16) := by
  rw [padRows, List.length_append, List.length_replicate]
  omega
theorem tilesOf_length : (tilesOf rs).length = (rs.length + 15) / 16 := by
  have h := padRows_length (rs := rs)
  rw [padRows] at h
  rw [tilesOf, List.length_map, List.length_range, h]
  omega
theorem padRows_row_length (hrs : ∀ r ∈ rs, r.length = 256) : ∀ r ∈ padRows rs, r.length = 256 := fun r hr => by
  rcases List.mem_append.1 hr with h | h
  · exact hrs r h
  · rw [List.eq_of_mem_replicate h, List.length_replicate]
/-- Lane x of row i of a gather stands at its place of its tile. -/
theorem tilesOf_lane (hrs : ∀ r ∈ rs, r.length = 256) {i x : Nat} (hi : i < (padRows rs).length) (hx : x < 64) :
    ((tilesOf rs).getD (i / 16) []).getD (i % 16 * 64 + x) 0 =
      BitVec.ofNat 32 (leNat ((((padRows rs).getD i []).drop (4 * x)).take 4)) := by
  have hlen := padRows_length (rs := rs)
  have hsixteen : (((padRows rs).drop (16 * (i / 16))).take 16).length = 16 := by
    rw [List.length_take, List.length_drop]
    omega
  have hin : i % 16 < (((padRows rs).drop (16 * (i / 16))).take 16).length := by
    rw [hsixteen]
    omega
  have hrow : ∀ r ∈ ((padRows rs).drop (16 * (i / 16))).take 16, r.length = 256 := fun r hr =>
    padRows_row_length hrs r (List.mem_of_mem_drop (List.mem_of_mem_take hr))
  have htile : (tilesOf rs).getD (i / 16) [] = lanesOf (((padRows rs).drop (16 * (i / 16))).take 16).flatten := by
    have ht : i / 16 < (padRows rs).length / 16 := by omega
    change ((List.range ((padRows rs).length / 16)).map fun j => lanesOf (((padRows rs).drop (16 * j)).take 16).flatten).getD (i / 16) [] = _
    rw [List.getD_eq_getElem _ _ (by simpa using ht)]
    simp
  have hflat : (((padRows rs).drop (16 * (i / 16))).take 16).flatten.length = 256 * 16 := by rw [flatten_length _ hrow, hsixteen]
  have hsame : (((padRows rs).drop (16 * (i / 16))).take 16).getD (i % 16) [] = (padRows rs).getD i [] := by
    rw [List.getD_eq_getElem _ _ hin, List.getD_eq_getElem _ _ hi, List.getElem_take, List.getElem_drop]
    simp only [Nat.div_add_mod]
  rw [htile, lanesOf_getD _ _ (by rw [hflat]; omega), show 4 * (i % 16 * 64 + x) = 256 * (i % 16) + 4 * x by ring,
    flatten_slice (by omega) _ _ hrow hin, hsame]
/-- The rows missing from the last tile are zero. -/
theorem padRows_missing {i x : Nat} (hi : rs.length ≤ i) (hp : i < (padRows rs).length) (hx : x < 64) :
    BitVec.ofNat 32 (leNat ((((padRows rs).getD i []).drop (4 * x)).take 4)) = 0 := by
  have hrow : (padRows rs).getD i [] = List.replicate 256 0 := by
    rw [padRows, List.getD_append_right _ _ _ _ hi, List.getD_eq_getElem _ _ (by rw [padRows, List.length_append] at hp; omega),
      List.getElem_replicate]
  rw [hrow, List.drop_replicate, List.take_replicate, Nat.min_eq_left (by omega)]
  rfl
theorem padRows_there {i : Nat} (hi : i < rs.length) : (padRows rs).getD i [] = rs.getD i [] := List.getD_append _ _ _ _ hi

end

/-! ### Rows as ACC sees them -/

section
variable {s : State} {l : Option Look} {k x n m : Nat}

theorem State.seeRun_length : (s.seeRun l k n).length = n := by rw [State.seeRun, List.length_map, List.length_range]
theorem State.seeRun_slice (h : x + n ≤ m) : ((s.seeRun l k m).drop x).take n = s.seeRun l (k + x) n := by
  refine List.ext_getElem (by simp only [List.length_take, List.length_drop, State.seeRun_length]; omega) fun j h1 h2 => ?_
  simp [State.seeRun, Nat.add_assoc]
/-- A row of four granules, lane by lane. -/
theorem State.row_lane {ks : List Nat} {g j : Nat} (hks : ks.length = 4) (hg : g < 4) (hj : j < 16) :
    ((ks.flatMap fun k => s.seeRun l k 64).drop (4 * (g * 16 + j))).take 4 = s.seeRun l (ks.getD g 0 + 4 * j) 4 := by
  have hg4 : g < (ks.map fun k => s.seeRun l k 64).length := by rw [List.length_map, hks]; exact hg
  have hchunk : ∀ r ∈ ks.map fun k => s.seeRun l k 64, r.length = 64 := fun r hr => by
    obtain ⟨k, -, rfl⟩ := List.mem_map.1 hr
    exact State.seeRun_length
  rw [List.flatMap_def, show 4 * (g * 16 + j) = 64 * g + 4 * j by ring, flatten_slice (by omega) _ _ hchunk hg4,
    List.getD_eq_getElem _ _ hg4, List.getElem_map, State.seeRun_slice (by omega), List.getD_eq_getElem _ _ (hks ▸ hg)]
theorem State.row_length {ks : List Nat} (hks : ks.length = 4) : (ks.flatMap fun k => s.seeRun l k 64).length = 256 := by
  simp [List.length_flatMap, State.seeRun_length, hks]

end

/-! ### The words of a gather (07 R134, R140) -/

theorem judgeAll_ok {α : Type} : ∀ {xs : List (Judged α)} {ys : List α}, judgeAll xs = .ok ys → xs = ys.map .ok
  | [], ys, h => by cases h; rfl
  | .error f :: r, ys, h => by cases h
  | .ok x :: r, ys, h => by
    rw [judgeAll] at h
    cases hr : judgeAll r with
    | error f => rw [hr] at h; cases h
    | ok zs =>
      rw [hr] at h
      cases h
      rw [judgeAll_ok hr]
      rfl
theorem judgeAll_rows {α : Type} {s : State} {a : AReg} {nrow : BitVec 5} {rstr : BitVec 24} {off : W64} {g : Nat → Judged α} {ys : List α}
    (h : judgeAll ((s.rowOffsets a nrow rstr off).map g) = .ok ys) : ys.length = nrow.toNat + 1 ∧ ∀ y ∈ ys, ∃ o, g o = .ok y := by
  have hmap := judgeAll_ok h
  constructor
  · have hlen := congrArg List.length hmap
    simpa [State.rowOffsets] using hlen.symm
  · intro y hy
    have hin : Except.ok y ∈ (s.rowOffsets a nrow rstr off).map g := hmap ▸ List.mem_map_of_mem hy
    obtain ⟨o, -, ho⟩ := List.mem_map.1 hin
    exact ⟨o, ho⟩
theorem ardbRow_length {c : Core} {cnum o : Nat} {y : List Nat × List Nat} (h : ardbRow c cnum o = .ok y) : y.1.length = 4 := by
  unfold ardbRow at h
  split at h
  · cases h
  · split at h
    · cases h
    · dsimp only at h
      split at h
      · cases h
      · cases h
        rfl

section
variable {s : State}

/-- The running word has resolved its operand. -/
def State.decoded (s : State) (d : Decoded) : State := s.mapSeq s.who fun x => { x with dec := d }
theorem State.decoded_like (d : Decoded) : s.Like (s.decoded d) := ⟨_, _, _, _, rfl, walksLike_set ⟨_, d, rfl⟩⟩

variable {q : QNo} {rows : List (List Nat)} {pins : List Nat}

/-- The tiles of a gather, as ACC sees scratchpad. -/
def State.gatherTiles (s : State) (rows : List (List Nat)) : List Tile := tilesOf (rows.map fun r => r.flatMap fun k => s.seeRun (s.tileLook .acc) k 64)
/-- The result that a gather issues. -/
def State.gatherFlight (s : State) (q : QNo) (rows : List (List Nat)) (pins : List Nat) : Flight :=
  { s.flight (s.core.appendRem .acc q 12) ((s.gatherTiles rows).map fun t => .queue q t) .own with pins := pins }
theorem State.gather_go (hroom : (s.core.queue q).length + s.core.pendingAppends q + (rows.length + 15) / 16 ≤ 8) (hp : s.pathsOpen = true)
    (hz : (s.core.interlocked && s.runsBusy (rows.flatten.map fun k => (k, 64))) = false) (hb : ∀ k ∈ rows.flatten, s.badSpad k 64 = false)
    (hd : s.core.det = false) : s.gather q rows pins = .next ((s.mapCore fun c => c.issue (s.gatherFlight q rows pins)).complete 1) := by
  have hgood : rows.flatten.find? (fun k => s.badSpad k 64) = none := List.find?_eq_none.2 fun k hk => by simp [hb k hk]
  have hpaths (k : State → Out) : s.withPaths allPaths k = k s := if_pos hp
  have hhaz (k : State → Out) : s.withoutHazard (s.runsBusy (rows.flatten.map fun k => (k, 64))) k = k s :=
    if_neg (ne_true_of_eq_false hz)
  have hfoot (f : Footprint) : s.openFoot f = .ok s := if_pos (by simp [hd])
  rw [State.gather, if_neg (Nat.not_lt.2 hroom), hpaths, hhaz]
  simp only [hgood, hfoot]
  rfl

/-- What the issue of a gather of rows of four granules says of its tiles. -/
theorem State.gatherTiles_lanes (hr : ∀ r ∈ rows, r.length = 4) : (s.gatherTiles rows).length = (rows.length + 15) / 16 ∧
    (∀ i < rows.length, ∀ g < 4, ∀ l < 16, ((s.gatherTiles rows).getD (i / 16) []).getD (i % 16 * 64 + g * 16 + l) 0 =
      BitVec.ofNat 32 (leNat (s.seeRun (s.tileLook .acc) ((rows.getD i []).getD g 0 + 4 * l) 4))) ∧
    ∀ i, rows.length ≤ i → i < 16 * (s.gatherTiles rows).length → ∀ l < 64,
      ((s.gatherTiles rows).getD (i / 16) []).getD (i % 16 * 64 + l) 0 = 0 := by
  have hbytes : ∀ b ∈ rows.map fun r => r.flatMap fun k => s.seeRun (s.tileLook .acc) k 64, b.length = 256 := fun b hb => by
    obtain ⟨r, hin, rfl⟩ := List.mem_map.1 hb
    exact State.row_length (hr r hin)
  have hlen : (s.gatherTiles rows).length = (rows.length + 15) / 16 := by rw [State.gatherTiles, tilesOf_length, List.length_map]
  have hpad := padRows_length (rs := rows.map fun r => r.flatMap fun k => s.seeRun (s.tileLook .acc) k 64)
  rw [List.length_map] at hpad
  refine ⟨hlen, fun i hi g hg l hl => ?_, fun i hi hin l hl => ?_⟩
  · have himap : i < (rows.map fun r => r.flatMap fun k => s.seeRun (s.tileLook .acc) k 64).length := by rwa [List.length_map]
    rw [State.gatherTiles, Nat.add_assoc, tilesOf_lane hbytes (by omega) (by omega), padRows_there himap, List.getD_eq_getElem _ _ himap,
      List.getElem_map, List.getD_eq_getElem _ _ hi, State.row_lane (hr _ (List.getElem_mem hi)) hg hl]
  · rw [hlen] at hin
    rw [State.gatherTiles, tilesOf_lane hbytes (by omega) hl, padRows_missing (by rwa [List.length_map]) (by omega) hl]
theorem ard_gathers {a : AReg} {nrow : BitVec 5} {rstr : BitVec 24} {off : W64} {ks : List Nat}
    (h : judgeAll ((s.rowOffsets a nrow rstr off).map s.ardRow) = .ok ks) :
    exec (.ard q a nrow rstr off) s = s.gather q (ks.map fun k => [k, k + 64, k + 128, k + 192]) [] := by
  change execArd q a nrow rstr off s = _
  rw [execArd, h]
theorem ardb_gathers {a : AReg} {nrow : BitVec 5} {rstr : BitVec 24} {off : W64} {rs : List (List Nat × List Nat)} (hgood : s.good 4 = true)
    (hdec : s.seq.dec = .none) (h : judgeAll ((s.rowOffsets a nrow rstr off).map (ardbRow s.core s.cnum)) = .ok rs) :
    exec (.ardb q a nrow rstr off) s = (s.decoded (.rows (rs.map Prod.fst) (rs.flatMap Prod.snd).dedup)).gather q (rs.map Prod.fst)
      (rs.flatMap Prod.snd).dedup := by
  change execArdb q a nrow rstr off s = _
  rw [execArdb, hdec]
  exact (State.withGood_go hgood).trans (by rw [h]; rfl)

end
/-- Settles O20: the rows that pass their checks are gathered as one result of whole tiles, each lane from its place in its row. -/
theorem rowsGather : Obligations.RowsGather := by
  unfold Obligations.RowsGather
  intro s q a nrow rstr off byTag rows lines hrows hroom hp hz hb hd
  cases byTag
  · obtain ⟨rfl, ks, hj, rfl⟩ := hrows
    have hr : ∀ r ∈ ks.map fun k => [k, k + 64, k + 128, k + 192], r.length = 4 := fun r hr => by
      obtain ⟨k, -, rfl⟩ := List.mem_map.1 hr
      rfl
    obtain ⟨hlen, hlane, hzero⟩ := s.gatherTiles_lanes hr
    exact ⟨_, _, _, (ard_gathers hj).trans (State.gather_go hroom hp hz hb hd), rfl, rfl, rfl, rfl, sameBytes_of_eq rfl rfl, rfl, hlen,
      (List.length_map _).trans (judgeAll_rows hj).1, hlane, hzero⟩
  · obtain ⟨⟨hgood, rs, hj, rfl, rfl⟩, hdec⟩ := hrows
    have hr : ∀ r ∈ rs.map Prod.fst, r.length = 4 := fun r hr => by
      obtain ⟨y, hy, rfl⟩ := List.mem_map.1 hr
      obtain ⟨o, ho⟩ := (judgeAll_rows hj).2 y hy
      exact ardbRow_length ho
    obtain ⟨hlen, hlane, hzero⟩ := s.gatherTiles_lanes hr
    have hgo := State.gather_go (s := s.decoded (.rows (rs.map Prod.fst) (rs.flatMap Prod.snd).dedup)) (q := q)
      (pins := (rs.flatMap Prod.snd).dedup) hroom ((State.decoded_like _).pathsOpen.trans hp) hz
      (fun k hk => ((State.decoded_like _).badSpad k 64).trans (hb k hk)) hd
    exact ⟨_, _, _, (ardb_gathers hgood hdec hj).trans hgo, rfl, rfl, rfl, rfl, sameBytes_of_eq rfl rfl, rfl, hlen,
      (List.length_map _).trans (judgeAll_rows hj).1, hlane, hzero⟩

end Sys2Proof.Machine
end

section
/-!
O13: the system registers by their maps, and the mailbox (05 R100 to R103).
-/
namespace Sys2Proof.Machine

/-! ### Words made of fields -/

theorem toNat_le_one (b : Bool) : b.toNat ≤ 1 := by cases b <;> decide
/-- A bit of a word given as a number. -/
theorem getLsbD_ofNat_eq {n i : Nat} {b : Bool} (hi : i < 64) (h : n / 2 ^ i % 2 = b.toNat) : (BitVec.ofNat 64 n).getLsbD i = b := by
  rw [getLsbD_ofNat_div _ _ hi, h]
  cases b <;> rfl
theorem extractLsb'_ofNat_eq {n i k : Nat} {x : BitVec k} (hn : n < 2 ^ 64) (h : n / 2 ^ i % 2 ^ k = x.toNat) :
    (BitVec.ofNat 64 n).extractLsb' i k = x :=
  BitVec.eq_of_toNat_eq (by rw [BitVec.extractLsb'_toNat, BitVec.toNat_ofNat, Nat.mod_eq_of_lt hn, Nat.shiftRight_eq_div_pow, h])
/-- A word has no bit of a mask where each of its set bits is none of the mask. -/
theorem and_eq_zero_of_bits {n : Nat} {m : W64} (h : ∀ j < 64, n / 2 ^ j % 2 = 1 → m.getLsbD j = false) : BitVec.ofNat 64 n &&& m = 0 := by
  refine BitVec.eq_of_getLsbD_eq fun j hj => ?_
  rw [BitVec.getLsbD_and, getLsbD_ofNat_div _ _ hj]
  by_cases hb : n / 2 ^ j % 2 = 1
  · simp [h j hj hb]
  · simp [hb]

/-! ### STATUS and TRAPVEC (05 R101, R102) -/

section
variable (c : Core)

/-- The flags of STATUS below LASTC. -/
def statusFlags (miss nant det fixt modex : Bool) : Nat :=
  fld miss.toNat 8 + fld nant.toNat 3 + fld det.toNat 2 + fld fixt.toNat 1 + modex.toNat
theorem statusFlags_lt (miss nant det fixt modex : Bool) : statusFlags miss nant det fixt modex < 2 ^ 16 := by
  revert miss nant det fixt modex
  decide
theorem statusFlags_bits : ∀ miss nant det fixt modex : Bool, ∀ j < 16, statusFlags miss nant det fixt modex / 2 ^ j % 2 = 1 →
    (0xFFFFFFFFFF00FEF0 : W64).getLsbD j = false := by decide
theorem Core.statusWord_eq : c.statusWord =
    BitVec.ofNat 64 (c.lastc.toNat * 2 ^ 16 + statusFlags c.scopemiss c.nant c.det (c.fixt || c.exch) c.modex) :=
  congrArg (BitVec.ofNat 64) (by simp only [fld, statusFlags]; ring)
theorem Core.statusWord_fields : c.statusWord.extractLsb' 16 8 = c.lastc ∧ c.statusWord.getLsbD 8 = c.scopemiss ∧
    c.statusWord.getLsbD 3 = c.nant ∧ c.statusWord.getLsbD 2 = c.det ∧ c.statusWord.getLsbD 1 = (c.fixt || c.exch) ∧
    c.statusWord.getLsbD 0 = c.modex := by
  have hl := c.lastc.isLt
  have h1 := toNat_le_one c.scopemiss
  have h2 := toNat_le_one c.nant
  have h3 := toNat_le_one c.det
  have h4 := toNat_le_one (c.fixt || c.exch)
  have h5 := toNat_le_one c.modex
  rw [Core.statusWord]
  refine ⟨extractLsb'_ofNat_eq ?_ ?_, getLsbD_ofNat_eq (by decide) ?_, getLsbD_ofNat_eq (by decide) ?_, getLsbD_ofNat_eq (by decide) ?_,
    getLsbD_ofNat_eq (by decide) ?_, getLsbD_ofNat_eq (by decide) ?_⟩ <;> simp only [fld] <;> omega
theorem Core.statusWord_reserved : c.statusWord &&& 0xFFFFFFFFFF00FEF0 = 0 := by
  have hl := c.lastc.isLt
  have hf := statusFlags_lt c.scopemiss c.nant c.det (c.fixt || c.exch) c.modex
  have hb := statusFlags_bits c.scopemiss c.nant c.det (c.fixt || c.exch) c.modex
  rw [Core.statusWord_eq]
  generalize statusFlags c.scopemiss c.nant c.det (c.fixt || c.exch) c.modex = r at *
  refine and_eq_zero_of_bits fun j hj h => ?_
  by_cases hlow : j < 16
  · refine hb j hlow ?_
    have hpow : 2 ^ 16 = 2 ^ j * 2 * 2 ^ (15 - j) := by rw [← pow_succ, ← pow_add, show j + 1 + (15 - j) = 16 by omega]
    rwa [hpow, show c.lastc.toNat * (2 ^ j * 2 * 2 ^ (15 - j)) + r = r + 2 ^ j * (2 * (c.lastc.toNat * 2 ^ (15 - j))) by ring,
      Nat.add_mul_div_left _ _ (by positivity), Nat.add_mul_mod_self_left] at h
  · by_cases hhigh : j < 24
    · have hmask : ∀ j < 24, 16 ≤ j → (0xFFFFFFFFFF00FEF0 : W64).getLsbD j = false := by decide
      exact hmask j hhigh (Nat.not_lt.1 hlow)
    · have hpow : 2 ^ 24 ≤ 2 ^ j := Nat.pow_le_pow_right (by decide) (Nat.not_lt.1 hhigh)
      rw [Nat.div_eq_of_lt (by omega)] at h
      cases h
theorem Core.trapvecWord_fields : c.trapvecWord.getLsbD 63 = c.trapEn ∧ c.trapvecWord.extractLsb' 0 24 = c.trapBlk ∧
    c.trapvecWord &&& 0x7FFFFFFFFF000000 = 0 := by
  have hb := c.trapBlk.isLt
  have h1 := toNat_le_one c.trapEn
  rw [Core.trapvecWord]
  refine ⟨getLsbD_ofNat_eq (by decide) ?_, extractLsb'_ofNat_eq ?_ ?_, and_eq_zero_of_bits fun j hj h => ?_⟩
  · simp only [fld]
    omega
  · simp only [fld]
    omega
  · simp only [fld]
    omega
  · by_cases hj63 : j = 63
    · rw [hj63]
      decide
    · by_cases hlow : j < 24
      · have hmask : ∀ j < 24, (0x7FFFFFFFFF000000 : W64).getLsbD j = false := by decide
        exact hmask j hlow
      · refine absurd h ?_
        have hpow : 2 ^ 24 ≤ 2 ^ j := Nat.pow_le_pow_right (by decide) (Nat.not_lt.1 hlow)
        have hsplit : 2 ^ 63 = 2 ^ j * (2 * 2 ^ (62 - j)) := by rw [← mul_assoc, ← pow_succ, ← pow_add, show j + 1 + (62 - j) = 63 by omega]
        rw [fld, hsplit, show c.trapEn.toNat * (2 ^ j * (2 * 2 ^ (62 - j))) + c.trapBlk.toNat =
          c.trapBlk.toNat + 2 ^ j * (2 * (c.trapEn.toNat * 2 ^ (62 - j))) by ring, Nat.add_mul_div_left _ _ (by positivity),
          Nat.add_mul_mod_self_left, Nat.div_eq_of_lt (by omega)]
        decide

end

/-! ### SRD, SWR and MBXRD (05 R100) -/

section
variable {s : State} {d : SReg} {k : Nat}

theorem srd_puts {n : BitVec 12} {v : W64} (h : s.settled [d] = true) (hv : s.sysReg n.toNat = v) : Puts (.srd d n) s d v :=
  puts_of_withRegs (fun s => s.sysReg n.toNat) rfl h (fun _ hr => hr) hv
theorem State.ofTask_eq {t : Task} (ht : s.core.task = some t) (f : Task → Nat) : s.ofTask f = BitVec.ofNat 64 (f t) := by
  rw [State.ofTask, ht]
  rfl
theorem toNat_sysRegNo {b : Nat} (hb : b ≤ 0x40) (hk : k < 8) : (BitVec.ofNat 12 (b + k)).toNat = b + k := by
  rw [BitVec.toNat_ofNat]
  omega
theorem State.sysReg_traprec (hk : k < 8) : s.sysReg (0x011 + k) = s.core.traprec.getD k 0 := by
  interval_cases k <;> rfl
theorem State.sysReg_lvlidx (hk : k < 8) : s.sysReg (0x020 + k) = s.ofTask fun t => t.lvlidx.getD k 0 := by
  interval_cases k <;> rfl
theorem State.sysReg_lvlcnt (hk : k < 8) : s.sysReg (0x028 + k) = s.ofTask fun t => t.lvlcnt.getD k 1 := by
  interval_cases k <;> rfl
theorem State.sysReg_wptr (hk : k < 4) : s.sysReg (0x040 + k) = (s.core.wptr.getD k 0).setWidth 64 := by
  interval_cases k <;> rfl

theorem swr_some {o : Op2} {n : BitVec 12} {t : State} (h : s.settled (op2Regs o) = true) (hs : s.setSysReg n.toNat (s.op2 o) = some t) :
    Goes (.swr n o) s (t.complete 1) := by
  change execSwr n o s = _
  rw [execSwr, State.withRegs_go h, hs]
theorem swr_none {o : Op2} {n : BitVec 12} (h : s.settled (op2Regs o) = true) (hs : s.setSysReg n.toNat (s.op2 o) = none) :
    Goes (.swr n o) s (s.trap fIllop) := by
  change execSwr n o s = _
  rw [execSwr, State.withRegs_go h, hs]
/-- SLIPWIN takes 1 to 256 (04 R60). -/
theorem State.setSysReg_slipwin (v : W64) : s.setSysReg 0x001 v = if v.setWidth 9 = 0 ∨ 256 < (v.setWidth 9).toNat then none
    else some (s.mapCore fun c => { c with slipwin := v.setWidth 9 }) := rfl
/-- TRAPVEC enables a handler within the text alone (05 R102). -/
theorem State.setSysReg_trapvec (v : W64) : s.setSysReg 0x010 v = if v.getLsbD 63 ∧ s.tlen ≤ (v.setWidth 24).toNat then none
    else some (s.mapCore fun c => { c with trapEn := v.getLsbD 63, trapBlk := v.setWidth 24 }) := rfl

end

/-- Settles O13: each register of SRD by its place in the map, each of SWR by what its map takes, MBXRD by the mode. -/
theorem systemRegisters : Obligations.SystemRegisters := by
  unfold Obligations.SystemRegisters
  refine ⟨fun s d t h ht => ?_, fun s o h => ?_, fun s d n acq t h ht => ?_⟩
  · obtain ⟨hl, h8, h3, h2, h1, h0⟩ := s.core.statusWord_fields
    have hn (b : Nat) (hb : b ≤ 0x40) (k : Nat) (hk : k < 8) {v : W64} (hv : s.sysReg (b + k) = v) : Puts (.srd d (BitVec.ofNat 12 (b + k))) s d v :=
      srd_puts h ((congrArg s.sysReg (toNat_sysRegNo hb hk)).trans hv)
    refine ⟨⟨_, srd_puts h rfl, hl, h8, h3, h2, h1, h0, s.core.statusWord_reserved⟩, srd_puts h rfl, srd_puts h rfl, srd_puts h rfl,
      srd_puts h rfl, srd_puts h rfl, srd_puts h rfl, srd_puts h rfl, ⟨_, srd_puts h rfl, s.core.trapvecWord_fields⟩,
      fun k hk => hn _ (by decide) k hk (State.sysReg_traprec hk),
      fun k hk => ⟨hn _ (by decide) k hk ((State.sysReg_lvlidx hk).trans (State.ofTask_eq ht _)),
        hn _ (by decide) k hk ((State.sysReg_lvlcnt hk).trans (State.ofTask_eq ht _))⟩,
      srd_puts h rfl, srd_puts h (State.ofTask_eq ht _), srd_puts h (State.ofTask_eq ht _), srd_puts h ?_, srd_puts h ?_, srd_puts h rfl,
      fun k hk => hn _ (by decide) k (by omega) (State.sysReg_wptr hk), srd_puts h rfl⟩
    · exact (State.ofTask_eq ht _).trans (BitVec.ofNat_toNat ..)
    · exact (State.ofTask_eq ht _).trans (BitVec.ofNat_toNat ..)
  · intro v w blk put
    have hw : v.setWidth 9 = w := BitVec.setWidth_eq_extractLsb' (by decide)
    have hblk : v.setWidth 24 = blk := BitVec.setWidth_eq_extractLsb' (by decide)
    have hslip := s.setSysReg_slipwin v
    have htrap := s.setSysReg_trapvec v
    rw [hw] at hslip
    rw [hblk] at htrap
    refine ⟨swr_some h rfl, fun h1 h2 => swr_some h (hslip.trans (if_neg ?_)), fun hbad => swr_none h (hslip.trans (if_pos ?_)), swr_some h rfl,
      fun hok => swr_some h (htrap.trans (if_neg ?_)), fun hen hout => swr_none h (htrap.trans (if_pos ⟨hen, hout⟩)), swr_some h rfl⟩
    · rintro (h0 | h0)
      · rw [h0] at h1
        exact absurd h1 (by decide)
      · omega
    · exact hbad.imp_left BitVec.eq_of_toNat_eq
    · rintro ⟨hen, hout⟩
      rcases hok with hoff | hin
      · exact absurd hen (ne_true_of_eq_false hoff)
      · omega
  · have htenant : s.tenantNo = t.tenant := by rw [State.tenantNo, ht]
    change execMbxrd d n acq s = _
    rw [execMbxrd, State.withRegs_go h]
    simp only [htenant]
    split <;> rfl
end Sys2Proof.Machine
end

section
/-!
O31: MMA, MMAH and the short words of MAT (13 R224 to R238).
-/
namespace Sys2Proof.Machine

/-! ### MMA and MMAH (13 R225 to R228, R238) -/

section
variable {s : State} {tl : Tail} {bk bx : BankNo} {row : BitVec 6}

/-- The fault of drawers that are not all claimed names one that is not. -/
theorem Core.unclaimed_some {c : Core} {ds : List Nat} {f : Flt} (h : c.unclaimed ds = some f) :
    f.cause = Cause.drawer ∧ ∃ d ∈ ds, f.aux = d ∧ c.claimed.getLsbD d = false := by
  obtain ⟨d, hd, rfl⟩ := Option.map_eq_some_iff.1 h
  obtain ⟨hin, hfree⟩ := List.mem_filter.1 (List.min?_mem hd)
  exact ⟨rfl, d, hin, rfl, by simpa [Core.isClaimed] using hfree⟩
theorem State.trap_legacycnt (x : Flt) : (s.trap x).core.legacycnt = s.core.legacycnt := by
  rw [State.trap, State.trapWith, State.mapCore_core]
  exact ite_of (P := fun d : Core => d.legacycnt = s.core.legacycnt) rfl rfl

section
variable {c : Cost} {da db : DrawerNo} {ks : BitVec 12} {ecl : BitVec 2} {clr rls : Bool} (ha : s.awaits tl = true)
  (hr : (s.awaited tl).matReady [bk] []) (hp : (s.awaited tl).core.ctlPassed s.cur.pos s.cur.slot = true)
include ha hr hp

theorem mma_issues (hu : (s.awaited tl).core.unclaimed (mmaDrawers (.mma c bk da db ks ecl clr rls tl)) = none) :
    exec (.mma c bk da db ks ecl clr rls tl) s = (s.awaited tl).matIssue (mmaFlight (.mma c bk da db ks ecl clr rls tl) s.cur .own
      ((s.awaited tl).core.nantAt s.cur.pos s.cur.slot) (s.awaited tl).core.interlocked tl.post)
      (matLatency (.mma c bk da db ks ecl clr rls tl)) := by
  change execMma c bk da db ks ecl clr rls tl s = _
  rw [execMma, State.matWord_go ha hr, State.withNant_go (by simpa using hp), hu]
  simp only [State.withFoot_go hr.det, State.awaited_cur]
theorem mma_traps {f : Flt} (hu : (s.awaited tl).core.unclaimed (mmaDrawers (.mma c bk da db ks ecl clr rls tl)) = some f) :
    Goes (.mma c bk da db ks ecl clr rls tl) s ((s.awaited tl).trap f) := by
  change execMma c bk da db ks ecl clr rls tl s = _
  rw [execMma, State.matWord_go ha hr, State.withNant_go (by simpa using hp), hu]

end

/-! ### The short words (13 R224, R234, R235) -/

section
variable (ha : s.awaits tl = true)
include ha

theorem mclr_issues (hr : (s.awaited tl).matReady [bk] []) :
    exec (.mclr bk tl) s = (s.awaited tl).matShort tl [.bank bk [(0, zeroBank)]] [] := State.matWord_go ha hr
theorem mcarryZ_issues (hr : (s.awaited tl).matReady [] [bk]) :
    exec (.mcarryZ bk tl) s = (s.awaited tl).matShort tl [.carry bk (List.replicate 32 (0, 0))] [] := State.matWord_go ha hr
theorem mcarryLd_issues (hr : (s.awaited tl).matReady [bx] [bk]) : exec (.mcarryLd bk bx row tl) s = (s.awaited tl).matShort tl [.carry bk
    ((List.range 32).map fun j => (laneOf ((s.awaited tl).core.bank bx) row.toNat j, laneOf ((s.awaited tl).core.bank bx) row.toNat (j + 32)))] [] := by
  change execMcarryLd bk bx row tl s = _
  rw [execMcarryLd, State.matWord_go ha hr, State.withBanks_go hr.goodBanks]
theorem mcarrySt_issues (hr : (s.awaited tl).matReady [bx] [bk]) (hp : s.core.ctlPassed s.cur.pos s.cur.slot = true) :
    exec (.mcarrySt bk bx row tl) s = (s.awaited tl).epIssue (.mcarrySt bk bx row tl) tl ((s.awaited tl).core.nantAt s.cur.pos s.cur.slot) bx
      ((s.awaited tl).core.carry bk) none none := by
  change execMcarrySt bk bx row tl s = _
  rw [execMcarrySt, State.matWord_go ha hr, State.withNant_go (by rwa [State.awaited_cur, State.Like.awaited.ctlPassed]),
    State.withBanks_go hr.goodBanks, State.awaited_cur]

end
end
/-- A tile step with NANT clear raises nothing. -/
theorem MatCmd.stepTo_quiet {m : MatCmd} {bad : Option MatBad} {outs : List Eff} (h : m.nant = false) :
    m.stepTo bad outs = .ok { m with k := m.k + 1, outs := m.outs ++ outs } := by
  simp only [MatCmd.stepTo, h, Bool.false_eq_true, if_false]

/-- Settles O31: each word past its gates issues its result, MMA with an unclaimed drawer traps, and so does MMAH always. -/
theorem matWordsIssue : Obligations.MatWordsIssue := by
  unfold Obligations.MatWordsIssue
  constructor
  · intro s c bk da db ks ecl clr rls tl i u per
    have hlike : s.Like u := .awaited
    refine ⟨fun ha hr hp => ⟨fun hu => ?_, fun f hu => ⟨mma_traps ha hr hp hu, ?_⟩⟩, _, rfl, (State.trap_record ..).1, State.trap_legacycnt _,
      sameBytes_of_eq rfl rfl⟩
    · obtain ⟨t, ht⟩ := issues_of_matIssue hlike (mma_issues ha hr hp hu)
      refine ⟨t, ?_⟩
      rw [hlike.flights]
      exact ht
    · rw [← hlike.claimed]
      exact Core.unclaimed_some hu
  · intro s bk bx row tl ha hw u short lane cs
    have hlike : s.Like (s.awaited tl) := .awaited
    have hflights : u.core.flights = s.core.flights := hlike.flights
    have hshort {i : Instr} {effs : List Eff} (hgo : exec i s = u.matShort tl effs []) : short i effs := by
      obtain ⟨t, ht⟩ := issues_of_matIssue hlike hgo
      refine ⟨t, ?_⟩
      rw [State.flight, hlike.who, hlike.cur, hw] at ht
      rw [hflights]
      exact ht
    refine ⟨fun hr => hshort (mclr_issues ha hr), fun hr => hshort (mcarryZ_issues ha hr), fun hr => hshort ?_, fun hr hp => ⟨?_, fun hn => ?_⟩⟩
    · have hgo := mcarryLd_issues (bk := bk) (row := row) ha hr
      simp only [Core.bank, hlike.banks] at hgo
      exact hgo
    · obtain ⟨t, ht⟩ := issues_of_matIssue hlike (mcarrySt_issues (row := row) ha hr hp)
      refine ⟨t, ?_⟩
      simp only [Core.bank, Core.carry, hlike.banks, hlike.carries, hlike.cur] at ht
      rw [hflights]
      exact ht
    · exact ⟨_, MatCmd.stepTo_quiet hn, rfl, rfl⟩
end Sys2Proof.Machine
end

section
/-!
O32: the epilogue words of MAT (13 R229 to R232).
-/
namespace Sys2Proof.Machine

section
variable {s u : State}

/-- A tile popped where it is asked for, none otherwise. -/
def Pops (u : State) (on : Bool) (q : QNo) (tile : Option Tile) : Prop :=
  (on = false ∧ tile = none) ∨ (on = true ∧ ∃ x r, u.core.queue q = x :: r ∧ tile = some x)
theorem State.withPop_go {on : Bool} {q : QNo} {tile : Option Tile} (h : s.Like u) (hd : u.core.det = false) (hg : u.good 1 = true)
    (hp : Pops u on q tile) : ∃ v, s.Like v ∧ ∀ w k, u.withPop on q w k = k tile v := by
  rcases hp with ⟨rfl, rfl⟩ | ⟨rfl, x, r, hq, rfl⟩
  · exact ⟨u, h, fun w k => State.withFoot_go hd⟩
  · refine ⟨_, h.setQueue (q := q) (r := r), fun w k => ?_⟩
    simp only [State.withPop, hq, Bool.not_true, Bool.false_eq_true, if_false]
    exact (State.withGood_go hg).trans (State.withFoot_go hd)

/-- The result that an epilogue word issues: its bank read, its tile popped, its destination resolved (13 R229 to R232). -/
def epFlight (s : State) (i : Instr) (tl : Tail) (b : BankNo) (carry : List (W32 × W32)) (tile : Option Tile) (o : Option Operand) : Flight :=
  { id := 0, eng := .mat, rem := matLatency i, effs := [], post := tl.post, rls := [], place := s.cur, owner := .own,
    pins := (o.map fun x => x.tags.map Prod.snd).getD [],
    work := some { MatCmd.start i s.cur .own (s.core.nantAt s.cur.pos s.cur.slot) s.core.interlocked with
      src := s.core.banks.getD b.toNat [], carry := carry, tile := tile, opnd := o } }
theorem issues_of_epIssue {i : Instr} {tl : Tail} {b : BankNo} {carry : List (W32 × W32)} {tile : Option Tile} {o : Option Operand} (h : s.Like u)
    (hgo : exec i s = u.epIssue i tl (s.core.nantAt s.cur.pos s.cur.slot) b carry tile o) :
    ∃ t, Issues i s t s.core.flights (epFlight s i tl b carry tile o) := by
  obtain ⟨t, ht⟩ := issues_of_matIssue h hgo
  refine ⟨t, ?_⟩
  simp only [Core.bank, h.banks, h.cur, h.interlocked] at ht
  cases o <;> exact ht

variable {bk bd : BankNo} {t4 : Fin 12} {ho : HReg} {epi : Epi} {clr bias scale bf cmp kc : Bool} {aa ab : GateAct} {n : BitVec 6} {tl : Tail}
  {tile : Option Tile} (ha : s.awaits tl = true) (hctl : s.core.ctlPassed s.cur.pos s.cur.slot = true)
include ha hctl

theorem mgate_issues (hr : (s.awaited tl).matReady [bk, bd] []) (hp : Pops (s.awaited tl) bias 6 tile) :
    ∃ t, Issues (.mgate bk bd aa ab cmp bias tl) s t s.core.flights (epFlight s (.mgate bk bd aa ab cmp bias tl) tl bk [] tile none) := by
  have hl : s.Like (s.awaited tl) := .awaited
  obtain ⟨v, hv, hpop⟩ := State.withPop_go hl hr.det hr.goodQueues hp
  refine issues_of_epIssue hv ?_
  change execMgate bk bd aa ab cmp bias tl s = _
  rw [execMgate, State.matWord_go ha hr, State.withNant_go (by rwa [hl.cur, hl.ctlPassed]), State.withBanks_go hr.goodBanks, hpop, hl.nantAt, hl.cur]
theorem mscan_issues (hr : (s.awaited tl).matReady [bk] [bd]) (hp : Pops (s.awaited tl) cmp 7 tile) :
    ∃ t, Issues (.mscan bk n bd kc cmp tl) s t s.core.flights
      (epFlight s (.mscan bk n bd kc cmp tl) tl bk (s.core.carries.getD bd.toNat []) tile none) := by
  have hl : s.Like (s.awaited tl) := .awaited
  obtain ⟨v, hv, hpop⟩ := State.withPop_go hl hr.det hr.goodQueues hp
  refine issues_of_epIssue hv ?_
  change execMscan bk n bd kc cmp tl s = _
  rw [execMscan, State.matWord_go ha hr, State.withNant_go (by rwa [hl.cur, hl.ctlPassed]), State.withBanks_go hr.goodBanks, hpop, hl.nantAt, hl.cur,
    Core.carry, hv.carries]

variable (hpaths : s.pathsOpen = true)
include hpaths

omit ha hctl in
/-- Nothing holds the running word's accesses on the MX path. -/
theorem State.withMx_go {k : State → Out} (h : s.Like u) : u.withPaths [.mx] k = k u := by
  refine if_pos ?_
  have hall := h.pathsOpen.trans hpaths
  simp only [State.pathsOpen, List.all_eq_true] at hall ⊢
  exact fun p hp => hall p (by rw [List.mem_singleton.1 hp]; decide)
theorem moutTile_issues (hr : (s.awaited tl).matReady [bk] []) (hp : Pops (s.awaited tl) (bias || scale) 6 tile)
    (hz : ((s.awaited tl).core.interlocked && (s.awaited tl).runBusy (slotKey s.cnum (4 * t4.val)) (4 * 4096)) = false) :
    ∃ t, Issues (.moutTile bk t4 epi clr bias scale bf tl) s t s.core.flights
      (epFlight s (.moutTile bk t4 epi clr bias scale bf tl) tl bk [] tile none) := by
  have hl : s.Like (s.awaited tl) := .awaited
  obtain ⟨v, hv, hpop⟩ := State.withPop_go hl hr.det hr.goodQueues hp
  have hhaz (k : State → Out) : (s.awaited tl).withoutHazard ((s.awaited tl).runBusy (slotKey s.cnum (4 * t4.val)) (4 * 4096)) k =
      k (s.awaited tl) := if_neg (ne_true_of_eq_false hz)
  refine issues_of_epIssue hv ?_
  change execMoutTile bk t4 epi clr bias scale bf tl s = _
  rw [execMoutTile, State.matWord_go ha hr, State.withMx_go hpaths hl, hl.cnum, hhaz, State.withNant_go (by rwa [hl.cur, hl.ctlPassed]),
    State.withBanks_go hr.goodBanks, hpop, hl.nantAt, hl.cur]

/-! ### MOUT by handle: its destination is resolved at its decode (07 R134; 16 R267, R269) -/

/-- The destination of a MOUT by handle before its tags are looked up. -/
def moutDest (h : W256) : Operand := { h := h, pages := [], tags := [], ring := false, slice := 0, count := 4096 }
omit ha hctl hpaths in
/-- A word whose await is done performs it no more. -/
theorem State.awaited_done (h : ∀ a, tl.await = some a → u.seq.awd = true) : u.awaits tl = true ∧ u.awaited tl = u := by
  unfold State.awaits State.awaited
  cases hw : tl.await with
  | none => exact ⟨rfl, rfl⟩
  | some a =>
    simp only [h a hw]
    exact ⟨rfl, rfl⟩
omit ha hctl hpaths in
theorem State.awaited_awd {a : TailClause} (hw : tl.await = some a) : (s.awaited tl).seq.awd = true := by
  unfold State.awaited
  rw [hw]
  dsimp only
  split
  · assumption
  · exact congrArg Seq.awd (PerEng.get_set ..)
omit ha hctl hpaths in
/-- A destination that is resolved stays, one by a handle of no open tensor is resolved now. -/
theorem State.withDest_go {h : W256} {o0 o : Operand} {k : Operand → State → Out} (hdec : s.seq.dec = .operand o ∨
      s.seq.dec = .none ∧ s.seq.claim = none ∧ hOpen h = false ∧ (s.awaited tl).core.matDest o0 = .ok o) :
    (s.awaited tl).withDest h o0 true k = k o (s.awaited tl) ∨ (s.awaited tl).withDest h o0 true k = k o ((s.awaited tl).resolved o) := by
  obtain ⟨b, hb⟩ := s.awaited_seq tl
  rcases hdec with hd | ⟨hd, hc, hopen, hdest⟩
  · left
    simp only [State.withDest, hb, hd]
  · right
    simp only [State.withDest, hb, hd, hc, hopen, hdest, Bool.and_false, Bool.not_false, Bool.false_eq_true, if_false, if_true]

section
variable {o : Operand}
omit ha

/-- What MOUT by handle does once its destination is resolved. -/
theorem moutHandle_resolved (hl : s.Like u) (hawd : ∀ a, tl.await = some a → u.seq.awd = true) (hr : u.matReady [bk] [])
    (hp : Pops u (bias || scale) 6 tile) (hturn : o.ring = true → u.core.mayWrite (hOtid o.h) o.slice = true) {h : W256}
    (hz : (u.core.interlocked && u.runsBusy ((o.keys s.cnum).map fun key => (key, hEsize h))) = false) (i : Instr) :
    ∃ v, s.Like v ∧ (u.matWord tl [bk] [] fun s => s.withPaths [.mx] fun s => s.withTurn o fun s =>
      s.withoutHazard (s.runsBusy ((o.keys s.cnum).map fun key => (key, hEsize h))) fun s => s.withNant fun nant s =>
        s.withBanks [bk] [] fun s => s.withPop (bias || scale) 6 ((o.granules s.cnum).map Prod.fst).dedup fun tile s =>
          s.epIssue i tl nant bk [] tile (some o)) =
      v.epIssue i tl (s.core.nantAt s.cur.pos s.cur.slot) bk [] tile (some o) := by
  obtain ⟨v, hv, hpop⟩ := State.withPop_go hl hr.det hr.goodQueues hp
  obtain ⟨hdone, hsame⟩ := State.awaited_done hawd
  have hhaz (k : State → Out) : u.withoutHazard (u.runsBusy ((o.keys s.cnum).map fun key => (key, hEsize h))) k = k u :=
    if_neg (ne_true_of_eq_false hz)
  have hmay (k : State → Out) : u.withTurn o k = k u := if_neg (by
    cases hring : o.ring
    · simp
    · simp [hturn hring])
  refine ⟨v, hv, ?_⟩
  rw [State.matWord_go hdone (by rwa [hsame]), hsame, State.withMx_go hpaths hl, hmay, hl.cnum, hhaz,
    State.withNant_go (by rwa [hl.cur, hl.ctlPassed]), State.withBanks_go hr.goodBanks, hpop, hl.nantAt, hl.cur]

end
theorem moutHandle_issues {o : Operand} (hr : (s.awaited tl).matReady [bk] []) (hp : Pops (s.awaited tl) (bias || scale) 6 tile)
    (hok : moutHandleOk (s.core.handleAt ho s.cur.pos s.cur.slot) = true) (hal : handleAligned (s.core.handleAt ho s.cur.pos s.cur.slot) = true)
    (hdec : s.seq.dec = .operand o ∨ s.seq.dec = .none ∧ s.seq.claim = none ∧ hOpen (s.core.handleAt ho s.cur.pos s.cur.slot) = false ∧
      (s.awaited tl).core.matDest (moutDest (s.core.handleAt ho s.cur.pos s.cur.slot)) = .ok o)
    (hturn : o.ring = true → (s.awaited tl).core.mayWrite (hOtid o.h) o.slice = true)
    (hz : ((s.awaited tl).core.interlocked && (s.awaited tl).runsBusy
      ((o.keys s.cnum).map fun key => (key, hEsize (s.core.handleAt ho s.cur.pos s.cur.slot)))) = false) :
    ∃ t, Issues (.moutHandle bk ho epi clr bias scale tl) s t s.core.flights
      (epFlight s (.moutHandle bk ho epi clr bias scale tl) tl bk [] tile (some o)) := by
  have hl : s.Like (s.awaited tl) := .awaited
  have hho (k : W256 → State → Out) : s.withHO ho k = k (s.core.handleAt ho s.cur.pos s.cur.slot) s := if_pos hctl
  have hgo := (execMoutHandle.eq_def bk ho epi clr bias scale tl s).trans (hho _)
  simp only [hok, hal, Bool.not_true, Bool.false_eq_true, if_false, State.withAwait_go ha] at hgo
  rcases State.withDest_go hdec with hd | hd
  · obtain ⟨v, hv, hend⟩ := moutHandle_resolved hctl hpaths hl (fun a => State.awaited_awd) hr hp hturn hz
      (.moutHandle bk ho epi clr bias scale tl)
    exact issues_of_epIssue hv (hgo.trans (hd.trans hend))
  · obtain ⟨v, hv, hend⟩ := moutHandle_resolved (u := (s.awaited tl).resolved o) hctl hpaths hl.resolved
      (fun a hw => (congrArg Seq.awd (State.mapSeq_seq _)).trans (State.awaited_awd hw)) hr hp hturn hz
      (.moutHandle bk ho epi clr bias scale tl)
    exact issues_of_epIssue hv (hgo.trans (hd.trans hend))

end
/-- Settles O32: each epilogue word past its gates issues a result with its bank, its tile and its destination, at its latency. -/
theorem epilogueIssues : Obligations.EpilogueIssues := by
  unfold Obligations.EpilogueIssues
  intro s bk bd t4 ho epi clr bias scale bf cmp aa ab n kc tl ha hpaths hctl
  dsimp only
  have hl : s.Like (s.awaited tl) := .awaited
  rw [hl.flights, hl.interlocked, hl.nantAt]
  refine ⟨fun tile hr hp hz => ?_, fun tile o hr hp hok hal hdec hturn hz => ?_, fun tile hr hp => ?_, fun tile hr hp => ?_⟩
  · exact moutTile_issues ha hctl hpaths hr hp (by rwa [hl.interlocked])
  · exact moutHandle_issues ha hctl hpaths hr hp hok hal hdec hturn (by rwa [hl.interlocked])
  · exact mgate_issues ha hctl hr hp
  · exact mscan_issues ha hctl hr hp

end Sys2Proof.Machine
end

section
/-!
O2: DIV and REM by the cases of 05 R93.
-/
namespace Sys2Proof.Machine

/-! ### Quotients and remainders -/

section
variable {n m : W64}

theorem divWord_zero (g : Sgn) (n : W64) : divWord g n 0 = 0xFFFFFFFFFFFFFFFF := if_pos rfl
theorem remWord_zero (g : Sgn) (n : W64) : remWord g n 0 = n := if_pos rfl
theorem divWord_s (h : m ≠ 0) : divWord .s n m = n.sdiv m :=
  (if_neg h).trans (BitVec.eq_of_toInt_eq (by rw [BitVec.toInt_ofInt, BitVec.toInt_sdiv]))
theorem remWord_s (h : m ≠ 0) : remWord .s n m = n.srem m :=
  (if_neg h).trans (by rw [← BitVec.toInt_srem, BitVec.ofInt_toInt])
theorem divWord_u (h : m ≠ 0) : divWord .u n m = n / m :=
  (if_neg h).trans (by rw [← BitVec.toNat_udiv, BitVec.ofNat_toNat, BitVec.setWidth_eq])
theorem remWord_u (h : m ≠ 0) : remWord .u n m = n % m :=
  (if_neg h).trans (by rw [← BitVec.toNat_umod, BitVec.ofNat_toNat, BitVec.setWidth_eq])
/-- The one signed quotient that 64 bits do not hold wraps to the dividend, with nothing left over. -/
theorem divWord_overflow (hn : n.toInt = -2 ^ 63) (hm : m.toInt = -1) : divWord .s n m = n ∧ remWord .s n m = 0 := by
  obtain rfl : n = BitVec.intMin 64 := BitVec.eq_of_toInt_eq (hn.trans (by decide))
  obtain rfl : m = -1 := BitVec.eq_of_toInt_eq (hm.trans (by decide))
  decide
/-- Every other signed quotient rounds toward zero, and the remainder has the sign of the dividend. -/
theorem divWord_rounds (h : m ≠ 0) (ho : ¬(n.toInt = -2 ^ 63 ∧ m.toInt = -1)) :
    (divWord .s n m).toInt * m.toInt + (remWord .s n m).toInt = n.toInt ∧ (remWord .s n m).toInt.natAbs < m.toInt.natAbs ∧
      (remWord .s n m = 0 ∨ ((remWord .s n m).toInt < 0 ↔ n.toInt < 0)) := by
  have hm : m.toInt ≠ 0 := fun e => h (BitVec.eq_of_toInt_eq (e.trans (by decide)))
  have hne : n ≠ BitVec.intMin 64 ∨ m ≠ -1#64 := by
    by_contra hc
    obtain ⟨rfl, rfl⟩ : n = BitVec.intMin 64 ∧ m = -1#64 := by tauto
    exact ho (by decide)
  rw [divWord_s h, remWord_s h, BitVec.toInt_sdiv_of_ne_or_ne _ _ hne, BitVec.toInt_srem]
  refine ⟨Int.tdiv_mul_add_tmod _ _, ?_, ?_⟩
  · rw [Int.natAbs_tmod]
    exact Nat.mod_lt _ (Int.natAbs_pos.2 hm)
  · by_cases h0 : n.toInt.tmod m.toInt = 0
    · exact .inl (BitVec.eq_of_toInt_eq ((BitVec.toInt_srem ..).trans (h0.trans (by decide))))
    · have hs := Int.sign_tmod n.toInt m.toInt
      rw [if_neg fun hd => h0 (Int.tmod_eq_zero_of_dvd hd)] at hs
      exact .inr (by rw [← Int.sign_eq_neg_one_iff_neg, hs, Int.sign_eq_neg_one_iff_neg])

end

/-- Settles O2: each case of R93 by its value. -/
theorem divideByCases : Obligations.DivideByCases := by
  unfold Obligations.DivideByCases
  intro s d a o h
  dsimp only
  have hdiv {g : Sgn} {v : W64} (hv : divWord g (s.getS a) (s.op2 o) = v) : Puts (.div g d a o) s d v := puts_of_alu (divWord g) rfl h hv
  have hrem {g : Sgn} {v : W64} (hv : remWord g (s.getS a) (s.op2 o) = v) : Puts (.rem g d a o) s d v := puts_of_alu (remWord g) rfl h hv
  refine ⟨fun h0 g => ⟨hdiv (h0 ▸ divWord_zero g _), hrem (h0 ▸ remWord_zero g _)⟩, fun hn hm => ?_, fun h0 ho => ?_, fun h0 => ?_⟩
  · obtain ⟨hq, hr⟩ := divWord_overflow hn hm
    exact ⟨hdiv hq, hrem hr⟩
  · exact ⟨_, _, hdiv rfl, hrem rfl, divWord_rounds h0 ho⟩
  · have hpos : 0 < (s.op2 o).toNat := Nat.pos_of_ne_zero (toNat_ne_zero h0)
    refine ⟨_, _, hdiv (divWord_u h0), hrem (remWord_u h0), ?_⟩
    rw [BitVec.toNat_udiv, BitVec.toNat_umod]
    exact ⟨Nat.div_add_mod' _ _, Nat.mod_lt _ hpos⟩

end Sys2Proof.Machine
end

section
/-!
O9, O10, O11: the words that write and read the fields of a handle (05 R97 to R99).
-/
namespace Sys2Proof.Machine

/-! ### Fields of a handle (03 R53, R54) -/

section
variable (h : W256)

/-- A field's place aside, a handle keeps its bits. -/
theorem setHBits_frame {lo len v j : Nat} (hj : ¬(lo ≤ j ∧ j < lo + len)) : (setHBits h lo len v).getLsbD j = h.getLsbD j := by
  by_cases hb : j < 256
  · rw [setHBits_bit _ _ _ _ _ hb, if_neg hj]
  · rw [BitVec.getLsbD_of_ge _ _ (Nat.not_lt.1 hb), BitVec.getLsbD_of_ge _ _ (Nat.not_lt.1 hb)]
theorem hSpc_lt : hSpc h < 4 := (h.extractLsb' 52 2).isLt
theorem hBits_word (lo len : Nat) : BitVec.ofNat 64 (hBits h lo len) = (h.extractLsb' lo len).setWidth 64 := BitVec.ofNat_toNat ..
/-- A field of one bit, read as a truth value, is that bit. -/
theorem hBits_flag (lo : Nat) : BitVec.ofNat 64 (hBits h lo 1 == 1).toNat = (h.extractLsb' lo 1).setWidth 64 := by
  have hlt : hBits h lo 1 < 2 := (h.extractLsb' lo 1).isLt
  rw [← hBits_word]
  interval_cases hBits h lo 1 <;> rfl
theorem sextNat_eq_toInt {w : Nat} (hw : 0 < w) (x : BitVec w) : sextNat x.toNat w = x.toInt := by
  obtain ⟨w, rfl⟩ := Nat.exists_eq_succ_of_ne_zero hw.ne'
  rw [sextNat, BitVec.toInt_eq_toNat_cond, Nat.succ_sub_one]
  by_cases hx : 2 ^ w ≤ x.toNat
  · rw [if_pos hx, if_neg (by rw [Nat.pow_succ]; omega)]
    norm_cast
  · rw [if_neg hx, if_pos (by rw [Nat.pow_succ]; omega)]
theorem hStr_word (k : Nat) : BitVec.ofInt 64 (hStr h k) = (h.extractLsb' (171 + 17 * k) 17).signExtend 64 :=
  congrArg (BitVec.ofInt 64) (sextNat_eq_toInt (by decide) (h.extractLsb' (171 + 17 * k) 17))
/-- BASE replaced: the other 204 bits above the new 52. -/
theorem setHBits_base (n : Nat) : setHBits h 0 52 n = h.extractLsb' 52 204 ++ BitVec.ofNat 52 n := by
  refine BitVec.eq_of_getLsbD_eq fun j hj => ?_
  rw [setHBits_bit _ _ _ _ _ hj, BitVec.getLsbD_append]
  by_cases hb : j < 52
  · rw [if_pos ⟨Nat.zero_le j, by omega⟩, if_pos hb, BitVec.getLsbD_ofNat, decide_eq_true hb, Bool.true_and, Nat.sub_zero]
  · have hk : j - 52 < 204 := by omega
    have hs : 52 + (j - 52) = j := by omega
    simp [hb, hk, hs]

end

/-! ### HMOV, HCLR and the HSET family (05 R97) -/

section
variable {s : State} {h : HReg} {o : Op2} {f : W256 → Nat → W256}

/-- A word that changes fields of a tensor handle writes what it makes of it. -/
theorem State.editH_go (hs : s.settled (op2Regs o) = true) (hspc : hSpc (s.core.getH h) ≠ 3) :
    s.editH h o f = .next (s.putH h (f (s.core.getH h) (s.op2 o).toNat)) := by
  rw [State.editH, State.withRegs_go hs, if_neg hspc]
theorem State.editH_stream (hs : s.settled (op2Regs o) = true) (hspc : hSpc (s.core.getH h) = 3) :
    s.editH h o f = .next (s.trap fIllop) := by
  rw [State.editH, State.withRegs_go hs, if_pos hspc]

end

section
variable {s : State} {h : HReg} {o : Op2} (v : W256) (x : Nat)

/-- What HSETB makes of a handle. -/
def hsetbWord (p : HSpc) : W256 := setHBits (setHBits v 0 52 x) 52 2 (spcNo p)
/-- What HSETX makes of a handle: the axes below 5 have a stride as well. -/
def hsetxWord (k : Nat) : W256 :=
  if k ≤ 4 then setHBits (setHBits v (64 + 16 * k) 16 x) (171 + 17 * k) 17 (x / 2 ^ 16) else setHBits v (64 + 16 * k) 16 x
/-- What HSETS makes of a handle. -/
def hsetsWord : W256 := setHBits (setHBits v 60 3 x) 168 3 (x / 8)
/-- What HSETF makes of a handle. -/
def hsetfWord : W256 := setHBits (setHBits (setHBits (setHBits v 54 6 x) 63 1 (x / 2 ^ 6)) 160 7 (x / 2 ^ 7)) 167 1 (x / 2 ^ 14)

theorem hsetbWord_fields (p : HSpc) : hBase (hsetbWord v x p) = x % 2 ^ 52 ∧ hSpc (hsetbWord v x p) = spcNo p := by
  constructor
  · exact (hBits_set_other _ 52 2 _ 0 52 (by decide) (by decide)).trans (hBits_set_same _ 0 52 _ (by decide))
  · refine (hBits_set_same _ 52 2 _ (by decide)).trans ?_
    cases p <;> rfl
theorem hsetbWord_frame (p : HSpc) {j : Nat} (hj : ¬j < 54) : (hsetbWord v x p).getLsbD j = v.getLsbD j :=
  (setHBits_frame _ (by omega)).trans (setHBits_frame _ (by omega))
theorem hsetxWord_fields {k : Nat} (hk : k ≤ 5) : hExt (hsetxWord v x k) k = x % 2 ^ 16 ∧
    (k ≤ 4 → hBits (hsetxWord v x k) (171 + 17 * k) 17 = x / 2 ^ 16 % 2 ^ 17) := by
  have hext : hBits (setHBits v (64 + 16 * k) 16 x) (64 + 16 * k) 16 = x % 2 ^ 16 := hBits_set_same _ _ _ _ (by omega)
  by_cases h4 : k ≤ 4
  · rw [hsetxWord, if_pos h4]
    exact ⟨(hBits_set_other _ _ _ _ _ _ (by omega) (by omega)).trans hext, fun _ => hBits_set_same _ _ _ _ (by omega)⟩
  · rw [hsetxWord, if_neg h4]
    exact ⟨hext, fun h => absurd h h4⟩
theorem hsetxWord_frame {k j : Nat} (hj : ¬((64 + 16 * k ≤ j ∧ j < 80 + 16 * k) ∨ (k ≤ 4 ∧ 171 + 17 * k ≤ j ∧ j < 188 + 17 * k))) :
    (hsetxWord v x k).getLsbD j = v.getLsbD j := by
  have hext : (setHBits v (64 + 16 * k) 16 x).getLsbD j = v.getLsbD j := setHBits_frame _ (by omega)
  by_cases h4 : k ≤ 4
  · rw [hsetxWord, if_pos h4]
    exact (setHBits_frame _ (by omega)).trans hext
  · rw [hsetxWord, if_neg h4]
    exact hext
theorem hsetsWord_fields : hRank (hsetsWord v x) = x % 8 ∧ hSsh (hsetsWord v x) = x / 8 % 8 :=
  ⟨(hBits_set_other _ 168 3 _ 60 3 (by decide) (by decide)).trans (hBits_set_same _ 60 3 _ (by decide)),
    hBits_set_same _ 168 3 _ (by decide)⟩
theorem hsetsWord_frame {j : Nat} (hj : ¬((60 ≤ j ∧ j < 63) ∨ (168 ≤ j ∧ j < 171))) : (hsetsWord v x).getLsbD j = v.getLsbD j :=
  (setHBits_frame _ (by omega)).trans (setHBits_frame _ (by omega))
theorem hsetfWord_fields : hFmt (hsetfWord v x) = x % 2 ^ 6 ∧ hBits (hsetfWord v x) 63 1 = x / 2 ^ 6 % 2 ^ 1 ∧
    hOtid (hsetfWord v x) = x / 2 ^ 7 % 2 ^ 7 ∧ hBits (hsetfWord v x) 167 1 = x / 2 ^ 14 % 2 ^ 1 := by
  have keep (u : W256) (lo len y lo' len' : Nat) (hl : lo' + len' ≤ 256) (hd : lo' + len' ≤ lo) :
      hBits (setHBits u lo len y) lo' len' = hBits u lo' len' := hBits_set_other _ _ _ _ _ _ hl (.inl hd)
  refine ⟨?_, ?_, ?_, hBits_set_same _ 167 1 _ (by decide)⟩
  · rw [hFmt, hsetfWord, keep _ _ _ _ _ _ (by decide) (by decide), keep _ _ _ _ _ _ (by decide) (by decide),
      keep _ _ _ _ _ _ (by decide) (by decide), hBits_set_same _ _ _ _ (by decide)]
  · rw [hsetfWord, keep _ _ _ _ _ _ (by decide) (by decide), keep _ _ _ _ _ _ (by decide) (by decide), hBits_set_same _ _ _ _ (by decide)]
  · rw [hOtid, hsetfWord, keep _ _ _ _ _ _ (by decide) (by decide), hBits_set_same _ _ _ _ (by decide)]
theorem hsetfWord_frame {j : Nat} (hj : ¬((54 ≤ j ∧ j < 60) ∨ j = 63 ∨ (160 ≤ j ∧ j < 168))) : (hsetfWord v x).getLsbD j = v.getLsbD j :=
  (setHBits_frame _ (by omega)).trans ((setHBits_frame _ (by omega)).trans ((setHBits_frame _ (by omega)).trans (setHBits_frame _ (by omega))))
theorem hsetb_edits (p : HSpc) : exec (.hsetb p h o) s = s.editH h o fun v x => hsetbWord v x p := rfl
theorem hsetx_edits (k : BitVec 6) : exec (.hsetx h k o) s = s.editH h o fun v x => hsetxWord v x k.toNat := rfl
theorem hsets_edits : exec (.hsets h o) s = s.editH h o hsetsWord := rfl
theorem hsetf_edits : exec (.hsetf h o) s = s.editH h o hsetfWord := rfl
/-- A bit of a word, as the field of one bit that it is written to. -/
theorem getLsbD_of_flag {x : W64} {k n : Nat} (h : n = x.toNat / 2 ^ k % 2 ^ 1) : (n == 1) = x.getLsbD k := by
  rw [h, pow_one, ← BitVec.testBit_toNat, Nat.testBit_eq_decide_div_mod_eq]
  rfl

end

/-- Settles O9: each word writes what it makes of the handle, or meets a stream end. -/
theorem handleWords : Obligations.HandleWords := by
  unfold Obligations.HandleWords
  intro s ha hb o p k hs
  dsimp only
  refine ⟨rfl, rfl, fun hspc => ?_, fun hspc => ?_⟩
  · generalize hx : s.op2 o = x
    have edits {i : Instr} {f : W256 → Nat → W256} (hi : exec i s = s.editH ha o f) : Goes i s (s.putH ha (f (s.core.getH ha) x.toNat)) :=
      hx ▸ hi.trans (State.editH_go hs hspc)
    obtain ⟨hfmt, hopen, hotid, htag⟩ := hsetfWord_fields (s.core.getH ha) x.toNat
    exact ⟨⟨_, ⟨edits (hsetb_edits p), fun j hj => hsetbWord_frame _ _ p hj⟩, hsetbWord_fields ..⟩,
      fun hk => ⟨_, ⟨edits (hsetx_edits k), fun j hj => hsetxWord_frame _ _ hj⟩, hsetxWord_fields _ _ hk⟩,
      ⟨_, ⟨edits hsets_edits, fun j hj => hsetsWord_frame _ _ hj⟩, hsetsWord_fields ..⟩,
      ⟨_, ⟨edits hsetf_edits, fun j hj => hsetfWord_frame _ _ hj⟩, hfmt, getLsbD_of_flag hopen, hotid, getLsbD_of_flag htag⟩⟩
  · have stuck {i : Instr} {f : W256 → Nat → W256} (hi : exec i s = s.editH ha o f) : Goes i s (s.trap fIllop) :=
      hi.trans (State.editH_stream hs hspc)
    exact ⟨stuck (hsetb_edits p), stuck (hsetx_edits k), stuck hsets_edits, stuck hsetf_edits⟩

/-! ### HGET (05 R98) -/

section
variable (v : W256) {n : Nat}

theorem hgetField_ext (h5 : 5 ≤ n) (h10 : n ≤ 10) : hgetField v n = BitVec.ofNat 64 (hExt v (n - 5)) := by
  interval_cases n <;> rfl
theorem hgetField_str (h11 : 11 ≤ n) (h15 : n ≤ 15) : hgetField v n = BitVec.ofInt 64 (hStr v (n - 11)) := by
  interval_cases n <;> rfl
theorem hgetField_word (h19 : 19 ≤ n) (h22 : n ≤ 22) : hgetField v n = BitVec.ofNat 64 (hBits v (64 * (n - 19)) 64) := by
  interval_cases n <;> rfl
end

/-- Settles O10: each selector by its field. -/
theorem hgetSelectors : Obligations.HgetSelectors := by
  unfold Obligations.HgetSelectors
  intro s d h sel hs
  dsimp only
  have puts {x : W64} (hx : hgetField (s.core.getH h) sel.toNat = x) : Puts (.hget d h sel) s d x :=
    puts_of_withRegs (fun s => hgetField (s.core.getH h) sel.toNat) rfl hs (fun _ hr => hr) hx
  have at' {n : Nat} {x : W64} (hx : hgetField (s.core.getH h) n = x) (hn : sel.toNat = n) : Puts (.hget d h sel) s d x := puts (hn ▸ hx)
  refine ⟨at' (hBits_word ..), at' (hBits_word ..), at' (hBits_word ..), at' (hBits_word ..), at' (hBits_flag ..),
    fun h5 h10 => puts ((hgetField_ext _ h5 h10).trans (hBits_word ..)), fun h11 h15 => puts ((hgetField_str _ h11 h15).trans (hStr_word ..)),
    at' (hBits_word ..), at' (hBits_word ..), at' (hBits_flag ..), fun h19 h22 => puts ?_, fun h22 => ?_⟩
  · rw [hgetField_word _ h19 h22, hBits_word, BitVec.setWidth_eq]
  · exact decide_eq_false (Nat.not_le.2 h22)

/-! ### HOFF (05 R99) -/

/-- HOFF traps on a drawer, a stream end or an axis without a step, and otherwise writes the moved BASE. -/
theorem hoff_goes {s : State} {h : HReg} {k : BitVec 6} {o : Op2} (hs : s.settled (op2Regs o) = true) : exec (.hoff h k o) s =
    .next (if 2 ≤ hSpc (s.core.getH h) ∨ (k = 5 ∧ (fmtSize (hFmt (s.core.getH h))).isNone) then s.trap fIllop else s.putH h
      (setHBits (s.core.getH h) 0 52 ((hBase (s.core.getH h) + (s.op2 o).toInt * hStep (s.core.getH h) k.toNat) % 2 ^ 52 : Int).toNat)) := by
  change execHoff h k o s = _
  rw [execHoff, State.withRegs_go hs]
  dsimp only
  split_ifs <;> rfl

/-- Settles O11: the new BASE stands below the handle's other bits. -/
theorem hoffMovesBase : Obligations.HoffMovesBase := by
  unfold Obligations.HoffMovesBase
  intro s h k o hs
  dsimp only
  have h5 : k.toNat = 5 ↔ k = 5 := BitVec.toNat_inj (y := 5)
  have hspc := hSpc_lt (s.core.getH h)
  rw [hoff_goes hs]
  generalize s.core.getH h = v at *
  have hstuck : (2 ≤ hSpc v ∨ k = 5 ∧ (fmtSize (hFmt v)).isNone = true) ↔ (hSpc v = 2 ∨ hSpc v = 3 ∨ k = 5 ∧ fmtSize (hFmt v) = none) := by
    rw [Option.isNone_iff_eq_none, ← or_assoc]
    exact or_congr_left (by omega)
  have hmove : hStep v k.toNat = if k = 5 then (((fmtSize (hFmt v)).getD 1 : Nat) : Int) else hStr v k.toNat * 64 * 2 ^ hSsh v := by
    simp only [hStep, h5]
    split_ifs
    · rfl
    · push_cast
      ring
  refine ⟨fun hn => ?_, fun hy => ?_, fun hk => decide_eq_false (Nat.not_le.2 hk)⟩
  · have hpos : 0 ≤ (hBase v + (s.op2 o).toInt * hStep v k.toNat) % 2 ^ 52 := Int.emod_nonneg _ (by decide)
    rw [if_neg (mt hstuck.1 hn), setHBits_base, ← BitVec.ofInt_natCast, Int.toNat_of_nonneg hpos, hmove]
  · rw [if_pos (hstuck.2 hy)]

end Sys2Proof.Machine
end

section
/-!
O3: what the register words of CTL and ACC leave as it was, and the scalar file (05 R89, R92, R97; 07 R139).
-/
namespace Sys2Proof.Machine

/-! ### Updates of a register and of the running walk -/

section
variable (s : State)

/-- The scalar file and the running walk have changed, of the file one register. -/
def OnlyScalar (d : SReg) (t : State) : Prop :=
  t = { s with core := { s.core with s := t.core.s, seqs := t.core.seqs } } ∧ SameScalars d s t ∧ SameWalks s t ∧ SameBytes s t
/-- The handles, their history and the running walk have changed, of the handles one. -/
def OnlyHandle (h : HReg) (t : State) : Prop :=
  t = { s with core := { s.core with h := t.core.h, hist := t.core.hist, hbase := t.core.hbase, seqs := t.core.seqs } } ∧
    SameHandles h s t ∧ SameWalks s t ∧ SameBytes s t
/-- The address registers and the running walk have changed, of the registers one. -/
def OnlyAddr (d : AReg) (t : State) : Prop :=
  t = { s with core := { s.core with a := t.core.a, seqs := t.core.seqs } } ∧ SameAddrs d s t ∧ SameWalks s t ∧ SameBytes s t

theorem State.waiting_sameWalks (w : Wait) : SameWalks s (s.waiting w) := fun _ he => PerEng.get_set_ne _ _ he
theorem State.complete_sameWalks (n : Nat) : SameWalks s (s.complete n) := fun _ he => PerEng.get_set_ne _ _ he
theorem Core.getH_setH_ne (c : Core) {h k : HReg} (v : W256) (hk : k ≠ h) : (c.setH h v).getH k = c.getH k := by
  have hn : h.toNat ≠ k.toNat := fun e => hk (BitVec.eq_of_toNat_eq e.symm)
  simp [Core.getH, Core.setH, Core.pruneHist, hn]

theorem State.waiting_onlyScalar (d : SReg) (w : Wait) : OnlyScalar s d (s.waiting w) :=
  ⟨rfl, fun _ _ => rfl, s.waiting_sameWalks w, sameBytes_of_eq rfl rfl⟩
theorem State.putS_onlyScalar (d : SReg) (v : W64) : OnlyScalar s d (s.putS d v) := by
  have hset : s.setS d v = { s with core := { s.core with s := (s.setS d v).core.s } } := by
    by_cases h0 : d = 0
    · rw [h0]
      rfl
    · rw [State.setS, if_neg h0]
  refine ⟨?_, fun r hr => s.getS_setS_ne v hr, fun e he => ?_, sameBytes_of_eq (s.putS_mem d v) (s.putS_spad d v)⟩
  · rw [State.putS, hset]
    rfl
  · rw [State.putS, hset]
    exact State.complete_sameWalks _ 1 e he
theorem State.waiting_onlyHandle (h : HReg) (w : Wait) : OnlyHandle s h (s.waiting w) :=
  ⟨rfl, fun _ _ => rfl, s.waiting_sameWalks w, sameBytes_of_eq rfl rfl⟩
theorem State.putH_onlyHandle (h : HReg) (v : W256) : OnlyHandle s h (s.putH h v) :=
  ⟨rfl, fun _ hk => s.core.getH_setH_ne v hk, State.complete_sameWalks (s.mapCore fun c => c.setH h v) 1, sameBytes_of_eq rfl rfl⟩
theorem State.putA_onlyAddr (d : AReg) (v : W64) : OnlyAddr s d ((s.setA d v).complete 1) :=
  ⟨rfl, fun _ hr => s.getA_setA_ne v hr, State.complete_sameWalks (s.setA d v) 1, sameBytes_of_eq rfl rfl⟩

end

/-! ### What a register word can do -/

section
variable {i : Instr} {s t : State}

/-- A word of the integer group waits for its registers, then writes its destination. -/
theorem exec_of_scalarDest {d : SReg} (h : scalarDest i = some d) :
    ∃ (rs : List SReg) (f : State → W64), ∀ s, exec i s = s.withRegs rs fun s => .next (s.putS d (f s)) := by
  unfold scalarDest at h
  split at h <;> cases h
  all_goals exact ⟨_, _, fun _ => rfl⟩
theorem onlyScalar_of_exec {d : SReg} (h : scalarDest i = some d) (ht : exec i s = .next t) : OnlyScalar s d t := by
  obtain ⟨rs, f, hf⟩ := exec_of_scalarDest h
  rw [hf] at ht
  by_cases hs : s.settled rs = true
  · rw [State.withRegs_go hs] at ht
    cases ht
    exact s.putS_onlyScalar d _
  · rw [State.withRegs_wait (Bool.eq_false_of_not_eq_true hs)] at ht
    cases ht
    exact s.waiting_onlyScalar d _
/-- What a word that waits for the registers of op2, and then traps or writes its handle, has led to. -/
def HandleOut (s : State) (h : HReg) (t : State) : Prop := t = s.waiting .internal ∨ t = s.trap fIllop ∨ ∃ v, t = s.putH h v

theorem State.withRegs_handleOut {rs : List SReg} {h : HReg} {k : State → Out} (ht : s.withRegs rs k = .next t)
    (hk : k s = .next t → HandleOut s h t) : HandleOut s h t := by
  by_cases hs : s.settled rs = true
  · rw [State.withRegs_go hs] at ht
    exact hk ht
  · rw [State.withRegs_wait (Bool.eq_false_of_not_eq_true hs)] at ht
    cases ht
    exact .inl rfl
/-- Traps under a condition, writes its handle otherwise. -/
theorem handleOut_of_ite {h : HReg} {c : Prop} [Decidable c] {v : W256} (ht : (if c then Host.Outcome.next (s.trap fIllop)
    else .next (s.putH h v) : Out) = .next t) : HandleOut s h t := by
  split at ht <;> cases ht
  · exact .inr (.inl rfl)
  · exact .inr (.inr ⟨v, rfl⟩)
theorem State.editH_handleOut {h : HReg} {o : Op2} {f : W256 → Nat → W256} (ht : s.editH h o f = .next t) : HandleOut s h t :=
  State.withRegs_handleOut ht handleOut_of_ite
theorem handleOut_of_exec {h : HReg} (hi : handleDest i = some h) (ht : exec i s = .next t) : HandleOut s h t := by
  unfold handleDest at hi
  split at hi <;> cases hi
  case h_1 | h_7 => exact .inr (.inr ⟨_, (Host.Outcome.next.inj ht).symm⟩)
  case h_2 => exact State.editH_handleOut ((hsetb_edits _).symm.trans ht)
  case h_3 => exact State.editH_handleOut ((hsetx_edits _).symm.trans ht)
  case h_4 => exact State.editH_handleOut (hsets_edits.symm.trans ht)
  case h_5 => exact State.editH_handleOut (hsetf_edits.symm.trans ht)
  case h_6 => exact State.withRegs_handleOut ((execHoff.eq_def ..).symm.trans ht) handleOut_of_ite
theorem exec_of_addrDest {d : AReg} (h : addrDest i = some d) (s : State) : ∃ v, exec i s = .next ((s.setA d v).complete 1) := by
  unfold addrDest at h
  split at h <;> cases h
  all_goals exact ⟨_, rfl⟩

end

/-- Settles O3: what each kind of register word can do, and the frame of each such update. -/
theorem registerWordFrames : Obligations.RegisterWordFrames := by
  unfold Obligations.RegisterWordFrames
  refine ⟨fun i d s t h ht => onlyScalar_of_exec h ht, fun i h s t hi ht => ?_, fun i d s t h ht => ?_, fun s r q v hl => ?_⟩
  · rcases handleOut_of_exec hi ht with rfl | rfl | ⟨v, rfl⟩
    · exact .inr (s.waiting_onlyHandle h _)
    · exact .inl rfl
    · exact .inr (s.putH_onlyHandle h v)
  · obtain ⟨v, hv⟩ := exec_of_addrDest h s
    obtain rfl := Host.Outcome.next.inj (hv.symm.trans ht)
    exact s.putA_onlyAddr d v
  · exact ⟨s.getS_zero, s.setS_zero v, fun h0 => s.getS_setS r v h0 (hl ▸ r.isLt), fun hq => s.getS_setS_ne v hq⟩

end Sys2Proof.Machine
end

section
/-!
O14: a trap of a word: its record, the entry to the handler, the escalation (05 R104; 25 R371, R373, R376, R377).
-/
namespace Sys2Proof.Machine

/-! ### The record (25 R371) -/

/-- The fields of a record's first word (25 R371). -/
theorem TrapInfo.words_fields (i : TrapInfo) (hnd : Bool) :
    let r := (i.words hnd).getD 0 0
    r.extractLsb' 40 8 = i.reason ∧ r.extractLsb' 32 8 = i.cause ∧ r.getLsbD 17 = i.awd ∧ r.getLsbD 16 = hnd ∧ r.getLsbD 14 = i.rulei := by
  have hr := i.reason.isLt
  have hc := i.cause.isLt
  have ha := toNat_le_one i.awd
  have hh := toNat_le_one hnd
  have hs := toNat_le_one i.async
  have hi := toNat_le_one i.rulei
  have he := engNo_lt i.eng
  dsimp only [TrapInfo.words, List.getD_cons_zero]
  refine ⟨extractLsb'_ofNat_eq ?_ ?_, extractLsb'_ofNat_eq ?_ ?_, getLsbD_ofNat_eq (by decide) ?_, getLsbD_ofNat_eq (by decide) ?_,
    getLsbD_ofNat_eq (by decide) ?_⟩ <;> simp only [fld] <;> omega

/-! ### The handler, or the escalation (25 R373, R376, R377) -/

section
variable (c : Core) (t : TrapInfo) (held : Held) (m : Bool)

/-- The core with a trap's record and LASTC (25 R371). -/
def Core.recorded : Core := { c with traprec := t.words c.aside.isSome, lastc := t.cause }
theorem Core.takeTrap_enters (he : c.trapEn = true) (ha : c.aside = none) :
    c.takeTrap t held m = (c.recorded t).enterHandler held t.eng m :=
  if_pos (by simp [he, ha])
theorem Core.takeTrap_escalates (h : c.trapEn = false ∨ c.aside.isSome = true) :
    c.takeTrap t held m = { c.recorded t with escal := some (t.cause, c.aside.isSome), halt := .stopping } :=
  if_neg (by rcases h with h | h <;> simp [h])
theorem Core.enterHandler_get (e e' : Eng) : (c.enterHandler held e' m).seqs.get e =
    { Seq.reset with pc := c.trapBlk.toNat * 64, rbase := (c.seqs.get e).rbase, rotsz := (c.seqs.get e).rotsz, lidx := (c.seqs.get e).lidx } :=
  PerEng.get_mapE ..

end

/-- Settles O14: the record's words, the core that enters its handler, the core that escalates. -/
theorem trapsTaken : Obligations.TrapsTaken := by
  unfold Obligations.TrapsTaken
  refine ⟨fun s v => ⟨_, rfl, ?_⟩, fun s t e he ha => ?_, fun s t h => ?_⟩
  · dsimp only [State.trapWith, State.mapCore_core]
    obtain ⟨hrec, hlast, -⟩ := s.core.takeTrap_frame { s.info Cause.swtrap with aux := v } .word s.isMul
    obtain ⟨hreason, hcause, hawd, hhnd, hrulei⟩ := TrapInfo.words_fields { s.info Cause.swtrap with aux := v } s.core.aside.isSome
    have hrule : fld (0 % 32) 32 + 0 % 2 ^ 32 = 0 := rfl
    have hplace : fld (0 % 64) 56 + fld (0 % 64) 48 + fld (0 % 4096) 32 + 0 % 2 ^ 32 = 0 := rfl
    rw [hrec, hlast]
    exact ⟨rfl, rfl, hreason, hcause, hawd, hhnd, TrapInfo.words_async .., hrulei, TrapInfo.words_eng .., rfl, rfl,
      congrArg (BitVec.ofNat 64) hrule, congrArg (BitVec.ofNat 64) hplace, rfl, rfl, rfl⟩
  · dsimp only [State.trapWith, State.mapCore_core]
    rw [Core.takeTrap_enters _ _ _ _ he ha, Core.enterHandler_get]
    exact ⟨rfl, rfl, rfl, rfl, rfl, rfl, rfl, rfl, rfl, rfl, rfl, rfl, rfl, rfl, rfl, ⟨_, rfl, rfl, rfl, rfl, rfl, rfl, rfl, rfl⟩, rfl, rfl,
      rfl, rfl, rfl, rfl, rfl, rfl, rfl, rfl, rfl, rfl, rfl, rfl⟩
  · dsimp only [State.trapWith, State.mapCore_core]
    obtain ⟨-, -, -, hhnd, -⟩ := t.words_fields s.core.aside.isSome
    rw [Core.takeTrap_escalates _ _ _ _ h]
    exact ⟨rfl, rfl, rfl, rfl, rfl, hhnd⟩

end Sys2Proof.Machine
end

section
/-!
O15: ERET and ERET.SKIP, and the walk that a return restores (05 R104; 25 R374, R375).
-/
namespace Sys2Proof.Machine

/-! ### What the parts of a return leave set aside -/

section
variable {c d : Core} {s : State}

theorem Core.SameButRecords.aside (h : c.SameButRecords d) : d.aside = c.aside := by
  obtain ⟨rs, rl, rfl⟩ := h
  rfl
theorem Core.dropBinds_records (c : Core) (bs : List Bind) : c.SameButRecords (c.dropBinds bs) :=
  .foldl (fun c b => c.dropBind_records b) bs c
theorem Core.endPhase_aside (c : Core) (p : Phase) : (c.endPhase p).aside = c.aside := by
  unfold Core.endPhase
  dsimp only
  split
  · exact (Core.dropBinds_records _ p.binds).aside
  · rfl
theorem Core.phaseAgain_aside (c : Core) (b : Bool) : (c.phaseAgain b).aside = c.aside := by
  unfold Core.phaseAgain
  split
  · rfl
  · split_ifs
    · rfl
    · exact Core.endPhase_aside c _
    · rfl
theorem Core.phaseAgain_seqs (c : Core) : (c.phaseAgain false).seqs = c.seqs := by
  unfold Core.phaseAgain
  split
  · rfl
  · rw [if_neg Bool.false_ne_true]
    split <;> rfl
theorem Core.resume_walk (c : Core) (e : Eng) : (c.resume e).aside = c.aside ∧ (c.resume e).seqs = c.seqs := by
  cases e <;> exact ⟨rfl, rfl⟩
theorem Core.mapChan_aside (c : Core) (q : CopyCmd) (f : ChanCopy → ChanCopy) : (c.mapChan q f).aside = c.aside := by
  unfold Core.mapChan
  split <;> rfl
theorem Core.setCopies_aside (c : Core) (e : CopyEng) (l : List CopyCmd) : (c.setCopies e l).aside = c.aside := by cases e <;> rfl
theorem Core.leaveCopies_aside (c : Core) (e : CopyEng) (q : CopyCmd) : (c.leaveCopies e q).aside = c.aside := by
  unfold Core.leaveCopies
  extract_lets c1
  have h1 : c1.aside = c.aside := (Core.mapChan_aside ..).trans (Core.setCopies_aside ..)
  split
  · split
    · exact (Core.dropReader_records ..).aside.trans h1
    · exact h1
  · exact h1
theorem State.passCred_core (s : State) (q : CopyCmd) : (s.passCred q).core = s.core := by
  unfold State.passCred State.passGroup
  split
  · split
    · rfl
    · split <;> rfl
  · rfl
theorem State.abandonCopy_aside (s : State) (e : CopyEng) : (s.abandonCopy e).core.aside = s.core.aside := by
  unfold State.abandonCopy
  split
  · rfl
  · dsimp only [State.mapCore_core]
    rw [Core.leaveCopies_aside, Core.setCopies_aside, State.passCred_core]
theorem State.abandon_aside (s : State) (e : Eng) : (s.abandon e).core.aside = s.core.aside := by
  unfold State.abandon
  split
  case h_1 | h_2 => exact s.abandonCopy_aside _
  case h_3 => split <;> rfl
  case h_4 =>
    split
    · exact (Core.dropBinds_records ..).aside
    · rfl
  case h_5 => rfl
theorem State.leaveHandler_core (s : State) : ∃ a, s.leaveHandler.core = { s.core with halt := a } := by
  unfold State.leaveHandler
  split
  · exact ⟨_, rfl⟩
  · exact ⟨_, rfl⟩

end

/-! ### The walk that a return restores -/

section
variable (s : State) (c : Core) (w : Aside)

theorem Core.restoreWalk_get (e : Eng) : (c.restoreWalk w).seqs.get e = { w.seqs.get e with
    wait := none, tried := false, dec := .none,
    due := (w.seqs.get e).due + (c.clockOf e - (if lockstep e then w.vcyc else w.cycle).toNat) } := PerEng.get_mapE ..
/-- ERET leaves the handler with the restored walk. -/
theorem State.eret_walk : (s.eret w).core.aside = none ∧ (s.eret w).core.seqs = (s.core.restoreWalk w).seqs := by
  unfold State.eret
  extract_lets s1 s2
  obtain ⟨a, ha⟩ := s2.leaveHandler_core
  have h2 : s2.core.aside = none ∧ s2.core.seqs = (s.core.restoreWalk w).seqs := by
    dsimp only [s2]
    split
    · exact Core.resume_walk ..
    · exact ⟨Core.phaseAgain_aside .., Core.phaseAgain_seqs _⟩
    · exact ⟨rfl, rfl⟩
  rw [ha]
  exact h2
theorem State.eretSkip_aside : (s.eretSkip w).core.aside = none := by
  unfold State.eretSkip
  extract_lets s1 s2
  obtain ⟨a, ha⟩ := s2.leaveHandler_core
  rw [ha]
  show s2.core.aside = none
  dsimp only [s2]
  split
  · rfl
  · exact s1.abandon_aside _
  · exact Core.phaseAgain_aside ..
  · split <;> rfl
  · rfl
/-- ERET.SKIP of a word: the trapped sequencer is past it. -/
theorem State.eretSkip_seqs (hw : w.held = .word) : (s.eretSkip w).core.seqs = ((s.core.restoreWalk w).skipWord w.eng).seqs := by
  unfold State.eretSkip
  rw [hw]
  obtain ⟨a, ha⟩ := ((s.mapCore fun c => c.restoreWalk w).mapCore fun c => c.skipWord w.eng).leaveHandler_core
  dsimp only
  rw [ha]
  rfl
theorem Core.skipWord_pc (e e' : Eng) : ((c.skipWord e').seqs.get e).pc = (c.seqs.get e).pc + if e = e' then 16 else 0 := by
  by_cases h : e = e'
  · rw [h, if_pos rfl, Core.skipWord, PerEng.get_set, Seq.advance_pc]
  · rw [if_neg h, Core.skipWord, PerEng.get_set_ne _ _ h, Nat.add_zero]

end

/-! ### ERET and ERET.SKIP (05 R104) -/

section
variable {s : State} {w : Aside}

theorem State.observed_other {k : State → Out} (h : s.who ≠ .ctl) : s.observed k = .next (s.waiting .internal) := if_neg h
theorem State.observed_ctl {k : State → Out} (h : s.who = .ctl) : s.observed k = k s := if_pos h
theorem eret_other (hw : s.who ≠ .ctl) : Goes .eret s (s.waiting .internal) ∧ Goes .eretSkip s (s.waiting .internal) := by
  change execEret s = _ ∧ execEretSkip s = _
  exact ⟨State.observed_other hw, State.observed_other hw⟩
theorem eret_outside (hw : s.who = .ctl) (ha : s.core.aside = none) :
    Goes .eret s (s.trap fIllop) ∧ Goes .eretSkip s (s.trap fIllop) := by
  change execEret s = _ ∧ execEretSkip s = _
  rw [execEret, execEretSkip, State.observed_ctl hw, State.observed_ctl hw, ha]
  exact ⟨rfl, rfl⟩
theorem eret_inside (hw : s.who = .ctl) (ha : s.core.aside = some w) :
    exec .eret s = if s.core.eretBusy w then .next (s.waiting .internal) else .next (s.eret w) := by
  change execEret s = _
  rw [execEret, State.observed_ctl hw, ha]
theorem eretSkip_inside (hw : s.who = .ctl) (ha : s.core.aside = some w) :
    exec .eretSkip s = if w.mulWord then .next (s.trap fIllop)
      else if s.core.eretBusy w then .next (s.waiting .internal) else .next (s.eretSkip w) := by
  change execEretSkip s = _
  rw [execEretSkip, State.observed_ctl hw, ha]

end

/-! ### An immediate return (25 R373 to R375) -/

section
variable (c : Core) (m : Bool)

theorem Core.clockOf_eq (e : Eng) : c.clockOf e = (if lockstep e then c.vcyc else c.cycle).toNat := by
  unfold Core.clockOf
  split <;> rfl
/-- No clock has run since the entry, so no issue is put off. -/
theorem Core.restoreWalk_entered_get (e e' : Eng) : ((c.enterHandler .word e m).restoreWalk (c.setAside .word e m)).seqs.get e' =
    { c.seqs.get e' with wait := none, tried := false, dec := .none } := by
  have hdue : (c.seqs.get e').due + (c.clockOf e' - (if lockstep e' then c.vcyc else c.cycle).toNat) = (c.seqs.get e').due := by
    rw [Core.clockOf_eq, Nat.sub_self, Nat.add_zero]
  exact (Core.restoreWalk_get ..).trans
    (congrArg (fun n => { c.seqs.get e' with wait := none, tried := false, dec := .none, due := n }) hdue)
/-- What the history gains at a return from a handler that has written no handle: values that had come before the history. -/
theorem Core.restoreWalk_entered_hist (e : Eng) :
    ∃ new, ((c.enterHandler .word e m).restoreWalk (c.setAside .word e m)).hist = c.hist ++ new ∧
      ∀ x ∈ new, x.val = c.getH x.h ∧ x.pos = c.seqs.ctl.pos := by
  refine ⟨_, List.append_assoc .., fun x hx => ?_⟩
  rcases List.mem_append.1 hx with hx | hx
  · obtain ⟨k, -, hk⟩ := List.mem_filterMap.1 hx
    dsimp only at hk
    split at hk <;> cases hk
    exact ⟨rfl, rfl⟩
  · cases hx

end

/-- Settles O15: who returns and when, and the walk after it; at once after the entry, the walk set aside. -/
theorem trapsReturn : Obligations.TrapsReturn := by
  unfold Obligations.TrapsReturn
  refine ⟨fun s => ⟨eret_other, eret_outside, fun w hw ha => ?_⟩,
    fun c t m w he ha hset => ?_⟩
  · have hret := eret_inside hw ha
    have hskip := eretSkip_inside hw ha
    refine ⟨fun hb => ?_, fun hb => ?_, fun hm => ?_, fun hm hb => ?_⟩
    · exact hret.trans (if_pos hb)
    · obtain ⟨haside, hseqs⟩ := s.eret_walk w
      have hbytes := s.eret_bytes w
      refine ⟨s.eret w, hret.trans (if_neg (ne_true_of_eq_false hb)), haside, congrArg Prod.fst hbytes, congrArg Prod.snd hbytes, fun e => ?_⟩
      rw [hseqs, Core.restoreWalk_get]
      exact ⟨rfl, rfl, rfl, rfl, rfl, rfl, rfl, rfl, rfl⟩
    · exact hskip.trans (if_pos hm)
    · refine ⟨s.eretSkip w, hskip.trans ((if_neg (ne_true_of_eq_false hm)).trans (if_neg (ne_true_of_eq_false hb))), s.eretSkip_aside w,
        fun hword e => ?_⟩
      rw [s.eretSkip_seqs w hword, Core.skipWord_pc, Core.restoreWalk_get]
  · dsimp only
    rw [Core.takeTrap_enters _ _ _ _ he ha] at hset ⊢
    obtain rfl : (c.recorded t).setAside .word t.eng m = w := Option.some.inj hset
    exact ⟨Core.restoreWalk_entered_get (c.recorded t) m t.eng, rfl, rfl, rfl, Core.restoreWalk_entered_hist (c.recorded t) m t.eng, rfl,
      List.append_nil _, rfl, List.append_nil _, List.append_nil _, rfl, rfl, rfl, rfl, rfl, rfl, rfl⟩

end Sys2Proof.Machine
end

section
/-!
O16: YIELD and EXIT (05 R105, R106).
-/
namespace Sys2Proof.Machine

/-- The rules and records that EXIT lets go are all that it changes of the core but its walk (16 R280). -/
theorem Core.exitRules_records (c : Core) : c.SameButRecords c.exitRules := by
  have hfree (d : Core) (r : Nat × Rule) : d.SameButRecords (if d.instOut r.1 then d else d.freeRule r.1 false) :=
    ite_of (P := d.SameButRecords) (.refl d) (d.freeRule_records _ _)
  exact (Core.SameButRecords.foldl hfree c.ruleList c).trans ⟨_, _, rfl⟩

section
variable {s : State}

theorem yield_goes {t : Task} (ht : s.core.task = some t) :
    exec .yield s = if s.yieldTaken then .next ((s.complete 1).stopCtx t.ctx .preempt) else .next (s.complete 1) := by
  change execYield s = _
  rw [execYield, ht]
theorem exit_ctl (hw : s.who = .ctl) : ∃ u, Goes .exit s u ∧ u.core.seqs.ctl.ended = true ∧ u.mem = s.mem ∧ u.spad = s.spad ∧
    u.core.s = s.core.s := by
  refine ⟨_, if_pos hw, ?_⟩
  obtain ⟨rs, rl, hr⟩ := Core.exitRules_records (s.mapSeq .ctl fun q => { q with ended := true, wait := none, tried := false }).core
  rw [State.mapCore_core, hr]
  exact ⟨rfl, rfl, rfl, rfl⟩
theorem exit_joins (hw : s.who ≠ .ctl) (he : s.core.seqs.ctl.ended = true) (hp : s.core.seqs.ctl.pc = s.cur.pc) :
    Goes .exit s (s.mapSeq s.who fun q => { q with ended := true, wait := none, tried := false }) := by
  change execExit s = _
  rw [execExit, if_neg hw, if_pos (by simp [he, hp])]
theorem exit_waits (hw : s.who ≠ .ctl) (he : s.core.seqs.ctl.ended = false) : Goes .exit s (s.waiting .internal) := by
  change execExit s = _
  rw [execExit, if_neg hw, if_neg (by simp [he])]

end

/-- Settles O16: YIELD by whether the core is given up, EXIT by who stands at it. -/
theorem yieldAndExit : Obligations.YieldAndExit := by
  unfold Obligations.YieldAndExit
  intro s t ht
  have hy := yield_goes ht
  exact ⟨fun h => hy.trans (if_neg (ne_true_of_eq_false h)), fun h => hy.trans (if_pos h), exit_ctl, exit_joins, exit_waits⟩

end Sys2Proof.Machine
end

section
/-!
O5: a load's value arrives, a queued store is performed (05 R90; 20 R317; 22 R337; 25 R383).
-/
namespace Sys2Proof.Machine

/-! ### The oldest load of a register -/

section
variable {s : State} {l : LoadEnt} {before after : List LoadEnt}

theorem LoadEnt.open_iff : l.open = true ↔ l.src ≠ .done := bne_iff_ne
/-- The loads before the oldest of a register, and the rest from it on. -/
theorem loads_split (hl : s.core.loads = before ++ l :: after) (hb : ∀ x ∈ before, x.d ≠ l.d) :
    (s.core.loads.takeWhile fun x => x.d != l.d) = before ∧ s.core.loads.drop before.length = l :: after := by
  have hp : ∀ x ∈ before, (x.d != l.d) = true := fun x hx => bne_iff_ne.2 (hb x hx)
  rw [hl, List.takeWhile_append_of_pos hp, List.takeWhile_cons_of_neg (by simp), List.append_nil, List.drop_left]
  exact ⟨rfl, rfl⟩
theorem loadResult_goes (hl : s.core.loads = before ++ l :: after) (hb : ∀ x ∈ before, x.d ≠ l.d) : exec (.evLoadResultArrive l.d) s =
    if l.open then
      if s.core.reached (l.issued + l.lat) && s.core.loadTurn l before then
        .next ((s.sampleLoad l).2.mapCore fun c => { c with loads := before ++ { l with src := .done, val := (s.sampleLoad l).1 } :: after })
      else .next s
    else if s.core.reached (l.issued + 2 * l.lat) then .next ((s.setS l.d l.val).mapCore fun c => { c with loads := before ++ after })
    else .next s := by
  obtain ⟨htake, hdrop⟩ := loads_split hl hb
  change execEvLoadResultArrive l.d s = _
  unfold execEvLoadResultArrive
  rw [htake]
  dsimp only
  rw [hdrop]

end

/-! ### The oldest store -/

section
variable {s : State} {e : StoreEnt}

/-- A store to scratchpad is a write of its bytes there. -/
theorem State.performStore_spad (h : e.sp = true) :
    (s.performStore e).mem = s.mem ∧ (s.performStore e).spad = writeRun s.spad e.addr e.bytes := by
  unfold State.performStore
  rw [if_pos h]
  dsimp only
  split <;> exact ⟨rfl, rfl⟩
theorem Device.setMark_unitKey (d : Device) (a n : Nat) (m : List (Party × Scope)) : (d.setMark a n m).unitKey = d.unitKey := rfl
/-- A store to memory is a write of its bytes under its key. -/
theorem State.performStore_phys (h : e.sp = false) : (s.performStore e).spad = s.spad ∧
    (s.performStore e).mem = (s.writePhys e.key e.addr e.bytes).mem ∧
    (s.performStore e).dev.unitKey = (s.writePhys e.key e.addr e.bytes).dev.unitKey := by
  have hsp := s.writePhys_spad e.key e.addr e.bytes
  unfold State.performStore
  rw [if_neg (ne_true_of_eq_false h)]
  unfold State.putPhys
  generalize s.writePhys e.key e.addr e.bytes = t at *
  dsimp only
  split
  · exact ⟨hsp, rfl, rfl⟩
  · simp only [State.wrote, State.mapDev_spad, State.mapDev_mem, State.mapDev_dev, Device.setMark_unitKey, hsp, and_self]
theorem storePerformed_goes {r : List StoreEnt} (hs : s.core.stores = e :: r) (hp : s.core.pathOpen .sc e.pos e.slot = true)
    (hd : s.core.reached e.due = true) (hl : ∀ x ∈ s.core.loads, x.src ≠ .done → e.issued ≤ x.issued) :
    Goes .evStorePerformed s ((s.performStore e).mapCore fun c =>
      { c with stores := r, scDone := if c.det then c.cycle.toNat else c.scDone }) := by
  have hloads : (s.core.loads.any fun l => l.open && decide (l.issued < e.issued)) = false := by
    refine List.any_eq_false.2 fun x hx hc => ?_
    obtain ⟨hopen, hlt⟩ := (Bool.and_eq_true _ _).mp hc
    exact Nat.not_lt.2 (hl x hx (LoadEnt.open_iff.1 hopen)) (of_decide_eq_true hlt)
  change execEvStorePerformed s = _
  unfold execEvStorePerformed
  rw [hs]
  dsimp only
  rw [hp, hd, hloads]
  rfl

end

/-- Settles O5: the oldest load of a register by its state, and the oldest store by where it was queued for. -/
theorem scalarAccessesLand : Obligations.ScalarAccessesLand := by
  unfold Obligations.ScalarAccessesLand
  refine ⟨fun s l before after hl hb => ?_, fun s k pa key acq => ⟨rfl, rfl⟩, fun s e r hs hp hd hl => ?_⟩
  · have hgo := loadResult_goes hl hb
    refine ⟨fun hdone hr => ?_, fun hsrc hr hturn => ?_⟩
    · have hopen : ¬l.open = true := fun h => LoadEnt.open_iff.1 h hdone
      exact hgo.trans ((if_neg hopen).trans (if_pos hr))
    · have hread : (s.core.reached (l.issued + l.lat) && s.core.loadTurn l before) = true := by rw [hr, hturn]; rfl
      exact hgo.trans ((if_pos (LoadEnt.open_iff.2 hsrc)).trans (if_pos hread))
  · refine ⟨_, storePerformed_goes hs hp hd hl, ?_, fun hsp => ?_, fun hsp => ?_⟩
    · rw [State.mapCore_core, State.performStore_core]
    · obtain ⟨hm, hw⟩ := State.performStore_spad (s := s) hsp
      refine ⟨hm, fun j hj => ?_, fun a ha => ?_⟩
      · rw [State.mapCore_spad, hw, readByte_writeRun_in _ _ _ _ hj]
      · rw [State.mapCore_spad, hw, readByte_writeRun_out _ _ _ _ ha]
    · obtain ⟨hspad, hmem, hkey⟩ := State.performStore_phys (s := s) hsp
      have hw (a : Nat) := State.physByte_congr hmem hkey e.key a
      refine ⟨hspad, fun j hj => ?_, fun a ha => ?_⟩
      · rw [State.physByte_mapCore, hw, State.writePhys_physByte, if_pos (by omega), Nat.add_sub_cancel_left]
      · rw [State.physByte_mapCore, hw, State.writePhys_physByte, if_neg (by omega)]

end Sys2Proof.Machine
end

section
/-!
O4: the loads and stores of CTL complete (05 R94, R95, R97; 20 R317; 22 R337).
-/
namespace Sys2Proof.Machine

/-! ### Gates of an access -/

section
variable {s t : State} {k : State → Out}

theorem State.inOrder_go {lat : Nat} {b : Bool} (h : s.inTurn lat b = true) : s.inOrder lat b k = k s := by
  unfold State.inTurn at h
  unfold State.inOrder
  cases hd : s.core.det with
  | false => rfl
  | true =>
    rw [hd, Bool.not_eq_true'] at h
    rw [Core.later, hd]
    exact if_neg (ne_true_of_eq_false h)
theorem State.lands.memOk {ea n pa : Nat} {w : Want} {key : Option (BitVec 512)} (h : s.lands ea n w pa key) : s.memOk n = true := by
  obtain ⟨-, hmem⟩ := h
  exact hmem
theorem State.spTarget_go {off n : Nat} {wr : Bool} (hr : off < 2 ^ 26) (ha : off % n = 0)
    (hs : s.siblingOk (windowCore s.cnum (off / spadSize)) = true) : s.spTarget off n wr = .ok (spadOff s.cnum off) := by
  rw [State.spTarget, if_neg (Nat.not_le.2 hr), if_neg (not_not.2 ha), hs]
  rfl
/-- A word that waits for its turn has led to the wait or to where it goes on. -/
theorem State.inOrder_cases {lat : Nat} {b : Bool} (h : s.inOrder lat b k = .next t) : t = s.waiting .internal ∨ k s = .next t := by
  unfold State.inOrder at h
  dsimp only at h
  split at h
  · exact .inl (Host.Outcome.next.inj h).symm
  · exact .inr h

end

/-! ### Reading (05 R94, R95; 22 R337) -/

section
variable {s : State} {d a : SReg} {off : W64} {k : LdKind} {acq : Option Scope} {pa : Nat} {key : Option (BitVec 512)} {lat : Nat}

/-- A load issued is outstanding with the value it reads and the releases that value comes from. -/
theorem State.startLoad_eq {x : LdSrc} {v : W64} {chain : List (Party × Scope)} (h : s.readLoad x = (v, s.noteRead acq chain)) :
    s.startLoad d x lat = s.loaded d x lat acq v chain := by
  unfold State.startLoad State.loaded
  rw [h]
  rfl
theorem State.startLoad_mem (n : Nat) : (s.memDebit n).startLoad d (.mem k pa key acq) lat = (s.memDebit n).loaded d (.mem k pa key acq) lat acq
    (ldExt k (s.loadPhys key pa (ldSize k))) (s.chainOf false key pa (ldSize k)) := State.startLoad_eq rfl
theorem State.startLoad_spad : s.startLoad d (.spad k pa acq) lat = s.loaded d (.spad k pa acq) lat acq
    (ldExt k (s.loadSpad pa (ldSize k))) (s.chainOf true none pa (ldSize k)) := State.startLoad_eq rfl
theorem ld_goes (hs : s.settled [d, a] = true) (hsc : s.scOpen = true) (hl : s.lands (s.ea a off) (ldSize k) .rd pa key)
    (hb : s.badMem pa (ldSize k) = false) (ht : s.inTurn (s.loadLat false pa) false = true) :
    Goes (.ld k d a off acq) s (((s.memDebit (ldSize k)).startLoad d (.mem k pa key acq) (s.loadLat false pa)).complete 1) := by
  obtain ⟨htarget, hmem⟩ := hl
  change execLd k d a off acq s = _
  unfold execLd
  rw [State.withRegs_go hs, State.withSc_go hsc]
  dsimp only
  rw [htarget]
  dsimp only
  rw [hb, if_neg Bool.false_ne_true, State.inOrder_go ht, State.withBytes_go hmem]
theorem ldsp_goes (hs : s.settled [d, a] = true) (hsc : s.scOpen = true) (ht : s.spTarget (s.ea a off) (ldSize k) false = .ok pa)
    (hb : s.badSpad pa (ldSize k) = false) (hturn : s.inTurn (s.loadLat true pa) false = true) :
    Goes (.ldsp k d a off acq) s ((s.startLoad d (.spad k pa acq) (s.loadLat true pa)).complete 1) := by
  change execLdsp k d a off acq s = _
  unfold execLdsp
  rw [State.withRegs_go hs, State.withSc_go hsc]
  dsimp only
  rw [ht]
  dsimp only
  rw [hb, if_neg Bool.false_ne_true, State.inOrder_go hturn]

variable {h : HReg}

theorem hld_goes (hs : s.settled [a] = true) (hsc : s.scOpen = true) (hl : s.lands (s.ea a off) 32 .rd pa key) (hb : s.badMem pa 32 = false) :
    exec (.hld h a off) s = if s.core.det then s.hldTimed h key pa
      else .next (((s.memDebit 32).noteRead none (s.chainOf false key pa 32)).putH h (BitVec.ofNat 256 (leNat (s.loadPhys key pa 32)))) := by
  obtain ⟨htarget, hmem⟩ := hl
  change execHld h a off s = _
  unfold execHld
  rw [State.withRegs_go hs, State.withSc_go hsc]
  dsimp only
  rw [htarget]
  dsimp only
  rw [hb, if_neg Bool.false_ne_true, State.withBytes_go hmem]
  rfl
theorem State.hldTimed_first (hd : s.seq.dec = .none) (hm : s.memOk 32 = true) (ht : s.inTurn (s.loadLat false pa) false = true) :
    s.hldTimed h key pa = .next ((s.memDebit 32).stands (.timed (s.core.cycle.toNat + s.loadLat false pa) none) .internal) := by
  unfold State.hldTimed
  rw [hd]
  dsimp only
  rw [State.inOrder_go ht, State.withBytes_go hm]
  rfl
theorem State.hldTimed_reads {n : Nat} (hd : s.seq.dec = .timed n none) (hn : n ≤ s.core.cycle.toNat) (hl : s.core.loadsRead = true) :
    s.hldTimed h key pa = .next (((s.noteRead none (s.chainOf false key pa 32)).mapCore fun c => { c with scDone := s.core.cycle.toNat }).stands
      (.timed (s.core.cycle.toNat + s.loadLat false pa) (some (s.loadPhys key pa 32))) .internal) := by
  unfold State.hldTimed
  rw [hd]
  dsimp only
  rw [hl, decide_eq_false (Nat.not_lt.2 hn)]
  rfl
theorem State.hldTimed_arrives {n : Nat} {bs : List Byte} (hd : s.seq.dec = .timed n (some bs)) (hn : n ≤ s.core.cycle.toNat) :
    s.hldTimed h key pa = .next (s.putH h (BitVec.ofNat 256 (leNat bs))) := by
  unfold State.hldTimed
  rw [hd]
  exact if_neg (Nat.not_lt.2 hn)

end

/-! ### Storing (05 R94, R95, R97; 20 R317) -/

section
variable {s t : State} {a b : SReg} {off : W64} {k : StKind} {rel : Option Scope} {pa : Nat} {key : Option (BitVec 512)} {h : HReg}

theorem st_inOrder (hs : s.settled [a, b] = true) (hl : s.lands (s.ea a off) (stSize k) .wr pa key) : exec (.st k a b off rel) s =
    s.inOrder (s.storeLat false pa) true fun u => u.withBytes (stSize k) fun u =>
      .next ((u.pushStore false pa key (leBytes (stSize k) (s.getS b).toNat) rel).complete 1) := by
  obtain ⟨htarget, -⟩ := hl
  change execSt k a b off rel s = _
  unfold execSt
  rw [State.withRegs_go hs]
  dsimp only
  rw [htarget]
theorem st_goes (hs : s.settled [a, b] = true) (hl : s.lands (s.ea a off) (stSize k) .wr pa key)
    (ht : s.inTurn (s.storeLat false pa) true = true) : Goes (.st k a b off rel) s
      (((s.memDebit (stSize k)).pushStore false pa key (leBytes (stSize k) (s.getS b).toNat) rel).complete 1) :=
  (st_inOrder hs hl).trans ((State.inOrder_go ht).trans (State.withBytes_go hl.memOk))
theorem stsp_goes (hs : s.settled [a, b] = true) (ht : s.spTarget (s.ea a off) (stSize k) true = .ok pa)
    (hturn : s.inTurn (s.storeLat true pa) true = true) : Goes (.stsp k a b off rel) s
      ((s.pushStore true pa none (leBytes (stSize k) (s.getS b).toNat) rel).complete 1) := by
  change execStsp k a b off rel s = _
  unfold execStsp
  rw [State.withRegs_go hs]
  dsimp only
  rw [ht]
  dsimp only
  rw [State.inOrder_go hturn]
/-- STSP waits, traps or queues its bytes: no byte changes. -/
theorem stsp_sameBytes (hs : s.settled [a, b] = true) (ht : exec (.stsp k a b off rel) s = .next t) : SameBytes s t := by
  change execStsp k a b off rel s = _ at ht
  unfold execStsp at ht
  rw [State.withRegs_go hs] at ht
  dsimp only at ht
  split at ht
  · cases ht
    exact sameBytes_of_eq rfl rfl
  · rcases State.inOrder_cases ht with rfl | ht
    · exact sameBytes_of_eq rfl rfl
    · cases ht
      exact sameBytes_of_eq rfl rfl
theorem st_sameBytes (hs : s.settled [a, b] = true) (hl : s.lands (s.ea a off) (stSize k) .wr pa key)
    (ht : exec (.st k a b off rel) s = .next t) : SameBytes s t := by
  rcases State.inOrder_cases ((st_inOrder hs hl).symm.trans ht) with rfl | ht
  · exact sameBytes_of_eq rfl rfl
  · rw [State.withBytes_go hl.memOk] at ht
    cases ht
    exact sameBytes_of_eq rfl rfl

/-- One of the stores of 8 bytes that make up an HST (05 R97). -/
def State.pushWord (pa : Nat) (key : Option (BitVec 512)) (bs : List Byte) (s : State) (k : Nat) : State :=
  s.pushStore false (pa + 8 * k) key ((bs.drop (8 * k)).take 8) none
/-- The first n stores of an HST: their places, and the bytes they hold together. -/
theorem State.pushWords_stores (pa : Nat) (key : Option (BitVec 512)) {bs : List Byte} (s : State) {n : Nat} (hn : 8 * n ≤ bs.length) :
    ∃ es, ((List.range n).foldl (State.pushWord pa key bs) s).core.stores = s.core.stores ++ es ∧
      es.map (fun e => (e.addr, e.bytes.length)) = (List.range n).map (fun k => (pa + 8 * k, 8)) ∧
      es.flatMap StoreEnt.bytes = bs.take (8 * n) := by
  induction n with
  | zero => exact ⟨[], (List.append_nil _).symm, rfl, rfl⟩
  | succ n ih =>
    obtain ⟨es, hes, hplaces, hbytes⟩ := ih (by omega)
    have hlen : ((bs.drop (8 * n)).take 8).length = 8 := by
      rw [List.length_take, List.length_drop]
      omega
    have hpush (t : State) : ∃ e, (State.pushWord pa key bs t n).core.stores = t.core.stores ++ [e] ∧ e.addr = pa + 8 * n ∧
        e.bytes = (bs.drop (8 * n)).take 8 := ⟨_, rfl, rfl, rfl⟩
    rw [List.range_succ, List.foldl_append]
    obtain ⟨e, he, haddr, hb⟩ := hpush ((List.range n).foldl (State.pushWord pa key bs) s)
    refine ⟨es ++ [e], ?_, ?_, ?_⟩
    · rw [← List.append_assoc, ← hes]
      exact he
    · rw [List.map_append, List.map_append, hplaces, List.map_singleton, List.map_singleton, haddr, hb, hlen]
    · rw [List.flatMap_append, hbytes, List.flatMap_singleton, hb, Nat.mul_succ, List.take_add]
theorem hst_goes (hs : s.settled [a] = true) (hl : s.lands (s.ea a off) 32 .wr pa key) (ht : s.inTurn (s.storeLat false pa) true = true) :
    Goes (.hst h a off) s
      (((List.range 4).foldl (State.pushWord pa key (leBytes 32 (s.core.getH h).toNat)) (s.memDebit 32)).complete 1) := by
  obtain ⟨htarget, hmem⟩ := hl
  change execHst h a off s = _
  unfold execHst
  rw [State.withRegs_go hs]
  dsimp only
  rw [htarget]
  dsimp only
  rw [State.inOrder_go ht, State.withBytes_go hmem]
  rfl
/-- HST queues the handle's bytes as four stores and changes no byte (05 R97). -/
theorem hst_queues (hs : s.settled [a] = true) (hl : s.lands (s.ea a off) 32 .wr pa key) (ht : s.inTurn (s.storeLat false pa) true = true) :
    ∃ u, Goes (.hst h a off) s u ∧ SameBytes s u ∧ ∃ es, u.core.stores = s.core.stores ++ es ∧
      es.map (fun e => (e.addr, e.bytes.length)) = [(pa, 8), (pa + 8, 8), (pa + 16, 8), (pa + 24, 8)] ∧
      es.flatMap StoreEnt.bytes = leBytes 32 (s.core.getH h).toNat := by
  have hlen : (leBytes 32 (s.core.getH h).toNat).length = 32 := leBytes_length ..
  obtain ⟨es, hes, hplaces, hbytes⟩ := State.pushWords_stores pa key (s.memDebit 32) (n := 4) hlen.ge
  have hsame : ((List.range 4).foldl (State.pushWord pa key (leBytes 32 (s.core.getH h).toNat)) (s.memDebit 32)).bytes = s.bytes :=
    foldl_bytes (f := State.pushWord pa key _) (fun _ _ => rfl) (List.range 4) (s.memDebit 32)
  refine ⟨_, hst_goes hs hl ht, sameBytes_of_eq (congrArg Prod.fst hsame) (congrArg Prod.snd hsame), es, hes, hplaces, hbytes.trans ?_⟩
  exact List.take_of_length_le hlen.le

end

/-- Settles O4: each load by what it reads and when, each store by what it queues. -/
theorem scalarAccesses : Obligations.ScalarAccesses := by
  unfold Obligations.ScalarAccesses
  refine ⟨fun s k d a h off acq pa n key bs hs hsc => ?_, fun s t k a b h off rel pa key hs => ?_⟩
  · dsimp only
    have ha : s.settled [a] = true := State.settled_sub hs fun r hr => List.mem_cons_of_mem _ hr
    refine ⟨fun hl hb ht => ?_, fun hr hal hsib hb ht => ?_, fun hl hb => ?_⟩
    · exact State.startLoad_mem (s := s) (ldSize k) ▸ ld_goes hs hsc hl hb ht
    · exact State.startLoad_spad (s := s) ▸ ldsp_goes hs hsc (State.spTarget_go hr hal hsib) hb ht
    · have hgo := hld_goes (h := h) ha hsc hl hb
      refine ⟨fun hd => hgo.trans (if_neg (ne_true_of_eq_false hd)), fun hd hdec ht => hgo.trans ((if_pos hd).trans ?_),
        fun hd hdec hn hread => hgo.trans ((if_pos hd).trans ?_), fun hd hdec hn => hgo.trans ((if_pos hd).trans ?_)⟩
      · exact State.hldTimed_first hdec hl.memOk ht
      · exact State.hldTimed_reads hdec hn hread
      · exact State.hldTimed_arrives hdec hn
  · dsimp only
    have ha : s.settled [a] = true := State.settled_sub hs fun r hr => List.mem_cons.2 (.inl (List.mem_singleton.1 hr))
    refine ⟨st_goes hs, fun hr hal hsib => stsp_goes hs (State.spTarget_go hr hal hsib), hst_queues ha, fun hor => ?_⟩
    rcases hor with ⟨hl, ht⟩ | ht
    · exact st_sameBytes hs hl ht
    · exact stsp_sameBytes hs ht

end Sys2Proof.Machine
end

section
/-!
O23: rounding to an integer and to a code of a floating format, as numbers (06 R109 to R111).
-/
namespace Sys2Proof

/-! ### Rounding of a fraction to an integer (06 R111) -/

/-- k is what t rounds to: the nearest integer with ties to even, the one below or the one above. -/
def MagMode.Rounds (mode : MagMode) (t : ℚ) (k : ℕ) : Prop :=
  match mode with
  | .near => |(k : ℚ) - t| ≤ 1 / 2 ∧ (|(k : ℚ) - t| = 1 / 2 → k % 2 = 0)
  | .down => k = ⌊t⌋₊
  | .up => k = ⌈t⌉₊

section
variable {n d : ℕ} {t : ℚ} {k : ℕ}

/-- A fraction is its quotient and a part below one. -/
theorem natCast_div_eq (n : ℕ) (hd : 0 < d) : (n : ℚ) / d = (n / d : ℕ) + ((n % d : ℕ) : ℚ) / d := by
  have hsum : (n : ℚ) = d * (n / d : ℕ) + (n % d : ℕ) := mod_cast (Nat.div_add_mod n d).symm
  rw [div_eq_iff (by positivity), add_mul, div_mul_cancel₀ _ (by positivity), mul_comm]
  exact hsum
/-- A remainder beyond one half rounds up, and so does one half of an odd quotient. -/
theorem rounds_near (hd : 0 < d) : MagMode.near.Rounds (n / d)
    (if d < 2 * (n % d) ∨ 2 * (n % d) = d ∧ n / d % 2 = 1 then n / d + 1 else n / d) := by
  have hd' : (0 : ℚ) < d := Nat.cast_pos.2 hd
  have hr : 0 ≤ ((n % d : ℕ) : ℚ) / d := by positivity
  have hlt : ((n % d : ℕ) : ℚ) / d < 1 := (div_lt_one hd').2 (mod_cast Nat.mod_lt n hd)
  have hgt : 1 / 2 < ((n % d : ℕ) : ℚ) / d ↔ d < 2 * (n % d) := by
    rw [div_lt_div_iff₀ two_pos hd']
    norm_cast
    omega
  have heq : ((n % d : ℕ) : ℚ) / d = 1 / 2 ↔ 2 * (n % d) = d := by
    rw [div_eq_div_iff hd'.ne' two_ne_zero]
    norm_cast
    omega
  dsimp only [MagMode.Rounds]
  rw [natCast_div_eq n hd]
  split
  case isTrue h =>
    have hdist : |((n / d + 1 : ℕ) : ℚ) - ((n / d : ℕ) + ((n % d : ℕ) : ℚ) / d)| = 1 - ((n % d : ℕ) : ℚ) / d := by
      rw [abs_of_nonneg] <;> push_cast <;> linarith
    rw [hdist]
    refine ⟨?_, fun hhalf => ?_⟩
    · rcases h with h | ⟨h, -⟩
      · linarith [hgt.2 h]
      · linarith [heq.2 h]
    · have := heq.1 (by linarith)
      omega
  case isFalse h =>
    have hdist : |((n / d : ℕ) : ℚ) - ((n / d : ℕ) + ((n % d : ℕ) : ℚ) / d)| = ((n % d : ℕ) : ℚ) / d := by
      rw [sub_add_cancel_left, abs_neg, abs_of_nonneg hr]
    rw [hdist]
    refine ⟨not_lt.1 fun hc => h (.inl (hgt.1 hc)), fun hhalf => ?_⟩
    have := heq.1 hhalf
    omega
theorem rounds_up (hd : 0 < d) : MagMode.up.Rounds (n / d) (if n % d = 0 then n / d else n / d + 1) := by
  have hd' : (0 : ℚ) < d := Nat.cast_pos.2 hd
  have hlt : ((n % d : ℕ) : ℚ) / d < 1 := (div_lt_one hd').2 (mod_cast Nat.mod_lt n hd)
  dsimp only [MagMode.Rounds]
  rw [natCast_div_eq n hd]
  split
  case isTrue h => rw [h, Nat.cast_zero, zero_div, add_zero, Nat.ceil_natCast]
  case isFalse h =>
    have hpos : 0 < ((n % d : ℕ) : ℚ) / d := div_pos (Nat.cast_pos.2 (Nat.pos_of_ne_zero h)) hd'
    refine ((Nat.ceil_eq_iff (Nat.succ_ne_zero _)).2 ⟨?_, ?_⟩).symm <;> push_cast <;> linarith
/-- The model's rounding of n / d in units of 2^q. -/
theorem roundAt_rounds (mode : MagMode) (n : ℕ) (hd : 0 < d) (q : ℤ) : mode.Rounds (n / d / 2 ^ q) (roundAt mode n d q) := by
  have hfrac : (n : ℚ) / d / 2 ^ q =
      ((if 0 ≤ q then n else n * 2 ^ (-q).toNat : ℕ) : ℚ) / (if 0 ≤ q then d * 2 ^ q.toNat else d : ℕ) := by
    split
    case isTrue h =>
      obtain ⟨m, rfl⟩ := Int.eq_ofNat_of_zero_le h
      simp [div_div]
    case isFalse h =>
      obtain ⟨m, rfl⟩ : ∃ m : ℕ, q = -m := ⟨(-q).toNat, by omega⟩
      simp [div_mul_eq_mul_div]
  have hpos : 0 < (if 0 ≤ q then d * 2 ^ q.toNat else d) := by split <;> positivity
  rw [hfrac]
  cases mode with
  | near => exact rounds_near hpos
  | down => exact (Nat.floor_div_eq_div _ _).symm
  | up => exact rounds_up hpos
/-- What a number rounds to is the integer below it or the one above it. -/
theorem MagMode.Rounds.floor_or_succ {mode : MagMode} (h : mode.Rounds t k) (ht : 0 ≤ t) : k = ⌊t⌋₊ ∨ k = ⌊t⌋₊ + 1 := by
  have hfl := Nat.floor_le ht
  have hlt := Nat.lt_floor_add_one t
  cases mode with
  | near =>
    obtain ⟨hle, -⟩ := h
    rw [abs_le] at hle
    have h1 : k < ⌊t⌋₊ + 2 := by
      have : (k : ℚ) < (⌊t⌋₊ + 2 : ℕ) := by push_cast; linarith
      exact_mod_cast this
    have h2 : ⌊t⌋₊ < k + 1 := by
      have : (⌊t⌋₊ : ℚ) < (k + 1 : ℕ) := by push_cast; linarith
      exact_mod_cast this
    omega
  | down => exact .inl h
  | up =>
    have h1 := Nat.ceil_le_floor_add_one t
    have h2 := Nat.floor_le_ceil t
    unfold MagMode.Rounds at h
    omega

end

/-! ### The values of codes (06 R109) -/

/-- The exponent of a magnitude code, counted from the least. -/
def FFmt.codeExp (f : FFmt) (c : ℕ) : ℕ := c / 2 ^ (f.p - 1) - 1
/-- The value of a magnitude code, exponents unbounded above. -/
def FFmt.codeVal (f : FFmt) (c : ℕ) : ℚ := (c - f.codeExp c * 2 ^ (f.p - 1)) * 2 ^ (f.qmin + f.codeExp c)

section
variable {f : FFmt} {c i e : ℕ}

/-- A code is an exponent and a significand, which has its hidden bit above the least exponent. -/
theorem FFmt.codeVal_eq (he : e = 0 ∨ 2 ^ (f.p - 1) ≤ i) (hi : i ≤ 2 * 2 ^ (f.p - 1)) :
    f.codeVal (e * 2 ^ (f.p - 1) + i) = i * 2 ^ (f.qmin + e) := by
  have hw : 0 < 2 ^ (f.p - 1) := by positivity
  rcases hi.lt_or_eq with hlt | rfl
  · have hexp : f.codeExp (e * 2 ^ (f.p - 1) + i) = e := by
      have htop : i / 2 ^ (f.p - 1) < 2 := Nat.div_lt_of_lt_mul (by rwa [mul_comm])
      rw [FFmt.codeExp, add_comm, Nat.add_mul_div_right _ _ hw]
      rcases he with rfl | hge
      · omega
      · have := Nat.div_pos hge hw
        omega
    rw [FFmt.codeVal, hexp]
    push_cast
    ring
  · have hexp : f.codeExp (e * 2 ^ (f.p - 1) + 2 * 2 ^ (f.p - 1)) = e + 1 := by
      rw [FFmt.codeExp, ← Nat.add_mul, Nat.mul_div_cancel _ hw]
      omega
    have htwo : (2 : ℚ) ^ (f.qmin + (e + 1 : ℕ)) = 2 ^ (f.qmin + e) * 2 := by
      rw [← zpow_add_one₀ two_ne_zero]
      push_cast
      ring_nf
    rw [FFmt.codeVal, hexp, htwo]
    push_cast
    ring
/-- Every code is of that form. -/
theorem FFmt.code_split (f : FFmt) (c : ℕ) : ∃ e i, c = e * 2 ^ (f.p - 1) + i ∧ (e = 0 ∨ 2 ^ (f.p - 1) ≤ i) ∧ i < 2 * 2 ^ (f.p - 1) := by
  have hc := Nat.div_add_mod c (2 ^ (f.p - 1))
  have hlt := Nat.mod_lt c (y := 2 ^ (f.p - 1)) (by positivity)
  rcases h : c / 2 ^ (f.p - 1) with _ | k
  · exact ⟨0, c, by simp, .inl rfl, by rw [h, Nat.mul_zero] at hc; omega⟩
  · refine ⟨k, c % 2 ^ (f.p - 1) + 2 ^ (f.p - 1), ?_, .inr (by omega), by omega⟩
    rw [h, Nat.mul_succ, mul_comm] at hc
    omega
theorem FFmt.codeVal_zero : f.codeVal 0 = 0 := by simp [FFmt.codeVal, FFmt.codeExp]
/-- A greater code has a greater value. -/
theorem FFmt.codeVal_strictMono (f : FFmt) : StrictMono f.codeVal := strictMono_nat_of_lt_succ fun c => by
  obtain ⟨e, i, rfl, he, hi⟩ := f.code_split c
  rw [FFmt.codeVal_eq he hi.le, add_assoc, FFmt.codeVal_eq (by omega) (by omega)]
  gcongr
  exact Nat.lt_succ_self i
theorem FFmt.codeVal_nonneg : 0 ≤ f.codeVal c := f.codeVal_zero ▸ f.codeVal_strictMono.monotone (Nat.zero_le c)

/-! ### Rounding to a code (06 R110) -/

/-- c is the code that y rounds to: the nearest with ties to an even code, the greatest below or the least above. -/
def FFmt.Nearest (f : FFmt) (y : ℚ) (c : ℕ) : Prop :=
  ∀ b, |f.codeVal c - y| ≤ |f.codeVal b - y| ∧ (|f.codeVal c - y| = |f.codeVal b - y| → b = c ∨ c % 2 = 0)
def FFmt.RoundsMag (f : FFmt) (mode : MagMode) (y : ℚ) (c : ℕ) : Prop :=
  match mode with
  | .near => f.Nearest y c
  | .down => f.codeVal c ≤ y ∧ ∀ b, f.codeVal b ≤ y → b ≤ c
  | .up => y ≤ f.codeVal c ∧ ∀ b, y ≤ f.codeVal b → c ≤ b


/-- A number that is nearer to one of two neighbours, or as near to an even one, is nearest to it among all codes. -/
theorem FFmt.nearest_of_neighbours {y : ℚ} {a c : ℕ} (ha : f.codeVal a ≤ y) (hy : y ≤ f.codeVal (a + 1)) (hc : c = a ∨ c = a + 1)
    (hle : |f.codeVal c - y| ≤ (f.codeVal (a + 1) - f.codeVal a) / 2)
    (htie : |f.codeVal c - y| = (f.codeVal (a + 1) - f.codeVal a) / 2 → c % 2 = 0) : f.Nearest y c := by
  intro b
  have hmono := f.codeVal_strictMono
  have hgap := hmono (Nat.lt_succ_self a)
  rcases hc with rfl | rfl
  · rw [abs_of_nonpos (by linarith)] at hle htie ⊢
    rcases lt_trichotomy b c with hb | rfl | hb
    · have := hmono hb
      rw [abs_of_nonpos (by linarith)]
      exact ⟨by linarith, fun h => by linarith⟩
    · rw [abs_of_nonpos (by linarith)]
      exact ⟨le_rfl, fun _ => .inl rfl⟩
    · have := hmono.monotone (Nat.succ_le_of_lt hb)
      rw [Nat.succ_eq_add_one] at this
      rw [abs_of_nonneg (by linarith)]
      exact ⟨by linarith, fun h => .inr (htie (by linarith))⟩
  · rw [abs_of_nonneg (by linarith)] at hle htie ⊢
    rcases lt_trichotomy b (a + 1) with hb | rfl | hb
    · have := hmono.monotone (Nat.le_of_lt_succ hb)
      rw [abs_of_nonpos (by linarith)]
      exact ⟨by linarith, fun h => .inr (htie (by linarith))⟩
    · rw [abs_of_nonneg (by linarith)]
      exact ⟨le_rfl, fun _ => .inl rfl⟩
    · have := hmono hb
      rw [abs_of_nonneg (by linarith)]
      exact ⟨by linarith, fun h => by linarith⟩
/-- A significand rounded to an integer is the code rounded, as long as it stays within its exponent. -/
theorem FFmt.roundsMag_of_rounds {mode : MagMode} {t : ℚ} {k : ℕ} (hp : 2 ≤ f.p) (ht : 0 ≤ t) (he : e = 0 ∨ 2 ^ (f.p - 1) ≤ t)
    (hlt : t < 2 * 2 ^ (f.p - 1)) (h : mode.Rounds t k) : f.RoundsMag mode (t * 2 ^ (f.qmin + e)) (e * 2 ^ (f.p - 1) + k) := by
  have hfl := Nat.floor_le ht
  have hsucc := Nat.lt_floor_add_one t
  have hpos : (0 : ℚ) < 2 ^ (f.qmin + e) := by positivity
  have hge : e = 0 ∨ 2 ^ (f.p - 1) ≤ ⌊t⌋₊ := he.imp_right fun h => Nat.le_floor (by exact_mod_cast h)
  have htop : ⌊t⌋₊ < 2 * 2 ^ (f.p - 1) := (Nat.floor_lt ht).2 (by exact_mod_cast hlt)
  have hval (i : ℕ) (h1 : ⌊t⌋₊ ≤ i) (h2 : i ≤ ⌊t⌋₊ + 1) : f.codeVal (e * 2 ^ (f.p - 1) + i) = i * 2 ^ (f.qmin + e) :=
    FFmt.codeVal_eq (hge.imp_right h1.trans') (by omega)
  have hlow := hval ⌊t⌋₊ le_rfl (Nat.le_succ _)
  have hhigh := hval (⌊t⌋₊ + 1) (Nat.le_succ _) le_rfl
  push_cast at hhigh
  rw [← add_assoc] at hhigh
  have hk := h.floor_or_succ ht
  have hcode := hval k (by omega) (by omega)
  have hmono := f.codeVal_strictMono
  cases mode with
  | near =>
    obtain ⟨hle, htie⟩ := h
    have hdist : |f.codeVal (e * 2 ^ (f.p - 1) + k) - t * 2 ^ (f.qmin + e)| = |(k : ℚ) - t| * 2 ^ (f.qmin + e) := by
      rw [hcode, ← sub_mul, abs_mul, abs_of_pos hpos]
    have hgap : (f.codeVal (e * 2 ^ (f.p - 1) + ⌊t⌋₊ + 1) - f.codeVal (e * 2 ^ (f.p - 1) + ⌊t⌋₊)) / 2 = 1 / 2 * 2 ^ (f.qmin + e) := by
      rw [hhigh, hlow]
      ring
    have heven : e * 2 ^ (f.p - 1) % 2 = 0 := by
      obtain ⟨m, hm⟩ := Nat.exists_eq_add_of_le hp
      rw [hm, show 2 + m - 1 = m + 1 by omega, pow_succ, ← mul_assoc, Nat.mul_mod_left]
    refine FFmt.nearest_of_neighbours (a := e * 2 ^ (f.p - 1) + ⌊t⌋₊) ?_ ?_ (by omega) ?_ ?_
    · rw [hlow]
      gcongr
    · rw [hhigh]
      gcongr
    · rw [hdist, hgap]
      gcongr
    · rw [hdist, hgap]
      intro heq
      have := htie (mul_right_cancel₀ hpos.ne' heq)
      omega
  | down =>
    obtain rfl : k = ⌊t⌋₊ := h
    refine ⟨?_, fun b hb => Nat.lt_succ_iff.1 (hmono.lt_iff_lt.1 (hb.trans_lt ?_))⟩
    · rw [hlow]
      gcongr
    · rw [Nat.succ_eq_add_one, hhigh]
      gcongr
  | up =>
    obtain rfl : k = ⌈t⌉₊ := h
    refine ⟨?_, fun b hb => ?_⟩
    · rw [hcode]
      gcongr
      exact Nat.le_ceil t
    · rcases hk with hk | hk
      · have : t = ⌊t⌋₊ := le_antisymm (hk ▸ Nat.le_ceil t) hfl
        rw [this, ← hlow] at hb
        rw [hk]
        exact hmono.le_iff_le.1 hb
      · rw [hk, ← add_assoc]
        refine Nat.succ_le_of_lt (hmono.lt_iff_lt.1 (lt_of_lt_of_le ?_ hb))
        rw [hlow]
        gcongr
        exact Nat.lt_ceil.1 (by omega)
/-- A fraction lies within a factor of two of the quotient of the powers below its parts. -/
theorem log2_sub_spec {n d : ℕ} (hn : 0 < n) (hd : 0 < d) :
    (2 : ℚ) ^ ((n.log2 : ℤ) - d.log2 - 1) ≤ n / d ∧ (n : ℚ) / d < 2 ^ ((n.log2 : ℤ) - d.log2 + 1) := by
  have hn1 : ((2 : ℚ) ^ n.log2) ≤ n := mod_cast Nat.log2_self_le hn.ne'
  have hn2 : (n : ℚ) < 2 ^ (n.log2 + 1) := mod_cast Nat.lt_log2_self
  have hd1 : ((2 : ℚ) ^ d.log2) ≤ d := mod_cast Nat.log2_self_le hd.ne'
  have hd2 : (d : ℚ) < 2 ^ (d.log2 + 1) := mod_cast Nat.lt_log2_self
  have hd' : (0 : ℚ) < d := Nat.cast_pos.2 hd
  have hlow : (2 : ℚ) ^ ((n.log2 : ℤ) - d.log2 - 1) = 2 ^ n.log2 / 2 ^ (d.log2 + 1) := by
    rw [sub_sub, zpow_sub₀ two_ne_zero]
    norm_cast
  have hhigh : (2 : ℚ) ^ ((n.log2 : ℤ) - d.log2 + 1) = 2 ^ (n.log2 + 1) / 2 ^ d.log2 := by
    rw [sub_add_eq_add_sub, zpow_sub₀ two_ne_zero]
    norm_cast
  rw [hlow, hhigh]
  exact ⟨by gcongr, by gcongr⟩
/-- The model's exponent of a fraction. -/
theorem ilog2_spec {n d : ℕ} (hn : 0 < n) (hd : 0 < d) : (2 : ℚ) ^ ilog2 n d ≤ n / d ∧ (n : ℚ) / d < 2 ^ (ilog2 n d + 1) := by
  obtain ⟨hlow, hhigh⟩ := log2_sub_spec hn hd
  have hd' : (0 : ℚ) < d := Nat.cast_pos.2 hd
  unfold ilog2
  generalize (n.log2 : ℤ) - d.log2 = g at hlow hhigh ⊢
  have hge : (if 0 ≤ g then decide (d * 2 ^ g.toNat ≤ n) else decide (d ≤ n * 2 ^ (-g).toNat)) = true ↔ (2 : ℚ) ^ g ≤ n / d := by
    rw [le_div_iff₀ hd']
    split
    case isTrue h =>
      obtain ⟨m, rfl⟩ := Int.eq_ofNat_of_zero_le h
      rw [decide_eq_true_iff, mul_comm]
      norm_cast
    case isFalse h =>
      obtain ⟨m, rfl⟩ : ∃ m : ℕ, g = -m := ⟨(-g).toNat, by omega⟩
      rw [decide_eq_true_iff, zpow_neg, inv_mul_le_iff₀ (by positivity), neg_neg, Int.toNat_natCast, mul_comm]
      norm_cast
  dsimp only
  by_cases h : (2 : ℚ) ^ g ≤ n / d
  · rw [if_pos (hge.2 h)]
    exact ⟨h, hhigh⟩
  · rw [if_neg (mt hge.1 h), sub_add_cancel]
    exact ⟨hlow, not_le.1 h⟩
/-- The model's code of a fraction. -/
theorem FFmt.roundMag_rounds (mode : MagMode) {n d : ℕ} (hp : 2 ≤ f.p) (hn : 0 < n) (hd : 0 < d) :
    f.RoundsMag mode (n / d) (f.roundMag mode n d) := by
  obtain ⟨hlog, hlog'⟩ := ilog2_spec hn hd
  unfold FFmt.roundMag
  rw [if_neg hn.ne']
  dsimp only
  generalize hq : max (ilog2 n d - (f.p - 1 : ℕ)) f.qmin = q
  obtain ⟨e, rfl⟩ : ∃ e : ℕ, q = f.qmin + e := ⟨(q - f.qmin).toNat, by omega⟩
  have hsub : (f.qmin + (e : ℤ) - f.qmin).toNat = e := by omega
  have hpow : (0 : ℚ) < 2 ^ (f.qmin + e) := by positivity
  have hback : (n : ℚ) / d = n / d / 2 ^ (f.qmin + (e : ℤ)) * 2 ^ (f.qmin + e) := (div_mul_cancel₀ _ hpow.ne').symm
  rw [hsub]
  nth_rw 1 [hback]
  refine FFmt.roundsMag_of_rounds hp (by positivity) ?_ ?_ (roundAt_rounds mode n hd _)
  · rcases Nat.eq_zero_or_pos e with he | he
    · exact .inl he
    · refine .inr ((le_div_iff₀ hpow).2 (le_trans (le_of_eq ?_) hlog))
      rw [← zpow_natCast, ← zpow_add₀ two_ne_zero]
      congr 1
      omega
  · refine (div_lt_iff₀ hpow).2 (hlog'.trans_le ?_)
    rw [← zpow_natCast, ← zpow_one_add₀ two_ne_zero, ← zpow_add₀ two_ne_zero]
    exact zpow_le_zpow_right₀ one_le_two (by omega)

end
end Sys2Proof
end

section
/-!
O23: exact arithmetic on values as arithmetic on rationals (06 R110, R111; 08 R151).
-/
namespace Sys2Proof

/-! ### What a finite value stands for (06 R110) -/

/-- The factor of a sign. -/
def signRat (neg : Bool) : ℚ := if neg then -1 else 1
/-- v is finite and stands for z. -/
def FVal.Is (v : FVal) (z : ℚ) : Prop :=
  match v with
  | .fin n m e => signRat n * m * 2 ^ e = z
  | _ => False

section
variable {x y v : FVal} {u w z : ℚ}

theorem signRat_not (b : Bool) : signRat (!b) = -signRat b := by cases b <;> simp [signRat]
theorem signRat_bne (a b : Bool) : signRat (a != b) = signRat a * signRat b := by cases a <;> cases b <;> simp [signRat]
theorem signRat_sq (b : Bool) : signRat b * signRat b = 1 := by cases b <;> simp [signRat]
theorem signRat_ne_zero (b : Bool) : signRat b ≠ 0 := by cases b <;> simp [signRat]
theorem abs_signRat_mul (b : Bool) (z : ℚ) : |signRat b * z| = |z| := by cases b <;> simp [signRat]
theorem FVal.Is.fin (h : v.Is z) : ∃ n m e, v = .fin n m e ∧ signRat n * m * 2 ^ e = z := by
  cases v with
  | fin n m e => exact ⟨n, m, e, rfl, h⟩
  | nan _ | inf _ => exact h.elim
theorem FVal.Is.not_nan (h : v.Is z) : v.isNaN = false := by
  obtain ⟨n, m, e, rfl, -⟩ := h.fin
  rfl
theorem FVal.Is.isZero_iff (h : v.Is z) : v.isZero = true ↔ z = 0 := by
  obtain ⟨n, m, e, rfl, rfl⟩ := h.fin
  have hpow : (2 : ℚ) ^ e ≠ 0 := by positivity
  simp [FVal.isZero, signRat_ne_zero, hpow]

/-! ### Sums, products, signs and orders (08 R151) -/

theorem scaled_mul (n : Bool) (m : ℕ) {e e0 : ℤ} (h : e0 ≤ e) : (scaled n m e e0 : ℚ) * 2 ^ e0 = signRat n * m * 2 ^ e := by
  have hpow : (2 : ℚ) ^ e = 2 ^ (e - e0).toNat * 2 ^ e0 := by
    rw [← zpow_natCast, ← zpow_add₀ two_ne_zero]
    congr 1
    omega
  rw [hpow]
  cases n <;> simp [scaled, signRat, mul_assoc]
theorem ofScaled_is (v e0 : ℤ) (zneg : Bool) : (ofScaled v e0 zneg).Is (v * 2 ^ e0) := by
  have habs : signRat (if v = 0 then zneg else decide (v < 0)) * v.natAbs = v := by
    rcases lt_trichotomy v 0 with h | rfl | h
    · rw [if_neg h.ne, decide_eq_true h, Nat.cast_natAbs, abs_of_neg h]
      simp [signRat]
    · simp
    · rw [if_neg h.ne', decide_eq_false h.not_gt, Nat.cast_natAbs, abs_of_pos h]
      simp [signRat]
  exact congrArg (· * (2 : ℚ) ^ e0) habs
theorem fadd_is (rm : RMode) (hx : x.Is u) (hy : y.Is w) : (fadd rm x y).Is (u + w) := by
  obtain ⟨a, m, e, rfl, rfl⟩ := hx.fin
  obtain ⟨b, n, f, rfl, rfl⟩ := hy.fin
  unfold fadd
  dsimp only
  split
  case isTrue h =>
    obtain ⟨rfl, rfl⟩ := h
    simp [FVal.Is]
  case isFalse h =>
    rw [← scaled_mul a m (min_le_left e f), ← scaled_mul b n (min_le_right e f), ← add_mul]
    exact_mod_cast ofScaled_is _ _ _
theorem fmul_is (hx : x.Is u) (hy : y.Is w) : (fmul x y).Is (u * w) := by
  obtain ⟨a, m, e, rfl, rfl⟩ := hx.fin
  obtain ⟨b, n, f, rfl, rfl⟩ := hy.fin
  change signRat (a != b) * (m * n : ℕ) * 2 ^ (e + f) = _
  rw [signRat_bne, zpow_add₀ two_ne_zero]
  push_cast
  ring
theorem fneg_is (hx : x.Is u) : (fneg x).Is (-u) := by
  obtain ⟨a, m, e, rfl, rfl⟩ := hx.fin
  change signRat (!a) * m * 2 ^ e = _
  rw [signRat_not]
  ring
theorem fsub_is (rm : RMode) (hx : x.Is u) (hy : y.Is w) : (fadd rm x (fneg y)).Is (u - w) :=
  sub_eq_add_neg u w ▸ fadd_is rm hx (fneg_is hy)
theorem fabs_is (hx : x.Is u) : (fabs x).Is |u| := by
  obtain ⟨a, m, e, rfl, rfl⟩ := hx.fin
  change signRat false * m * 2 ^ e = _
  rw [mul_assoc, mul_assoc, abs_signRat_mul, abs_of_nonneg (by positivity)]
  exact one_mul _
theorem ofInt_is (k : ℤ) : (ofInt k).Is k := by
  have h := ofScaled_is k 0 false
  unfold ofScaled at h
  unfold ofInt
  rcases eq_or_ne k 0 with rfl | hk
  · simp [FVal.Is]
  · rw [if_neg hk] at h
    simpa using h
theorem flt_iff (hx : x.Is u) (hy : y.Is w) : flt x y = true ↔ u < w := by
  obtain ⟨a, m, e, rfl, rfl⟩ := hx.fin
  obtain ⟨b, n, f, rfl, rfl⟩ := hy.fin
  rw [← scaled_mul a m (min_le_left e f), ← scaled_mul b n (min_le_right e f), mul_lt_mul_iff_left₀ (by positivity), Int.cast_lt]
  exact decide_eq_true_iff
/-- The order with -0 below +0 agrees with the order of the values. -/
theorem le_of_fltz (hx : x.Is u) (hy : y.Is w) (h : fltz x y = true) : u ≤ w := by
  simp only [fltz, Bool.or_eq_true, Bool.and_eq_true] at h
  rcases h with h | ⟨⟨⟨hx0, hy0⟩, -⟩, -⟩
  · exact ((flt_iff hx hy).1 h).le
  · rw [hx.isZero_iff.1 hx0, hy.isZero_iff.1 hy0]
theorem le_of_not_fltz (hx : x.Is u) (hy : y.Is w) (h : ¬fltz x y = true) : w ≤ u :=
  not_lt.1 fun hc => h (by rw [fltz, (flt_iff hx hy).2 hc, Bool.true_or])
/-- That order chooses a least and a greatest of two values. -/
theorem fltz_min (hx : x.Is u) (hy : y.Is w) : (if fltz y x then y else x).Is (min u w) := by
  split
  case isTrue h => rwa [min_eq_right (le_of_fltz hy hx h)]
  case isFalse h => rwa [min_eq_left (le_of_not_fltz hy hx h)]
theorem fltz_max (hx : x.Is u) (hy : y.Is w) : (if fltz x y then y else x).Is (max u w) := by
  split
  case isTrue h => rwa [max_eq_right (le_of_fltz hx hy h)]
  case isFalse h => rwa [max_eq_left (le_of_not_fltz hx hy h)]

/-! ### Fractions and integers (06 R111) -/

/-- The model's fraction of a magnitude. -/
theorem magFrac_spec (m : ℕ) (e : ℤ) : 0 < (magFrac m e).2 ∧ ((magFrac m e).1 : ℚ) / (magFrac m e).2 = m * 2 ^ e ∧
    (0 < m → 0 < (magFrac m e).1) := by
  unfold magFrac
  split
  case isTrue h =>
    obtain ⟨k, rfl⟩ := Int.eq_ofNat_of_zero_le h
    exact ⟨one_pos, by simp, fun hm => Nat.mul_pos hm (by positivity)⟩
  case isFalse h =>
    obtain ⟨k, rfl⟩ : ∃ k : ℕ, e = -k := ⟨(-e).toNat, by omega⟩
    refine ⟨by positivity, ?_, id⟩
    rw [neg_neg, Int.toNat_natCast, zpow_neg, zpow_natCast, div_eq_mul_inv]
    push_cast
    rfl

/-- k is the integer that z rounds to under a rounding mode. -/
def RMode.RoundsInt (rm : RMode) (z : ℚ) (k : ℤ) : Prop :=
  match rm with
  | .rne => |(k : ℚ) - z| ≤ 1 / 2 ∧ (|(k : ℚ) - z| = 1 / 2 → k % 2 = 0)
  | .rtz => k = if 0 ≤ z then ⌊z⌋ else ⌈z⌉
  | .rdn => k = ⌊z⌋
  | .rup => k = ⌈z⌉
/-- A magnitude rounded by the mode of its sign is the signed number rounded. -/
theorem RMode.roundsInt_of_rounds {rm : RMode} {neg : Bool} {t : ℚ} {k : ℕ} (ht : 0 ≤ t) (h : (rm.mag neg).Rounds t k) :
    rm.RoundsInt (signRat neg * t) (if neg then -k else k) := by
  have hfl : ((⌊t⌋₊ : ℕ) : ℤ) = ⌊t⌋ := Int.natCast_floor_eq_floor ht
  have hce : ((⌈t⌉₊ : ℕ) : ℤ) = ⌈t⌉ := Int.natCast_ceil_eq_ceil ht
  cases neg with
  | false =>
    rw [show signRat false = 1 from rfl, one_mul, if_neg Bool.false_ne_true]
    cases rm with
    | rne => exact ⟨mod_cast h.1, fun he => mod_cast h.2 (mod_cast he)⟩
    | rtz => exact (congrArg Nat.cast h).trans (hfl.trans (if_pos ht).symm)
    | rdn => exact (congrArg Nat.cast h).trans hfl
    | rup => exact (congrArg Nat.cast h).trans hce
  | true =>
    rw [show signRat true = -1 from rfl, neg_one_mul, if_pos rfl]
    cases rm with
    | rne =>
      obtain ⟨hle, htie⟩ := h
      have hdist : |((-k : ℤ) : ℚ) - -t| = |(k : ℚ) - t| := by
        rw [← abs_neg]
        congr 1
        push_cast
        ring
      refine ⟨hdist.trans_le hle, fun he => ?_⟩
      have := htie (hdist.symm.trans he)
      omega
    | rtz =>
      have hk : (k : ℤ) = ⌊t⌋ := (congrArg Nat.cast h).trans hfl
      change -(k : ℤ) = if 0 ≤ -t then ⌊-t⌋ else ⌈-t⌉
      split
      case isTrue h0 =>
        obtain rfl : t = 0 := le_antisymm (neg_nonneg.1 h0) ht
        rw [hk]
        simp
      case isFalse h0 => rw [hk, Int.ceil_neg]
    | rdn => exact (congrArg Neg.neg ((congrArg Nat.cast h).trans hce)).trans Int.floor_neg.symm
    | rup => exact (congrArg Neg.neg ((congrArg Nat.cast h).trans hfl)).trans Int.ceil_neg.symm
theorem satI_eq (x lo hi : ℤ) (h : lo ≤ hi) : satI x lo hi = max lo (min hi x) := by
  unfold satI
  split_ifs <;> omega
theorem rndToInt_rounds (rm : RMode) {lo hi : ℤ} (h : lo ≤ hi) (hx : x.Is u) :
    ∃ k, rm.RoundsInt u k ∧ rndToInt rm x lo hi = max lo (min hi k) := by
  obtain ⟨a, m, e, rfl, rfl⟩ := hx.fin
  obtain ⟨hd, hval, -⟩ := magFrac_spec m e
  have hfrac : rndInt rm a m e = if a then -(roundAt (rm.mag a) (magFrac m e).1 (magFrac m e).2 0 : ℤ)
      else roundAt (rm.mag a) (magFrac m e).1 (magFrac m e).2 0 := by
    unfold rndInt magFrac
    split <;> rfl
  have h0 := roundAt_rounds (rm.mag a) (magFrac m e).1 hd 0
  rw [hval, zpow_zero, div_one] at h0
  refine ⟨rndInt rm a m e, ?_, satI_eq _ _ _ h⟩
  rw [hfrac, mul_assoc]
  exact RMode.roundsInt_of_rounds (by positivity) h0

end
end Sys2Proof
end

section
/-!
O23: lanes that hold FP32 and BF16 codes, and rounding to one of them (06 R108 to R110; 08 R147).
-/
namespace Sys2Proof

/-! ### Lanes and their codes (06 R108; 08 R147) -/

/-- The exponent field of a lane. -/
def laneExp (x : W32) : ℕ := (x.extractLsb' 23 8).toNat
/-- The lane is no infinity and no NaN. -/
def LaneFin (x : W32) : Prop := laneExp x ≠ 255
/-- The value of a finite lane. -/
def laneRat (x : W32) : ℚ := (if x.getLsbD 31 then -1 else 1) * (if laneExp x = 0 then ((x.extractLsb' 0 23).toNat : ℚ) * 2 ^ (-149 : ℤ)
  else (2 ^ 23 + (x.extractLsb' 0 23).toNat : ℚ) * 2 ^ ((laneExp x : ℤ) - 150))
/-- The format that a floating type stores. -/
def FTy.fmt : FTy → FFmt
  | .f32 => fp32
  | .bf16 => Sys2Proof.bf16
/-- The zero bits below a stored code. -/
def FTy.low (ty : FTy) : ℕ := match ty with | .f32 => 0 | .bf16 => 16
/-- The lane of a code with its sign. -/
def FTy.lane (ty : FTy) (neg : Bool) (c : ℕ) : W32 := BitVec.ofNat 32 (ty.fmt.signed neg c * 2 ^ ty.low)
/-- The lane holds a finite value of the type. -/
def FTy.Grid (ty : FTy) (x : W32) : Prop := LaneFin x ∧ x.toNat % 2 ^ ty.low = 0

section
variable {ty : FTy} {neg : Bool} {c : ℕ} {x : W32}

theorem laneExp_eq (x : W32) : laneExp x = x.toNat / 2 ^ 23 % 2 ^ 8 := by
  rw [laneExp, BitVec.extractLsb'_toNat, Nat.shiftRight_eq_div_pow]
theorem laneFrac_eq (x : W32) : (x.extractLsb' 0 23).toNat = x.toNat % 2 ^ 23 := by
  rw [BitVec.extractLsb'_toNat, Nat.shiftRight_zero]
theorem laneSign_eq (x : W32) : x.getLsbD 31 = decide (2 ^ 31 ≤ x.toNat) :=
  (BitVec.msb_eq_getLsbD_last x).symm.trans (BitVec.msb_eq_decide x)
theorem laneFin_iff : LaneFin x ↔ x.toNat % 2 ^ 31 ≤ fp32.maxCode := by
  have h : x.toNat < 2 ^ 32 := x.isLt
  rw [LaneFin, laneExp_eq]
  change _ ↔ _ ≤ 0x7F7FFFFF
  omega
/-- A lane's value is that of its FP32 code. -/
theorem laneRat_eq (x : W32) : laneRat x = signRat (x.getLsbD 31) * fp32.codeVal (x.toNat % 2 ^ 31) := by
  have h : x.toNat < 2 ^ 32 := x.isLt
  have hexp := laneExp_eq x
  rw [laneRat, laneFrac_eq, signRat]
  congr 1
  split
  case isTrue h0 =>
    have hc : x.toNat % 2 ^ 31 = 0 * 2 ^ 23 + x.toNat % 2 ^ 23 := by omega
    rw [hc]
    exact (FFmt.codeVal_eq (f := fp32) (.inl rfl) (by change _ ≤ 2 * 2 ^ 23; omega)).symm
  case isFalse h0 =>
    have hc : x.toNat % 2 ^ 31 = (laneExp x - 1) * 2 ^ 23 + (2 ^ 23 + x.toNat % 2 ^ 23) := by omega
    have hq : (laneExp x : ℤ) - 150 = fp32.qmin + (laneExp x - 1 : ℕ) := by
      change _ = (-149 : ℤ) + _
      omega
    rw [hc, hq]
    refine Eq.trans ?_ (FFmt.codeVal_eq (f := fp32) (.inr ?_) ?_).symm
    · push_cast
      rfl
    · change 2 ^ 23 ≤ _
      omega
    · change _ ≤ 2 * 2 ^ 23
      omega
/-- A stored code has the value of the lane's FP32 code. -/
theorem FTy.codeVal_eq (ty : FTy) (c : ℕ) : ty.fmt.codeVal c = fp32.codeVal (c * 2 ^ ty.low) := by
  cases ty with
  | f32 => rw [show FTy.f32.low = 0 from rfl, pow_zero, mul_one]; rfl
  | bf16 =>
    have hexp : fp32.codeExp (c * 2 ^ 16) = Sys2Proof.bf16.codeExp c := by
      unfold FFmt.codeExp
      congr 1
      change c * 2 ^ 16 / 2 ^ 23 = c / 2 ^ 7
      omega
    have hq (e : ℤ) : (2 : ℚ) ^ (-133 + e) = 2 ^ 16 * 2 ^ (-149 + e) := by
      rw [show -133 + e = (16 : ℕ) + (-149 + e) by push_cast; ring, zpow_add₀ two_ne_zero, zpow_natCast]
    change ((c : ℚ) - (Sys2Proof.bf16.codeExp c : ℕ) * 2 ^ 7) * 2 ^ (-133 + (Sys2Proof.bf16.codeExp c : ℤ)) =
      ((c * 2 ^ 16 : ℕ) - (fp32.codeExp (c * 2 ^ 16) : ℕ) * 2 ^ 23) * 2 ^ (-149 + (fp32.codeExp (c * 2 ^ 16) : ℤ))
    rw [hexp, hq]
    push_cast
    ring
/-- A code, infinity's included, stands whole in its lane. -/
theorem FTy.lane_toNat (hc : c ≤ ty.fmt.maxCode + 1) : (ty.lane neg c).toNat = (if neg then 2 ^ 31 else 0) + c * 2 ^ ty.low := by
  rw [FTy.lane, BitVec.toNat_ofNat]
  cases ty with
  | f32 =>
    change c ≤ 0x7F7FFFFF + 1 at hc
    change (if neg then 2 ^ 31 + c else c) * 2 ^ 0 % 2 ^ 32 = _ + c * 2 ^ 0
    split <;> omega
  | bf16 =>
    change c ≤ 0x7F7F + 1 at hc
    change (if neg then 2 ^ 15 + c else c) * 2 ^ 16 % 2 ^ 32 = _ + c * 2 ^ 16
    split <;> omega
theorem FTy.mul_low_le (hc : c ≤ ty.fmt.maxCode + 1) : c * 2 ^ ty.low ≤ fp32.maxCode + 1 := by
  cases ty with
  | f32 => exact (mul_one c).trans_le hc
  | bf16 => exact Nat.mul_le_mul_right (2 ^ 16) hc
theorem FTy.lane_mod (hc : c ≤ ty.fmt.maxCode + 1) : (ty.lane neg c).toNat % 2 ^ 31 = c * 2 ^ ty.low := by
  have h := FTy.mul_low_le hc
  rw [FTy.lane_toNat hc]
  change _ ≤ 0x7F800000 at h
  split <;> omega
theorem FTy.lane_sign (hc : c ≤ ty.fmt.maxCode + 1) : (ty.lane neg c).getLsbD 31 = neg := by
  have h := FTy.mul_low_le hc
  change _ ≤ 0x7F800000 at h
  rw [laneSign_eq, FTy.lane_toNat hc]
  cases neg with
  | false => exact decide_eq_false (by rw [if_neg Bool.false_ne_true]; omega)
  | true => exact decide_eq_true (by rw [if_pos rfl]; omega)
theorem FTy.lane_low (hc : c ≤ ty.fmt.maxCode + 1) : (ty.lane neg c).toNat % 2 ^ ty.low = 0 := by
  rw [FTy.lane_toNat hc]
  cases ty with
  | f32 => exact Nat.mod_one _
  | bf16 =>
    change (_ + c * 2 ^ 16) % 2 ^ 16 = 0
    split <;> omega
theorem FTy.lane_parity (hc : c ≤ ty.fmt.maxCode + 1) : (ty.lane neg c).getLsbD ty.low = decide (c % 2 = 1) := by
  rw [BitVec.getLsbD, Nat.testBit_eq_decide_div_mod_eq, FTy.lane_toNat hc]
  congr 1
  cases ty with
  | f32 =>
    change ((_ + c * 2 ^ 0) / 2 ^ 0 % 2 = 1) = _
    split <;> exact propext (by omega)
  | bf16 =>
    change ((_ + c * 2 ^ 16) / 2 ^ 16 % 2 = 1) = _
    split <;> exact propext (by omega)
theorem FTy.laneRat_lane (hc : c ≤ ty.fmt.maxCode + 1) : laneRat (ty.lane neg c) = signRat neg * ty.fmt.codeVal c := by
  rw [laneRat_eq, FTy.lane_sign hc, FTy.lane_mod hc, FTy.codeVal_eq]
theorem FTy.laneFin_lane (hc : c ≤ ty.fmt.maxCode + 1) : LaneFin (ty.lane neg c) ↔ c ≤ ty.fmt.maxCode := by
  rw [laneFin_iff, FTy.lane_mod hc]
  cases ty with
  | f32 => exact (mul_one c).symm ▸ Iff.rfl
  | bf16 =>
    change c * 2 ^ 16 ≤ 0x7F7FFFFF ↔ c ≤ 0x7F7F
    omega
/-- The finite values of a type are those of its codes. -/
theorem FTy.Grid.exists_lane (h : ty.Grid x) : ∃ neg c, c ≤ ty.fmt.maxCode ∧ x = ty.lane neg c := by
  obtain ⟨hfin, hlow⟩ := h
  have hx : x.toNat < 2 ^ 32 := x.isLt
  rw [laneFin_iff] at hfin
  change _ ≤ 0x7F7FFFFF at hfin
  have hc : x.toNat % 2 ^ 31 / 2 ^ ty.low ≤ ty.fmt.maxCode ∧ x.toNat % 2 ^ 31 / 2 ^ ty.low * 2 ^ ty.low = x.toNat % 2 ^ 31 := by
    cases ty with
    | f32 => 
      change x.toNat % 2 ^ 31 / 2 ^ 0 ≤ 0x7F7FFFFF ∧ x.toNat % 2 ^ 31 / 2 ^ 0 * 2 ^ 0 = x.toNat % 2 ^ 31
      omega
    | bf16 =>
      change x.toNat % 2 ^ 16 = 0 at hlow
      change x.toNat % 2 ^ 31 / 2 ^ 16 ≤ 0x7F7F ∧ x.toNat % 2 ^ 31 / 2 ^ 16 * 2 ^ 16 = x.toNat % 2 ^ 31
      omega
  obtain ⟨hle, hmul⟩ := hc
  refine ⟨decide (2 ^ 31 ≤ x.toNat), _, hle, BitVec.eq_of_toNat_eq ?_⟩
  rw [FTy.lane_toNat (by omega), hmul]
  simp only [decide_eq_true_eq]
  split <;> omega
theorem FTy.codeVal_infinity (ty : FTy) : ty.fmt.codeVal (ty.fmt.maxCode + 1) = 2 ^ 128 := by
  cases ty with
  | f32 =>
    refine (FFmt.codeVal_eq (f := fp32) (e := 254) (i := 2 ^ 23) (by decide) (by decide)).trans ?_
    norm_num [fp32]
  | bf16 =>
    refine (FFmt.codeVal_eq (f := Sys2Proof.bf16) (e := 254) (i := 2 ^ 7) (by decide) (by decide)).trans ?_
    norm_num [Sys2Proof.bf16]
theorem FTy.codeVal_max (ty : FTy) : ty.fmt.codeVal ty.fmt.maxCode = 2 ^ 128 - 2 ^ (104 + ty.low) := by
  cases ty with
  | f32 =>
    refine (FFmt.codeVal_eq (f := fp32) (e := 253) (i := 2 ^ 24 - 1) (by decide) (by decide)).trans ?_
    norm_num [fp32, FTy.low]
  | bf16 =>
    refine (FFmt.codeVal_eq (f := Sys2Proof.bf16) (e := 253) (i := 2 ^ 8 - 1) (by decide) (by decide)).trans ?_
    norm_num [Sys2Proof.bf16, FTy.low]

end
end Sys2Proof
end

section
/-!
O23: a lane that holds a number rounded once (06 R110; 08 R147).
-/
namespace Sys2Proof

/-- r is the lane that z rounds to: within the type's finite values, or an infinity beyond them (06 R110). -/
def FTy.RoundsTo (ty : FTy) (rm : RMode) (z : ℚ) (r : W32) : Prop :=
  r.toNat % 2 ^ ty.low = 0 ∧ match rm with
    | .rne => (LaneFin r → |z| < 2 ^ 128 - 2 ^ (103 + ty.low) ∧ ∀ x, ty.Grid x → |laneRat r - z| ≤ |laneRat x - z| ∧
          (|laneRat r - z| = |laneRat x - z| → laneRat x = laneRat r ∨ r.getLsbD ty.low = false)) ∧
        (¬LaneFin r → 2 ^ 128 - 2 ^ (103 + ty.low) ≤ |z| ∧ r = if 0 ≤ z then 0x7F800000 else 0xFF800000)
    | .rtz => LaneFin r ∧ |laneRat r| ≤ |z| ∧ 0 ≤ laneRat r * z ∧ ∀ x, ty.Grid x → |laneRat x| ≤ |z| → |laneRat x| ≤ |laneRat r|
    | .rdn => (LaneFin r → laneRat r ≤ z ∧ ∀ x, ty.Grid x → laneRat x ≤ z → laneRat x ≤ laneRat r) ∧
        (¬LaneFin r → r = 0xFF800000 ∧ ∀ x, ty.Grid x → z < laneRat x)
    | .rup => (LaneFin r → z ≤ laneRat r ∧ ∀ x, ty.Grid x → z ≤ laneRat x → laneRat r ≤ laneRat x) ∧
        (¬LaneFin r → r = 0x7F800000 ∧ ∀ x, ty.Grid x → laneRat x < z)

/-- The code stored for a rounded magnitude code: beyond the largest finite one, that one or infinity (06 R110). -/
def FFmt.capped (f : FFmt) (mode : MagMode) (c : ℕ) : ℕ := if c ≤ f.maxCode then c else if mode = .down then f.maxCode else f.maxCode + 1

section
variable {ty : FTy} {rm : RMode} {neg : Bool} {y : ℚ} {c : ℕ} {x : W32}

theorem FTy.inf_fmt (ty : FTy) : ty.fmt.inf = true := by cases ty <;> rfl
theorem FTy.two_le_p (ty : FTy) : 2 ≤ ty.fmt.p := by cases ty <;> decide
theorem FTy.maxCode_odd (ty : FTy) : ty.fmt.maxCode % 2 = 1 := by cases ty <;> decide
theorem FTy.rndRat_eq (ty : FTy) (rm : RMode) (neg : Bool) (n d : ℕ) :
    ty.fmt.rndRat rm neg n d = ty.fmt.signed neg (ty.fmt.capped (rm.mag neg) (ty.fmt.roundMag (rm.mag neg) n d)) := by
  unfold FFmt.rndRat FFmt.capped FFmt.infCode
  dsimp only
  rw [if_pos ty.inf_fmt]
  split_ifs <;> rfl
theorem FFmt.capped_le {f : FFmt} {mode : MagMode} : f.capped mode c ≤ f.maxCode + 1 := by
  unfold FFmt.capped
  split_ifs <;> omega
/-- Half way between the largest finite value and the code after it. -/
theorem FTy.midpoint (ty : FTy) :
    ty.fmt.codeVal ty.fmt.maxCode + ty.fmt.codeVal (ty.fmt.maxCode + 1) = 2 * (2 ^ 128 - 2 ^ (103 + ty.low)) := by
  rw [ty.codeVal_infinity, ty.codeVal_max, show 104 + ty.low = 103 + ty.low + 1 by ring, pow_succ]
  ring
theorem FTy.infinity_lane (ty : FTy) (neg : Bool) : ty.lane neg (ty.fmt.maxCode + 1) = if neg then 0xFF800000 else 0x7F800000 := by
  cases ty <;> cases neg <;> rfl

/-- The nearest code lies beyond the finite ones when the number does by half a unit. -/
theorem FTy.nearest_overflow (h : ty.fmt.Nearest y c) : c ≤ ty.fmt.maxCode ↔ y < 2 ^ 128 - 2 ^ (103 + ty.low) := by
  have hmid := ty.midpoint
  have hmono := ty.fmt.codeVal_strictMono
  have hgap := hmono (Nat.lt_succ_self ty.fmt.maxCode)
  rw [Nat.succ_eq_add_one] at hgap
  constructor
  · intro hc
    by_contra hy
    have hle := hmono.monotone hc
    obtain ⟨hnear, htie⟩ := h (ty.fmt.maxCode + 1)
    rw [abs_of_nonpos (by linarith)] at hnear htie
    rcases le_total y (ty.fmt.codeVal (ty.fmt.maxCode + 1)) with hy' | hy'
    · rw [abs_of_nonneg (by linarith)] at hnear htie
      have heq : ty.fmt.codeVal c = ty.fmt.codeVal ty.fmt.maxCode := by linarith
      obtain rfl := hmono.injective heq
      have hodd := ty.maxCode_odd
      rcases htie (by linarith) with h | h <;> omega
    · rw [abs_of_nonpos (by linarith)] at hnear
      linarith
  · intro hy
    by_contra hc
    have hle := hmono.monotone (Nat.succ_le_of_lt (not_le.1 hc))
    rw [Nat.succ_eq_add_one] at hle
    obtain ⟨hnear, -⟩ := h ty.fmt.maxCode
    rw [abs_of_nonneg (by linarith)] at hnear
    rcases le_total y (ty.fmt.codeVal ty.fmt.maxCode) with hy' | hy'
    · rw [abs_of_nonneg (by linarith)] at hnear
      linarith
    · rw [abs_of_nonpos (by linarith)] at hnear
      linarith
/-- Another finite value is as far away at least, on either side of zero. -/
theorem FTy.nearest_signed (h : ty.fmt.Nearest y c) (hy : 0 ≤ y) (neg neg' : Bool) (b : ℕ) :
    |signRat neg * ty.fmt.codeVal c - signRat neg * y| ≤ |signRat neg' * ty.fmt.codeVal b - signRat neg * y| ∧
      (|signRat neg * ty.fmt.codeVal c - signRat neg * y| = |signRat neg' * ty.fmt.codeVal b - signRat neg * y| →
        signRat neg' * ty.fmt.codeVal b = signRat neg * ty.fmt.codeVal c ∨ c % 2 = 0) := by
  have hb := ty.fmt.codeVal_nonneg (c := b)
  rw [← mul_sub, abs_signRat_mul]
  rcases eq_or_ne neg' neg with rfl | hne
  · rw [← mul_sub, abs_signRat_mul]
    obtain ⟨hle, htie⟩ := h b
    exact ⟨hle, fun he => (htie he).imp_left fun hbc => by rw [hbc]⟩
  · obtain rfl : neg' = !neg := Bool.eq_not_of_ne hne
    obtain ⟨hle, htie⟩ := h 0
    rw [FFmt.codeVal_zero, zero_sub, abs_neg, abs_of_nonneg hy] at hle htie
    have hfar : |signRat (!neg) * ty.fmt.codeVal b - signRat neg * y| = ty.fmt.codeVal b + y := by
      rw [signRat_not, neg_mul, ← neg_add', abs_neg, ← mul_add, abs_signRat_mul, abs_of_nonneg (by linarith)]
    rw [hfar]
    refine ⟨by linarith, fun he => ?_⟩
    have hb0 : ty.fmt.codeVal b = 0 := by linarith
    rcases htie (by linarith) with h0 | h0
    · exact .inl (by rw [hb0, ← h0, FFmt.codeVal_zero, mul_zero, mul_zero])
    · exact .inr h0
theorem FTy.roundsTo_rne (h : ty.fmt.Nearest y c) (hy : 0 < y) :
    ty.RoundsTo .rne (signRat neg * y) (ty.lane neg (ty.fmt.capped .near c)) := by
  have hover := FTy.nearest_overflow h
  refine ⟨FTy.lane_low FFmt.capped_le, ?_⟩
  dsimp only
  rw [FTy.laneFin_lane FFmt.capped_le, FTy.laneRat_lane FFmt.capped_le, FTy.lane_parity FFmt.capped_le, abs_signRat_mul, abs_of_pos hy]
  unfold FFmt.capped
  rcases le_or_gt c ty.fmt.maxCode with hc | hc
  · rw [if_pos hc]
    refine ⟨fun _ => ⟨hover.1 hc, fun x hx => ?_⟩, fun hn => absurd hc hn⟩
    obtain ⟨neg', b, hb, rfl⟩ := hx.exists_lane
    rw [FTy.laneRat_lane (by omega)]
    obtain ⟨hle, htie⟩ := FTy.nearest_signed h hy.le neg neg' b
    exact ⟨hle, fun he => (htie he).imp_right fun hev => decide_eq_false (by omega)⟩
  · rw [if_neg hc.not_ge, if_neg (by decide)]
    refine ⟨fun hf => absurd hf (by omega), fun _ => ⟨not_lt.1 (mt hover.2 hc.not_ge), ?_⟩⟩
    rw [FTy.infinity_lane]
    cases neg with
    | false => rw [if_neg Bool.false_ne_true, if_pos (by simp [signRat, hy.le])]
    | true => rw [if_pos rfl, if_neg (by simp [signRat, hy])]
/-- Downwards in magnitude the largest finite code is the bound. -/
theorem FTy.capped_down (h : ty.fmt.RoundsMag .down y c) : ty.fmt.capped .down c ≤ ty.fmt.maxCode ∧
    ty.fmt.codeVal (ty.fmt.capped .down c) ≤ y ∧ ∀ b ≤ ty.fmt.maxCode, ty.fmt.codeVal b ≤ y → b ≤ ty.fmt.capped .down c := by
  obtain ⟨hle, hmax⟩ := h
  have hcap : ty.fmt.capped .down c = min c ty.fmt.maxCode := by
    unfold FFmt.capped
    rw [if_pos rfl]
    split <;> omega
  rw [hcap]
  exact ⟨min_le_right _ _, (ty.fmt.codeVal_strictMono.monotone (min_le_left _ _)).trans hle,
    fun b hb hby => le_min (hmax b hby) hb⟩
theorem FTy.roundsTo_rtz (h : ty.fmt.RoundsMag .down y c) (hy : 0 < y) :
    ty.RoundsTo .rtz (signRat neg * y) (ty.lane neg (ty.fmt.capped .down c)) := by
  obtain ⟨hfin, hle, hmax⟩ := FTy.capped_down h
  refine ⟨FTy.lane_low FFmt.capped_le, (FTy.laneFin_lane FFmt.capped_le).2 hfin, ?_, ?_, fun x hx hxy => ?_⟩
  · rwa [FTy.laneRat_lane FFmt.capped_le, abs_signRat_mul, abs_signRat_mul, abs_of_pos hy, abs_of_nonneg FFmt.codeVal_nonneg]
  · rw [FTy.laneRat_lane FFmt.capped_le, mul_mul_mul_comm, signRat_sq, one_mul]
    exact mul_nonneg FFmt.codeVal_nonneg hy.le
  · obtain ⟨neg', b, hb, rfl⟩ := hx.exists_lane
    rw [FTy.laneRat_lane (by omega), abs_signRat_mul, abs_of_nonneg FFmt.codeVal_nonneg] at hxy ⊢
    rw [FTy.laneRat_lane FFmt.capped_le, abs_signRat_mul, abs_of_nonneg FFmt.codeVal_nonneg]
    rw [abs_signRat_mul, abs_of_pos hy] at hxy
    exact ty.fmt.codeVal_strictMono.monotone (hmax b hb hxy)

/-- A finite value as its magnitude code and whether it has the sign asked for. -/
theorem FTy.Grid.signed (h : ty.Grid x) (neg : Bool) : ∃ b ≤ ty.fmt.maxCode,
    signRat neg * laneRat x = ty.fmt.codeVal b ∨ signRat neg * laneRat x = -ty.fmt.codeVal b := by
  obtain ⟨neg', b, hb, rfl⟩ := h.exists_lane
  refine ⟨b, hb, ?_⟩
  rw [FTy.laneRat_lane (by omega), ← mul_assoc]
  rcases eq_or_ne neg' neg with rfl | hne
  · exact .inl (by rw [signRat_sq, one_mul])
  · obtain rfl : neg' = !neg := Bool.eq_not_of_ne hne
    exact .inr (by rw [signRat_not, mul_neg, signRat_sq, neg_one_mul])
theorem FTy.signed_laneRat_lane (hc : c ≤ ty.fmt.maxCode + 1) : signRat neg * laneRat (ty.lane neg c) = ty.fmt.codeVal c := by
  rw [FTy.laneRat_lane hc, ← mul_assoc, signRat_sq, one_mul]
/-- Rounded towards zero, a lane is the outermost finite value on its side within y. -/
theorem FTy.down_signed (h : ty.fmt.RoundsMag .down y c) :
    let r := ty.lane neg (ty.fmt.capped .down c)
    LaneFin r ∧ signRat neg * laneRat r ≤ y ∧
      ∀ x, ty.Grid x → signRat neg * laneRat x ≤ y → signRat neg * laneRat x ≤ signRat neg * laneRat r := by
  obtain ⟨hfin, hle, hmax⟩ := FTy.capped_down h
  dsimp only
  rw [FTy.signed_laneRat_lane FFmt.capped_le]
  refine ⟨(FTy.laneFin_lane FFmt.capped_le).2 hfin, hle, fun x hx hxy => ?_⟩
  obtain ⟨b, hb, hval | hval⟩ := hx.signed neg
  · rw [hval] at hxy ⊢
    exact ty.fmt.codeVal_strictMono.monotone (hmax b hb hxy)
  · rw [hval]
    exact (neg_nonpos.2 FFmt.codeVal_nonneg).trans FFmt.codeVal_nonneg
/-- Rounded away from zero, a lane is the innermost finite value on its side beyond y, or there is none. -/
theorem FTy.up_signed (h : ty.fmt.RoundsMag .up y c) (hy : 0 < y) :
    let r := ty.lane neg (ty.fmt.capped .up c)
    (LaneFin r → y ≤ signRat neg * laneRat r ∧
        ∀ x, ty.Grid x → y ≤ signRat neg * laneRat x → signRat neg * laneRat r ≤ signRat neg * laneRat x) ∧
      (¬LaneFin r → r = (if neg then 0xFF800000 else 0x7F800000) ∧ ∀ x, ty.Grid x → signRat neg * laneRat x < y) := by
  obtain ⟨hge, hmin⟩ := h
  have hout {x : W32} (hx : ty.Grid x) (hxy : y ≤ signRat neg * laneRat x) :
      ∃ b ≤ ty.fmt.maxCode, c ≤ b ∧ signRat neg * laneRat x = ty.fmt.codeVal b := by
    obtain ⟨b, hb, hval | hval⟩ := hx.signed neg
    · exact ⟨b, hb, hmin b (hval ▸ hxy), hval⟩
    · exact absurd (hy.trans_le (hval ▸ hxy)) (not_lt.2 (neg_nonpos.2 FFmt.codeVal_nonneg))
  dsimp only
  rw [FTy.laneFin_lane FFmt.capped_le, FTy.signed_laneRat_lane FFmt.capped_le]
  unfold FFmt.capped
  rcases le_or_gt c ty.fmt.maxCode with hc | hc
  · rw [if_pos hc]
    refine ⟨fun _ => ⟨hge, fun x hx hxy => ?_⟩, fun hn => absurd hc hn⟩
    obtain ⟨b, -, hcb, hval⟩ := hout hx hxy
    rw [hval]
    exact ty.fmt.codeVal_strictMono.monotone hcb
  · rw [if_neg hc.not_ge, if_neg (by decide)]
    refine ⟨fun hf => absurd hf (by omega), fun _ => ⟨ty.infinity_lane neg, fun x hx => not_le.1 fun hxy => ?_⟩⟩
    obtain ⟨b, hb, hcb, -⟩ := hout hx hxy
    omega
theorem FTy.roundsTo_rdn (h : ty.fmt.RoundsMag (RMode.rdn.mag neg) y c) (hy : 0 < y) :
    ty.RoundsTo .rdn (signRat neg * y) (ty.lane neg (ty.fmt.capped (RMode.rdn.mag neg) c)) := by
  refine ⟨FTy.lane_low FFmt.capped_le, ?_⟩
  cases neg with
  | false =>
    obtain ⟨hfin, hle, hmax⟩ := FTy.down_signed (neg := false) h
    simp only [signRat, Bool.false_eq_true, if_false, one_mul] at hle hmax ⊢
    exact ⟨fun _ => ⟨hle, hmax⟩, fun hn => absurd hfin hn⟩
  | true =>
    obtain ⟨hfin, hinf⟩ := FTy.up_signed (neg := true) h hy
    simp only [signRat, if_true, neg_one_mul, neg_le_neg_iff] at hfin hinf ⊢
    exact ⟨fun hf => ⟨le_neg_of_le_neg (hfin hf).1, fun x hx hxy => (hfin hf).2 x hx (le_neg_of_le_neg hxy)⟩,
      fun hn => ⟨(hinf hn).1, fun x hx => neg_lt_of_neg_lt ((hinf hn).2 x hx)⟩⟩
theorem FTy.roundsTo_rup (h : ty.fmt.RoundsMag (RMode.rup.mag neg) y c) (hy : 0 < y) :
    ty.RoundsTo .rup (signRat neg * y) (ty.lane neg (ty.fmt.capped (RMode.rup.mag neg) c)) := by
  refine ⟨FTy.lane_low FFmt.capped_le, ?_⟩
  cases neg with
  | false =>
    obtain ⟨hfin, hinf⟩ := FTy.up_signed (neg := false) h hy
    simp only [signRat, Bool.false_eq_true, if_false, one_mul] at hfin hinf ⊢
    exact ⟨hfin, hinf⟩
  | true =>
    obtain ⟨hfin, hle, hmax⟩ := FTy.down_signed (neg := true) h
    simp only [signRat, if_true, neg_one_mul, neg_le_neg_iff] at hle hmax ⊢
    exact ⟨fun _ => ⟨neg_le_of_neg_le hle, fun x hx hxy => hmax x hx (neg_le_of_neg_le hxy)⟩, fun hn => absurd hfin hn⟩
/-- A fraction with its sign, rounded once to a code, stands in its lane (06 R110). -/
theorem FTy.rndRat_roundsTo (ty : FTy) (rm : RMode) (neg : Bool) {n d : ℕ} (hn : 0 < n) (hd : 0 < d) :
    ty.RoundsTo rm (signRat neg * (n / d)) (BitVec.ofNat 32 (ty.fmt.rndRat rm neg n d * 2 ^ ty.low)) := by
  have hy : (0 : ℚ) < n / d := by positivity
  have hmag := FFmt.roundMag_rounds (rm.mag neg) ty.two_le_p hn hd
  rw [ty.rndRat_eq]
  cases rm with
  | rne => exact FTy.roundsTo_rne hmag hy
  | rtz => exact FTy.roundsTo_rtz hmag hy
  | rdn => exact FTy.roundsTo_rdn hmag hy
  | rup => exact FTy.roundsTo_rup hmag hy
/-- A zero of either sign is exact. -/
theorem FTy.zero_roundsTo (ty : FTy) (rm : RMode) (neg : Bool) : ty.RoundsTo rm 0 (ty.lane neg 0) := by
  have hzero : laneRat (ty.lane neg 0) = 0 := by rw [FTy.laneRat_lane (Nat.zero_le _), FFmt.codeVal_zero, mul_zero]
  have hfin : LaneFin (ty.lane neg 0) := (FTy.laneFin_lane (Nat.zero_le _)).2 (Nat.zero_le _)
  refine ⟨FTy.lane_low (Nat.zero_le _), ?_⟩
  cases rm with
  | rne =>
    refine ⟨fun _ => ⟨?_, fun x _ => ?_⟩, fun hn => absurd hfin hn⟩
    · rw [abs_zero]
      cases ty <;> norm_num [FTy.low]
    · rw [hzero, sub_zero, sub_zero, abs_zero]
      exact ⟨abs_nonneg _, fun he => .inl (abs_eq_zero.1 he.symm)⟩
  | rtz =>
    refine ⟨hfin, by rw [hzero], by rw [mul_zero], fun x _ hx => by rwa [hzero]⟩
  | rdn => exact ⟨fun _ => ⟨hzero.le, fun x _ hx => hx.trans_eq hzero.symm⟩, fun hn => absurd hfin hn⟩
  | rup => exact ⟨fun _ => ⟨hzero.ge, fun x _ hx => hzero.trans_le hx⟩, fun hn => absurd hfin hn⟩
/-- A code as it is stored: BF16 in the upper half (08 R147). -/
def FTy.put (ty : FTy) (code : ℕ) : W32 :=
  match ty with
  | .f32 => BitVec.ofNat 32 code
  | .bf16 => BitVec.ofNat 32 (code * 2 ^ 16)
theorem FTy.put_eq (ty : FTy) (code : ℕ) : ty.put code = BitVec.ofNat 32 (code * 2 ^ ty.low) := by
  cases ty with
  | f32 => exact congrArg (BitVec.ofNat 32) (mul_one code).symm
  | bf16 => rfl
theorem FTy.store_fin (ty : FTy) (rm : RMode) (n : Bool) (m : ℕ) (e : ℤ) : ty.store rm (.fin n m e) = ty.put (ty.fmt.rnd rm (.fin n m e)) := by
  cases ty <;> rfl
theorem FTy.rnd_fin (ty : FTy) (rm : RMode) (s : Bool) {m : ℕ} (e : ℤ) (hm : 0 < m) :
    ty.fmt.rnd rm (.fin s m e) = ty.fmt.rndRat rm s (magFrac m e).1 (magFrac m e).2 := by
  unfold FFmt.rnd magFrac
  dsimp only
  rw [if_neg hm.ne']
  split <;> rfl
/-- Every finite value is stored rounded once (08 R147). -/
theorem FTy.store_roundsTo (ty : FTy) (rm : RMode) {v : FVal} {z : ℚ} (h : v.Is z) : ty.RoundsTo rm z (ty.store rm v) := by
  obtain ⟨n, m, e, rfl, rfl⟩ := h.fin
  rw [ty.store_fin, ty.put_eq]
  rcases Nat.eq_zero_or_pos m with rfl | hm
  · rw [Nat.cast_zero, mul_zero, zero_mul]
    exact ty.zero_roundsTo rm n
  · obtain ⟨hd, hval, hpos⟩ := magFrac_spec m e
    rw [ty.rnd_fin rm n e hm, mul_assoc, ← hval]
    exact ty.rndRat_roundsTo rm n (hpos hm) hd

end
end Sys2Proof
end

section
/-!
O23: what the floating words of VEC leave in a lane (06 R108 to R114; 08 R147, R151, R155).
-/
namespace Sys2Proof

/-! ### The value of a lane (06 R108) -/

section
variable {x y : W32} {v : FVal} {vs : List FVal}

/-- A finite code stands for its significand and exponent. -/
theorem FFmt.val_of_le {f : FFmt} {code : ℕ} (h : code % 2 ^ (f.width - 1) ≤ f.maxCode) :
    f.val code = .fin (decide (2 ^ (f.width - 1) ≤ code))
      (code % 2 ^ (f.width - 1) - f.codeExp (code % 2 ^ (f.width - 1)) * 2 ^ (f.p - 1))
      (f.qmin + f.codeExp (code % 2 ^ (f.width - 1))) := by
  unfold FFmt.val FFmt.codeExp
  dsimp only
  rw [if_neg (not_lt.2 h)]
  generalize code % 2 ^ (f.width - 1) = mag
  have hw : 0 < 2 ^ (f.p - 1) := by positivity
  split
  case isTrue hlt => simp [Nat.div_eq_of_lt hlt]
  case isFalse hge =>
    obtain ⟨k, hk⟩ : ∃ k, mag / 2 ^ (f.p - 1) = k + 1 := Nat.exists_eq_add_one.2 (Nat.div_pos (not_lt.1 hge) hw)
    have hmod := Nat.div_add_mod mag (2 ^ (f.p - 1))
    have hsig : mag % 2 ^ (f.p - 1) + 2 ^ (f.p - 1) = mag - k * 2 ^ (f.p - 1) := by
      rw [hk, mul_comm, Nat.succ_mul] at hmod
      omega
    rw [hk, Nat.add_sub_cancel, hsig]
theorem fpVal_of_fin (h : LaneFin x) : fpVal x = .fin (x.getLsbD 31)
    (x.toNat % 2 ^ 31 - fp32.codeExp (x.toNat % 2 ^ 31) * 2 ^ 23) (fp32.qmin + fp32.codeExp (x.toNat % 2 ^ 31)) := by
  unfold fpVal
  rw [FFmt.val_of_le (laneFin_iff.1 h), laneSign_eq]
  rfl
/-- A finite lane stands for its value. -/
theorem fpVal_is (h : LaneFin x) : (fpVal x).Is (laneRat x) := by
  have hexp : fp32.codeExp (x.toNat % 2 ^ 31) * 2 ^ 23 ≤ x.toNat % 2 ^ 31 := by
    change (x.toNat % 2 ^ 31 / 2 ^ 23 - 1) * 2 ^ 23 ≤ _
    omega
  rw [fpVal_of_fin h, laneRat_eq]
  change signRat _ * ((_ - _ : ℕ) : ℚ) * 2 ^ (_ : ℤ) = signRat _ * ((_ - _ * 2 ^ 23) * _)
  rw [Nat.cast_sub hexp, mul_assoc]
  push_cast
  rfl
/-- No operand is a NaN: the result is the one computed (06 R114). -/
theorem firstNaN_eq (h : ∀ u ∈ vs, u.isNaN = false) : firstNaN vs v = v := by
  induction vs with
  | nil => rfl
  | cons u vs ih =>
    have hvs := ih fun u hu => h u (List.mem_cons_of_mem _ hu)
    cases u with
    | nan b => exact absurd (h _ List.mem_cons_self).symm Bool.false_ne_true
    | inf _ | fin _ _ _ => exact hvs
theorem firstNaN_two {u w : FVal} (hu : u.isNaN = false) (hw : w.isNaN = false) : firstNaN [u, w] v = v :=
  firstNaN_eq (List.forall_mem_cons.2 ⟨hu, List.forall_mem_singleton.2 hw⟩)

end
end Sys2Proof
namespace Sys2Proof.Machine

/-! ### Lanes of element-wise words (08 R147) -/

/-- One to three source tiles that all have lane j. -/
def HasLane (j : ℕ) (ts : List Tile) : Prop := ts ≠ [] ∧ ts.length ≤ 3 ∧ ∀ t ∈ ts, j < t.length
/-- Lane j of each of some tiles. -/
def lanesAt (j : ℕ) (ts : List Tile) : List W32 := ts.map fun t => t.getD j 0

section
variable {j : ℕ} {ts : List Tile} {a b c : Tile} {f : List W32 → W32}

theorem hasLane_one (ha : j < a.length) : HasLane j [a] := ⟨by simp, by simp, by simpa⟩
theorem hasLane_two (ha : j < a.length) (hb : j < b.length) : HasLane j [a, b] := ⟨by simp, by simp, by simp [ha, hb]⟩
theorem hasLane_three (ha : j < a.length) (hb : j < b.length) (hc : j < c.length) : HasLane j [a, b, c] :=
  ⟨by simp, by simp, by simp [ha, hb, hc]⟩
/-- Each lane of an element-wise word is computed from the same lane of its sources. -/
theorem lanesWise_getD (h : HasLane j ts) : (lanesWise ts f).getD j 0 = f (lanesAt j ts) := by
  obtain ⟨hne, hlen, hj⟩ := h
  match ts with
  | [] => exact absurd rfl hne
  | [a] =>
    have ha := hj a (by simp)
    simp [lanesWise, lanesAt, ha]
  | [a, b] =>
    have ha := hj a (by simp)
    have hb := hj b (by simp)
    simp [lanesWise, lanesAt, ha, hb]
  | [a, b, c] =>
    have ha := hj a (by simp)
    have hb := hj b (by simp)
    have hc := hj c (by simp)
    simp [lanesWise, lanesAt, ha, hb, hc]
  | _ :: _ :: _ :: _ :: r =>
    simp only [List.length_cons] at hlen
    omega

end

/-! ### Floating words (08 R147, R151) -/

section
variable {ty : FTy} {rm : RMode} {d : VDst} {srcs : List VSrc} {imm : W64} {cls : VClass} {g : List FVal → FVal} {z : ℚ} {j : ℕ}
  {ts : List Tile}

theorem rawSem_lane {f : List W32 → W32} (h : HasLane j ts) : (((rawSem d srcs imm cls f).run ts).tile).getD j 0 = f (lanesAt j ts) :=
  lanesWise_getD h
theorem floatSem_lane (h : HasLane j ts) : (((floatSem ty rm d srcs imm cls g).run ts).tile).getD j 0 =
    ty.store rm (firstNaN ((lanesAt j ts).map fpVal) (g ((lanesAt j ts).map fpVal))) :=
  lanesWise_getD (f := fun ls => ty.store rm (firstNaN (ls.map fpVal) (g (ls.map fpVal)))) h
theorem sfSem_lane {fn : SFn} {p : VSrc} {t : Tile} (h : HasLane j [t]) :
    (((sfSem fn ty rm d p imm).run [t]).tile).getD j 0 = sfLane fn ty rm (t.getD j 0) :=
  lanesWise_getD (f := fun ls => sfLane fn ty rm (ls.getD 0 0)) h
/-- The type of a VDIV or VCVT that stores as a floating type does (08 R148). -/
def FTy.vty (ty : FTy) : VTy :=
  match ty with
  | .f32 => .f32
  | .bf16 => .bf16
theorem semVdiv_lane {p q : VSrc} {t u : Tile} (h : HasLane j [t, u]) :
    (((semVdiv (FTy.vty ty) rm d p q imm).run [t, u]).tile).getD j 0 = fdivLane ty rm (t.getD j 0) (u.getD j 0) := by
  cases ty <;> exact lanesWise_getD (f := fun ls => fdivLane _ rm (ls.getD 0 0) (ls.getD 1 0)) h
/-- A floating word of finite operands rounds what it computes once. -/
theorem floatSem_roundsTo (h : HasLane j ts) (hfin : ∀ x ∈ lanesAt j ts, LaneFin x) (hg : (g ((lanesAt j ts).map fpVal)).Is z) :
    ty.RoundsTo rm z ((((floatSem ty rm d srcs imm cls g).run ts).tile).getD j 0) := by
  rw [floatSem_lane h, firstNaN_eq fun u hu => ?_]
  · exact ty.store_roundsTo rm hg
  · obtain ⟨x, hx, rfl⟩ := List.mem_map.1 hu
    exact (fpVal_is (hfin x hx)).not_nan

end

/-! ### Quotients and reciprocals (08 R151, R161) -/

section
variable {ty : FTy} {rm : RMode} {x y : W32}

theorem inv_signRat (b : Bool) : (signRat b)⁻¹ = signRat b := inv_eq_of_mul_eq_one_left (signRat_sq b)
/-- A quotient by a value other than zero is a zero or a fraction, with its sign. -/
theorem fdiv_cases {u v : FVal} {p q : ℚ} (hu : u.Is p) (hv : v.Is q) (hq : q ≠ 0) :
    (∃ s, fdiv u v = .exact (.fin s 0 0) ∧ p / q = 0) ∨
      ∃ s n d, fdiv u v = .rat s n d ∧ 0 < n ∧ 0 < d ∧ p / q = signRat s * (n / d) := by
  obtain ⟨s, m, e, rfl, rfl⟩ := hu.fin
  obtain ⟨t, n, f, rfl, rfl⟩ := hv.fin
  have hn : n ≠ 0 := by
    rintro rfl
    exact hq (by rw [Nat.cast_zero, mul_zero, zero_mul])
  unfold fdiv
  dsimp only
  rw [if_neg hn]
  rcases Nat.eq_zero_or_pos m with rfl | hm
  · exact .inl ⟨_, if_pos rfl, by rw [Nat.cast_zero, mul_zero, zero_mul, zero_div]⟩
  · obtain ⟨hd, hval, hpos⟩ := magFrac_spec m (e - f)
    refine .inr ⟨_, _, _, if_neg hm.ne', hpos hm, Nat.mul_pos hd (Nat.pos_of_ne_zero hn), ?_⟩
    rw [Nat.cast_mul, ← div_div ((magFrac m (e - f)).1 : ℚ), hval, signRat_bne, zpow_sub₀ two_ne_zero, div_eq_mul_inv, mul_inv, mul_inv,
      inv_signRat]
    ring
theorem fdivLane_roundsTo (hx : LaneFin x) (hy : LaneFin y) (h0 : laneRat y ≠ 0) :
    ty.RoundsTo rm (laneRat x / laneRat y) (fdivLane ty rm x y) := by
  unfold fdivLane
  dsimp only
  rw [firstNaN_two (fpVal_is hx).not_nan (fpVal_is hy).not_nan, if_neg (by decide)]
  rcases fdiv_cases (fpVal_is hx) (fpVal_is hy) h0 with ⟨s, hdiv, hz⟩ | ⟨s, n, d, hdiv, hn, hd, hz⟩
  · have hr := ty.zero_roundsTo rm s
    rw [FTy.lane, ← ty.put_eq] at hr
    rw [hdiv, hz]
    cases ty <;> exact hr
  · have hr := ty.rndRat_roundsTo rm s hn hd
    have hrnd : (SRes.rat s n d).rnd ty.fmt rm = ty.fmt.rndRat rm s n d := if_neg hn.ne'
    rw [← hrnd, ← ty.put_eq] at hr
    rw [hdiv, hz]
    cases ty <;> exact hr
/-- A special function's lane is its code, stored (08 R147, R161). -/
theorem sfLane_fin (fn : SFn) {s : Bool} {m : ℕ} {e : ℤ} (h : fpVal x = .fin s m e) :
    sfLane fn ty rm x = ty.put (sfRound fn ty.fmt rm (.fin s m e)) := by
  unfold sfLane
  rw [h]
  cases ty <;> rfl
theorem sfRound_rcp (f : FFmt) (rm : RMode) (s : Bool) {m : ℕ} (e : ℤ) (hm : 0 < m) :
    sfRound .rcp f rm (.fin s m e) = f.rndRat rm s (magFrac m e).2 (magFrac m e).1 := by
  have hspecial : sfSpecial .rcp (.fin s m e) = none := by simp only [sfSpecial, if_neg hm.ne', ite_self]
  obtain ⟨hd, -, -⟩ := magFrac_spec m e
  unfold sfRound
  rw [hspecial]
  exact if_neg hd.ne'
theorem sfLane_rcp_roundsTo (hx : LaneFin x) (h0 : laneRat x ≠ 0) : ty.RoundsTo rm (1 / laneRat x) (sfLane .rcp ty rm x) := by
  obtain ⟨s, m, e, hval, hrat⟩ := (fpVal_is hx).fin
  have hm : 0 < m := Nat.pos_of_ne_zero fun hc => h0 (by rw [← hrat, hc, Nat.cast_zero, mul_zero, zero_mul])
  obtain ⟨hd, hfrac, hpos⟩ := magFrac_spec m e
  have hz : 1 / laneRat x = signRat s * ((magFrac m e).2 / (magFrac m e).1) := by
    rw [← hrat, ← inv_div ((magFrac m e).1 : ℚ), hfrac, one_div, mul_assoc, mul_inv, inv_signRat]
  rw [sfLane_fin _ hval, sfRound_rcp _ _ _ _ hm, ty.put_eq, hz]
  exact ty.rndRat_roundsTo rm s hd (hpos hm)

end

/-! ### Conversions (08 R155) -/

section
variable {rm : RMode} {x : W32}

theorem cvtLane_i32 (hx : LaneFin x) : ∃ k, rm.RoundsInt (laneRat x) k ∧ (cvtLane .i32 .f32 rm x).toInt = max (-2 ^ 31) (min (2 ^ 31 - 1) k) := by
  obtain ⟨k, hk, hval⟩ := rndToInt_rounds rm (lo := -2 ^ 31) (hi := 2 ^ 31 - 1) (by norm_num) (fpVal_is hx)
  refine ⟨k, hk, ?_⟩
  change (BitVec.ofInt 32 (rndToInt rm (fpVal x) (-2 ^ 31) (2 ^ 31 - 1))).toInt = _
  rw [hval, BitVec.toInt_ofInt, Int.bmod_eq_of_le] <;> omega
theorem cvtLane_u32 (hx : LaneFin x) :
    ∃ k, rm.RoundsInt (laneRat x) k ∧ ((cvtLane .u32 .f32 rm x).toNat : ℤ) = max 0 (min (2 ^ 32 - 1) k) := by
  obtain ⟨k, hk, hval⟩ := rndToInt_rounds rm (lo := 0) (hi := 2 ^ 32 - 1) (by norm_num) (fpVal_is hx)
  refine ⟨k, hk, ?_⟩
  change ((BitVec.ofInt 32 (rndToInt rm (fpVal x) 0 (2 ^ 32 - 1))).toNat : ℤ) = _
  rw [hval, BitVec.toNat_ofInt]
  omega
/-- An integer converts to the type's nearest value by its mode (08 R155). -/
theorem cvtLane_int (ty : FTy) (rm : RMode) (x : W32) : ty.RoundsTo rm x.toInt (cvtLane (FTy.vty ty) .i32 rm x) ∧
    ty.RoundsTo rm x.toNat (cvtLane (FTy.vty ty) .u32 rm x) := by
  have hs := ty.store_roundsTo rm (ofInt_is x.toInt)
  have hu := ty.store_roundsTo rm (ofInt_is x.toNat)
  rw [Int.cast_natCast] at hu
  cases ty <;> exact ⟨hs, hu⟩

end

/-! ### The words that are computed by themselves (08 R151, R155, R161) -/

section
variable {ty : FTy} {rm : RMode} {d : VDst} {p q : VSrc} {imm : W64} {j : ℕ} {t u : Tile}

theorem semVdiv_roundsTo (h : HasLane j [t, u]) (hx : LaneFin (t.getD j 0)) (hy : LaneFin (u.getD j 0)) (h0 : laneRat (u.getD j 0) ≠ 0) :
    ty.RoundsTo rm (laneRat (t.getD j 0) / laneRat (u.getD j 0)) ((((semVdiv (FTy.vty ty) rm d p q imm).run [t, u]).tile).getD j 0) :=
  (semVdiv_lane h).symm ▸ fdivLane_roundsTo hx hy h0
theorem semVrcp_roundsTo (h : HasLane j [t]) (hx : LaneFin (t.getD j 0)) (h0 : laneRat (t.getD j 0) ≠ 0) :
    ty.RoundsTo rm (1 / laneRat (t.getD j 0)) ((((semVrcp ty rm d p imm).run [t]).tile).getD j 0) :=
  (sfSem_lane h (fn := .rcp)).symm ▸ sfLane_rcp_roundsTo hx h0
theorem semVcvt_lane (dt st : VTy) (h : HasLane j [t]) : (((semVcvt dt st rm d p imm).run [t]).tile).getD j 0 = cvtLane dt st rm (t.getD j 0) :=
  rawSem_lane h
theorem semVcvt_int (ty : FTy) (rm : RMode) (h : HasLane j [t]) :
    ty.RoundsTo rm (t.getD j 0).toInt ((((semVcvt (FTy.vty ty) .i32 rm d p imm).run [t]).tile).getD j 0) ∧
      ty.RoundsTo rm (t.getD j 0).toNat ((((semVcvt (FTy.vty ty) .u32 rm d p imm).run [t]).tile).getD j 0) := by
  rw [semVcvt_lane _ _ h, semVcvt_lane _ _ h]
  exact cvtLane_int ty rm _
theorem semVcvt_clamps (rm : RMode) (h : HasLane j [t]) (hx : LaneFin (t.getD j 0)) :
    (∃ k, rm.RoundsInt (laneRat (t.getD j 0)) k ∧
      ((((semVcvt .i32 .f32 rm d p imm).run [t]).tile).getD j 0).toInt = max (-2 ^ 31) (min (2 ^ 31 - 1) k)) ∧
    ∃ k, rm.RoundsInt (laneRat (t.getD j 0)) k ∧
      (((((semVcvt .u32 .f32 rm d p imm).run [t]).tile).getD j 0).toNat : ℤ) = max 0 (min (2 ^ 32 - 1) k) := by
  rw [semVcvt_lane _ _ h, semVcvt_lane _ _ h]
  exact ⟨cvtLane_i32 hx, cvtLane_u32 hx⟩

end

/-- Settles O23: each word computes its value exactly on rationals, and a stored value is the exact one rounded once (`FTy.store_roundsTo`). -/
theorem vecFloatRounding : Obligations.VecFloatRounding := by
  unfold Obligations.VecFloatRounding
  intro ty rm d p o n imm a b c j ha hb hc hj
  have h1 : HasLane j [a] := hasLane_one (by omega)
  have h2 : HasLane j [a, b] := hasLane_two (by omega) (by omega)
  have h3 : HasLane j [a, b, c] := hasLane_three (by omega) (by omega) (by omega)
  refine ⟨fun (hx : LaneFin (a.getD j 0)) (hy : LaneFin (b.getD j 0)) => ?_,
    fun (hx : LaneFin (a.getD j 0)) (hy : LaneFin (b.getD j 0)) (hw : LaneFin (c.getD j 0)) => ?_,
    fun (hx : LaneFin (a.getD j 0)) => ?_, ?_⟩
  · have hfin : ∀ x ∈ lanesAt j [a, b], LaneFin x := List.forall_mem_cons.2 ⟨hx, List.forall_mem_singleton.2 hy⟩
    have vx := fpVal_is hx
    have vy := fpVal_is hy
    refine ⟨?_, ?_, ?_, ?_, ?_, fun h0 => ?_⟩
    · exact floatSem_roundsTo h2 hfin (fadd_is rm vx vy)
    · exact floatSem_roundsTo h2 hfin (fsub_is rm vx vy)
    · exact floatSem_roundsTo h2 hfin (fmul_is vx vy)
    · exact floatSem_roundsTo h2 hfin (fltz_min vx vy)
    · exact floatSem_roundsTo h2 hfin (fltz_max vx vy)
    · exact semVdiv_roundsTo h2 hx hy h0
  · have hfin : ∀ x ∈ lanesAt j [a, b, c], LaneFin x :=
      List.forall_mem_cons.2 ⟨hx, List.forall_mem_cons.2 ⟨hy, List.forall_mem_singleton.2 hw⟩⟩
    have vxy := fmul_is (fpVal_is hx) (fpVal_is hy)
    have vw := fpVal_is hw
    refine ⟨?_, ?_, ?_⟩
    · exact floatSem_roundsTo h3 hfin (fadd_is rm vxy vw)
    · exact floatSem_roundsTo h3 hfin (fsub_is rm vxy vw)
    · exact floatSem_roundsTo h3 hfin (fsub_is rm vw vxy)
  · have hfin : ∀ x ∈ lanesAt j [a], LaneFin x := List.forall_mem_singleton.2 hx
    have vx := fpVal_is hx
    refine ⟨?_, ?_, fun h0 => ?_, semVcvt_clamps rm h1 hx⟩
    · exact floatSem_roundsTo h1 hfin (fabs_is vx)
    · exact floatSem_roundsTo h1 hfin (fneg_is vx)
    · exact semVrcp_roundsTo h1 hx h0
  · exact semVcvt_int ty rm h1

end Sys2Proof.Machine
end

section
/-!
O24: infinities, NaNs, zeros and exact values in lanes (06 R109, R110, R114; 08 R147).
-/
namespace Sys2Proof

/-! ### Lanes by sign and magnitude (06 R108, R109) -/

/-- The lane is a NaN. -/
def LaneNaN (x : W32) : Prop := laneExp x = 255 ∧ x.extractLsb' 0 23 ≠ 0
/-- The lane is an infinity. -/
def LaneInf (x : W32) : Prop := laneExp x = 255 ∧ x.extractLsb' 0 23 = 0
/-- The lane is a zero of either sign. -/
def LaneZero (x : W32) : Prop := x.extractLsb' 0 31 = 0
/-- The sign of a lane. -/
def laneNeg (x : W32) : Bool := x.getLsbD 31

section
variable {x y : W32} {s : Bool} {c m : ℕ} {e : ℤ} {rm : RMode} {ty : FTy}

theorem extractLsb'_eq_zero_iff {n : ℕ} : x.extractLsb' 0 n = 0 ↔ x.toNat % 2 ^ n = 0 := by
  rw [← BitVec.toNat_inj, BitVec.extractLsb'_toNat, Nat.shiftRight_zero]
  simp
theorem laneNaN_iff : LaneNaN x ↔ fp32.maxCode + 1 < x.toNat % 2 ^ 31 := by
  have h : x.toNat < 2 ^ 32 := x.isLt
  rw [LaneNaN, laneExp_eq, Ne, extractLsb'_eq_zero_iff]
  change _ ↔ 0x7F800000 < _
  omega
theorem laneInf_iff : LaneInf x ↔ x.toNat % 2 ^ 31 = fp32.maxCode + 1 := by
  have h : x.toNat < 2 ^ 32 := x.isLt
  rw [LaneInf, laneExp_eq, extractLsb'_eq_zero_iff]
  change _ ↔ _ = 0x7F800000
  omega
theorem laneZero_iff : LaneZero x ↔ x.toNat % 2 ^ 31 = 0 := extractLsb'_eq_zero_iff
theorem LaneZero.fin (h : LaneZero x) : LaneFin x := laneFin_iff.2 (laneZero_iff.1 h ▸ Nat.zero_le _)
/-- A lane that is no NaN is finite or an infinity. -/
theorem laneFin_or_inf (h : ¬LaneNaN x) : LaneFin x ∨ LaneInf x := by
  rw [laneNaN_iff] at h
  rw [laneFin_iff, laneInf_iff]
  omega
theorem f32_lane_toNat (hc : c < 2 ^ 31) : (FTy.f32.lane s c).toNat = (if s then 2 ^ 31 else 0) + c := by
  rw [FTy.lane, BitVec.toNat_ofNat]
  change (if s then 2 ^ 31 + c else c) * 2 ^ 0 % 2 ^ 32 = _
  split <;> omega
/-- A sign bit and the 31 bits below it. -/
theorem f32_lane_eq_cons (s : Bool) (m : BitVec 31) : FTy.f32.lane s m.toNat = BitVec.cons s m := by
  refine BitVec.eq_of_toNat_eq ?_
  rw [f32_lane_toNat m.isLt, BitVec.toNat_cons']
  cases s <;> rfl
theorem f32_lane_magnitude (s : Bool) (x : W32) : FTy.f32.lane s (x.toNat % 2 ^ 31) = BitVec.cons s (x.setWidth 31) := by
  rw [← f32_lane_eq_cons, BitVec.toNat_setWidth]
theorem cons_laneNeg (x : W32) : BitVec.cons (laneNeg x) (x.setWidth 31) = x := by
  rw [laneNeg, ← BitVec.msb_eq_getLsbD_last]
  exact BitVec.cons_msb_setWidth x
theorem f32_lane_self (x : W32) : FTy.f32.lane (laneNeg x) (x.toNat % 2 ^ 31) = x := (f32_lane_magnitude _ x).trans (cons_laneNeg x)
theorem xor_signBit (x : W32) : x ^^^ 0x80000000 = FTy.f32.lane (!laneNeg x) (x.toNat % 2 ^ 31) := by
  rw [f32_lane_magnitude]
  nth_rw 1 [← cons_laneNeg x]
  rw [show (0x80000000 : W32) = BitVec.cons true 0 from rfl, BitVec.cons_xor_cons, Bool.xor_true]
  exact congrArg _ BitVec.xor_zero
theorem and_magnitude (x : W32) : x &&& 0x7FFFFFFF = FTy.f32.lane false (x.toNat % 2 ^ 31) := by
  rw [f32_lane_magnitude]
  nth_rw 1 [← cons_laneNeg x]
  rw [show (0x7FFFFFFF : W32) = BitVec.cons false (BitVec.allOnes 31) from rfl, BitVec.cons_and_cons, Bool.and_false]
  exact congrArg _ BitVec.and_allOnes
/-- The sign bit of an exclusive or, set in an infinity. -/
theorem inf_or_sign (x y : W32) : 0x7F800000 ||| ((x ^^^ y) &&& 0x80000000) = FTy.f32.lane (laneNeg x != laneNeg y) (fp32.maxCode + 1) := by
  rw [show (0x80000000 : W32) = BitVec.twoPow 32 31 from rfl, BitVec.and_twoPow, BitVec.getLsbD_xor]
  change (0x7F800000 : W32) ||| (if (laneNeg x ^^ laneNeg y) = true then _ else _) = _
  cases laneNeg x <;> cases laneNeg y <;> rfl
/-- A zero with the exponent of infinity is the infinity of its sign. -/
theorem LaneZero.or_inf (h : LaneZero x) : x ||| 0x7F800000 = FTy.f32.lane (laneNeg x) (fp32.maxCode + 1) := by
  have hx := f32_lane_self x
  rw [laneZero_iff.1 h] at hx
  generalize laneNeg x = s at hx ⊢
  subst hx
  cases s <;> rfl

theorem LaneFin.not_nan (h : LaneFin x) : ¬LaneNaN x := fun hn => h hn.1
theorem LaneInf.not_nan (h : LaneInf x) : ¬LaneNaN x := fun hn => hn.2 h.2
theorem LaneInf.eq_lane (h : LaneInf x) : x = FTy.f32.lane (laneNeg x) (fp32.maxCode + 1) := by
  rw [← laneInf_iff.1 h]
  exact (f32_lane_self x).symm
/-- Infinities that differ have opposite signs. -/
theorem laneInf_neg_ne (hx : LaneInf x) (hy : LaneInf y) (h : x ≠ y) : laneNeg y = !laneNeg x :=
  Bool.eq_not_of_ne fun he => h (by rw [hx.eq_lane, hy.eq_lane, he])

/-! ### The values of special lanes (06 R108, R109) -/

theorem fpVal_nan (h : LaneNaN x) : fpVal x = .nan x := by
  have hx := laneNaN_iff.1 h
  have hval : fp32.val x.toNat = .nan (widenNaN (decide (2 ^ 31 ≤ x.toNat)) 23 (x.toNat % 2 ^ 31 % 2 ^ 23)) := by
    unfold FFmt.val
    have h1 : fp32.maxCode < x.toNat % 2 ^ (fp32.width - 1) := (Nat.lt_succ_self _).trans hx
    have h2 : (x.toNat % 2 ^ (fp32.width - 1) == fp32.maxCode + 1) = false := beq_false_of_ne hx.ne'
    dsimp only
    rw [if_pos h1, h2, Bool.and_false, if_neg Bool.false_ne_true]
    rfl
  rw [fpVal, hval]
theorem fpVal_inf (h : LaneInf x) : fpVal x = .inf (laneNeg x) := by
  have hx := laneInf_iff.1 h
  have hval : fp32.val x.toNat = .inf (decide (2 ^ 31 ≤ x.toNat)) := by
    unfold FFmt.val
    have h1 : fp32.maxCode < x.toNat % 2 ^ (fp32.width - 1) := hx ▸ Nat.lt_succ_self _
    have h2 : (x.toNat % 2 ^ (fp32.width - 1) == fp32.maxCode + 1) = true := beq_of_eq hx
    dsimp only
    rw [if_pos h1, h2]
    rfl
  rw [fpVal, hval, laneNeg, laneSign_eq]
theorem fpVal_zero (h : LaneZero x) : fpVal x = .fin (laneNeg x) 0 fp32.qmin := by
  rw [fpVal_of_fin h.fin, laneZero_iff.1 h]
  rfl
theorem isNaN_fpVal (h : ¬LaneNaN x) : (fpVal x).isNaN = false := by
  rcases laneFin_or_inf h with h | h
  · exact (fpVal_is h).not_nan
  · rw [fpVal_inf h]
    rfl
/-- A finite lane's significand and exponent have the value of its magnitude code. -/
theorem fpVal_fin (h : LaneFin x) :
    ∃ m e, fpVal x = .fin (laneNeg x) m e ∧ (m : ℚ) * 2 ^ e = fp32.codeVal (x.toNat % 2 ^ 31) := by
  have his := fpVal_is h
  rw [fpVal_of_fin h, laneRat_eq] at his
  exact ⟨_, _, fpVal_of_fin h, mul_left_cancel₀ (signRat_ne_zero _) ((mul_assoc _ _ _).symm.trans his)⟩
theorem fpVal_of_ne_zero (h : LaneFin x) (h0 : ¬LaneZero x) : ∃ m e, fpVal x = .fin (laneNeg x) m e ∧ m ≠ 0 := by
  obtain ⟨m, e, hfp, hval⟩ := fpVal_fin h
  refine ⟨m, e, hfp, fun hm => h0 (laneZero_iff.2 (fp32.codeVal_strictMono.injective ?_))⟩
  rw [← hval, hm, FFmt.codeVal_zero, Nat.cast_zero, zero_mul]

/-! ### Values that a format holds are stored as they are (06 R110) -/

theorem FFmt.RoundsMag.exact {f : FFmt} {mode : MagMode} {b : ℕ} (h : f.RoundsMag mode (f.codeVal b) c) : c = b := by
  have hmono := f.codeVal_strictMono
  cases mode with
  | near =>
    obtain ⟨hle, -⟩ := h b
    rw [sub_self, abs_zero] at hle
    exact hmono.injective (sub_eq_zero.1 (abs_nonpos_iff.1 hle))
  | down =>
    obtain ⟨hle, hmax⟩ := h
    exact le_antisymm (hmono.le_iff_le.1 hle) (hmax b le_rfl)
  | up =>
    obtain ⟨hge, hmin⟩ := h
    exact le_antisymm (hmin b le_rfl) (hmono.le_iff_le.1 hge)
/-- A value of a code rounds to that code under its sign, by every mode. -/
theorem FTy.rnd_exact (ty : FTy) (rm : RMode) (s : Bool) (hval : (m : ℚ) * 2 ^ e = ty.fmt.codeVal c) (hc : c ≤ ty.fmt.maxCode) :
    ty.fmt.rnd rm (.fin s m e) = ty.fmt.signed s c := by
  rcases Nat.eq_zero_or_pos m with rfl | hm
  · rw [Nat.cast_zero, zero_mul, ← ty.fmt.codeVal_zero] at hval
    rw [← ty.fmt.codeVal_strictMono.injective hval]
    rfl
  · obtain ⟨hd, hfrac, hpos⟩ := magFrac_spec m e
    have hmag := FFmt.roundMag_rounds (rm.mag s) ty.two_le_p (hpos hm) hd
    rw [hfrac, hval] at hmag
    rw [ty.rnd_fin rm s e hm, ty.rndRat_eq, hmag.exact, FFmt.capped, if_pos hc]
theorem store_f32_exact (rm : RMode) (s : Bool) (hval : (m : ℚ) * 2 ^ e = fp32.codeVal c) (hc : c ≤ fp32.maxCode) :
    FTy.f32.store rm (.fin s m e) = FTy.f32.lane s c := by
  rw [FTy.store_fin, FTy.put_eq, FTy.f32.rnd_exact rm s hval hc, FTy.lane]
theorem store_f32_inf (rm : RMode) (s : Bool) : FTy.f32.store rm (.inf s) = FTy.f32.lane s (fp32.maxCode + 1) := by
  cases s <;> rfl
theorem store_f32_zero (rm : RMode) (s : Bool) (e : ℤ) : FTy.f32.store rm (.fin s 0 e) = FTy.f32.lane s 0 :=
  store_f32_exact rm s (by rw [FFmt.codeVal_zero, Nat.cast_zero, zero_mul]) (Nat.zero_le _)

end
end Sys2Proof
end

section
/-!
O24: special operands of the floating words of VEC (06 R114; 08 R151, R154).
-/
namespace Sys2Proof

section
variable {l r : List FVal} {v : FVal} {b : W32} {x y : FVal}

/-- The first NaN operand comes out (06 R114). -/
theorem firstNaN_append (h : ∀ u ∈ l, u.isNaN = false) : firstNaN (l ++ .nan b :: r) v = .nan b := by
  induction l with
  | nil => rfl
  | cons u l ih =>
    have hl := ih fun u hu => h u (List.mem_cons_of_mem _ hu)
    cases u with
    | nan b => exact absurd (h _ List.mem_cons_self).symm Bool.false_ne_true
    | inf _ | fin _ _ _ => exact hl
/-- A value less itself is an exact zero, negative under RDN alone (06 R110). -/
theorem fadd_neg_self (rm : RMode) (s : Bool) {m : ℕ} (e : ℤ) (hm : m ≠ 0) :
    fadd rm (.fin s m e) (fneg (.fin s m e)) = .fin (decide (rm = .rdn)) 0 e := by
  have hsum : scaled s m e e + scaled (!s) m e e = 0 := by cases s <;> simp [scaled]
  unfold fadd fneg
  dsimp only
  rw [if_neg fun h => hm h.1, min_self, hsum]
  rfl
theorem flt_nan (h : x.isNaN = true ∨ y.isNaN = true) : flt x y = false := by
  rcases h with h | h
  · cases x with
    | nan b => rfl
    | inf _ | fin _ _ _ => exact absurd h Bool.false_ne_true
  · cases y with
    | nan b => cases x <;> rfl
    | inf _ | fin _ _ _ => exact absurd h Bool.false_ne_true
theorem feq_nan (h : x.isNaN = true ∨ y.isNaN = true) : feq x y = false := by
  unfold feq
  rcases h with h | h <;> simp [h]

end
end Sys2Proof
namespace Sys2Proof.Machine

/-! ### NaN operands (06 R114) -/

section
variable {j : ℕ} {ts : List Tile} {a b c : Tile} {rm : RMode} {d : VDst} {srcs : List VSrc} {imm : W64} {cls : VClass}
  {g : List FVal → FVal} {l r : List W32} {x y : W32} {p q : VSrc}

/-- Of some lanes the first NaN comes out. -/
theorem firstNaN_lanes {xs : List W32} {v : FVal} (h : xs = l ++ x :: r) (hl : ∀ u ∈ l, ¬LaneNaN u) (hx : LaneNaN x) :
    firstNaN (xs.map fpVal) v = .nan x := by
  rw [h, List.map_append, List.map_cons, fpVal_nan hx]
  exact firstNaN_append fun w hw => by
    obtain ⟨u, hu, rfl⟩ := List.mem_map.1 hw
    exact isNaN_fpVal (hl u hu)
theorem floatSem_nan (h : HasLane j ts) (hts : lanesAt j ts = l ++ x :: r) (hl : ∀ u ∈ l, ¬LaneNaN u) (hx : LaneNaN x) :
    (((floatSem .f32 rm d srcs imm cls g).run ts).tile).getD j 0 = x := by
  rw [floatSem_lane h, firstNaN_lanes hts hl hx]
  rfl
theorem fdivLane_nan {z : W32} (h : [x, y] = l ++ z :: r) (hl : ∀ u ∈ l, ¬LaneNaN u) (hz : LaneNaN z) : fdivLane .f32 rm x y = z := by
  have hfirst : firstNaN [fpVal x, fpVal y] (.fin false 0 0) = .nan z := firstNaN_lanes h hl hz
  unfold fdivLane
  rw [hfirst]
  rfl
/-- The two-operand floating words of R151 all leave z in lane j. -/
def PairsAt (j : ℕ) (rm : RMode) (d : VDst) (p q : VSrc) (imm : W64) (a b : Tile) (z : W32) : Prop :=
  let lane (i : Instr) : W32 := (resultTile i [a, b]).getD j 0
  lane (.vadd .f32 rm d p q imm) = z ∧ lane (.vsub .f32 rm d p q imm) = z ∧ lane (.vmul .f32 rm d p q imm) = z ∧
    lane (.vdiv .f32 rm d p q imm) = z ∧ lane (.vmin .f32 rm d p q imm) = z ∧ lane (.vmax .f32 rm d p q imm) = z
theorem pairsAt_nan (h : HasLane j [a, b]) (hts : [a.getD j 0, b.getD j 0] = l ++ x :: r) (hl : ∀ u ∈ l, ¬LaneNaN u) (hx : LaneNaN x) :
    PairsAt j rm d p q imm a b x :=
  ⟨floatSem_nan h hts hl hx, floatSem_nan h hts hl hx, floatSem_nan h hts hl hx, (semVdiv_lane (ty := .f32) h).trans (fdivLane_nan hts hl hx),
    floatSem_nan h hts hl hx, floatSem_nan h hts hl hx⟩

end

/-! ### Operands that are infinities, zeros and equal (08 R151) -/

section
variable {j : ℕ} {ts : List Tile} {a b : Tile} {rm : RMode} {d : VDst} {srcs : List VSrc} {imm : W64} {cls : VClass}
  {g : List FVal → FVal} {x y : W32} {p q : VSrc}

/-- A floating word of operands that are no NaN stores what it computes. -/
theorem floatSem_store (h : HasLane j ts) (hn : ∀ u ∈ lanesAt j ts, ¬LaneNaN u) :
    (((floatSem .f32 rm d srcs imm cls g).run ts).tile).getD j 0 = FTy.f32.store rm (g ((lanesAt j ts).map fpVal)) := by
  rw [floatSem_lane h, firstNaN_eq fun v hv => ?_]
  obtain ⟨u, hu, rfl⟩ := List.mem_map.1 hv
  exact isNaN_fpVal (hn u hu)
/-- The lane of a quotient, a NaN's own bits kept (08 R147, R151). -/
def quotLane (rm : RMode) (v : SRes) : W32 :=
  match v with
  | .exact (.nan b) => b
  | v => BitVec.ofNat 32 (v.rnd fp32 rm)
theorem fdivLane_store (hx : ¬LaneNaN x) (hy : ¬LaneNaN y) : fdivLane .f32 rm x y = quotLane rm (fdiv (fpVal x) (fpVal y)) := by
  unfold fdivLane
  dsimp only
  rw [firstNaN_two (isNaN_fpVal hx) (isNaN_fpVal hy), if_neg (by decide)]
  generalize fdiv (fpVal x) (fpVal y) = v
  rcases v with (_ | _ | _) | _ <;> rfl
/-- VNEG flips the sign bit and VABS clears it. -/
theorem store_neg_abs (rm : RMode) (h : ¬LaneNaN x) :
    FTy.f32.store rm (fneg (fpVal x)) = x ^^^ 0x80000000 ∧ FTy.f32.store rm (fabs (fpVal x)) = x &&& 0x7FFFFFFF := by
  rw [xor_signBit, and_magnitude]
  rcases laneFin_or_inf h with hf | hi
  · obtain ⟨m, e, hfp, hval⟩ := fpVal_fin hf
    have hc := laneFin_iff.1 hf
    rw [hfp]
    exact ⟨store_f32_exact rm _ hval hc, store_f32_exact rm _ hval hc⟩
  · rw [fpVal_inf hi, laneInf_iff.1 hi]
    exact ⟨store_f32_inf rm _, store_f32_inf rm false⟩
theorem fdivLane_inf_inf (hx : LaneInf x) (hy : LaneInf y) : fdivLane .f32 rm x y = canonNaN := by
  rw [fdivLane_store hx.not_nan hy.not_nan, fpVal_inf hx, fpVal_inf hy]
  rfl
theorem fdivLane_zero_zero (hx : LaneZero x) (hy : LaneZero y) : fdivLane .f32 rm x y = canonNaN := by
  rw [fdivLane_store hx.fin.not_nan hy.fin.not_nan, fpVal_zero hx, fpVal_zero hy]
  rfl
/-- A finite value over a zero is an infinity of the quotient's sign. -/
theorem fdivLane_by_zero (hx : LaneFin x) (h0 : ¬LaneZero x) (hy : LaneZero y) :
    fdivLane .f32 rm x y = 0x7F800000 ||| ((x ^^^ y) &&& 0x80000000) := by
  obtain ⟨m, e, hval, hm⟩ := fpVal_of_ne_zero hx h0
  have hdiv : fdiv (fpVal x) (fpVal y) = .exact (.inf (laneNeg x != laneNeg y)) := by
    rw [hval, fpVal_zero hy]
    unfold fdiv
    dsimp only
    rw [if_pos rfl, if_neg hm]
  rw [fdivLane_store hx.not_nan hy.fin.not_nan, hdiv, inf_or_sign]
  exact store_f32_inf rm _
/-- Infinities that cancel have no sum. -/
theorem fadd_inf_cancel (rm : RMode) (s : Bool) : fadd rm (.inf s) (.inf !s) = .nan canonNaN := by cases s <;> rfl
theorem fmul_inf_zero (hx : LaneInf x) (hy : LaneZero y) : fmul (fpVal x) (fpVal y) = .nan canonNaN := by
  rw [fpVal_inf hx, fpVal_zero hy]
  rfl
theorem fmul_zero_inf (hx : LaneZero x) (hy : LaneInf y) : fmul (fpVal x) (fpVal y) = .nan canonNaN := by
  rw [fpVal_zero hx, fpVal_inf hy]
  rfl
theorem store_sub_self (rm : RMode) (hx : LaneFin x) (h0 : ¬LaneZero x) :
    FTy.f32.store rm (fadd rm (fpVal x) (fneg (fpVal x))) = if rm = .rdn then 0x80000000 else 0 := by
  obtain ⟨m, e, hval, hm⟩ := fpVal_of_ne_zero hx h0
  rw [hval, fadd_neg_self rm _ e hm, store_f32_zero]
  cases rm <;> rfl

end
end Sys2Proof.Machine
end

section
/-!
O24: integer division and comparison of lanes (08 R152, R154), clamping and the generator (08 R154, R163).
-/
namespace Sys2Proof.Machine

/-! ### Quotients and remainders (08 R152) -/

section
variable {x y : W32} {ty : ITy}

theorem ITy.read_eq_zero : ITy.read ty y = 0 ↔ y = 0 := by
  cases ty with
  | i32 => exact ⟨fun h => BitVec.eq_of_toInt_eq h, fun h => h ▸ rfl⟩
  | u32 => exact ⟨fun h => BitVec.eq_of_toNat_eq (Int.natCast_eq_zero.1 h), fun h => h ▸ rfl⟩
theorem laneDiv_zero (ty : ITy) (x : W32) (hy : y = 0) : laneDiv ty false x y = 0xFFFFFFFF ∧ laneDiv ty true x y = x := by
  subst hy
  cases ty <;> exact ⟨rfl, rfl⟩
theorem laneDiv_i32 (h : y ≠ 0) : laneDiv .i32 false x y = x.sdiv y ∧ laneDiv .i32 true x y = x.srem y := by
  have h0 : ¬ITy.read .i32 y = 0 := mt ITy.read_eq_zero.1 h
  refine ⟨(if_neg h0).trans ?_, (if_neg h0).trans ?_⟩
  · exact BitVec.eq_of_toInt_eq ((BitVec.toInt_ofInt ..).trans (BitVec.toInt_sdiv ..).symm)
  · exact (congrArg (BitVec.ofInt 32) (BitVec.toInt_srem ..).symm).trans BitVec.ofInt_toInt
theorem ofInt_toNat (x : W32) : BitVec.ofInt 32 x.toNat = x := by
  rw [BitVec.ofInt_natCast, BitVec.ofNat_toNat, BitVec.setWidth_eq]
theorem laneDiv_u32 (h : y ≠ 0) : laneDiv .u32 false x y = x / y ∧ laneDiv .u32 true x y = x % y := by
  have h0 : ¬ITy.read .u32 y = 0 := mt ITy.read_eq_zero.1 h
  have hq : (x.toNat : ℤ).tdiv y.toNat = (x / y).toNat := by
    rw [BitVec.toNat_udiv]
    rfl
  have hr : (x.toNat : ℤ).tmod y.toNat = (x % y).toNat := by
    rw [BitVec.toNat_umod]
    rfl
  exact ⟨(if_neg h0).trans ((congrArg (BitVec.ofInt 32) hq).trans (ofInt_toNat _)),
    (if_neg h0).trans ((congrArg (BitVec.ofInt 32) hr).trans (ofInt_toNat _))⟩
/-- Unsigned quotient and remainder. -/
theorem laneDiv_u32_spec (h : y ≠ 0) : (laneDiv .u32 false x y).toNat * y.toNat + (laneDiv .u32 true x y).toNat = x.toNat ∧
    (laneDiv .u32 true x y).toNat < y.toNat := by
  obtain ⟨hq, hr⟩ := laneDiv_u32 (x := x) h
  rw [hq, hr, BitVec.toNat_udiv, BitVec.toNat_umod]
  exact ⟨Nat.div_add_mod' _ _, Nat.mod_lt _ (Nat.pos_of_ne_zero fun h0 => h (BitVec.eq_of_toNat_eq h0))⟩
/-- The one signed quotient that a lane does not hold wraps to the dividend, with nothing left over. -/
theorem laneDiv_overflow : laneDiv .i32 false 0x80000000 0xFFFFFFFF = 0x80000000 ∧ laneDiv .i32 true 0x80000000 0xFFFFFFFF = 0 := by
  decide
/-- Every other signed quotient rounds toward zero, and the remainder has the sign of the dividend. -/
theorem laneDiv_i32_spec (h : y ≠ 0) (ho : ¬(x = 0x80000000 ∧ y = 0xFFFFFFFF)) :
    (laneDiv .i32 false x y).toInt * y.toInt + (laneDiv .i32 true x y).toInt = x.toInt ∧
      (laneDiv .i32 true x y).toInt.natAbs < y.toInt.natAbs ∧
      (laneDiv .i32 true x y = 0 ∨ ((laneDiv .i32 true x y).toInt < 0 ↔ x.toInt < 0)) := by
  obtain ⟨hq, hr⟩ := laneDiv_i32 (x := x) h
  have hy : y.toInt ≠ 0 := fun h0 => h (BitVec.eq_of_toInt_eq h0)
  rw [hq, hr, BitVec.toInt_sdiv_of_ne_or_ne _ _ (not_and_or.1 ho), BitVec.toInt_srem]
  refine ⟨Int.tdiv_mul_add_tmod _ _, ?_, ?_⟩
  · rw [Int.natAbs_tmod]
    exact Nat.mod_lt _ (Int.natAbs_pos.2 hy)
  · by_cases h0 : x.toInt.tmod y.toInt = 0
    · exact .inl (BitVec.eq_of_toInt_eq ((BitVec.toInt_srem ..).trans h0))
    · have hs := Int.sign_tmod x.toInt y.toInt
      rw [if_neg fun hd => h0 (Int.tmod_eq_zero_of_dvd hd)] at hs
      exact .inr (by rw [← Int.sign_eq_neg_one_iff_neg, hs, Int.sign_eq_neg_one_iff_neg])

end

/-! ### Comparisons (08 R154) -/

section
variable {j : ℕ} {a b : Tile} {d : VDst} {p q : VSrc} {imm : W64} {x y : W32} {cc : VCond} {ty : NTy}

theorem semVcmp_lane {P : Prop} [Decidable P] (h : HasLane j [a, b]) (hP : vcmpHolds cc ty (a.getD j 0) (b.getD j 0) = true ↔ P) :
    (((semVcmp cc ty d p q imm).run [a, b]).tile).getD j 0 = if P then 0xFFFFFFFF else 0 := by
  refine (rawSem_lane h).trans ?_
  change (if vcmpHolds cc ty (a.getD j 0) (b.getD j 0) = true then BitVec.allOnes 32 else 0) = _
  rw [if_congr hP rfl rfl]
  rfl
/-- A comparison with a NaN holds for NE and UN alone. -/
theorem vcmpHolds_nan (h : LaneNaN x ∨ LaneNaN y) (cc : VCond) : vcmpHolds cc .f32 x y = (cc == .ne || cc == .un) := by
  have hn : (laneNaN x || laneNaN y) = true := by
    rw [Bool.or_eq_true]
    exact h.imp (fun h => by rw [laneNaN, fpVal_nan h]; rfl) (fun h => by rw [laneNaN, fpVal_nan h]; rfl)
  have hn' : (fpVal x).isNaN = true ∨ (fpVal y).isNaN = true := (Bool.or_eq_true _ _).mp hn
  unfold vcmpHolds
  dsimp only
  rw [hn, flt_nan hn', flt_nan hn'.symm, feq_nan hn']
  cases cc <;> rfl
theorem flt_zero (hx : LaneZero x) (hy : LaneZero y) : flt (fpVal x) (fpVal y) = false := by
  rw [fpVal_zero hx, fpVal_zero hy]
  cases laneNeg x <;> cases laneNeg y <;> rfl
/-- Zeros of either sign are equal. -/
theorem vcmpHolds_zero (hx : LaneZero x) (hy : LaneZero y) (cc : VCond) :
    vcmpHolds cc .f32 x y = (cc == .eq || cc == .le || cc == .ge) := by
  unfold vcmpHolds feq laneNaN
  dsimp only
  rw [flt_zero hx hy, flt_zero hy hx, isNaN_fpVal hx.fin.not_nan, isNaN_fpVal hy.fin.not_nan]
  cases cc <;> rfl

end
end Sys2Proof.Machine
end

section
/-!
O24: sums, scans and extremes along a row (08 R156 to R160).
-/
namespace Sys2Proof.Machine

/-! ### Chunks laid one after another -/

section
variable {α : Type} {m x g : ℕ} {d : α}

/-- An element of one of several chunks of one length, found in all of them together. -/
theorem flatten_getD (hx : x < m) (L : List (List α)) (hL : ∀ r ∈ L, r.length = m) (hg : g < L.length) :
    L.flatten.getD (m * g + x) d = (L.getD g []).getD x d := by
  have hslice := congrArg (fun l : List α => l[0]?) (flatten_slice (n := 1) hx L g hL hg)
  simpa [List.getElem?_take, List.getD_eq_getElem?_getD] using congrArg (fun o : Option α => o.getD d) hslice
theorem flatMap_getD {β : Type} (hx : x < m) (l : List β) (f : β → List α) (hf : ∀ b ∈ l, (f b).length = m) (hg : g < l.length) :
    (l.flatMap f).getD (m * g + x) d = (f (l[g])).getD x d := by
  rw [List.flatMap_def, flatten_getD hx _ (by simpa using hf) (by simpa using hg)]
  congr 1
  rw [List.getD_eq_getElem _ _ (by simpa using hg), List.getElem_map]

end

/-! ### Rows of a tile (08 R156) -/

/-- The lanes of a row. -/
def rowOf (t : Tile) (row : ℕ) : List W32 := (t.drop (64 * row)).take 64

section
variable {t : Tile} {row col k : ℕ} {d : VDst} {p : VSrc} {imm : W64}

theorem rowOf_length (ht : t.length = 1024) (hr : row < 16) : (rowOf t row).length = 64 := by
  rw [rowOf, List.length_take, List.length_drop]
  omega
theorem rowOf_getD (hk : k < 64) : (rowOf t row).getD k 0 = t.getD (64 * row + k) 0 := by
  simp [rowOf, List.getD_eq_getElem?_getD, hk]
theorem rowOf_eq_map (ht : t.length = 1024) (hr : row < 16) : rowOf t row = (List.range 64).map fun k => t.getD (64 * row + k) 0 := by
  refine List.ext_getElem (by rw [rowOf_length ht hr]; simp) fun k hk _ => ?_
  rw [rowOf_length ht hr] at hk
  rw [List.getElem_map, List.getElem_range, ← rowOf_getD hk, List.getD_eq_getElem]
/-- A row word works on each row by itself. -/
theorem axisMap_row {f : List W32 → List W32} (hf : ∀ g, g.length = 64 → (f g).length = 64) (ht : t.length = 1024) (hr : row < 16)
    (hc : col < 64) : (axisMap .row f t).getD (64 * row + col) 0 = (f (rowOf t row)).getD col 0 := by
  have h := flatMap_getD (d := (0 : W32)) hc (List.range 16) (fun i => f (rowOf t i))
    (fun i hi => hf _ (rowOf_length ht (List.mem_range.1 hi))) (g := row) (by simpa using hr)
  rw [List.getElem_range] at h
  exact h
theorem axisSem_row {f : List W32 → List W32} (hf : ∀ g, g.length = 64 → (f g).length = 64) (ht : t.length = 1024) (hr : row < 16)
    (hc : col < 64) : (((axisSem .row d p imm f).run [t]).tile).getD (64 * row + col) 0 = (f (rowOf t row)).getD col 0 :=
  axisMap_row hf ht hr hc

/-! ### Exact sums and scans (08 R158, R159) -/

theorem foldl_read (ty : ITy) (l : List W32) (z : ℤ) : l.foldl (fun s x => s + ITy.read ty x) z = z + (l.map (ITy.read ty)).sum := by
  induction l generalizing z with
  | nil => simp
  | cons x l ih => rw [List.foldl_cons, ih, List.map_cons, List.sum_cons, add_assoc]
theorem scanI_length (ty : ITy) (sat excl : Bool) (l : List W32) (z : ℤ) : (scanI ty sat excl z l).length = l.length := by
  induction l generalizing z with
  | nil => rfl
  | cons x l ih => exact congrArg Nat.succ (ih _)
/-- A lane of a scan holds the sum of the lanes up to it, itself included or not. -/
theorem scanI_getD (ty : ITy) (sat excl : Bool) (l : List W32) (z : ℤ) (hk : k < l.length) : (scanI ty sat excl z l).getD k 0 =
    ITy.store ty sat (z + ((l.take (if excl then k else k + 1)).map (ITy.read ty)).sum) := by
  induction l generalizing z k with
  | nil => exact absurd hk (Nat.not_lt_zero _)
  | cons x l ih =>
    cases k with
    | zero => cases excl <;> simp [scanI]
    | succ k =>
      have := ih (z + ITy.read ty x) (Nat.lt_of_succ_lt_succ hk)
      rw [add_assoc] at this
      cases excl <;> exact this
theorem ofInt_sum_toNat (l : List ℕ) (f : ℕ → W32) :
    BitVec.ofInt 32 (l.map fun k => ((f k).toNat : ℤ)).sum = BitVec.ofNat 32 (l.map fun k => (f k).toNat).sum := by
  rw [← BitVec.ofInt_natCast, Nat.cast_list_sum, List.map_map]
  rfl
theorem rowOf_take (ht : t.length = 1024) (hr : row < 16) {n : ℕ} (hn : n ≤ 64) :
    (rowOf t row).take n = (List.range n).map fun k => t.getD (64 * row + k) 0 := by
  rw [rowOf_eq_map ht hr, ← List.map_take, List.take_range, Nat.min_eq_left hn]

/-! ### The best of a row (08 R160) -/

/-- Lane b.1 of l is b.2, the first of those whose key is greatest among the first n. -/
def BestOf (key : W32 → ℤ) (l : List W32) (n : ℕ) (b : ℕ × W32) : Prop :=
  b.1 < n ∧ l.getD b.1 0 = b.2 ∧ ∀ m < n, key (l.getD m 0) ≤ key b.2 ∧ (m < b.1 → key (l.getD m 0) < key b.2)

variable {key : W32 → ℤ} {mx : Bool} {ty : NTy}

theorem BestOf.next {l : List W32} {n : ℕ} {b : ℕ × W32} (h : BestOf key l n b) :
    BestOf key l (n + 1) (if key b.2 < key (l.getD n 0) then (n, l.getD n 0) else b) := by
  obtain ⟨hlt, hval, hbest⟩ := h
  split
  case isTrue hb =>
    refine ⟨Nat.lt_succ_self n, rfl, fun m hm => ?_⟩
    rcases Nat.lt_succ_iff_lt_or_eq.1 hm with hm | rfl
    · have := (hbest m hm).1.trans_lt hb
      exact ⟨this.le, fun _ => this⟩
    · exact ⟨le_rfl, fun h => absurd h (lt_irrefl _)⟩
  case isFalse hb =>
    refine ⟨hlt.trans (Nat.lt_succ_self n), hval, fun m hm => ?_⟩
    rcases Nat.lt_succ_iff_lt_or_eq.1 hm with hm | rfl
    · exact hbest m hm
    · exact ⟨not_lt.1 hb, fun h => absurd h (by omega)⟩
/-- The walk finds the first best lane. -/
theorem bestFrom_best (hkey : ∀ x y, beats mx ty x y = true ↔ key y < key x) (g : List W32) {l : List W32} {n : ℕ} {b : ℕ × W32}
    (hg : l.drop n = g) (hn : n + g.length = l.length) (h : BestOf key l n b) : BestOf key l l.length (bestFrom mx ty n b g) := by
  induction g generalizing n b with
  | nil =>
    obtain rfl : n = l.length := hn
    exact h
  | cons x g ih =>
    have hx : l.getD n 0 = x := by
      have := congrArg (fun l : List W32 => l.getD 0 0) hg
      simpa [List.getD_eq_getElem?_getD] using this
    have hdrop : l.drop (n + 1) = g := by rw [← List.tail_drop, hg, List.tail_cons]
    have hnext := h.next
    rw [hx, ← if_congr (hkey x b.2) rfl rfl] at hnext
    exact ih hdrop (by rw [List.length_cons] at hn; omega) hnext
theorem bestOf_best (hkey : ∀ x y, beats mx ty x y = true ↔ key y < key x) {l : List W32} (hl : 0 < l.length) :
    BestOf key l l.length (bestOf mx ty l) := by
  cases l with
  | nil => exact absurd hl (lt_irrefl _)
  | cons x l =>
    refine bestFrom_best hkey l (n := 1) rfl (by rw [List.length_cons, add_comm]) ⟨one_pos, rfl, fun m hm => ?_⟩
    obtain rfl : m = 0 := Nat.lt_one_iff.1 hm
    exact ⟨le_rfl, fun h => absurd h (lt_irrefl _)⟩
theorem beats_max_i32 (x y : W32) : beats true .i32 x y = true ↔ y.toInt < x.toInt := BitVec.slt_iff_toInt_lt
theorem beats_min_u32 (x y : W32) : beats false .u32 x y = true ↔ -(y.toNat : ℤ) < -(x.toNat : ℤ) := by
  rw [neg_lt_neg_iff, Nat.cast_lt]
  exact BitVec.ult_iff_lt
/-- The best of a row of a tile, and where it stands. -/
theorem row_best (hkey : ∀ x y, beats mx ty x y = true ↔ key y < key x) (ht : t.length = 1024) (hr : row < 16) :
    ∃ k < 64, (bestOf mx ty (rowOf t row)).1 = k ∧ (bestOf mx ty (rowOf t row)).2 = t.getD (64 * row + k) 0 ∧
      ∀ m < 64, key (t.getD (64 * row + m) 0) ≤ key (t.getD (64 * row + k) 0) ∧
        (m < k → t.getD (64 * row + m) 0 ≠ t.getD (64 * row + k) 0) := by
  have hlen := rowOf_length ht hr
  obtain ⟨hlt, hval, hbest⟩ := bestOf_best hkey (l := rowOf t row) (by omega)
  rw [hlen] at hlt hbest
  rw [rowOf_getD hlt] at hval
  refine ⟨_, hlt, rfl, hval.symm, fun m hm => ?_⟩
  obtain ⟨hle, hfirst⟩ := hbest m hm
  rw [rowOf_getD hm, ← hval] at hle hfirst
  exact ⟨hle, fun hk he => (hfirst hk).ne (congrArg key he)⟩
theorem replicate_row {v : W32} (ht : t.length = 1024) (hr : row < 16) (hc : col < 64) :
    (List.replicate (rowOf t row).length v).getD col 0 = v := by
  rw [rowOf_length ht hr, List.getD_replicate _ hc]
theorem bestSem_lane (ht : t.length = 1024) (hr : row < 16) (hc : col < 64) :
    (((bestSem mx ty .row d p imm).run [t]).tile).getD (64 * row + col) 0 = (bestOf mx ty (rowOf t row)).2 :=
  (axisSem_row (fun g hg => by rw [List.length_replicate, hg]) ht hr hc).trans (replicate_row ht hr hc)
/-- The extremes with their index leave the lane and the position it stood at. -/
theorem bestIdxSem_lane (ht : t.length = 1024) (hr : row < 16) (hc : col < 64) :
    (((bestIdxSem mx ty .row d p imm).run [t]).tile).getD (64 * row + col) 0 = (bestOf mx ty (rowOf t row)).2 ∧
      ((bestIdxSem mx ty .row d p imm).run [t]).index.map (fun u => u.getD (64 * row + col) 0) =
        some (BitVec.ofNat 32 (bestOf mx ty (rowOf t row)).1) :=
  ⟨bestSem_lane (d := d) (p := p) (imm := imm) ht hr hc,
    congrArg some ((axisMap_row (fun g hg => by rw [List.length_replicate, hg]) ht hr hc).trans (replicate_row ht hr hc))⟩
theorem semVrsum_lane {rm : RMode} {sat : Bool} (hty : ty ≠ .f32) (ht : t.length = 1024) (hr : row < 16) (hc : col < 64) :
    (((semVrsum ty rm sat .row d p imm).run [t]).tile).getD (64 * row + col) 0 =
      ITy.store (NTy.int ty) sat ((List.range 64).map fun k => ITy.read (NTy.int ty) (t.getD (64 * row + k) 0)).sum := by
  have hsem : semVrsum ty rm sat .row d p imm = axisSem .row d p imm fun g =>
      List.replicate g.length (ITy.store (NTy.int ty) sat (g.foldl (fun t x => t + ITy.read (NTy.int ty) x) 0)) := by
    cases ty with
    | f32 => exact absurd rfl hty
    | i32 | u32 => rfl
  rw [hsem, axisSem_row (fun g hg => by rw [List.length_replicate, hg]) ht hr hc, replicate_row ht hr hc, foldl_read, zero_add,
    rowOf_eq_map ht hr, List.map_map]
  rfl
theorem scanSem_lane {rm : RMode} {sat excl : Bool} (hty : ty ≠ .f32) (ht : t.length = 1024) (hr : row < 16) (hc : col < 64) :
    (((scanSem excl ty rm sat .row d p imm).run [t]).tile).getD (64 * row + col) 0 = ITy.store (NTy.int ty) sat
      ((List.range (if excl then col else col + 1)).map fun k => ITy.read (NTy.int ty) (t.getD (64 * row + k) 0)).sum := by
  have hsem : scanSem excl ty rm sat .row d p imm = axisSem .row d p imm (scanI (NTy.int ty) sat excl 0) := by
    cases ty with
    | f32 => exact absurd rfl hty
    | i32 | u32 => rfl
  rw [hsem, axisSem_row (fun g hg => by rw [scanI_length, hg]) ht hr hc, scanI_getD _ _ _ _ _ (by rwa [rowOf_length ht hr]), zero_add,
    rowOf_take ht hr (by split <;> omega), List.map_map]
  rfl

end
end Sys2Proof.Machine
end

section
/-!
O24: BF16 halves and blocks in tiles (06 R116; 08 R164 to R167).
-/
namespace Sys2Proof.Machine

/-! ### BF16 halves (08 R167) -/

section
variable {t a b : Tile} {row col k : ℕ} {d : VDst} {p q : VSrc} {imm : W64} {rm : RMode} {x y : W32}

theorem low_half (x : W32) : x <<< 16 = x.extractLsb' 0 16 ++ (0 : BitVec 16) := BitVec.eq_of_getLsbD_eq fun i hi => by
  rw [BitVec.getLsbD_append, BitVec.getLsbD_shiftLeft, BitVec.getLsbD_extractLsb']
  split
  case isTrue h => simp [h]
  case isFalse h => simp [h, hi, show i - 16 < 16 by omega]
theorem high_half (x : W32) : x &&& 0xFFFF0000 = x.extractLsb' 16 16 ++ (0 : BitVec 16) := BitVec.eq_of_getLsbD_eq fun i hi => by
  rw [show (0xFFFF0000 : W32) = BitVec.allOnes 16 ++ (0 : BitVec 16) from rfl, BitVec.getLsbD_and, BitVec.getLsbD_append,
    BitVec.getLsbD_append, BitVec.getLsbD_extractLsb', BitVec.getLsbD_allOnes]
  split
  case isTrue h => simp
  case isFalse h => rw [Bool.and_comm, show 16 + (i - 16) = i by omega]
/-- The halves of a lane, the lower first. -/
def halves (x : W32) : List W32 := [x <<< 16, x &&& 0xFFFF0000]
theorem halves_getD (x : W32) (hk : k < 2) : (halves x).getD k 0 = x.extractLsb' (16 * k) 16 ++ (0 : BitVec 16) := by
  obtain rfl | rfl : k = 0 ∨ k = 1 := by omega
  · exact low_half x
  · exact high_half x
theorem semVupbf_lane {hi : Bool} (ht : t.length = 1024) (hr : row < 16) (hc : col < 64) :
    (((semVupbf hi d p imm).run [t]).tile).getD (64 * row + col) 0 =
      (t.getD (64 * row + (col + if hi then 64 else 0) / 2) 0).extractLsb' (16 * (col % 2)) 16 ++ (0 : BitVec 16) := by
  have hlen (r : ℕ) (hr : r < 16) : ((t.drop (64 * r + if hi then 32 else 0)).take 32).length = 32 := by
    rw [List.length_take, List.length_drop]
    split <;> omega
  have htile : ((semVupbf hi d p imm).run [t]).tile =
      (List.range 16).flatMap fun r => ((t.drop (64 * r + if hi then 32 else 0)).take 32).flatMap halves := rfl
  have hchunk (r : ℕ) (hr : r ∈ List.range 16) : (((t.drop (64 * r + if hi then 32 else 0)).take 32).flatMap halves).length = 64 := by
    rw [List.flatMap_def, flatten_length (m := 2), List.length_map, hlen r (List.mem_range.1 hr)]
    intro l hl
    obtain ⟨x, -, rfl⟩ := List.mem_map.1 hl
    rfl
  rw [htile, flatMap_getD hc _ _ hchunk (by simpa using hr), List.getElem_range]
  conv_lhs => rw [← Nat.div_add_mod col 2]
  rw [flatMap_getD (Nat.mod_lt _ two_pos) _ _ (fun _ _ => rfl) (by rw [hlen _ hr]; omega), halves_getD _ (Nat.mod_lt _ two_pos),
    List.getElem_take, List.getElem_drop, ← List.getD_eq_getElem _ 0]
  congr 3
  split <;> omega
theorem packPairs_length (rm : RMode) : ∀ l : List W32, (packPairs rm l).length = l.length / 2
  | [] => rfl
  | [_] => by simp [packPairs]
  | x :: y :: r => by
    have ih := packPairs_length rm r
    simp only [packPairs, List.length_cons]
    omega
theorem packPairs_getD (rm : RMode) : ∀ (l : List W32) (k : ℕ), 2 * k + 1 < l.length → (packPairs rm l).getD k 0 =
    BitVec.ofNat 32 (bf16.rnd rm (fpVal (l.getD (2 * k) 0)) + 2 ^ 16 * bf16.rnd rm (fpVal (l.getD (2 * k + 1) 0)))
  | [], _, h => absurd h (Nat.not_lt_zero _)
  | [_], _, h => absurd h (by simp)
  | x :: y :: r, 0, _ => rfl
  | x :: y :: r, k + 1, h => packPairs_getD rm r k (by simp only [List.length_cons] at h; omega)
/-- A finite lane that BF16 holds packs to its upper half. -/
theorem bf16_rnd_fpVal (rm : RMode) (hx : LaneFin x) (h0 : x.extractLsb' 0 16 = 0) :
    bf16.rnd rm (fpVal x) = (x.extractLsb' 16 16).toNat := by
  have hlt : x.toNat < 2 ^ 32 := x.isLt
  have hlow := extractLsb'_eq_zero_iff.1 h0
  have hfin := laneFin_iff.1 hx
  change _ ≤ 0x7F7FFFFF at hfin
  obtain ⟨m, e, hfp, hval⟩ := fpVal_fin hx
  have hcode : x.toNat % 2 ^ 31 = x.toNat % 2 ^ 31 / 2 ^ 16 * 2 ^ 16 := by omega
  rw [hcode] at hval
  have hexact := FTy.bf16.rnd_exact rm (laneNeg x) (hval.trans (FTy.codeVal_eq .bf16 _).symm) (by change _ ≤ 0x7F7F; omega)
  rw [hfp, BitVec.extractLsb'_toNat, Nat.shiftRight_eq_div_pow]
  refine hexact.trans ?_
  rw [laneNeg, laneSign_eq]
  change (if decide (2 ^ 31 ≤ x.toNat) = true then 2 ^ 15 + x.toNat % 2 ^ 31 / 2 ^ 16 else x.toNat % 2 ^ 31 / 2 ^ 16) = _
  simp only [decide_eq_true_eq]
  split <;> omega
theorem ofNat_halves (u v : BitVec 16) : BitVec.ofNat 32 (u.toNat + 2 ^ 16 * v.toNat) = v ++ u := by
  refine BitVec.eq_of_toNat_eq ?_
  have hu := u.isLt
  have hv := v.isLt
  rw [BitVec.toNat_append, BitVec.toNat_ofNat, ← Nat.shiftLeft_add_eq_or_of_lt hu, Nat.shiftLeft_eq]
  omega
theorem semVpkbf_lane (ha : a.length = 1024) (hb : b.length = 1024) (hr : row < 16) (hc : col < 64) :
    let t := if col < 32 then a else b
    (((semVpkbf rm d p q imm).run [a, b]).tile).getD (64 * row + col) 0 =
      BitVec.ofNat 32 (bf16.rnd rm (fpVal (t.getD (64 * row + 2 * col % 64) 0)) +
        2 ^ 16 * bf16.rnd rm (fpVal (t.getD (64 * row + (2 * col % 64 + 1)) 0))) := by
  have htile : ((semVpkbf rm d p q imm).run [a, b]).tile =
      (List.range 16).flatMap fun r => packPairs rm (rowOf a r) ++ packPairs rm (rowOf b r) := rfl
  have hchunk (r : ℕ) (hr : r ∈ List.range 16) : (packPairs rm (rowOf a r) ++ packPairs rm (rowOf b r)).length = 64 := by
    rw [List.length_append, packPairs_length, packPairs_length, rowOf_length ha (List.mem_range.1 hr), rowOf_length hb (List.mem_range.1 hr)]
  have hla : (packPairs rm (rowOf a row)).length = 32 := by rw [packPairs_length, rowOf_length ha hr]
  dsimp only
  rw [htile, flatMap_getD hc _ _ hchunk (by simpa using hr), List.getElem_range]
  split
  case isTrue h =>
    rw [List.getD_append _ _ _ _ (by omega), packPairs_getD _ _ _ (by rw [rowOf_length ha hr]; omega), rowOf_getD (by omega),
      rowOf_getD (by omega), Nat.mod_eq_of_lt (by omega)]
  case isFalse h =>
    have hk : 2 * col % 64 = 2 * (col - 32) := by omega
    rw [List.getD_append_right _ _ _ _ (by omega), hla, packPairs_getD _ _ _ (by rw [rowOf_length hb hr]; omega), rowOf_getD (by omega),
      rowOf_getD (by omega), hk]

/-! ### Blocks (06 R115, R116; 08 R164, R165) -/

theorem leBytes_succ (n v : ℕ) : leBytes (n + 1) v = BitVec.ofNat 8 v :: leBytes n (v / 256) := rfl
/-- The CODE of a tile's block is the first byte of its first lane. -/
theorem tileBlock_code (ht : t.length = 1024) (hk : k < 64) :
    (tileBlock t k).extractLsb' 0 8 = (t.getD (16 * k) 0).extractLsb' 0 8 := by
  have hcons : (t.drop (16 * k)).take 16 = t.getD (16 * k) 0 :: ((t.drop (16 * k + 1)).take 15) := by
    rw [List.drop_eq_getElem_cons (by omega), List.take_succ_cons, List.getD_eq_getElem]
  unfold tileBlock blockOf bytesOf
  rw [hcons, List.flatMap_cons, leBytes_succ]
  refine BitVec.eq_of_toNat_eq ?_
  rw [BitVec.extractLsb'_toNat, BitVec.extractLsb'_toNat, Nat.shiftRight_zero, Nat.shiftRight_zero, BitVec.toNat_ofNat, List.cons_append, leNat,
    BitVec.toNat_ofNat]
  omega
theorem blkVal_poison {b : Block} (h : b.extractLsb' 0 8 = 0xFF) (i : ℕ) : blkVal b i = .nan canonNaN := by
  have hcode : blkCode b = some .poison := by
    rw [blkCode, h]
    rfl
  rw [blkVal, hcode]
theorem blkVal_zero {b : Block} (h : b.extractLsb' 0 8 = 0) (i : ℕ) : blkVal b i = .fin false 0 0 := by
  have hcode : blkCode b = some .zero := by
    rw [blkCode, h]
    rfl
  rw [blkVal, hcode]
theorem semVunpk_lane {hi : Bool} {ty : FTy} {m : BitVec 6} (hr : row < 16) (hc : col < 64) :
    (((semVunpk hi ty rm m d p imm).run [t]).tile).getD (64 * row + col) 0 =
      ty.store rm (blkVal (tileBlock t ((m.toNat + row) % 64)) (col + if hi then 64 else 0)) := by
  have htile : ((semVunpk hi ty rm m d p imm).run [t]).tile = ((List.range 16).map fun r => (m.toNat + r) % 64).flatMap fun j =>
      (List.range 64).map fun c => ty.store rm (blkVal (tileBlock t j) (c + if hi then 64 else 0)) := by
    refine List.map_flatMap.trans ?_
    simp only [List.map_map]
    rfl
  rw [htile, flatMap_getD hc _ _ (fun _ _ => by simp) (by simpa using hr), List.getElem_map, List.getElem_range]
  simp [List.getD_eq_getElem?_getD, hc]
/-- A POISON block unpacks to the canonical NaN and a ZERO block to zeros (06 R116). -/
theorem semVunpk_special {hi : Bool} {m : BitVec 6} (ht : t.length = 1024) (hr : row < 16) (hc : col < 64) :
    let code := (t.getD (16 * ((m.toNat + row) % 64)) 0).extractLsb' 0 8
    let lane := (((semVunpk hi .f32 rm m d p imm).run [t]).tile).getD (64 * row + col) 0
    (code = 0xFF → lane = 0x7FC00000) ∧ (code = 0 → lane = 0) := by
  have hcode := tileBlock_code ht (Nat.mod_lt (m.toNat + row) (by decide : 64 > 0))
  dsimp only
  rw [semVunpk_lane hr hc, ← hcode]
  refine ⟨fun h => ?_, fun h => ?_⟩
  · rw [blkVal_poison h]
    rfl
  · rw [blkVal_zero h]
    exact store_f32_zero rm false 0

end
end Sys2Proof.Machine
end

section
/-!
O24: the special functions at their special inputs (08 R161), clamping and the generator (08 R154, R163).
-/
namespace Sys2Proof.Machine

/-! ### Special functions (08 R161) -/

/-- What each special function gives at a zero (08 R161). -/
def SFn.atZero (fn : SFn) (neg : Bool) : FVal :=
  match fn with
  | .exp | .exp2 => .fin false 1 0
  | .ln | .log2 => .inf true
  | .rcp | .rsqrt => .inf neg
  | .sqrt | .tanh | .gelu | .erf => .fin neg 0 0
  | .sigm => .fin false 1 (-1)
/-- What each special function gives at an infinity (08 R161). -/
def SFn.atInf (fn : SFn) (neg : Bool) : FVal :=
  match fn with
  | .exp | .exp2 => if neg then .fin false 0 0 else .inf false
  | .ln | .log2 | .sqrt => if neg then .nan canonNaN else .inf false
  | .rcp => .fin neg 0 0
  | .rsqrt => if neg then .nan canonNaN else .fin false 0 0
  | .tanh | .erf => .fin neg 1 0
  | .sigm => if neg then .fin false 0 0 else .fin false 1 0
  | .gelu => if neg then .fin true 0 0 else .inf false
/-- The functions that have no value below zero. -/
def SFn.needsPos (fn : SFn) : Bool := fn == .ln || fn == .log2 || fn == .rsqrt || fn == .sqrt

section
variable {fn : SFn} {rm : RMode} {x : W32} {v : FVal}

theorem sfLane_nan (h : LaneNaN x) : sfLane fn .f32 rm x = x := by
  unfold sfLane
  rw [fpVal_nan h]
theorem sfLane_special (hx : ¬LaneNaN x) (h : sfSpecial fn (fpVal x) = some v) : sfLane fn .f32 rm x = BitVec.ofNat 32 (fp32.rnd rm v) := by
  have hn := isNaN_fpVal hx
  unfold sfLane
  generalize fpVal x = u at h hn ⊢
  cases u with
  | nan b => exact absurd hn (by simp [FVal.isNaN])
  | inf _ | fin _ _ _ =>
    dsimp only
    unfold sfRound
    rw [h]
theorem sfLane_zero (h : LaneZero x) : sfLane fn .f32 rm x = BitVec.ofNat 32 (fp32.rnd rm (SFn.atZero fn (laneNeg x))) :=
  sfLane_special h.fin.not_nan (by rw [fpVal_zero h]; cases fn <;> rfl)
theorem sfLane_inf (h : LaneInf x) : sfLane fn .f32 rm x = BitVec.ofNat 32 (fp32.rnd rm (SFn.atInf fn (laneNeg x))) :=
  sfLane_special h.not_nan (by rw [fpVal_inf h]; cases fn <;> rfl)
theorem rnd_one (rm : RMode) (s : Bool) : BitVec.ofNat 32 (fp32.rnd rm (.fin s 1 0)) = if s then 0xBF800000 else 0x3F800000 := by
  cases rm <;> cases s <;> decide
theorem rnd_half (rm : RMode) : BitVec.ofNat 32 (fp32.rnd rm (.fin false 1 (-1))) = 0x3F000000 := by cases rm <;> decide
/-- Below zero they give the canonical NaN. -/
theorem sfLane_neg (hfn : SFn.needsPos fn = true) (hx : ¬LaneNaN x) (h0 : ¬LaneZero x) (hneg : laneNeg x = true) :
    sfLane fn .f32 rm x = 0x7FC00000 := by
  have hspecial : sfSpecial fn (fpVal x) = some (.nan canonNaN) := by
    rcases laneFin_or_inf hx with hf | hi
    · obtain ⟨m, e, hval, hm⟩ := fpVal_of_ne_zero hf h0
      rw [hval, hneg]
      cases fn with
      | ln | log2 | rsqrt | sqrt => exact if_neg hm
      | exp | exp2 | rcp | tanh | sigm | gelu | erf => exact absurd hfn (by decide)
    · rw [fpVal_inf hi, hneg]
      cases fn with
      | ln | log2 | rsqrt | sqrt => rfl
      | exp | exp2 | rcp | tanh | sigm | gelu | erf => exact absurd hfn (by decide)
  rw [sfLane_special hx hspecial]
  rfl
theorem sfLane_log_one (rm : RMode) : sfLane .ln .f32 rm 0x3F800000 = 0 ∧ sfLane .log2 .f32 rm 0x3F800000 = 0 := by
  cases rm <;> decide

end

/-! ### Clamping (08 R154) -/

section
variable {x y z : W32}

theorem toInt_max (x y : W32) : (if NTy.below .i32 x y then y else x).toInt = max x.toInt y.toInt := by
  rw [if_congr (show NTy.below .i32 x y = true ↔ x.toInt < y.toInt from BitVec.slt_iff_toInt_lt) rfl rfl]
  split <;> omega
theorem toInt_min (x z : W32) : (if NTy.below .i32 z x then z else x).toInt = min x.toInt z.toInt := by
  rw [if_congr (show NTy.below .i32 z x = true ↔ z.toInt < x.toInt from BitVec.slt_iff_toInt_lt) rfl rfl]
  split <;> omega
theorem toNat_max (x y : W32) : (if NTy.below .u32 x y then y else x).toNat = max x.toNat y.toNat := by
  rw [if_congr (show NTy.below .u32 x y = true ↔ x.toNat < y.toNat from BitVec.ult_iff_lt) rfl rfl]
  split <;> omega
theorem toNat_min (x z : W32) : (if NTy.below .u32 z x then z else x).toNat = min x.toNat z.toNat := by
  rw [if_congr (show NTy.below .u32 z x = true ↔ z.toNat < x.toNat from BitVec.ult_iff_lt) rfl rfl]
  split <;> omega

variable {j : ℕ} {a b c : Tile} {d : VDst} {p q r : VSrc} {imm : W64}

theorem semVclamp_i32 (h : HasLane j [a, b, c]) : (((semVclamp .i32 d p q r imm).run [a, b, c]).tile).getD j 0 =
    BitVec.ofInt 32 (min (max (a.getD j 0).toInt (b.getD j 0).toInt) (c.getD j 0).toInt) := by
  refine (rawSem_lane h).trans ?_
  rw [← toInt_max, ← toInt_min, BitVec.ofInt_toInt]
  rfl
theorem semVclamp_u32 (h : HasLane j [a, b, c]) : (((semVclamp .u32 d p q r imm).run [a, b, c]).tile).getD j 0 =
    BitVec.ofNat 32 (min (max (a.getD j 0).toNat (b.getD j 0).toNat) (c.getD j 0).toNat) := by
  refine (rawSem_lane h).trans ?_
  rw [← toNat_max, ← toNat_min, BitVec.ofNat_toNat, BitVec.setWidth_eq]
  rfl

/-! ### The generator (08 R163) -/

/-- A counter equal to a key of 32 bits gives zero. -/
theorem rngLane_self (key : W64) (h : key.toNat < 2 ^ 32) : rngLane key (key.setWidth 32) = 0 := by
  have hhigh : key >>> 32 = 0 := by
    refine BitVec.eq_of_toNat_eq ?_
    rw [BitVec.toNat_ushiftRight, Nat.shiftRight_eq_div_pow, Nat.div_eq_of_lt h]
    rfl
  unfold rngLane
  rw [hhigh]
  simp
/-- A uniform number lies between 2^-25 and the greatest value below 1. -/
theorem uniform_bounds {k : ℕ} (hk : k < 2 ^ 24) : 0x33000000 ≤ (rndFp32 .rtz (.fin false (2 * k + 1) (-25))).toNat ∧
    (rndFp32 .rtz (.fin false (2 * k + 1) (-25))).toNat ≤ 0x3F7FFFFF := by
  have hlow : fp32.codeVal 0x33000000 = 2 ^ (-25 : ℤ) := by
    refine (FFmt.codeVal_eq (f := fp32) (e := 101) (i := 2 ^ 23) (by decide) (by decide)).trans ?_
    norm_num [fp32]
  have hone : fp32.codeVal 0x3F800000 = 1 := by
    refine (FFmt.codeVal_eq (f := fp32) (e := 126) (i := 2 ^ 23) (by decide) (by decide)).trans ?_
    norm_num [fp32]
  obtain ⟨hd, hfrac, hpos⟩ := magFrac_spec (2 * k + 1) (-25)
  obtain ⟨hle, hmax⟩ := FFmt.roundMag_rounds (f := fp32) .down (by decide) (hpos (Nat.succ_pos _)) hd
  rw [hfrac] at hle hmax
  have hk' : ((2 * k + 1 : ℕ) : ℚ) < 2 ^ 25 := by
    exact_mod_cast (show 2 * k + 1 < 2 ^ 25 by omega)
  have hge := hmax 0x33000000 (hlow.trans_le (le_mul_of_one_le_left (by positivity) (by exact_mod_cast Nat.succ_pos (2 * k))))
  have hlt := fp32.codeVal_strictMono.lt_iff_lt.1 (show fp32.codeVal _ < fp32.codeVal 0x3F800000 from
    (hle.trans_lt (by rw [hone, zpow_neg, ← div_eq_mul_inv, div_lt_one (by positivity)]; exact_mod_cast hk')))
  have hcap : fp32.roundMag .down (magFrac (2 * k + 1) (-25)).1 (magFrac (2 * k + 1) (-25)).2 ≤ fp32.maxCode := by
    change _ ≤ 0x7F7FFFFF
    omega
  have hlane : FTy.f32.store .rtz (.fin false (2 * k + 1) (-25)) =
      FTy.f32.lane false (fp32.roundMag .down (magFrac (2 * k + 1) (-25)).1 (magFrac (2 * k + 1) (-25)).2) := by
    rw [FTy.store_fin, FTy.put_eq, FTy.rnd_fin _ _ _ _ (Nat.succ_pos _), FTy.rndRat_eq]
    exact congrArg (FTy.f32.lane false) (if_pos hcap)
  have htoNat := congrArg BitVec.toNat hlane
  rw [f32_lane_toNat (by omega), if_neg Bool.false_ne_true, Nat.zero_add] at htoNat
  change 0x33000000 ≤ (FTy.f32.store .rtz _).toNat ∧ (FTy.f32.store .rtz _).toNat ≤ _
  rw [htoNat]
  omega
theorem uniform_zero : rndFp32 .rtz (.fin false 1 (-25)) = 0x33000000 := by decide

variable {t : Tile}

theorem semVrngUni_lane (h : HasLane j [t]) : (((semVrngUni d p imm).run [t]).tile).getD j 0 =
    rndFp32 .rtz (.fin false (2 * ((rngLane imm (t.getD j 0)).toNat / 256) + 1) (-25)) := rawSem_lane h
theorem semVrng_self (h : HasLane j [t]) (hx : t.getD j 0 = imm.setWidth 32) (hi : imm.toNat < 2 ^ 32) :
    (((semVrngRaw d p imm).run [t]).tile).getD j 0 = 0 ∧ (((semVrngUni d p imm).run [t]).tile).getD j 0 = 0x33000000 := by
  have hself : rngLane imm (t.getD j 0) = 0 := hx ▸ rngLane_self imm hi
  refine ⟨(rawSem_lane h).trans hself, ?_⟩
  rw [semVrngUni_lane h, hself]
  exact uniform_zero
theorem semVrngUni_bounds (h : HasLane j [t]) : 0x33000000 ≤ ((((semVrngUni d p imm).run [t]).tile).getD j 0).toNat ∧
    ((((semVrngUni d p imm).run [t]).tile).getD j 0).toNat ≤ 0x3F7FFFFF := by
  rw [semVrngUni_lane h]
  have hlt := (rngLane imm (t.getD j 0)).isLt
  exact uniform_bounds (by omega)

end
end Sys2Proof.Machine
end

section
/-!
O24: the special lanes of VEC, group by group (06 R114, R116; 08 R151 to R168).
-/
namespace Sys2Proof.Machine

/-- The type of a VDIV of integers (08 R148). -/
def ITy.vty (ty : ITy) : VTy :=
  match ty with
  | .i32 => .i32
  | .u32 => .u32

section
variable {j row col : ℕ} {a b c t : Tile} {rm : RMode} {d : VDst} {p q r : VSrc} {imm : W64} {x y : W32}

/-! ### Floating operands (08 R151) -/

theorem semVcvt_nan (h : HasLane j [t]) (hx : LaneNaN (t.getD j 0)) : (((semVcvt .i32 .f32 rm d p imm).run [t]).tile).getD j 0 = 0 := by
  rw [semVcvt_lane _ _ h]
  unfold cvtLane
  dsimp only
  rw [fpVal_nan hx]
  rfl
theorem semVneg_vabs (h : HasLane j [t]) (hx : ¬LaneNaN (t.getD j 0)) :
    (((semVneg .f32 rm d p imm).run [t]).tile).getD j 0 = t.getD j 0 ^^^ 0x80000000 ∧
      (((semVabs .f32 rm d p imm).run [t]).tile).getD j 0 = t.getD j 0 &&& 0x7FFFFFFF := by
  have hn : ∀ u ∈ lanesAt j [t], ¬LaneNaN u := List.forall_mem_singleton.2 hx
  obtain ⟨hneg, habs⟩ := store_neg_abs rm hx
  exact ⟨(floatSem_store h hn).trans hneg, (floatSem_store h hn).trans habs⟩

section
variable (h : HasLane j [a, b])
include h

theorem floatSem_two {cls : VClass} {srcs : List VSrc} {g : List FVal → FVal} {v : FVal} (hx : ¬LaneNaN (a.getD j 0))
    (hy : ¬LaneNaN (b.getD j 0)) (hg : g [fpVal (a.getD j 0), fpVal (b.getD j 0)] = v) :
    (((floatSem .f32 rm d srcs imm cls g).run [a, b]).tile).getD j 0 = FTy.f32.store rm v := by
  rw [floatSem_store h (List.forall_mem_cons.2 ⟨hx, List.forall_mem_singleton.2 hy⟩), ← hg]
  rfl
/-- Infinities have no quotient, equal ones no difference, opposite ones no sum. -/
theorem semPairs_inf (hx : LaneInf (a.getD j 0)) (hy : LaneInf (b.getD j 0)) :
    (((semVdiv .f32 rm d p q imm).run [a, b]).tile).getD j 0 = canonNaN ∧
      (a.getD j 0 = b.getD j 0 → (((semVsub .f32 rm d p q imm).run [a, b]).tile).getD j 0 = canonNaN) ∧
      (a.getD j 0 ≠ b.getD j 0 → (((semVadd .f32 rm d p q imm).run [a, b]).tile).getD j 0 = canonNaN) := by
  refine ⟨(semVdiv_lane (ty := .f32) h).trans (fdivLane_inf_inf hx hy), fun he => ?_, fun hne => ?_⟩
  · refine floatSem_two h (v := .nan canonNaN) hx.not_nan hy.not_nan ?_
    change fadd rm (fpVal (a.getD j 0)) (fneg (fpVal (b.getD j 0))) = _
    rw [← he, fpVal_inf hx]
    exact fadd_inf_cancel rm _
  · refine floatSem_two h (v := .nan canonNaN) hx.not_nan hy.not_nan ?_
    change fadd rm (fpVal (a.getD j 0)) (fpVal (b.getD j 0)) = _
    rw [fpVal_inf hx, fpVal_inf hy, laneInf_neg_ne hx hy hne]
    exact fadd_inf_cancel rm _
theorem semVmul_inf_zero (hxy : LaneInf (a.getD j 0) ∧ LaneZero (b.getD j 0) ∨ LaneZero (a.getD j 0) ∧ LaneInf (b.getD j 0)) :
    (((semVmul .f32 rm d p q imm).run [a, b]).tile).getD j 0 = canonNaN := by
  rcases hxy with ⟨hx, hy⟩ | ⟨hx, hy⟩
  · exact floatSem_two h (v := .nan canonNaN) hx.not_nan hy.fin.not_nan (fmul_inf_zero hx hy)
  · exact floatSem_two h (v := .nan canonNaN) hx.fin.not_nan hy.not_nan (fmul_zero_inf hx hy)
theorem semVsub_self (he : a.getD j 0 = b.getD j 0) (h0 : ¬LaneZero (a.getD j 0)) (hx : LaneFin (a.getD j 0)) :
    (((semVsub .f32 rm d p q imm).run [a, b]).tile).getD j 0 = if rm = .rdn then 0x80000000 else 0 := by
  refine (floatSem_two h hx.not_nan (he ▸ hx.not_nan) rfl).trans ?_
  change FTy.f32.store rm (fadd rm (fpVal (a.getD j 0)) (fneg (fpVal (b.getD j 0)))) = _
  rw [← he]
  exact store_sub_self rm hx h0

/-! ### Comparisons (08 R154) -/

/-- The comparisons of integers. -/
theorem semVcmp_int :
    let x := a.getD j 0
    let y := b.getD j 0
    let cmp (cc : VCond) (ty : NTy) (P : Prop) [Decidable P] : Prop :=
      (((semVcmp cc ty d p q imm).run [a, b]).tile).getD j 0 = if P then 0xFFFFFFFF else 0
    cmp .lt .i32 (x.toInt < y.toInt) ∧ cmp .ge .i32 (y.toInt ≤ x.toInt) ∧ cmp .lt .u32 (x.toNat < y.toNat) ∧
      cmp .le .u32 (x.toNat ≤ y.toNat) ∧ cmp .gt .u32 (y.toNat < x.toNat) ∧ cmp .eq .i32 (x = y) ∧ cmp .ne .i32 (x ≠ y) := by
  have hnot {v : Bool} {P : Prop} (hv : v = true ↔ P) : (!v) = true ↔ ¬P := Bool.not_iff_not.trans (not_congr hv)
  refine ⟨?_, ?_, ?_, ?_, ?_, ?_, ?_⟩
  · exact semVcmp_lane h BitVec.slt_iff_toInt_lt
  · exact semVcmp_lane h ((hnot BitVec.slt_iff_toInt_lt).trans not_lt)
  · exact semVcmp_lane h BitVec.ult_iff_lt
  · exact semVcmp_lane h ((hnot (BitVec.ult_iff_lt.trans BitVec.lt_def)).trans not_lt)
  · exact semVcmp_lane h BitVec.ult_iff_lt
  · exact semVcmp_lane h beq_iff_eq
  · exact semVcmp_lane h (hnot beq_iff_eq)
theorem semVcmp_nan (hn : LaneNaN (a.getD j 0) ∨ LaneNaN (b.getD j 0)) (cc : VCond) :
    (((semVcmp cc .f32 d p q imm).run [a, b]).tile).getD j 0 = if (cc == .ne || cc == .un) = true then 0xFFFFFFFF else 0 :=
  semVcmp_lane h (by rw [vcmpHolds_nan hn])
theorem semVcmp_zero (hx : LaneZero (a.getD j 0)) (hy : LaneZero (b.getD j 0)) (cc : VCond) :
    (((semVcmp cc .f32 d p q imm).run [a, b]).tile).getD j 0 = if (cc == .eq || cc == .le || cc == .ge) = true then 0xFFFFFFFF else 0 :=
  semVcmp_lane h (by rw [vcmpHolds_zero hx hy])

/-! ### Integer division (08 R152) -/

theorem semVdiv_i32 : (((semVdiv .i32 rm d p q imm).run [a, b]).tile).getD j 0 = laneDiv .i32 false (a.getD j 0) (b.getD j 0) :=
  rawSem_lane (f := fun ls => laneDiv .i32 false (ls.getD 0 0) (ls.getD 1 0)) h
theorem semVdiv_u32 : (((semVdiv .u32 rm d p q imm).run [a, b]).tile).getD j 0 = laneDiv .u32 false (a.getD j 0) (b.getD j 0) :=
  rawSem_lane (f := fun ls => laneDiv .u32 false (ls.getD 0 0) (ls.getD 1 0)) h
theorem semVdivRem_lane (ty : ITy) : (((semVdivRem ty d p q imm).run [a, b]).tile).getD j 0 = laneDiv ty true (a.getD j 0) (b.getD j 0) :=
  rawSem_lane (f := fun ls => laneDiv ty true (ls.getD 0 0) (ls.getD 1 0)) h
theorem semDiv_by_zero (hy : b.getD j 0 = 0) (ty : ITy) :
    (((semVdiv (ITy.vty ty) rm d p q imm).run [a, b]).tile).getD j 0 = 0xFFFFFFFF ∧
      (((semVdivRem ty d p q imm).run [a, b]).tile).getD j 0 = a.getD j 0 := by
  obtain ⟨hdiv, hrem⟩ := laneDiv_zero ty (a.getD j 0) hy
  refine ⟨?_, (semVdivRem_lane h ty).trans hrem⟩
  cases ty with
  | i32 => exact (semVdiv_i32 h).trans hdiv
  | u32 => exact (semVdiv_u32 h).trans hdiv
theorem semDiv_overflow (hx : a.getD j 0 = 0x80000000) (hy : b.getD j 0 = 0xFFFFFFFF) :
    (((semVdiv .i32 rm d p q imm).run [a, b]).tile).getD j 0 = a.getD j 0 ∧
      (((semVdivRem .i32 d p q imm).run [a, b]).tile).getD j 0 = 0 := by
  rw [semVdiv_i32 h, semVdivRem_lane h, hx, hy]
  exact laneDiv_overflow

end

/-! ### Special functions (08 R161) -/

section
variable (h : HasLane j [t])
include h

/-- The lane that a special function word leaves. -/
theorem sfSem_at {fn : SFn} {z : W32} (hz : sfLane fn .f32 rm (t.getD j 0) = z) :
    (((sfSem fn .f32 rm d p imm).run [t]).tile).getD j 0 = z := (sfSem_lane h).trans hz
/-- The lane at a zero, by the function's value there. -/
theorem sfSem_zero (hx : LaneZero (t.getD j 0)) {fn : SFn} {z : W32}
    (hz : BitVec.ofNat 32 (fp32.rnd rm (SFn.atZero fn (laneNeg (t.getD j 0)))) = z) :
    (((sfSem fn .f32 rm d p imm).run [t]).tile).getD j 0 = z := sfSem_at h ((sfLane_zero hx).trans hz)
/-- The lane at an infinity, by the function's value there. -/
theorem sfSem_inf (hx : LaneInf (t.getD j 0)) {fn : SFn} {z : W32}
    (hz : BitVec.ofNat 32 (fp32.rnd rm (SFn.atInf fn (laneNeg (t.getD j 0)))) = z) :
    (((sfSem fn .f32 rm d p imm).run [t]).tile).getD j 0 = z := sfSem_at h ((sfLane_inf hx).trans hz)
/-- The eleven functions of a zero. -/
theorem special_zero (hx : LaneZero (t.getD j 0)) :
    let x := t.getD j 0
    let f (i : Instr) (v : W32) : Prop := (resultTile i [t]).getD j 0 = v
    f (.vexp .f32 rm d p imm) 0x3F800000 ∧ f (.vexp2 .f32 rm d p imm) 0x3F800000 ∧ f (.vln .f32 rm d p imm) 0xFF800000 ∧
      f (.vlog2 .f32 rm d p imm) 0xFF800000 ∧ f (.vrcp .f32 rm d p imm) (x ||| 0x7F800000) ∧
      f (.vrsqrt .f32 rm d p imm) (x ||| 0x7F800000) ∧ f (.vsqrt .f32 rm d p imm) x ∧ f (.vtanh .f32 rm d p imm) x ∧
      f (.vsigm .f32 rm d p imm) 0x3F000000 ∧ f (.vgelu .f32 rm d p imm) x ∧ f (.verf .f32 rm d p imm) x := by
  have hself : BitVec.ofNat 32 (fp32.rnd rm (.fin (laneNeg (t.getD j 0)) 0 0)) = t.getD j 0 := by
    have hx' := f32_lane_self (t.getD j 0)
    rw [laneZero_iff.1 hx] at hx'
    exact (store_f32_zero rm _ 0).trans hx'
  have hinf : BitVec.ofNat 32 (fp32.rnd rm (.inf (laneNeg (t.getD j 0)))) = t.getD j 0 ||| 0x7F800000 :=
    (store_f32_inf rm _).trans hx.or_inf.symm
  have hlog : BitVec.ofNat 32 (fp32.rnd rm (.inf true)) = 0xFF800000 := store_f32_inf rm true
  exact ⟨sfSem_zero h hx (rnd_one rm false), sfSem_zero h hx (rnd_one rm false), sfSem_zero h hx hlog, sfSem_zero h hx hlog,
    sfSem_zero h hx hinf, sfSem_zero h hx hinf, sfSem_zero h hx hself, sfSem_zero h hx hself, sfSem_zero h hx (rnd_half rm),
    sfSem_zero h hx hself, sfSem_zero h hx hself⟩
/-- The eleven functions of the positive infinity. -/
theorem special_posInf (hx : t.getD j 0 = 0x7F800000) :
    let x := t.getD j 0
    let f (i : Instr) (v : W32) : Prop := (resultTile i [t]).getD j 0 = v
    f (.vexp .f32 rm d p imm) x ∧ f (.vexp2 .f32 rm d p imm) x ∧ f (.vln .f32 rm d p imm) x ∧ f (.vlog2 .f32 rm d p imm) x ∧
      f (.vrcp .f32 rm d p imm) 0 ∧ f (.vrsqrt .f32 rm d p imm) 0 ∧ f (.vsqrt .f32 rm d p imm) x ∧
      f (.vtanh .f32 rm d p imm) 0x3F800000 ∧ f (.vsigm .f32 rm d p imm) 0x3F800000 ∧ f (.vgelu .f32 rm d p imm) x ∧
      f (.verf .f32 rm d p imm) 0x3F800000 := by
  have hi : LaneInf (t.getD j 0) := laneInf_iff.2 (hx ▸ rfl)
  have hneg : laneNeg (t.getD j 0) = false := hx ▸ rfl
  have hat {fn : SFn} {z : W32} (hz : BitVec.ofNat 32 (fp32.rnd rm (SFn.atInf fn false)) = z) :
      (((sfSem fn .f32 rm d p imm).run [t]).tile).getD j 0 = z := sfSem_inf h hi (hneg.symm ▸ hz)
  have hinf : BitVec.ofNat 32 (fp32.rnd rm (.inf false)) = t.getD j 0 := (store_f32_inf rm false).trans hx.symm
  exact ⟨hat hinf, hat hinf, hat hinf, hat hinf, hat rfl, hat rfl, hat hinf, hat (rnd_one rm false), hat (rnd_one rm false), hat hinf,
    hat (rnd_one rm false)⟩
/-- The functions of the negative infinity that have a value there. -/
theorem special_negInf (hx : t.getD j 0 = 0xFF800000) :
    let f (i : Instr) (v : W32) : Prop := (resultTile i [t]).getD j 0 = v
    f (.vexp .f32 rm d p imm) 0 ∧ f (.vexp2 .f32 rm d p imm) 0 ∧ f (.vrcp .f32 rm d p imm) 0x80000000 ∧
      f (.vtanh .f32 rm d p imm) 0xBF800000 ∧ f (.vsigm .f32 rm d p imm) 0 ∧ f (.vgelu .f32 rm d p imm) 0x80000000 ∧
      f (.verf .f32 rm d p imm) 0xBF800000 := by
  have hi : LaneInf (t.getD j 0) := laneInf_iff.2 (hx ▸ rfl)
  have hneg : laneNeg (t.getD j 0) = true := hx ▸ rfl
  have hat {fn : SFn} {z : W32} (hz : BitVec.ofNat 32 (fp32.rnd rm (SFn.atInf fn true)) = z) :
      (((sfSem fn .f32 rm d p imm).run [t]).tile).getD j 0 = z := sfSem_inf h hi (hneg.symm ▸ hz)
  exact ⟨hat rfl, hat rfl, hat rfl, hat (rnd_one rm true), hat rfl, hat rfl, hat (rnd_one rm true)⟩

/-- Every special function passes a NaN on. -/
theorem special_nan (hx : LaneNaN (t.getD j 0)) (fn : SFn) : (((sfSem fn .f32 rm d p imm).run [t]).tile).getD j 0 = t.getD j 0 :=
  sfSem_at h (sfLane_nan hx)
/-- A logarithm or a root of a lane below zero is the canonical NaN. -/
theorem special_neg (hx : ¬LaneNaN (t.getD j 0)) (h0 : ¬LaneZero (t.getD j 0)) (hneg : laneNeg (t.getD j 0) = true) {fn : SFn}
    (hfn : SFn.needsPos fn = true) : (((sfSem fn .f32 rm d p imm).run [t]).tile).getD j 0 = 0x7FC00000 :=
  sfSem_at h (sfLane_neg hfn hx h0 hneg)
theorem special_one (hx : t.getD j 0 = 0x3F800000) : (((sfSem .ln .f32 rm d p imm).run [t]).tile).getD j 0 = 0 ∧
    (((sfSem .log2 .f32 rm d p imm).run [t]).tile).getD j 0 = 0 := by
  obtain ⟨hln, hlog2⟩ := sfLane_log_one rm
  exact ⟨sfSem_at h (hx ▸ hln), sfSem_at h (hx ▸ hlog2)⟩

end

end

/-- Settles O24: each group of lanes by its lemma above, a lane of a row word by its row. -/
theorem vecSpecialLanes : Obligations.VecSpecialLanes := by
  unfold Obligations.VecSpecialLanes
  intro rm d p o n imm a b c row col ha hb hc hr hcol
  have hj : 64 * row + col < 1024 := by omega
  have h1 : HasLane (64 * row + col) [a] := hasLane_one (by omega)
  have h2 : HasLane (64 * row + col) [a, b] := hasLane_two (by omega) (by omega)
  have h3 : HasLane (64 * row + col) [a, b, c] := hasLane_three (by omega) (by omega) (by omega)
  have nil (P : W32 → Prop) : ∀ u ∈ ([] : List W32), P u := fun _ h => absurd h List.not_mem_nil
  refine ⟨fun hx => ?_, fun hx hy => ?_, fun hx hy hw => ?_, fun hx => semVneg_vabs h1 hx, fun hx hy => semPairs_inf h2 hx hy,
    fun hxy => semVmul_inf_zero h2 hxy, fun hy => ⟨fun hx => ?_, fun h0 hx => ?_⟩, fun he h0 hx => semVsub_self h2 he h0 hx, fun hy ty => ?_,
    fun hx hy => ?_, fun hy => ?_, fun hy ho => ?_, ?_⟩
  · exact ⟨pairsAt_nan (l := []) h2 rfl (nil _) hx, floatSem_nan (l := []) h1 rfl (nil _) hx, floatSem_nan (l := []) h1 rfl (nil _) hx,
      floatSem_nan (l := []) h3 rfl (nil _) hx, semVcvt_nan h1 hx⟩
  · have hl : ∀ u ∈ [a.getD (64 * row + col) 0], ¬LaneNaN u := List.forall_mem_singleton.2 hx
    exact ⟨pairsAt_nan h2 rfl hl hy, floatSem_nan h3 rfl hl hy⟩
  · exact floatSem_nan h3 rfl (List.forall_mem_cons.2 ⟨hx, List.forall_mem_singleton.2 hy⟩) hw
  · exact (semVdiv_lane (ty := .f32) h2).trans (fdivLane_zero_zero hx hy)
  · exact (semVdiv_lane (ty := .f32) h2).trans (fdivLane_by_zero hx h0 hy)
  · exact semDiv_by_zero h2 hy ty
  · exact semDiv_overflow h2 hx hy
  · exact ⟨_, _, semVdiv_u32 h2, semVdivRem_lane h2 .u32, laneDiv_u32_spec hy⟩
  · exact ⟨_, _, semVdiv_i32 h2, semVdivRem_lane h2 .i32, laneDiv_i32_spec hy ho⟩
  obtain ⟨hlt, hge, hltu, hleu, hgtu, heq, hne⟩ := semVcmp_int (d := d) (p := p) (q := o) (imm := imm) h2
  refine ⟨hlt, hge, hltu, hleu, hgtu, heq, hne, fun hn => ?_, fun hx hy => ?_, ?_, ?_, ?_, ?_, ?_, ?_, fun hi => semVupbf_lane ha hr hcol,
    fun u v hu hv hfu hfv hu0 hv0 => ?_,
    ⟨fun hx => ?_, special_zero h1, special_posInf h1, special_negInf h1, fun hx h0 hneg => ?_, special_one h1⟩,
    semVclamp_i32 h3, semVclamp_u32 h3, ?_, ?_, rfl, fun hx hi => semVrng_self h1 hx hi, semVrngUni_bounds h1, fun hi m => ?_⟩
  · exact ⟨semVcmp_nan h2 hn .un, semVcmp_nan h2 hn .ne, semVcmp_nan h2 hn .eq, semVcmp_nan h2 hn .lt, semVcmp_nan h2 hn .ge,
      semVcmp_nan h2 hn .gt, semVcmp_nan h2 hn .le⟩
  · exact ⟨semVcmp_zero h2 hx hy .eq, semVcmp_zero h2 hx hy .lt, semVcmp_zero h2 hx hy .un⟩
  · exact semVrsum_lane (ty := .i32) (by decide) ha hr hcol
  · refine (semVrsum_lane (ty := .u32) (by decide) ha hr hcol).trans ?_
    exact ofInt_sum_toNat (List.range 64) fun k => a.getD (64 * row + k) 0
  · exact scanSem_lane (ty := .i32) (excl := false) (by decide) ha hr hcol
  · exact scanSem_lane (ty := .i32) (excl := true) (by decide) ha hr hcol
  · obtain ⟨k, hk, -, hval, hbest⟩ := row_best beats_max_i32 ha hr
    exact ⟨k, hk, (bestSem_lane ha hr hcol).trans hval, fun m hm => (hbest m hm).1⟩
  · obtain ⟨k, hk, -, hval, hbest⟩ := row_best beats_min_u32 ha hr
    exact ⟨k, hk, (bestSem_lane ha hr hcol).trans hval, fun m hm => Int.ofNat_le.1 (neg_le_neg_iff.1 (hbest m hm).1)⟩
  · subst hu hv
    refine (semVpkbf_lane ha hb hr hcol).trans ?_
    exact (congrArg₂ (fun m n => BitVec.ofNat 32 (m + 2 ^ 16 * n)) (bf16_rnd_fpVal rm hfu hu0) (bf16_rnd_fpVal rm hfv hv0)).trans
      (ofNat_halves _ _)
  · exact ⟨special_nan h1 hx .exp, special_nan h1 hx .exp2, special_nan h1 hx .ln, special_nan h1 hx .log2, special_nan h1 hx .rcp,
      special_nan h1 hx .rsqrt, special_nan h1 hx .sqrt, special_nan h1 hx .tanh, special_nan h1 hx .sigm, special_nan h1 hx .gelu,
      special_nan h1 hx .erf⟩
  · exact ⟨special_neg h1 hx h0 hneg (fn := .ln) rfl, special_neg h1 hx h0 hneg (fn := .log2) rfl,
      special_neg h1 hx h0 hneg (fn := .rsqrt) rfl, special_neg h1 hx h0 hneg (fn := .sqrt) rfl⟩
  · obtain ⟨k, hk, hidx, hval, hbest⟩ := row_best beats_max_i32 ha hr
    obtain ⟨htile, hindex⟩ := bestIdxSem_lane (mx := true) (ty := .i32) (d := d) (p := p) (imm := imm) ha hr hcol
    exact ⟨k, hk, htile.trans hval, hindex.trans (by rw [hidx]), hbest⟩
  · obtain ⟨k, hk, hidx, hval, hbest⟩ := row_best beats_min_u32 ha hr
    obtain ⟨htile, hindex⟩ := bestIdxSem_lane (mx := false) (ty := .u32) (d := d) (p := p) (imm := imm) ha hr hcol
    exact ⟨k, hk, htile.trans hval, hindex.trans (by rw [hidx]), fun m hm =>
      ⟨Int.ofNat_le.1 (neg_le_neg_iff.1 (hbest m hm).1), (hbest m hm).2⟩⟩
  · exact semVunpk_special ha hr hcol

end Sys2Proof.Machine
end
